-- ==== Sys2Proof/Word.lean ====
section
/-! DEFINITION. The word types of the BX-7200 (spec/00_scope.md R6, spec/01_hart_and_issue.md R14, R16). -/

namespace Sys2Proof

/-- A byte of memory (R6). -/
abbrev Byte := BitVec 8
/-- A 16-bit parcel of code or a BF16 pattern. -/
abbrev Half := BitVec 16
/-- A 32-bit vector element or instruction word (R16). -/
abbrev Elem := BitVec 32
/-- A 48-bit accumulator element (R43). -/
abbrev A48 := BitVec 48
/-- A 64-bit scalar register, CSR or address (R14). -/
abbrev Word := BitVec 64
/-- The bits of one mask register (R14). -/
abbrev MaskBits := BitVec 8192
/-- The five sticky flags NX, UF, OF, DZ, NV of fflags, bit 0 to bit 4 (R22). -/
abbrev FFlags := BitVec 5

end Sys2Proof
end

