-- ==== Sys2Proof/Forms.lean ====
section
/-! DEFINITION. The operand forms of an instruction and what arrives with an event. -/

namespace Sys2Proof

/-- The operand B with its FORM (R61): a vector register, a scalar register or a 5-bit immediate. -/
inductive BOp where
  | vv (n : BitVec 5)
  | vs (n : BitVec 5)
  | vi (n : BitVec 5)
deriving DecidableEq, Repr

/-- Whether B names a vector group. -/
def BOp.isVector : BOp → Bool
  | .vv _ => true
  | _ => false

/-- What one member of a collective announces and contributes (R166, R290), with where its buffers lie in its HBM. -/
structure Member where
  id : Nat
  ids : List Nat
  op : BitVec 2
  itype : Bool
  otype : Bool
  nmem : Nat
  root : Nat
  count : Nat
  input : List Elem
  /-- which of the member's collectives with this list it is (R290) -/
  turn : Nat
  base : Nat
  len : Nat
deriving DecidableEq, Repr

/-- A fabric grant (R282): who may reach which range of the target's device physical addresses. -/
structure FabricGrant where
  srcNode : Nat
  srcPart : Nat
  dstNode : Nat
  dstPart : Nat
  base : Nat
  len : Nat
  write : Bool
deriving DecidableEq, Repr

/-- What a peer's access does at this device's memory (R284): a read, a write, an AMO by its minor with the operand and
the value that AMOCAS expects, or a VAT element by its minor. A VACAD reaches no peer (R283). -/
inductive RemoteOp where
  | read (len : Nat)
  | write (bytes : List Byte)
  | amo (minor : BitVec 2) (operand expected : Word)
  | vat (minor : BitVec 3) (operand : Elem)
deriving DecidableEq, Repr

/-- How many bytes a peer's access reaches, and whether it needs write permission. -/
def RemoteOp.bytes (op : RemoteOp) : Nat :=
  match op with
  | .read n => n
  | .write bs => bs.length
  | .amo _ _ _ => 8
  | .vat _ _ => 4

def RemoteOp.writes (op : RemoteOp) : Bool :=
  match op with
  | .read _ => false
  | .write _ => true
  | .amo _ _ _ => true
  | .vat _ _ => true

/-- A request that arrives from a peer (R282). -/
structure RemoteRequest where
  srcNode : Nat
  srcPart : Nat
  addr : Nat
  op : RemoteOp
deriving DecidableEq, Repr

/-- A copy that arrives from a peer's engine for a skim region of a local partition (R288). -/
structure RemoteCopy where
  srcNode : Nat
  srcPart : Nat
  part : Nat
  addr : Nat
  bytes : List Byte
  region : Nat
  publish : Bool
deriving DecidableEq, Repr

/-- A rejection that reaches the source (R282): the hart or the engine queue, what the record names of the access (R26), and
where the bytes of a write lie, which is performed nowhere. -/
structure Rejection where
  hart : Nat
  queue : Option Nat
  inFlight : Bool
  fpc : Word
  fstrip : Word
  elem : Nat
  va : Word
  loc : Nat
  len : Nat
  st : BitVec 2
  fmt : BitVec 3
  write : Bool
  scope : BitVec 2
deriving DecidableEq, Repr

/-- A request for a partition (R296). -/
structure PartitionRequest where
  part : Nat
  cores : List Nat
  minCores : Nat
  hbm : BitVec 8
  links : BitVec 24
  envelope : Nat
  pair : Option Nat
  functions : List Nat
  roots : List Word
  saveBase : Word
  signed : Bool
  keys : List (List Byte)
  target : Nat
deriving DecidableEq, Repr

/-- The unit map (R312): the cores that are present; slices of a core (16 × core + slice), tile rows of an array
(16 × cluster + row) and banks of a vault (64 × core + bank) that are not; HBM stacks present, and the spare rows
used, by bank; links present, and those whose spare lane is; copy engines present, by cluster. -/
structure UnitMap where
  cores : BitVec 192
  slicesAbsent : List Nat
  rowsAbsent : List Nat
  banksAbsent : List Nat
  hbm : BitVec 8
  spareRowsUsed : List (Nat × Nat)
  links : BitVec 24
  spareLanes : BitVec 24
  engines : BitVec 48
deriving DecidableEq, Repr

/-- The map of a device with every unit. -/
def UnitMap.whole : UnitMap :=
  { cores := BitVec.allOnes 192, slicesAbsent := [], rowsAbsent := [], banksAbsent := [], hbm := 0xFF,
    spareRowsUsed := [], links := 0xFFFFFF, spareLanes := 0xFFFFFF, engines := BitVec.allOnes 48 }

/-- Where a remapped row lies (R309). -/
inductive RowUnit where
  | hbm (stack : Nat)
  | vault (core : Nat)
deriving DecidableEq, Repr

end Sys2Proof
end

