-- ==== Sys2Proof/Syntax.lean ====
section
/-! DEFINITION. The instructions and events of the BX-7200: one constructor for each row of
spec/opcode_table.json. The letters of a word's fields are those of the table (d, a, b, m, s, q, t, u, n,
c, k, p, i, o); an event's arguments name the agent it happens to and what arrives with it.
Words with fields stand first, then words without, then events. -/

namespace Sys2Proof

/-- The instructions and events. -/
inductive Instr where
  /-- `ADD` (R83). s[D] := s[A] + s[B] modulo 2^64. -/
  | add (d a b : BitVec 5)
  /-- `SUB` (R83). s[D] := s[A] - s[B] modulo 2^64. -/
  | sub (d a b : BitVec 5)
  /-- `AND` (R83). s[D] := s[A] AND s[B]. -/
  | and (d a b : BitVec 5)
  /-- `OR` (R83). s[D] := s[A] OR s[B]. -/
  | or (d a b : BitVec 5)
  /-- `XOR` (R83). s[D] := s[A] XOR s[B]. -/
  | xor (d a b : BitVec 5)
  /-- `SLL` (R83). s[D] := s[A] shifted left by s[B][5:0]. -/
  | sll (d a b : BitVec 5)
  /-- `SRL` (R83). s[D] := s[A] shifted right logically by s[B][5:0]. -/
  | srl (d a b : BitVec 5)
  /-- `SRA` (R83). s[D] := s[A] shifted right arithmetically by s[B][5:0]. -/
  | sra (d a b : BitVec 5)
  /-- `SLT` (R83). s[D] := 1 if s[A] < s[B] signed, else 0. -/
  | slt (d a b : BitVec 5)
  /-- `SLTU` (R83). s[D] := 1 if s[A] < s[B] unsigned, else 0. -/
  | sltu (d a b : BitVec 5)
  /-- `MUL` (R83). s[D] := low 64 bits of s[A] x s[B]. -/
  | mul (d a b : BitVec 5)
  /-- `MULH` (R83). s[D] := high 64 bits of the signed 128-bit product. -/
  | mulh (d a b : BitVec 5)
  /-- `MULHU` (R83). s[D] := high 64 bits of the unsigned 128-bit product. -/
  | mulhu (d a b : BitVec 5)
  /-- `DIV` (R83). s[D] := signed quotient truncated toward zero, with fixed results for division by zero and overflow. -/
  | div (d a b : BitVec 5)
  /-- `DIVU` (R83). s[D] := unsigned quotient; division by zero gives 2^64 - 1. -/
  | divu (d a b : BitVec 5)
  /-- `REM` (R83). s[D] := signed remainder with the sign of the dividend. -/
  | rem (d a b : BitVec 5)
  /-- `REMU` (R83). s[D] := unsigned remainder; division by zero gives s[A]. -/
  | remu (d a b : BitVec 5)
  /-- `MIN` (R83). s[D] := signed minimum of s[A] and s[B]. -/
  | min (d a b : BitVec 5)
  /-- `MAX` (R83). s[D] := signed maximum of s[A] and s[B]. -/
  | max (d a b : BitVec 5)
  /-- `MINU` (R83). s[D] := unsigned minimum of s[A] and s[B]. -/
  | minu (d a b : BitVec 5)
  /-- `MAXU` (R83). s[D] := unsigned maximum of s[A] and s[B]. -/
  | maxu (d a b : BitVec 5)
  /-- `CLZ` (R83). s[D] := number of leading zero bits of s[A]. -/
  | clz (d a : BitVec 5)
  /-- `CTZ` (R83). s[D] := number of trailing zero bits of s[A]. -/
  | ctz (d a : BitVec 5)
  /-- `POPC` (R83). s[D] := number of 1 bits of s[A]. -/
  | popc (d a : BitVec 5)
  /-- `ADDI` (R84). s[D] := s[A] + sign-extended IMM11. -/
  | addi (d a : BitVec 5) (i : BitVec 11)
  /-- `ANDI` (R84). s[D] := s[A] AND sign-extended IMM11. -/
  | andi (d a : BitVec 5) (i : BitVec 11)
  /-- `ORI` (R84). s[D] := s[A] OR sign-extended IMM11. -/
  | ori (d a : BitVec 5) (i : BitVec 11)
  /-- `XORI` (R84). s[D] := s[A] XOR sign-extended IMM11. -/
  | xori (d a : BitVec 5) (i : BitVec 11)
  /-- `SLLI` (R84). s[D] := s[A] shifted left by IMM11[5:0]. -/
  | slli (d a : BitVec 5) (i : BitVec 6)
  /-- `SRLI` (R84). s[D] := s[A] shifted right logically by IMM11[5:0]. -/
  | srli (d a : BitVec 5) (i : BitVec 6)
  /-- `SRAI` (R84). s[D] := s[A] shifted right arithmetically by IMM11[5:0]. -/
  | srai (d a : BitVec 5) (i : BitVec 6)
  /-- `SLTI` (R84). s[D] := 1 if s[A] < sign-extended IMM11 signed, else 0. -/
  | slti (d a : BitVec 5) (i : BitVec 11)
  /-- `LIL` (R85). s[D] := sign-extended IMM16. -/
  | lil (d : BitVec 5) (i : BitVec 16)
  /-- `LIH` (R85). s[D][31:16] := IMM16, other bits kept. -/
  | lih (d : BitVec 5) (i : BitVec 16)
  /-- `LIX` (R85). s[D][47:32] := IMM16, other bits kept. -/
  | lix (d : BitVec 5) (i : BitVec 16)
  /-- `LIY` (R85). s[D][63:48] := IMM16, other bits kept. -/
  | liy (d : BitVec 5) (i : BitVec 16)
  /-- `LB` (R86). Loads a sign-extended byte on stream st0. -/
  | lb (d a : BitVec 5) (i : BitVec 11)
  /-- `LH` (R86). Loads a sign-extended halfword on stream st0. -/
  | lh (d a : BitVec 5) (i : BitVec 11)
  /-- `LW` (R86). Loads a sign-extended word on stream st0. -/
  | lw (d a : BitVec 5) (i : BitVec 11)
  /-- `LD` (R86). Loads a doubleword on stream st0. -/
  | ld (d a : BitVec 5) (i : BitVec 11)
  /-- `LBU` (R86). Loads a zero-extended byte on stream st0. -/
  | lbu (d a : BitVec 5) (i : BitVec 11)
  /-- `LHU` (R86). Loads a zero-extended halfword on stream st0. -/
  | lhu (d a : BitVec 5) (i : BitVec 11)
  /-- `LWU` (R86). Loads a zero-extended word on stream st0. -/
  | lwu (d a : BitVec 5) (i : BitVec 11)
  /-- `PREF` (R86). Prefetch hint with no architected effect and no fault. -/
  | pref (a : BitVec 5) (i : BitVec 11)
  /-- `SB` (R86). Stores the low byte of s[D] on stream st0, buffered in an open strip. -/
  | sb (d a : BitVec 5) (i : BitVec 11)
  /-- `SH` (R86). Stores the low halfword of s[D] on stream st0. -/
  | sh (d a : BitVec 5) (i : BitVec 11)
  /-- `SW` (R86). Stores the low word of s[D] on stream st0. -/
  | sw (d a : BitVec 5) (i : BitVec 11)
  /-- `SD` (R86). Stores the doubleword s[D] on stream st0. -/
  | sd (d a : BitVec 5) (i : BitVec 11)
  /-- `BEQZ` (R88). Branches when s[A] = 0. -/
  | beqz (a : BitVec 5) (o : BitVec 15)
  /-- `BNEZ` (R88). Branches when s[A] is not 0. -/
  | bnez (a : BitVec 5) (o : BitVec 15)
  /-- `BLTZ` (R88). Branches when s[A] < 0. -/
  | bltz (a : BitVec 5) (o : BitVec 15)
  /-- `BGEZ` (R88). Branches when s[A] >= 0. -/
  | bgez (a : BitVec 5) (o : BitVec 15)
  /-- `BGTZ` (R88). Branches when s[A] > 0. -/
  | bgtz (a : BitVec 5) (o : BitVec 15)
  /-- `BLEZ` (R88). Branches when s[A] <= 0. -/
  | blez (a : BitVec 5) (o : BitVec 15)
  /-- `BBS` (R88). Branches when bit 0 of s[A] is 1. -/
  | bbs (a : BitVec 5) (o : BitVec 15)
  /-- `BBC` (R88). Branches when bit 0 of s[A] is 0. -/
  | bbc (a : BitVec 5) (o : BitVec 15)
  /-- `J` (R89). Jumps pc-relative by OFF23 parcels. -/
  | j (o : BitVec 23)
  /-- `JAL` (R89). Writes pc + 4 to s31 and jumps pc-relative. -/
  | jal (o : BitVec 23)
  /-- `JALR` (R89). Jumps to s[A] + IMM11 with bit 0 cleared and writes the link to s[D]; target 0 at U ends the workgroup. -/
  | jalr (d a : BitVec 5) (i : BitVec 11)
  /-- `JR` (R89). Jumps to s[A] + IMM11 with bit 0 cleared; target 0 at U ends the workgroup. -/
  | jr (a : BitVec 5) (i : BitVec 11)
  /-- `LOOP` (R91). Opens a hardware loop over the following body with count s[A], or skips the body when the count is 0. -/
  | loop (a : BitVec 5) (i : BitVec 11)
  /-- `CSRR` (R96). Reads the CSR named by IMM11 into s[D]. -/
  | csrr (d : BitVec 5) (i : BitVec 11)
  /-- `CSRW` (R96). Writes s[A] to the CSR and returns its old value in s[D]. -/
  | csrw (d a : BitVec 5) (i : BitVec 11)
  /-- `CSRS` (R96). Sets the CSR bits named by s[A] and returns the old value. -/
  | csrs (d a : BitVec 5) (i : BitVec 11)
  /-- `CSRC` (R96). Clears the CSR bits named by s[A] and returns the old value. -/
  | csrc (d a : BitVec 5) (i : BitVec 11)
  /-- `MPOPC` (R98). s[D] := number of set mask bits below VL. -/
  | mpopc (d a : BitVec 5)
  /-- `MFIRST` (R98). s[D] := lowest set mask bit below VL, or -1. -/
  | mfirst (d a : BitVec 5)
  /-- `MANY` (R98). s[D] := 1 if any mask bit below VL is set. -/
  | many (d a : BitVec 5)
  /-- `MALL` (R98). s[D] := 1 if every mask bit below VL is set. -/
  | mall (d a : BitVec 5)
  /-- `MTOS` (R98). s[D] := the 64-bit word of the mask indexed by s[B]. -/
  | mtos (d a b : BitVec 5)
  /-- `VADD.F` (R106). Element-wise FP32 addition rounded by RNE32. -/
  | vaddF (d a : BitVec 5) (b : BOp) (m : BitVec 3)
  /-- `VSUB.F` (R106). Element-wise FP32 subtraction. -/
  | vsubF (d a : BitVec 5) (b : BOp) (m : BitVec 3)
  /-- `VMUL.F` (R106). Element-wise FP32 multiplication. -/
  | vmulF (d a : BitVec 5) (b : BOp) (m : BitVec 3)
  /-- `VDIV.F` (R106). Element-wise correctly rounded FP32 division. -/
  | vdivF (d a : BitVec 5) (b : BOp) (m : BitVec 3)
  /-- `VMIN.F` (R106). Element-wise FP32 minimum. -/
  | vminF (d a : BitVec 5) (b : BOp) (m : BitVec 3)
  /-- `VMAX.F` (R106). Element-wise FP32 maximum. -/
  | vmaxF (d a : BitVec 5) (b : BOp) (m : BitVec 3)
  /-- `VSGNJ.F` (R106). Element-wise sign injection from b. -/
  | vsgnjF (d a : BitVec 5) (b : BOp) (m : BitVec 3)
  /-- `VABS.F` (R106). Element-wise clear of the sign bit. -/
  | vabsF (d a : BitVec 5) (m : BitVec 3)
  /-- `VFMA` (R107). Fused a x b + d rounded once. -/
  | vfma (d a : BitVec 5) (b : BOp) (m : BitVec 3)
  /-- `VFMS` (R107). Fused a x b - d rounded once. -/
  | vfms (d a : BitVec 5) (b : BOp) (m : BitVec 3)
  /-- `VFNMA` (R107). Fused -(a x b) - d rounded once. -/
  | vfnma (d a : BitVec 5) (b : BOp) (m : BitVec 3)
  /-- `VFNMS` (R107). Fused -(a x b) + d rounded once. -/
  | vfnms (d a : BitVec 5) (b : BOp) (m : BitVec 3)
  /-- `VSQRT` (R107). Element-wise correctly rounded square root. -/
  | vsqrt (d a : BitVec 5) (m : BitVec 3)
  /-- `VRSQ` (R107). Element-wise correctly rounded reciprocal square root. -/
  | vrsq (d a : BitVec 5) (m : BitVec 3)
  /-- `VRCP` (R107). Element-wise correctly rounded reciprocal. -/
  | vrcp (d a : BitVec 5) (m : BitVec 3)
  /-- `VNEG.F` (R107). Element-wise inversion of the sign bit. -/
  | vnegF (d a : BitVec 5) (m : BitVec 3)
  /-- `VFEQ` (R108). Mask bit := a = b in FP32. -/
  | vfeq (d a : BitVec 5) (b : BOp) (m : BitVec 3)
  /-- `VFNE` (R108). Mask bit := not (a = b) in FP32. -/
  | vfne (d a : BitVec 5) (b : BOp) (m : BitVec 3)
  /-- `VFLT` (R108). Mask bit := a < b in FP32. -/
  | vflt (d a : BitVec 5) (b : BOp) (m : BitVec 3)
  /-- `VFLE` (R108). Mask bit := a <= b in FP32. -/
  | vfle (d a : BitVec 5) (b : BOp) (m : BitVec 3)
  /-- `VFGT` (R108). Mask bit := a > b in FP32. -/
  | vfgt (d a : BitVec 5) (b : BOp) (m : BitVec 3)
  /-- `VFGE` (R108). Mask bit := a >= b in FP32. -/
  | vfge (d a : BitVec 5) (b : BOp) (m : BitVec 3)
  /-- `VFUO` (R108). Mask bit := a or b is a NaN. -/
  | vfuo (d a : BitVec 5) (b : BOp) (m : BitVec 3)
  /-- `VFCLS` (R108). Writes a one-hot FP32 classification of each element. -/
  | vfcls (d a : BitVec 5) (m : BitVec 3)
  /-- `VADD` (R109). Element-wise INT32 addition. -/
  | vadd (d a : BitVec 5) (b : BOp) (m : BitVec 3)
  /-- `VSUB` (R109). Element-wise INT32 subtraction. -/
  | vsub (d a : BitVec 5) (b : BOp) (m : BitVec 3)
  /-- `VMUL` (R109). Element-wise low 32 bits of the INT32 product. -/
  | vmul (d a : BitVec 5) (b : BOp) (m : BitVec 3)
  /-- `VMULH` (R109). Element-wise high 32 bits of the signed product. -/
  | vmulh (d a : BitVec 5) (b : BOp) (m : BitVec 3)
  /-- `VMIN` (R109). Element-wise signed INT32 minimum. -/
  | vmin (d a : BitVec 5) (b : BOp) (m : BitVec 3)
  /-- `VMAX` (R109). Element-wise signed INT32 maximum. -/
  | vmax (d a : BitVec 5) (b : BOp) (m : BitVec 3)
  /-- `VMINU` (R109). Element-wise unsigned INT32 minimum. -/
  | vminu (d a : BitVec 5) (b : BOp) (m : BitVec 3)
  /-- `VMAXU` (R109). Element-wise unsigned INT32 maximum. -/
  | vmaxu (d a : BitVec 5) (b : BOp) (m : BitVec 3)
  /-- `VAND` (R109). Element-wise bitwise AND. -/
  | vand (d a : BitVec 5) (b : BOp) (m : BitVec 3)
  /-- `VOR` (R109). Element-wise bitwise OR. -/
  | vor (d a : BitVec 5) (b : BOp) (m : BitVec 3)
  /-- `VXOR` (R109). Element-wise bitwise XOR. -/
  | vxor (d a : BitVec 5) (b : BOp) (m : BitVec 3)
  /-- `VSLL` (R109). Element-wise logical left shift. -/
  | vsll (d a : BitVec 5) (b : BOp) (m : BitVec 3)
  /-- `VSRL` (R109). Element-wise logical right shift. -/
  | vsrl (d a : BitVec 5) (b : BOp) (m : BitVec 3)
  /-- `VSRA` (R109). Element-wise arithmetic right shift. -/
  | vsra (d a : BitVec 5) (b : BOp) (m : BitVec 3)
  /-- `VSADD` (R109). Element-wise saturating INT32 addition. -/
  | vsadd (d a : BitVec 5) (b : BOp) (m : BitVec 3)
  /-- `VSSUB` (R109). Element-wise saturating INT32 subtraction. -/
  | vssub (d a : BitVec 5) (b : BOp) (m : BitVec 3)
  /-- `VEQ` (R108). Mask bit := a = b as INT32. -/
  | veq (d a : BitVec 5) (b : BOp) (m : BitVec 3)
  /-- `VNE` (R108). Mask bit := a differs from b. -/
  | vne (d a : BitVec 5) (b : BOp) (m : BitVec 3)
  /-- `VLT` (R108). Mask bit := a < b signed. -/
  | vlt (d a : BitVec 5) (b : BOp) (m : BitVec 3)
  /-- `VLTU` (R108). Mask bit := a < b unsigned. -/
  | vltu (d a : BitVec 5) (b : BOp) (m : BitVec 3)
  /-- `VLE` (R108). Mask bit := a <= b signed. -/
  | vle (d a : BitVec 5) (b : BOp) (m : BitVec 3)
  /-- `VLEU` (R108). Mask bit := a <= b unsigned. -/
  | vleu (d a : BitVec 5) (b : BOp) (m : BitVec 3)
  /-- `VGT` (R108). Mask bit := a > b signed. -/
  | vgt (d a : BitVec 5) (b : BOp) (m : BitVec 3)
  /-- `VGTU` (R108). Mask bit := a > b unsigned. -/
  | vgtu (d a : BitVec 5) (b : BOp) (m : BitVec 3)
  /-- `VCVF.I` (R110). Converts INT32 elements to FP32 by RNE32. -/
  | vcvfI (d a : BitVec 5) (m : BitVec 3)
  /-- `VCVI.F` (R110). Converts FP32 elements to INT32 rounding to nearest, with saturation. -/
  | vcviF (d a : BitVec 5) (m : BitVec 3)
  /-- `VCVI.FZ` (R110). Converts FP32 elements to INT32 rounding toward zero, with saturation. -/
  | vcviFz (d a : BitVec 5) (m : BitVec 3)
  /-- `VRNDB` (R111). Narrows FP32 elements to BF16 precision under rmode through the ncarry chain. -/
  | vrndb (d a : BitVec 5) (m : BitVec 3)
  /-- `VFLR` (R110). Element-wise floor to an integral FP32 value. -/
  | vflr (d a : BitVec 5) (m : BitVec 3)
  /-- `VFRAC` (R110). Element-wise fractional part in [0, 1). -/
  | vfrac (d a : BitVec 5) (m : BitVec 3)
  /-- `VEXPN` (R110). Element-wise INT32 floor(log2 |a|). -/
  | vexpn (d a : BitVec 5) (m : BitVec 3)
  /-- `VLDEXP` (R110). Element-wise a x 2^n rounded by RNE32. -/
  | vldexp (d a : BitVec 5) (b : BOp) (m : BitVec 3)
  /-- `VSUM.O` (R112). Ordered FP32 sum of active elements into s[D]. -/
  | vsumO (d a : BitVec 5) (m : BitVec 3)
  /-- `VSUM.U` (R112). Tree FP32 sum of active elements into s[D]; an unordered form. -/
  | vsumU (d a : BitVec 5) (m : BitVec 3)
  /-- `VDOT.O` (R112). Ordered fused dot product into s[D]. -/
  | vdotO (d a b : BitVec 5) (m : BitVec 3)
  /-- `VMAXR` (R112). Maximum of s[D] and the active elements. -/
  | vmaxr (d a : BitVec 5) (m : BitVec 3)
  /-- `VMINR` (R112). Minimum of s[D] and the active elements. -/
  | vminr (d a : BitVec 5) (m : BitVec 3)
  /-- `VISUM` (R112). INT32 sum of s[D] and the active elements. -/
  | visum (d a : BitVec 5) (m : BitVec 3)
  /-- `VSCAN.O` (R113). Ordered inclusive FP32 prefix sum from s[B]. -/
  | vscanO (d a b : BitVec 5) (m : BitVec 3)
  /-- `VSCAN.U` (R113). Tree-shaped inclusive FP32 prefix sum; an unordered form. -/
  | vscanU (d a b : BitVec 5) (m : BitVec 3)
  /-- `VSLUP` (R114). Slides elements up by k positions. -/
  | vslup (d a : BitVec 5) (b : BOp) (m : BitVec 3)
  /-- `VSLDN` (R114). Slides elements down by k positions. -/
  | vsldn (d a : BitVec 5) (b : BOp) (m : BitVec 3)
  /-- `VPERM` (R114). Gathers elements by INT32 indices. -/
  | vperm (d a b : BitVec 5) (m : BitVec 3)
  /-- `VCOMP` (R114). Compresses the elements selected by a mask to the front. -/
  | vcomp (d a b : BitVec 5)
  /-- `VIOTA` (R114). Writes the prefix count of set mask bits. -/
  | viota (d a : BitVec 5) (m : BitVec 3)
  /-- `VMERGE` (R114). Selects b where the mask is set and a elsewhere, for every element below VL. -/
  | vmerge (d a : BitVec 5) (b : BOp) (m : BitVec 3)
  /-- `VMV.VV` (R114). Copies a vector group bit for bit. -/
  | vmvVv (d a : BitVec 5) (m : BitVec 3)
  /-- `VMV` (R114). Splats a scalar or immediate bit pattern into a vector group. -/
  | vmvVsVi (d : BitVec 5) (b : BOp) (m : BitVec 3)
  /-- `VEXT` (R114). s[D] := the element at index s[B], or 0 beyond RC x GVL. -/
  | vext (d a b : BitVec 5)
  /-- `MAND` (R115). Mask AND. -/
  | mand (d a b : BitVec 5) (m : BitVec 3)
  /-- `MOR` (R115). Mask OR. -/
  | mor (d a b : BitVec 5) (m : BitVec 3)
  /-- `MXOR` (R115). Mask XOR. -/
  | mxor (d a b : BitVec 5) (m : BitVec 3)
  /-- `MANDN` (R115). Mask AND NOT. -/
  | mandn (d a b : BitVec 5) (m : BitVec 3)
  /-- `MNOT` (R115). Mask NOT. -/
  | mnot (d a : BitVec 5) (m : BitVec 3)
  /-- `MSET` (R115). Sets active mask bits to 1. -/
  | mset (d : BitVec 5) (m : BitVec 3)
  /-- `MCLR` (R115). Clears active mask bits to 0. -/
  | mclr (d : BitVec 5) (m : BitVec 3)
  /-- `MFROMV` (R115). Mask bit := element is not all-zero bits. -/
  | mfromv (d a : BitVec 5) (m : BitVec 3)
  /-- `GRANT` (R117). Closes any open strip, checkpoints, obtains a row width and opens a strip with VL := min(n, RC x GVL). -/
  | grant (d a : BitVec 5) (c : BitVec 3)
  /-- `GRANTX` (R118). As GRANT with the configuration in s[B], shaping the width by cap and granule. -/
  | grantx (d a b : BitVec 5)
  /-- `VLDU` (R123). Unit-stride vector load with optional fault-first. -/
  | vldu (s : BitVec 2) (d a : BitVec 5) (u : BitVec 1) (m t : BitVec 3)
  /-- `VLDS` (R123). Strided vector load. -/
  | vlds (s : BitVec 2) (d a b : BitVec 5) (m t : BitVec 3)
  /-- `VLDX` (R123). Indexed vector load by INT32 byte offsets. -/
  | vldx (s : BitVec 2) (d a b : BitVec 5) (m t : BitVec 3)
  /-- `VLDM` (R122). Multi-dimensional vector load over dim0 to dim2, trimming at the tensor end. -/
  | vldm (s : BitVec 2) (d a : BitVec 5) (n : BitVec 2) (m t : BitVec 3)
  /-- `VSTU` (R124). Unit-stride vector store into the strip's store buffer. -/
  | vstu (s : BitVec 2) (d a : BitVec 5) (m t : BitVec 3)
  /-- `VSTS` (R124). Strided vector store. -/
  | vsts (s : BitVec 2) (d a b : BitVec 5) (m t : BitVec 3)
  /-- `VSTX` (R124). Indexed vector store. -/
  | vstx (s : BitVec 2) (d a b : BitVec 5) (m t : BitVec 3)
  /-- `VSTM` (R122). Multi-dimensional vector store. -/
  | vstm (s : BitVec 2) (d a : BitVec 5) (n : BitVec 2) (m t : BitVec 3)
  /-- `VAADD.O` (R129). Buffered FP32 atomic add per element, duplicates applied in ascending order. -/
  | vaaddO (s : BitVec 2) (d a b : BitVec 5) (m : BitVec 3)
  /-- `VAADD.U` (R129). Buffered FP32 atomic add whose duplicates may be combined in any tree; an unordered form. -/
  | vaaddU (s : BitVec 2) (d a b : BitVec 5) (m : BitVec 3)
  /-- `VAADDI` (R129). Buffered INT32 atomic add per element. -/
  | vaaddi (s : BitVec 2) (d a b : BitVec 5) (m : BitVec 3)
  /-- `VAMAXI` (R129). Buffered signed INT32 atomic maximum. -/
  | vamaxi (s : BitVec 2) (d a b : BitVec 5) (m : BitVec 3)
  /-- `VAMINI` (R129). Buffered signed INT32 atomic minimum. -/
  | vamini (s : BitVec 2) (d a b : BitVec 5) (m : BitVec 3)
  /-- `VASWP` (R129). Buffered atomic swap per element. -/
  | vaswp (s : BitVec 2) (d a b : BitVec 5) (m : BitVec 3)
  /-- `VAOR` (R129). Buffered atomic OR per element. -/
  | vaor (s : BitVec 2) (d a b : BitVec 5) (m : BitVec 3)
  /-- `VAAND` (R129). Buffered atomic AND per element. -/
  | vaand (s : BitVec 2) (d a b : BitVec 5) (m : BitVec 3)
  /-- `AMOADD` (R130). Closes any strip, then atomically adds s[B] to a doubleword at the named scope. -/
  | amoadd (d a b : BitVec 5) (c : BitVec 3)
  /-- `AMOSWP` (R130). Atomic swap of a doubleword at the named scope. -/
  | amoswp (d a b : BitVec 5) (c : BitVec 3)
  /-- `AMOCAS` (R130). Atomic compare-and-swap of a doubleword at the named scope. -/
  | amocas (d a b : BitVec 5) (c : BitVec 3)
  /-- `AMOMAX` (R130). Atomic signed maximum of a doubleword at the named scope. -/
  | amomax (d a b : BitVec 5) (c : BitVec 3)
  /-- `LDACQ` (R130). Doubleword load that is an acquire at the named scope. -/
  | ldacq (d a : BitVec 5) (c : BitVec 3)
  /-- `STREL` (R130). Doubleword store that is a release at the named scope. -/
  | strel (a b : BitVec 5) (c : BitVec 3)
  /-- `FENCE` (R131). Orders all later accesses after all earlier ones in all streams at the named scope. -/
  | fence (c : BitVec 3)
  /-- `SBAR` (R131). Orders accesses of the named streams at the named scope. -/
  | sbar (k : BitVec 4) (c : BitVec 3)
  /-- `VLDC` (R161). Reads voxels by coordinate through the Lath, returning background where unallocated. -/
  | vldc (s : BitVec 2) (d a : BitVec 5) (b : BitVec 2) (m : BitVec 3)
  /-- `VSTC` (R161). Allocates Lath paths and buffers voxel stores. -/
  | vstc (s : BitVec 2) (d a : BitVec 5) (b : BitVec 2) (m : BitVec 3)
  /-- `VACAD.O` (R161). Allocates Lath paths and buffers ordered atomic voxel adds. -/
  | vacadO (s : BitVec 2) (d a : BitVec 5) (b : BitVec 2) (m : BitVec 3)
  /-- `VACAD.U` (R161). As VACAD.O with duplicates combined in any tree; an unordered form. -/
  | vacadU (s : BitVec 2) (d a : BitVec 5) (b : BitVec 2) (m : BitVec 3)
  /-- `VPRBC` (R161). Mask bit := voxel's leaf is allocated. -/
  | vprbc (s : BitVec 2) (d a : BitVec 5) (b : BitVec 2) (m : BitVec 3)
  /-- `VCLBINV` (R163). Shoots down CLB entries for a box of a volume and aborts other harts' strips with buffered writes in it. -/
  | vclbinv (s : BitVec 2) (a : BitVec 5) (b : BitVec 2)
  /-- `VSETVOL` (R160). Reads and checks a volume descriptor and loads it into a vdesc slot. -/
  | vsetvol (s : BitVec 2) (a : BitVec 5) (b : BitVec 2)
  /-- `TLBLOCK` (R132). Translates and locks up to 64 translations of a range in a lockable range. -/
  | tlblock (d a b : BitVec 5)
  /-- `TLBUNLK` (R132). Releases a locked range. -/
  | tlbunlk (a : BitVec 5)
  /-- `TLBPRB` (R134). Writes the probe word for an address. -/
  | tlbprb (d a : BitVec 5)
  /-- `MATTACH` (R141). Closes any strip and attaches up to s[A] free tile rows as matrix state. -/
  | mattach (d a : BitVec 5)
  /-- `MSETVL` (R140). Sets mvl to s[A]. -/
  | msetvl (d a : BitVec 5)
  /-- `MZERO` (R140). Clears an accumulator tile and tags it with lse. -/
  | mzero (d : BitVec 5)
  /-- `MKNOT` (R140). Writes a knot pair after checking both values. -/
  | mknot (d a b : BitVec 5)
  /-- `MGSEL` (R140). Sets the grid selectors of a run of band rows. -/
  | mgsel (d a b : BitVec 5)
  /-- `MRESC` (R143). Rescales an accumulator tile by 2^k and adjusts its tag. -/
  | mresc (d : BitVec 5) (b : BOp)
  /-- `TROWW` (R144). Writes a tile row from a vector. -/
  | troww (d a : BitVec 5) (b : BOp)
  /-- `TROWR` (R144). Reads a tile row into a vector. -/
  | trowr (d a : BitVec 5) (b : BOp)
  /-- `TCOLW` (R144). Writes a tile column from a vector. -/
  | tcolw (d a : BitVec 5) (b : BOp)
  /-- `TCOLR` (R144). Reads a tile column into a vector. -/
  | tcolr (d a : BitVec 5) (b : BOp)
  /-- `AEXTR` (R145). Extracts an accumulator row to a vector, narrowing under rmode and removing the tag. -/
  | aextr (d a : BitVec 5) (b : BOp)
  /-- `AEXTC` (R145). Extracts an accumulator column to a vector. -/
  | aextc (d a : BitVec 5) (b : BOp)
  /-- `AINSR` (R144). Inserts a vector into an accumulator row scaled by 2^tag. -/
  | ainsr (d a : BitVec 5) (b : BOp)
  /-- `TZERO` (R144). Clears a tile register. -/
  | tzero (d : BitVec 5)
  /-- `MLDC` (R147). Loads one coefficient slot of 64 band rows from a tile. -/
  | mldc (d a b : BitVec 5)
  /-- `MSTC` (R147). Stores one coefficient slot of 64 band rows into a tile. -/
  | mstc (d a b : BitVec 5)
  /-- `MREFN` (R152). Closes any strip after its checks and doubles the grid of a knot pair, rewriting its coefficients. -/
  | mrefn (d : BitVec 5)
  /-- `MMA` (R148). Forward spline pass accumulating cell values into an accumulator tile. -/
  | mma (d a : BitVec 5) (m : BitVec 3)
  /-- `MSPLD` (R149). Backward data pass accumulating derivatives along rows. -/
  | mspld (d a b : BitVec 5)
  /-- `MOPA` (R150). Outer-product accumulation into an accumulator tile. -/
  | mopa (d a b : BitVec 5)
  /-- `MSPLG` (R151). Scatters coefficient gradients into a tile register, rounded to BF16. -/
  | msplg (d a b : BitVec 5)
  /-- `TMMA` (R155). Macro-operation loading base weights and running plain MMA passes over vault chunks. -/
  | tmma (d a : BitVec 5) (m : BitVec 3) (pair : BitVec 5) (chunks : BitVec 10) (clr : Bool)
  /-- `TSPLF` (R155). Macro-operation loading 16 slots per chunk and running spline forward passes. -/
  | tsplf (d a : BitVec 5) (m : BitVec 3) (pair : BitVec 5) (chunks : BitVec 10) (clr : Bool)
  /-- `TSPLD` (R155). Macro-operation running MSPLD passes over vault chunks. -/
  | tspld (d a : BitVec 5) (pair : BitVec 5) (chunks : BitVec 10) (clr : Bool)
  /-- `TOPA` (R155). Macro-operation running MOPA passes over vault chunks. -/
  | topa (d a : BitVec 5) (pair : BitVec 5) (chunks : BitVec 10) (kbase : BitVec 8) (clr : Bool)
  /-- `TSPLG` (R155). Macro-operation accumulating coefficient gradients in A48. -/
  | tsplg (d a : BitVec 5) (pair : BitVec 5) (chunks : BitVec 10) (kbase : BitVec 8) (clr : Bool)
  /-- `TLDC` (R155). Macro-operation loading coefficient slots from the vault and setting selectors. -/
  | tldc (d a : BitVec 5) (chunks : BitVec 10) (knot : BitVec 2) (kbase : BitVec 8)
  /-- `TSTC` (R155). Macro-operation storing coefficient slots to the vault through the store buffer. -/
  | tstc (d a : BitVec 5) (chunks : BitVec 10) (kbase : BitVec 8)
  /-- `ECOPY` (R165). Closes any strip, checks a copy descriptor and queues an engine copy into a skim back backing. -/
  | ecopy (q : BitVec 2) (d a : BitVec 5) (u k : BitVec 1) (p : BitVec 2)
  /-- `ECOLL` (R166). Closes any strip, checks a parameter block and queues a collective operation. -/
  | ecoll (q : BitVec 2) (d a : BitVec 5) (p : BitVec 2)
  /-- `EPUB` (R168). Waits for the hart's engine writes to a region, then swaps its backings and bumps its generation as a release. -/
  | epub (a : BitVec 5) (c : BitVec 3)
  /-- `EWAIT` (R168). Waits until a tag completes, raising the deferred fault of an erring operation. -/
  | ewait (a : BitVec 5)
  /-- `EPOLL` (R168). s[D] := 1 when a tag has completed; an unordered form. -/
  | epoll (d a : BitVec 5)
  /-- `ESIG` (R168). Queues a release write of s[B] to memory once a tag completes. -/
  | esig (d a b : BitVec 5)
  /-- `UIMASK` (R173). Swaps uimask with s[A]. -/
  | uimask (d a : BitVec 5)
  /-- `UIRAISE` (R173). Sets uipend.RAISE and latches the value for uicause. -/
  | uiraise (a : BitVec 5)
  /-- `C.ADDI` (R68). Compressed ADDI D, D, simm6. -/
  | cAddi (d : BitVec 5) (i : BitVec 6)
  /-- `C.LI` (R68). Compressed ADDI D, s0, simm6. -/
  | cLi (d : BitVec 5) (i : BitVec 6)
  /-- `C.LD` (R68). Compressed LD from s30 + 8 x uimm6. -/
  | cLd (d : BitVec 5) (i : BitVec 6)
  /-- `C.SD` (R68). Compressed SD to s30 + 8 x uimm6. -/
  | cSd (d : BitVec 5) (i : BitVec 6)
  /-- `C.LW` (R68). Compressed LW from s30 + 4 x uimm6. -/
  | cLw (d : BitVec 5) (i : BitVec 6)
  /-- `C.SW` (R68). Compressed SW to s30 + 4 x uimm6. -/
  | cSw (d : BitVec 5) (i : BitVec 6)
  /-- `C.MV` (R68). Compressed ADD D, A, s0. -/
  | cMv (d a : BitVec 5)
  /-- `C.ADD` (R68). Compressed ADD D, D, A. -/
  | cAdd (d a : BitVec 5)
  /-- `C.SUB` (R68). Compressed SUB D, D, A. -/
  | cSub (d a : BitVec 5)
  /-- `C.GRANT` (R68). Compressed GRANT D, A with RC 1 and TP 0. -/
  | cGrant (d a : BitVec 5)
  /-- `C.J` (R68). Compressed J with an 11-bit parcel offset. -/
  | cJ (o : BitVec 11)
  /-- `C.BEQZ` (R68). Compressed BEQZ with a 6-bit parcel offset. -/
  | cBeqz (a : BitVec 5) (o : BitVec 6)
  /-- `C.BNEZ` (R68). Compressed BNEZ with a 6-bit parcel offset. -/
  | cBnez (a : BitVec 5) (o : BitVec 6)
  /-- `NOP` (R99). Does nothing. -/
  | nop
  /-- `ECALL` (R99). Raises cause 0x15; closes an open strip and traps to S with resume at pc + 4. -/
  | ecall
  /-- `EBREAK` (R99). Raises cause 0x16; closes an open strip and traps to S with resume at pc + 4. -/
  | ebreak
  /-- `TRET` (R99). At S restores privilege from tstatus.PP and the loop state, and jumps to tepc; at U raises fault 0x01. -/
  | tret
  /-- `WFI` (R99). Stops issue on the hart until an interrupt, engine completion, trap, pre-emption or teardown request arrives. -/
  | wfi
  /-- `CVY` (R32). Marks a convoy boundary: later instructions wait for earlier elements and the hart's streams are ordered locally. -/
  | cvy
  /-- `FENCEI` (R99). Discards fetched and decoded parcels so fetch observes stores performed before it completes. -/
  | fencei
  /-- `LEXIT` (R94). Deactivates the innermost active hardware loop. -/
  | lexit
  /-- `SCLOSE` (R119). Closes an open strip, draining buffered stores and atomics and committing the pending accumulator bank. -/
  | sclose
  /-- `MDETACH` (R142). Closes any strip, clears matrix state and releases the tile rows. -/
  | mdetach
  /-- `UIRET` (R173). Leaves the user-interrupt handler, restoring the shadow bank and loop state and jumping to uiepc. -/
  | uiret
  /-- `UIWAIT` (R173). Closes any strip and waits until a user-interrupt source is takeable, then takes it. -/
  | uiwait
  /-- `C.NOP` (R68). Compressed NOP. -/
  | cNop
  /-- `C.SCLOSE` (R68). Compressed SCLOSE. -/
  | cSclose
  /-- `C.CVY` (R68). Compressed CVY. -/
  | cCvy
  /-- `GOVCTL_WRITE` (R24). A write to govctl changes the grant override at once; writing EN = 1 restarts the script at entry 0. -/
  | govctlWrite (core : Nat) (value : Word)
  /-- `KNOT_REGISTER_WRITE` (R54). A CSR write to a knot register is checked for validity and faults 0x02 or 0x0F without change when it fails. -/
  | knotRegisterWrite (reg : BitVec 3) (value : Word)
  /-- `RGNTAB_WRITE` (R200). A write to rgntab discards cached region entries and completes after accesses in flight against the old table. -/
  | rgntabWrite (part : Nat) (value : Word)
  /-- `XLAT2_WRITE` (R300). A write to xlat2 takes effect only when it names a registered second-stage root; otherwise it is ignored and reported to Pip. -/
  | xlat2Write (value : Word)
  /-- `ILLEGAL_ENCODING` (R70). An encoding that is no instruction raises fault 0x01 at its address. -/
  | illegalEncoding
  /-- `CODE_ARRIVAL_TIMEOUT` (R60). A fetch or data access held for an unmapped segment for 1 ms raises fault 0x13. -/
  | codeArrivalTimeout (hart : Nat)
  /-- `GRANT_REVOCATION` (R182). Slices are taken from a lower-priority hart, whose strip aborts at its next element-group or step boundary. -/
  | grantRevocation (victim : Nat) (left : Nat)
  /-- `GRANT_WAIT_END` (R180). A GRANT waiting for a protected strip, an override or the envelope proceeds once slices become available. -/
  | grantWaitEnd (hart : Nat)
  /-- `GOVERNOR_REVISION` (R180). Every 2,800 cycles the governor revises each hart's slice allocation. -/
  | governorRevision (allocation : List (Nat × Nat))
  /-- `REVOCATION_PROTECTION_EXPIRY` (R186). 2,800 cycles after a revoked hart's next GRANT its strip loses protection from revocation. -/
  | revocationProtectionExpiry (hart : Nat)
  /-- `PREEMPTION_REQUEST` (R185). Husk or Pip asks a hart to halt; it halts at a step boundary, at once in WFI, or at the strip close. -/
  | preemptionRequest (hart : Nat)
  /-- `PREEMPTION_EXPIRY` (R185). 2,000 ns after a pre-emption request an open strip that has not closed is aborted. -/
  | preemptionExpiry (hart : Nat)
  /-- `CONTEXT_RESTORE` (R294). The sequencer checks the header, restores registers, places the band, re-locks ranges, refills an open strip and resumes. -/
  | contextRestore (hart : Nat)
  /-- `USER_INTERRUPT_ENTRY` (R172). An unblocked pending source at a permitted point enters the handler at uivec with the shadow bank. -/
  | userInterruptEntry (hart : Nat)
  /-- `WFI_WAKE` (R99). A hart waiting in WFI resumes issue. -/
  | wfiWake (hart : Nat)
  /-- `ENGINE_QUEUE_STALL_END` (R164). An ECOPY, ECOLL or ESIG stalled on a full queue issues once an entry frees. -/
  | engineQueueStallEnd (hart : Nat)
  /-- `EWAIT_RESUME` (R168). A hart waiting in EWAIT proceeds once its tag completes, as an acquire at DEVICE. -/
  | ewaitResume (hart : Nat)
  /-- `ECOPY_COMPLETION` (R165). An engine copy finishes writing the back backing, auto-publishes if asked and sets uipend if asked. -/
  | ecopyCompletion (hart queue : Nat)
  /-- `COLLECTIVE_FORMATION` (R290). The k-th ECOLL of each member with one list forms a collective and members compare parameters. -/
  | collectiveFormation (hart queue : Nat) (members : List Member)
  /-- `ECOLL_COMPLETION` (R167). A collective writes its output into DST's back backing, publishes REGION and writes STATUS. -/
  | ecollCompletion (hart queue : Nat)
  /-- `COLLECTIVE_FAILURE_REPORT` (R291). A member receives ERROR from a failed member and writes ERROR with the received cause. -/
  | collectiveFailureReport (hart queue : Nat) (cause : BitVec 8)
  /-- `ESIG_WRITE` (R168). Once the named tag completes, the queued ESIG writes its value as a release at SYSTEM. -/
  | esigWrite (hart queue : Nat)
  /-- `ENGINE_ERROR_COMPLETION` (R169). An engine operation ends with an error and cause, leaving its back bytes unpublished. -/
  | engineErrorCompletion (hart queue : Nat) (cause : BitVec 8) (va : Word)
  /-- `ENGINE_SOURCE_TRANSLATION_FAULT` (R169). A failing source translation is reported to Husk and the engine waits. -/
  | engineSourceTranslationFault (hart queue : Nat) (va : Word)
  /-- `ENGINE_TRANSLATION_RESOLVED` (R169). Husk maps or refuses the page and the waiting engine operation continues or ends in error. -/
  | engineTranslationResolved (hart queue : Nat) (refused : Bool)
  /-- `FIRST_STAGE_INVALIDATION` (R302). Husk's invalidation request removes cached translations of a VA range and aborts strips that buffered through them. -/
  | firstStageInvalidation (part : Nat) (root lo hi : Word)
  /-- `SECOND_STAGE_INVALIDATION` (R302). The hypervisor's invalidation through Pip removes translations derived from a PA range. -/
  | secondStageInvalidation (part : Nat) (lo hi : Word)
  /-- `REMOTE_REQUEST_ARRIVAL` (R282). A remote request arriving at the target is checked against the admission table and discarded when not admitted. -/
  | remoteRequestArrival (request : RemoteRequest)
  /-- `REMOTE_ECOPY_ARRIVAL` (R288). The target checks a remote copy against its region table and writes the back backing or rejects it. -/
  | remoteEcopyArrival (copy : RemoteCopy)
  /-- `REMOTE_REJECTION_ARRIVAL` (R282). A rejection reaching the source freezes the issuing hart or engine queue with fault 0x12. -/
  | remoteRejectionArrival (rejection : Rejection)
  /-- `FABRIC_GRANT_INSTALL` (R282). Pip installs a fabric grant on source and target at the hypervisor's request. -/
  | fabricGrantInstall (grant : FabricGrant)
  /-- `FABRIC_GRANT_WITHDRAW` (R282). Pip withdraws a grant, completing after every admitted request has completed. -/
  | fabricGrantWithdraw (grant : FabricGrant)
  /-- `FLIT_CRC_FAILURE` (R287). A flit that fails its CRC is replayed invisibly. -/
  | flitCrcFailure (link : Nat)
  /-- `LINK_DOWN` (R287). 16 consecutive failed replays take a link down and traffic spreads over the rest. -/
  | linkDown (link : Nat)
  /-- `LINK_LANE_RETRAIN` (R309). 16 failed replays on a lane retrain the link onto its spare lane. -/
  | linkLaneRetrain (link : Nat)
  /-- `PATH_LOSS` (R287). Losing every common link to a peer faults loads, ends engine operations and holds drained writes. -/
  | pathLoss (node : Nat)
  /-- `PATH_RESTORED` (R287). A returning path performs held writes in stream order. -/
  | pathRestored (node : Nat) (links : BitVec 24)
  /-- `STRTAIL_WRITE` (R263). The doorbell write makes commands valid, or stops the stream with FORMAT when it overfills the ring. -/
  | strtailWrite (fn stream : Nat) (value : Word)
  /-- `STRCTL_WRITE` (R263). Enables a stream or stops it after the current command, checking LOG2N on enable. -/
  | strctlWrite (fn stream : Nat) (value : Word)
  /-- `STRSTAT_STOPPED_CLEAR` (R263). Writing 1 to STOPPED resumes the stream at STRHEAD. -/
  | strstatStoppedClear (fn stream : Nat) (value : Word)
  /-- `STREAM_REGISTER_WRITE` (R263). A write to a stream register without behaviour of its own, ignored while the stream is enabled where stated. -/
  | streamRegisterWrite (fn stream : Nat) (offset : Nat) (value : Word)
  /-- `RING_SLOT_FETCH` (R314). The processor reads the command at STRHEAD, stopping with FORMAT DETAIL 4 when it cannot. -/
  | ringSlotFetch (fn stream : Nat)
  /-- `LAUNCH` (R269). Tests a launch and begins it, or completes it REFUSED with a DETAIL. -/
  | launch (fn stream : Nat)
  /-- `LAUNCH_DEFERRED_BEGIN` (R269). A deterministic launch begins once every ordinal is backed and no other launch of the partition runs. -/
  | launchDeferredBegin (launch : Nat)
  /-- `WORKGROUP_HANDOFF` (R270). The walker hands a workgroup to a free hart with its preloaded registers. -/
  | workgroupHandoff (launch hart : Nat)
  /-- `LAUNCH_COMPLETION` (R271). When every workgroup and engine operation has ended, the launch completes OK and its record is written. -/
  | launchCompletion (launch : Nat)
  /-- `LAUNCH_FAULTED_END` (R271). Husk ends a launch early on an unresolved fault, completing it FAULTED. -/
  | launchFaultedEnd (launch hart : Nat)
  /-- `WAITV` (R267). Reads a word as an acquire and completes when the comparison holds. -/
  | waitv (fn stream : Nat)
  /-- `WAITV_POLL` (R267). Within 1,000 ns the processor reads the WAITV word again. -/
  | waitvPoll (fn stream : Nat)
  /-- `WAITV_TIMEOUT` (R267). After TIMEOUT microseconds WAITV completes with TIMEOUT. -/
  | waitvTimeout (fn stream : Nat)
  /-- `SIGNAL` (R268). Writes or atomically adds a value as a release at SYSTEM. -/
  | signal (fn stream : Nat)
  /-- `COPY_DATA` (R268). COPY MODE 0 copies LEN bytes from SRC to DST. -/
  | copyData (fn stream : Nat)
  /-- `COPY_OBJECT_LOAD` (R268). COPY MODE 1 loads a TKO stream, accepting or refusing its prefix. -/
  | copyObjectLoad (fn stream : Nat)
  /-- `SEGMENT_RECORD_ARRIVAL` (R252). A segment record is checked against its hash and placement, relocated and mapped, or the object fails. -/
  | segmentRecordArrival (object : Nat) (frame : Word)
  /-- `COPY_OBJECT_RELEASE` (R268). COPY MODE 2 releases a loaded object. -/
  | copyObjectRelease (fn stream : Nat)
  /-- `OBJECT_RELEASE_COMPLETION` (R257). A release completes once every launch naming the object has completed. -/
  | objectReleaseCompletion (fn stream : Nat)
  /-- `COMMAND_FENCE` (R266). Completes once every earlier command of the stream has completed. -/
  | commandFence (fn stream : Nat)
  /-- `SERVICE_WINDOW_EXPIRY` (R279). Each 1 ms window the controller measures service and may move a free core between partitions. -/
  | serviceWindowExpiry (donor recipient core : Nat)
  /-- `VAULT_ZERO_COMPLETION` (R208). Zeroing of a moved core's vault finishes and the core backs the recipient's lowest vacant ordinal. -/
  | vaultZeroCompletion (core : Nat)
  /-- `PARTITION_CREATE` (R296). Pip checks the request, zeroes resources, numbers ordinals and computes capabilities. -/
  | partitionCreate (request : PartitionRequest)
  /-- `PARTITION_DESTROY` (R296). The hypervisor destroys a partition through Pip, its resources being zeroed before reuse. -/
  | partitionDestroy (part : Nat)
  /-- `PARTITION_RESIZE` (R296). Ordinals are added or removed at the top of the range while no launch runs. -/
  | partitionResize (part : Nat) (cores : List Nat)
  /-- `TIME_SHARE_SWITCH` (R298). At quantum expiry the running member is halted and saved while the other is restored. -/
  | timeShareSwitch (part : Nat)
  /-- `PARTITION_TEARDOWN` (R304). On a freeze report Pip halts harts, aborts strips, ends engine operations, faults launches and disables streams. -/
  | partitionTeardown (part : Nat)
  /-- `FUNCTION_LEVEL_RESET` (R299). An FLR of a VF disables its streams and ends its launches without completion records. -/
  | functionLevelReset (fn : Nat)
  /-- `HBM_PATROL_SCRUB` (R307). Each 24 hours a base die reads and corrects every code word of its stack. -/
  | hbmPatrolScrub (stack : Nat)
  /-- `VAULT_PATROL_SCRUB` (R307). Each 10 ms every vault word is scrubbed at the lowest priority. -/
  | vaultPatrolScrub (core : Nat)
  /-- `ROW_REMAP` (R309). Three corrected errors in a row or one uncorrectable error copy an HBM or vault row to a spare. -/
  | rowRemap (unit : RowUnit) (bank row : Nat)
  /-- `LANE_SLICE_RETIRE` (R309). Two uncorrectable register errors in a slice retire it from later grants. -/
  | laneSliceRetire (core slice : Nat)
  /-- `ARRAY_TILE_ROW_RETIRE` (R309). Two uncorrectable cell errors withhold a tile row from every later MATTACH. -/
  | arrayTileRowRetire (cluster row : Nat)
  /-- `CORE_RETIRE` (R309). An uncorrectable control-logic failure retires a core and vacates its ordinal. -/
  | coreRetire (core : Nat)
  /-- `BOOT` (R311). Boot ROM measures and verifies Pip, Pip verifies the unit map and Husk, and starts Husk. -/
  | boot (die : Nat)
  /-- `FIRMWARE_UPDATE` (R311). A new image is written to flash and takes effect at the next boot of the die. -/
  | firmwareUpdate (die : Nat) (husk : Bool) (image signature : List Byte)
  /-- `ATTESTATION_QUOTE` (R313). Pip answers a nonce with a signed quote of measurements, unit map hash and boot count. -/
  | attestationQuote (nonce : List Byte)
  /-- `ENVELOPE_CHANGE` (R297). Pip, at the hypervisor's request, changes a partition's power envelope, which reaches each hart at its next GRANT. -/
  | envelopeChange (part watts : Nat)
  /-- `ENGINE_QUEUE_FREEZE` (R169). An engine operation's access outside the partition during its run freezes the queue at that access and is reported to Pip and Husk. -/
  | engineQueueFreeze (hart queue : Nat) (va : Word)
deriving DecidableEq, Repr

end Sys2Proof
end

