-- ==== Sys2Proof/WellFormed.lean ====
section
/-! DEFINITION. The well-formed terms: operand forms the minor permits (spec/03 R67), scopes and dimension
counts that are not reserved (R70 item 12), and events that name agents the device has (spec/00 R3). -/

namespace Sys2Proof

/-- A form VS or VI (R67). -/
def BOp.scalarOrImm : BOp → Bool
  | .vv _ => false
  | .vs _ => true
  | .vi _ => true

def hartOk (n : Nat) : Bool := decide (n < 384)
def coreOk (n : Nat) : Bool := decide (n < 192)
def clusterOk (n : Nat) : Bool := decide (n < 48)
def dieOk (n : Nat) : Bool := decide (n < 4)
def queueOk (n : Nat) : Bool := decide (n < 4)
def partOk (n : Nat) : Bool := decide (n < 16)
def functionOk (n : Nat) : Bool := decide (n < 193)
def streamOk (n : Nat) : Bool := decide (n < 16)
def linkOk (n : Nat) : Bool := decide (n < 24)
def stackOk (n : Nat) : Bool := decide (n < 8)
def nodeOk (n : Nat) : Bool := decide (1 ≤ n) && decide (n < 193)

/-- Whether a term is an instruction an encoding gives, or an event the device can have. -/
def Instr.wellFormed (i : Instr) : Bool :=
  match i with
  | .add _ _ _ => true
  | .sub _ _ _ => true
  | .and _ _ _ => true
  | .or _ _ _ => true
  | .xor _ _ _ => true
  | .sll _ _ _ => true
  | .srl _ _ _ => true
  | .sra _ _ _ => true
  | .slt _ _ _ => true
  | .sltu _ _ _ => true
  | .mul _ _ _ => true
  | .mulh _ _ _ => true
  | .mulhu _ _ _ => true
  | .div _ _ _ => true
  | .divu _ _ _ => true
  | .rem _ _ _ => true
  | .remu _ _ _ => true
  | .min _ _ _ => true
  | .max _ _ _ => true
  | .minu _ _ _ => true
  | .maxu _ _ _ => true
  | .clz _ _ => true
  | .ctz _ _ => true
  | .popc _ _ => true
  | .addi _ _ _ => true
  | .andi _ _ _ => true
  | .ori _ _ _ => true
  | .xori _ _ _ => true
  | .slli _ _ _ => true
  | .srli _ _ _ => true
  | .srai _ _ _ => true
  | .slti _ _ _ => true
  | .lil _ _ => true
  | .lih _ _ => true
  | .lix _ _ => true
  | .liy _ _ => true
  | .lb _ _ _ => true
  | .lh _ _ _ => true
  | .lw _ _ _ => true
  | .ld _ _ _ => true
  | .lbu _ _ _ => true
  | .lhu _ _ _ => true
  | .lwu _ _ _ => true
  | .pref _ _ => true
  | .sb _ _ _ => true
  | .sh _ _ _ => true
  | .sw _ _ _ => true
  | .sd _ _ _ => true
  | .beqz _ _ => true
  | .bnez _ _ => true
  | .bltz _ _ => true
  | .bgez _ _ => true
  | .bgtz _ _ => true
  | .blez _ _ => true
  | .bbs _ _ => true
  | .bbc _ _ => true
  | .j _ => true
  | .jal _ => true
  | .jalr _ _ _ => true
  | .jr _ _ => true
  | .loop _ _ => true
  | .csrr _ _ => true
  | .csrw _ _ _ => true
  | .csrs _ _ _ => true
  | .csrc _ _ _ => true
  | .mpopc _ _ => true
  | .mfirst _ _ => true
  | .many _ _ => true
  | .mall _ _ => true
  | .mtos _ _ _ => true
  | .vaddF _ _ _ _ => true
  | .vsubF _ _ _ _ => true
  | .vmulF _ _ _ _ => true
  | .vdivF _ _ _ _ => true
  | .vminF _ _ _ _ => true
  | .vmaxF _ _ _ _ => true
  | .vsgnjF _ _ _ _ => true
  | .vabsF _ _ _ => true
  | .vfma _ _ _ _ => true
  | .vfms _ _ _ _ => true
  | .vfnma _ _ _ _ => true
  | .vfnms _ _ _ _ => true
  | .vsqrt _ _ _ => true
  | .vrsq _ _ _ => true
  | .vrcp _ _ _ => true
  | .vnegF _ _ _ => true
  | .vfeq _ _ _ _ => true
  | .vfne _ _ _ _ => true
  | .vflt _ _ _ _ => true
  | .vfle _ _ _ _ => true
  | .vfgt _ _ _ _ => true
  | .vfge _ _ _ _ => true
  | .vfuo _ _ _ _ => true
  | .vfcls _ _ _ => true
  | .vadd _ _ _ _ => true
  | .vsub _ _ _ _ => true
  | .vmul _ _ _ _ => true
  | .vmulh _ _ _ _ => true
  | .vmin _ _ _ _ => true
  | .vmax _ _ _ _ => true
  | .vminu _ _ _ _ => true
  | .vmaxu _ _ _ _ => true
  | .vand _ _ _ _ => true
  | .vor _ _ _ _ => true
  | .vxor _ _ _ _ => true
  | .vsll _ _ _ _ => true
  | .vsrl _ _ _ _ => true
  | .vsra _ _ _ _ => true
  | .vsadd _ _ _ _ => true
  | .vssub _ _ _ _ => true
  | .veq _ _ _ _ => true
  | .vne _ _ _ _ => true
  | .vlt _ _ _ _ => true
  | .vltu _ _ _ _ => true
  | .vle _ _ _ _ => true
  | .vleu _ _ _ _ => true
  | .vgt _ _ _ _ => true
  | .vgtu _ _ _ _ => true
  | .vcvfI _ _ _ => true
  | .vcviF _ _ _ => true
  | .vcviFz _ _ _ => true
  | .vrndb _ _ _ => true
  | .vflr _ _ _ => true
  | .vfrac _ _ _ => true
  | .vexpn _ _ _ => true
  | .vldexp _ _ _ _ => true
  | .vsumO _ _ _ => true
  | .vsumU _ _ _ => true
  | .vdotO _ _ _ _ => true
  | .vmaxr _ _ _ => true
  | .vminr _ _ _ => true
  | .visum _ _ _ => true
  | .vscanO _ _ _ _ => true
  | .vscanU _ _ _ _ => true
  | .vslup _ _ b _ => b.scalarOrImm
  | .vsldn _ _ b _ => b.scalarOrImm
  | .vperm _ _ _ _ => true
  | .vcomp _ _ _ => true
  | .viota _ _ _ => true
  | .vmerge _ _ _ _ => true
  | .vmvVv _ _ _ => true
  | .vmvVsVi _ b _ => b.scalarOrImm
  | .vext _ _ _ => true
  | .mand _ _ _ _ => true
  | .mor _ _ _ _ => true
  | .mxor _ _ _ _ => true
  | .mandn _ _ _ _ => true
  | .mnot _ _ _ => true
  | .mset _ _ => true
  | .mclr _ _ => true
  | .mfromv _ _ _ => true
  | .grant _ _ _ => true
  | .grantx _ _ _ => true
  | .vldu _ _ _ _ _ _ => true
  | .vlds _ _ _ _ _ _ => true
  | .vldx _ _ _ _ _ _ => true
  | .vldm _ _ _ n _ _ => decide (n ≠ 0)
  | .vstu _ _ _ _ _ => true
  | .vsts _ _ _ _ _ _ => true
  | .vstx _ _ _ _ _ _ => true
  | .vstm _ _ _ n _ _ => decide (n ≠ 0)
  | .vaaddO _ _ _ _ _ => true
  | .vaaddU _ _ _ _ _ => true
  | .vaaddi _ _ _ _ _ => true
  | .vamaxi _ _ _ _ _ => true
  | .vamini _ _ _ _ _ => true
  | .vaswp _ _ _ _ _ => true
  | .vaor _ _ _ _ _ => true
  | .vaand _ _ _ _ _ => true
  | .amoadd _ _ _ c => decide (c.toNat < 3)
  | .amoswp _ _ _ c => decide (c.toNat < 3)
  | .amocas _ _ _ c => decide (c.toNat < 3)
  | .amomax _ _ _ c => decide (c.toNat < 3)
  | .ldacq _ _ c => decide (c.toNat < 3)
  | .strel _ _ c => decide (c.toNat < 3)
  | .fence c => decide (c.toNat < 3)
  | .sbar _ c => decide (c.toNat < 3)
  | .vldc _ _ _ _ _ => true
  | .vstc _ _ _ _ _ => true
  | .vacadO _ _ _ _ _ => true
  | .vacadU _ _ _ _ _ => true
  | .vprbc _ _ _ _ _ => true
  | .vclbinv _ _ _ => true
  | .vsetvol _ _ _ => true
  | .tlblock _ _ _ => true
  | .tlbunlk _ => true
  | .tlbprb _ _ => true
  | .mattach _ _ => true
  | .msetvl _ _ => true
  | .mzero _ => true
  | .mknot _ _ _ => true
  | .mgsel _ _ _ => true
  | .mresc _ b => b.scalarOrImm
  | .troww _ _ b => b.scalarOrImm
  | .trowr _ _ b => b.scalarOrImm
  | .tcolw _ _ b => b.scalarOrImm
  | .tcolr _ _ b => b.scalarOrImm
  | .aextr _ _ b => b.scalarOrImm
  | .aextc _ _ b => b.scalarOrImm
  | .ainsr _ _ b => b.scalarOrImm
  | .tzero _ => true
  | .mldc _ _ _ => true
  | .mstc _ _ _ => true
  | .mrefn _ => true
  | .mma _ _ _ => true
  | .mspld _ _ _ => true
  | .mopa _ _ _ => true
  | .msplg _ _ _ => true
  | .tmma _ _ _ _ _ _ => true
  | .tsplf _ _ _ _ _ _ => true
  | .tspld _ _ _ _ _ => true
  | .topa _ _ _ _ _ _ => true
  | .tsplg _ _ _ _ _ _ => true
  | .tldc _ _ _ _ _ => true
  | .tstc _ _ _ _ => true
  | .ecopy _ _ _ _ _ _ => true
  | .ecoll _ _ _ _ => true
  | .epub _ c => decide (c.toNat < 3)
  | .ewait _ => true
  | .epoll _ _ => true
  | .esig _ _ _ => true
  | .uimask _ _ => true
  | .uiraise _ => true
  | .cAddi _ _ => true
  | .cLi _ _ => true
  | .cLd _ _ => true
  | .cSd _ _ => true
  | .cLw _ _ => true
  | .cSw _ _ => true
  | .cMv _ _ => true
  | .cAdd _ _ => true
  | .cSub _ _ => true
  | .cGrant _ _ => true
  | .cJ _ => true
  | .cBeqz _ _ => true
  | .cBnez _ _ => true
  | .nop => true
  | .ecall => true
  | .ebreak => true
  | .tret => true
  | .wfi => true
  | .cvy => true
  | .fencei => true
  | .lexit => true
  | .sclose => true
  | .mdetach => true
  | .uiret => true
  | .uiwait => true
  | .cNop => true
  | .cSclose => true
  | .cCvy => true
  | .govctlWrite core _ => coreOk core
  | .knotRegisterWrite _ _ => true
  | .rgntabWrite part _ => partOk part
  | .xlat2Write _ => true
  | .illegalEncoding => true
  | .codeArrivalTimeout hart => hartOk hart
  | .grantRevocation victim _ => hartOk victim
  | .grantWaitEnd hart => hartOk hart
  | .governorRevision _ => true
  | .revocationProtectionExpiry hart => hartOk hart
  | .preemptionRequest hart => hartOk hart
  | .preemptionExpiry hart => hartOk hart
  | .contextRestore hart => hartOk hart
  | .userInterruptEntry hart => hartOk hart
  | .wfiWake hart => hartOk hart
  | .engineQueueStallEnd hart => hartOk hart
  | .ewaitResume hart => hartOk hart
  | .ecopyCompletion hart queue => hartOk hart && queueOk queue
  | .collectiveFormation hart queue _ => hartOk hart && queueOk queue
  | .ecollCompletion hart queue => hartOk hart && queueOk queue
  | .collectiveFailureReport hart queue _ => hartOk hart && queueOk queue
  | .esigWrite hart queue => hartOk hart && queueOk queue
  | .engineErrorCompletion hart queue _ _ => hartOk hart && queueOk queue
  | .engineSourceTranslationFault hart queue _ => hartOk hart && queueOk queue
  | .engineTranslationResolved hart queue _ => hartOk hart && queueOk queue
  | .firstStageInvalidation part _ _ _ => partOk part
  | .secondStageInvalidation part _ _ => partOk part
  | .remoteRequestArrival _ => true
  | .remoteEcopyArrival _ => true
  | .remoteRejectionArrival rejection => hartOk rejection.hart
  | .fabricGrantInstall _ => true
  | .fabricGrantWithdraw _ => true
  | .flitCrcFailure link => linkOk link
  | .linkDown link => linkOk link
  | .linkLaneRetrain link => linkOk link
  | .pathLoss node => nodeOk node
  | .pathRestored node _ => nodeOk node
  | .strtailWrite fn stream _ => functionOk fn && streamOk stream
  | .strctlWrite fn stream _ => functionOk fn && streamOk stream
  | .strstatStoppedClear fn stream _ => functionOk fn && streamOk stream
  | .streamRegisterWrite fn stream _ _ => functionOk fn && streamOk stream
  | .ringSlotFetch fn stream => functionOk fn && streamOk stream
  | .launch fn stream => functionOk fn && streamOk stream
  | .launchDeferredBegin _ => true
  | .workgroupHandoff _ hart => hartOk hart
  | .launchCompletion _ => true
  | .launchFaultedEnd _ hart => hartOk hart
  | .waitv fn stream => functionOk fn && streamOk stream
  | .waitvPoll fn stream => functionOk fn && streamOk stream
  | .waitvTimeout fn stream => functionOk fn && streamOk stream
  | .signal fn stream => functionOk fn && streamOk stream
  | .copyData fn stream => functionOk fn && streamOk stream
  | .copyObjectLoad fn stream => functionOk fn && streamOk stream
  | .segmentRecordArrival _ _ => true
  | .copyObjectRelease fn stream => functionOk fn && streamOk stream
  | .objectReleaseCompletion fn stream => functionOk fn && streamOk stream
  | .commandFence fn stream => functionOk fn && streamOk stream
  | .serviceWindowExpiry donor recipient core => partOk donor && partOk recipient && coreOk core
  | .vaultZeroCompletion core => coreOk core
  | .partitionCreate request => partOk request.part
  | .partitionDestroy part => partOk part
  | .partitionResize part _ => partOk part
  | .timeShareSwitch part => partOk part
  | .partitionTeardown part => partOk part
  | .functionLevelReset fn => functionOk fn
  | .hbmPatrolScrub stack => stackOk stack
  | .vaultPatrolScrub core => coreOk core
  | .rowRemap _ _ _ => true
  | .laneSliceRetire core slice => coreOk core && decide (slice < 16)
  | .arrayTileRowRetire cluster row => clusterOk cluster && decide (row < 16)
  | .coreRetire core => coreOk core
  | .boot die => dieOk die
  | .firmwareUpdate die _ _ _ => dieOk die
  | .attestationQuote nonce => decide (nonce.length = 32)
  | .envelopeChange part _ => partOk part
  | .engineQueueFreeze hart queue _ => hartOk hart && queueOk queue

/-- Whether an instruction has a word in memory (an event has none). -/
def Instr.hasWord (i : Instr) : Bool :=
  match i with
  | .add _ _ _ => true
  | .sub _ _ _ => true
  | .and _ _ _ => true
  | .or _ _ _ => true
  | .xor _ _ _ => true
  | .sll _ _ _ => true
  | .srl _ _ _ => true
  | .sra _ _ _ => true
  | .slt _ _ _ => true
  | .sltu _ _ _ => true
  | .mul _ _ _ => true
  | .mulh _ _ _ => true
  | .mulhu _ _ _ => true
  | .div _ _ _ => true
  | .divu _ _ _ => true
  | .rem _ _ _ => true
  | .remu _ _ _ => true
  | .min _ _ _ => true
  | .max _ _ _ => true
  | .minu _ _ _ => true
  | .maxu _ _ _ => true
  | .clz _ _ => true
  | .ctz _ _ => true
  | .popc _ _ => true
  | .addi _ _ _ => true
  | .andi _ _ _ => true
  | .ori _ _ _ => true
  | .xori _ _ _ => true
  | .slli _ _ _ => true
  | .srli _ _ _ => true
  | .srai _ _ _ => true
  | .slti _ _ _ => true
  | .lil _ _ => true
  | .lih _ _ => true
  | .lix _ _ => true
  | .liy _ _ => true
  | .lb _ _ _ => true
  | .lh _ _ _ => true
  | .lw _ _ _ => true
  | .ld _ _ _ => true
  | .lbu _ _ _ => true
  | .lhu _ _ _ => true
  | .lwu _ _ _ => true
  | .pref _ _ => true
  | .sb _ _ _ => true
  | .sh _ _ _ => true
  | .sw _ _ _ => true
  | .sd _ _ _ => true
  | .beqz _ _ => true
  | .bnez _ _ => true
  | .bltz _ _ => true
  | .bgez _ _ => true
  | .bgtz _ _ => true
  | .blez _ _ => true
  | .bbs _ _ => true
  | .bbc _ _ => true
  | .j _ => true
  | .jal _ => true
  | .jalr _ _ _ => true
  | .jr _ _ => true
  | .loop _ _ => true
  | .csrr _ _ => true
  | .csrw _ _ _ => true
  | .csrs _ _ _ => true
  | .csrc _ _ _ => true
  | .mpopc _ _ => true
  | .mfirst _ _ => true
  | .many _ _ => true
  | .mall _ _ => true
  | .mtos _ _ _ => true
  | .vaddF _ _ _ _ => true
  | .vsubF _ _ _ _ => true
  | .vmulF _ _ _ _ => true
  | .vdivF _ _ _ _ => true
  | .vminF _ _ _ _ => true
  | .vmaxF _ _ _ _ => true
  | .vsgnjF _ _ _ _ => true
  | .vabsF _ _ _ => true
  | .vfma _ _ _ _ => true
  | .vfms _ _ _ _ => true
  | .vfnma _ _ _ _ => true
  | .vfnms _ _ _ _ => true
  | .vsqrt _ _ _ => true
  | .vrsq _ _ _ => true
  | .vrcp _ _ _ => true
  | .vnegF _ _ _ => true
  | .vfeq _ _ _ _ => true
  | .vfne _ _ _ _ => true
  | .vflt _ _ _ _ => true
  | .vfle _ _ _ _ => true
  | .vfgt _ _ _ _ => true
  | .vfge _ _ _ _ => true
  | .vfuo _ _ _ _ => true
  | .vfcls _ _ _ => true
  | .vadd _ _ _ _ => true
  | .vsub _ _ _ _ => true
  | .vmul _ _ _ _ => true
  | .vmulh _ _ _ _ => true
  | .vmin _ _ _ _ => true
  | .vmax _ _ _ _ => true
  | .vminu _ _ _ _ => true
  | .vmaxu _ _ _ _ => true
  | .vand _ _ _ _ => true
  | .vor _ _ _ _ => true
  | .vxor _ _ _ _ => true
  | .vsll _ _ _ _ => true
  | .vsrl _ _ _ _ => true
  | .vsra _ _ _ _ => true
  | .vsadd _ _ _ _ => true
  | .vssub _ _ _ _ => true
  | .veq _ _ _ _ => true
  | .vne _ _ _ _ => true
  | .vlt _ _ _ _ => true
  | .vltu _ _ _ _ => true
  | .vle _ _ _ _ => true
  | .vleu _ _ _ _ => true
  | .vgt _ _ _ _ => true
  | .vgtu _ _ _ _ => true
  | .vcvfI _ _ _ => true
  | .vcviF _ _ _ => true
  | .vcviFz _ _ _ => true
  | .vrndb _ _ _ => true
  | .vflr _ _ _ => true
  | .vfrac _ _ _ => true
  | .vexpn _ _ _ => true
  | .vldexp _ _ _ _ => true
  | .vsumO _ _ _ => true
  | .vsumU _ _ _ => true
  | .vdotO _ _ _ _ => true
  | .vmaxr _ _ _ => true
  | .vminr _ _ _ => true
  | .visum _ _ _ => true
  | .vscanO _ _ _ _ => true
  | .vscanU _ _ _ _ => true
  | .vslup _ _ _ _ => true
  | .vsldn _ _ _ _ => true
  | .vperm _ _ _ _ => true
  | .vcomp _ _ _ => true
  | .viota _ _ _ => true
  | .vmerge _ _ _ _ => true
  | .vmvVv _ _ _ => true
  | .vmvVsVi _ _ _ => true
  | .vext _ _ _ => true
  | .mand _ _ _ _ => true
  | .mor _ _ _ _ => true
  | .mxor _ _ _ _ => true
  | .mandn _ _ _ _ => true
  | .mnot _ _ _ => true
  | .mset _ _ => true
  | .mclr _ _ => true
  | .mfromv _ _ _ => true
  | .grant _ _ _ => true
  | .grantx _ _ _ => true
  | .vldu _ _ _ _ _ _ => true
  | .vlds _ _ _ _ _ _ => true
  | .vldx _ _ _ _ _ _ => true
  | .vldm _ _ _ _ _ _ => true
  | .vstu _ _ _ _ _ => true
  | .vsts _ _ _ _ _ _ => true
  | .vstx _ _ _ _ _ _ => true
  | .vstm _ _ _ _ _ _ => true
  | .vaaddO _ _ _ _ _ => true
  | .vaaddU _ _ _ _ _ => true
  | .vaaddi _ _ _ _ _ => true
  | .vamaxi _ _ _ _ _ => true
  | .vamini _ _ _ _ _ => true
  | .vaswp _ _ _ _ _ => true
  | .vaor _ _ _ _ _ => true
  | .vaand _ _ _ _ _ => true
  | .amoadd _ _ _ _ => true
  | .amoswp _ _ _ _ => true
  | .amocas _ _ _ _ => true
  | .amomax _ _ _ _ => true
  | .ldacq _ _ _ => true
  | .strel _ _ _ => true
  | .fence _ => true
  | .sbar _ _ => true
  | .vldc _ _ _ _ _ => true
  | .vstc _ _ _ _ _ => true
  | .vacadO _ _ _ _ _ => true
  | .vacadU _ _ _ _ _ => true
  | .vprbc _ _ _ _ _ => true
  | .vclbinv _ _ _ => true
  | .vsetvol _ _ _ => true
  | .tlblock _ _ _ => true
  | .tlbunlk _ => true
  | .tlbprb _ _ => true
  | .mattach _ _ => true
  | .msetvl _ _ => true
  | .mzero _ => true
  | .mknot _ _ _ => true
  | .mgsel _ _ _ => true
  | .mresc _ _ => true
  | .troww _ _ _ => true
  | .trowr _ _ _ => true
  | .tcolw _ _ _ => true
  | .tcolr _ _ _ => true
  | .aextr _ _ _ => true
  | .aextc _ _ _ => true
  | .ainsr _ _ _ => true
  | .tzero _ => true
  | .mldc _ _ _ => true
  | .mstc _ _ _ => true
  | .mrefn _ => true
  | .mma _ _ _ => true
  | .mspld _ _ _ => true
  | .mopa _ _ _ => true
  | .msplg _ _ _ => true
  | .tmma _ _ _ _ _ _ => true
  | .tsplf _ _ _ _ _ _ => true
  | .tspld _ _ _ _ _ => true
  | .topa _ _ _ _ _ _ => true
  | .tsplg _ _ _ _ _ _ => true
  | .tldc _ _ _ _ _ => true
  | .tstc _ _ _ _ => true
  | .ecopy _ _ _ _ _ _ => true
  | .ecoll _ _ _ _ => true
  | .epub _ _ => true
  | .ewait _ => true
  | .epoll _ _ => true
  | .esig _ _ _ => true
  | .uimask _ _ => true
  | .uiraise _ => true
  | .cAddi _ _ => true
  | .cLi _ _ => true
  | .cLd _ _ => true
  | .cSd _ _ => true
  | .cLw _ _ => true
  | .cSw _ _ => true
  | .cMv _ _ => true
  | .cAdd _ _ => true
  | .cSub _ _ => true
  | .cGrant _ _ => true
  | .cJ _ => true
  | .cBeqz _ _ => true
  | .cBnez _ _ => true
  | .nop => true
  | .ecall => true
  | .ebreak => true
  | .tret => true
  | .wfi => true
  | .cvy => true
  | .fencei => true
  | .lexit => true
  | .sclose => true
  | .mdetach => true
  | .uiret => true
  | .uiwait => true
  | .cNop => true
  | .cSclose => true
  | .cCvy => true
  | .govctlWrite _ _ => false
  | .knotRegisterWrite _ _ => false
  | .rgntabWrite _ _ => false
  | .xlat2Write _ => false
  | .illegalEncoding => false
  | .codeArrivalTimeout _ => false
  | .grantRevocation _ _ => false
  | .grantWaitEnd _ => false
  | .governorRevision _ => false
  | .revocationProtectionExpiry _ => false
  | .preemptionRequest _ => false
  | .preemptionExpiry _ => false
  | .contextRestore _ => false
  | .userInterruptEntry _ => false
  | .wfiWake _ => false
  | .engineQueueStallEnd _ => false
  | .ewaitResume _ => false
  | .ecopyCompletion _ _ => false
  | .collectiveFormation _ _ _ => false
  | .ecollCompletion _ _ => false
  | .collectiveFailureReport _ _ _ => false
  | .esigWrite _ _ => false
  | .engineErrorCompletion _ _ _ _ => false
  | .engineSourceTranslationFault _ _ _ => false
  | .engineTranslationResolved _ _ _ => false
  | .firstStageInvalidation _ _ _ _ => false
  | .secondStageInvalidation _ _ _ => false
  | .remoteRequestArrival _ => false
  | .remoteEcopyArrival _ => false
  | .remoteRejectionArrival _ => false
  | .fabricGrantInstall _ => false
  | .fabricGrantWithdraw _ => false
  | .flitCrcFailure _ => false
  | .linkDown _ => false
  | .linkLaneRetrain _ => false
  | .pathLoss _ => false
  | .pathRestored _ _ => false
  | .strtailWrite _ _ _ => false
  | .strctlWrite _ _ _ => false
  | .strstatStoppedClear _ _ _ => false
  | .streamRegisterWrite _ _ _ _ => false
  | .ringSlotFetch _ _ => false
  | .launch _ _ => false
  | .launchDeferredBegin _ => false
  | .workgroupHandoff _ _ => false
  | .launchCompletion _ => false
  | .launchFaultedEnd _ _ => false
  | .waitv _ _ => false
  | .waitvPoll _ _ => false
  | .waitvTimeout _ _ => false
  | .signal _ _ => false
  | .copyData _ _ => false
  | .copyObjectLoad _ _ => false
  | .segmentRecordArrival _ _ => false
  | .copyObjectRelease _ _ => false
  | .objectReleaseCompletion _ _ => false
  | .commandFence _ _ => false
  | .serviceWindowExpiry _ _ _ => false
  | .vaultZeroCompletion _ => false
  | .partitionCreate _ => false
  | .partitionDestroy _ => false
  | .partitionResize _ _ => false
  | .timeShareSwitch _ => false
  | .partitionTeardown _ => false
  | .functionLevelReset _ => false
  | .hbmPatrolScrub _ => false
  | .vaultPatrolScrub _ => false
  | .rowRemap _ _ _ => false
  | .laneSliceRetire _ _ => false
  | .arrayTileRowRetire _ _ => false
  | .coreRetire _ => false
  | .boot _ => false
  | .firmwareUpdate _ _ _ _ => false
  | .attestationQuote _ => false
  | .envelopeChange _ _ => false
  | .engineQueueFreeze _ _ _ => false

end Sys2Proof
end

