-- ==== Sys2Proof/Decode.lean ====
section
/-! DEFINITION. Decoding and encoding (spec/03_encoding_and_opcode_map.md R59 to R72). -/

namespace Sys2Proof

/-- Why bytes are no instruction: the items of R70. Each raises fault 0x01 (ILLEGAL_ENCODING). -/
inductive DecodeError where
  /-- fewer parcels than the first one asks for -/
  | truncated
  /-- item 1 -/
  | reservedCompressed
  /-- item 2 -/
  | compressedNonZero
  /-- item 3 -/
  | unassignedMajor
  /-- item 4 -/
  | baseWithoutPrefix
  /-- item 5 -/
  | prefixBase
  /-- item 6 -/
  | reservedFlags
  /-- item 7 -/
  | unassignedMinor
  /-- item 8 -/
  | reservedForm
  /-- item 9 -/
  | formNotPermitted
  /-- item 10 -/
  | srForm
  /-- item 11 -/
  | nonZeroField
  /-- item 12 -/
  | reservedControl
deriving DecidableEq, Repr

/-! ### Fields of a word (R61) and of a prefix (R64) -/

def fKind (w : BitVec 32) : BitVec 3 := w.extractLsb' 29 3
def fMaj (w : BitVec 32) : BitVec 6 := w.extractLsb' 23 6
def fForm (w : BitVec 32) : BitVec 2 := w.extractLsb' 21 2
def fD (w : BitVec 32) : BitVec 5 := w.extractLsb' 16 5
def fA (w : BitVec 32) : BitVec 5 := w.extractLsb' 11 5
def fB (w : BitVec 32) : BitVec 5 := w.extractLsb' 6 5
def fM (w : BitVec 32) : BitVec 3 := w.extractLsb' 3 3
def fF (w : BitVec 32) : BitVec 3 := w.extractLsb' 0 3
def fMin6 (w : BitVec 32) : BitVec 6 := w.extractLsb' 0 6
def fImm11 (w : BitVec 32) : BitVec 11 := w.extractLsb' 0 11
def fImm16 (w : BitVec 32) : BitVec 16 := w.extractLsb' 0 16
def fCond (w : BitVec 32) : BitVec 3 := w.extractLsb' 20 3
def fBrA (w : BitVec 32) : BitVec 5 := w.extractLsb' 15 5
def fOff15 (w : BitVec 32) : BitVec 15 := w.extractLsb' 0 15
def fOff23 (w : BitVec 32) : BitVec 23 := w.extractLsb' 0 23

def xPair (x : BitVec 32) : BitVec 5 := x.extractLsb' 24 5
def xChunks (x : BitVec 32) : BitVec 10 := x.extractLsb' 14 10
def xKnot (x : BitVec 32) : BitVec 2 := x.extractLsb' 12 2
def xKbase (x : BitVec 32) : BitVec 8 := x.extractLsb' 4 8
def xClr (x : BitVec 32) : Bool := x.extractLsb' 3 1 == 1#1
def xFl (x : BitVec 32) : BitVec 3 := x.extractLsb' 0 3

def cOp (p : BitVec 16) : BitVec 5 := p.extractLsb' 11 5
def cD (p : BitVec 16) : BitVec 5 := p.extractLsb' 6 5
def cImm (p : BitVec 16) : BitVec 6 := p.extractLsb' 0 6
def cA (p : BitVec 16) : BitVec 5 := p.extractLsb' 1 5
def cLow (p : BitVec 16) : BitVec 1 := p.extractLsb' 0 1
def cRest (p : BitVec 16) : BitVec 11 := p.extractLsb' 0 11

/-- B with its FORM where VV, VS and VI are all permitted (R61, R70 item 8). -/
def bopAll (w : BitVec 32) : Except DecodeError BOp :=
  if fForm w = 0#2 then .ok (.vv (fB w))
  else if fForm w = 1#2 then .ok (.vs (fB w))
  else if fForm w = 2#2 then .ok (.vi (fB w))
  else .error .reservedForm

/-- B with its FORM where VS and VI are permitted (R67). -/
def bopSI (w : BitVec 32) : Except DecodeError BOp :=
  if fForm w = 1#2 then .ok (.vs (fB w))
  else if fForm w = 2#2 then .ok (.vi (fB w))
  else if fForm w = 3#2 then .error .reservedForm
  else .error .formNotPermitted

/-! ### Words by major -/

/-- Scope codes 0 to 2 (R67). -/
def scopeOk (c : BitVec 3) : Bool := c.toNat < 3

/-- Major 0x0 (R65, R67). -/
def decSys (w : BitVec 32) : Except DecodeError Instr :=
  match (fMin6 w).toNat with
  | 0 =>
    if fForm w = 0#2 then if fD w = 0#5 ∧ fA w = 0#5 ∧ fB w = 0#5 then .ok (.nop) else .error .nonZeroField else .error .srForm
  | 1 =>
    if fForm w = 0#2 then if fD w = 0#5 ∧ fA w = 0#5 ∧ fB w = 0#5 then .ok (.ecall) else .error .nonZeroField else .error .srForm
  | 2 =>
    if fForm w = 0#2 then if fD w = 0#5 ∧ fA w = 0#5 ∧ fB w = 0#5 then .ok (.ebreak) else .error .nonZeroField else .error .srForm
  | 3 =>
    if fForm w = 0#2 then if fD w = 0#5 ∧ fA w = 0#5 ∧ fB w = 0#5 then .ok (.tret) else .error .nonZeroField else .error .srForm
  | 4 =>
    if fForm w = 0#2 then if fD w = 0#5 ∧ fA w = 0#5 ∧ fB w = 0#5 then .ok (.wfi) else .error .nonZeroField else .error .srForm
  | 5 =>
    if fForm w = 0#2 then if fD w = 0#5 ∧ fA w = 0#5 ∧ fB w = 0#5 then .ok (.cvy) else .error .nonZeroField else .error .srForm
  | 6 =>
    if fForm w = 0#2 then if fD w = 0#5 ∧ fA w = 0#5 ∧ fB w = 0#5 then .ok (.fencei) else .error .nonZeroField else .error .srForm
  | _ => .error .unassignedMinor

/-- Major 0x1 (R65, R67). -/
def decSalu (w : BitVec 32) : Except DecodeError Instr :=
  match (fMin6 w).toNat with
  | 0 =>
    if fForm w = 0#2 then .ok (.add (fD w) (fA w) (fB w)) else .error .srForm
  | 1 =>
    if fForm w = 0#2 then .ok (.sub (fD w) (fA w) (fB w)) else .error .srForm
  | 2 =>
    if fForm w = 0#2 then .ok (.and (fD w) (fA w) (fB w)) else .error .srForm
  | 3 =>
    if fForm w = 0#2 then .ok (.or (fD w) (fA w) (fB w)) else .error .srForm
  | 4 =>
    if fForm w = 0#2 then .ok (.xor (fD w) (fA w) (fB w)) else .error .srForm
  | 5 =>
    if fForm w = 0#2 then .ok (.sll (fD w) (fA w) (fB w)) else .error .srForm
  | 6 =>
    if fForm w = 0#2 then .ok (.srl (fD w) (fA w) (fB w)) else .error .srForm
  | 7 =>
    if fForm w = 0#2 then .ok (.sra (fD w) (fA w) (fB w)) else .error .srForm
  | 8 =>
    if fForm w = 0#2 then .ok (.slt (fD w) (fA w) (fB w)) else .error .srForm
  | 9 =>
    if fForm w = 0#2 then .ok (.sltu (fD w) (fA w) (fB w)) else .error .srForm
  | 10 =>
    if fForm w = 0#2 then .ok (.mul (fD w) (fA w) (fB w)) else .error .srForm
  | 11 =>
    if fForm w = 0#2 then .ok (.mulh (fD w) (fA w) (fB w)) else .error .srForm
  | 12 =>
    if fForm w = 0#2 then .ok (.mulhu (fD w) (fA w) (fB w)) else .error .srForm
  | 13 =>
    if fForm w = 0#2 then .ok (.div (fD w) (fA w) (fB w)) else .error .srForm
  | 14 =>
    if fForm w = 0#2 then .ok (.divu (fD w) (fA w) (fB w)) else .error .srForm
  | 15 =>
    if fForm w = 0#2 then .ok (.rem (fD w) (fA w) (fB w)) else .error .srForm
  | 16 =>
    if fForm w = 0#2 then .ok (.remu (fD w) (fA w) (fB w)) else .error .srForm
  | 17 =>
    if fForm w = 0#2 then .ok (.min (fD w) (fA w) (fB w)) else .error .srForm
  | 18 =>
    if fForm w = 0#2 then .ok (.max (fD w) (fA w) (fB w)) else .error .srForm
  | 19 =>
    if fForm w = 0#2 then .ok (.minu (fD w) (fA w) (fB w)) else .error .srForm
  | 20 =>
    if fForm w = 0#2 then .ok (.maxu (fD w) (fA w) (fB w)) else .error .srForm
  | 21 =>
    if fForm w = 0#2 then if fB w = 0#5 then .ok (.clz (fD w) (fA w)) else .error .nonZeroField else .error .srForm
  | 22 =>
    if fForm w = 0#2 then if fB w = 0#5 then .ok (.ctz (fD w) (fA w)) else .error .nonZeroField else .error .srForm
  | 23 =>
    if fForm w = 0#2 then if fB w = 0#5 then .ok (.popc (fD w) (fA w)) else .error .nonZeroField else .error .srForm
  | _ => .error .unassignedMinor

/-- Major 0x2 (R65, R67). -/
def decSimm (w : BitVec 32) : Except DecodeError Instr :=
  match (fForm w).toNat with
  | 0 =>
    .ok (.addi (fD w) (fA w) (fImm11 w))
  | 1 =>
    .ok (.andi (fD w) (fA w) (fImm11 w))
  | 2 =>
    .ok (.ori (fD w) (fA w) (fImm11 w))
  | _ =>
    .ok (.xori (fD w) (fA w) (fImm11 w))

/-- Major 0x3 (R65, R67). -/
def decSshi (w : BitVec 32) : Except DecodeError Instr :=
  match (fForm w).toNat with
  | 0 =>
    if (fImm11 w).extractLsb' 6 5 = 0#5 then .ok (.slli (fD w) (fA w) ((fImm11 w).extractLsb' 0 6)) else .error .nonZeroField
  | 1 =>
    if (fImm11 w).extractLsb' 6 5 = 0#5 then .ok (.srli (fD w) (fA w) ((fImm11 w).extractLsb' 0 6)) else .error .nonZeroField
  | 2 =>
    if (fImm11 w).extractLsb' 6 5 = 0#5 then .ok (.srai (fD w) (fA w) ((fImm11 w).extractLsb' 0 6)) else .error .nonZeroField
  | _ =>
    .ok (.slti (fD w) (fA w) (fImm11 w))

/-- Major 0x4 (R65, R67). -/
def decSli (w : BitVec 32) : Except DecodeError Instr :=
  match (fForm w).toNat with
  | 0 =>
    .ok (.lil (fD w) (fImm16 w))
  | 1 =>
    .ok (.lih (fD w) (fImm16 w))
  | 2 =>
    .ok (.lix (fD w) (fImm16 w))
  | _ =>
    .ok (.liy (fD w) (fImm16 w))

/-- Major 0x5 (R65, R67). -/
def decSlda (w : BitVec 32) : Except DecodeError Instr :=
  match (fForm w).toNat with
  | 0 =>
    .ok (.lb (fD w) (fA w) (fImm11 w))
  | 1 =>
    .ok (.lh (fD w) (fA w) (fImm11 w))
  | 2 =>
    .ok (.lw (fD w) (fA w) (fImm11 w))
  | _ =>
    .ok (.ld (fD w) (fA w) (fImm11 w))

/-- Major 0x6 (R65, R67). -/
def decSldb (w : BitVec 32) : Except DecodeError Instr :=
  match (fForm w).toNat with
  | 0 =>
    .ok (.lbu (fD w) (fA w) (fImm11 w))
  | 1 =>
    .ok (.lhu (fD w) (fA w) (fImm11 w))
  | 2 =>
    .ok (.lwu (fD w) (fA w) (fImm11 w))
  | _ =>
    if fD w = 0#5 then .ok (.pref (fA w) (fImm11 w)) else .error .nonZeroField

/-- Major 0x7 (R65, R67). -/
def decSst (w : BitVec 32) : Except DecodeError Instr :=
  match (fForm w).toNat with
  | 0 =>
    .ok (.sb (fD w) (fA w) (fImm11 w))
  | 1 =>
    .ok (.sh (fD w) (fA w) (fImm11 w))
  | 2 =>
    .ok (.sw (fD w) (fA w) (fImm11 w))
  | _ =>
    .ok (.sd (fD w) (fA w) (fImm11 w))

/-- Major 0x8 (R65, R67). -/
def decBr (w : BitVec 32) : Except DecodeError Instr :=
  match (fCond w).toNat with
  | 0 =>
    .ok (.beqz (fBrA w) (fOff15 w))
  | 1 =>
    .ok (.bnez (fBrA w) (fOff15 w))
  | 2 =>
    .ok (.bltz (fBrA w) (fOff15 w))
  | 3 =>
    .ok (.bgez (fBrA w) (fOff15 w))
  | 4 =>
    .ok (.bgtz (fBrA w) (fOff15 w))
  | 5 =>
    .ok (.blez (fBrA w) (fOff15 w))
  | 6 =>
    .ok (.bbs (fBrA w) (fOff15 w))
  | _ =>
    .ok (.bbc (fBrA w) (fOff15 w))

/-- Major 0x9 (R65, R67). -/
def decJ (w : BitVec 32) : Except DecodeError Instr :=
  .ok (.j (fOff23 w))

/-- Major 0xa (R65, R67). -/
def decJal (w : BitVec 32) : Except DecodeError Instr :=
  .ok (.jal (fOff23 w))

/-- Major 0xb (R65, R67). -/
def decJr (w : BitVec 32) : Except DecodeError Instr :=
  match (fForm w).toNat with
  | 0 =>
    .ok (.jalr (fD w) (fA w) (fImm11 w))
  | 1 =>
    if fD w = 0#5 then .ok (.jr (fA w) (fImm11 w)) else .error .nonZeroField
  | _ => .error .unassignedMinor

/-- Major 0xc (R65, R67). -/
def decHloop (w : BitVec 32) : Except DecodeError Instr :=
  match (fForm w).toNat with
  | 0 =>
    if fD w = 0#5 then .ok (.loop (fA w) (fImm11 w)) else .error .nonZeroField
  | 1 =>
    if fD w = 0#5 ∧ fA w = 0#5 ∧ fImm11 w = 0#11 then .ok (.lexit) else .error .nonZeroField
  | _ => .error .unassignedMinor

/-- Major 0xd (R65, R67). -/
def decCsr (w : BitVec 32) : Except DecodeError Instr :=
  match (fForm w).toNat with
  | 0 =>
    if fA w = 0#5 then .ok (.csrr (fD w) (fImm11 w)) else .error .nonZeroField
  | 1 =>
    .ok (.csrw (fD w) (fA w) (fImm11 w))
  | 2 =>
    .ok (.csrs (fD w) (fA w) (fImm11 w))
  | _ =>
    .ok (.csrc (fD w) (fA w) (fImm11 w))

/-- Major 0xe (R65, R67). -/
def decMsc (w : BitVec 32) : Except DecodeError Instr :=
  match (fMin6 w).toNat with
  | 0 =>
    if fForm w = 0#2 then if fB w = 0#5 then .ok (.mpopc (fD w) (fA w)) else .error .nonZeroField else .error .srForm
  | 1 =>
    if fForm w = 0#2 then if fB w = 0#5 then .ok (.mfirst (fD w) (fA w)) else .error .nonZeroField else .error .srForm
  | 2 =>
    if fForm w = 0#2 then if fB w = 0#5 then .ok (.many (fD w) (fA w)) else .error .nonZeroField else .error .srForm
  | 3 =>
    if fForm w = 0#2 then if fB w = 0#5 then .ok (.mall (fD w) (fA w)) else .error .nonZeroField else .error .srForm
  | 4 =>
    if fForm w = 0#2 then .ok (.mtos (fD w) (fA w) (fB w)) else .error .srForm
  | _ => .error .unassignedMinor

/-- Major 0x10 (R65, R67). -/
def decVfa (w : BitVec 32) : Except DecodeError Instr :=
  match (fF w).toNat with
  | 0 =>
    match bopAll w with
      | .error e => .error e
      | .ok x => .ok (.vaddF (fD w) (fA w) x (fM w))
  | 1 =>
    match bopAll w with
      | .error e => .error e
      | .ok x => .ok (.vsubF (fD w) (fA w) x (fM w))
  | 2 =>
    match bopAll w with
      | .error e => .error e
      | .ok x => .ok (.vmulF (fD w) (fA w) x (fM w))
  | 3 =>
    match bopAll w with
      | .error e => .error e
      | .ok x => .ok (.vdivF (fD w) (fA w) x (fM w))
  | 4 =>
    match bopAll w with
      | .error e => .error e
      | .ok x => .ok (.vminF (fD w) (fA w) x (fM w))
  | 5 =>
    match bopAll w with
      | .error e => .error e
      | .ok x => .ok (.vmaxF (fD w) (fA w) x (fM w))
  | 6 =>
    match bopAll w with
      | .error e => .error e
      | .ok x => .ok (.vsgnjF (fD w) (fA w) x (fM w))
  | _ =>
    if fForm w = 0#2 then if fB w = 0#5 then .ok (.vabsF (fD w) (fA w) (fM w)) else .error .nonZeroField else .error .formNotPermitted

/-- Major 0x11 (R65, R67). -/
def decVfb (w : BitVec 32) : Except DecodeError Instr :=
  match (fF w).toNat with
  | 0 =>
    match bopAll w with
      | .error e => .error e
      | .ok x => .ok (.vfma (fD w) (fA w) x (fM w))
  | 1 =>
    match bopAll w with
      | .error e => .error e
      | .ok x => .ok (.vfms (fD w) (fA w) x (fM w))
  | 2 =>
    match bopAll w with
      | .error e => .error e
      | .ok x => .ok (.vfnma (fD w) (fA w) x (fM w))
  | 3 =>
    match bopAll w with
      | .error e => .error e
      | .ok x => .ok (.vfnms (fD w) (fA w) x (fM w))
  | 4 =>
    if fForm w = 0#2 then if fB w = 0#5 then .ok (.vsqrt (fD w) (fA w) (fM w)) else .error .nonZeroField else .error .formNotPermitted
  | 5 =>
    if fForm w = 0#2 then if fB w = 0#5 then .ok (.vrsq (fD w) (fA w) (fM w)) else .error .nonZeroField else .error .formNotPermitted
  | 6 =>
    if fForm w = 0#2 then if fB w = 0#5 then .ok (.vrcp (fD w) (fA w) (fM w)) else .error .nonZeroField else .error .formNotPermitted
  | _ =>
    if fForm w = 0#2 then if fB w = 0#5 then .ok (.vnegF (fD w) (fA w) (fM w)) else .error .nonZeroField else .error .formNotPermitted

/-- Major 0x12 (R65, R67). -/
def decVfc (w : BitVec 32) : Except DecodeError Instr :=
  match (fF w).toNat with
  | 0 =>
    match bopAll w with
      | .error e => .error e
      | .ok x => .ok (.vfeq (fD w) (fA w) x (fM w))
  | 1 =>
    match bopAll w with
      | .error e => .error e
      | .ok x => .ok (.vfne (fD w) (fA w) x (fM w))
  | 2 =>
    match bopAll w with
      | .error e => .error e
      | .ok x => .ok (.vflt (fD w) (fA w) x (fM w))
  | 3 =>
    match bopAll w with
      | .error e => .error e
      | .ok x => .ok (.vfle (fD w) (fA w) x (fM w))
  | 4 =>
    match bopAll w with
      | .error e => .error e
      | .ok x => .ok (.vfgt (fD w) (fA w) x (fM w))
  | 5 =>
    match bopAll w with
      | .error e => .error e
      | .ok x => .ok (.vfge (fD w) (fA w) x (fM w))
  | 6 =>
    match bopAll w with
      | .error e => .error e
      | .ok x => .ok (.vfuo (fD w) (fA w) x (fM w))
  | _ =>
    if fForm w = 0#2 then if fB w = 0#5 then .ok (.vfcls (fD w) (fA w) (fM w)) else .error .nonZeroField else .error .formNotPermitted

/-- Major 0x13 (R65, R67). -/
def decVia (w : BitVec 32) : Except DecodeError Instr :=
  match (fF w).toNat with
  | 0 =>
    match bopAll w with
      | .error e => .error e
      | .ok x => .ok (.vadd (fD w) (fA w) x (fM w))
  | 1 =>
    match bopAll w with
      | .error e => .error e
      | .ok x => .ok (.vsub (fD w) (fA w) x (fM w))
  | 2 =>
    match bopAll w with
      | .error e => .error e
      | .ok x => .ok (.vmul (fD w) (fA w) x (fM w))
  | 3 =>
    match bopAll w with
      | .error e => .error e
      | .ok x => .ok (.vmulh (fD w) (fA w) x (fM w))
  | 4 =>
    match bopAll w with
      | .error e => .error e
      | .ok x => .ok (.vmin (fD w) (fA w) x (fM w))
  | 5 =>
    match bopAll w with
      | .error e => .error e
      | .ok x => .ok (.vmax (fD w) (fA w) x (fM w))
  | 6 =>
    match bopAll w with
      | .error e => .error e
      | .ok x => .ok (.vminu (fD w) (fA w) x (fM w))
  | _ =>
    match bopAll w with
      | .error e => .error e
      | .ok x => .ok (.vmaxu (fD w) (fA w) x (fM w))

/-- Major 0x14 (R65, R67). -/
def decVib (w : BitVec 32) : Except DecodeError Instr :=
  match (fF w).toNat with
  | 0 =>
    match bopAll w with
      | .error e => .error e
      | .ok x => .ok (.vand (fD w) (fA w) x (fM w))
  | 1 =>
    match bopAll w with
      | .error e => .error e
      | .ok x => .ok (.vor (fD w) (fA w) x (fM w))
  | 2 =>
    match bopAll w with
      | .error e => .error e
      | .ok x => .ok (.vxor (fD w) (fA w) x (fM w))
  | 3 =>
    match bopAll w with
      | .error e => .error e
      | .ok x => .ok (.vsll (fD w) (fA w) x (fM w))
  | 4 =>
    match bopAll w with
      | .error e => .error e
      | .ok x => .ok (.vsrl (fD w) (fA w) x (fM w))
  | 5 =>
    match bopAll w with
      | .error e => .error e
      | .ok x => .ok (.vsra (fD w) (fA w) x (fM w))
  | 6 =>
    match bopAll w with
      | .error e => .error e
      | .ok x => .ok (.vsadd (fD w) (fA w) x (fM w))
  | _ =>
    match bopAll w with
      | .error e => .error e
      | .ok x => .ok (.vssub (fD w) (fA w) x (fM w))

/-- Major 0x15 (R65, R67). -/
def decVic (w : BitVec 32) : Except DecodeError Instr :=
  match (fF w).toNat with
  | 0 =>
    match bopAll w with
      | .error e => .error e
      | .ok x => .ok (.veq (fD w) (fA w) x (fM w))
  | 1 =>
    match bopAll w with
      | .error e => .error e
      | .ok x => .ok (.vne (fD w) (fA w) x (fM w))
  | 2 =>
    match bopAll w with
      | .error e => .error e
      | .ok x => .ok (.vlt (fD w) (fA w) x (fM w))
  | 3 =>
    match bopAll w with
      | .error e => .error e
      | .ok x => .ok (.vltu (fD w) (fA w) x (fM w))
  | 4 =>
    match bopAll w with
      | .error e => .error e
      | .ok x => .ok (.vle (fD w) (fA w) x (fM w))
  | 5 =>
    match bopAll w with
      | .error e => .error e
      | .ok x => .ok (.vleu (fD w) (fA w) x (fM w))
  | 6 =>
    match bopAll w with
      | .error e => .error e
      | .ok x => .ok (.vgt (fD w) (fA w) x (fM w))
  | _ =>
    match bopAll w with
      | .error e => .error e
      | .ok x => .ok (.vgtu (fD w) (fA w) x (fM w))

/-- Major 0x16 (R65, R67). -/
def decVcv (w : BitVec 32) : Except DecodeError Instr :=
  match (fF w).toNat with
  | 0 =>
    if fForm w = 0#2 then if fB w = 0#5 then .ok (.vcvfI (fD w) (fA w) (fM w)) else .error .nonZeroField else .error .formNotPermitted
  | 1 =>
    if fForm w = 0#2 then if fB w = 0#5 then .ok (.vcviF (fD w) (fA w) (fM w)) else .error .nonZeroField else .error .formNotPermitted
  | 2 =>
    if fForm w = 0#2 then if fB w = 0#5 then .ok (.vcviFz (fD w) (fA w) (fM w)) else .error .nonZeroField else .error .formNotPermitted
  | 3 =>
    if fForm w = 0#2 then if fB w = 0#5 then .ok (.vrndb (fD w) (fA w) (fM w)) else .error .nonZeroField else .error .formNotPermitted
  | 4 =>
    if fForm w = 0#2 then if fB w = 0#5 then .ok (.vflr (fD w) (fA w) (fM w)) else .error .nonZeroField else .error .formNotPermitted
  | 5 =>
    if fForm w = 0#2 then if fB w = 0#5 then .ok (.vfrac (fD w) (fA w) (fM w)) else .error .nonZeroField else .error .formNotPermitted
  | 6 =>
    if fForm w = 0#2 then if fB w = 0#5 then .ok (.vexpn (fD w) (fA w) (fM w)) else .error .nonZeroField else .error .formNotPermitted
  | _ =>
    match bopAll w with
      | .error e => .error e
      | .ok x => .ok (.vldexp (fD w) (fA w) x (fM w))

/-- Major 0x17 (R65, R67). -/
def decVrd (w : BitVec 32) : Except DecodeError Instr :=
  match (fF w).toNat with
  | 0 =>
    if fForm w = 0#2 then if fB w = 0#5 then .ok (.vsumO (fD w) (fA w) (fM w)) else .error .nonZeroField else .error .formNotPermitted
  | 1 =>
    if fForm w = 0#2 then if fB w = 0#5 then .ok (.vsumU (fD w) (fA w) (fM w)) else .error .nonZeroField else .error .formNotPermitted
  | 2 =>
    if fForm w = 0#2 then .ok (.vdotO (fD w) (fA w) (fB w) (fM w)) else .error .formNotPermitted
  | 3 =>
    if fForm w = 0#2 then if fB w = 0#5 then .ok (.vmaxr (fD w) (fA w) (fM w)) else .error .nonZeroField else .error .formNotPermitted
  | 4 =>
    if fForm w = 0#2 then if fB w = 0#5 then .ok (.vminr (fD w) (fA w) (fM w)) else .error .nonZeroField else .error .formNotPermitted
  | 5 =>
    if fForm w = 0#2 then if fB w = 0#5 then .ok (.visum (fD w) (fA w) (fM w)) else .error .nonZeroField else .error .formNotPermitted
  | 6 =>
    if fForm w = 1#2 then .ok (.vscanO (fD w) (fA w) (fB w) (fM w)) else .error .formNotPermitted
  | _ =>
    if fForm w = 1#2 then .ok (.vscanU (fD w) (fA w) (fB w) (fM w)) else .error .formNotPermitted

/-- Major 0x18 (R65, R67). -/
def decVpm (w : BitVec 32) : Except DecodeError Instr :=
  match (fF w).toNat with
  | 0 =>
    match bopSI w with
      | .error e => .error e
      | .ok x => .ok (.vslup (fD w) (fA w) x (fM w))
  | 1 =>
    match bopSI w with
      | .error e => .error e
      | .ok x => .ok (.vsldn (fD w) (fA w) x (fM w))
  | 2 =>
    if fForm w = 0#2 then .ok (.vperm (fD w) (fA w) (fB w) (fM w)) else .error .formNotPermitted
  | 3 =>
    if fForm w = 0#2 then if fM w = 0#3 then .ok (.vcomp (fD w) (fA w) (fB w)) else .error .nonZeroField else .error .formNotPermitted
  | 4 =>
    if fForm w = 0#2 then if fB w = 0#5 then .ok (.viota (fD w) (fA w) (fM w)) else .error .nonZeroField else .error .formNotPermitted
  | 5 =>
    match bopAll w with
      | .error e => .error e
      | .ok x => .ok (.vmerge (fD w) (fA w) x (fM w))
  | 6 =>
    if fForm w = 0#2 then
      if fForm w = 0#2 then if fB w = 0#5 then .ok (.vmvVv (fD w) (fA w) (fM w)) else .error .nonZeroField else .error .formNotPermitted
    else
      match bopSI w with
        | .error e => .error e
        | .ok x => if fA w = 0#5 then .ok (.vmvVsVi (fD w) x (fM w)) else .error .nonZeroField
  | _ =>
    if fForm w = 1#2 then if fM w = 0#3 then .ok (.vext (fD w) (fA w) (fB w)) else .error .nonZeroField else .error .formNotPermitted

/-- Major 0x19 (R65, R67). -/
def decVmk (w : BitVec 32) : Except DecodeError Instr :=
  match (fF w).toNat with
  | 0 =>
    if fForm w = 0#2 then .ok (.mand (fD w) (fA w) (fB w) (fM w)) else .error .formNotPermitted
  | 1 =>
    if fForm w = 0#2 then .ok (.mor (fD w) (fA w) (fB w) (fM w)) else .error .formNotPermitted
  | 2 =>
    if fForm w = 0#2 then .ok (.mxor (fD w) (fA w) (fB w) (fM w)) else .error .formNotPermitted
  | 3 =>
    if fForm w = 0#2 then .ok (.mandn (fD w) (fA w) (fB w) (fM w)) else .error .formNotPermitted
  | 4 =>
    if fForm w = 0#2 then if fB w = 0#5 then .ok (.mnot (fD w) (fA w) (fM w)) else .error .nonZeroField else .error .formNotPermitted
  | 5 =>
    if fForm w = 0#2 then if fA w = 0#5 ∧ fB w = 0#5 then .ok (.mset (fD w) (fM w)) else .error .nonZeroField else .error .formNotPermitted
  | 6 =>
    if fForm w = 0#2 then if fA w = 0#5 ∧ fB w = 0#5 then .ok (.mclr (fD w) (fM w)) else .error .nonZeroField else .error .formNotPermitted
  | _ =>
    if fForm w = 0#2 then if fB w = 0#5 then .ok (.mfromv (fD w) (fA w) (fM w)) else .error .nonZeroField else .error .formNotPermitted

/-- Major 0x1a (R65, R67). -/
def decVgr (w : BitVec 32) : Except DecodeError Instr :=
  match (fF w).toNat with
  | 0 =>
    if fForm w = 2#2 then if (fB w).extractLsb' 3 2 = 0#2 ∧ fM w = 0#3 then .ok (.grant (fD w) (fA w) ((fB w).extractLsb' 0 3)) else .error .nonZeroField else .error .formNotPermitted
  | 1 =>
    if fForm w = 1#2 then if fM w = 0#3 then .ok (.grantx (fD w) (fA w) (fB w)) else .error .nonZeroField else .error .formNotPermitted
  | 2 =>
    if fForm w = 0#2 then if fD w = 0#5 ∧ fA w = 0#5 ∧ fB w = 0#5 ∧ fM w = 0#3 then .ok (.sclose) else .error .nonZeroField else .error .formNotPermitted
  | _ => .error .unassignedMinor

/-- Major 0x1b (R65, R67). -/
def decVldu (w : BitVec 32) : Except DecodeError Instr :=
  if (fB w).extractLsb' 1 4 = 0#4 then .ok (.vldu (fForm w) (fD w) (fA w) ((fB w).extractLsb' 0 1) (fM w) (fF w)) else .error .nonZeroField

/-- Major 0x1c (R65, R67). -/
def decVlds (w : BitVec 32) : Except DecodeError Instr :=
  .ok (.vlds (fForm w) (fD w) (fA w) (fB w) (fM w) (fF w))

/-- Major 0x1d (R65, R67). -/
def decVldx (w : BitVec 32) : Except DecodeError Instr :=
  .ok (.vldx (fForm w) (fD w) (fA w) (fB w) (fM w) (fF w))

/-- Major 0x1e (R65, R67). -/
def decVldm (w : BitVec 32) : Except DecodeError Instr :=
  if (fB w).extractLsb' 2 3 = 0#3 then if ((fB w).extractLsb' 0 2) ≠ 0#2 then .ok (.vldm (fForm w) (fD w) (fA w) ((fB w).extractLsb' 0 2) (fM w) (fF w)) else .error .reservedControl else .error .nonZeroField

/-- Major 0x1f (R65, R67). -/
def decVstu (w : BitVec 32) : Except DecodeError Instr :=
  if fB w = 0#5 then .ok (.vstu (fForm w) (fD w) (fA w) (fM w) (fF w)) else .error .nonZeroField

/-- Major 0x20 (R65, R67). -/
def decVsts (w : BitVec 32) : Except DecodeError Instr :=
  .ok (.vsts (fForm w) (fD w) (fA w) (fB w) (fM w) (fF w))

/-- Major 0x21 (R65, R67). -/
def decVstx (w : BitVec 32) : Except DecodeError Instr :=
  .ok (.vstx (fForm w) (fD w) (fA w) (fB w) (fM w) (fF w))

/-- Major 0x22 (R65, R67). -/
def decVstm (w : BitVec 32) : Except DecodeError Instr :=
  if (fB w).extractLsb' 2 3 = 0#3 then if ((fB w).extractLsb' 0 2) ≠ 0#2 then .ok (.vstm (fForm w) (fD w) (fA w) ((fB w).extractLsb' 0 2) (fM w) (fF w)) else .error .reservedControl else .error .nonZeroField

/-- Major 0x23 (R65, R67). -/
def decVat (w : BitVec 32) : Except DecodeError Instr :=
  match (fF w).toNat with
  | 0 =>
    .ok (.vaaddO (fForm w) (fD w) (fA w) (fB w) (fM w))
  | 1 =>
    .ok (.vaaddU (fForm w) (fD w) (fA w) (fB w) (fM w))
  | 2 =>
    .ok (.vaaddi (fForm w) (fD w) (fA w) (fB w) (fM w))
  | 3 =>
    .ok (.vamaxi (fForm w) (fD w) (fA w) (fB w) (fM w))
  | 4 =>
    .ok (.vamini (fForm w) (fD w) (fA w) (fB w) (fM w))
  | 5 =>
    .ok (.vaswp (fForm w) (fD w) (fA w) (fB w) (fM w))
  | 6 =>
    .ok (.vaor (fForm w) (fD w) (fA w) (fB w) (fM w))
  | _ =>
    .ok (.vaand (fForm w) (fD w) (fA w) (fB w) (fM w))

/-- Major 0x24 (R65, R67). -/
def decSat (w : BitVec 32) : Except DecodeError Instr :=
  match (fF w).toNat with
  | 0 =>
    if fForm w = 0#2 then if scopeOk (fM w) then .ok (.amoadd (fD w) (fA w) (fB w) (fM w)) else .error .reservedControl else .error .formNotPermitted
  | 1 =>
    if fForm w = 0#2 then if scopeOk (fM w) then .ok (.amoswp (fD w) (fA w) (fB w) (fM w)) else .error .reservedControl else .error .formNotPermitted
  | 2 =>
    if fForm w = 0#2 then if scopeOk (fM w) then .ok (.amocas (fD w) (fA w) (fB w) (fM w)) else .error .reservedControl else .error .formNotPermitted
  | 3 =>
    if fForm w = 0#2 then if scopeOk (fM w) then .ok (.amomax (fD w) (fA w) (fB w) (fM w)) else .error .reservedControl else .error .formNotPermitted
  | 4 =>
    if fForm w = 0#2 then if fB w = 0#5 then if scopeOk (fM w) then .ok (.ldacq (fD w) (fA w) (fM w)) else .error .reservedControl else .error .nonZeroField else .error .formNotPermitted
  | 5 =>
    if fForm w = 0#2 then if fD w = 0#5 then if scopeOk (fM w) then .ok (.strel (fA w) (fB w) (fM w)) else .error .reservedControl else .error .nonZeroField else .error .formNotPermitted
  | 6 =>
    if fForm w = 0#2 then if fD w = 0#5 ∧ fA w = 0#5 ∧ fB w = 0#5 then if scopeOk (fM w) then .ok (.fence (fM w)) else .error .reservedControl else .error .nonZeroField else .error .formNotPermitted
  | _ =>
    if fForm w = 0#2 then if fD w = 0#5 ∧ fA w = 0#5 ∧ (fB w).extractLsb' 4 1 = 0#1 then if scopeOk (fM w) then .ok (.sbar ((fB w).extractLsb' 0 4) (fM w)) else .error .reservedControl else .error .nonZeroField else .error .formNotPermitted

/-- Major 0x25 (R65, R67). -/
def decVco (w : BitVec 32) : Except DecodeError Instr :=
  match (fF w).toNat with
  | 0 =>
    if (fB w).extractLsb' 2 3 = 0#3 then .ok (.vldc (fForm w) (fD w) (fA w) ((fB w).extractLsb' 0 2) (fM w)) else .error .nonZeroField
  | 1 =>
    if (fB w).extractLsb' 2 3 = 0#3 then .ok (.vstc (fForm w) (fD w) (fA w) ((fB w).extractLsb' 0 2) (fM w)) else .error .nonZeroField
  | 2 =>
    if (fB w).extractLsb' 2 3 = 0#3 then .ok (.vacadO (fForm w) (fD w) (fA w) ((fB w).extractLsb' 0 2) (fM w)) else .error .nonZeroField
  | 3 =>
    if (fB w).extractLsb' 2 3 = 0#3 then .ok (.vacadU (fForm w) (fD w) (fA w) ((fB w).extractLsb' 0 2) (fM w)) else .error .nonZeroField
  | 4 =>
    if (fB w).extractLsb' 2 3 = 0#3 then .ok (.vprbc (fForm w) (fD w) (fA w) ((fB w).extractLsb' 0 2) (fM w)) else .error .nonZeroField
  | 5 =>
    if fD w = 0#5 ∧ (fB w).extractLsb' 2 3 = 0#3 ∧ fM w = 0#3 then .ok (.vclbinv (fForm w) (fA w) ((fB w).extractLsb' 0 2)) else .error .nonZeroField
  | 6 =>
    if fD w = 0#5 ∧ (fB w).extractLsb' 2 3 = 0#3 ∧ fM w = 0#3 then .ok (.vsetvol (fForm w) (fA w) ((fB w).extractLsb' 0 2)) else .error .nonZeroField
  | _ => .error .unassignedMinor

/-- Major 0x26 (R65, R67). -/
def decTlb (w : BitVec 32) : Except DecodeError Instr :=
  match (fF w).toNat with
  | 0 =>
    if fForm w = 0#2 then if fM w = 0#3 then .ok (.tlblock (fD w) (fA w) (fB w)) else .error .nonZeroField else .error .formNotPermitted
  | 1 =>
    if fForm w = 0#2 then if fD w = 0#5 ∧ fB w = 0#5 ∧ fM w = 0#3 then .ok (.tlbunlk (fA w)) else .error .nonZeroField else .error .formNotPermitted
  | 2 =>
    if fForm w = 0#2 then if fB w = 0#5 ∧ fM w = 0#3 then .ok (.tlbprb (fD w) (fA w)) else .error .nonZeroField else .error .formNotPermitted
  | _ => .error .unassignedMinor

/-- Major 0x27 (R65, R67). -/
def decMst (w : BitVec 32) : Except DecodeError Instr :=
  match (fF w).toNat with
  | 0 =>
    if fForm w = 0#2 then if fB w = 0#5 ∧ fM w = 0#3 then .ok (.mattach (fD w) (fA w)) else .error .nonZeroField else .error .formNotPermitted
  | 1 =>
    if fForm w = 0#2 then if fD w = 0#5 ∧ fA w = 0#5 ∧ fB w = 0#5 ∧ fM w = 0#3 then .ok (.mdetach) else .error .nonZeroField else .error .formNotPermitted
  | 2 =>
    if fForm w = 0#2 then if fB w = 0#5 ∧ fM w = 0#3 then .ok (.msetvl (fD w) (fA w)) else .error .nonZeroField else .error .formNotPermitted
  | 3 =>
    if fForm w = 0#2 then if fA w = 0#5 ∧ fB w = 0#5 ∧ fM w = 0#3 then .ok (.mzero (fD w)) else .error .nonZeroField else .error .formNotPermitted
  | 4 =>
    if fForm w = 0#2 then if fM w = 0#3 then .ok (.mknot (fD w) (fA w) (fB w)) else .error .nonZeroField else .error .formNotPermitted
  | 5 =>
    if fForm w = 0#2 then if fM w = 0#3 then .ok (.mgsel (fD w) (fA w) (fB w)) else .error .nonZeroField else .error .formNotPermitted
  | 6 =>
    match bopSI w with
      | .error e => .error e
      | .ok x => if fA w = 0#5 ∧ fM w = 0#3 then .ok (.mresc (fD w) x) else .error .nonZeroField
  | _ => .error .unassignedMinor

/-- Major 0x28 (R65, R67). -/
def decMmv (w : BitVec 32) : Except DecodeError Instr :=
  match (fF w).toNat with
  | 0 =>
    match bopSI w with
      | .error e => .error e
      | .ok x => if fM w = 0#3 then .ok (.troww (fD w) (fA w) x) else .error .nonZeroField
  | 1 =>
    match bopSI w with
      | .error e => .error e
      | .ok x => if fM w = 0#3 then .ok (.trowr (fD w) (fA w) x) else .error .nonZeroField
  | 2 =>
    match bopSI w with
      | .error e => .error e
      | .ok x => if fM w = 0#3 then .ok (.tcolw (fD w) (fA w) x) else .error .nonZeroField
  | 3 =>
    match bopSI w with
      | .error e => .error e
      | .ok x => if fM w = 0#3 then .ok (.tcolr (fD w) (fA w) x) else .error .nonZeroField
  | 4 =>
    match bopSI w with
      | .error e => .error e
      | .ok x => if fM w = 0#3 then .ok (.aextr (fD w) (fA w) x) else .error .nonZeroField
  | 5 =>
    match bopSI w with
      | .error e => .error e
      | .ok x => if fM w = 0#3 then .ok (.aextc (fD w) (fA w) x) else .error .nonZeroField
  | 6 =>
    match bopSI w with
      | .error e => .error e
      | .ok x => if fM w = 0#3 then .ok (.ainsr (fD w) (fA w) x) else .error .nonZeroField
  | _ =>
    if fForm w = 0#2 then if fA w = 0#5 ∧ fB w = 0#5 ∧ fM w = 0#3 then .ok (.tzero (fD w)) else .error .nonZeroField else .error .formNotPermitted

/-- Major 0x29 (R65, R67). -/
def decMop (w : BitVec 32) : Except DecodeError Instr :=
  match (fF w).toNat with
  | 0 =>
    if fForm w = 0#2 then if fM w = 0#3 then .ok (.mldc (fD w) (fA w) (fB w)) else .error .nonZeroField else .error .formNotPermitted
  | 1 =>
    if fForm w = 0#2 then if fM w = 0#3 then .ok (.mstc (fD w) (fA w) (fB w)) else .error .nonZeroField else .error .formNotPermitted
  | 2 =>
    if fForm w = 0#2 then if fA w = 0#5 ∧ fB w = 0#5 ∧ fM w = 0#3 then .ok (.mrefn (fD w)) else .error .nonZeroField else .error .formNotPermitted
  | 3 =>
    if fForm w = 0#2 then if fB w = 0#5 then .ok (.mma (fD w) (fA w) (fM w)) else .error .nonZeroField else .error .formNotPermitted
  | 4 =>
    if fForm w = 0#2 then if fM w = 0#3 then .ok (.mspld (fD w) (fA w) (fB w)) else .error .nonZeroField else .error .formNotPermitted
  | 5 =>
    if fForm w = 0#2 then if fM w = 0#3 then .ok (.mopa (fD w) (fA w) (fB w)) else .error .nonZeroField else .error .formNotPermitted
  | 6 =>
    if fForm w = 0#2 then if fM w = 0#3 then .ok (.msplg (fD w) (fA w) (fB w)) else .error .nonZeroField else .error .formNotPermitted
  | _ => .error .unassignedMinor

/-- Major 0x2a (R65, R67). -/
def decEng (w : BitVec 32) : Except DecodeError Instr :=
  match (fF w).toNat with
  | 0 =>
    if (fB w).extractLsb' 1 4 = 0#4 then .ok (.ecopy (fForm w) (fD w) (fA w) ((fB w).extractLsb' 0 1) ((fM w).extractLsb' 2 1) ((fM w).extractLsb' 0 2)) else .error .nonZeroField
  | 1 =>
    if fB w = 0#5 ∧ (fM w).extractLsb' 2 1 = 0#1 then .ok (.ecoll (fForm w) (fD w) (fA w) ((fM w).extractLsb' 0 2)) else .error .nonZeroField
  | 2 =>
    if fForm w = 0#2 then if fD w = 0#5 ∧ fB w = 0#5 then if scopeOk (fM w) then .ok (.epub (fA w) (fM w)) else .error .reservedControl else .error .nonZeroField else .error .formNotPermitted
  | 3 =>
    if fForm w = 0#2 then if fD w = 0#5 ∧ fB w = 0#5 ∧ fM w = 0#3 then .ok (.ewait (fA w)) else .error .nonZeroField else .error .formNotPermitted
  | 4 =>
    if fForm w = 0#2 then if fB w = 0#5 ∧ fM w = 0#3 then .ok (.epoll (fD w) (fA w)) else .error .nonZeroField else .error .formNotPermitted
  | 5 =>
    if fForm w = 0#2 then if fM w = 0#3 then .ok (.esig (fD w) (fA w) (fB w)) else .error .nonZeroField else .error .formNotPermitted
  | _ => .error .unassignedMinor

/-- Major 0x2b (R65, R67). -/
def decUint (w : BitVec 32) : Except DecodeError Instr :=
  match (fF w).toNat with
  | 0 =>
    if fForm w = 0#2 then if fD w = 0#5 ∧ fA w = 0#5 ∧ fB w = 0#5 ∧ fM w = 0#3 then .ok (.uiret) else .error .nonZeroField else .error .formNotPermitted
  | 1 =>
    if fForm w = 0#2 then if fD w = 0#5 ∧ fA w = 0#5 ∧ fB w = 0#5 ∧ fM w = 0#3 then .ok (.uiwait) else .error .nonZeroField else .error .formNotPermitted
  | 2 =>
    if fForm w = 0#2 then if fB w = 0#5 ∧ fM w = 0#3 then .ok (.uimask (fD w) (fA w)) else .error .nonZeroField else .error .formNotPermitted
  | 3 =>
    if fForm w = 0#2 then if fD w = 0#5 ∧ fB w = 0#5 ∧ fM w = 0#3 then .ok (.uiraise (fA w)) else .error .nonZeroField else .error .formNotPermitted
  | _ => .error .unassignedMinor

/-- A 32-bit word by its major (R65, R70 items 3, 4, 7 to 12). -/
def decode32 (w : BitVec 32) : Except DecodeError Instr :=
  match (fMaj w).toNat with
  | 0 => decSys w
  | 1 => decSalu w
  | 2 => decSimm w
  | 3 => decSshi w
  | 4 => decSli w
  | 5 => decSlda w
  | 6 => decSldb w
  | 7 => decSst w
  | 8 => decBr w
  | 9 => decJ w
  | 10 => decJal w
  | 11 => decJr w
  | 12 => decHloop w
  | 13 => decCsr w
  | 14 => decMsc w
  | 16 => decVfa w
  | 17 => decVfb w
  | 18 => decVfc w
  | 19 => decVia w
  | 20 => decVib w
  | 21 => decVic w
  | 22 => decVcv w
  | 23 => decVrd w
  | 24 => decVpm w
  | 25 => decVmk w
  | 26 => decVgr w
  | 27 => decVldu w
  | 28 => decVlds w
  | 29 => decVldx w
  | 30 => decVldm w
  | 31 => decVstu w
  | 32 => decVsts w
  | 33 => decVstx w
  | 34 => decVstm w
  | 35 => decVat w
  | 36 => decSat w
  | 37 => decVco w
  | 38 => decTlb w
  | 39 => decMst w
  | 40 => decMmv w
  | 41 => decMop w
  | 42 => decEng w
  | 43 => decUint w
  | 48 => .error .baseWithoutPrefix
  | _ => .error .unassignedMajor

/-- A compressed parcel (R68, R70 items 1 and 2). -/
def decode16 (p : BitVec 16) : Except DecodeError Instr :=
  match (cOp p).toNat with
  | 1 => .ok (.cAddi (cD p) (cImm p))
  | 2 => .ok (.cLi (cD p) (cImm p))
  | 3 => .ok (.cLd (cD p) (cImm p))
  | 4 => .ok (.cSd (cD p) (cImm p))
  | 5 => .ok (.cLw (cD p) (cImm p))
  | 6 => .ok (.cSw (cD p) (cImm p))
  | 8 => if cLow p = 0#1 then .ok (.cMv (cD p) (cA p)) else .error .compressedNonZero
  | 9 => if cLow p = 0#1 then .ok (.cAdd (cD p) (cA p)) else .error .compressedNonZero
  | 10 => if cLow p = 0#1 then .ok (.cSub (cD p) (cA p)) else .error .compressedNonZero
  | 11 => if cLow p = 0#1 then .ok (.cGrant (cD p) (cA p)) else .error .compressedNonZero
  | 12 => .ok (.cJ (cRest p))
  | 13 => .ok (.cBeqz (cD p) (cImm p))
  | 14 => .ok (.cBnez (cD p) (cImm p))
  | 16 => if cRest p = 0#11 then .ok .cNop else .error .compressedNonZero
  | 17 => if cRest p = 0#11 then .ok .cSclose else .error .compressedNonZero
  | 18 => if cRest p = 0#11 then .ok .cCvy else .error .compressedNonZero
  | _ => .error .reservedCompressed

/-- A prefix X and its base word W (R64, R70 items 5, 6 and 11). -/
def decode64 (x w : BitVec 32) : Except DecodeError Instr :=
  if fKind w ≠ 6#3 ∨ fMaj w ≠ 0x30#6 then .error .prefixBase
  else if xFl x ≠ 0#3 then .error .reservedFlags
  else if fForm w ≠ 0#2 then .error .formNotPermitted
  else if fB w ≠ 0#5 then .error .nonZeroField
  else
    match (fF w).toNat with
    | 0 => if xKnot x = 0#2 ∧ xKbase x = 0#8 then .ok (.tmma (fD w) (fA w) (fM w) (xPair x) (xChunks x) (xClr x)) else .error .nonZeroField
    | 1 => if xKnot x = 0#2 ∧ xKbase x = 0#8 then .ok (.tsplf (fD w) (fA w) (fM w) (xPair x) (xChunks x) (xClr x)) else .error .nonZeroField
    | 2 => if fM w = 0#3 ∧ xKnot x = 0#2 ∧ xKbase x = 0#8 then .ok (.tspld (fD w) (fA w) (xPair x) (xChunks x) (xClr x)) else .error .nonZeroField
    | 3 => if fM w = 0#3 ∧ xKnot x = 0#2 then .ok (.topa (fD w) (fA w) (xPair x) (xChunks x) (xKbase x) (xClr x)) else .error .nonZeroField
    | 4 => if fM w = 0#3 ∧ xKnot x = 0#2 then .ok (.tsplg (fD w) (fA w) (xPair x) (xChunks x) (xKbase x) (xClr x)) else .error .nonZeroField
    | 5 => if fM w = 0#3 ∧ xPair x = 0#5 ∧ xClr x = false then .ok (.tldc (fD w) (fA w) (xChunks x) (xKnot x) (xKbase x)) else .error .nonZeroField
    | 6 => if fM w = 0#3 ∧ xPair x = 0#5 ∧ xKnot x = 0#2 ∧ xClr x = false then .ok (.tstc (fD w) (fA w) (xChunks x) (xKbase x)) else .error .nonZeroField
    | _ => .error .unassignedMinor

/-- The parcels at an address: the instruction and its length in bytes (R59). -/
def decodeParcels : List Half → Except DecodeError (Instr × Nat)
  | [] => .error .truncated
  | p0 :: rest =>
    if p0.extractLsb' 14 2 ≠ 3#2 then (decode16 p0).map (·, 2)
    else if p0.extractLsb' 13 1 = 0#1 then
      match rest with
      | p1 :: _ => (decode32 (p0 ++ p1)).map (·, 4)
      | _ => .error .truncated
    else
      match rest with
      | p1 :: p2 :: p3 :: _ => (decode64 (p0 ++ p1) (p2 ++ p3)).map (·, 8)
      | _ => .error .truncated

/-- Bytes as parcels, the low byte first (R6, R59). -/
def parcelsOf : List Byte → List Half
  | b0 :: b1 :: rest => (b1 ++ b0) :: parcelsOf rest
  | _ => []

/-- Decoding, total on any bytes. -/
def decode (bytes : List Byte) : Except DecodeError (Instr × Nat) := decodeParcels (parcelsOf bytes)

/-! ### Encoding, from the same tables -/

def vWord (maj : BitVec 6) (form : BitVec 2) (d a b : BitVec 5) (m f : BitVec 3) : BitVec 32 :=
  6#3 ++ maj ++ form ++ d ++ a ++ b ++ m ++ f
def srWord (maj : BitVec 6) (form : BitVec 2) (d a b : BitVec 5) (min : BitVec 6) : BitVec 32 :=
  6#3 ++ maj ++ form ++ d ++ a ++ b ++ min
def siWord (maj : BitVec 6) (min : BitVec 2) (d a : BitVec 5) (imm : BitVec 11) : BitVec 32 :=
  6#3 ++ maj ++ min ++ d ++ a ++ imm
def suWord (maj : BitVec 6) (min : BitVec 2) (d : BitVec 5) (imm : BitVec 16) : BitVec 32 :=
  6#3 ++ maj ++ min ++ d ++ imm
def brWord (maj : BitVec 6) (cond : BitVec 3) (a : BitVec 5) (off : BitVec 15) : BitVec 32 :=
  6#3 ++ maj ++ cond ++ a ++ off
def jWord (maj : BitVec 6) (off : BitVec 23) : BitVec 32 := 6#3 ++ maj ++ off
def xWord (pair : BitVec 5) (chunks : BitVec 10) (knot : BitVec 2) (kbase : BitVec 8) (clr : Bool) :
    BitVec 32 :=
  7#3 ++ pair ++ chunks ++ knot ++ kbase ++ BitVec.ofBool clr ++ 0#3
def cWord (op : BitVec 5) (rest : BitVec 11) : BitVec 16 := op ++ rest

/-- The two parcels of a word, the high half first (R59). -/
def words32 (w : BitVec 32) : List Half := [w.extractLsb' 16 16, w.extractLsb' 0 16]
def words64 (x w : BitVec 32) : List Half := words32 x ++ words32 w

def BOp.form : BOp → BitVec 2
  | .vv _ => 0
  | .vs _ => 1
  | .vi _ => 2
def BOp.field : BOp → BitVec 5
  | .vv n => n
  | .vs n => n
  | .vi n => n

/-- The parcels of an instruction; an event has none. -/
def encode (i : Instr) : List Half :=
  match i with
  | .add d a b => words32 (srWord 0x1#6 0#2 d a b 0#6)
  | .sub d a b => words32 (srWord 0x1#6 0#2 d a b 1#6)
  | .and d a b => words32 (srWord 0x1#6 0#2 d a b 2#6)
  | .or d a b => words32 (srWord 0x1#6 0#2 d a b 3#6)
  | .xor d a b => words32 (srWord 0x1#6 0#2 d a b 4#6)
  | .sll d a b => words32 (srWord 0x1#6 0#2 d a b 5#6)
  | .srl d a b => words32 (srWord 0x1#6 0#2 d a b 6#6)
  | .sra d a b => words32 (srWord 0x1#6 0#2 d a b 7#6)
  | .slt d a b => words32 (srWord 0x1#6 0#2 d a b 8#6)
  | .sltu d a b => words32 (srWord 0x1#6 0#2 d a b 9#6)
  | .mul d a b => words32 (srWord 0x1#6 0#2 d a b 10#6)
  | .mulh d a b => words32 (srWord 0x1#6 0#2 d a b 11#6)
  | .mulhu d a b => words32 (srWord 0x1#6 0#2 d a b 12#6)
  | .div d a b => words32 (srWord 0x1#6 0#2 d a b 13#6)
  | .divu d a b => words32 (srWord 0x1#6 0#2 d a b 14#6)
  | .rem d a b => words32 (srWord 0x1#6 0#2 d a b 15#6)
  | .remu d a b => words32 (srWord 0x1#6 0#2 d a b 16#6)
  | .min d a b => words32 (srWord 0x1#6 0#2 d a b 17#6)
  | .max d a b => words32 (srWord 0x1#6 0#2 d a b 18#6)
  | .minu d a b => words32 (srWord 0x1#6 0#2 d a b 19#6)
  | .maxu d a b => words32 (srWord 0x1#6 0#2 d a b 20#6)
  | .clz d a => words32 (srWord 0x1#6 0#2 d a 0#5 21#6)
  | .ctz d a => words32 (srWord 0x1#6 0#2 d a 0#5 22#6)
  | .popc d a => words32 (srWord 0x1#6 0#2 d a 0#5 23#6)
  | .addi d a i => words32 (siWord 0x2#6 0#2 d a i)
  | .andi d a i => words32 (siWord 0x2#6 1#2 d a i)
  | .ori d a i => words32 (siWord 0x2#6 2#2 d a i)
  | .xori d a i => words32 (siWord 0x2#6 3#2 d a i)
  | .slli d a i => words32 (siWord 0x3#6 0#2 d a (0#5 ++ i))
  | .srli d a i => words32 (siWord 0x3#6 1#2 d a (0#5 ++ i))
  | .srai d a i => words32 (siWord 0x3#6 2#2 d a (0#5 ++ i))
  | .slti d a i => words32 (siWord 0x3#6 3#2 d a i)
  | .lil d i => words32 (suWord 0x4#6 0#2 d i)
  | .lih d i => words32 (suWord 0x4#6 1#2 d i)
  | .lix d i => words32 (suWord 0x4#6 2#2 d i)
  | .liy d i => words32 (suWord 0x4#6 3#2 d i)
  | .lb d a i => words32 (siWord 0x5#6 0#2 d a i)
  | .lh d a i => words32 (siWord 0x5#6 1#2 d a i)
  | .lw d a i => words32 (siWord 0x5#6 2#2 d a i)
  | .ld d a i => words32 (siWord 0x5#6 3#2 d a i)
  | .lbu d a i => words32 (siWord 0x6#6 0#2 d a i)
  | .lhu d a i => words32 (siWord 0x6#6 1#2 d a i)
  | .lwu d a i => words32 (siWord 0x6#6 2#2 d a i)
  | .pref a i => words32 (siWord 0x6#6 3#2 0#5 a i)
  | .sb d a i => words32 (siWord 0x7#6 0#2 d a i)
  | .sh d a i => words32 (siWord 0x7#6 1#2 d a i)
  | .sw d a i => words32 (siWord 0x7#6 2#2 d a i)
  | .sd d a i => words32 (siWord 0x7#6 3#2 d a i)
  | .beqz a o => words32 (brWord 0x8#6 0#3 a o)
  | .bnez a o => words32 (brWord 0x8#6 1#3 a o)
  | .bltz a o => words32 (brWord 0x8#6 2#3 a o)
  | .bgez a o => words32 (brWord 0x8#6 3#3 a o)
  | .bgtz a o => words32 (brWord 0x8#6 4#3 a o)
  | .blez a o => words32 (brWord 0x8#6 5#3 a o)
  | .bbs a o => words32 (brWord 0x8#6 6#3 a o)
  | .bbc a o => words32 (brWord 0x8#6 7#3 a o)
  | .j o => words32 (jWord 0x9#6 o)
  | .jal o => words32 (jWord 0xa#6 o)
  | .jalr d a i => words32 (siWord 0xb#6 0#2 d a i)
  | .jr a i => words32 (siWord 0xb#6 1#2 0#5 a i)
  | .loop a i => words32 (siWord 0xc#6 0#2 0#5 a i)
  | .csrr d i => words32 (siWord 0xd#6 0#2 d 0#5 i)
  | .csrw d a i => words32 (siWord 0xd#6 1#2 d a i)
  | .csrs d a i => words32 (siWord 0xd#6 2#2 d a i)
  | .csrc d a i => words32 (siWord 0xd#6 3#2 d a i)
  | .mpopc d a => words32 (srWord 0xe#6 0#2 d a 0#5 0#6)
  | .mfirst d a => words32 (srWord 0xe#6 0#2 d a 0#5 1#6)
  | .many d a => words32 (srWord 0xe#6 0#2 d a 0#5 2#6)
  | .mall d a => words32 (srWord 0xe#6 0#2 d a 0#5 3#6)
  | .mtos d a b => words32 (srWord 0xe#6 0#2 d a b 4#6)
  | .vaddF d a b m => words32 (vWord 0x10#6 b.form d a b.field m 0#3)
  | .vsubF d a b m => words32 (vWord 0x10#6 b.form d a b.field m 1#3)
  | .vmulF d a b m => words32 (vWord 0x10#6 b.form d a b.field m 2#3)
  | .vdivF d a b m => words32 (vWord 0x10#6 b.form d a b.field m 3#3)
  | .vminF d a b m => words32 (vWord 0x10#6 b.form d a b.field m 4#3)
  | .vmaxF d a b m => words32 (vWord 0x10#6 b.form d a b.field m 5#3)
  | .vsgnjF d a b m => words32 (vWord 0x10#6 b.form d a b.field m 6#3)
  | .vabsF d a m => words32 (vWord 0x10#6 0#2 d a 0#5 m 7#3)
  | .vfma d a b m => words32 (vWord 0x11#6 b.form d a b.field m 0#3)
  | .vfms d a b m => words32 (vWord 0x11#6 b.form d a b.field m 1#3)
  | .vfnma d a b m => words32 (vWord 0x11#6 b.form d a b.field m 2#3)
  | .vfnms d a b m => words32 (vWord 0x11#6 b.form d a b.field m 3#3)
  | .vsqrt d a m => words32 (vWord 0x11#6 0#2 d a 0#5 m 4#3)
  | .vrsq d a m => words32 (vWord 0x11#6 0#2 d a 0#5 m 5#3)
  | .vrcp d a m => words32 (vWord 0x11#6 0#2 d a 0#5 m 6#3)
  | .vnegF d a m => words32 (vWord 0x11#6 0#2 d a 0#5 m 7#3)
  | .vfeq d a b m => words32 (vWord 0x12#6 b.form d a b.field m 0#3)
  | .vfne d a b m => words32 (vWord 0x12#6 b.form d a b.field m 1#3)
  | .vflt d a b m => words32 (vWord 0x12#6 b.form d a b.field m 2#3)
  | .vfle d a b m => words32 (vWord 0x12#6 b.form d a b.field m 3#3)
  | .vfgt d a b m => words32 (vWord 0x12#6 b.form d a b.field m 4#3)
  | .vfge d a b m => words32 (vWord 0x12#6 b.form d a b.field m 5#3)
  | .vfuo d a b m => words32 (vWord 0x12#6 b.form d a b.field m 6#3)
  | .vfcls d a m => words32 (vWord 0x12#6 0#2 d a 0#5 m 7#3)
  | .vadd d a b m => words32 (vWord 0x13#6 b.form d a b.field m 0#3)
  | .vsub d a b m => words32 (vWord 0x13#6 b.form d a b.field m 1#3)
  | .vmul d a b m => words32 (vWord 0x13#6 b.form d a b.field m 2#3)
  | .vmulh d a b m => words32 (vWord 0x13#6 b.form d a b.field m 3#3)
  | .vmin d a b m => words32 (vWord 0x13#6 b.form d a b.field m 4#3)
  | .vmax d a b m => words32 (vWord 0x13#6 b.form d a b.field m 5#3)
  | .vminu d a b m => words32 (vWord 0x13#6 b.form d a b.field m 6#3)
  | .vmaxu d a b m => words32 (vWord 0x13#6 b.form d a b.field m 7#3)
  | .vand d a b m => words32 (vWord 0x14#6 b.form d a b.field m 0#3)
  | .vor d a b m => words32 (vWord 0x14#6 b.form d a b.field m 1#3)
  | .vxor d a b m => words32 (vWord 0x14#6 b.form d a b.field m 2#3)
  | .vsll d a b m => words32 (vWord 0x14#6 b.form d a b.field m 3#3)
  | .vsrl d a b m => words32 (vWord 0x14#6 b.form d a b.field m 4#3)
  | .vsra d a b m => words32 (vWord 0x14#6 b.form d a b.field m 5#3)
  | .vsadd d a b m => words32 (vWord 0x14#6 b.form d a b.field m 6#3)
  | .vssub d a b m => words32 (vWord 0x14#6 b.form d a b.field m 7#3)
  | .veq d a b m => words32 (vWord 0x15#6 b.form d a b.field m 0#3)
  | .vne d a b m => words32 (vWord 0x15#6 b.form d a b.field m 1#3)
  | .vlt d a b m => words32 (vWord 0x15#6 b.form d a b.field m 2#3)
  | .vltu d a b m => words32 (vWord 0x15#6 b.form d a b.field m 3#3)
  | .vle d a b m => words32 (vWord 0x15#6 b.form d a b.field m 4#3)
  | .vleu d a b m => words32 (vWord 0x15#6 b.form d a b.field m 5#3)
  | .vgt d a b m => words32 (vWord 0x15#6 b.form d a b.field m 6#3)
  | .vgtu d a b m => words32 (vWord 0x15#6 b.form d a b.field m 7#3)
  | .vcvfI d a m => words32 (vWord 0x16#6 0#2 d a 0#5 m 0#3)
  | .vcviF d a m => words32 (vWord 0x16#6 0#2 d a 0#5 m 1#3)
  | .vcviFz d a m => words32 (vWord 0x16#6 0#2 d a 0#5 m 2#3)
  | .vrndb d a m => words32 (vWord 0x16#6 0#2 d a 0#5 m 3#3)
  | .vflr d a m => words32 (vWord 0x16#6 0#2 d a 0#5 m 4#3)
  | .vfrac d a m => words32 (vWord 0x16#6 0#2 d a 0#5 m 5#3)
  | .vexpn d a m => words32 (vWord 0x16#6 0#2 d a 0#5 m 6#3)
  | .vldexp d a b m => words32 (vWord 0x16#6 b.form d a b.field m 7#3)
  | .vsumO d a m => words32 (vWord 0x17#6 0#2 d a 0#5 m 0#3)
  | .vsumU d a m => words32 (vWord 0x17#6 0#2 d a 0#5 m 1#3)
  | .vdotO d a b m => words32 (vWord 0x17#6 0#2 d a b m 2#3)
  | .vmaxr d a m => words32 (vWord 0x17#6 0#2 d a 0#5 m 3#3)
  | .vminr d a m => words32 (vWord 0x17#6 0#2 d a 0#5 m 4#3)
  | .visum d a m => words32 (vWord 0x17#6 0#2 d a 0#5 m 5#3)
  | .vscanO d a b m => words32 (vWord 0x17#6 1#2 d a b m 6#3)
  | .vscanU d a b m => words32 (vWord 0x17#6 1#2 d a b m 7#3)
  | .vslup d a b m => words32 (vWord 0x18#6 b.form d a b.field m 0#3)
  | .vsldn d a b m => words32 (vWord 0x18#6 b.form d a b.field m 1#3)
  | .vperm d a b m => words32 (vWord 0x18#6 0#2 d a b m 2#3)
  | .vcomp d a b => words32 (vWord 0x18#6 0#2 d a b 0#3 3#3)
  | .viota d a m => words32 (vWord 0x18#6 0#2 d a 0#5 m 4#3)
  | .vmerge d a b m => words32 (vWord 0x18#6 b.form d a b.field m 5#3)
  | .vmvVv d a m => words32 (vWord 0x18#6 0#2 d a 0#5 m 6#3)
  | .vmvVsVi d b m => words32 (vWord 0x18#6 b.form d 0#5 b.field m 6#3)
  | .vext d a b => words32 (vWord 0x18#6 1#2 d a b 0#3 7#3)
  | .mand d a b m => words32 (vWord 0x19#6 0#2 d a b m 0#3)
  | .mor d a b m => words32 (vWord 0x19#6 0#2 d a b m 1#3)
  | .mxor d a b m => words32 (vWord 0x19#6 0#2 d a b m 2#3)
  | .mandn d a b m => words32 (vWord 0x19#6 0#2 d a b m 3#3)
  | .mnot d a m => words32 (vWord 0x19#6 0#2 d a 0#5 m 4#3)
  | .mset d m => words32 (vWord 0x19#6 0#2 d 0#5 0#5 m 5#3)
  | .mclr d m => words32 (vWord 0x19#6 0#2 d 0#5 0#5 m 6#3)
  | .mfromv d a m => words32 (vWord 0x19#6 0#2 d a 0#5 m 7#3)
  | .grant d a c => words32 (vWord 0x1a#6 2#2 d a (0#2 ++ c) 0#3 0#3)
  | .grantx d a b => words32 (vWord 0x1a#6 1#2 d a b 0#3 1#3)
  | .vldu s d a u m t => words32 (vWord 0x1b#6 s d a (0#4 ++ u) m t)
  | .vlds s d a b m t => words32 (vWord 0x1c#6 s d a b m t)
  | .vldx s d a b m t => words32 (vWord 0x1d#6 s d a b m t)
  | .vldm s d a n m t => words32 (vWord 0x1e#6 s d a (0#3 ++ n) m t)
  | .vstu s d a m t => words32 (vWord 0x1f#6 s d a 0#5 m t)
  | .vsts s d a b m t => words32 (vWord 0x20#6 s d a b m t)
  | .vstx s d a b m t => words32 (vWord 0x21#6 s d a b m t)
  | .vstm s d a n m t => words32 (vWord 0x22#6 s d a (0#3 ++ n) m t)
  | .vaaddO s d a b m => words32 (vWord 0x23#6 s d a b m 0#3)
  | .vaaddU s d a b m => words32 (vWord 0x23#6 s d a b m 1#3)
  | .vaaddi s d a b m => words32 (vWord 0x23#6 s d a b m 2#3)
  | .vamaxi s d a b m => words32 (vWord 0x23#6 s d a b m 3#3)
  | .vamini s d a b m => words32 (vWord 0x23#6 s d a b m 4#3)
  | .vaswp s d a b m => words32 (vWord 0x23#6 s d a b m 5#3)
  | .vaor s d a b m => words32 (vWord 0x23#6 s d a b m 6#3)
  | .vaand s d a b m => words32 (vWord 0x23#6 s d a b m 7#3)
  | .amoadd d a b c => words32 (vWord 0x24#6 0#2 d a b c 0#3)
  | .amoswp d a b c => words32 (vWord 0x24#6 0#2 d a b c 1#3)
  | .amocas d a b c => words32 (vWord 0x24#6 0#2 d a b c 2#3)
  | .amomax d a b c => words32 (vWord 0x24#6 0#2 d a b c 3#3)
  | .ldacq d a c => words32 (vWord 0x24#6 0#2 d a 0#5 c 4#3)
  | .strel a b c => words32 (vWord 0x24#6 0#2 0#5 a b c 5#3)
  | .fence c => words32 (vWord 0x24#6 0#2 0#5 0#5 0#5 c 6#3)
  | .sbar k c => words32 (vWord 0x24#6 0#2 0#5 0#5 (0#1 ++ k) c 7#3)
  | .vldc s d a b m => words32 (vWord 0x25#6 s d a (0#3 ++ b) m 0#3)
  | .vstc s d a b m => words32 (vWord 0x25#6 s d a (0#3 ++ b) m 1#3)
  | .vacadO s d a b m => words32 (vWord 0x25#6 s d a (0#3 ++ b) m 2#3)
  | .vacadU s d a b m => words32 (vWord 0x25#6 s d a (0#3 ++ b) m 3#3)
  | .vprbc s d a b m => words32 (vWord 0x25#6 s d a (0#3 ++ b) m 4#3)
  | .vclbinv s a b => words32 (vWord 0x25#6 s 0#5 a (0#3 ++ b) 0#3 5#3)
  | .vsetvol s a b => words32 (vWord 0x25#6 s 0#5 a (0#3 ++ b) 0#3 6#3)
  | .tlblock d a b => words32 (vWord 0x26#6 0#2 d a b 0#3 0#3)
  | .tlbunlk a => words32 (vWord 0x26#6 0#2 0#5 a 0#5 0#3 1#3)
  | .tlbprb d a => words32 (vWord 0x26#6 0#2 d a 0#5 0#3 2#3)
  | .mattach d a => words32 (vWord 0x27#6 0#2 d a 0#5 0#3 0#3)
  | .msetvl d a => words32 (vWord 0x27#6 0#2 d a 0#5 0#3 2#3)
  | .mzero d => words32 (vWord 0x27#6 0#2 d 0#5 0#5 0#3 3#3)
  | .mknot d a b => words32 (vWord 0x27#6 0#2 d a b 0#3 4#3)
  | .mgsel d a b => words32 (vWord 0x27#6 0#2 d a b 0#3 5#3)
  | .mresc d b => words32 (vWord 0x27#6 b.form d 0#5 b.field 0#3 6#3)
  | .troww d a b => words32 (vWord 0x28#6 b.form d a b.field 0#3 0#3)
  | .trowr d a b => words32 (vWord 0x28#6 b.form d a b.field 0#3 1#3)
  | .tcolw d a b => words32 (vWord 0x28#6 b.form d a b.field 0#3 2#3)
  | .tcolr d a b => words32 (vWord 0x28#6 b.form d a b.field 0#3 3#3)
  | .aextr d a b => words32 (vWord 0x28#6 b.form d a b.field 0#3 4#3)
  | .aextc d a b => words32 (vWord 0x28#6 b.form d a b.field 0#3 5#3)
  | .ainsr d a b => words32 (vWord 0x28#6 b.form d a b.field 0#3 6#3)
  | .tzero d => words32 (vWord 0x28#6 0#2 d 0#5 0#5 0#3 7#3)
  | .mldc d a b => words32 (vWord 0x29#6 0#2 d a b 0#3 0#3)
  | .mstc d a b => words32 (vWord 0x29#6 0#2 d a b 0#3 1#3)
  | .mrefn d => words32 (vWord 0x29#6 0#2 d 0#5 0#5 0#3 2#3)
  | .mma d a m => words32 (vWord 0x29#6 0#2 d a 0#5 m 3#3)
  | .mspld d a b => words32 (vWord 0x29#6 0#2 d a b 0#3 4#3)
  | .mopa d a b => words32 (vWord 0x29#6 0#2 d a b 0#3 5#3)
  | .msplg d a b => words32 (vWord 0x29#6 0#2 d a b 0#3 6#3)
  | .tmma d a m pair chunks clr => words64 (xWord pair chunks 0#2 0#8 clr) (vWord 0x30#6 0#2 d a 0#5 m 0#3)
  | .tsplf d a m pair chunks clr => words64 (xWord pair chunks 0#2 0#8 clr) (vWord 0x30#6 0#2 d a 0#5 m 1#3)
  | .tspld d a pair chunks clr => words64 (xWord pair chunks 0#2 0#8 clr) (vWord 0x30#6 0#2 d a 0#5 0#3 2#3)
  | .topa d a pair chunks kbase clr => words64 (xWord pair chunks 0#2 kbase clr) (vWord 0x30#6 0#2 d a 0#5 0#3 3#3)
  | .tsplg d a pair chunks kbase clr => words64 (xWord pair chunks 0#2 kbase clr) (vWord 0x30#6 0#2 d a 0#5 0#3 4#3)
  | .tldc d a chunks knot kbase => words64 (xWord 0#5 chunks knot kbase false) (vWord 0x30#6 0#2 d a 0#5 0#3 5#3)
  | .tstc d a chunks kbase => words64 (xWord 0#5 chunks 0#2 kbase false) (vWord 0x30#6 0#2 d a 0#5 0#3 6#3)
  | .ecopy q d a u k p => words32 (vWord 0x2a#6 q d a (0#4 ++ u) (k ++ p) 0#3)
  | .ecoll q d a p => words32 (vWord 0x2a#6 q d a 0#5 (0#1 ++ p) 1#3)
  | .epub a c => words32 (vWord 0x2a#6 0#2 0#5 a 0#5 c 2#3)
  | .ewait a => words32 (vWord 0x2a#6 0#2 0#5 a 0#5 0#3 3#3)
  | .epoll d a => words32 (vWord 0x2a#6 0#2 d a 0#5 0#3 4#3)
  | .esig d a b => words32 (vWord 0x2a#6 0#2 d a b 0#3 5#3)
  | .uimask d a => words32 (vWord 0x2b#6 0#2 d a 0#5 0#3 2#3)
  | .uiraise a => words32 (vWord 0x2b#6 0#2 0#5 a 0#5 0#3 3#3)
  | .cAddi d i => [cWord 1#5 (d ++ i)]
  | .cLi d i => [cWord 2#5 (d ++ i)]
  | .cLd d i => [cWord 3#5 (d ++ i)]
  | .cSd d i => [cWord 4#5 (d ++ i)]
  | .cLw d i => [cWord 5#5 (d ++ i)]
  | .cSw d i => [cWord 6#5 (d ++ i)]
  | .cMv d a => [cWord 8#5 (d ++ a ++ 0#1)]
  | .cAdd d a => [cWord 9#5 (d ++ a ++ 0#1)]
  | .cSub d a => [cWord 10#5 (d ++ a ++ 0#1)]
  | .cGrant d a => [cWord 11#5 (d ++ a ++ 0#1)]
  | .cJ o => [cWord 12#5 o]
  | .cBeqz a o => [cWord 13#5 (a ++ o)]
  | .cBnez a o => [cWord 14#5 (a ++ o)]
  | .nop => words32 (srWord 0x0#6 0#2 0#5 0#5 0#5 0#6)
  | .ecall => words32 (srWord 0x0#6 0#2 0#5 0#5 0#5 1#6)
  | .ebreak => words32 (srWord 0x0#6 0#2 0#5 0#5 0#5 2#6)
  | .tret => words32 (srWord 0x0#6 0#2 0#5 0#5 0#5 3#6)
  | .wfi => words32 (srWord 0x0#6 0#2 0#5 0#5 0#5 4#6)
  | .cvy => words32 (srWord 0x0#6 0#2 0#5 0#5 0#5 5#6)
  | .fencei => words32 (srWord 0x0#6 0#2 0#5 0#5 0#5 6#6)
  | .lexit => words32 (siWord 0xc#6 1#2 0#5 0#5 0#11)
  | .sclose => words32 (vWord 0x1a#6 0#2 0#5 0#5 0#5 0#3 2#3)
  | .mdetach => words32 (vWord 0x27#6 0#2 0#5 0#5 0#5 0#3 1#3)
  | .uiret => words32 (vWord 0x2b#6 0#2 0#5 0#5 0#5 0#3 0#3)
  | .uiwait => words32 (vWord 0x2b#6 0#2 0#5 0#5 0#5 0#3 1#3)
  | .cNop => [cWord 16#5 0#11]
  | .cSclose => [cWord 17#5 0#11]
  | .cCvy => [cWord 18#5 0#11]
  | .govctlWrite _ _ => []
  | .knotRegisterWrite _ _ => []
  | .rgntabWrite _ _ => []
  | .xlat2Write _ => []
  | .illegalEncoding => []
  | .codeArrivalTimeout _ => []
  | .grantRevocation _ _ => []
  | .grantWaitEnd _ => []
  | .governorRevision _ => []
  | .revocationProtectionExpiry _ => []
  | .preemptionRequest _ => []
  | .preemptionExpiry _ => []
  | .contextRestore _ => []
  | .userInterruptEntry _ => []
  | .wfiWake _ => []
  | .engineQueueStallEnd _ => []
  | .ewaitResume _ => []
  | .ecopyCompletion _ _ => []
  | .collectiveFormation _ _ _ => []
  | .ecollCompletion _ _ => []
  | .collectiveFailureReport _ _ _ => []
  | .esigWrite _ _ => []
  | .engineErrorCompletion _ _ _ _ => []
  | .engineSourceTranslationFault _ _ _ => []
  | .engineTranslationResolved _ _ _ => []
  | .firstStageInvalidation _ _ _ _ => []
  | .secondStageInvalidation _ _ _ => []
  | .remoteRequestArrival _ => []
  | .remoteEcopyArrival _ => []
  | .remoteRejectionArrival _ => []
  | .fabricGrantInstall _ => []
  | .fabricGrantWithdraw _ => []
  | .flitCrcFailure _ => []
  | .linkDown _ => []
  | .linkLaneRetrain _ => []
  | .pathLoss _ => []
  | .pathRestored _ _ => []
  | .strtailWrite _ _ _ => []
  | .strctlWrite _ _ _ => []
  | .strstatStoppedClear _ _ _ => []
  | .streamRegisterWrite _ _ _ _ => []
  | .ringSlotFetch _ _ => []
  | .launch _ _ => []
  | .launchDeferredBegin _ => []
  | .workgroupHandoff _ _ => []
  | .launchCompletion _ => []
  | .launchFaultedEnd _ _ => []
  | .waitv _ _ => []
  | .waitvPoll _ _ => []
  | .waitvTimeout _ _ => []
  | .signal _ _ => []
  | .copyData _ _ => []
  | .copyObjectLoad _ _ => []
  | .segmentRecordArrival _ _ => []
  | .copyObjectRelease _ _ => []
  | .objectReleaseCompletion _ _ => []
  | .commandFence _ _ => []
  | .serviceWindowExpiry _ _ _ => []
  | .vaultZeroCompletion _ => []
  | .partitionCreate _ => []
  | .partitionDestroy _ => []
  | .partitionResize _ _ => []
  | .timeShareSwitch _ => []
  | .partitionTeardown _ => []
  | .functionLevelReset _ => []
  | .hbmPatrolScrub _ => []
  | .vaultPatrolScrub _ => []
  | .rowRemap _ _ _ => []
  | .laneSliceRetire _ _ => []
  | .arrayTileRowRetire _ _ => []
  | .coreRetire _ => []
  | .boot _ => []
  | .firmwareUpdate _ _ _ _ => []
  | .attestationQuote _ => []
  | .envelopeChange _ _ => []
  | .engineQueueFreeze _ _ _ => []

/-- Parcels as bytes in memory, the low byte first. -/
def bytesOf : List Half → List Byte
  | [] => []
  | p :: rest => p.extractLsb' 0 8 :: p.extractLsb' 8 8 :: bytesOf rest

/-- The bytes of an instruction in memory. -/
def encodeBytes (i : Instr) : List Byte := bytesOf (encode i)

/-- The bytes that a table word stands for: a 16-bit row is its parcel; a 32-bit row is the word W of R59, its
high parcel first; the longest instruction is 8 bytes, and what the table gives no bits is 0. -/
def tableBytes (nbits w : Nat) : List Byte :=
  if nbits ≤ 16 then bytesOf [BitVec.ofNat 16 w, 0, 0, 0]
  else bytesOf (words32 (BitVec.ofNat 32 w) ++ [BitVec.ofNat 16 (w >>> 48), BitVec.ofNat 16 (w >>> 32)])

/-- The instruction the decoder reads from an instruction whose bits are w, numbered as the table does. -/
def decodeTableWord (nbits w : Nat) : Option Instr :=
  match decode (tableBytes nbits w) with
  | .ok (i, _) => some i
  | .error _ => none

end Sys2Proof
end

