-- ==== Sys2Proof/Config.lean ====
section
/-! DEFINITION. What one BX-7200 fixes, and the free values: constants without a body, of which nothing can
be proved but their type. -/

namespace Sys2Proof.Config

/-- Cores in the package, and clusters, dies (R3). -/
def cores : Nat := 192
def harts : Nat := 384
def clusters : Nat := 48
def coresPerCluster : Nat := 4
def clustersPerDie : Nat := 12
/-- Entries of a strip's store buffer (R177). -/
def storeBufferEntries : Nat := 16384
/-- Operations one engine queue holds (R164). -/
def queueDepth : Nat := 64
/-- Bytes of one vault (R202). -/
def vaultBytes : Nat := 8388608
/-- Base of vault space (R127). -/
def vaultBase : Word := 0xFFF0000000000000#64
/-- Entries of a first-level and of a second-level TLB (R211), and of a CLB (R227). -/
def tlb1Entries : Nat := 256
def tlb2Entries : Nat := 16384
def clbEntries : Nat := 128

/-- The package limits in watts: as delivered, and the least to which it can be configured (R3, R296). -/
def packageWatts : Nat := 3000
def leastPackageWatts : Nat := 1200
/-- Bytes of shadow SRAM for one core (R3, R295). -/
def shadowBytes : Nat := 2097152

/-- FREE. Choices the spec leaves to the device, one bit for each draw: whether a load sees a buffered store of another
stream (R87, R123), whether a cached leaf that memory no longer gives is used (R234). -/
opaque freeBit : Nat → Bool
/-- FREE. Choices among many: the next pair combined in a VAADD.U or VACAD.U tree (R129, R161), the place of a
buffered write among those of other streams (R119). -/
opaque freeNat : Nat → Nat
/-- FREE. Choices that one instruction makes once for each page or each byte: which of the translations that may be used
translates a page (R133, R212), which cached translation gives way to one (R211), which of the bytes that a location
held an engine copies (R170). The arguments are the draw and the page or the byte. -/
opaque freeAt : Nat → Nat → Nat
/-- FREE. An element value the spec does not state (R40 with a scale byte of 0xFD or 0xFE), by the scale byte and the nibble. -/
opaque freeElem : Nat → Elem
/-- FREE. A nibble the spec does not state (R41 under EF with a y that is no number), by the block's scale byte and y. -/
opaque freeNibble : Nat → Elem → BitVec 4

/-- FREE. The value of an element that a macro-operation reads outside its core's vault, where no check looks, by its
offset (R154). -/
opaque freeHalf : Nat → Half

/-- FREE. A byte of a vault that no workgroup since the hand-off has written (R5), and a byte of a part of a save area whose
layout the spec does not give (R293): the draw, and the byte's location. -/
opaque freeByte : Nat → Nat → Byte

/-- FREE. The cycles since boot when the n-th record of the error log was made (R308): the model has no clock. -/
opaque cycles : Nat → Word

/-- FREE. The bank and row of an HBM address (R309): the spec gives HBM no architected bank structure. -/
opaque hbmRow : Nat → Nat × Nat

/-- UNINTERPRETED. The bytes of an amendment to the unit map (R312): the kind of the repair, the unit, where, and the
boot count. -/
opaque amendmentBytes : Nat → Nat → Nat → Nat → List Byte
/-- UNINTERPRETED. What the identity block of a function's BAR0 reads, by the function, its partition, its status and the
offset, and what the rest of BAR0 reads but the stream registers and what the host has written to the MSI-X table (R299). -/
opaque identityWord : Nat → Nat → Nat → Nat → Word
opaque bar0Word : Nat → Nat → Word
/-- UNINTERPRETED. The bytes of the unit map, whose layout the spec does not give (R312). -/
opaque unitMapBytes : UnitMap → List Byte
/-- UNINTERPRETED. The public part of the device identity key (R313). -/
opaque identityKey : List Byte
/-- UNINTERPRETED. Verification of an ML-DSA-65 signature: key, message digest, signature (R251, R311). -/
opaque mldsaVerify : List Byte → BitVec 256 → List Byte → Bool
/-- UNINTERPRETED. The signature Pip makes with the device identity key over a digest's bytes (R312, R313). -/
opaque mldsaSign : List Byte → List Byte
/-- UNINTERPRETED. The Solzar root key in ROM and the manufacturing key (R311, R312). -/
opaque rootKey : List Byte
opaque manufacturingKey : List Byte

end Sys2Proof.Config
end

