-- ==== Sys2Proof/Machine/Sparse.lean ====
section
/-! DEFINITION. Sparse data in one canonical form: pairs of a key and a word, keys strictly rising, no entry
equal to what an unlisted key reads as, which is zero; and tables of records by key. -/

namespace Sys2Proof.Machine

/-- Words of width w by key. -/
abbrev Cells (w : Nat) := List (Nat × BitVec w)

/-- Memory by address: the host's cells. -/
abbrev Memory := List Host.Cell

/-- The word at a key; zero where none is listed. -/
def cget {w : Nat} : Cells w → Nat → BitVec w
  | [], _ => 0
  | (k, v) :: r, a => if a = k then v else if a < k then 0 else cget r a

/-- The word at a key replaced; a zero is not listed. -/
def cset {w : Nat} : Cells w → Nat → BitVec w → Cells w
  | [], a, v => if v = 0 then [] else [(a, v)]
  | (k, x) :: r, a, v =>
    if a < k then (if v = 0 then (k, x) :: r else (a, v) :: (k, x) :: r)
    else if a = k then (if v = 0 then r else (k, v) :: r)
    else (k, x) :: cset r a v

/-- Whether every key of the list lies above a key, rising, with no zero word. -/
def cwfFrom {w : Nat} : Nat → Cells w → Bool
  | _, [] => true
  | b, (k, v) :: r => decide (b ≤ k) && v != 0 && cwfFrom (k + 1) r

/-- The canonical form. -/
def cwf {w : Nat} (c : Cells w) : Bool := cwfFrom 0 c

/-- The canonical form of memory. -/
def Memory.wf (m : Memory) : Bool := cwf m

/-- The cells whose keys satisfy a test, others dropped. -/
def ckeep {w : Nat} (p : Nat → Bool) : Cells w → Cells w
  | [] => []
  | (k, v) :: r => if p k then (k, v) :: ckeep p r else ckeep p r

/-- Words given from a key on, zeros not listed. -/
def clist {w : Nat} : Nat → List (BitVec w) → Cells w
  | _, [] => []
  | k, v :: r => if v = 0 then clist (k + 1) r else (k, v) :: clist (k + 1) r

/-- The words from a key on replaced by those of a list. -/
def csplice {w : Nat} (c : Cells w) (lo : Nat) (vs : List (BitVec w)) : Cells w :=
  ckeep (fun k => decide (k < lo)) c ++ clist lo vs ++ ckeep (fun k => decide (lo + vs.length ≤ k)) c

/-! Tables of records: keys strictly rising. -/

/-- The record at a key. -/
def tget {α : Type} : List (Nat × α) → Nat → Option α
  | [], _ => none
  | (k, v) :: r, a => if a = k then some v else if a < k then none else tget r a

/-- The record at a key replaced or added. -/
def tput {α : Type} : List (Nat × α) → Nat → α → List (Nat × α)
  | [], a, v => [(a, v)]
  | (k, x) :: r, a, v =>
    if a < k then (a, v) :: (k, x) :: r
    else if a = k then (a, v) :: r
    else (k, x) :: tput r a v

/-- The record at a key removed. -/
def tdel {α : Type} : List (Nat × α) → Nat → List (Nat × α)
  | [], _ => []
  | (k, x) :: r, a => if a < k then (k, x) :: r else if a = k then r else (k, x) :: tdel r a

/-- Every record changed by a function of its key and value. -/
def tmap {α : Type} (f : Nat → α → α) : List (Nat × α) → List (Nat × α)
  | [] => []
  | (k, x) :: r => (k, f k x) :: tmap f r

end Sys2Proof.Machine
end

