-- ==== Sys2Proof/Machine/Numbers.lean ====
section
/-! DEFINITION. Number formats, rounding, narrowing and the MXFP4 block
(spec/02_number_formats.md R33 to R51). Every finite value is an exact dyadic number; a result is
rounded only where the spec writes a rounding function (R9). -/

namespace Sys2Proof.Machine

/-- A value of any format: a NaN, an infinity, or the exact number ±mag × 2^exp (zero has a sign, R34). -/
inductive Num where
  | nan
  | inf (neg : Bool)
  | fin (neg : Bool) (mag : Nat) (exp : Int)
deriving DecidableEq, Repr

/-- What the top exponent code of a format stands for (R36). -/
inductive FmtKind where
  /-- infinity and NaN patterns, as in IEEE 754 -/
  | ieee
  /-- E4M3: no infinity, one NaN magnitude, saturating -/
  | e4m3
  /-- E2M1: neither infinity nor NaN, saturating -/
  | e2m1
deriving DecidableEq, Repr

/-- A floating-point format: field widths and bias (R36, R43). -/
structure Fmt where
  expBits : Nat
  fracBits : Nat
  bias : Nat
  kind : FmtKind
deriving DecidableEq, Repr

def fp32 : Fmt := ⟨8, 23, 127, .ieee⟩
def bf16 : Fmt := ⟨8, 7, 127, .ieee⟩
def f16 : Fmt := ⟨5, 10, 15, .ieee⟩
def e4m3 : Fmt := ⟨4, 3, 7, .e4m3⟩
def e5m2 : Fmt := ⟨5, 2, 15, .ieee⟩
def e2m1 : Fmt := ⟨2, 1, 1, .e2m1⟩
def a48 : Fmt := ⟨10, 37, 511, .ieee⟩

/-- Significand bits with the hidden bit, P of R48. -/
def Fmt.prec (f : Fmt) : Nat := f.fracBits + 1
/-- Smallest normal exponent, Emin of R48. -/
def Fmt.emin (f : Fmt) : Int := 1 - (f.bias : Int)
/-- Width in bits of a pattern. -/
def Fmt.width (f : Fmt) : Nat := 1 + f.expBits + f.fracBits
/-- Integer significand of the largest finite value (R36). -/
def Fmt.maxMag (f : Fmt) : Nat :=
  match f.kind with
  | .ieee => 2 ^ f.prec - 1
  | .e4m3 => 14
  | .e2m1 => 3
/-- Exponent of the last place of the largest finite value (R36). -/
def Fmt.maxExp (f : Fmt) : Int :=
  match f.kind with
  | .ieee => (2 ^ f.expBits : Int) - 2 - f.bias - f.fracBits
  | .e4m3 => 5
  | .e2m1 => 1
/-- The pattern's sign bit for a sign. -/
def Fmt.signBit (f : Fmt) (neg : Bool) : Nat := if neg then 2 ^ (f.width - 1) else 0
/-- The canonical NaN pattern (R36); E2M1 has none and gives its largest magnitude. -/
def Fmt.canonNan (f : Fmt) : Nat :=
  match f.kind with
  | .ieee => (2 ^ f.expBits - 1) * 2 ^ f.fracBits + 2 ^ (f.fracBits - 1)
  | .e4m3 => 0x7F
  | .e2m1 => 0x7
/-- The pattern of the largest finite magnitude, unsigned (R36). -/
def Fmt.maxPat (f : Fmt) : Nat :=
  match f.kind with
  | .ieee => (2 ^ f.expBits - 1) * 2 ^ f.fracBits - 1
  | .e4m3 => 0x7E
  | .e2m1 => 0x7
/-- The pattern of infinity, unsigned; the saturating formats give their largest magnitude (R38). -/
def Fmt.infPat (f : Fmt) : Nat :=
  match f.kind with
  | .ieee => (2 ^ f.expBits - 1) * 2 ^ f.fracBits
  | .e4m3 => 0x7E
  | .e2m1 => 0x7

/-- The value of a pattern (R33, R36, R43). -/
def Fmt.decode (f : Fmt) (p : Nat) : Num :=
  let neg := (p / 2 ^ (f.width - 1)) % 2 == 1
  let e := (p / 2 ^ f.fracBits) % 2 ^ f.expBits
  let m := p % 2 ^ f.fracBits
  let top := e == 2 ^ f.expBits - 1
  match f.kind with
  | .ieee =>
    if top then (if m = 0 then .inf neg else .nan)
    else if e = 0 then .fin neg m (f.emin - f.fracBits)
    else .fin neg (2 ^ f.fracBits + m) ((e : Int) - f.bias - f.fracBits)
  | .e4m3 =>
    if top && m == 7 then .nan
    else if e = 0 then .fin neg m (f.emin - f.fracBits)
    else .fin neg (2 ^ f.fracBits + m) ((e : Int) - f.bias - f.fracBits)
  | .e2m1 =>
    if e = 0 then .fin neg m (f.emin - f.fracBits)
    else .fin neg (2 ^ f.fracBits + m) ((e : Int) - f.bias - f.fracBits)

/-- `m × 2^s` for any integer `s`, rounding down. -/
def scaleDown (m : Nat) (s : Int) : Nat :=
  if 0 ≤ s then m <<< s.toNat else m >>> (-s).toNat

/-- Whether `m1 × 2^e1 < m2 × 2^e2`. -/
def magLt (m1 : Nat) (e1 : Int) (m2 : Nat) (e2 : Int) : Bool :=
  let e := min e1 e2
  m1 <<< (e1 - e).toNat < m2 <<< (e2 - e).toNat

/-- floor(log2 (m × 2^e)) for m > 0. -/
def floorLog2 (m : Nat) (e : Int) : Int := (Nat.log2 m : Int) + e

/-- A magnitude on a format's grid: `mag × 2^exp`, and whether it differs from the exact value. -/
structure Grid where
  mag : Nat
  exp : Int
  inexact : Bool
deriving DecidableEq, Repr

/-- The exponent of the last place of the format at the magnitude m × 2^e, L of R48. -/
def Fmt.lsb (f : Fmt) (m : Nat) (e : Int) : Int := max (floorLog2 m e) f.emin - f.prec + 1

/-- m × 2^e cut to the grid of step 2^L, to nearest with ties to even or toward zero (R10). -/
def cutAt (nearest : Bool) (m : Nat) (e L : Int) : Grid :=
  if L ≤ e then ⟨m <<< (e - L).toNat, L, false⟩
  else
    let sh := (L - e).toNat
    let k := m >>> sh
    let rem := m % 2 ^ sh
    let half := 2 ^ (sh - 1)
    let up := nearest && (decide (half < rem) || (rem == half && k % 2 == 1))
    ⟨if up then k + 1 else k, L, rem != 0⟩

/-- The pattern of a magnitude that lies on the format's grid and within its range. -/
def Fmt.encodeMag (f : Fmt) (g : Grid) : Nat :=
  let m := if g.mag = 2 ^ f.prec then 2 ^ f.fracBits else g.mag
  let e := if g.mag = 2 ^ f.prec then g.exp + 1 else g.exp
  if m < 2 ^ f.fracBits then m
  else (e + f.fracBits + f.bias).toNat * 2 ^ f.fracBits + (m - 2 ^ f.fracBits)

def flagNX : FFlags := 1
def flagUF : FFlags := 2
def flagOF : FFlags := 4
def flagDZ : FFlags := 8
def flagNV : FFlags := 16

/-- The rounding of a finite value: to nearest even, or toward zero (R10). -/
inductive Rounding where
  | rne
  | rtz
deriving DecidableEq, Repr

/-- A rounded result: the pattern delivered and the flags it raises. -/
structure Rounded where
  pat : Nat
  flags : FFlags
deriving DecidableEq, Repr

/-- NX and UF of a delivered finite result (R39). -/
def Fmt.smallFlags (f : Fmt) (m : Nat) (e : Int) (inexact : Bool) : FFlags :=
  if inexact then
    flagNX ||| (if decide (m ≠ 0) && magLt m e 1 f.emin then flagUF else 0)
  else 0

/-- A finite value rounded into a format, with R38's saturation and R39's flags. -/
def Fmt.roundFin (f : Fmt) (r : Rounding) (neg : Bool) (m : Nat) (e : Int) : Rounded :=
  if m = 0 then ⟨f.signBit neg, 0⟩
  else
    match r with
    | .rne =>
      let g := cutAt true m e (f.lsb m e)
      if magLt f.maxMag f.maxExp g.mag g.exp then ⟨f.signBit neg + f.infPat, flagOF ||| flagNX⟩
      else ⟨f.signBit neg + f.encodeMag g, f.smallFlags m e g.inexact⟩
    | .rtz =>
      if magLt f.maxMag f.maxExp m e then ⟨f.signBit neg + f.maxPat, flagOF ||| flagNX⟩
      else
        let g := cutAt false m e (f.lsb m e)
        ⟨f.signBit neg + f.encodeMag g, f.smallFlags m e g.inexact⟩

/-- A value rounded into a format (R10, R34, R38, R39). An infinity narrowed to a format that has
none is delivered as the largest magnitude and raises NV and NX. -/
def Fmt.round (f : Fmt) (r : Rounding) (x : Num) : Rounded :=
  match x with
  | .nan => ⟨f.canonNan, 0⟩
  | .inf neg =>
    match f.kind with
    | .ieee => ⟨f.signBit neg + f.infPat, 0⟩
    | .e4m3 => ⟨f.signBit neg + f.infPat, flagNV ||| flagNX⟩
    | .e2m1 => ⟨f.signBit neg + f.infPat, flagNV⟩
  | .fin neg m e => f.roundFin r neg m e

/-! ### Exact arithmetic on values -/

def Num.isNan : Num → Bool
  | .nan => true
  | _ => false

def Num.isFinite : Num → Bool
  | .fin _ _ _ => true
  | _ => false

def Num.isZero : Num → Bool
  | .fin _ m _ => m == 0
  | _ => false

def Num.isNeg : Num → Bool
  | .nan => false
  | .inf neg => neg
  | .fin neg _ _ => neg

def Num.neg : Num → Num
  | .nan => .nan
  | .inf s => .inf (!s)
  | .fin s m e => .fin (!s) m e

def Num.abs : Num → Num
  | .nan => .nan
  | .inf _ => .inf false
  | .fin _ m e => .fin false m e

/-- x × 2^k, exactly. -/
def Num.scale (x : Num) (k : Int) : Num :=
  match x with
  | .nan => .nan
  | .inf s => .inf s
  | .fin s m e => .fin s m (e + k)

def signedMag (neg : Bool) (m : Nat) : Int := if neg then -(m : Int) else (m : Int)

/-- The exact number as an integer multiple of 2^`e`, for `e` at most the value's own exponent. -/
def alignTo (neg : Bool) (m : Nat) (x e : Int) : Int := signedMag neg (m <<< (x - e).toNat)

def Num.zero : Num := .fin false 0 0
def Num.one : Num := .fin false 1 0
def Num.ofInt (i : Int) : Num := .fin (decide (i < 0)) i.natAbs 0

/-- An exact result and the flags that the operation itself raises before any rounding (R39). -/
structure Exact where
  val : Num
  flags : FFlags
deriving DecidableEq, Repr

/-- The exact sum; an exact zero sum of operands of opposite sign is +0 (R34). -/
def Num.add (a b : Num) : Exact :=
  match a, b with
  | .nan, _ => ⟨.nan, 0⟩
  | _, .nan => ⟨.nan, 0⟩
  | .inf s, .inf t => if s = t then ⟨.inf s, 0⟩ else ⟨.nan, flagNV⟩
  | .inf s, .fin _ _ _ => ⟨.inf s, 0⟩
  | .fin _ _ _, .inf t => ⟨.inf t, 0⟩
  | .fin s m e, .fin t n f =>
    let g := min e f
    let sum := alignTo s m e g + alignTo t n f g
    if sum = 0 then ⟨.fin (s && t) 0 0, 0⟩
    else ⟨.fin (decide (sum < 0)) sum.natAbs g, 0⟩

def Num.sub (a b : Num) : Exact := a.add b.neg

/-- The exact product (R34: 0 × infinity is invalid). -/
def Num.mul (a b : Num) : Exact :=
  match a, b with
  | .nan, _ => ⟨.nan, 0⟩
  | _, .nan => ⟨.nan, 0⟩
  | .inf s, .inf t => ⟨.inf (s != t), 0⟩
  | .inf s, .fin t n _ => if n = 0 then ⟨.nan, flagNV⟩ else ⟨.inf (s != t), 0⟩
  | .fin s m _, .inf t => if m = 0 then ⟨.nan, flagNV⟩ else ⟨.inf (s != t), 0⟩
  | .fin s m e, .fin t n f => ⟨.fin (s != t) (m * n) (e + f), 0⟩

/-- a × b + c with an exact product and an exact sum. A NaN operand raises nothing (R34). -/
def Num.fma (a b c : Num) : Exact :=
  if a.isNan || b.isNan || c.isNan then ⟨.nan, 0⟩
  else
    let p := a.mul b
    let r := p.val.add c
    ⟨r.val, p.flags ||| r.flags⟩

/-- The quotient with 64 or more bits and a last bit that is 1 when bits beyond it were lost, so
that one later rounding to at most 60 bits is that of the exact quotient. -/
def Num.div (a b : Num) : Exact :=
  match a, b with
  | .nan, _ => ⟨.nan, 0⟩
  | _, .nan => ⟨.nan, 0⟩
  | .inf _, .inf _ => ⟨.nan, flagNV⟩
  | .inf s, .fin t _ _ => ⟨.inf (s != t), 0⟩
  | .fin s _ _, .inf t => ⟨.fin (s != t) 0 0, 0⟩
  | .fin s m e, .fin t n f =>
    if n = 0 then
      if m = 0 then ⟨.nan, flagNV⟩ else ⟨.inf (s != t), flagDZ⟩
    else
      let sh := 64 + Nat.log2 n
      let q := (m <<< sh) / n
      let lost := (m <<< sh) % n != 0
      ⟨.fin (s != t) (2 * q + (if lost then 1 else 0)) (e - f - sh - 1), 0⟩

/-- The integer square root, one bit a round from bit `i - 1` down. -/
def isqrtFrom (n : Nat) : Nat → Nat → Nat
  | 0, r => r
  | i + 1, r =>
    let c := r + 2 ^ i
    isqrtFrom n i (if c * c ≤ n then c else r)

/-- floor(sqrt n). -/
def isqrt (n : Nat) : Nat := isqrtFrom n (Nat.log2 n / 2 + 1) 0

/-- The square root, with a last bit that is 1 when bits beyond it were lost. The square root of a
negative non-zero value is invalid (R39); that of a zero is that zero. -/
def Num.sqrt (a : Num) : Exact :=
  match a with
  | .nan => ⟨.nan, 0⟩
  | .inf neg => if neg then ⟨.nan, flagNV⟩ else ⟨.inf false, 0⟩
  | .fin neg m e =>
    if m = 0 then ⟨.fin neg 0 0, 0⟩
    else if neg then ⟨.nan, flagNV⟩
    else
      let odd := e % 2 != 0
      let m' := (if odd then 2 * m else m) <<< 128
      let e' := (if odd then e - 1 else e) - 128
      let r := isqrt m'
      ⟨.fin false (2 * r + (if r * r = m' then 0 else 1)) (e' / 2 - 1), 0⟩

/-- a < b on values that are not NaN; zeros are equal. -/
def Num.lt (a b : Num) : Bool :=
  match a, b with
  | .nan, _ => false
  | _, .nan => false
  | .inf s, .inf t => s && !t
  | .inf s, .fin _ _ _ => s
  | .fin _ _ _, .inf t => !t
  | .fin s m e, .fin t n f =>
    let g := min e f
    decide (alignTo s m e g < alignTo t n f g)

/-- a = b on values that are not NaN; zeros are equal. -/
def Num.eqv (a b : Num) : Bool := !a.isNan && !b.isNan && !(a.lt b) && !(b.lt a)

/-- The integer part of a finite value toward minus infinity; other values give 0. -/
def Num.floor (a : Num) : Int :=
  match a with
  | .fin neg m e => if 0 ≤ e then signedMag neg (m <<< e.toNat) else signedMag neg m / (2 ^ (-e).toNat : Int)
  | _ => 0

/-- The nearest integer of a finite value, ties to even; other values give 0. -/
def Num.nearestInt (a : Num) : Int :=
  match a with
  | .fin neg m e => signedMag neg (cutAt true m e 0).mag
  | _ => 0

/-- The integer part of a finite value toward zero; other values give 0. -/
def Num.truncInt (a : Num) : Int :=
  match a with
  | .fin neg m e => signedMag neg (scaleDown m e)
  | _ => 0

/-! ### Operations that round, with their flags -/

/-- A computation that ORs the flags it raises into a flag word. -/
abbrev FlagM := StateM FFlags

/-- Raises flags. -/
def raise (f : FFlags) : FlagM Unit := modify (· ||| f)

/-- The value of an FP32 pattern. -/
def val32 (p : Elem) : Num := fp32.decode p.toNat
/-- The value of a BF16 pattern. -/
def val16 (p : Half) : Num := bf16.decode p.toNat
/-- The value of an A48 pattern. -/
def val48 (p : A48) : Num := a48.decode p.toNat

/-- RNE32 of an exact result, raising its flags (R10, R39). -/
def rne32 (x : Exact) : FlagM Elem := do
  let r := fp32.round .rne x.val
  raise (x.flags ||| r.flags)
  pure (BitVec.ofNat 32 r.pat)

/-- RNE16, to BF16. -/
def rne16 (x : Exact) : FlagM Half := do
  let r := bf16.round .rne x.val
  raise (x.flags ||| r.flags)
  pure (BitVec.ofNat 16 r.pat)

/-- RNE48, to A48. -/
def rne48 (x : Exact) : FlagM A48 := do
  let r := a48.round .rne x.val
  raise (x.flags ||| r.flags)
  pure (BitVec.ofNat 48 r.pat)

/-- A value taken as exact, raising nothing of its own. -/
def exactly (x : Num) : Exact := ⟨x, 0⟩

def canonNan32 : Elem := 0x7FC00000#32
def canonNan48 : A48 := 0x7FF000000000#48

def fadd (a b : Elem) : FlagM Elem := rne32 ((val32 a).add (val32 b))
def fsub (a b : Elem) : FlagM Elem := rne32 ((val32 a).sub (val32 b))
def fmul (a b : Elem) : FlagM Elem := rne32 ((val32 a).mul (val32 b))
def fdiv (a b : Elem) : FlagM Elem := rne32 ((val32 a).div (val32 b))
def ffma (a b c : Elem) : FlagM Elem := rne32 ((val32 a).fma (val32 b) (val32 c))

/-! ### Sum order (R50, R51) -/

/-- The ordered sum of R50. -/
def orderedSum : Elem → List Elem → FlagM Elem
  | s, [] => pure s
  | s, a :: as => do
    let s' ← fadd s a
    orderedSum s' as

/-- The ordered dot product of R50: the product is exact and only the sum is rounded. -/
def orderedDot : Elem → List (Elem × Elem) → FlagM Elem
  | s, [] => pure s
  | s, (a, b) :: as => do
    let s' ← ffma a b s
    orderedDot s' as

/-- One level of the tree of R51: adjacent pairs added. -/
def pairUp : List Elem → FlagM (List Elem)
  | a :: b :: rest => do
    let s ← fadd a b
    let r ← pairUp rest
    pure (s :: r)
  | l => pure l

/-- `k` levels of the tree. -/
def treeLevels : Nat → List Elem → FlagM (List Elem)
  | 0, l => pure l
  | k + 1, l => do
    let l' ← pairUp l
    treeLevels k l'

/-- ceil(log2 n) for n ≥ 1. -/
def ceilLog2 (n : Nat) : Nat := if n ≤ 1 then 0 else Nat.log2 (n - 1) + 1

/-- The tree sum of R51: the list padded with +0 to a power of two, summed by levels, and added to s. -/
def treeSum (s : Elem) (l : List Elem) : FlagM Elem :=
  if l.isEmpty then pure s
  else do
    let k := ceilLog2 l.length
    let t ← treeLevels k (l ++ List.replicate (2 ^ k - l.length) 0)
    fadd s (t.headD 0)

/-! ### Narrowing under rmode (R45 to R49) -/

/-- The 16-bit mixing function of R47. -/
def mix16 (x0 : Half) : Half :=
  let x1 := x0 ^^^ (x0 >>> 8)
  let x2 := x1 * 0x6B2D#16
  let x3 := x2 ^^^ (x2 >>> 7)
  let x4 := x3 * 0x3A95#16
  x4 ^^^ (x4 >>> 9)

/-- The two chains held in ncarry (R46). -/
structure Chain where
  /-- ncarry.RES -/
  res : Elem
  /-- ncarry.DISC -/
  disc : Half
deriving DecidableEq, Repr

/-- Discard(x) of R48. -/
def Fmt.discard (f : Fmt) (x : Num) : Half :=
  match x with
  | .fin _ m e => if m = 0 then 0 else BitVec.ofNat 16 (scaleDown m (e + 16 - f.lsb m e))
  | _ => 0

/-- SN(x, dith) of R48, with the flags of R39 judged against x. -/
def Fmt.stochastic (f : Fmt) (x : Num) (dith : Half) : Rounded :=
  match x with
  | .fin neg m e =>
    if m = 0 then ⟨f.signBit neg, 0⟩
    else if magLt f.maxMag f.maxExp m e then ⟨f.signBit neg + f.infPat, flagOF ||| flagNX⟩
    else
      let sum := (Num.fin false m e).add (.fin false dith.toNat (f.lsb m e - 16))
      let q := (f.round .rtz sum.val).pat
      let inexact := !((f.decode q).eqv (.fin false m e))
      ⟨f.signBit neg + q, f.smallFlags m e inexact⟩
  | y => f.round .rne y

/-- The element narrowed, the flags, and the chain after it. -/
structure Narrowed where
  pat : Nat
  flags : FFlags
  chain : Chain
deriving DecidableEq, Repr

/-- The EF step's y and the residual it leaves when `q` is the value delivered (R47): +0 when y or q
is not finite, else RNE32(y - q). -/
def residual (y q : Num) : Elem :=
  if y.isFinite && q.isFinite then BitVec.ofNat 32 (fp32.round .rne (y.sub q).val).pat else 0

/-- RNE_src(x + res), the y of R47's EF step; its rounding raises no flag. -/
def feedback (src : Fmt) (x : Num) (res : Elem) : Num :=
  src.decode (src.round .rne (x.add (val32 res)).val).pat

/-- Whether RNE_src(x + res) overflowed to an infinity from finite operands (R47's exception). -/
def feedbackOverflow (x : Num) (res : Elem) (y : Num) : Bool :=
  x.isFinite && (val32 res).isFinite && !y.isFinite

/-- One active element narrowed under rmode (R47). -/
def Fmt.narrow (f src : Fmt) (mode : BitVec 2) (step : Half) (x : Num) (c : Chain) : Narrowed :=
  if mode = 0 then
    let r := f.round .rne x
    ⟨r.pat, r.flags, c⟩
  else if mode = 1 then
    let r := f.round .rtz x
    ⟨r.pat, r.flags, c⟩
  else if mode = 2 then
    let y := feedback src x c.res
    let r := f.round .rne y
    let fl := if feedbackOverflow x c.res y then flagOF ||| flagNX else r.flags
    ⟨r.pat, fl, ⟨residual y (f.decode r.pat), c.disc⟩⟩
  else
    let r := f.stochastic x (mix16 (c.disc ^^^ step))
    ⟨r.pat, r.flags, ⟨c.res, f.discard x⟩⟩

/-! ### Memory formats (R35 to R42) -/

/-- The eight memory formats of R35, by code. -/
inductive MemFmt where
  | fmtF32 | fmtBf16 | fmtF16 | fmtE4m3 | fmtE5m2 | fmtMxfp4 | fmtI8 | fmtI32
deriving DecidableEq, Repr

def MemFmt.ofCode (c : BitVec 3) : MemFmt :=
  if c = 0 then .fmtF32 else if c = 1 then .fmtBf16 else if c = 2 then .fmtF16 else if c = 3 then .fmtE4m3
  else if c = 4 then .fmtE5m2 else if c = 5 then .fmtMxfp4 else if c = 6 then .fmtI8 else .fmtI32

/-- Bytes of one element in memory; an MXFP4 element has its block of 17 (R35). -/
def MemFmt.size : MemFmt → Nat
  | .fmtF32 => 4
  | .fmtBf16 => 2
  | .fmtF16 => 2
  | .fmtE4m3 => 1
  | .fmtE5m2 => 1
  | .fmtMxfp4 => 17
  | .fmtI8 => 1
  | .fmtI32 => 4

/-- An element widened as it is loaded (R37): exact, and no flag. -/
def MemFmt.widen (m : MemFmt) (raw : Nat) : Elem :=
  match m with
  | .fmtF32 => BitVec.ofNat 32 raw
  | .fmtI32 => BitVec.ofNat 32 raw
  | .fmtBf16 => BitVec.ofNat 32 (raw * 65536)
  | .fmtF16 => BitVec.ofNat 32 (fp32.round .rne (f16.decode raw)).pat
  | .fmtE4m3 => BitVec.ofNat 32 (fp32.round .rne (e4m3.decode raw)).pat
  | .fmtE5m2 => BitVec.ofNat 32 (fp32.round .rne (e5m2.decode raw)).pat
  | .fmtI8 => (BitVec.ofNat 8 raw).signExtend 32
  | .fmtMxfp4 => 0

/-- The FP32 value of an integer saturated to a byte, format I8 (R35). -/
def saturate8 (x : Elem) : Nat :=
  (BitVec.ofInt 8 (max (-128) (min 127 x.toInt))).toNat

/-- One element narrowed as it is stored by a format other than MXFP4 (R35, R38, R47). -/
def MemFmt.store (m : MemFmt) (mode : BitVec 2) (step : Half) (x : Elem) (c : Chain) : Narrowed :=
  match m with
  | .fmtF32 => ⟨x.toNat, 0, c⟩
  | .fmtI32 => ⟨x.toNat, 0, c⟩
  | .fmtI8 => ⟨saturate8 x, 0, c⟩
  | .fmtBf16 => bf16.narrow fp32 mode step (val32 x) c
  | .fmtF16 => f16.narrow fp32 mode step (val32 x) c
  | .fmtE4m3 => e4m3.narrow fp32 mode step (val32 x) c
  | .fmtE5m2 => e5m2.narrow fp32 mode step (val32 x) c
  | .fmtMxfp4 => ⟨0, 0, c⟩

/-- The nibble of element `i` of a block's sixteen nibble bytes (R40). -/
def nibbleOf (bytes : List Byte) (i : Nat) : Nat :=
  ((bytes.getD (1 + i / 2) 0).toNat / 16 ^ (i % 2)) % 16

/-- Element `i` of an MXFP4 block (R40). The spec calls the widening always exact; a scale byte of
0xFE with a magnitude of 2 or more, or of 0xFD with one of 4 or more, lies outside FP32, and there the value is free. -/
def mxElem (bytes : List Byte) (i : Nat) : Elem :=
  let x := (bytes.getD 0 0).toNat
  if x = 0xFF then canonNan32
  else
    let r := fp32.round .rne ((e2m1.decode (nibbleOf bytes i)).scale ((x : Int) - 127))
    if r.flags = 0 then BitVec.ofNat 32 r.pat else Config.freeElem (16 * x + nibbleOf bytes i)

/-- The largest magnitude of a list of finite values, as (mag, exp); zero when all are zero. -/
def largestMag : List Num → Nat × Int
  | [] => (0, 0)
  | .fin _ m e :: rest =>
    let (n, f) := largestMag rest
    if magLt n f m e then (m, e) else (n, f)
  | _ :: rest => largestMag rest

/-- The scale byte of a block of finite values (R41 step 2). -/
def blockScale (xs : List Num) : Nat :=
  let (m, e) := largestMag xs
  if m = 0 then 0
  else (max (-127) (min 127 (floorLog2 m e - 2)) + 127).toNat

/-- One element's nibble (R41 step 3): under EF the residual is kept in the element's own scale, since q is the nibble's
value times 2^(X − 127) (R47; DEDUCED, log 76), and a result of zero keeps x's sign. The nibble is free where the EF
chain's y is not a number or an infinity that came from the residual, which the spec does not give. -/
def blockNibble (scale : Nat) (mode : BitVec 2) (step : Half) (x : Num) (c : Chain) : Narrowed :=
  let k : Int := 127 - scale
  let r : Narrowed :=
    if mode = 2 then
      let y := feedback fp32 x c.res
      let n := e2m1.round .rne (y.scale k)
      let fl := if feedbackOverflow x c.res y then flagOF ||| flagNX else n.flags
      let pat := if y.isFinite || feedbackOverflow x c.res y then n.pat else (Config.freeNibble scale c.res).toNat
      ⟨pat, fl, ⟨residual y ((e2m1.decode n.pat).scale (-k)), c.disc⟩⟩
    else e2m1.narrow fp32 mode step (x.scale k) c
  if r.pat % 8 = 0 then ⟨e2m1.signBit x.isNeg, r.flags, r.chain⟩ else r

/-- The nibbles of a block's present elements in ascending order, with the flags and the chain. -/
def blockNibbles (scale : Nat) (mode : BitVec 2) (step : Half) :
    List Num → Chain → List Nat × FFlags × Chain
  | [], c => ([], 0, c)
  | x :: xs, c =>
    let r := blockNibble scale mode step x c
    let (ns, fl, c') := blockNibbles scale mode step xs r.chain
    (r.pat :: ns, r.flags ||| fl, c')

/-- Two nibbles a byte, the even element in the low half (R40). -/
def packNibbles (ns : List Nat) : List Byte :=
  (List.range 16).map fun i => BitVec.ofNat 8 (ns.getD (2 * i) 0 + 16 * ns.getD (2 * i + 1) 0)

/-- A block written by a format-5 store (R41): its seventeen bytes, the flags, and the chain. The elements of a block
written with X = 0xFF are not narrowed and leave the chain as it is (DEDUCED, log 76). -/
def encodeBlock (mode : BitVec 2) (step : Half) (xs : List Elem) (c : Chain) :
    List Byte × FFlags × Chain :=
  let vs := xs.map val32
  if vs.all Num.isFinite then
    let sc := blockScale vs
    let (ns, fl, c') := blockNibbles sc mode step vs c
    (BitVec.ofNat 8 sc :: packNibbles ns, fl, c')
  else
    (0xFF#8 :: List.replicate 16 0, if vs.any (fun v => !v.isNan && !v.isFinite) then flagNV else 0, c)

end Sys2Proof.Machine
end

