-- ==== Sys2Proof/Machine/Spline.lean ====
section
/-! DEFINITION. The spline arithmetic of one array cell (spec/02_number_formats.md R53 to R58). -/

namespace Sys2Proof.Machine

/-- One knot register pair (R53): knotNa and knotNb as they read. -/
structure KnotPair where
  /-- knotNa: LO in [63:32], INVH in [31:0] -/
  a : Word
  /-- knotNb: G [3:0], ORD [5:4], CLAMP [7:6], BASE [8] -/
  b : Word
deriving DecidableEq, Repr

def KnotPair.lo (k : KnotPair) : Elem := k.a.extractLsb' 32 32
def KnotPair.invh (k : KnotPair) : Elem := k.a.extractLsb' 0 32
/-- Interval count, 1 to 12 in a valid pair. -/
def KnotPair.g (k : KnotPair) : Nat := (k.b.extractLsb' 0 4).toNat
/-- Spline order, 0 to 3. -/
def KnotPair.ord (k : KnotPair) : Nat := (k.b.extractLsb' 4 2).toNat
/-- Out-of-grid rule: 0 HOLD, 1 ZERO, 2 LINEAR. -/
def KnotPair.clamp (k : KnotPair) : Nat := (k.b.extractLsb' 6 2).toNat
/-- Base term: false NONE, true IDENT. -/
def KnotPair.base (k : KnotPair) : Bool := k.b.getLsbD 8

/-- The bits of knotNb that exist (R53); the others read zero (R7). -/
def knotBMask : Word := 0x1FF#64

/-- knotNa is valid when LO is finite and INVH finite and greater than zero (R54). -/
def knotAValid (v : Word) : Bool :=
  let lo := val32 (v.extractLsb' 32 32)
  let invh := val32 (v.extractLsb' 0 32)
  lo.isFinite && invh.isFinite && Num.zero.lt invh

/-- knotNb is valid when G is 1 to 12 and CLAMP is not 3 (R54). -/
def knotBValid (v : Word) : Bool :=
  let g := (v.extractLsb' 0 4).toNat
  decide (1 ≤ g) && decide (g ≤ 12) && v.extractLsb' 6 2 != 3#2

/-- RNE32 of an exact result, as a value. -/
def r32 (x : Exact) : FlagM Num := do
  let p ← rne32 x
  pure (val32 p)

/-- RNE48 of an exact result, as a value. -/
def r48 (x : Exact) : FlagM Num := do
  let p ← rne48 x
  pure (val48 p)

/-- K6 of R56. -/
def k6 : Num := val32 0x3E2AAAAB#32
def half : Num := .fin false 1 (-1)
def numOf (n : Nat) : Num := .fin false n 0

/-- Where an activation lies on the grid (R55). -/
structure Located where
  u : Num
  ub : Num
  j : Nat
  t : Num
  ingrid : Bool
deriving DecidableEq, Repr

/-- R55, for a u that is not a NaN. -/
def locate (k : KnotPair) (u : Num) : Located :=
  let g := numOf k.g
  if !(u.lt Num.zero) && u.lt g then
    let j := u.floor.toNat
    ⟨u, Num.zero, j, (u.sub (numOf j)).val, true⟩
  else if u.lt Num.zero then ⟨u, Num.zero, 0, Num.zero, false⟩
  else ⟨u, g, k.g - 1, Num.one, false⟩

/-- The basis functions B0 to B_ord at t (R56). -/
def basis (ord : Nat) (t : Num) : FlagM (List Num) := do
  let s ← r32 (Num.one.sub t)
  match ord with
  | 0 => pure [Num.one]
  | 1 => pure [s, t]
  | 2 =>
    let t2 ← r32 (t.mul t)
    let s2 ← r32 (s.mul s)
    let b0 ← r32 (s2.mul half)
    let b2 ← r32 (t2.mul half)
    let d ← r32 (Num.one.sub b0)
    let b1 ← r32 (d.sub b2)
    pure [b0, b1, b2]
  | _ =>
    let t2 ← r32 (t.mul t)
    let t3 ← r32 (t2.mul t)
    let s2 ← r32 (s.mul s)
    let s3 ← r32 (s2.mul s)
    let b0 ← r32 (s3.mul k6)
    let b3 ← r32 (t3.mul k6)
    let p ← r32 ((numOf 3).mul t3)
    let q ← r32 ((numOf 6).mul t2)
    let d ← r32 (p.sub q)
    let e ← r32 (d.add (numOf 4))
    let b1 ← r32 (e.mul k6)
    let f ← r32 (Num.one.sub b0)
    let h ← r32 (f.sub b1)
    let b2 ← r32 (h.sub b3)
    pure [b0, b1, b2, b3]

/-- The derivative basis at t (R57). -/
def derivBasis (ord : Nat) (t : Num) : FlagM (List Num) := do
  let s ← r32 (Num.one.sub t)
  match ord with
  | 0 => pure [Num.zero]
  | 1 => pure [Num.one.neg, Num.one]
  | 2 =>
    let b0 := s.neg
    let b1 ← r32 (b0.neg.sub t)
    pure [b0, b1, t]
  | _ =>
    let t2 ← r32 (t.mul t)
    let s2 ← r32 (s.mul s)
    let h ← r32 (s2.mul half)
    let b0 := h.neg
    let b3 ← r32 (t2.mul half)
    let p ← r32 ((numOf 3).mul t2)
    let q ← r32 ((numOf 4).mul t)
    let d ← r32 (p.sub q)
    let b1 ← r32 (d.mul half)
    let e ← r32 (b0.neg.sub b1)
    let b2 ← r32 (e.sub b3)
    pure [b0, b1, b2, b3]

/-- The spline sum: one coefficient times one basis value added at a time, each sum rounded by RNE48. -/
def splineSum : Num → List Num → List Num → FlagM Num
  | acc, c :: cs, b :: bs => do
    let acc' ← r48 (c.fma b acc)
    splineSum acc' cs bs
  | acc, _, _ => pure acc

/-- A computation whose flags are not kept (R146). -/
def quiet {α : Type} (m : FlagM α) : α := (m.run 0).1

/-- The grid coordinate of an activation, RNE32(RNE32(x − lo) × invh) (R55). -/
def gridCoord (k : KnotPair) (x : Num) : Num :=
  quiet do
    let d ← r32 (x.sub (val32 k.lo))
    r32 (d.mul (val32 k.invh))

/-- What the evaluation of a spline cell starts from: the location, whether the sum is taken, its coefficients. -/
structure CellSite where
  loc : Located
  taken : Bool
  cs : List Num
deriving DecidableEq, Repr

/-- The site of an activation; none where a NaN makes value and derivative the canonical NaN (R55, R58). -/
def cellSite (k : KnotPair) (coef : Nat → Num) (x : Num) : Option CellSite :=
  let u := gridCoord k x
  if u.isNan || x.isNan then none
  else
    let l := locate k u
    let taken := l.ingrid || k.clamp != 1
    let cs := (List.range (k.ord + 1)).map fun i => coef (l.j + i)
    if (taken && cs.any Num.isNan) || (k.base && (coef 15).isNan) then none else some ⟨l, taken, cs⟩

/-- Out of grid under CLAMP = LINEAR. -/
def CellSite.linear (c : CellSite) (k : KnotPair) : Bool := !c.loc.ingrid && k.clamp == 2

/-- The sum D of R58 over the derivative basis. -/
def CellSite.slope (c : CellSite) (k : KnotPair) : FlagM Num :=
  if c.taken then splineSum Num.zero c.cs (quiet (derivBasis k.ord c.loc.t)) else pure Num.zero

/-- The value φ of a cell with the flags of the roundings that form it (R58, R137, R146). `coef` gives the value of a
slot, `x` the activation; a pair with G = 0 is the plain pair. -/
def cellPhi (k : KnotPair) (coef : Nat → Num) (x : Num) : FlagM A48 :=
  if k.g = 0 then rne48 ((coef 15).mul x)
  else
    match cellSite k coef x with
    | none => pure canonNan48
    | some c => do
      let base : Exact := if k.base then (coef 15).mul x else exactly Num.zero
      raise base.flags
      let acc ← if c.taken then splineSum base.val c.cs (quiet (basis k.ord c.loc.t)) else pure base.val
      if c.linear k then
        let d ← c.slope k
        let off := quiet (r32 (c.loc.u.sub c.loc.ub))
        let p ← r48 (d.mul off)
        rne48 (acc.add p)
      else rne48 (exactly acc)

/-- The derivative φ' of a cell, likewise. -/
def cellDphi (k : KnotPair) (coef : Nat → Num) (x : Num) : FlagM A48 :=
  if k.g = 0 then rne48 (exactly (coef 15))
  else
    match cellSite k coef x with
    | none => pure canonNan48
    | some c => do
      let d ← if c.loc.ingrid || c.linear k then c.slope k else pure Num.zero
      let g ← r48 ((val32 k.invh).mul d)
      rne48 ((if k.base then coef 15 else Num.zero).add g)

/-- The gradient set G of R151: slots with their factors; none for a NaN. -/
def gradientSet (k : KnotPair) (x : Num) : Option (List (Nat × Num)) :=
  if x.isNan then none
  else if k.g = 0 then some [(15, x)]
  else
    let u := gridCoord k x
    if u.isNan then none
    else
      let l := locate k u
      let bs := quiet (basis k.ord l.t)
      let spline : List (Nat × Num) :=
        if l.ingrid || k.clamp = 0 then bs.zipIdx.map fun p => (l.j + p.2, p.1)
        else if k.clamp = 2 then
          let ds := quiet (derivBasis k.ord l.t)
          let off := quiet (r32 (u.sub l.ub))
          (bs.zip ds).zipIdx.map fun p => (l.j + p.2, quiet do
            let q ← r32 (p.1.2.mul off)
            r32 (p.1.1.add q))
        else []
      some (spline ++ if k.base then [(15, x)] else [])

/-- RNE32 of a mean of two coefficients and of the weighted sums of R152; no flag is kept. -/
def mean32 (a b : Num) : Num := quiet do
  let s ← r32 (a.add b)
  r32 (s.mul half)

def weigh32 (p a q b : Num) : Num := quiet do
  let x ← r32 (p.mul a)
  let y ← r32 (q.mul b)
  r32 (x.add y)

/-- V_i of R152. -/
def vertex32 (a b c : Num) : Num := quiet do
  let x ← r32 ((numOf 6).mul b)
  let y ← r32 (a.add x)
  let z ← r32 (y.add c)
  r32 (z.mul (.fin false 1 (-3)))

/-- The coefficients of the refined grid from the old ones (R152). -/
def refineCoefs (ord : Nat) (p : List Num) : List Num :=
  let at' (i : Nat) : Num := p.getD i Num.zero
  let m := p.length
  match ord with
  | 0 => p.flatMap fun x => [x, x]
  | 1 => (List.range m).flatMap fun i => if i + 1 < m then [at' i, mean32 (at' i) (at' (i + 1))] else [at' i]
  | 2 =>
    let q3 : Num := .fin false 3 (-2)
    let q1 : Num := .fin false 1 (-2)
    (List.range (m - 1)).flatMap fun i =>
      [weigh32 q3 (at' i) q1 (at' (i + 1)), weigh32 q1 (at' i) q3 (at' (i + 1))]
  | _ =>
    mean32 (at' 0) (at' 1) ::
      (List.range (m - 2)).flatMap fun i =>
        [vertex32 (at' i) (at' (i + 1)) (at' (i + 2)), mean32 (at' (i + 1)) (at' (i + 2))]

end Sys2Proof.Machine
end

