-- ==== Sys2Proof/Machine/State.lean ====
section
/-! DEFINITION. The state of the BX-7200 as plain data, and its reset value. One hart is in front of the
machine at a time (`cur`, `hart`, and its core, `core`); the others are parked in `harts` and `cores`. -/

namespace Sys2Proof.Machine

/-! ### The hart (spec/01 R13 to R26) -/

/-- The two privilege levels a core runs at (R25). -/
inductive Priv where
  | user
  | supervisor
deriving DecidableEq, Repr

/-- What a hart waits for. Its pc stands at the waiting instruction, which is executed again at its next turn. -/
inductive Wait where
  /-- WFI (R99) -/
  | wfi
  /-- EWAIT on a tag (R168) -/
  | ewait
  /-- UIWAIT (R173) -/
  | uiwait
  /-- a GRANT that awaits slices (R180, R183, R297) -/
  | grant
  /-- a GRANT whose wait has ended: it opens its strip when the hart issues next (R185) -/
  | granted
  /-- ECOPY, ECOLL or ESIG on a full queue (R164) -/
  | queue
  /-- EPUB behind engine operations of the hart (R168), or a write to rgntab behind those of the partition (R200) -/
  | publish
  /-- a fence or a release behind a write of the hart that is held for its peer (R131, R287) -/
  | path
  /-- VCLBINV behind a walk of another hart that began before it (R163) -/
  | walk
  /-- a fetch or data access to a segment that has not arrived (R252), with its address -/
  | held (va : Word)
deriving DecidableEq, Repr

/-- Whether a hart issues instructions (R13, R25, R27, R164, R185). -/
inductive RunState where
  /-- the walker has placed no workgroup on it -/
  | absent
  | running
  | waiting (w : Wait)
  /-- a trap to S met tvec = 0 -/
  | stopped (cause : BitVec 8)
  /-- fault 0x12 -/
  | frozen
  /-- its workgroup has ended but for engine operations -/
  | ending
  /-- pre-empted: its context is saved -/
  | halted
deriving DecidableEq, Repr

/-- A vector register (R14): its non-zero elements; a stale one holds +0. -/
structure VReg where
  stale : Bool
  cells : Cells 32
deriving DecidableEq, Repr

/-- A mask register (R14). -/
structure MReg where
  stale : Bool
  bits : MaskBits
deriving DecidableEq, Repr

/-- An active hardware loop (R91). -/
structure Loop where
  start : Word
  stop : Word
  count : Word
deriving DecidableEq, Repr

/-- The user CSRs that are no part of another unit (R21, R22, R46, R139). -/
structure UserCsr where
  vl : BitVec 14
  gvl : BitVec 11
  rc : BitVec 2
  tp : Bool
  so : Bool
  rmode : BitVec 2
  ncarry : Chain
  step : Word
  fflags : FFlags
  lse : BitVec 8
  det : Bool
  mmrev : BitVec 2
  ggen : Word
  dim0 : Word
  dim1 : Word
  dim2 : Word
  mseqStep : BitVec 20
  mseqAct : Bool
deriving DecidableEq, Repr

/-- The trap and translation registers of a hart (R23, R300). -/
structure SupCsr where
  tvec : Word
  tcause : BitVec 8
  tepc : Word
  pp : Priv
  so : Bool
  hpri : BitVec 2
  xlat1 : Word
  xlat2 : Word
deriving DecidableEq, Repr

/-- The fault record, CSRs 0x500 to 0x509 (R26). -/
structure FaultRecord where
  fcause : Word
  fpc : Word
  fstrip : Word
  felem : Word
  fidx0 : Word
  fidx1 : Word
  fidx2 : Word
  faddr : Word
  fcoord : Word
  finfo : Word
deriving DecidableEq, Repr

/-- What GRANT checkpoints (R117, R176). -/
structure Checkpoint where
  regs : Vector Word 32
  loops : List Loop
  ncarry : Chain
  fflags : FFlags
  step : Word
  pc : Word
  vl : BitVec 14
deriving DecidableEq, Repr

/-- The read-modify-write of a buffered vector atomic (R129, R161). -/
inductive AtomicOp where
  | addF32 | addF32U | addBf16 | addBf16U | addI | maxI | minI | swap | or | and
deriving DecidableEq, Repr

/-- The leaf of a volume (R227): partition, first-stage root, ROOT and the index bits above [2:0]. -/
structure LeafKey where
  part : Nat
  root1 : Word
  root : Word
  ix : Nat
  iy : Nat
  iz : Nat
deriving DecidableEq, Repr

/-- What a buffered entry does at the close: write its bytes, or update its word. -/
inductive BufOp where
  | store (bytes : List Byte)
  | atomic (op : AtomicOp) (operand : Elem)
deriving DecidableEq, Repr

/-- A combined translation (R211): its three tags, the page in each space, the base-2 logarithm of its size, and the
permissions. The last three fields are what it was derived from (R302): the base-2 logarithms of the sizes of the leaves of
the two stages, and the second-stage pages through which the walk read first-stage tables, each with its base and the
base-2 logarithm of its size. -/
structure TlbEntry where
  part : Nat
  root1 : Word
  root2 : Word
  vbase : Nat
  bits : Nat
  ppa : Nat
  pa : Nat
  w : Bool
  x : Bool
  first : Nat
  second : Nat
  tables : List (Nat × Nat)
deriving DecidableEq, Repr

/-- One access held in a strip's store buffer (R119, R177): where it goes, the translation its probe used (R120), what a
record would name, the streams whose loads have seen it (R123, R191), and whether it is uncorrectable (R306). -/
structure BufEntry where
  stream : BitVec 2
  convoy : Nat
  instr : Nat
  elem : Nat
  reg : BitVec 5
  va : Word
  loc : Nat
  page : Option TlbEntry
  leaf : Option LeafKey
  op : BufOp
  seen : BitVec 4
  bad : Bool
deriving DecidableEq, Repr

/-- What an open strip holds (R175): the checkpoint, the store buffer in the order in which it drains (R119) and the
entries it takes (R177), the convoy and instruction counts, and the contract marks, one bit a unit: vector registers
0 to 31, masks 32 to 39, tile registers 40 to 47, the band 48, vdesc slots 49 to 52 (R104, R138, R159). -/
structure Strip where
  cp : Checkpoint
  buf : List BufEntry
  used : Nat
  convoy : Nat
  instrs : Nat
  readFirst : BitVec 53
  written : BitVec 53
deriving DecidableEq, Repr

/-- The user-interrupt registers (R171), the bank s24 to s31 not in use, and the loops set aside (R172). -/
structure UserInt where
  uivec : Word
  kind : BitVec 2
  queue : BitVec 2
  value : BitVec 56
  uiepc : Word
  maskEq : BitVec 4
  maskRaise : Bool
  inHandler : Bool
  pendEq : BitVec 4
  pendRaise : Bool
  uistk : Word
  raised : BitVec 56
  /-- the queues whose interrupts a UIWAIT of a deterministic launch takes (R174) -/
  owed : BitVec 4
  bank : Vector Word 8
  loops : List Loop
deriving DecidableEq, Repr

/-- Where an ECOPY's destination lies (R165). -/
inductive CopyDest where
  | region (n : Nat)
  | remote (pa : Nat)
deriving DecidableEq, Repr

/-- The parameter block of an ECOLL (R166). -/
structure CollBlock where
  op : BitVec 2
  itype : Bool
  otype : Bool
  nmem : Nat
  root : Nat
  list : Word
  src : Word
  dst : Word
  count : Nat
  region : Nat
  status : Word
deriving DecidableEq, Repr

/-- What an engine operation does. A signal holds the translation its probe used. -/
inductive EngKind where
  | copy (src dst : Word) (len region : Nat) (dest : CopyDest) (publish ui : Bool)
  | coll (block : CollBlock) (members : Option (List Member))
  | sig (tag : Nat) (addr : Word) (loc : Nat) (page : Option TlbEntry) (value : Word)
deriving DecidableEq, Repr

/-- A write that engine operations are not ordered after (R170): its location and the bytes it replaced. -/
abbrev Replaced := Nat × List Byte

/-- One operation of an engine queue: its sequence number, the address whose translation it waits for, and the writes of
its hart that it is not ordered after, latest first (R170). -/
structure EngineOp where
  seq : Nat
  kind : EngKind
  stalled : Option Word
  unordered : List Replaced
deriving DecidableEq, Repr

/-- An engine error (R169). -/
structure EngineError where
  seq : Nat
  cause : BitVec 8
  va : Word
deriving DecidableEq, Repr

/-- One engine queue of a hart (R164): the last number issued and the last completed, the operations
outstanding, the errors not yet reported, the first that erred, whether it is frozen, and the operations whose
completion interrupt is pending (R174). -/
structure EngQueue where
  issued : Nat
  done : Nat
  ops : List EngineOp
  errors : List EngineError
  firstError : Option Nat
  frozen : Bool
  uiDone : List Nat
deriving DecidableEq, Repr

/-- A locked range (R132): its translations, each held or removed by an invalidation (R135). -/
structure LockRange where
  base : Word
  len : Word
  trans : List (TlbEntry × Bool)
deriving DecidableEq, Repr

/-- A loaded volume descriptor (R160, R223). -/
structure VDesc where
  addr : Word
  root : Word
  rbits : Nat
  levels : Nat
  esize : Nat
  walloc : Bool
  deleg : Bool
  bg : Word
deriving DecidableEq, Repr

/-- A chunk that a walk has claimed and filled and not yet installed (R162, R231): the addresses of the entry and of the
waste counter, the chunk, and the element with the finfo of a fault. -/
structure Claim where
  entry : Word
  waste : Word
  chunk : Word
  size : Nat
  elem : Nat
  info : Word
deriving DecidableEq, Repr

/-- Registers with an uncorrectable code word (R305, R306): scalar registers, the bank s24 to s31 not in use, scalar
registers of the checkpoint, vector registers and masks. `weak` marks those with an error that each read corrects (R305):
bits 31 to 0 the scalar registers, 39 to 32 the bank, 71 to 40 the checkpoint, 103 to 72 the vector registers, 111 to 104 the
masks. -/
structure Upsets where
  scalar : BitVec 32
  bank : BitVec 8
  checkpoint : BitVec 32
  vector : BitVec 32
  mask : BitVec 8
  weak : BitVec 112
deriving DecidableEq, Repr

/-- What the launch, the governor and the pre-emption logic hold for a hart (R31, R180, R185, R186, R254, R256):
`slices` is its allocation, `holds` the slices it holds since its last GRANT; `rejected` says that a peer's rejection
froze it (R282, R304). -/
structure HartCtl where
  errata : Word
  req : Vector Word 4
  part : Nat
  launch : Option Nat
  index : Nat
  slices : Nat
  holds : Nat
  revoked : Bool
  protectedStrip : Bool
  preempt : Bool
  rejected : Bool
deriving DecidableEq, Repr

/-- One hart. -/
structure Hart where
  run : RunState
  priv : Priv
  pc : Word
  regs : Vector Word 32
  vregs : Vector VReg 32
  mregs : Vector MReg 8
  csr : UserCsr
  sup : SupCsr
  record : FaultRecord
  loops : List Loop
  trapLoops : List Loop
  strip : Strip
  ui : UserInt
  queues : Vector EngQueue 4
  locks : List (Nat × LockRange)
  vdesc : Vector (Option VDesc) 4
  claim : Option Claim
  /-- the hart's writes since its latest fence or acquire, latest first (R170) -/
  unordered : List Replaced
  upsets : Upsets
  ctl : HartCtl
deriving DecidableEq, Repr

/-! ### The core (spec/01 R24, spec/08 R137, spec/12 R211, spec/14 R227) -/

/-- Matrix state (R137). Tile element (t, r, c) is at t × 16384 + r × 256 + c, an accumulator's likewise,
slot n of cell (k, c) at (k × 256 + c) × 16 + n. `damaged` marks what holds an uncorrectable code word (R306), one bit
each: tile registers 0 to 7, committed accumulators 8 to 11, pending ones 12 to 15, slot n of the cells 16 + n, knot
registers 32 to 39, the selectors 40; `weak` likewise what holds an error that each read corrects (R305). -/
structure Matrix where
  owner : Nat
  rows : List Nat
  mvl : Nat
  tiles : Cells 16
  acc : Cells 48
  pend : Cells 48
  tags : Vector (BitVec 8) 4
  pendTags : Vector (BitVec 8) 4
  slots : Cells 16
  knots : Vector KnotPair 4
  sel : Cells 2
  damaged : BitVec 41
  weak : BitVec 41
deriving DecidableEq, Repr

/-- An entry of a CLB (R227). -/
structure ClbEntry where
  key : LeafKey
  leaf : Word
deriving DecidableEq, Repr

/-- The grant override (R24), with the row width of the latest entry that it has answered a GRANT with (R183). -/
structure GovCtl where
  en : Bool
  hart : Bool
  len : BitVec 4
  hold : Bool
  pos : BitVec 4
  seq0 : Word
  seq1 : Word
  seq2 : Word
  seq3 : Word
  latest : Option Nat
deriving DecidableEq, Repr

/-- What the two harts of a core share; `pinned` lists the `.pin` launches that keep the core's vault (R276). -/
structure Core where
  gov : GovCtl
  matrix : Option Matrix
  clb : List ClbEntry
  tlb : List TlbEntry
  slicesLost : List Nat
  retired : Bool
  pinned : List Nat
deriving DecidableEq, Repr

/-! ### Partitions, streams, launches, objects (spec/16, 17, 19) -/

/-- The capability registers of a partition but captail (R259). -/
structure Caps where
  core : Word
  slice : Word
  arr : Word
  vault : Word
  hbm : Word
  link : Word
  eng : Word
  feat0 : Word
  feat1 : Word
  feat2 : Word
  feat3 : Word
  mm : Word
  errata : Word
deriving DecidableEq, Repr

/-- A partition (R296, R278): its ordinals, each backed by a core or vacant, and its grants. -/
structure Partition where
  ordinals : List (Option Nat)
  minCores : Nat
  hbm : BitVec 8
  links : BitVec 24
  envelope : Nat
  pair : Option Nat
  half : Bool
  active : Bool
  /-- a time-sharing switch away from it has begun (R298) -/
  switching : Bool
  functions : List Nat
  roots : List Word
  saveBase : Word
  signed : Bool
  keys : List (List Byte)
  target : Nat
  rgntab : Word
  caps : Caps
deriving DecidableEq, Repr

/-- What BAR0 of a function holds besides its streams (R299): how often its status has changed, and the doublewords of its
MSI-X table that the host has written, by offset. -/
structure FnRegs where
  status : Nat
  msix : List (Nat × Word)
deriving DecidableEq, Repr

/-- A command of a stream: eight doublewords (R264). -/
abbrev Cmd := Vector Word 8

/-- A release that waits for the launches naming an object: the object's key, COMPL and IRQ (R257, R268). -/
structure Pending where
  object : Nat
  compl : Word
  irq : Bool
deriving DecidableEq, Repr

/-- A command stream (R263), the command it runs and the NOWAIT work not yet complete (R265). -/
structure Stream where
  base : Word
  log2n : BitVec 5
  head : BitVec 32
  tail : BitVec 32
  xlat : Word
  en : Bool
  det : Bool
  stopped : Bool
  cause : BitVec 8
  cmd : Option Cmd
  begun : Bool
  polled : Word
  launches : List Nat
  loads : List Nat
  releases : List Pending
  copies : List Cmd
deriving DecidableEq, Repr

/-- A segment of a code object (R249), and the partition physical frame its first page is mapped to. -/
structure Segment where
  va : Word
  filesz : Nat
  memsz : Nat
  kind : BitVec 8
  frame : Option Word
deriving DecidableEq, Repr

/-- A loaded or loading code object (R246, R252, R257): `nextAt` is where the next segment record lies in its stream,
`expect` the hash that record must have; the last three fields are of the COPY that loads it. -/
structure CodeObject where
  handle : Word
  len : Nat
  part : Nat
  root : Word
  stream : Nat
  entry : Word
  mmrev : BitVec 2
  errata : Word
  req : Vector Word 4
  ordered : Bool
  pin : Bool
  nests : List (Vector Word 8)
  relocs : List (Word × Word)
  ncores : Nat
  status : BitVec 8
  nseg : Nat
  segments : List Segment
  arrived : Nat
  nextAt : Nat
  expect : BitVec 256
  complete : Bool
  failed : Bool
  released : Bool
  compl : Word
  irq : Bool
  nowait : Bool
deriving DecidableEq, Repr

/-- A launch (R269 to R276): counts of its spatial levels, each with whether it is of kind DIES, and of its temporal
levels; how many workgroups each lane of the walker has handed out (a lane is an ordinal on a deterministic stream, a
die under a DIES level, else the partition); the harts that run one; when it began; and how it ends. -/
structure Launch where
  stream : Nat
  part : Nat
  object : Nat
  root : Word
  args : Word
  pri : BitVec 2
  det : Bool
  pin : Bool
  spatial : List (Nat × Bool)
  temporal : List Nat
  handed : List Nat
  running : List Nat
  begun : Option Nat
  ended : Option (BitVec 8 × Nat)
  nowait : Bool
  compl : Word
  irq : Bool
deriving DecidableEq, Repr

/-- A saved context (R292, R293): the first nine doublewords of its header, whether its other header bytes are
zero, the matrix state, whether the save met uncorrectable data (R306), whether its strip saved open has been aborted since
(R120), the save area of its core that holds its images, none when they lie in the shadow SRAM of its cluster (R295), and
whether an image there holds an error that a read corrects (R305). An image in shadow SRAM, which nothing but the save
sequencer reaches, is in the halted hart's record; one in a save area is in memory. -/
structure SavedContext where
  header : Vector Word 9
  reservedZero : Bool
  matrix : Option Matrix
  poisoned : Bool
  cut : Bool
  area : Option Nat
  weak : Bool
deriving DecidableEq, Repr

/-! ### Fabric, repair, boot (spec/18, spec/20) -/

/-- A write handed to memory that waits for a path to its peer (R287), or behind one that does (R119): its hart, how many
workgroups of the hart have ended since, its partition, the streams of the hart that wait for it (R131, R192), and itself. -/
structure HeldWrite where
  hart : Nat
  ended : Nat
  part : Nat
  blocks : BitVec 4
  entry : BufEntry
deriving DecidableEq, Repr

/-- A write handed to a peer that may still be rejected (R282): the agent it is of, how many workgroups of the agent have
ended since, where it lies, and the bytes it replaced there. -/
structure SentWrite where
  agent : Nat
  ended : Nat
  loc : Nat
  old : List Byte
deriving DecidableEq, Repr

/-- The fabric as this device sees it (R281, R282, R287): its domain id, the grants it holds as source and
admits as target, the links that are up and whose spare lane is used, the replays of one flit that have failed in a row
and the failed replays of a lane (R309) by link, the links it has in common with each peer, the writes held, the writes sent,
oldest first, and the count of collectives for each partition and member list (R290). -/
structure Fabric where
  domain : Nat
  grants : List FabricGrant
  linksUp : BitVec 24
  spareUsed : BitVec 24
  replays : List (Nat × Nat)
  laneFailures : List (Nat × Nat)
  common : List (Nat × BitVec 24)
  lost : List Nat
  held : List HeldWrite
  sent : List SentWrite
  collectives : List (Nat × List Nat × Nat)
deriving DecidableEq, Repr

/-- An error record (R308) without its TIME: the die whose Pip keeps it, KIND, UNIT, PART, COUNT and WHERE. -/
structure ErrorRecord where
  die : Nat
  kind : Nat
  unit : Nat
  part : Nat
  count : Nat
  location : Nat
deriving DecidableEq, Repr

/-- Errors and repairs (R305, R307 to R309): code words that hold a correctable error, the errors corrected in each
since boot and those since the latest patrol pass began, the rows of each bank moved to spares, the uncorrectable register
errors of each slice (16 × core + slice) and cell errors of each tile row (16 × cluster + row), the tile rows retired,
vaults being zeroed for a new partition, and the error log. -/
structure Repair where
  weak : List Nat
  corrected : List (Nat × Nat)
  recent : List Nat
  moved : List (Nat × List Nat)
  sliceErrors : List (Nat × Nat)
  rowErrors : List (Nat × Nat)
  tileRowsLost : List (Nat × Nat)
  vaultZeroing : List (Nat × Nat)
  log : List ErrorRecord
deriving DecidableEq, Repr

/-- Boot, firmware and attestation (R311 to R313), and the package limit in watts (R3). Images and signatures in flash are
keyed by twice the die, plus 1 for Husk. -/
structure BootState where
  count : Nat
  watts : Nat
  diesUp : BitVec 4
  huskUp : BitVec 4
  flash : List (Nat × List Byte)
  signatures : List (Nat × List Byte)
  measures : Vector (BitVec 256) 4
  unitMap : UnitMap
  unitMapSig : List Byte
  amendments : List (List Byte × List Byte)
  domainConfig : Nat
  quotes : List (List Byte)
deriving DecidableEq, Repr

/-- What the device reports to Pip, Husk and the hypervisor. -/
inductive Report where
  /-- a trap met tvec = 0 (R25): to Husk -/
  | trapUnset (hart : Nat) (cause : BitVec 8)
  /-- fault 0x12 (R27): to Pip and Husk -/
  | violation (hart : Nat) (va : Word)
  /-- an engine queue frozen (R169): to Pip and Husk -/
  | queueViolation (hart queue : Nat) (va : Word)
  /-- a command processor's access outside the partition (R314): to Pip -/
  | processorViolation (fn : Nat) (va : Word)
  /-- an engine source translation that fails (R169): to Husk -/
  | sourceFault (hart queue : Nat) (va : Word)
  /-- a write to xlat2 that names no registered root (R300): to Pip -/
  | rootRefused (hart : Nat) (value : Word)
  /-- a context that is not restored (R294): to Husk -/
  | restoreRefused (hart : Nat)
  /-- a remote request not admitted (R282): to the target's Pip -/
  | requestRefused (node part : Nat) (addr : Nat)
  /-- every path to a peer lost (R287): to the hypervisor -/
  | pathLost (node : Nat)
  /-- an agent of a partition frozen (R304): to the hypervisor -/
  | frozen (part : Nat)
  /-- a teardown begun (R304): to the hypervisor -/
  | teardown (part : Nat)
  /-- a record of the error log (R308): to Husk of the partition and to the hypervisor -/
  | errorRecord (record : ErrorRecord)
  /-- a request of the hypervisor that breaks a limit (R296) -/
  | requestRejected (part : Nat)
deriving DecidableEq, Repr

/-- Who moves next: a hart, or the agent of an event. -/
inductive Turn where
  | hart (id : Nat)
  | event (i : Instr)
deriving DecidableEq, Repr

/-- What is left to chance: how many free values have been drawn, and the translation that the instruction in progress has
found for each page it touches (R128). -/
structure Draws where
  count : Nat
  pages : List TlbEntry
deriving DecidableEq, Repr

/-- The machine. Hart h of core c has the number 2c + h; a stream's key is 16 times its function plus its
number; a physical address of this device's HBM is its own key in `mem`, and byte o of core c's vault lies at
2^52 + c × 2^23 + o. `poison` lists the uncorrectable code words: the key of a word's first byte (R305). `vaults`
lists the vault halves, numbered 2c and 2c + 1, whose bytes are free values until written (R5), each with the draw that
names them. A hart of the idle member of a time-shared pair has the key h + 384 × (partition + 1) in `harts`. -/
structure State where
  cur : Nat
  hart : Hart
  core : Core
  harts : List (Nat × Hart)
  cores : List (Nat × Core)
  mem : Memory
  poison : List Nat
  vaults : List (Nat × Nat)
  tlb2 : List (Nat × List TlbEntry)
  parts : List (Nat × Partition)
  streams : List (Nat × Stream)
  functions : List (Nat × FnRegs)
  launches : List (Nat × Launch)
  nextLaunch : Nat
  objects : List (Nat × CodeObject)
  nextObject : Nat
  saved : List (Nat × SavedContext)
  fabric : Fabric
  repair : Repair
  boot : BootState
  msix : List (Nat × Nat)
  reports : List Report
  agenda : List Turn
  free : Draws
deriving DecidableEq, Repr

/-- Why the machine stops. -/
inductive Fault where
  /-- Raised by `step` when the agenda names a hart above 383, of which the device has none (R3). Safe: the
  hardware has no such agent, so no behaviour of it is left out. -/
  | noSuchHart (id : Nat)
deriving DecidableEq, Repr

/-- Why the model gives no meaning. -/
inductive Refusal where
  /-- Raised by `exec` for an instruction that has no meaning yet. Safe: nothing is claimed of it. -/
  | notModelled (mnemonic : String)
deriving DecidableEq, Repr

/-! ### Reset -/

def UserCsr.reset : UserCsr :=
  { vl := 0, gvl := 0, rc := 0, tp := false, so := false, rmode := 0, ncarry := ⟨0, 0⟩, step := 0,
    fflags := 0, lse := 0, det := false, mmrev := 2, ggen := 0, dim0 := 0, dim1 := 0, dim2 := 0,
    mseqStep := 0, mseqAct := false }

def SupCsr.reset : SupCsr :=
  { tvec := 0, tcause := 0, tepc := 0, pp := .user, so := false, hpri := 0, xlat1 := 0, xlat2 := 0 }

def FaultRecord.reset : FaultRecord :=
  { fcause := 0, fpc := 0, fstrip := 0, felem := 0, fidx0 := 0, fidx1 := 0, fidx2 := 0, faddr := 0,
    fcoord := 0, finfo := 0 }

def Checkpoint.reset : Checkpoint :=
  { regs := Vector.replicate 32 0, loops := [], ncarry := ⟨0, 0⟩, fflags := 0, step := 0, pc := 0, vl := 0 }

def Strip.reset : Strip :=
  { cp := .reset, buf := [], used := 0, convoy := 0, instrs := 0, readFirst := 0, written := 0 }

def UserInt.reset : UserInt :=
  { uivec := 0, kind := 0, queue := 0, value := 0, uiepc := 0, maskEq := 0, maskRaise := false,
    inHandler := false, pendEq := 0, pendRaise := false, uistk := 0, raised := 0, owed := 0,
    bank := Vector.replicate 8 0, loops := [] }

def EngQueue.reset : EngQueue :=
  { issued := 0, done := 0, ops := [], errors := [], firstError := none, frozen := false, uiDone := [] }

/-- An object that requires every feature (log 6). -/
def HartCtl.reset : HartCtl :=
  { errata := 0, req := Vector.replicate 4 0xFFFFFFFFFFFFFFFF#64, part := 0, launch := none, index := 0,
    slices := 16, holds := 0, revoked := false, protectedStrip := false, preempt := false, rejected := false }

/-- Every vector register and mask is stale at a workgroup start and reads +0 (R14). -/
def VReg.reset : VReg := ⟨true, []⟩
def MReg.reset : MReg := ⟨true, 0⟩
def Upsets.none : Upsets := { scalar := 0, bank := 0, checkpoint := 0, vector := 0, mask := 0, weak := 0 }

/-- A hart at a workgroup start (R14, R15). -/
def Hart.reset : Hart :=
  { run := .absent, priv := .user, pc := 0, regs := Vector.replicate 32 0,
    vregs := Vector.replicate 32 .reset, mregs := Vector.replicate 8 .reset, csr := .reset, sup := .reset,
    record := .reset, loops := [], trapLoops := [], strip := .reset, ui := .reset,
    queues := Vector.replicate 4 .reset, locks := [], vdesc := Vector.replicate 4 none, claim := none,
    unordered := [], upsets := .none,
    ctl := .reset }

def GovCtl.reset : GovCtl :=
  { en := false, hart := false, len := 0, hold := false, pos := 0, seq0 := 0, seq1 := 0, seq2 := 0, seq3 := 0,
    latest := none }

def Core.reset : Core :=
  { gov := .reset, matrix := none, clb := [], tlb := [], slicesLost := [], retired := false, pinned := [] }

/-- The capability registers of a partition that holds the whole device (R3, R259; log 7). -/
def Caps.full : Caps :=
  { core := 0xF2C0#64, slice := 0x04000010#64, arr := 0x01001030#64, vault := 0x2000#64,
    hbm := 0x020000FF#64, link := 0xFFFFFF#64, eng := 0x4004#64, feat0 := 0x00010FFFFFFF7FFF#64,
    feat1 := 0x3F#64, feat2 := 0, feat3 := 0, mm := 0x203#64, errata := 0x4#64 }

/-- The one partition of the reset state: every core, stack and link (log 7). -/
def Partition.full : Partition :=
  { ordinals := (List.range 192).map some, minCores := 192, hbm := 0xFF, links := 0xFFFFFF,
    envelope := 3000, pair := none, half := false, active := true, switching := false, functions := [0], roots := [],
    saveBase := 0x7FC0000000#64, signed := false, keys := [], target := 0,
    rgntab := 0, caps := .full }

def Stream.reset : Stream :=
  { base := 0, log2n := 0, head := 0, tail := 0, xlat := 0, en := false, det := false, stopped := false,
    cause := 0, cmd := none, begun := false, polled := 0, launches := [], loads := [], releases := [], copies := [] }

def Fabric.reset : Fabric :=
  { domain := 1, grants := [], linksUp := 0xFFFFFF, spareUsed := 0, replays := [], laneFailures := [], common := [], lost := [],
    held := [], sent := [], collectives := [] }

def Repair.reset : Repair :=
  { weak := [], corrected := [], recent := [], moved := [], sliceErrors := [], rowErrors := [], tileRowsLost := [], vaultZeroing := [], log := [] }

def BootState.reset : BootState :=
  { count := 1, watts := Config.packageWatts, diesUp := 0xF, huskUp := 0xF, flash := [], signatures := [], measures := Vector.replicate 4 0,
    unitMap := .whole, unitMapSig := [], amendments := [], domainConfig := 1, quotes := [] }

/-- The kernel entry of the reset state: the address at which the linker places a first segment (R261; log 1). -/
def resetEntry : Word := 0x400000#64

/-- Right after reset: the device is up, one partition holds all of it, memory reads zero (R5), and hart 0 of
core 0 stands at a workgroup start (R14, R15). -/
def State.reset : State :=
  { cur := 0, hart := { Hart.reset with run := .running, pc := resetEntry }, core := .reset, harts := [],
    cores := [], mem := [], poison := [], vaults := [], tlb2 := [], parts := [(0, .full)], streams := [], functions := [], launches := [],
    nextLaunch := 1, objects := [], nextObject := 1, saved := [], fabric := .reset, repair := .reset,
    boot := .reset, msix := [], reports := [], agenda := [], free := ⟨0, []⟩ }

end Sys2Proof.Machine
end

