-- ==== Sys2Proof/Machine/Base.lean ====
section
/-! DEFINITION. Reading and writing the state: which hart and core is in front, registers, the pc and the
hardware loops, draws of free values. -/

namespace Sys2Proof.Machine

/-- The outcome of a step. -/
abbrev Out := Host.Outcome State Fault Refusal

/-! ### Fields of a word -/

def bit (b : Bool) (n : Nat) : Word := if b then 1#64 <<< n else 0
def field {w : Nat} (v : BitVec w) (n : Nat) : Word := v.setWidth 64 <<< n
/-- Bits [lo + n − 1 : lo] of a word as a word. -/
def mask (lo n : Nat) : Word := BitVec.ofNat 64 ((2 ^ n - 1) * 2 ^ lo)
/-- ncarry as a word (R46). -/
def Chain.word (c : Chain) : Word := field c.res 0 ||| field c.disc 32

/-! ### Where a hart lies (spec/00 R3) -/

/-- The core of a hart; a key of an idle time-shared member's hart names the core it left. -/
def coreOf (hart : Nat) : Nat := hart % Config.harts / 2
/-- The other hart of the core. -/
def sibling (h : Nat) : Nat := if h % 2 = 0 then h + 1 else h - 1
def clusterOf (core : Nat) : Nat := core / Config.coresPerCluster
def dieOf (core : Nat) : Nat := core / 48

/-! ### The hart and the core in front -/

/-- A hart that the walker has not placed is absent (R13). -/
def State.hartAt (s : State) (h : Nat) : Hart :=
  if h = s.cur then s.hart else (tget s.harts h).getD Hart.reset

def State.coreAt (s : State) (c : Nat) : Core :=
  if c = coreOf s.cur then s.core else (tget s.cores c).getD Core.reset

def State.setHartAt (s : State) (h : Nat) (x : Hart) : State :=
  if h = s.cur then { s with hart := x } else { s with harts := tput s.harts h x }

def State.setCoreAt (s : State) (c : Nat) (x : Core) : State :=
  if c = coreOf s.cur then { s with core := x } else { s with cores := tput s.cores c x }

/-- Hart h and its core brought in front; the hart in front is parked. -/
def State.focus (s : State) (h : Nat) : State :=
  if h = s.cur then s
  else
    let x := s.hartAt h
    let c := s.coreAt (coreOf h)
    let harts := tput s.harts s.cur s.hart
    let cores := tput s.cores (coreOf s.cur) s.core
    { s with cur := h, hart := x, core := c, harts := tdel harts h, cores := tdel cores (coreOf h) }

/-- Every hart changed by a function of its number and state. -/
def State.mapHarts (s : State) (f : Nat → Hart → Hart) : State :=
  { s with hart := f s.cur s.hart, harts := tmap f s.harts }

/-- Every core that is held changed by a function. -/
def State.mapCores (s : State) (f : Nat → Core → Core) : State :=
  { s with core := f (coreOf s.cur) s.core, cores := tmap f s.cores }

/-- The numbers of the harts the state holds. -/
def State.hartIds (s : State) : List Nat := s.cur :: s.harts.map Prod.fst

def State.withHart (s : State) (x : Hart) : State := { s with hart := x }
def State.withCsr (s : State) (c : UserCsr) : State := { s with hart := { s.hart with csr := c } }
def State.withSup (s : State) (c : SupCsr) : State := { s with hart := { s.hart with sup := c } }
def State.withStrip (s : State) (c : Strip) : State := { s with hart := { s.hart with strip := c } }
def State.withUi (s : State) (u : UserInt) : State := { s with hart := { s.hart with ui := u } }
def State.withRun (s : State) (r : RunState) : State := { s with hart := { s.hart with run := r } }
def State.withMatrix (s : State) (m : Option Matrix) : State := { s with core := { s.core with matrix := m } }

/-- Slices of a core that work: the unit map has them and no repair has retired them (R312). -/
def State.slicesOn (s : State) (core : Nat) : Nat :=
  ((List.range 16).filter fun i =>
    !s.boot.unitMap.slicesAbsent.contains (16 * core + i) && !(s.coreAt core).slicesLost.contains i).length

/-- A tile row of a cluster's array works. -/
def State.rowWorks (s : State) (cluster row : Nat) : Bool :=
  !s.boot.unitMap.rowsAbsent.contains (16 * cluster + row) && !s.repair.tileRowsLost.contains (cluster, row)

/-- A report to Pip, Husk or the hypervisor. -/
def State.report (s : State) (r : Report) : State := { s with reports := s.reports ++ [r] }

/-! ### Free values -/

/-- One more free value drawn. -/
def Draws.next (d : Draws) : Draws := { d with count := d.count + 1 }

/-- One free bit. -/
def State.drawBit (s : State) : Bool × State := (Config.freeBit s.free.count, { s with free := s.free.next })

/-- A free choice among n alternatives, 0 when there are none. -/
def State.drawNat (s : State) (n : Nat) : Nat × State :=
  (if n = 0 then 0 else Config.freeNat s.free.count % n, { s with free := s.free.next })

/-- A free choice among n alternatives that an instruction makes once for a page or a byte: it is the same until the
next draw. -/
def State.choose (s : State) (key n : Nat) : Nat := if n = 0 then 0 else Config.freeAt s.free.count key % n

/-- The choices made so far are used up: the translations of the next instruction are its own (R128). -/
def State.drawn (s : State) : State := { s with free := ⟨s.free.count + 1, []⟩ }

/-! ### The partition of the hart in front -/

/-- A partition that holds nothing. -/
def Partition.nothing : Partition :=
  { Partition.full with
    ordinals := [], minCores := 1, hbm := 0, links := 0, envelope := 0, active := false, functions := [],
    caps := { core := 0, slice := 0, arr := 0, vault := 0, hbm := 0, link := 0, eng := 0, feat0 := 0, feat1 := 0,
              feat2 := 0, feat3 := 0, mm := 0, errata := 0 } }

def State.partAt (s : State) (p : Nat) : Partition := (tget s.parts p).getD Partition.nothing

/-- NCORES counts vacant ordinals too (R278). -/
def Partition.ncores (p : Partition) : Nat := p.ordinals.length

/-- The core that backs an ordinal. -/
def Partition.coreOf (p : Partition) (k : Nat) : Option Nat := p.ordinals.getD k none

/-! ### Scalar registers (R14) -/

/-- s0 reads 0. -/
def Hart.x (h : Hart) (n : BitVec 5) : Word := if n = 0 then 0 else h.regs[n.toNat]'n.isLt

/-- A write to s0 is discarded. A write covers the register's code words whole (R305). -/
def Hart.setX (h : Hart) (n : BitVec 5) (v : Word) : Hart :=
  if n = 0 then h
  else { h with regs := h.regs.set n.toNat v n.isLt,
                upsets := { h.upsets with scalar := h.upsets.scalar &&& ~~~(1#32 <<< n.toNat),
                                          weak := h.upsets.weak &&& ~~~(1#112 <<< n.toNat) } }

def State.x (s : State) (n : BitVec 5) : Word := s.hart.x n
def State.setX (s : State) (n : BitVec 5) (v : Word) : State := { s with hart := s.hart.setX n v }

/-! ### Program counter and hardware loops (R91 to R95) -/

/-- The address that follows when control reaches q without a transfer, and the loops left active (R92). -/
def loopBack : List Loop → Word → Word × List Loop
  | [], q => (q, [])
  | l :: r, q =>
    if q = l.stop then
      if l.count - 1 = 0 then loopBack r q else (l.start, { l with count := l.count - 1 } :: r)
    else (q, l :: r)

/-- Whether an address lies in a loop's body. -/
def Loop.holds (l : Loop) (t : Word) : Bool := l.start.ule t && t.ult l.stop

/-- Control reaches address q without a transfer. -/
def State.reach (s : State) (q : Word) : State :=
  let r := loopBack s.hart.loops q
  { s with hart := { s.hart with pc := r.1, loops := r.2 } }

/-- The instruction of n bytes at the pc has completed without transferring control (R92). -/
def State.advance (s : State) (n : Nat) : State := s.reach (s.hart.pc + BitVec.ofNat 64 n)

/-- A taken branch or jump: loops whose body does not hold the target end (R94). -/
def State.jump (s : State) (t : Word) : State :=
  { s with hart := { s.hart with pc := t, loops := s.hart.loops.dropWhile fun l => !l.holds t } }

/-- The next state after an instruction of n bytes that has completed. -/
def finish (s : State) (n : Nat) : Out := .next (s.advance n)

/-- The hart waits at the instruction, which is executed again at its next turn. -/
def waitAt (s : State) (w : Wait) : Out := .next (s.withRun (.waiting w))

/-! ### Status -/

/-- A hart that issues or waits. -/
def Hart.live (h : Hart) : Bool :=
  match h.run with
  | .running => true
  | .waiting _ => true
  | _ => false

def State.atUser (s : State) : Bool := s.hart.priv == .user
def State.stripOpen (s : State) : Bool := s.hart.csr.so

/-- Rows of a strip: 1, 2, 4 or 8 (R18, R22). -/
def State.rows (s : State) : Nat := 2 ^ s.hart.csr.rc.toNat
def State.gvl (s : State) : Nat := s.hart.csr.gvl.toNat
def State.vl (s : State) : Nat := s.hart.csr.vl.toNat

/-- Flags ORed into fflags (R39). -/
def State.orFlags (s : State) (f : FFlags) : State := s.withCsr { s.hart.csr with fflags := s.hart.csr.fflags ||| f }

def State.withVl (s : State) (n : Nat) : State := s.withCsr { s.hart.csr with vl := BitVec.ofNat 14 n }

/-- The matrix state of the hart in front, when it owns it (R13). -/
def State.ownMatrix (s : State) : Option Matrix :=
  match s.core.matrix with
  | some m => if m.owner = s.cur then some m else none
  | none => none

end Sys2Proof.Machine
end

