-- ==== Sys2Proof/Machine/Memory.lean ====
section
/-! DEFINITION. Memory: bytes by location, code words that are uncorrectable, vault space, skim regions, the two
stages of translation with their caches, and what one access meets (spec/07 R125 to R127, R132 to R135; spec/11
R200; spec/12 R210 to R212; spec/16 R252; spec/18 R281, R282; spec/19 R300, R301; spec/20 R305). -/

namespace Sys2Proof.Machine

/-! ### Bytes by location -/

/-- Vault keys begin here, above every 52-bit physical address. -/
def vaultKey : Nat := 4503599627370496

/-- The location of a byte of a core's vault. -/
def vaultLoc (core off : Nat) : Nat := vaultKey + core * Config.vaultBytes + off

/-- The first byte of the code word that holds a location: 32 bytes in HBM, 8 in a vault (R305). -/
def codeWord (loc : Nat) : Nat := if loc < vaultKey then loc / 32 * 32 else loc / 8 * 8
def codeWordBytes (loc : Nat) : Nat := if loc < vaultKey then 32 else 8

/-- Half of a vault, which a member of a time-shared pair keeps (R209). -/
def halfVault : Nat := 4194304

/-- What a cell of a vault half that is free until written differs by from the byte read there (R5). -/
def State.vaultMask (s : State) (loc : Nat) : Byte :=
  if loc < vaultKey then 0
  else
    match tget s.vaults ((loc - vaultKey) / halfVault) with
    | some g => Config.freeByte g loc
    | none => 0

def State.byte (s : State) (loc : Nat) : Byte := cget s.mem loc ^^^ s.vaultMask loc

/-- Bytes from a location on. -/
def State.bytes (s : State) (loc n : Nat) : List Byte := (List.range n).map fun i => s.byte (loc + i)

/-- A little-endian number (R6). -/
def leNat : List Byte → Nat
  | [] => 0
  | b :: r => b.toNat + 256 * leNat r

/-- The low n bytes of a number, least significant first (R6). -/
def leBytes : Nat → Nat → List Byte
  | 0, _ => []
  | n + 1, v => BitVec.ofNat 8 v :: leBytes n (v / 256)

def State.readNat (s : State) (loc n : Nat) : Nat := leNat (s.bytes loc n)

/-- Bytes written from a location on. -/
def writeCells : Memory → Nat → List Byte → Memory
  | m, _, [] => m
  | m, loc, b :: r => writeCells (cset m loc b) (loc + 1) r

/-- The code words that one write of n bytes covers whole become correctable again (R305). -/
def clearPoison (poison : List Nat) (loc n : Nat) : List Nat :=
  poison.filter fun w => !(decide (loc ≤ w) && decide (w + codeWordBytes w ≤ loc + n))

/-- Bytes to be written from a location on, as cells. -/
def State.asCells (s : State) : Nat → List Byte → List Byte
  | _, [] => []
  | loc, b :: r => (b ^^^ s.vaultMask loc) :: s.asCells (loc + 1) r

/-- One write of bytes to memory. -/
def State.write (s : State) (loc : Nat) (bytes : List Byte) : State :=
  { s with mem := writeCells s.mem loc (s.asCells loc bytes), poison := clearPoison s.poison loc bytes.length,
           repair := { s.repair with weak := clearPoison s.repair.weak loc bytes.length } }

/-- A code word holds one of n bytes. -/
def wordMeets (loc n w : Nat) : Bool := decide (w < loc + n) && decide (loc < w + codeWordBytes w)

/-- Whether any of n bytes lies in an uncorrectable code word. -/
def State.poisoned (s : State) (loc n : Nat) : Bool := s.poison.any (wordMeets loc n)

/-! ### The error log (R305, R308) -/

/-- A record in the error log of a die, with its copies to Husk of the partition and to the hypervisor. -/
def State.logError (s : State) (e : ErrorRecord) : State :=
  ({ s with repair := { s.repair with log := s.repair.log ++ [e] } } : State).report (.errorRecord e)

/-- WHERE of a unit of a core: die, cluster, core and slice. -/
def unitPlace (core slice : Nat) : Nat := dieOf core + 256 * clusterOf core + 65536 * core + 16777216 * slice

/-- The partition that a core belongs to, or 15. -/
def State.partOfCore (s : State) (core : Nat) : Nat :=
  ((s.parts.find? fun p => p.2.ordinals.contains (some core)).map Prod.fst).getD 15

/-- The partition that an HBM stack is granted to, or 15. -/
def State.partOfStack (s : State) (stack : Nat) : Nat :=
  ((s.parts.find? fun p => p.2.hbm.getLsbD stack).map Prod.fst).getD 15

/-- The record of an event of a code word of this device's memory. -/
def State.wordRecord (s : State) (kind word : Nat) : ErrorRecord :=
  let n := (tget s.repair.corrected word).getD 0
  if word < vaultKey then
    let stack := word / 2 ^ 36
    { die := stack / 2, kind := kind, unit := 0, part := s.partOfStack stack, count := n, location := word }
  else
    let core := (word - vaultKey) / Config.vaultBytes
    { die := dieOf core, kind := kind, unit := 1, part := s.partOfCore core, count := n, location := unitPlace core 0 }

/-- One error of a code word corrected on a read: counted and recorded. -/
def State.correct (s : State) (word : Nat) : State :=
  let n := (tget s.repair.corrected word).getD 0 + 1
  let t := { s with repair := { s.repair with
    corrected := tput s.repair.corrected word n, recent := s.repair.recent ++ [word] } }
  t.logError (t.wordRecord 1 word)

/-- What a read of n bytes of this device's memory leaves in the counts and the log: each correctable word it meets is
corrected, each uncorrectable one recorded. -/
def State.noteRead (s : State) (loc n : Nat) : State :=
  let mine (w : Nat) : Bool := wordMeets loc n w && (decide (w < 2 ^ 44) || decide (vaultKey ≤ w))
  (s.poison.filter mine).foldl (fun t w => t.logError (t.wordRecord 2 w))
    ((s.repair.weak.filter mine).foldl State.correct s)

/-- An aligned little-endian number, none where it cannot be read. -/
def State.readSafe (s : State) (loc n : Nat) : Option Nat :=
  if s.poisoned loc n then none else some (s.readNat loc n)

/-! ### Vault space (R127, R202, R209) -/

def vaultLo : Nat := 0xFFF0000000000000
def vaultHi : Nat := 0xFFF0FFFFFFFFFFFF

def inVaultSpace (va : Word) : Bool := decide (vaultLo ≤ va.toNat) && decide (va.toNat ≤ vaultHi)

/-- The in-vault offset lies in the half the partition keeps, when it is time-shared. -/
def Partition.inHalf (p : Partition) (off : Nat) : Bool :=
  match p.pair with
  | none => true
  | some _ => if p.half then decide (0x400000 ≤ off) else decide (off < 0x400000)

/-- The location of an address of vault space, none when it is out of range. -/
def Partition.vaultAt (p : Partition) (own : Option Nat) (va : Word) : Option Nat :=
  let o := va.toNat - vaultLo
  let slot := o / Config.vaultBytes
  let off := o % Config.vaultBytes
  if p.inHalf off then
    let core := if slot = 0 then own else if slot ≤ p.ncores then p.coreOf (slot - 1) else none
    core.map fun c => vaultLoc c off
  else none

/-! ### Device physical addresses (R210, R281, R282) -/

/-- What a device physical address names. -/
inductive PaClass where
  | ok
  /-- outside the partition: fault 0x12 -/
  | outside
  /-- a reserved node: fault 0x07 -/
  | reserved
deriving DecidableEq, Repr

/-- The node of a location; the own id is node 0. -/
def nodeOf (loc : Nat) : Nat := if loc < vaultKey then loc / 2 ^ 44 else 0

/-- A physical address as a location: a device's own id names the same place as 0 (R281). -/
def Fabric.normal (f : Fabric) (pa : Nat) : Nat := if pa / 2 ^ 44 = f.domain then pa % 2 ^ 44 else pa

/-- A grant that covers n bytes of a peer's HBM with the rights needed (R210, R282). -/
def Fabric.granted (f : Fabric) (part pa n : Nat) (write : Bool) : Bool :=
  let addr := pa % 2 ^ 44
  decide (addr + n ≤ 2 ^ 39) && f.grants.any fun g =>
    decide (g.srcNode = f.domain) && decide (g.srcPart = part) && decide (g.dstNode = pa / 2 ^ 44) &&
    decide (g.base ≤ addr) && decide (addr + n ≤ g.base + g.len) && (g.write || !write)

def State.classify (s : State) (part pa : Nat) (write : Bool) : PaClass :=
  let node := pa / 2 ^ 44
  if 193 ≤ node then .reserved
  else if node = 0 then
    if pa / 2 ^ 39 % 32 = 0 && (s.partAt part).hbm.getLsbD (pa / 2 ^ 36 % 8) then .ok else .outside
  else if s.fabric.granted part pa 1 write then .ok else .outside

/-! ### Table walks (R300, R301) -/

/-- A mapping of one stage: page base, base-2 logarithm of the page size, permissions. -/
structure Leaf where
  base : Nat
  bits : Nat
  w : Bool
  x : Bool
deriving DecidableEq, Repr

/-- Lowest index bit, index width, and size in bytes of the tables of a level. -/
def levelShift (l : Nat) : Nat := if l = 4 then 48 else if l = 3 then 36 else if l = 2 then 30 else if l = 1 then 21 else 16
def levelEntries (l : Nat) : Nat :=
  if l = 4 then 512 else if l = 3 then 4096 else if l = 2 then 64 else if l = 1 then 512 else 32

/-- The result of a walk. -/
inductive Walk where
  | ok (l : Leaf)
  | invalid
  | outside
deriving DecidableEq, Repr

/-- What a walk reads at an address of a table. -/
inductive TableEntry where
  | word (e : Nat)
  /-- an uncorrectable word, or a table that no translation reaches -/
  | unread
  /-- outside the partition -/
  | outside
deriving DecidableEq, Repr

/-- An entry that names what is below it: V is set and the must-be-zero bits are zero. -/
def entryValid (e : Nat) : Bool := e % 2 == 1 && e / 2 ^ 52 == 0 && e / 16 % 16 == 0
def entryLeaf (e : Nat) : Bool := e / 2 % 2 == 1
def entryTarget (e : Nat) : Nat := e % 2 ^ 52 / 256 * 256

/-- The address of the entry of a table of a level on the way to an address. -/
def entryAddr (addr l table : Nat) : Nat := table + 8 * (addr / 2 ^ levelShift l % levelEntries l)

/-- A walk from a level down. `read` gives the entry at an address of a table. -/
def walkFrom (read : Nat → TableEntry) (addr : Nat) : Nat → Nat → Walk
  | l, table =>
    match read (entryAddr addr l table) with
    | .outside => .outside
    | .unread => .invalid
    | .word e =>
      let target := entryTarget e
      if !entryValid e then .invalid
      else if entryLeaf e then
        if l = 4 || target % 2 ^ levelShift l != 0 then .invalid
        else .ok ⟨target, levelShift l, e / 4 % 2 == 1, e / 8 % 2 == 1⟩
      else
        match l with
        | 0 => .invalid
        | l' + 1 => if target % (8 * levelEntries l') != 0 then .invalid else walkFrom read addr l' target

/-- The addresses of the entries that a walk reads. -/
def walkReads (read : Nat → TableEntry) (addr : Nat) : Nat → Nat → List Nat
  | l, table =>
    entryAddr addr l table ::
      match read (entryAddr addr l table), l with
      | .word e, l' + 1 => if entryValid e && !entryLeaf e then walkReads read addr l' (entryTarget e) else []
      | _, _ => []

/-- An entry of a table at a device physical address. -/
def State.readTable (s : State) (pa : Nat) : TableEntry :=
  match s.readSafe (s.fabric.normal pa) 8 with
  | some e => .word e
  | none => .unread

/-- The table that a root names. -/
def rootTable (root : Word) : Nat := root.toNat % 2 ^ 52 / 4096 * 4096

/-- The second stage: a partition physical address to a device physical address (R300, R301). -/
def State.stage2 (s : State) (root2 : Word) (ppa : Nat) : Walk :=
  if root2.getLsbD 63 then walkFrom s.readTable ppa 4 (rootTable root2) else .invalid

/-- The second stage with the limits of the partition (R210, R282). -/
def State.stage2In (s : State) (part : Nat) (root2 : Word) (ppa : Nat) (write : Bool) : Walk :=
  match s.stage2 root2 ppa with
  | .ok l =>
    let pa := l.base + ppa % 2 ^ l.bits
    match s.classify part (s.fabric.normal pa) write with
    | .ok => .ok l
    | .outside => .outside
    | .reserved => .invalid
  | r => r

/-- An entry of a first-stage table, which lies at a partition physical address. -/
def State.readTable1 (s : State) (part : Nat) (root2 : Word) (ppa : Nat) : TableEntry :=
  match s.stage2In part root2 ppa false with
  | .ok l => s.readTable (l.base + ppa % 2 ^ l.bits)
  | .outside => .outside
  | .invalid => .unread

/-- The second-stage page of a partition physical address: its base and the base-2 logarithm of its size. -/
def State.pageOf (s : State) (part : Nat) (root2 : Word) (ppa : Nat) : Option (Nat × Nat) :=
  match s.stage2In part root2 ppa false with
  | .ok l => some (ppa / 2 ^ l.bits * 2 ^ l.bits, l.bits)
  | _ => none

/-- The second-stage pages through which a first-stage walk reads its tables (R302). -/
def State.tablePages (s : State) (part : Nat) (root1 root2 : Word) (va : Nat) : List (Nat × Nat) :=
  (walkReads (s.readTable1 part root2) va 4 (rootTable root1)).filterMap (s.pageOf part root2)

/-- The first stage: a virtual address to a partition physical address (R300, R301). -/
def State.stage1 (s : State) (part : Nat) (root1 root2 : Word) (va : Nat) : Walk :=
  if root1.getLsbD 63 then walkFrom (s.readTable1 part root2) va 4 (rootTable root1) else .invalid

/-! ### Code and data segments of loaded objects (R249, R252) -/

/-- Whether an address lies in a 64 KiB page that a segment occupies. -/
def Segment.occupies (g : Segment) (va : Nat) : Bool :=
  decide (0 < g.memsz) && decide (g.va.toNat / 65536 ≤ va / 65536) && decide (va / 65536 * 65536 < g.va.toNat + g.memsz)

/-- The objects whose segments lie in an address space. -/
def CodeObject.inSpace (o : CodeObject) (part : Nat) (root1 : Word) : Bool :=
  decide (o.part = part) && decide (o.root.extractLsb' 12 40 = root1.extractLsb' 12 40) && root1.getLsbD 63

/-- Whether an address is one of a segment's own bytes. -/
def Segment.spans (g : Segment) (va : Nat) : Bool := decide (g.va.toNat ≤ va) && decide (va < g.va.toNat + g.memsz)

/-- The mapped segment of an object at an address. -/
def CodeObject.mappedAt (o : CodeObject) (va : Nat) : Option Segment :=
  o.segments.find? fun g => g.occupies va && g.frame.isSome

/-- An address of a segment that has not been mapped. -/
def CodeObject.awaits (o : CodeObject) (va : Nat) : Bool := o.segments.any fun g => g.spans va && g.frame.isNone

/-- What the loader has made of an address: the partition physical page it mapped, or a segment not mapped. -/
inductive Loaded where
  | no
  | awaited
  | page (l : Leaf)
deriving DecidableEq, Repr

def loadedIn (part : Nat) (root1 : Word) (va : Nat) : List (Nat × CodeObject) → Loaded
  | [] => .no
  | (_, o) :: r =>
    if o.inSpace part root1 then
      match o.mappedAt va with
      | some g =>
        let page := va / 65536 - g.va.toNat / 65536
        .page ⟨(g.frame.getD 0).toNat + page * 65536, 16, g.kind == 2#8, g.kind == 0#8⟩
      | none =>
        match loadedIn part root1 va r with
        | .page l => .page l
        | rest => if o.awaits va then .awaited else rest
    else loadedIn part root1 va r

/-! ### Combined translation with its caches (R210 to R212) -/

/-- Who accesses memory: its partition and roots, the core whose vault is slot 0, the locked ranges it uses, and
whether it uses the TLBs of the core in front. -/
structure Agent where
  part : Nat
  root1 : Word
  root2 : Word
  own : Option Nat
  locks : List (Nat × LockRange)
  cached : Bool
deriving DecidableEq, Repr

/-- The hart in front. -/
def State.self (s : State) : Agent :=
  { part := s.hart.ctl.part, root1 := s.hart.sup.xlat1, root2 := s.hart.sup.xlat2, own := some (coreOf s.cur),
    locks := s.hart.locks, cached := true }

/-- The core whose vault is slot 0 of the hart in front: that of its ordinal, which may have moved since it halted (R294). -/
def State.ownCore (s : State) : Option Nat :=
  match tget s.saved s.cur with
  | some k => (s.partAt s.hart.ctl.part).coreOf (k.header[6].extractLsb' 8 8).toNat
  | none => some (coreOf s.cur)

/-- An engine of the hart in front: it translates afresh at each 64 KiB (R302). -/
def State.engine (s : State) : Agent := { s.self with own := s.ownCore, locks := [], cached := false }

/-- What a translation gives. -/
inductive Xlat where
  | ok (t : TlbEntry)
  /-- no translation: fault 0x07 -/
  | invalid
  /-- outside the partition: fault 0x12 -/
  | outside
  /-- a removed translation of a locked range: fault 0x08 -/
  | missed
  /-- a segment that has not arrived (R252) -/
  | awaited
deriving DecidableEq, Repr

/-- The combined page of the two stages' mappings of an address: the smaller of the two sizes (R210). -/
def combine (s : State) (a : Agent) (va : Nat) (tables : List (Nat × Nat)) (l1 l2 : Leaf) : TlbEntry :=
  let bits := min l1.bits l2.bits
  let ppa := l1.base + va % 2 ^ l1.bits
  let pa := s.fabric.normal (l2.base + ppa % 2 ^ l2.bits)
  { part := a.part, root1 := a.root1, root2 := a.root2, vbase := va / 2 ^ bits * 2 ^ bits, bits := bits,
    ppa := ppa / 2 ^ bits * 2 ^ bits, pa := pa / 2 ^ bits * 2 ^ bits, w := l1.w && l2.w, x := l1.x && l2.x,
    first := l1.bits, second := l2.bits, tables := tables }

/-- An address of a segment that has not been mapped, where the tables hold no mapping of the partition's own (R252). -/
def State.awaited (s : State) (a : Agent) (va : Nat) : Bool :=
  loadedIn a.part a.root1 va s.objects == .awaited &&
  (match s.stage1 a.part a.root1 a.root2 va with
   | .invalid => true
   | _ => false)

/-- The tables' own answer, with no cache. -/
def State.walk (s : State) (a : Agent) (va : Nat) (write : Bool) : Xlat :=
  let first : Walk × List (Nat × Nat) :=
    match loadedIn a.part a.root1 va s.objects with
    | .page l => (.ok l, [])
    | _ => (s.stage1 a.part a.root1 a.root2 va, s.tablePages a.part a.root1 a.root2 va)
  match first.1 with
  | .ok l1 =>
    match s.stage2In a.part a.root2 (l1.base + va % 2 ^ l1.bits) write with
    | .ok l2 => .ok (combine s a va first.2 l1 l2)
    | .outside => .outside
    | .invalid => .invalid
  | .outside => .outside
  | .invalid => .invalid

/-- Whether a cached translation covers an address under the agent's tags (R211). -/
def TlbEntry.covers (t : TlbEntry) (a : Agent) (va : Nat) : Bool :=
  decide (t.part = a.part) && decide (t.root1 = a.root1) && decide (t.root2 = a.root2) &&
  decide (va / 2 ^ t.bits * 2 ^ t.bits = t.vbase)

/-- A translation entered in a cache of n entries; which entry a full cache gives up is free (R211). -/
def enter (t : TlbEntry) (n victim : Nat) (l : List TlbEntry) : List TlbEntry :=
  if l.contains t then l else if l.length < n then l ++ [t] else l.eraseIdx victim ++ [t]

/-- Both levels filled by a walk (R211). -/
def State.fill (s : State) (t : TlbEntry) : State :=
  let die := dieOf (coreOf s.cur)
  let l2 := (tget s.tlb2 die).getD []
  { s with core := { s.core with tlb := enter t Config.tlb1Entries (s.choose t.vbase s.core.tlb.length) s.core.tlb },
           tlb2 := tput s.tlb2 die (enter t Config.tlb2Entries (s.choose (t.vbase + 1) l2.length) l2) }

/-- An address lies in a locked range. -/
def LockRange.holds (r : LockRange) (va : Word) : Bool := r.base.ule va && (va - r.base).ult r.len

/-- The translations of the hart's locked ranges that serve an address (R211): those held of its page, and those removed
that an address of the range needs (R135). -/
def lockedAt (a : Agent) (va : Word) : List (TlbEntry × Bool) :=
  a.locks.flatMap fun r => r.2.trans.filter fun t => t.1.covers a va.toNat && (t.2 || r.2.holds va)

/-- The physical address a combined translation gives. -/
def TlbEntry.at (t : TlbEntry) (va : Nat) : Nat := t.pa + va % 2 ^ t.bits
def TlbEntry.ppaAt (t : TlbEntry) (va : Nat) : Nat := t.ppa + va % 2 ^ t.bits

/-- A cached translation gives the same access as another. -/
def TlbEntry.agrees (t u : TlbEntry) (va : Nat) : Bool :=
  decide (t.at va = u.at va) && decide (t.ppaAt va = u.ppaAt va) && t.w == u.w && t.x == u.x

/-- The tables give the same access as a cached translation. -/
def Xlat.gives (x : Xlat) (t : TlbEntry) (va : Nat) : Bool :=
  match x with
  | .ok u => t.agrees u va
  | _ => false

/-- A cached or locked translation as an access meets it: a peer's page needs its grant still (R282). -/
def State.usable (s : State) (a : Agent) (t : TlbEntry) (va : Nat) (write : Bool) : Xlat :=
  match s.classify a.part (t.at va) write with
  | .ok => .ok t
  | .outside => .outside
  | .reserved => .invalid

/-- The cached translations that cover an address, those of the core's TLB first. -/
def State.cachedAt (s : State) (a : Agent) (va : Nat) : List TlbEntry :=
  (s.core.tlb ++ (tget s.tlb2 (dieOf (coreOf s.cur))).getD []).filter fun t => t.covers a va

/-- The instruction in progress keeps the translation it has found for a page (R128). -/
def State.keepPage (s : State) (a : Agent) (x : Xlat) : State :=
  match x with
  | .ok t => if a.cached then { s with free := { s.free with pages := s.free.pages ++ [t] } } else s
  | _ => s

/-- The tables' answer, which fills the TLBs (R211). -/
def State.walked (s : State) (a : Agent) (va : Nat) (write : Bool) : State × Xlat :=
  let w := s.walk a va write
  (match w with
   | .ok t => if a.cached then s.fill t else s
   | _ => s, w)

/-- A page translated by the first source that holds it: a locked range, a TLB, the tables (R211). A page in several
locked ranges uses any translation that one of them holds (R133). Cached translations that the tables no longer give may
or may not be used (R212). -/
def State.translatePage (s : State) (a : Agent) (va : Word) (write : Bool) : State × Xlat :=
  match lockedAt a va with
  | t :: r =>
    let held := (t :: r).filter Prod.snd
    (s, match held[s.choose t.1.vbase held.length]? with
      | some u => s.usable a u.1 va.toNat write
      | none => .missed)
  | [] =>
    if s.awaited a va.toNat then (s, .awaited)
    else if a.cached then
      let w := s.walk a va.toNat write
      match s.cachedAt a va.toNat with
      | [] => s.walked a va.toNat write
      | t :: r =>
        if (t :: r).all fun u => w.gives u va.toNat then (s, w)
        else
          match (t :: r)[s.choose t.vbase (r.length + 2)]? with
          | some u => (s, s.usable a u va.toNat write)
          | none => s.walked a va.toNat write
    else (s, s.walk a va.toNat write)

/-- An address translated; one instruction translates each page once (R128). -/
def State.translate (s : State) (a : Agent) (va : Word) (write : Bool) : State × Xlat :=
  match (if a.cached then s.free.pages.find? fun t => t.covers a va.toNat else none) with
  | some t => (s, s.usable a t va.toNat write)
  | none =>
    let r := s.translatePage a va write
    (r.1.keepPage a r.2, r.2)

/-! ### Skim regions (R200) -/

/-- A valid entry of the region table. -/
structure Region where
  index : Nat
  base : Nat
  len : Nat
  bk0 : Nat
  bk1 : Nat
  gen : Nat
deriving DecidableEq, Repr

/-- The location of the partition's region table. -/
def State.regionTable (s : State) (part : Nat) (root2 : Word) : Option Nat :=
  let ppa := (s.partAt part).rgntab.toNat % 2 ^ 52 / 16384 * 16384
  match s.stage2In part root2 ppa false with
  | .ok l => some (s.fabric.normal (l.base + ppa % 2 ^ l.bits))
  | _ => none

/-- The region table lies outside the partition (R210). -/
def State.tableOutside (s : State) (part : Nat) (root2 : Word) : Bool :=
  s.stage2In part root2 ((s.partAt part).rgntab.toNat % 2 ^ 52 / 16384 * 16384) false == .outside

/-- An address is canonical in 57 bits (R210). -/
def canonical (va : Word) : Bool := va == (va.extractLsb' 0 57).signExtend 64

/-- The region entry in the 64 bytes at a location, none when it breaks a limit of R200. -/
def State.regionEntry (s : State) (loc index : Nat) : Option Region :=
  let base := s.readNat loc 8
  let lenw := s.readNat (loc + 8) 8
  let bk0 := s.readNat (loc + 16) 8
  let bk1 := s.readNat (loc + 24) 8
  let len := lenw % 2 ^ 40
  if lenw / 2 ^ 63 = 1 && lenw / 2 ^ 40 % 2 ^ 23 == 0 && len != 0 && len % 65536 == 0 && base % 65536 == 0 &&
     bk0 % 65536 == 0 && bk1 % 65536 == 0 && decide (bk0 < 2 ^ 52) && decide (bk1 < 2 ^ 52) &&
     decide (base + len ≤ 2 ^ 64) && canonical (BitVec.ofNat 64 base) &&
     canonical (BitVec.ofNat 64 (base + len - 1)) &&
     decide (base / 2 ^ 63 = (base + len - 1) / 2 ^ 63) &&
     !(inVaultSpace (BitVec.ofNat 64 base)) && !(inVaultSpace (BitVec.ofNat 64 (base + len - 1))) &&
     s.readNat (loc + 40) 24 == 0 && !s.poisoned loc 64
  then some ⟨index, base, len, bk0, bk1, s.readNat (loc + 32) 8⟩
  else none

/-- The entries whose valid bit is set, in ascending order: those with a listed byte 15 of 0x80 or more. -/
def validIndexes (mem : Memory) (loc : Nat) : List Nat :=
  mem.filterMap fun c =>
    if loc ≤ c.1 && c.1 < loc + 16384 && (c.1 - loc) % 64 == 15 && decide (128 ≤ c.2.toNat) then some ((c.1 - loc) / 64)
    else none

/-- The entry of the region table that governs an address: the lowest-numbered valid one (R200). -/
def State.regionAt (s : State) (part : Nat) (root2 : Word) (va : Word) : Option Region :=
  match s.regionTable part root2 with
  | none => none
  | some loc =>
    (validIndexes s.mem loc).findSome? fun i =>
      match s.regionEntry (loc + 64 * i) i with
      | some r => if r.base ≤ va.toNat && va.toNat < r.base + r.len then some r else none
      | none => none

/-- The entry of a numbered region. -/
def State.regionNumbered (s : State) (part : Nat) (root2 : Word) (i : Nat) : Option Region :=
  match s.regionTable part root2 with
  | none => none
  | some loc => if i < 256 then s.regionEntry (loc + 64 * i) i else none

/-- The front backing, and the back backing. -/
def Region.front (r : Region) : Nat := if r.gen % 2 = 0 then r.bk0 else r.bk1
def Region.back (r : Region) : Nat := if r.gen % 2 = 0 then r.bk1 else r.bk0

/-! ### What one access meets (R125) -/

/-- A location reached, with the translation that gave it when there was one. -/
structure Hit where
  loc : Nat
  page : Option TlbEntry
deriving DecidableEq, Repr

inductive Probe where
  | hit (h : Hit)
  /-- a cause of R125: 0x14, 0x09, 0x07, 0x08, 0x10 -/
  | fault (cause : BitVec 8)
  /-- outside the partition: 0x12 -/
  | outside
  /-- a segment that has not arrived (R252) -/
  | held
deriving DecidableEq, Repr

/-- What an access kind needs of a page. -/
inductive Need where
  | read
  | write
  | fetch
deriving DecidableEq, Repr

def Need.isWrite (n : Need) : Bool := n == .write

/-- What an access by an agent meets at an address, alignment apart. The table of the skim regions is read for each address
outside vault space; the second-stage translation of a backing is made afresh, from no TLB (DESIGN CHOICE, log 89). -/
def State.reachAddr (s : State) (a : Agent) (va : Word) (need : Need) : State × Probe :=
  if inVaultSpace va then
    match (s.partAt a.part).vaultAt a.own va with
    | some loc => (s, .hit ⟨loc, none⟩)
    | none => (s, .fault 0x09)
  else if s.tableOutside a.part a.root2 then (s, .outside)
  else
    match s.regionAt a.part a.root2 va with
    | some r =>
      if need.isWrite then (s, .fault 0x10)
      else
        let ppa := r.front + (va.toNat - r.base)
        match s.stage2In a.part a.root2 ppa false with
        | .ok l => (s, .hit ⟨s.fabric.normal (l.base + ppa % 2 ^ l.bits), none⟩)
        | .outside => (s, .outside)
        | .invalid => (s, .fault 0x07)
    | none =>
      if canonical va then
        let (s1, x) := s.translate a va need.isWrite
        match x with
        | .ok t =>
          let allowed := match need with
            | .read => true
            | .write => t.w
            | .fetch => t.x && nodeOf (t.at va.toNat) == 0
          if allowed then (s1, .hit ⟨t.at va.toNat, some t⟩) else (s1, .fault 0x07)
        | .invalid => (s1, .fault 0x07)
        | .outside => (s1, .outside)
        | .missed => (s1, .fault 0x08)
        | .awaited => (s1, .held)
      else (s, .fault 0x07)

/-- n bytes at a location of a peer need a grant that covers all of them (R282). -/
def State.admitted (s : State) (part loc n : Nat) (write : Bool) : Bool :=
  nodeOf loc == 0 || s.fabric.granted part loc n write

/-- An access of n bytes to a multiple of n: an address outside the partition ranks first, then alignment (R28). -/
def State.probeAt (s : State) (a : Agent) (va : Word) (n : Nat) (need : Need) : State × Probe :=
  let (s1, p) := s.reachAddr a va need
  match p with
  | .outside => (s1, .outside)
  | .hit h =>
    if va.toNat % n ≠ 0 then (s1, .fault 0x14)
    else if s1.admitted a.part h.loc n need.isWrite then (s1, p) else (s1, .outside)
  | p => if va.toNat % n = 0 then (s1, p) else (s1, .fault 0x14)

/-- The probe of an instruction's one access, or of the next of several. -/
def State.probe (s : State) (a : Agent) (va : Word) (n : Nat) (need : Need) : State × Probe :=
  let r := s.probeAt a va n need
  (r.1.drawn, r.2)

/-- The locations of the entries that a second-stage walk reads. -/
def State.reads2 (s : State) (root2 : Word) (ppa : Nat) : List Nat :=
  if root2.getLsbD 63 then (walkReads s.readTable ppa 4 (rootTable root2)).map s.fabric.normal else []

/-- The locations of the entries that a first-stage walk reads, with those of the second-stage walks to them. -/
def State.reads1 (s : State) (a : Agent) (va : Nat) : List Nat :=
  if a.root1.getLsbD 63 then
    (walkReads (s.readTable1 a.part a.root2) va 4 (rootTable a.root1)).flatMap fun ppa =>
      s.reads2 a.root2 ppa ++ (match s.stage2In a.part a.root2 ppa false with
        | .ok l => [s.fabric.normal (l.base + ppa % 2 ^ l.bits)]
        | _ => [])
  else []

/-- The valid entries of the partition's region table. -/
def State.regionReads (s : State) (a : Agent) : List Nat :=
  match s.regionTable a.part a.root2 with
  | some loc => (validIndexes s.mem loc).map fun i => loc + 64 * i
  | none => []

/-- What the reads of tables that an access to a page makes leave in the counts and the log of errors: the region table, and
the entries of both stages (R305, R308). -/
def State.noteWalk (s : State) (a : Agent) (va : Word) : State :=
  let t := (s.regionReads a).foldl (fun u loc => u.noteRead loc 64) s
  let mapped := match loadedIn a.part a.root1 va.toNat s.objects with
    | .page l => Walk.ok l
    | _ => s.stage1 a.part a.root1 a.root2 va.toNat
  let second := match mapped with
    | .ok l => s.reads2 a.root2 (l.base + va.toNat % 2 ^ l.bits)
    | _ => []
  (s.reads1 a va.toNat ++ second).foldl (fun u loc => u.noteRead loc 8) t

/-- What the reads of n bytes from an address on leave in the counts and the log of errors: each code word is read once, and
the tables once for each 64 KiB. -/
def State.noteRange (s : State) (a : Agent) (va : Word) : Nat → State
  | 0 => s
  | n + 1 =>
    let t := s.noteRange a va n
    let w := va + BitVec.ofNat 64 n
    let u := if (n = 0 || w.toNat % 65536 = 0) && !inVaultSpace w then t.noteWalk a w else t
    match (s.reachAddr a w .read).2 with
    | .hit h => if n = 0 || h.loc = codeWord h.loc then u.noteRead h.loc 1 else u
    | _ => u

/-- Whether a location of a peer has no path left to it (R287). -/
def State.noPath (s : State) (loc : Nat) : Bool := nodeOf loc != 0 && s.fabric.lost.contains (nodeOf loc)

/-- Whether a read of n bytes meets uncorrectable data or a lost path: fault 0x11 (R125, R287). -/
def State.unreadable (s : State) (loc n : Nat) : Bool := s.poisoned loc n || s.noPath loc

/-! ### The store buffer as a load sees it (R87, R123, R198) -/

/-- Bytes of the word an atomic updates. -/
def AtomicOp.size : AtomicOp → Nat
  | .addBf16 => 2
  | .addBf16U => 2
  | _ => 4

/-- Bytes of an entry's access. -/
def BufEntry.size (e : BufEntry) : Nat :=
  match e.op with
  | .store bs => bs.length
  | .atomic op _ => op.size

/-- The byte a buffered store gives a location; a buffered atomic gives none before the close. -/
def BufEntry.byteAt (e : BufEntry) (loc : Nat) : Option Byte :=
  match e.op with
  | .store bs => if e.loc ≤ loc then bs[loc - e.loc]? else none
  | .atomic _ _ => none

/-- An entry's access and n bytes at a location have a byte in common. -/
def BufEntry.touches (e : BufEntry) (loc n : Nat) : Bool := decide (e.loc < loc + n) && decide (loc < e.loc + e.size)
def BufEntry.meets (e f : BufEntry) : Bool := e.touches f.loc f.size

/-- The loads of a stream have seen an entry. -/
def BufEntry.knownTo (e : BufEntry) (st : BitVec 2) : Bool := e.seen.getLsbD st.toNat
def BufEntry.learn (e : BufEntry) (st : BitVec 2) : BufEntry := { e with seen := e.seen ||| (1#4 <<< st.toNat) }

/-- Where the bytes a load reads come from. -/
structure LoadView where
  stream : BitVec 2
  convoy : Nat
  merged : Bool
deriving DecidableEq, Repr

/-- The entry is of the load's own stream. -/
def LoadView.owns (v : LoadView) (e : BufEntry) : Bool := v.merged || decide (e.stream = v.stream)

/-- The load must see the entry: same stream, an earlier convoy, or merged streams. -/
def LoadView.sees (v : LoadView) (e : BufEntry) : Bool := v.owns e || decide (e.convoy < v.convoy)

/-- A load of stream ST now. -/
def State.view (s : State) (st : BitVec 2) : LoadView :=
  ⟨st, s.hart.strip.convoy, s.hart.csr.mmrev == 1#2⟩

/-- An entry of the load's own stream covers a location. -/
def LoadView.ownAt (v : LoadView) (buf : List BufEntry) (loc : Nat) : Bool :=
  buf.any fun e => v.owns e && (e.byteAt loc).isSome

/-- A store of another stream stands behind a store of the stream for one of n bytes, at position i. -/
def standsOver (st : BitVec 2) (loc n : Nat) (block : List BufEntry) (i : Nat) : Bool :=
  (List.range n).any fun k =>
    (block[i]?).any (fun e => e.stream != st && (e.byteAt (loc + k)).isSome) &&
    (block.take i).any fun a => a.stream == st && (a.byteAt (loc + k)).isSome

/-- A stream's entries of one convoy, from the first that n bytes at a location meet, placed behind the stores of other
streams that stand over them there: bullet 1 of R123 ranks before what loads of a third stream have seen (DESIGN CHOICE,
log 16). -/
def raiseIn (st : BitVec 2) (loc n : Nat) (buf : List BufEntry) (convoy : Nat) : List BufEntry :=
  let before (e : BufEntry) : Bool := !(e.convoy == convoy && e.stream == st && e.touches loc n)
  let rest := buf.dropWhile before
  let block := rest.takeWhile fun e => e.convoy == convoy
  match (List.range block.length).reverse.find? (standsOver st loc n block) with
  | none => buf
  | some j =>
    let part := block.take (j + 1)
    buf.takeWhile before ++ part.filter (fun e => e.stream != st) ++ part.filter (fun e => e.stream == st) ++
      rest.drop (j + 1)

/-- The buffer as a load finds it: in each earlier convoy the stores of its own stream that it meets are the latest
(R123). -/
def LoadView.raised (v : LoadView) (loc n : Nat) (buf : List BufEntry) : List BufEntry :=
  if v.merged then buf
  else (((buf.map BufEntry.convoy).eraseDups.filter fun c => decide (c < v.convoy))).foldl (raiseIn v.stream loc n) buf

/-- The entry is a store that gives one of n bytes at a location. -/
def BufEntry.gives (e : BufEntry) (loc n : Nat) : Bool := (List.range n).any fun i => (e.byteAt (loc + i)).isSome

/-- A load must see an entry: it is of its own stream or an earlier convoy, or its stream has seen it. -/
def LoadView.must (v : LoadView) (loc n : Nat) (e : BufEntry) : Bool := e.gives loc n && (v.sees e || e.knownTo v.stream)

/-- A load that sees a store sees what drains before it in its bytes (R188). So it sees no store of another stream that stands
behind one of its own which it overlaps, nor one behind such a store: `barred` holds those passed. -/
def LoadView.bars (v : LoadView) (loc n : Nat) (barred : List BufEntry) (e : BufEntry) : Bool :=
  if v.owns e then e.gives e.loc e.size else barred.any e.meets && !v.must loc n e

/-- What a load sees of the entries of the buffer: what it must see, what drains before an entry it sees and overlaps that,
and of the other stores that nothing bars any, by a free bit. -/
def State.sight (s : State) (v : LoadView) (loc n : Nat) : List BufEntry → List BufEntry → State × List Bool
  | _, [] => (s, [])
  | barred, e :: r =>
    let bar := v.bars loc n barred e
    let (s1, l) := s.sight v loc n (if bar then e :: barred else barred) r
    let forced := v.must loc n e || (e.gives loc n && (r.zip l).any fun p => p.2 && e.meets p.1)
    if !forced && !bar && e.gives loc n then (s1.drawBit.2, s1.drawBit.1 :: l) else (s1, forced :: l)

/-- The entries of the buffer once a load has looked at them. -/
def LoadView.noted (v : LoadView) (buf : List BufEntry) (seen : List Bool) : List BufEntry :=
  (buf.zip seen).map fun p => if p.2 then p.1.learn v.stream else p.1

/-- The byte a load reads from the buffer: the latest of the stores it must see, and where its own stream has none, of
those it knows. -/
def LoadView.pick (v : LoadView) (buf : List BufEntry) (loc : Nat) : Option Byte :=
  let other := !v.ownAt buf loc
  buf.reverse.findSome? fun e => if v.sees e || (other && e.knownTo v.stream) then e.byteAt loc else none

/-- The entry that the byte comes from is uncorrectable (R306). -/
def LoadView.spoilt (v : LoadView) (buf : List BufEntry) (loc : Nat) : Bool :=
  let other := !v.ownAt buf loc
  (buf.reverse.find? fun e => (v.sees e || (other && e.knownTo v.stream)) && (e.byteAt loc).isSome).any BufEntry.bad

/-- The buffer once a load of n bytes has looked at it. -/
def State.look (s : State) (v : LoadView) (loc n : Nat) : State :=
  if s.stripOpen then
    let buf := v.raised loc n s.hart.strip.buf
    let (s1, l) := s.sight v loc n [] buf
    s1.withStrip { s1.hart.strip with buf := v.noted buf l }
  else s

/-- One byte that a load reads, and whether it came from memory. -/
def State.loadByte (s : State) (v : LoadView) (loc : Nat) : Byte × Bool :=
  match (if s.stripOpen then v.pick s.hart.strip.buf loc else none) with
  | some b => (b, false)
  | none => (s.byte loc, true)

/-- n bytes that a load reads, and whether any byte that came from memory could not be read. -/
def State.loadBytes (s : State) (v : LoadView) (loc n : Nat) : State × List Byte × Bool :=
  let t := s.look v loc n
  let l := (List.range n).map fun i => t.loadByte v (loc + i)
  (if l.any Prod.snd then t.noteRead loc n else t, l.map Prod.fst,
   (List.range n).any fun i => (t.loadByte v (loc + i)).2 && t.unreadable (loc + i) 1)

end Sys2Proof.Machine
end

