-- ==== Sys2Proof/Machine/Flags.lean ====
section
/-! DEFINITION. The flag computations that are shared: elementwise operations with the flags they raise, and the
read-modify-writes of vector atomics (spec/02 R39; spec/07 R129; spec/09 R161). The flags of each rounding function
stand with the number formats in Numbers.lean. -/

namespace Sys2Proof.Machine

/-- A computation run from no flags: its result and the flags it raised. -/
def withFlags {α : Type} (m : FlagM α) : α × FFlags := m.run 0

/-- Whether the atomics of an instruction may be combined (VAADD.U, VACAD.U). -/
def AtomicOp.unordered : AtomicOp → Bool
  | .addF32U => true
  | .addBf16U => true
  | _ => false

/-- The new value of the word from its old value and the operand, with flags (R129, R161). A BF16 word stands in the
low half of the value given and returned. -/
def AtomicOp.apply (op : AtomicOp) (old x : Elem) : Elem × FFlags :=
  match op with
  | .addF32 => withFlags (fadd old x)
  | .addF32U => withFlags (fadd old x)
  | .addBf16 =>
    let r := withFlags (rne16 ((val16 (old.setWidth 16)).add (val32 x)))
    (r.1.setWidth 32, r.2)
  | .addBf16U =>
    let r := withFlags (rne16 ((val16 (old.setWidth 16)).add (val32 x)))
    (r.1.setWidth 32, r.2)
  | .addI => (old + x, 0)
  | .maxI => (if old.slt x then x else old, 0)
  | .minI => (if x.slt old then x else old, 0)
  | .swap => (x, 0)
  | .or => (old ||| x, 0)
  | .and => (old &&& x, 0)

/-- Elements i and j of a pool of partial sums replaced by their FP32 sum (R129). -/
def combinePair (pool : List Elem) (i j : Nat) : List Elem × FFlags :=
  let a := pool.getD i 0
  let rest := pool.eraseIdx i
  let k := j % rest.length
  let r := withFlags (fadd a (rest.getD k 0))
  (r.1 :: rest.eraseIdx k, r.2)

end Sys2Proof.Machine
end

