-- ==== Sys2Proof/Machine/Ops.lean ====
section
/-! DEFINITION. The named operations: the close and the abort of a strip, taking an exception and returning from
one, and the order in which an instruction's faults are judged (spec/01 R25 to R28; spec/05 R95, R99; spec/07 R119,
R129; spec/10 R176, R178). -/

namespace Sys2Proof.Machine

/-! ### Faults (R26, R27) -/

/-- A fault an instruction raises: its cause and the fields of the record that the cause writes. -/
structure FaultInfo where
  cause : BitVec 8
  elem : Nat
  idx0 : Word
  idx1 : Word
  idx2 : Word
  addr : Word
  coord : Word
  info : Word
  /-- the descriptor's delegate bit, for cause 0x0A -/
  deleg : Bool
  /-- no fault but an abort without a record: a scalar register or a buffer entry is uncorrectable (R306) -/
  replay : Bool
deriving DecidableEq, Repr

/-- A cause that writes no field besides fcause, fpc and fstrip. -/
def plainFault (c : BitVec 8) : FaultInfo :=
  { cause := c, elem := 0, idx0 := 0, idx1 := 0, idx2 := 0, addr := 0, coord := 0, info := 0, deleg := false, replay := false }

/-- finfo with REG and OPD alone. -/
def operandInfo (reg : BitVec 5) (opd : Nat) : Word :=
  (reg.setWidth 64 <<< 8) ||| (BitVec.ofNat 64 opd <<< 13)

/-- A cause that names an operand: 0x02, 0x03, 0x04. -/
def operandFault (c : BitVec 8) (reg : BitVec 5) (opd : Nat) : FaultInfo :=
  { plainFault c with info := operandInfo reg opd }

/-- What finfo says of an access: stream, format, direction, scope, register and operand (R26). -/
structure AccessInfo where
  st : BitVec 2
  fmt : BitVec 3
  write : Bool
  scope : BitVec 2
  reg : BitVec 5
  opd : BitVec 3
deriving DecidableEq, Repr

def AccessInfo.word (a : AccessInfo) : Word :=
  a.st.setWidth 64 ||| (a.fmt.setWidth 64 <<< 2) ||| ((if a.write then 1#64 else 0#64) <<< 5) |||
  (a.scope.setWidth 64 <<< 6) ||| (a.reg.setWidth 64 <<< 8) ||| (a.opd.setWidth 64 <<< 13)

/-- A cause that names an element and an address: 0x07 to 0x09, 0x10 to 0x12, 0x14. -/
def elementFault (c : BitVec 8) (e : Nat) (va : Word) (a : AccessInfo) : FaultInfo :=
  { plainFault c with elem := e, idx0 := BitVec.ofNat 64 e, addr := va, info := a.word }

/-- The abort of an open strip that meets an uncorrectable scalar register or buffer entry (R306). -/
def replayFault : FaultInfo := { plainFault 0x11 with replay := true }

/-- The first fault of a list of conditions, each judged only when no earlier one holds (R28). -/
def firstFault : List (Unit → Option FaultInfo) → Option FaultInfo
  | [] => none
  | c :: r =>
    match c () with
    | some f => some f
    | none => firstFault r

/-- A fault when a condition holds. -/
def faultIf (c : Bool) (f : FaultInfo) : Option FaultInfo := if c then some f else none

/-! ### The abort of a strip (R178) -/

/-- What marks matrix state once one bank of accumulators is copied over the other (R305, R306). -/
def discardMarks (b : BitVec 41) : BitVec 41 := (b &&& ~~~0xF000#41) ||| ((b <<< 4) &&& 0xF000#41)
def commitMarks (b : BitVec 41) : BitVec 41 := (b &&& ~~~0xF00#41) ||| ((b >>> 4) &&& 0xF00#41)

/-- The pending bank of the matrix state that a hart owns becomes its committed bank again. -/
def discardPending (m : Option Matrix) (owner : Nat) : Option Matrix :=
  m.map fun x =>
    if x.owner = owner then { x with pend := x.acc, pendTags := x.tags, damaged := discardMarks x.damaged,
                                     weak := discardMarks x.weak }
    else x

/-- The pending bank becomes the committed bank. -/
def commitPending (m : Option Matrix) (owner : Nat) : Option Matrix :=
  m.map fun x =>
    if x.owner = owner then { x with acc := x.pend, tags := x.pendTags, damaged := commitMarks x.damaged,
                                     weak := commitMarks x.weak }
    else x

/-- Matrix state of which a write has covered the marked parts whole (R305). -/
def Matrix.rewrote (m : Matrix) (parts : BitVec 41) : Matrix :=
  { m with damaged := m.damaged &&& ~~~parts, weak := m.weak &&& ~~~parts }

/-- A hart that waited inside an aborted strip issues again. -/
def RunState.resumed (r : RunState) : RunState :=
  match r with
  | .waiting _ => .running
  | r => r

/-- A hart after the abort of its open strip: the checkpoint restored, the store buffer discarded, the pc at the
strip's GRANT. -/
def Hart.aborted (h : Hart) : Hart :=
  let cp := h.strip.cp
  { h with
    run := h.run.resumed, pc := cp.pc, regs := cp.regs, loops := cp.loops,
    csr := { h.csr with ncarry := cp.ncarry, fflags := cp.fflags, step := cp.step, so := false, vl := 0,
                        mseqStep := 0, mseqAct := false },
    strip := { h.strip with buf := [], used := 0 },
    upsets := { h.upsets with scalar := h.upsets.checkpoint, weak := h.upsets.weak &&& ~~~0xFFFFFFFF#112 },
    ctl := { h.ctl with protectedStrip := false } }

/-- The open strip of the hart in front aborted. -/
def State.abort (s : State) : State :=
  { s with hart := s.hart.aborted, core := { s.core with matrix := discardPending s.core.matrix s.cur } }

/-- The open strip of any hart aborted. A strip saved open is restored as an aborted one. -/
def State.abortAt (s : State) (h : Nat) : State :=
  let c := s.coreAt (coreOf h)
  let saved := match tget s.saved h with
    | some k => tput s.saved h { k with cut := true }
    | none => s.saved
  { (s.setHartAt h (s.hartAt h).aborted).setCoreAt (coreOf h) { c with matrix := discardPending c.matrix h } with
    saved := saved }

/-! ### The close of a strip (R119) -/

/-- A held write of the workgroup that runs on a hart. -/
def HeldWrite.of (w : HeldWrite) (hart : Nat) : Bool := decide (w.hart = hart) && w.ended == 0

/-- A write of the hart in front that later accesses of one of its streams wait for is held (R119, R192, R287). -/
def State.behind (s : State) (st : BitVec 2) : Bool :=
  s.fabric.held.any fun w => w.of s.cur && w.blocks.getLsbD st.toNat

/-- A write set aside until its path returns and the writes before it in its stream are performed. -/
def State.hold (s : State) (e : BufEntry) : State :=
  let w : HeldWrite :=
    { hart := s.cur, ended := 0, part := s.hart.ctl.part,
      blocks := if s.hart.csr.mmrev = 1#2 then 0xF#4 else 1#4 <<< e.stream.toNat, entry := e }
  { s with fabric := { s.fabric with held := s.fabric.held ++ [w] } }

/-- The write cannot be performed yet. -/
def State.heldBack (s : State) (e : BufEntry) : Bool := s.noPath e.loc || s.behind e.stream

/-- The agent number of an engine queue among the writes sent to peers: above every hart's and stream's. -/
def engineAgent (hart queue : Nat) : Nat := 2 ^ 33 + 4 * hart + queue

/-- A write of an agent, of which some workgroups have ended since it issued the write: a peer may still reject it, and the
bytes it is about to replace are kept (R282). -/
def State.sendingOf (s : State) (agent ended loc n : Nat) : State :=
  if nodeOf loc = 0 then s
  else
    { s with fabric := { s.fabric with
      sent := s.fabric.sent ++ [{ agent := agent, ended := ended, loc := loc, old := s.bytes loc n }] } }

def State.sending (s : State) (agent loc n : Nat) : State := s.sendingOf agent 0 loc n

/-- The bytes that a write of the hart in front is about to replace, which the engines may still read (R170) and a
rejection gives back (R282). -/
def State.replacing (s : State) (loc n : Nat) : State :=
  let t := s.sending s.cur loc n
  { t with hart := { t.hart with unordered := (loc, s.bytes loc n) :: t.hart.unordered } }

/-- Partial sums of unordered atomics combined in a free tree (R129). -/
def State.combine (s : State) : Nat → List Elem → State × List Elem × FFlags
  | 0, pool => (s, pool, 0)
  | n + 1, pool =>
    if pool.length ≤ 1 then (s, pool, 0)
    else
      let (stop, s1) := s.drawBit
      if stop then (s1, pool, 0)
      else
        let (i, s2) := s1.drawNat pool.length
        let (j, s3) := s2.drawNat pool.length
        let r := combinePair pool i j
        let (s4, p, fl) := s3.combine n r.1
        (s4, p, r.2 ||| fl)

/-- The word at a location read, combined with one operand and written, at its home memory (R284). -/
def State.update (s : State) (op : AtomicOp) (loc : Nat) (x : Elem) : State × FFlags :=
  let r := op.apply (BitVec.ofNat 32 (s.readNat loc op.size)) x
  ((s.noteRead loc op.size).write loc (leBytes op.size r.1.toNat), r.2)

/-- One operand of the hart in front applied to the word at a location. -/
def State.applyAt (s : State) (op : AtomicOp) (loc : Nat) (x : Elem) : State × FFlags :=
  (s.replacing loc op.size).update op loc x

/-- The partial sums applied in a free order. -/
def State.applyAll (s : State) (op : AtomicOp) (loc : Nat) : Nat → List Elem → State × FFlags
  | 0, _ => (s, 0)
  | _ + 1, [] => (s, 0)
  | n + 1, x :: r =>
    let (k, s1) := if r.isEmpty then (0, s) else s.drawNat (r.length + 1)
    let (s2, f) := s1.applyAt op loc ((x :: r).getD k 0)
    let (s3, g) := s2.applyAll op loc n ((x :: r).eraseIdx k)
    (s3, f ||| g)

/-- Entries of one unordered instruction at one word. -/
def BufEntry.sameTree (e f : BufEntry) : Bool :=
  match e.op, f.op with
  | .atomic op _, .atomic op' _ => op.unordered && op == op' && e.instr == f.instr && e.loc == f.loc
  | _, _ => false

def BufEntry.operand (e : BufEntry) : Elem :=
  match e.op with
  | .atomic _ x => x
  | .store _ => 0

/-- The buffered accesses performed in an order, with the flags of the atomics. The partial sums of one instruction
at one word are applied at the place of the first (DESIGN CHOICE, log 16). A write that finds no path to its peer, or that
stands behind such a write in its stream, is held (R119, R287). -/
def State.drain (s : State) : Nat → List BufEntry → State × FFlags
  | 0, _ => (s, 0)
  | _ + 1, [] => (s, 0)
  | n + 1, e :: r =>
    if s.heldBack e then (s.hold e).drain n r
    else
      match e.op with
      | .store bs => ((s.replacing e.loc bs.length).write e.loc bs).drain n r
      | .atomic op x =>
        if op.unordered then
          let same := r.filter e.sameTree
          let (s1, pool, f) := s.combine same.length (x :: same.map BufEntry.operand)
          let (s2, g) := s1.applyAll op e.loc pool.length pool
          let (s3, k) := s2.drain n (r.filter fun q => !e.sameTree q)
          (s3, f ||| g ||| k)
        else
          let (s1, f) := s.applyAt op e.loc x
          let (s2, g) := s1.drain n r
          (s2, f ||| g)

/-- A buffered atomic whose word cannot be read, the earliest instruction first, then the lowest element (R119). -/
def State.badAtomic (s : State) (buf : List BufEntry) : Option BufEntry :=
  let bad := buf.filter fun e =>
    match e.op with
    | .atomic op _ => s.poisoned e.loc op.size
    | .store _ => false
  bad.foldl (fun best e =>
    match best with
    | none => some e
    | some b => if e.instr < b.instr || (e.instr == b.instr && decide (e.elem < b.elem)) then some e else some b) none

/-- Every buffered access performed, its flags in fflags. -/
def State.drainAll (s : State) : State :=
  let (t, fl) := s.drain s.hart.strip.buf.length s.hart.strip.buf
  t.orFlags fl

/-- The hart and its matrix state once the buffer has drained (R119 steps 3 and 4). -/
def State.closed (s : State) : State :=
  let h := s.hart
  { s with
    hart := { h with
      csr := { h.csr with so := false, vl := 0 },
      strip := { h.strip with buf := [], used := 0, readFirst := 0, written := 0 },
      ctl := { h.ctl with protectedStrip := false } },
    core := { s.core with matrix := commitPending s.core.matrix s.cur } }

/-- The close of the open strip: an uncorrectable entry (R306), the fault 0x11 of an atomic that cannot read, or the state
after it. -/
def State.close (s : State) : Except FaultInfo State :=
  if s.stripOpen then
    if s.hart.strip.buf.any BufEntry.bad then .error replayFault
    else match s.badAtomic s.hart.strip.buf with
    | some e =>
      let info : AccessInfo := { st := e.stream, fmt := 0, write := true, scope := 1, reg := e.reg, opd := 0 }
      .error (elementFault 0x11 e.elem e.va info)
    | none => .ok s.drainAll.closed
  else .ok s

/-! ### Taking an exception and returning from one (R25, R26, R95) -/

/-- The fault record of a fault at the pc (R26). -/
def State.recordOf (s : State) (f : FaultInfo) (dlg : Bool) : FaultRecord :=
  { fcause := f.cause.setWidth 64 ||| (if s.stripOpen then 0x100#64 else 0) ||| (if dlg then 0x200#64 else 0),
    fpc := s.hart.pc,
    fstrip := if s.stripOpen then s.hart.strip.cp.pc else 0,
    felem := BitVec.ofNat 64 (f.elem % 8192), fidx0 := f.idx0, fidx1 := f.idx1, fidx2 := f.idx2,
    faddr := f.addr, fcoord := f.coord, finfo := f.info }

def State.withRecord (s : State) (r : FaultRecord) : State := { s with hart := { s.hart with record := r } }

/-- The loops of a trap: set aside when taken at U, discarded when taken at S (R95). -/
def Hart.trapLoopsAfter (h : Hart) : List Loop := if h.priv == .user then h.loops else h.trapLoops

/-- The trap to S with a resume address; the hart stops and Husk is told while tvec is 0. -/
def State.trap (s : State) (c : BitVec 8) (so : Bool) (resume : Word) : State :=
  let h := s.hart
  let sup := { h.sup with tcause := c, tepc := resume, pp := h.priv, so := so }
  if h.sup.tvec = 0 then
    ({ s with hart := { h with sup := sup, run := .stopped c, pc := resume } } : State).report (.trapUnset s.cur c)
  else
    { s with hart := { h with sup := sup, trapLoops := h.trapLoopsAfter, loops := [], priv := .supervisor,
                              pc := h.sup.tvec, run := .running } }

/-- s24 to s31 exchanged with the other bank (R172). -/
def Hart.swapBank (h : Hart) : Hart :=
  { h with
    upsets := { h.upsets with
      scalar := h.upsets.bank ++ h.upsets.scalar.extractLsb' 0 24, bank := h.upsets.scalar.extractLsb' 24 8,
      weak := h.upsets.weak.extractLsb' 40 72 ++ (h.upsets.weak.extractLsb' 24 8 ++
        (h.upsets.weak.extractLsb' 32 8 ++ h.upsets.weak.extractLsb' 0 24)) },
    regs := Vector.ofFn fun i => if 24 ≤ i.val then h.ui.bank[i.val - 24]'(by omega) else h.regs[i],
    ui := { h.ui with bank := Vector.ofFn fun i => h.regs[i.val + 24] } }

/-- Entry to the user handler with a cause and a resume address (R172). -/
def State.enterHandler (s : State) (kind queue : BitVec 2) (value : BitVec 56) (resume : Word) : State :=
  let h := s.hart
  let shadow : Vector Word 8 := (Vector.replicate 8 0).set 6 h.ui.uistk
  let h1 := { h with ui := { h.ui with bank := shadow }, upsets := { h.upsets with bank := 0, weak := h.upsets.weak &&& ~~~(0xFF#112 <<< 32) } }.swapBank
  { s with
    hart := { h1 with
      ui := { h1.ui with kind := kind, queue := queue, value := value, uiepc := resume, loops := h.loops,
                         inHandler := true },
      loops := [], pc := h.ui.uivec, run := .running } }

/-- The freeze of fault 0x12 (R27): no trap, a report to Pip and Husk; the hart stops at the faulting instruction. -/
def State.freeze (s : State) (va : Word) : State := (s.withRun .frozen).report (.violation s.cur va)

/-- The record of an uncorrectable word of a core's registers (R308). -/
def State.coreRecord (s : State) : ErrorRecord :=
  let core := coreOf s.cur
  { die := dieOf core, kind := 2, unit := 3, part := s.hart.ctl.part, count := 0, location := unitPlace core 0 }

/-- The open strip aborted for an uncorrectable register or entry, with no fault record; the replay begins at its GRANT
(R306). -/
def State.replayed (s : State) : State := s.abort.logError s.coreRecord

/-- A fault of the instruction at the pc taken (R25), or the abort that R306 has in its place. -/
def State.takeFault (s : State) (f : FaultInfo) : State :=
  if f.replay then s.replayed else
  let so := s.stripOpen
  let dlg := f.cause == 0x0A#8 && f.deleg && s.hart.ui.uivec != 0
  let s1 := s.withRecord (s.recordOf f dlg)
  let s2 := if so then s1.abort else s1
  if f.cause = 0x12#8 then (s2.withHart { s2.hart with pc := s.hart.pc }).freeze f.addr
  else if dlg then s2.enterHandler 2 0 0 s2.hart.pc
  else s2.trap f.cause so s2.hart.pc

/-- ECALL and EBREAK: the strip is closed and the hart resumes after the instruction; a close that meets
uncorrectable data takes fault 0x11 instead (R25, R119). -/
def State.takeCall (s : State) (c : BitVec 8) : State :=
  match s.close with
  | .error f => s.takeFault f
  | .ok s1 => (s1.withRecord (s.recordOf (plainFault c) false)).trap c s.stripOpen (s.hart.pc + 4)

/-- TRET: to tepc at the privilege before the trap; a return to U takes up the loops set aside (R95, R99). -/
def State.trapReturn (s : State) : State :=
  let h := s.hart
  match h.sup.pp with
  | .user => { s with hart := { h with priv := .user, loops := h.trapLoops, trapLoops := [], pc := h.sup.tepc } }
  | .supervisor => { s with hart := { h with priv := .supervisor, loops := [], pc := h.sup.tepc } }

/-- UIRET: the bank and the loops of the interrupted code are taken up (R173). -/
def State.handlerReturn (s : State) : State :=
  let h := s.hart.swapBank
  { s with hart := { h with loops := h.ui.loops, ui := { h.ui with inHandler := false, loops := [] },
                            pc := h.ui.uiepc } }

/-- The next state of an instruction that faults. -/
def faulted (s : State) (f : FaultInfo) : Out := .next (s.takeFault f)

/-- The first fault that holds is taken; without one the instruction goes on. -/
def guarded (s : State) (checks : List (Unit → Option FaultInfo)) (k : Unit → Out) : Out :=
  match firstFault checks with
  | some f => faulted s f
  | none => k ()

/-- The open strip closed, then the instruction goes on (R119). -/
def closing (s : State) (k : State → Out) : Out :=
  match s.close with
  | .error f => faulted s f
  | .ok s1 => k s1

end Sys2Proof.Machine
end

