-- ==== Sys2Proof/Machine/Operands.lean ====
section
/-! DEFINITION. Operand forms of vector instructions: groups, element classes, the second operand, staleness, the
strip contract and the issue checks (spec/01 R16 to R19; spec/03 R62, R71; spec/06 R102 to R105; spec/08 R138). -/

namespace Sys2Proof.Machine

/-! ### Elements and masks -/

/-- Elements of the open strip, tail included: RC × GVL. -/
def State.span (s : State) : Nat := s.rows * s.gvl

def VReg.elem (v : VReg) (i : Nat) : Elem := if v.stale then 0 else cget v.cells i
def MReg.bit (m : MReg) (i : Nat) : Bool := !m.stale && m.bits.getLsbD i

def State.vreg (s : State) (n : Nat) : VReg := (s.hart.vregs[n]?).getD .reset
def State.mreg (s : State) (n : Nat) : MReg := (s.hart.mregs[n]?).getD .reset

/-- Strip element e of a group lies in register n + e div GVL at index e mod GVL (R18). -/
def State.elem (s : State) (n : BitVec 5) (e : Nat) : Elem := (s.vreg (n.toNat + e / s.gvl)).elem (e % s.gvl)

/-- Bit e of a mask; dark bits read 0 (R18). -/
def State.maskBit (s : State) (m : Nat) (e : Nat) : Bool := decide (e < s.span) && (s.mreg m).bit e

/-- Active(e) under the predicate field M (R17, R18). -/
def State.active (s : State) (m : BitVec 3) (e : Nat) : Bool :=
  decide (e < s.vl) && (decide (m = 0) || s.maskBit m.toNat e)

/-- The active elements in ascending order. -/
def State.actives (s : State) (m : BitVec 3) : List Nat := (List.range s.vl).filter (s.active m)

/-- Cells of the first n keys given by a function, and the listed cells above them. -/
def tabulate {w : Nat} (n : Nat) (f : Nat → BitVec w) (old : Cells w) : Cells w :=
  (List.range n).filterMap (fun i => if f i = 0 then none else some (i, f i)) ++ ckeep (fun k => decide (n ≤ k)) old

/-- The value of element e once an instruction has written `res` where it is given: masked-off elements keep
theirs, tail elements follow TP (R18, R103). -/
def State.resultAt (s : State) (res : Nat → Option Elem) (old : Elem) (e : Nat) : Elem :=
  if e < s.vl then (res e).getD old else if s.hart.csr.tp then 0 else old

/-- An instruction writes element e: it is given a result, or it is a tail element set to +0. -/
def State.writesElem (s : State) {α : Type} (res : Nat → Option α) (e : Nat) : Bool :=
  if e < s.vl then (res e).isSome else s.hart.csr.tp

/-- The registers of a group of which every element in use is written, or that were stale: none of their code words stays
uncorrectable (R305). -/
def State.rewritten (s : State) (d : BitVec 5) (res : Nat → Option Elem) : BitVec 32 :=
  (List.range s.rows).foldl (fun b r =>
    if (s.vreg (d.toNat + r)).stale || (List.range s.gvl).all fun i => s.writesElem res (r * s.gvl + i)
    then b ||| (1#32 <<< (d.toNat + r)) else b) 0

/-- A destination group written: its registers become fresh, and what a stale one does not receive is +0 (R104). -/
def State.setGroup (s : State) (d : BitVec 5) (res : Nat → Option Elem) : State :=
  let g := s.gvl
  let row (old : VReg) (r : Nat) : VReg :=
    ⟨false, tabulate g (fun i => s.resultAt res (old.elem i) (r * g + i)) (if old.stale then [] else old.cells)⟩
  { s with hart := { s.hart with
    vregs := Vector.ofFn fun i =>
      if d.toNat ≤ i.val ∧ i.val < d.toNat + s.rows then row s.hart.vregs[i] (i.val - d.toNat) else s.hart.vregs[i],
    upsets := { s.hart.upsets with
      vector := s.hart.upsets.vector &&& ~~~(s.rewritten d res),
      weak := s.hart.upsets.weak &&& ~~~((s.rewritten d res).setWidth 112 <<< 72) } } }

/-- The bits below n given by a function. -/
def bitsOf (f : Nat → Bool) : Nat → Nat
  | 0 => 0
  | n + 1 => bitsOf f n + (if f n then 2 ^ n else 0)

/-- A destination mask written bit by bit (R18, R103). -/
def State.setMask (s : State) (d : Nat) (res : Nat → Option Bool) : State :=
  let old := s.mreg d
  let bit (e : Nat) : Bool :=
    if e < s.vl then (res e).getD (old.bit e) else if s.hart.csr.tp then false else old.bit e
  let low := bitsOf bit s.span
  let high : MaskBits := if old.stale then 0 else old.bits >>> s.span <<< s.span
  let whole := old.stale || (List.range s.span).all fun e => s.writesElem res e
  { s with hart := { s.hart with
    mregs := s.hart.mregs.setIfInBounds d ⟨false, BitVec.ofNat 8192 low ||| high⟩,
    upsets := if whole then { s.hart.upsets with mask := s.hart.upsets.mask &&& ~~~(1#8 <<< d),
                                                 weak := s.hart.upsets.weak &&& ~~~(1#112 <<< (104 + d)) }
              else s.hart.upsets } }

/-! ### Units of the strip contract (R104, R138, R159) -/

/-- An operand that an instruction reads or writes, by its unit, and what a record names. -/
structure Use where
  unit : Nat
  reg : BitVec 5
  opd : Nat
deriving DecidableEq, Repr

def bandUnit : Nat := 48

/-- The registers of a vector group. -/
def State.vUse (s : State) (n : BitVec 5) (opd : Nat) : List Use :=
  (List.range s.rows).map fun i => ⟨n.toNat + i, BitVec.ofNat 5 (n.toNat + i), opd⟩

/-- A mask named by a data field. -/
def mUse (n : BitVec 5) (opd : Nat) : List Use := [⟨32 + n.toNat, n, opd⟩]

/-- The predicate, unless the instruction is unmasked. -/
def pUse (m : BitVec 3) : List Use := if m = 0 then [] else [⟨32 + m.toNat, m.setWidth 5, 3⟩]

def tUse (n : BitVec 5) (opd : Nat) : List Use := [⟨40 + n.toNat % 8, n, opd⟩]
def bandUse (n : BitVec 5) (opd : Nat) : List Use := [⟨bandUnit, n, opd⟩]
def slotUse (n : BitVec 2) (opd : Nat) : List Use := [⟨49 + n.toNat, n.setWidth 5, opd⟩]

/-! Units above 52 are none of the contract (R138) but may hold an uncorrectable word: the accumulators of the bank in use 53
to 56, the slots of the cells 57 to 72, the knot registers 73 to 80, the selectors 81. -/

def accUse (n : BitVec 5) (opd : Nat) : List Use := [⟨53 + n.toNat % 4, n, opd⟩]
def slotPlaneUse (slot : Nat) (n : BitVec 5) (opd : Nat) : List Use := [⟨57 + slot % 16, n, opd⟩]
/-- All knot registers and the selectors. -/
def knotsUse (n : BitVec 5) (opd : Nat) : List Use := (List.range 9).map fun i => ⟨73 + i, n, opd⟩
/-- The cells with their knots and selectors. -/
def cellsUse (n : BitVec 5) (opd : Nat) : List Use := ((List.range 16).flatMap fun i => slotPlaneUse i n opd) ++ knotsUse n opd

/-- Whether a unit is a stale register. -/
def State.unitStale (s : State) (u : Nat) : Bool :=
  if u < 32 then (s.vreg u).stale else if u < 40 then (s.mreg (u - 32)).stale else false

/-- R104 item 1. Of several stale sources the first in the order of `reads`, and of a group the lowest register, is named
(DESIGN CHOICE, log 18). -/
def State.staleCheck (s : State) (reads : List Use) : Option FaultInfo :=
  (reads.find? fun u => s.unitStale u.unit).map fun u => operandFault 0x04 u.reg u.opd

/-- The set of units with one more. -/
def markUnit (b : BitVec 53) (u : Nat) : BitVec 53 := b ||| (1#53 <<< u)

/-- The read-first marks once an instruction's reads are marked (R104 item 2). -/
def State.readMarks (s : State) (reads : List Use) : BitVec 53 :=
  reads.foldl (fun b u => if s.hart.strip.written.getLsbD u.unit then b else markUnit b u.unit) s.hart.strip.readFirst

/-- R104 item 2, in an open strip. -/
def State.contractCheck (s : State) (reads writes : List Use) : Option FaultInfo :=
  if s.stripOpen then
    let marks := s.readMarks reads
    (writes.find? fun u => marks.getLsbD u.unit).map fun u => operandFault 0x03 u.reg u.opd
  else none

/-- The marks after an instruction that passes. -/
def State.mark (s : State) (reads writes : List Use) : State :=
  if s.stripOpen then
    s.withStrip { s.hart.strip with
      readFirst := s.readMarks reads,
      written := writes.foldl (fun b u => markUnit b u.unit) s.hart.strip.written }
  else s

/-! ### Issue checks (R28, R71, R105) -/

/-- A vector group must begin at a multiple of the open strip's RC (R19). -/
def State.alignCheck (s : State) (n : BitVec 5) (opd : Nat) : Option FaultInfo :=
  faultIf (s.stripOpen && n.toNat % s.rows != 0) (operandFault 0x02 n opd)

/-- A mask data field lies in 0 to 7 (R66). -/
def maskCheck (n : BitVec 5) (opd : Nat) : Option FaultInfo := faultIf (decide (7 < n.toNat)) (operandFault 0x02 n opd)

/-- A strip-bound instruction needs an open strip (R30). -/
def State.stripCheck (s : State) : Option FaultInfo := faultIf (!s.stripOpen) (plainFault 0x05)

/-- An unordered form under det.DET = 1 (R105, R136, R174). -/
def State.detCheck (s : State) (unordered : Bool) : Option FaultInfo :=
  faultIf (unordered && s.hart.csr.det) (plainFault 0x06)

/-- An encoding that is no instruction (R70). -/
def illegal : FaultInfo := plainFault 0x01

/-! ### Uncorrectable registers (R306) -/

/-- The mark of matrix state that a unit above the masks has; the band and the descriptor slots have none of their own. -/
def State.matrixMark (s : State) (u : Nat) : Option Nat :=
  if u < 48 then some (u - 40)
  else if u < 53 then none
  else if u < 57 then some (u - 45 + if s.stripOpen then 4 else 0)
  else if u < 82 then some (u - 41)
  else none

/-- Whether a unit holds an uncorrectable code word. -/
def State.unitDamaged (s : State) (u : Nat) : Bool :=
  if u < 32 then s.hart.upsets.vector.getLsbD u
  else if u < 40 then s.hart.upsets.mask.getLsbD (u - 32)
  else (s.matrixMark u).any fun k => s.ownMatrix.any fun m => m.damaged.getLsbD k

/-- Whether a unit holds an error that a read corrects (R305). -/
def State.unitWeak (s : State) (u : Nat) : Bool :=
  if u < 40 then s.hart.upsets.weak.getLsbD (72 + u)
  else (s.matrixMark u).any fun k => s.ownMatrix.any fun m => m.weak.getLsbD k

/-! The cells of a hart that may hold an error which a read corrects are numbered like the bits of `Upsets.weak`, and from 112
on like those of `Matrix.weak`. -/

def State.cellWeak (s : State) (i : Nat) : Bool :=
  if i < 112 then s.hart.upsets.weak.getLsbD i else s.ownMatrix.any fun m => m.weak.getLsbD (i - 112)

/-- The key of a cell's count of corrected errors: above every location's. -/
def State.cellKey (s : State) (i : Nat) : Nat := 2 ^ 60 + 256 * s.cur + i

/-- One error of a cell corrected on a read: counted and recorded (R305, R308). -/
def State.correctCell (s : State) (i : Nat) : State :=
  let n := (tget s.repair.corrected (s.cellKey i)).getD 0 + 1
  ({ s with repair := { s.repair with corrected := tput s.repair.corrected (s.cellKey i) n } } : State).logError
    { s.coreRecord with kind := 1, unit := if i < 112 then 3 else 4, count := n }

def State.correctCells (s : State) (l : List Nat) : State := l.foldl State.correctCell s

/-- The cells of a unit. -/
def State.unitCells (s : State) (u : Nat) : List Nat := if u < 40 then [72 + u] else ((s.matrixMark u).map fun k => 112 + k).toList

/-- The first operand read that holds one. -/
def State.damagedUse (s : State) (reads : List Use) : Option Use := reads.find? fun u => s.unitDamaged u.unit

/-- A count of a list of counts grown by 1. -/
def countUp (l : List (Nat × Nat)) (k : Nat) : List (Nat × Nat) := tput l k ((tget l k).getD 0 + 1)

/-- An uncorrectable word of a unit met: counted for its slice or its tile row (R309), and recorded (R308). Which slice or
row holds the word is free. -/
def State.meetDamage (s : State) (u : Use) : State :=
  let core := coreOf s.cur
  if u.unit < 40 then
    let (i, t) := s.drawNat 16
    ({ t with repair := { t.repair with sliceErrors := countUp t.repair.sliceErrors (16 * core + i) } } : State).logError
      { s.coreRecord with location := unitPlace core i }
  else
    let rows := (s.ownMatrix.map fun m => m.rows).getD []
    let (i, t) := s.drawNat rows.length
    ({ t with repair := { t.repair with
      rowErrors := countUp t.repair.rowErrors (16 * clusterOf core + rows.getD i 0) } } : State).logError
      { s.coreRecord with unit := 4 }

/-- Fault 0x11 of an operand that cannot be read. -/
def damagedFault (s : State) (u : Use) : Out := faulted (s.meetDamage u) (operandFault 0x11 u.reg 7)

/-- The instruction goes on when every operand it reads can be read. -/
def readable (s : State) (reads : List Use) (k : Unit → Out) : Out :=
  match s.damagedUse reads with
  | some u => damagedFault s u
  | none => k ()

/-- What a strip-bound vector instruction checks at issue: its operand fields in the order D, A, B, M, an open strip,
its determinism class, stale sources, the contract, and its later checks; then its operands are read. -/
def vectorIssueWith (s : State) (fields : List (Unit → Option FaultInfo)) (unordered : Bool) (reads writes : List Use)
    (later : List (Unit → Option FaultInfo)) (k : State → Out) : Out :=
  guarded s
    (fields ++ ((fun _ => s.stripCheck) :: (fun _ => s.detCheck unordered) :: (fun _ => s.staleCheck reads) ::
                (fun _ => s.contractCheck reads writes) :: later))
    fun _ => readable s reads fun _ => k (s.mark reads writes)

/-- One without later checks. -/
def vectorIssue (s : State) (fields : List (Unit → Option FaultInfo)) (unordered : Bool) (reads writes : List Use)
    (k : State → Out) : Out := vectorIssueWith s fields unordered reads writes [] k

/-- A check that a mask's bits decide, where they can be read. -/
def State.underMask (s : State) (m : BitVec 3) (c : Option FaultInfo) : Option FaultInfo :=
  if (s.damagedUse (pUse m)).isSome then none else c

/-! ### The second operand (R62, R102) -/

/-- The alignment of a vector second operand. -/
def State.bAlign (s : State) : BOp → Option FaultInfo
  | .vv n => s.alignCheck n 2
  | _ => none

/-- The registers a second operand reads. -/
def State.bUse (s : State) : BOp → List Use
  | .vv n => s.vUse n 2
  | _ => []

/-- A 5-bit immediate, sign-extended to 32 bits. -/
def simm5 (n : BitVec 5) : Elem := n.signExtend 32

/-- A 5-bit immediate converted exactly to FP32. -/
def simm5F (n : BitVec 5) : Elem := BitVec.ofNat 32 (fp32.round .rne (Num.ofInt n.toInt)).pat

/-- b of element e as FP32. -/
def State.bFloat (s : State) (b : BOp) (e : Nat) : Elem :=
  match b with
  | .vv n => s.elem n e
  | .vs n => (s.x n).setWidth 32
  | .vi n => simm5F n

/-- b of element e as INT32. -/
def State.bInt (s : State) (b : BOp) (e : Nat) : Elem :=
  match b with
  | .vv n => s.elem n e
  | .vs n => (s.x n).setWidth 32
  | .vi n => simm5 n

/-- The shift amount of element e: b[4:0], or the uimm5 (R109). -/
def State.bShift (s : State) (b : BOp) (e : Nat) : Nat :=
  match b with
  | .vv n => (s.elem n e).toNat % 32
  | .vs n => (s.x n).toNat % 32
  | .vi n => n.toNat

/-- An index operand: s[B] as unsigned 64 bits, or the uimm5 (R114, R144). -/
def State.bIndex (s : State) (b : BOp) : Nat :=
  match b with
  | .vv _ => 0
  | .vs n => (s.x n).toNat
  | .vi n => n.toNat

/-! ### Elementwise results (R103) -/

/-- The flags of the active elements of an instruction (R102). -/
def State.flagsOf (s : State) (m : BitVec 3) (op : Nat → Elem × FFlags) : FFlags :=
  (List.range s.vl).foldl (fun f e => if s.active m e then f ||| (op e).2 else f) 0

/-- An elementwise operation written to a vector group, with its flags. -/
def State.elementwise (s : State) (d : BitVec 5) (m : BitVec 3) (op : Nat → Elem × FFlags) : State :=
  (s.setGroup d fun e => if s.active m e then some (op e).1 else none).orFlags (s.flagsOf m op)

/-- An elementwise test written to a mask. -/
def State.maskwise (s : State) (d : Nat) (m : BitVec 3) (op : Nat → Bool) : State :=
  s.setMask d fun e => if s.active m e then some (op e) else none

/-- An elementwise instruction D, A, B, m with a vector destination. `addend` says that D is read too. -/
def vectorOp (s : State) (d a : BitVec 5) (b : BOp) (m : BitVec 3) (addend : Bool)
    (op : State → Nat → Elem × FFlags) : Out :=
  vectorIssue s [fun _ => s.alignCheck d 0, fun _ => s.alignCheck a 1, fun _ => s.bAlign b] false
    ((if addend then s.vUse d 0 else []) ++ s.vUse a 1 ++ s.bUse b ++ pUse m) (s.vUse d 0)
    fun t => finish (t.elementwise d m (op t)) 4

/-- An elementwise instruction D, A, m (VV, B must be zero). -/
def vectorOp1 (s : State) (d a : BitVec 5) (m : BitVec 3) (op : State → Nat → Elem × FFlags) : Out :=
  vectorIssue s [fun _ => s.alignCheck d 0, fun _ => s.alignCheck a 1] false (s.vUse a 1 ++ pUse m) (s.vUse d 0)
    fun t => finish (t.elementwise d m (op t)) 4

/-- A compare D, A, B, m with a mask destination. -/
def compareOp (s : State) (d a : BitVec 5) (b : BOp) (m : BitVec 3) (op : State → Nat → Bool) : Out :=
  vectorIssue s [fun _ => maskCheck d 0, fun _ => s.alignCheck a 1, fun _ => s.bAlign b] false
    (s.vUse a 1 ++ s.bUse b ++ pUse m) (mUse d 0)
    fun t => finish (t.maskwise d.toNat m (op t)) 4

end Sys2Proof.Machine
end

