-- ==== Sys2Proof/Machine/Workgroup.lean ====
section
/-! DEFINITION. The end of a workgroup, and what the loads and stores of scalar form share (spec/05 R86, R87, R90;
spec/09 R164; spec/10 R177). -/

namespace Sys2Proof.Machine

/-! ### Images of halted harts (R292, R293; log 86) -/

/-- Bytes of the save area of one core and of one hart image. -/
def saveBytes : Nat := 4194304
def imageSize : Nat := 0x22A00

/-- Where the image of a hart begins in the save area of its core. -/
def hartImageAt (hart : Nat) : Nat := imageSize * (hart % 2)

/-- Where the hart image of a context in the save area lies. -/
def SavedContext.imageLoc (c : SavedContext) (hart : Nat) : Option Nat := c.area.map fun a => a + hartImageAt hart

/-- The image of a hart that has halted, when it lies in a save area. -/
def State.imageOf (s : State) (hart : Nat) : Option Nat := (tget s.saved hart).bind fun c => c.imageLoc hart

/-- Bits set in a doubleword of the image of a hart that has halted. -/
def State.orImage (s : State) (hart off v : Nat) : State :=
  match s.imageOf hart with
  | some loc => s.write (loc + off) (leBytes 8 (s.readNat (loc + off) 8 ||| v))
  | none => s

/-- Where an image holds fflags, uipend, and the fflags of the checkpoint. -/
def imageFflags : Nat := 0x400 + 16
def imageUipend : Nat := 0x400 + 88
def imageCheckpointFflags : Nat := 0x200 + 336

/-! ### The end of a workgroup (R90, R133, R142, R164) -/

/-- No engine operation of the hart is outstanding. -/
def Hart.enginesIdle (h : Hart) : Bool := h.queues.toList.all fun q => q.ops.isEmpty

/-- The matrix state that hart h owns is given up (R142). -/
def detachOf (m : Option Matrix) (h : Nat) : Option Matrix :=
  match m with
  | some x => if x.owner = h then none else some x
  | none => none

/-- Launches without hart h among the running ones. -/
def launchesWithout (l : List (Nat × Launch)) (h : Nat) : List (Nat × Launch) :=
  tmap (fun _ x => { x with running := x.running.filter (fun k => k != h) }) l

/-- No partition's ordinal is backed by a core (R278). -/
def vacate (core : Nat) (parts : List (Nat × Partition)) : List (Nat × Partition) :=
  tmap (fun _ p => { p with ordinals := p.ordinals.map fun o => if o == some core then none else o }) parts

/-- A hart that does not occupy its core. -/
def Hart.gone (h : Hart) : Bool := h.run == .absent || h.run == .halted

/-- A retired core leaves its ordinals at its workgroups' end (R309). -/
def State.leaveRetired (s : State) : State :=
  if s.core.retired && (s.hartAt (sibling s.cur)).gone then { s with parts := vacate (coreOf s.cur) s.parts } else s

/-- A write sent to a peer is of a hart or of one of its engine queues. -/
def SentWrite.of (w : SentWrite) (hart : Nat) : Bool :=
  decide (w.agent = hart) || (List.range 4).any fun q => decide (w.agent = engineAgent hart q)

/-- The writes held for a hart, and those sent to a peer, outlast its workgroup. -/
def Fabric.orphan (f : Fabric) (hart : Nat) : Fabric :=
  { f with held := f.held.map fun w => { w with ended := w.ended + if w.hart = hart then 1 else 0 },
           sent := f.sent.map fun w => { w with ended := w.ended + if w.of hart then 1 else 0 } }

/-- The override names a hart of the core. -/
def GovCtl.names (g : GovCtl) (hart : Nat) : Bool := g.hart == decide (hart % 2 = 1)

/-- The end of a workgroup that the override names frees the slices of its latest entry (R183). -/
def GovCtl.released (g : GovCtl) (hart : Nat) : GovCtl := if g.names hart then { g with latest := none } else g

/-- The workgroup of the hart in front has ended: locked ranges, descriptor slots and matrix state are given up, and
the hart is free for the walker. -/
def State.workgroupOver (s : State) : State :=
  ({ s with
    hart := { s.hart with run := .absent, locks := [], vdesc := Vector.replicate 4 none, claim := none,
                          unordered := [],
                          ctl := { s.hart.ctl with launch := none, holds := 0, revoked := false, protectedStrip := false,
                                                   preempt := false, rejected := false } },
    core := { s.core with matrix := detachOf s.core.matrix s.cur, gov := s.core.gov.released s.cur },
    fabric := s.fabric.orphan s.cur,
    launches := launchesWithout s.launches s.cur } : State).leaveRetired

/-- A hart that has issued its last instruction ends its workgroup once its engine operations have completed. -/
def State.settle (s : State) : State :=
  if s.hart.run == .ending && s.hart.enginesIdle then s.workgroupOver else s

/-- The hart issues nothing further (R90). -/
def State.endWorkgroup (s : State) : State := (s.withRun .ending).settle

/-! ### Scalar accesses (R86) -/

/-- finfo of a scalar access. -/
def scalarInfo (write : Bool) (scope : BitVec 2) : AccessInfo :=
  { st := 0, fmt := 0, write := write, scope := scope, reg := 0, opd := 0 }

/-- The n bytes at an address reached, or the fault or wait they meet. -/
def scalarAccess (s : State) (va : Word) (n : Nat) (write : Bool) (scope : BitVec 2) (k : State → Hit → Out) : Out :=
  let (s1, p) := s.probe s.self va n (if write then .write else .read)
  match p with
  | .hit h => k s1 h
  | .fault c => faulted s1 (elementFault c 0 va (scalarInfo write scope))
  | .outside => faulted s1 (elementFault 0x12 0 va (scalarInfo write scope))
  | .held => waitAt s1 (.held va)

/-- A held write of the hart in front stands before a load of a stream: the stream waits for it, or the load would read
bytes of it (R119, R191, R192). -/
def State.loadWaits (s : State) (st : BitVec 2) (accesses : List (Nat × Nat)) : Bool :=
  s.behind st || s.fabric.held.any fun w =>
    w.of s.cur && accesses.any fun p => w.entry.touches p.1 p.2

/-- A load would take a byte from an uncorrectable entry of the store buffer (R306). -/
def State.loadSpoilt (s : State) (st : BitVec 2) (accesses : List (Nat × Nat)) : Bool :=
  s.stripOpen && s.hart.strip.buf.any BufEntry.bad &&
  accesses.any fun p => (List.range p.2).any fun i => (s.view st).spoilt s.hart.strip.buf (p.1 + i)

/-- A load that has met no fault goes on once no held write stands before it. -/
def loading (s : State) (st : BitVec 2) (accesses : List (Nat × Nat)) (k : Unit → Out) : Out :=
  if s.loadWaits st accesses then waitAt s .path
  else if s.loadSpoilt st accesses then faulted s replayFault
  else k ()

/-- A scalar load of n bytes in stream st0 (R87). -/
def scalarLoad (s : State) (va : Word) (n : Nat) (scope : BitVec 2) (k : State → Nat → Out) : Out :=
  scalarAccess s va n false scope fun s1 h =>
    let (s2, bs, bad) := s1.loadBytes (s1.view 0) h.loc n
    if bad then faulted s2 (elementFault 0x11 0 va (scalarInfo false scope))
    else loading s1 0 [(h.loc, n)] fun _ => k s2 (leNat bs)

/-- Room in the store buffer for n more entries (R177). -/
def State.roomCheck (s : State) (n : Nat) : Option FaultInfo :=
  faultIf (s.stripOpen && decide (Config.storeBufferEntries < s.hart.strip.used + n)) (operandFault 0x03 0 6)

/-- An entry of the buffer that a new one must follow: it is of the same stream or of an earlier convoy, or they overlap and
a load has seen it (R188, R191). -/
def BufEntry.precedes (f e : BufEntry) : Bool :=
  f.stream == e.stream || f.convoy != e.convoy || (f.meets e && f.seen != 0)

/-- An entry of another stream that overlaps f and is followed by one of f's stream that overlaps it. -/
def holdsBetween (f : BufEntry) : List BufEntry → Bool
  | [] => false
  | e :: r =>
    (e.stream != f.stream && e.convoy == f.convoy && e.meets f && r.any fun g => g.stream == f.stream && g.meets e) ||
    holdsBetween f r

/-- An entry stands between two of one other stream that it overlaps: no load of that stream could see the three as R123
says, each in one position (R188). -/
def caught : List BufEntry → Bool
  | [] => false
  | f :: r => holdsBetween f r || caught r

/-- The places that a new entry may take among those it need not follow, counted from the end of the buffer. -/
def placesFor (buf : List BufEntry) (e : BufEntry) (loose : Nat) : List Nat :=
  (List.range (loose + 1)).filter fun k => !caught (buf.take (buf.length - k) ++ e :: buf.drop (buf.length - k))

/-- An entry put into the store buffer. Streams drain independently (R119): where it meets a buffered access of another
stream it takes any place behind those it must follow, unless the streams are merged (R198) or the hart is deterministic
(R242). -/
def State.place (s : State) (e : BufEntry) : State :=
  let buf := s.hart.strip.buf
  let loose := (buf.reverse.takeWhile fun f => !f.precedes e).length
  let free := s.hart.csr.mmrev != 1#2 && !s.hart.csr.det && (buf.drop (buf.length - loose)).any fun f => f.meets e
  let places := if free then placesFor buf e loose else []
  let (k, s1) := if free then s.drawNat places.length else (0, s)
  let i := buf.length - places.getD k 0
  s1.withStrip { s1.hart.strip with buf := buf.take i ++ e :: buf.drop i }

/-- The accesses of one instruction put into the store buffer, taking n entries. -/
def State.buffer (s : State) (entries : List BufEntry) (n : Nat) : State :=
  let t := entries.foldl State.place s
  t.withStrip { t.hart.strip with used := t.hart.strip.used + n, instrs := t.hart.strip.instrs + 1 }

/-- A write of a hart outside a strip: performed, or held (R87, R287). -/
def State.perform (s : State) (e : BufEntry) (bytes : List Byte) : State :=
  if s.heldBack e then s.hold e else (s.replacing e.loc bytes.length).write e.loc bytes

/-- Whether a write of the hart in front that one of the named streams waits for is held (R287). -/
def State.writesHeld (s : State) (streams : BitVec 4) : Bool :=
  s.fabric.held.any fun w => w.of s.cur && (w.blocks &&& streams) != 0

/-- What waits until the hart's earlier writes of the named streams are performed (R131). -/
def ordered (s : State) (streams : BitVec 4) (k : State → Out) : Out :=
  if s.writesHeld streams then waitAt s .path else k s

/-- The hart's writes so far are ordered before the engine operations it issues from now on (R131, R170). -/
def State.fenced (s : State) : State := { s with hart := { s.hart with unordered := [] } }

/-- An entry of the store buffer in the current convoy. -/
def State.entry (s : State) (st : BitVec 2) (e : Nat) (reg : BitVec 5) (va : Word) (h : Hit) (leaf : Option LeafKey)
    (op : BufOp) : BufEntry :=
  { stream := st, convoy := s.hart.strip.convoy, instr := s.hart.strip.instrs, elem := e, reg := reg, va := va,
    loc := h.loc, page := h.page, leaf := leaf, op := op, seen := 0, bad := false }

/-- A scalar store of the low n bytes of a value: buffered in an open strip, else performed (R87). -/
def scalarStore (s : State) (va : Word) (n : Nat) (reg : BitVec 5) (v : Word) (k : State → Out) : Out :=
  guarded s [fun _ => s.roomCheck 1] fun _ =>
    scalarAccess s va n true 0 fun s1 h =>
      let bytes := leBytes n v.toNat
      let e := s1.entry 0 0 reg va h none (.store bytes)
      if s1.stripOpen then k (s1.buffer [e] 1) else k (s1.perform e bytes)

end Sys2Proof.Machine
end

