-- ==== Sys2Proof/Machine/Atomics.lean ====
section
/-! DEFINITION. Scalar atomics, acquire, release and fences, major 0x24 (spec/07 R130, R131). Each closes an open
strip before its own access. -/

namespace Sys2Proof.Machine

/-- The scopes are GROUP, DEVICE and SYSTEM; 3 to 7 is no encoding (R130). -/
def scopeCheck (c : BitVec 3) : Option FaultInfo := faultIf (decide (2 < c.toNat)) illegal

/-- A SAT instruction: its scope is judged, the strip closed, then its access made. -/
def satOp (s : State) (c : BitVec 3) (k : State → Out) : Out :=
  guarded s [fun _ => scopeCheck c] fun _ => closing s k

/-- The doubleword at an address, read by an instruction that may not touch a skim region (R130). -/
def satRead (s : State) (va : Word) (c : BitVec 3) (write : Bool) (k : State → Hit → Word → Out) : Out :=
  let skim := (s.regionAt s.hart.ctl.part s.hart.sup.xlat2 va).isSome && !inVaultSpace va
  let info := scalarInfo write (c.extractLsb' 0 2)
  let (s1, p) := s.probe s.self va 8 (if write || skim then .write else .read)
  match p with
  | .hit h =>
    let (s2, bs, bad) := s1.loadBytes (s1.view 0) h.loc 8
    if bad then faulted s2 (elementFault 0x11 0 va info)
    else loading s1 0 [(h.loc, 8)] fun _ => k s2 h (BitVec.ofNat 64 (leNat bs))
  | .fault f => faulted s1 (elementFault f 0 va info)
  | .outside => faulted s1 (elementFault 0x12 0 va info)
  | .held => waitAt s1 (.held va)

/-- An atomic read-modify-write of a doubleword: `new` gives what is written, if anything; D receives the old value. -/
def amo (s : State) (d a : BitVec 5) (c : BitVec 3) (new : Word → Option Word) : Out :=
  satOp s c fun s1 =>
    satRead s1 (s1.x a) c true fun s2 h old =>
      let s3 := match new old with
        | some v => (s2.replacing h.loc 8).write h.loc (leBytes 8 v.toNat)
        | none => s2
      finish (s3.setX d old) 4

def execAmoadd (d a b : BitVec 5) (c : BitVec 3) (s : State) : Out := amo s d a c fun old => some (old + s.x b)
def execAmoswp (d a b : BitVec 5) (c : BitVec 3) (s : State) : Out := amo s d a c fun _ => some (s.x b)
def execAmocas (d a b : BitVec 5) (c : BitVec 3) (s : State) : Out :=
  amo s d a c fun old => if old = s.x d then some (s.x b) else none
def execAmomax (d a b : BitVec 5) (c : BitVec 3) (s : State) : Out :=
  amo s d a c fun old => some (if old.slt (s.x b) then s.x b else old)

/-- LDACQ: a doubleword load at its scope, an acquire. -/
def execLdacq (d a : BitVec 5) (c : BitVec 3) (s : State) : Out :=
  satOp s c fun s1 => satRead s1 (s1.x a) c false fun s2 _ v => finish (s2.fenced.setX d v) 4

/-- STREL: a doubleword store at its scope. -/
def execStrel (a b : BitVec 5) (c : BitVec 3) (s : State) : Out :=
  satOp s c fun s0 => ordered s0 0xF fun s1 =>
    scalarAccess s1 (s1.x a) 8 true (c.extractLsb' 0 2) fun s2 h =>
      let bytes := leBytes 8 (s1.x b).toNat
      finish (s2.perform (s2.entry 0 0 b (s1.x a) h none (.store bytes)) bytes) 4

/-- FENCE: the accesses of one hart are performed one after another here, so it waits only for writes held for a
peer (R131). -/
def execFence (c : BitVec 3) (s : State) : Out := satOp s c fun s1 => ordered s1 0xF fun s2 => finish s2.fenced 4

/-- Under MM1 a mask that names a stream names all four (R198). -/
def State.barrierMask (s : State) (k : BitVec 4) : BitVec 4 := if s.hart.csr.mmrev == 1#2 && k != 0 then 0xF else k

/-- A held write of a hart for which the streams of a mask wait too, if a stream of the mask waits for it. -/
def HeldWrite.barred (w : HeldWrite) (hart : Nat) (k : BitVec 4) : HeldWrite :=
  if w.of hart && (w.blocks &&& k) != 0 then { w with blocks := w.blocks ||| k } else w

/-- Later accesses of the named streams wait for the hart's held writes that a named stream waits for. -/
def State.barrier (s : State) (k : BitVec 4) : State :=
  { s with fabric := { s.fabric with held := s.fabric.held.map fun w => w.barred s.cur k } }

/-- SBAR: the hart goes on, and the named streams wait (R131). -/
def execSbar (k : BitVec 4) (c : BitVec 3) (s : State) : Out := satOp s c fun s1 => finish (s1.barrier (s1.barrierMask k)) 4

end Sys2Proof.Machine
end

