-- ==== Sys2Proof/Machine/Csr.lean ====
section
/-! DEFINITION. Control and status registers: the numbers of R21 with their layouts, and the instructions that
access them (spec/01 R20 to R26; spec/02 R46, R53, R54; spec/05 R96, R97; spec/08 R139; spec/09 R171; spec/11 R200;
spec/14 R224; spec/16 R259; spec/19 R300). -/

namespace Sys2Proof.Machine

/-! ### Layouts -/


def UserCsr.vcfg (c : UserCsr) : Word := field c.rc 0 ||| bit c.tp 2 ||| bit c.so 8
def UserCsr.mseq (c : UserCsr) : Word := field c.mseqStep 0 ||| bit c.mseqAct 20
def UserInt.uicause (u : UserInt) : Word := field u.kind 0 ||| field u.queue 2 ||| field u.value 8
def UserInt.uimask (u : UserInt) : Word := field u.maskEq 0 ||| bit u.maskRaise 4 ||| bit u.inHandler 8
def UserInt.uipend (u : UserInt) : Word := field u.pendEq 0 ||| bit u.pendRaise 4
def SupCsr.tstatus (c : SupCsr) : Word := bit (c.pp == .supervisor) 0 ||| bit c.so 1 ||| field c.hpri 4
def GovCtl.govctl (g : GovCtl) : Word :=
  bit g.en 0 ||| bit g.hart 1 ||| field g.len 2 ||| bit g.hold 6 ||| field g.pos 8
def vdescWord (v : Option VDesc) : Word :=
  match v with
  | some d => d.addr ||| 1
  | none => 0

/-- partid (R23). -/
def State.partid (s : State) : Word :=
  BitVec.ofNat 64 (s.hart.ctl.part % 16) ||| bit (s.partAt s.hart.ctl.part).half 4

/-- knot0a to knot3b, by number 0 to 7; 0 without matrix state (R20). -/
def State.knotReg (s : State) (n : BitVec 3) : Word :=
  match s.ownMatrix with
  | some m =>
    let p := m.knots[n.toNat / 2]'(by omega)
    if n.getLsbD 0 then p.b else p.a
  | none => 0

def State.tgrant (s : State) : Word :=
  match s.ownMatrix with
  | some m => BitVec.ofNat 64 m.rows.length
  | none => 0

def State.mvl (s : State) : Word :=
  match s.ownMatrix with
  | some m => BitVec.ofNat 64 m.mvl
  | none => 0

/-- The value of the CSR of a number; none where no CSR has it (R20, R21). -/
def State.csr (s : State) (c : BitVec 11) : Option Word :=
  let u := s.hart.csr
  let p := s.hart.sup
  let i := s.hart.ui
  let r := s.hart.record
  let caps := (s.partAt s.hart.ctl.part).caps
  match c.toNat with
  | 0x000 => some (field u.vl 0)
  | 0x001 => some (field u.gvl 0)
  | 0x002 => some u.vcfg
  | 0x003 => some (field u.rmode 0)
  | 0x004 => some u.ncarry.word
  | 0x005 => some u.step
  | 0x006 => some (field u.fflags 0)
  | 0x007 => some (field u.lse 0)
  | 0x008 => some (bit u.det 0)
  | 0x009 => some (field u.mmrev 0)
  | 0x00A => some u.ggen
  | 0x010 => some u.dim0
  | 0x011 => some u.dim1
  | 0x012 => some u.dim2
  | 0x018 => some s.tgrant
  | 0x019 => some s.mvl
  | 0x020 => some (s.knotReg 0)
  | 0x021 => some (s.knotReg 1)
  | 0x022 => some (s.knotReg 2)
  | 0x023 => some (s.knotReg 3)
  | 0x024 => some (s.knotReg 4)
  | 0x025 => some (s.knotReg 5)
  | 0x026 => some (s.knotReg 6)
  | 0x027 => some (s.knotReg 7)
  | 0x030 => some i.uivec
  | 0x031 => some i.uicause
  | 0x032 => some i.uiepc
  | 0x033 => some i.uimask
  | 0x034 => some i.uipend
  | 0x035 => some i.uistk
  | 0x040 => some (vdescWord s.hart.vdesc[0])
  | 0x041 => some (vdescWord s.hart.vdesc[1])
  | 0x042 => some (vdescWord s.hart.vdesc[2])
  | 0x043 => some (vdescWord s.hart.vdesc[3])
  | 0x050 => some u.mseq
  | 0x200 => some p.tvec
  | 0x201 => some (field p.tcause 0)
  | 0x202 => some p.tepc
  | 0x203 => some p.tstatus
  | 0x210 => some s.core.gov.govctl
  | 0x211 => some s.core.gov.seq0
  | 0x212 => some s.core.gov.seq1
  | 0x213 => some s.core.gov.seq2
  | 0x214 => some s.core.gov.seq3
  | 0x220 => some p.xlat1
  | 0x221 => some p.xlat2
  | 0x222 => some s.partid
  | 0x230 => some (s.partAt s.hart.ctl.part).rgntab
  | 0x400 => some caps.core
  | 0x401 => some caps.slice
  | 0x402 => some caps.arr
  | 0x403 => some caps.vault
  | 0x404 => some caps.hbm
  | 0x405 => some caps.link
  | 0x406 => some caps.eng
  | 0x410 => some caps.feat0
  | 0x411 => some caps.feat1
  | 0x412 => some caps.feat2
  | 0x413 => some caps.feat3
  | 0x414 => some caps.mm
  | 0x415 => some caps.errata
  | 0x416 => some 1
  | 0x500 => some r.fcause
  | 0x501 => some r.fpc
  | 0x502 => some r.fstrip
  | 0x503 => some r.felem
  | 0x504 => some r.fidx0
  | 0x505 => some r.fidx1
  | 0x506 => some r.fidx2
  | 0x507 => some r.faddr
  | 0x508 => some r.fcoord
  | 0x509 => some r.finfo
  | _ => none

/-! ### Writes with behaviour of their own -/

/-- A write to govctl: the written fields at once; POS is 0 after it whether EN is written 1 or 0 (R24). -/
def GovCtl.write (g : GovCtl) (v : Word) : GovCtl :=
  { g with en := v.getLsbD 0, hart := v.getLsbD 1, len := v.extractLsb' 2 4, hold := v.getLsbD 6, pos := 0,
           latest := none }

/-- A write to rgntab: the base of the partition's region table (R200). The model holds no cached region entry. -/
def State.writeRgntab (s : State) (part : Nat) (v : Word) : State :=
  match tget s.parts part with
  | some p => { s with parts := tput s.parts part { p with rgntab := v &&& mask 14 38 } }
  | none => s

/-- An engine operation, a held write or an instruction of the partition that goes on over its turns is under way against its
region table: a write to rgntab completes only after it (R200). -/
def State.tableInUse (s : State) (part : Nat) : Bool :=
  s.fabric.held.any (fun w => decide (w.part = part)) ||
  s.hartIds.any fun h =>
    let x := s.hartAt h
    decide (x.ctl.part = part) && (x.claim.isSome || x.queues.toList.any fun q => !q.ops.isEmpty)

/-- The fields of xlat1 and xlat2. -/
def xlatMask : Word := mask 12 40 ||| mask 63 1

/-- A write to xlat2 takes effect when it names a registered root; else it is reported to Pip (R300). -/
def State.writeXlat2 (s : State) (v : Word) : State :=
  let w := v &&& xlatMask
  if w.getLsbD 63 && (s.partAt s.hart.ctl.part).roots.any (fun r => (r &&& mask 12 40) == (w &&& mask 12 40))
  then s.withSup { s.hart.sup with xlat2 := w }
  else s.report (.rootRefused s.cur v)

/-- Whether a value leaves a knot register valid (R54). -/
def knotValid (n : BitVec 3) (v : Word) : Bool := if n.getLsbD 0 then knotBValid v else knotAValid v

/-- What a write to a knot register is checked for: validity, matrix state, the contract of the band (R28, R54,
R138). `reg` is the low five bits of the CSR number. -/
def State.knotChecks (s : State) (n : BitVec 3) (reg : BitVec 5) (v : Word) : List (Unit → Option FaultInfo) :=
  [fun _ => faultIf (!knotValid n v) (operandFault 0x02 reg 5),
   fun _ => faultIf s.ownMatrix.isNone (plainFault 0x0F),
   fun _ => s.contractCheck [] (bandUse reg 5)]

/-- One register of a pair replaced. -/
def KnotPair.put (p : KnotPair) (second : Bool) (v : Word) : KnotPair :=
  if second then { p with b := v &&& knotBMask } else { p with a := v }

/-- A knot register written in the matrix state of the hart in front. -/
def State.putKnot (s : State) (n : BitVec 3) (v : Word) : State :=
  s.withMatrix (s.core.matrix.map fun m =>
    let i := n.toNat / 2
    ({ m with knots := m.knots.set i ((m.knots[i]'(by omega)).put (n.getLsbD 0) v) (by omega) } : Matrix).rewrote
      (1#41 <<< (32 + n.toNat)))

/-! ### Plain writes -/

/-- A user CSR written at either privilege; a number with no writable field leaves the state. -/
def State.writeUserCsr (s : State) (c : BitVec 11) (v : Word) : State :=
  let u := s.hart.csr
  let i := s.hart.ui
  match c.toNat with
  | 0x003 => s.withCsr { u with rmode := v.extractLsb' 0 2 }
  | 0x004 => s.withCsr { u with ncarry := ⟨v.extractLsb' 0 32, v.extractLsb' 32 16⟩ }
  | 0x005 => s.withCsr { u with step := v }
  | 0x006 => s.withCsr { u with fflags := v.extractLsb' 0 5 }
  | 0x007 => s.withCsr { u with lse := v.extractLsb' 0 8 }
  | 0x010 => s.withCsr { u with dim0 := v }
  | 0x011 => s.withCsr { u with dim1 := v }
  | 0x012 => s.withCsr { u with dim2 := v }
  | 0x030 => s.withUi { i with uivec := v &&& mask 1 63 }
  | 0x032 => s.withUi { i with uiepc := v &&& mask 1 63 }
  | 0x033 => s.withUi { i with maskEq := v.extractLsb' 0 4, maskRaise := v.getLsbD 4 }
  | 0x035 => s.withUi { i with uistk := v }
  | _ => s

/-- The CSRs that only supervisor code writes. -/
def State.writeSupCsr (s : State) (c : BitVec 11) (v : Word) : State :=
  let u := s.hart.csr
  let i := s.hart.ui
  let p := s.hart.sup
  let g := s.core.gov
  let r := s.hart.record
  match c.toNat with
  | 0x008 => s.withCsr { u with det := v.getLsbD 0 }
  | 0x031 => s.withUi { i with kind := v.extractLsb' 0 2, queue := v.extractLsb' 2 2, value := v.extractLsb' 8 56 }
  | 0x034 => s.withUi { i with pendEq := v.extractLsb' 0 4, pendRaise := v.getLsbD 4 }
  | 0x050 => s.withCsr { u with mseqStep := v.extractLsb' 0 20, mseqAct := v.getLsbD 20 }
  | 0x200 => s.withSup { p with tvec := v &&& mask 1 63 }
  | 0x202 => s.withSup { p with tepc := v &&& mask 1 63 }
  | 0x203 => s.withSup { p with pp := if v.getLsbD 0 then .supervisor else .user, so := v.getLsbD 1,
                                hpri := v.extractLsb' 4 2 }
  | 0x210 => { s with core := { s.core with gov := g.write v } }
  | 0x211 => { s with core := { s.core with gov := { g with seq0 := v &&& mask 0 48 } } }
  | 0x212 => { s with core := { s.core with gov := { g with seq1 := v &&& mask 0 48 } } }
  | 0x213 => { s with core := { s.core with gov := { g with seq2 := v &&& mask 0 48 } } }
  | 0x214 => { s with core := { s.core with gov := { g with seq3 := v &&& mask 0 48 } } }
  | 0x220 => s.withSup { p with xlat1 := v &&& xlatMask }
  | 0x221 => s.writeXlat2 v
  | 0x230 => s.writeRgntab s.hart.ctl.part v
  | 0x500 => s.withRecord { r with fcause := v &&& mask 0 10 }
  | 0x501 => s.withRecord { r with fpc := v &&& mask 1 63 }
  | 0x502 => s.withRecord { r with fstrip := v &&& mask 1 63 }
  | 0x503 => s.withRecord { r with felem := v &&& mask 0 13 }
  | 0x504 => s.withRecord { r with fidx0 := v }
  | 0x505 => s.withRecord { r with fidx1 := v }
  | 0x506 => s.withRecord { r with fidx2 := v }
  | 0x507 => s.withRecord { r with faddr := v }
  | 0x508 => s.withRecord { r with fcoord := v &&& mask 0 63 }
  | 0x509 => s.withRecord { r with finfo := v &&& mask 0 16 }
  | _ => s.writeUserCsr c v

/-- The number of a knot register, 0 to 7. -/
def knotNumber (c : BitVec 11) : Option (BitVec 3) :=
  if 0x20 ≤ c.toNat ∧ c.toNat ≤ 0x27 then some (c.extractLsb' 0 3) else none

/-- The writable fields of a CSR written (R7, R20, R96). -/
def State.writeCsr (s : State) (c : BitVec 11) (v : Word) : State :=
  match knotNumber c with
  | some n => (s.putKnot n v).mark [] (bandUse (c.setWidth 5) 5)
  | none => if s.atUser then s.writeUserCsr c v else s.writeSupCsr c v

/-- The knot register that a CSR number names, as an operand that is read (R306). -/
def knotUse (c : BitVec 11) : List Use :=
  match knotNumber c with
  | some n => [⟨73 + n.toNat, c.setWidth 5, 5⟩]
  | none => []

/-- A CSR instruction: `new` gives the value to write from the old one, none for a read (R96). -/
def csrOp (s : State) (d : BitVec 5) (c : BitVec 11) (new : Word → Option Word) : Out :=
  let old := (s.csr c).getD 0
  let knots : List (Unit → Option FaultInfo) :=
    match knotNumber c, new old with
    | some n, some v => s.knotChecks n (c.setWidth 5) v
    | _, _ => []
  let first : List (Unit → Option FaultInfo) :=
    [fun _ => faultIf (s.atUser && decide (0x200 ≤ c.toNat ∧ c.toNat < 0x400)) (plainFault 0x01),
      fun _ => faultIf (s.csr c).isNone (operandFault 0x02 (c.setWidth 5) 5)]
  guarded s (first ++ knots) fun _ => readable s (knotUse c) fun _ =>
    match new old with
    | some v =>
      if c = 0x230#11 && s.tableInUse s.hart.ctl.part then waitAt s .publish
      else finish ((s.writeCsr c v).setX d old) 4
    | none => finish (s.setX d old) 4

def execCsrr (d : BitVec 5) (i : BitVec 11) (s : State) : Out := csrOp s d i fun _ => none
def execCsrw (d a : BitVec 5) (i : BitVec 11) (s : State) : Out := csrOp s d i fun _ => some (s.x a)
def execCsrs (d a : BitVec 5) (i : BitVec 11) (s : State) : Out :=
  csrOp s d i fun old => if a = 0 then none else some (old ||| s.x a)
def execCsrc (d a : BitVec 5) (i : BitVec 11) (s : State) : Out :=
  csrOp s d i fun old => if a = 0 then none else some (old &&& ~~~s.x a)

/-! ### The writes as events of the table -/

/-- GOVCTL_WRITE: govctl of a core written (R24). -/
def execGovctlWrite (core : Nat) (value : Word) (s : State) : Out :=
  if core < Config.cores then
    let c := s.coreAt core
    .next (s.setCoreAt core { c with gov := c.gov.write value })
  else .next s

/-- KNOT_REGISTER_WRITE: the checked write of a knot register by the hart in front (R54). -/
def execKnotRegisterWrite (reg : BitVec 3) (value : Word) (s : State) : Out :=
  guarded s (s.knotChecks reg (reg.setWidth 5) value) fun _ =>
    .next ((s.putKnot reg value).mark [] (bandUse (reg.setWidth 5) 5))

/-- RGNTAB_WRITE (R200). -/
def execRgntabWrite (part : Nat) (value : Word) (s : State) : Out :=
  .next (if s.tableInUse part then s else s.writeRgntab part value)

/-- XLAT2_WRITE by the hart in front (R300). -/
def execXlat2Write (value : Word) (s : State) : Out := .next (s.writeXlat2 value)

end Sys2Proof.Machine
end

