-- ==== Sys2Proof/Machine/Grant.lean ====
section
/-! DEFINITION. Opening and closing strips, and the governor's answers (spec/01 R24, R31; spec/07 R117 to R119;
spec/10 R180 to R183, R186; spec/19 R297). -/

namespace Sys2Proof.Machine

/-! ### Slices -/

/-- Slices of a core that may be granted: as many as work, and as its partition reports (R31, R309). -/
def State.slicesOf (s : State) (core part : Nat) : Nat :=
  min (s.slicesOn core) ((s.partAt part).caps.slice.toNat % 32)

/-- A hart that holds a workgroup. -/
def Hart.placed (h : Hart) : Bool :=
  match h.run with
  | .absent => false
  | .halted => false
  | _ => true

/-- The slices a hart holds: ceil(GVL / 64) since its last GRANT, less when some were taken (R31, R182). -/
def Hart.held (h : Hart) : Nat := if h.placed then h.ctl.holds else 0

/-! ### Revocation (R182) -/

/-- Slices taken from hart v, to which `left` remain: its open strip is aborted and its next one is protected. -/
def State.revoke (s : State) (v left : Nat) : State :=
  let s1 := if (s.hartAt v).csr.so then s.abortAt v else s
  let h := s1.hartAt v
  let aborted := (s.hartAt v).csr.so
  s1.setHartAt v { h with ctl := { h.ctl with slices := left, holds := left, revoked := h.ctl.revoked || aborted } }

/-- Whether hart v may be revoked at all: no protected strip, not named by an active override (R24, R186). -/
def State.revocable (s : State) (v : Nat) : Bool :=
  let h := s.hartAt v
  let g := (s.coreAt (coreOf v)).gov
  h.placed && !(h.csr.so && h.ctl.protectedStrip) && !(g.en && (g.hart == decide (v % 2 = 1)))

/-! ### The override (R24) -/

/-- Entry i of the script. -/
def GovCtl.entry (g : GovCtl) (i : Nat) : Nat :=
  let w := if i / 4 = 0 then g.seq0 else if i / 4 = 1 then g.seq1 else if i / 4 = 2 then g.seq2 else g.seq3
  (w.extractLsb' (12 * (i % 4)) 12).toNat

/-- The row width of entry POS. -/
def GovCtl.width (g : GovCtl) : Nat := min (max (g.entry g.pos.toNat) 1) 1024

/-- The override cleared: POS reads 0 (R24). -/
def GovCtl.cleared (g : GovCtl) : GovCtl := { g with en := false, pos := 0, latest := none }

/-- The script after a GRANT has used entry POS. -/
def GovCtl.used (g : GovCtl) : GovCtl :=
  if g.pos.ult g.len then { g with pos := g.pos + 1, latest := some g.width }
  else if g.hold then { g with latest := some g.width }
  else g.cleared

/-! ### The governor's answer to a GRANT of the hart in front -/

/-- A row width with the state after it, or a wait. -/
inductive Answer where
  | wait
  | width (g : Nat) (s : State)

/-- The most slices a hart of a core may hold: 15, and one less than the core has, while its sibling holds a workgroup
(R31, R180). On a core with one slice that leaves none to either of two such harts: each GRANT waits (DESIGN CHOICE,
log 72). -/
def State.sliceCap (s : State) (h : Nat) : Nat :=
  let total := s.slicesOf (coreOf h) (s.hartAt h).ctl.part
  if (s.hartAt (sibling h)).placed then min 15 (total - 1) else total

/-- The slices a hart's next GRANT asks for: its allocation within what its core can give it. -/
def State.wanted (s : State) (h : Nat) : Nat := min (s.hartAt h).ctl.slices (s.sliceCap h)

/-- The envelope of a partition cannot power a slice for each of its harts: one of them is allocated none (R297). -/
def State.starved (s : State) (part : Nat) : Bool :=
  s.hartIds.any fun h => (s.hartAt h).placed && (s.hartAt h).ctl.part == part && (s.hartAt h).ctl.slices == 0

/-- The hart holds an open strip that no revocation may abort (R186). -/
def State.shielded (s : State) (h : Nat) : Bool := (s.hartAt h).csr.so && (s.hartAt h).ctl.protectedStrip

/-- The governor with no override (R180, R182, R186, R297). Only an open strip of the other hart lets a higher priority take
more than is free. -/
def State.governed (s : State) : Answer :=
  let you := sibling s.cur
  let other := s.hartAt you
  let total := s.slicesOf (coreOf s.cur) s.hart.ctl.part
  let n := s.wanted s.cur
  let free := total - other.held
  let above := other.sup.hpri.ult s.hart.sup.hpri && other.csr.so
  if n = 0 || s.starved s.hart.ctl.part then .wait
  else if n ≤ free then .width (64 * n) s
  else if above && s.revocable you then .width (64 * n) (s.revoke you (max 1 (total - n)))
  else if above && s.shielded you then .wait
  else if 1 ≤ free then .width (64 * free) s
  else if s.revocable you then .width 64 (s.revoke you (max 1 (total - 1)))
  else .wait

/-- The slices that the script leaves to the hart beside the named one: those that its latest entry does not take, or
before its first entry those that it does not hold. -/
def State.besideEntry (s : State) : Nat :=
  let total := s.slicesOf (coreOf s.cur) s.hart.ctl.part
  match s.core.gov.latest with
  | some g => total - (g + 63) / 64
  | none => total - (s.hartAt (sibling s.cur)).held

/-- While the script names the other hart: the slices its latest entry leaves free, once it has no open strip
(R183). -/
def State.besideScript (s : State) : Answer :=
  let n := min (s.wanted s.cur) s.besideEntry
  if (s.hartAt (sibling s.cur)).csr.so || s.starved s.hart.ctl.part || n = 0 then .wait else .width (64 * n) s

/-- The governor's answer, or the override entry. -/
def State.answer (s : State) : Answer :=
  let g := s.core.gov
  if g.en then
    if g.hart == decide (s.cur % 2 = 1) then .width g.width { s with core := { s.core with gov := g.used } }
    else s.besideScript
  else s.governed

/-! ### GRANT, GRANTX, SCLOSE (R117 to R119) -/

/-- The checkpoint a GRANT at the pc takes. -/
def State.checkpoint (s : State) (vl : BitVec 14) : Checkpoint :=
  { regs := s.hart.regs, loops := s.hart.loops, ncarry := s.hart.csr.ncarry, fflags := s.hart.csr.fflags,
    step := s.hart.csr.step, pc := s.hart.pc, vl := vl }

/-- Every vector register and mask becomes stale (R117). -/
def Hart.staled (h : Hart) : Hart :=
  { h with vregs := h.vregs.map fun v => { v with stale := true },
           mregs := h.mregs.map fun m => { m with stale := true } }

/-- A strip opened with a row width, a row code and a tail policy for n elements. -/
def State.openStrip (s : State) (n g : Nat) (rc : BitVec 2) (tp : Bool) : State :=
  let vl := BitVec.ofNat 14 (min n (2 ^ rc.toNat * g))
  let cp := s.checkpoint vl
  let changed := decide (g ≠ s.gvl)
  let h := if changed then s.hart.staled else s.hart
  { s with
    hart := { h with
      csr := { h.csr with
        gvl := BitVec.ofNat 11 g, rc := rc, tp := tp, so := true, vl := vl,
        ggen := if changed then h.csr.ggen + 1 else h.csr.ggen },
      strip := { Strip.reset with cp := cp },
      upsets := { h.upsets with checkpoint := 0, weak := h.upsets.weak &&& ~~~(0xFFFFFFFF#112 <<< 40) },
      ctl := { h.ctl with holds := (g + 63) / 64, protectedStrip := h.ctl.revoked, revoked := false } },
    core := { s.core with matrix := discardPending s.core.matrix s.cur } }

/-- The configuration of a GRANTX (R118). -/
structure GrantCfg where
  rc : BitVec 2
  tp : Bool
  granule : Nat
  cap : Nat

/-- R118's layout; none when a must-be-zero bit is set or the cap lies above 1,024. -/
def grantCfg (v : Word) : Option GrantCfg :=
  let cap := (v.extractLsb' 16 11).toNat
  if v.extractLsb' 5 11 != 0#11 || v.extractLsb' 27 37 != 0#37 || decide (1024 < cap) then none
  else
    let g := (v.extractLsb' 3 2).toNat
    some ⟨v.extractLsb' 0 2, v.getLsbD 2, if g = 0 then 1 else if g = 1 then 8 else if g = 2 then 32 else 64, cap⟩

/-- The offered width shaped. -/
def GrantCfg.shape (c : GrantCfg) (g : Nat) : Nat :=
  let h := if c.cap = 0 then g else min g c.cap
  let k := c.granule * (h / c.granule)
  if k = 0 then c.granule else k

/-- A GRANT of an instruction of `size` bytes that has passed its checks. -/
def grantWith (s : State) (d a : BitVec 5) (rc : BitVec 2) (tp : Bool) (shape : Nat → Nat) (size : Nat) : Out :=
  closing s fun s1 =>
    -- a pre-emption that is pending acts at the close (R185): the hart halts before this instruction goes on
    if s.stripOpen && s.hart.ctl.preempt then .next s1
    else
      match s1.answer with
      | .wait => waitAt s1 .grant
      | .width g s2 =>
        let s3 := s2.openStrip (s1.x a).toNat (shape g) rc tp
        finish (s3.setX d (s3.hart.csr.vl.setWidth 64)) size

/-- What GRANT and GRANTX check (R117). -/
def State.grantChecks (s : State) (cfg : Unit → Option FaultInfo) : List (Unit → Option FaultInfo) :=
  [fun _ => faultIf (!s.atUser) (plainFault 0x01), cfg, fun _ => faultIf s.hart.ui.inHandler (plainFault 0x05)]

def execGrant (d a : BitVec 5) (c : BitVec 3) (s : State) : Out :=
  guarded s (s.grantChecks fun _ => none) fun _ => grantWith s d a (c.extractLsb' 0 2) (c.getLsbD 2) id 4

def execGrantx (d a b : BitVec 5) (s : State) : Out :=
  match grantCfg (s.x b) with
  | some c => guarded s (s.grantChecks fun _ => none) fun _ => grantWith s d a c.rc c.tp c.shape 4
  | none => guarded s (s.grantChecks fun _ => some (operandFault 0x02 b 2)) fun _ => finish s 4

def execSclose (s : State) : Out := closing s fun t => finish t 4

/-! ### Governor events -/

/-- GRANT_REVOCATION: the sibling waits in a GRANT for slices that are not free. At a higher priority it takes those it
asks for from an open strip, else, when it finds none free, one (R180, R182). -/
def execGrantRevocation (victim left : Nat) (s : State) : Out :=
  let me := sibling victim
  let r := s.hartAt me
  let v := s.hartAt victim
  let total := s.slicesOf (coreOf victim) r.ctl.part
  let n := s.wanted me
  if r.run == .waiting .grant && decide (victim < Config.harts) && s.revocable victim && decide (1 ≤ left) &&
     decide (left < v.held) && decide (1 ≤ n) && !s.starved r.ctl.part && decide (total < v.held + n) &&
     (if v.sup.hpri.ult r.sup.hpri && v.csr.so then decide (total ≤ left + n)
      else decide (total ≤ v.held) && decide (v.held = left + 1))
  then .next (s.revoke victim left)
  else .next s

/-- A hart that waits in a GRANT executes it again when it issues next: nothing comes between (R185). -/
def execGrantWaitEnd (hart : Nat) (s : State) : Out :=
  if (s.hartAt hart).run == .waiting .grant then .next ((s.focus hart).withRun (.waiting .granted)) else .next s

/-- GOVERNOR_REVISION: allocations in slices, at most 16, that each hart sees at its next GRANT. -/
def execGovernorRevision (allocation : List (Nat × Nat)) (s : State) : Out :=
  .next (allocation.foldl (fun t p =>
    if p.1 < Config.harts && decide (p.2 ≤ 16) && (t.hartAt p.1).placed then
      let h := t.hartAt p.1
      t.setHartAt p.1 { h with ctl := { h.ctl with slices := p.2 } }
    else t) s)

/-- REVOCATION_PROTECTION_EXPIRY (R186). -/
def execRevocationProtectionExpiry (hart : Nat) (s : State) : Out :=
  let h := s.hartAt hart
  if h.ctl.protectedStrip then .next (s.setHartAt hart { h with ctl := { h.ctl with protectedStrip := false } })
  else .next s

end Sys2Proof.Machine
end

