-- ==== Sys2Proof/Machine/Shake.lean ====
section
/-! DEFINITION. SHAKE256, of whose output the device's hash values are the first 32 bytes (spec/16 R251). The permutation,
the rate and the padding are those of the published function (PRESUMED, log 92: the spec names it and does not repeat it). -/

namespace Sys2Proof.Machine

/-- The lane at (x, y), each taken modulo 5. -/
def lane (a : List Word) (x y : Nat) : Word := a.getD (x % 5 + 5 * (y % 5)) 0

/-- 25 lanes given by their coordinates. -/
def lanes (f : Nat → Nat → Word) : List Word := (List.range 25).map fun i => f (i % 5) (i / 5)

/-- The step that adds to each lane the parities of two columns. -/
def theta (a : List Word) : List Word :=
  let c := (List.range 5).map fun x => lane a x 0 ^^^ lane a x 1 ^^^ lane a x 2 ^^^ lane a x 3 ^^^ lane a x 4
  let d := (List.range 5).map fun x => c.getD ((x + 4) % 5) 0 ^^^ (c.getD ((x + 1) % 5) 0).rotateLeft 1
  lanes fun x y => lane a x y ^^^ d.getD x 0

/-- How far the step that moves the lanes rotates each. -/
def rotations : List Nat :=
  [0, 1, 62, 28, 27, 36, 44, 6, 55, 20, 3, 10, 43, 25, 39, 41, 45, 15, 21, 8, 18, 2, 61, 56, 14]

/-- The lanes rotated and moved: what stands at (x, y) goes to (y, 2x + 3y). -/
def rhoPi (a : List Word) : List Word :=
  lanes fun x y =>
    let x' := (x + 3 * y) % 5
    (lane a x' x).rotateLeft (rotations.getD (x' + 5 * x) 0)

/-- The step that is not linear. -/
def chi (a : List Word) : List Word := lanes fun x y => lane a x y ^^^ (~~~lane a (x + 1) y &&& lane a (x + 2) y)

/-- The constant of each round. -/
def roundConstants : List Word :=
  [0x0000000000000001#64, 0x0000000000008082#64, 0x800000000000808A#64, 0x8000000080008000#64,
   0x000000000000808B#64, 0x0000000080000001#64, 0x8000000080008081#64, 0x8000000000008009#64,
   0x000000000000008A#64, 0x0000000000000088#64, 0x0000000080008009#64, 0x000000008000000A#64,
   0x000000008000808B#64, 0x800000000000008B#64, 0x8000000000008089#64, 0x8000000000008003#64,
   0x8000000000008002#64, 0x8000000000000080#64, 0x000000000000800A#64, 0x800000008000000A#64,
   0x8000000080008081#64, 0x8000000000008080#64, 0x0000000080000001#64, 0x8000000080008008#64]

/-- The permutation of 1,600 bits. -/
def permute (a : List Word) : List Word :=
  roundConstants.foldl (fun a c => match chi (rhoPi (theta a)) with
    | l :: r => (l ^^^ c) :: r
    | [] => []) a

/-- Bytes that one block takes in. -/
def shakeRate : Nat := 136

/-- Some bytes with the padding of SHAKE256 after them: the bits 1111, a 1, and a 1 at the end of the last block. -/
def shakePadded (bs : List Byte) : List Byte :=
  let gap := shakeRate - bs.length % shakeRate
  bs ++ if gap = 1 then [0x9F#8] else 0x1F#8 :: List.replicate (gap - 2) 0 ++ [0x80#8]

/-- A block added to the lanes. -/
def absorb (a : List Word) (block : List Byte) : List Word :=
  lanes fun x y => lane a x y ^^^ BitVec.ofNat 64 (leNat ((block.drop (8 * (x + 5 * y))).take 8))

/-- n blocks taken in, each followed by the permutation. -/
def absorbAll : Nat → List Word → List Byte → List Word
  | 0, a, _ => a
  | n + 1, a, bs => absorbAll n (permute (absorb a (bs.take shakeRate))) (bs.drop shakeRate)

/-- The first 32 bytes of SHAKE256 output, as a little-endian number. -/
def shake256 (bs : List Byte) : BitVec 256 :=
  let p := shakePadded bs
  let a := absorbAll (p.length / shakeRate) (List.replicate 25 0) p
  BitVec.ofNat 256 (leNat ((List.range 4).flatMap fun i => leBytes 8 (a.getD i 0).toNat))

end Sys2Proof.Machine
end

