-- ==== Sys2Proof/Machine/Streams.lean ====
section
/-! DEFINITION. Command streams: their registers, the ring, completion records, and the commands WAITV, SIGNAL, COPY
of data and FENCE (spec/17 R262 to R268, R314; spec/19 R299). -/

namespace Sys2Proof.Machine

/-! ### Streams and their functions (R262, R299) -/

/-- The key of stream n of a function. -/
def streamKey (fn n : Nat) : Nat := 16 * fn + n

def State.streamAt (s : State) (key : Nat) : Stream := (tget s.streams key).getD Stream.reset
def State.putStream (s : State) (key : Nat) (x : Stream) : State := { s with streams := tput s.streams key x }

/-- The partition a function is bound to. -/
def State.partOfFn (s : State) (fn : Nat) : Option Nat :=
  (s.parts.find? fun p => p.2.functions.contains fn).map Prod.fst

/-- An event of stream n of a function: nothing happens for a function that is bound to no partition. -/
def onStream (fn n : Nat) (s : State) (k : Nat → Nat → Stream → State) : Out :=
  if decide (fn ≤ 192) && decide (n < 16) then
    match s.partOfFn fn with
    | some p => .next (k p (streamKey fn n) (s.streamAt (streamKey fn n)))
    | none => .next s
  else .next s

/-- The stream stops with a FORMAT completion's DETAIL. -/
def Stream.stop (x : Stream) (detail : BitVec 8) : Stream := { x with stopped := true, cause := detail }

/-- The command that ran has completed. -/
def Stream.idle (x : Stream) : Stream := { x with cmd := none, begun := false, polled := 0 }

/-! ### What a command processor reaches (R314) -/

/-- The second-stage root a partition's own agents use: the first registered one, valid. -/
def Partition.root2 (p : Partition) : Word :=
  match p.roots with
  | r :: _ => (r &&& 0x000FFFFFFFFFF000#64) ||| 0x8000000000000000#64
  | [] => 0

/-- The command processor of a stream: it holds no vault. -/
def State.processor (s : State) (part : Nat) (root1 : Word) : Agent :=
  { part := part, root1 := root1, root2 := (s.partAt part).root2, own := none, locks := [], cached := false }

/-- Why an access of a command processor fails. -/
inductive ProcStop where
  | fail
  /-- outside the partition: Pip is told -/
  | outside
deriving DecidableEq, Repr

/-- The location of n bytes reached; vault space does not translate. -/
def State.procReach (s : State) (a : Agent) (va : Word) (n : Nat) (need : Need) : Except ProcStop Hit :=
  if inVaultSpace va then .error .fail
  else
    match (s.reachAddr a va need).2 with
    | .hit h => if s.admitted a.part h.loc n need.isWrite then .ok h else .error .outside
    | .outside => .error .outside
    | _ => .error .fail

/-- n readable bytes of one page. -/
def State.procRead (s : State) (a : Agent) (va : Word) (n : Nat) : Except ProcStop (List Byte) :=
  match s.procReach a va n .read with
  | .ok h => if s.unreadable h.loc n then .error .fail else .ok (s.bytes h.loc n)
  | .error e => .error e

/-- What a read of n bytes by a processor leaves in the counts and the log of errors. -/
def State.procNoted (s : State) (a : Agent) (va : Word) (n : Nat) : State :=
  if inVaultSpace va then s else s.noteRange a va n

/-- A failed access reported when it lay outside the partition. -/
def State.procReport (s : State) (fn : Nat) (va : Word) (e : ProcStop) : State :=
  if e = .outside then s.report (.processorViolation fn va) else s

/-- The agent number of a stream's processor among the writes held or sent to peers: above every hart's. -/
def procAgent (key : Nat) : Nat := 2 ^ 32 + key

/-- A write of a processor; one that finds no path to its peer, or follows one that does, is held (R287). -/
def State.procWrite (s : State) (key : Nat) (h : Hit) (bytes : List Byte) : State :=
  if s.noPath h.loc || s.fabric.held.any (fun w => decide (w.hart = procAgent key)) then
    let e : BufEntry :=
      { stream := 0, convoy := 0, instr := 0, elem := 0, reg := 0, va := 0, loc := h.loc, page := h.page, leaf := none,
        op := .store bytes, seen := 0, bad := false }
    let w : HeldWrite :=
      { hart := procAgent key, ended := 0, part := (s.partOfFn (key / 16)).getD 0, blocks := 1, entry := e }
    { s with fabric := { s.fabric with held := s.fabric.held ++ [w] } }
  else (s.sending (procAgent key) h.loc bytes.length).write h.loc bytes

/-! ### Commands and completion records (R264 to R266) -/

/-- Doubleword n. -/
def Cmd.dw (c : Cmd) (n : Fin 8) : Word := c.get n

def Cmd.kind (c : Cmd) : BitVec 8 := (c.dw 0).extractLsb' 0 8
def Cmd.nowait (c : Cmd) : Bool := (c.dw 0).getLsbD 8
def Cmd.irq (c : Cmd) : Bool := (c.dw 0).getLsbD 9
def Cmd.compl (c : Cmd) : Word := (c.dw 1)
def Cmd.mode (c : Cmd) : BitVec 2 := (c.dw 4).extractLsb' 40 2
def Cmd.len (c : Cmd) : Nat := ((c.dw 4).extractLsb' 0 40).toNat
def Cmd.timeout (c : Cmd) : BitVec 32 := (c.dw 4).extractLsb' 32 32

/-- A completion record (R264). -/
structure Record where
  final : Bool
  cls : BitVec 8
  detail : BitVec 8
  cause : BitVec 8
  info : Word
deriving DecidableEq, Repr

def Record.ok : Record := ⟨true, 0, 0, 0, 0⟩
def Record.format (detail : BitVec 8) : Record := ⟨true, 1, detail, 0, 0⟩
def Record.refused (detail : BitVec 8) : Record := ⟨true, 2, detail, 0, 0⟩
def Record.loader (status : BitVec 8) : Record := ⟨true, 3, status, 0, 0⟩
def Record.faulted (cause : BitVec 8) (index : Nat) : Record := ⟨true, 4, 0, cause, BitVec.ofNat 64 index⟩
def Record.timeout (value : Word) : Record := ⟨true, 5, 0, 0, value⟩
def Record.error (va : Word) : Record := ⟨true, 6, 0, 0, va⟩

/-- The first doubleword of a record. -/
def Record.word (r : Record) : Word :=
  1#64 ||| (if r.final then 2#64 else 0) ||| (r.cls.setWidth 64 <<< 8) ||| (r.detail.setWidth 64 <<< 16) |||
  (r.cause.setWidth 64 <<< 24)

/-- A record written at COMPL, if it can be, and then the stream's vector raised when asked. -/
def State.writeRecord (s : State) (part key : Nat) (root compl : Word) (irq : Bool) (r : Record) : State :=
  let s1 :=
    if compl = 0 then s
    else
      match s.procReach (s.processor part root) compl 16 .write with
      | .ok h => s.procWrite key h (leBytes 8 r.word.toNat ++ leBytes 8 r.info.toNat)
      | .error e => s.procReport (key / 16) compl e
  if irq then { s1 with msix := s1.msix ++ [(key / 16, key % 16)] } else s1

/-- The command of a stream completes with a record. -/
def State.endCommand (s : State) (part key : Nat) (x : Stream) (c : Cmd) (r : Record) : State :=
  (s.putStream key x.idle).writeRecord part key x.xlat c.compl c.irq r

/-- The must-be-zero fields, the alignments and the reserved values of R264 and R266. -/
def Cmd.badField (c : Cmd) : Bool :=
  (c.dw 0).extractLsb' 10 54 != 0#54 || (c.dw 1).extractLsb' 0 4 != 0#4 || (c.dw 5) != 0 || (c.dw 6) != 0 || (c.dw 7) != 0 ||
  (if c.kind = 1 then (c.dw 4).extractLsb' 10 54 != 0#54
   else if c.kind = 2 then (c.dw 2).extractLsb' 0 3 != 0#3 || (c.dw 4).extractLsb' 2 30 != 0#30
   else if c.kind = 3 then (c.dw 2).extractLsb' 0 3 != 0#3 || (c.dw 4).extractLsb' 1 63 != 0#63
   else if c.kind = 4 then (c.dw 4).extractLsb' 42 22 != 0#22 || c.mode == 3 || (c.mode == 2 && ((c.dw 3) != 0 || c.len != 0))
   else (c.dw 2) != 0 || (c.dw 3) != 0 || (c.dw 4) != 0)

/-- DETAIL of the FORMAT completion of a command. -/
def Cmd.format (c : Cmd) : Option (BitVec 8) :=
  if c.kind = 0 || decide (5 < c.kind.toNat) then some 2 else if c.badField then some 3 else none

/-- An event of the command that a stream is about to begin. -/
def onCommand (fn n : Nat) (kind : BitVec 8) (s : State) (k : Nat → Nat → Stream → Cmd → State) : Out :=
  onStream fn n s fun p key x =>
    match x.cmd with
    | some c => if c.kind = kind && !x.begun then k p key x c else s
    | none => s

/-! ### Stream registers (R263) -/

/-- A WAITV with no TIMEOUT that waits ends when its stream is disabled (R267). -/
def Stream.dropWait (x : Stream) : Stream :=
  match x.cmd with
  | some c => if c.kind = 2 && x.begun && c.timeout == 0 then x.idle else x
  | none => x

/-- The ring holds more commands than it can. -/
def Stream.overfull (x : Stream) : Bool := decide (2 ^ x.log2n.toNat < (x.tail - x.head).toNat)

def execStrtailWrite (fn n : Nat) (value : Word) (s : State) : Out :=
  onStream fn n s fun _ key x =>
    let y := { x with tail := value.extractLsb' 0 32 }
    s.putStream key (if y.overfull then y.stop 1 else y)

def execStrctlWrite (fn n : Nat) (value : Word) (s : State) : Out :=
  onStream fn n s fun _ key x =>
    let y := { x with en := value.getLsbD 0, det := if x.en then x.det else value.getLsbD 1 }
    let bad := y.en && !x.en && (decide (y.log2n.toNat < 4) || decide (16 < y.log2n.toNat))
    s.putStream key (if bad then y.stop 1 else if y.en then y else y.dropWait)

def execStrstatStoppedClear (fn n : Nat) (value : Word) (s : State) : Out :=
  onStream fn n s fun _ key x => s.putStream key (if value.getLsbD 1 then { x with stopped := false } else x)

def execStreamRegisterWrite (fn n offset : Nat) (value : Word) (s : State) : Out :=
  onStream fn n s fun _ key x =>
    if x.en then s
    else if offset = 0x00 then s.putStream key { x with base := value &&& 0xFFFFFFFFFFFFFFC0#64 }
    else if offset = 0x08 then s.putStream key { x with log2n := value.extractLsb' 0 5 }
    else if offset = 0x20 then s.putStream key { x with xlat := value }
    else s

/-- STRSTAT.IDLE: the ring is empty and no command runs, those begun under NOWAIT included. -/
def Stream.isIdle (x : Stream) : Bool :=
  x.head == x.tail && x.cmd.isNone && x.launches.isEmpty && x.releases.isEmpty && x.copies.isEmpty

/-- STRSTAT. -/
def Stream.strstat (x : Stream) : Word := bit x.isIdle 0 ||| bit x.stopped 1 ||| field x.cause 8

/-- What a read of an offset of the register block returns; zero at the offsets that R263 does not name. -/
def Stream.register (x : Stream) (offset : Nat) : Word :=
  if offset = 0x00 then x.base
  else if offset = 0x08 then field x.log2n 0
  else if offset = 0x10 then field x.head 0
  else if offset = 0x18 then field x.tail 0
  else if offset = 0x20 then x.xlat
  else if offset = 0x28 then bit x.en 0 ||| bit x.det 1
  else if offset = 0x30 then x.strstat
  else 0

/-- What the host reads in the stream register blocks of a function's BAR0; a virtual function that is bound to no
partition reads zero (R262, R299). -/
def State.readStreams (s : State) (fn offset : Nat) : Word :=
  match s.partOfFn fn with
  | some _ => (s.streamAt (streamKey fn ((offset - 0x10000) / 0x40))).register ((offset - 0x10000) % 0x40)
  | none => 0

def State.fnRegs (s : State) (fn : Nat) : FnRegs := (tget s.functions fn).getD ⟨0, []⟩
def State.putFn (s : State) (fn : Nat) (r : FnRegs) : State := { s with functions := tput s.functions fn r }

/-- What identifies a function to the host: its number, the partition it is bound to, and its status (R299). -/
structure Identity where
  fn : Nat
  part : Option Nat
  status : Nat
deriving DecidableEq, Repr

def State.identity (s : State) (fn : Nat) : Identity := ⟨fn, s.partOfFn fn, (s.fnRegs fn).status⟩

/-- A virtual function that is bound to no partition. -/
def State.unbound (s : State) (fn : Nat) : Bool := (s.partOfFn fn).isNone && fn != 0

/-- An offset of the MSI-X table: 32 vectors of 16 bytes. -/
def inMsix (offset : Nat) : Bool := decide (0x1000 ≤ offset) && decide (offset < 0x1200)

/-- What a read of eight bytes of a function's BAR0 returns: the identity block and the MSI-X table, whose layouts R299 does
not give, and the stream register blocks. -/
def State.readBar0 (s : State) (fn offset : Nat) : Word :=
  if s.unbound fn then 0
  else if offset < 0x1000 then
    Config.identityWord (s.identity fn).fn ((s.identity fn).part.getD 0) (s.identity fn).status offset
  else if inMsix offset then (tget (s.fnRegs fn).msix (offset / 8)).getD (Config.bar0Word fn offset)
  else if 0x10000 ≤ offset && decide (offset < 0x10400) then s.readStreams fn offset
  else Config.bar0Word fn offset

/-- A write of eight bytes to the MSI-X table of a function; the events of the opcode table write the stream registers. -/
def State.writeBar0 (s : State) (fn offset : Nat) (value : Word) : State :=
  if s.unbound fn || !inMsix offset then s
  else s.putFn fn { s.fnRegs fn with msix := tput (s.fnRegs fn).msix (offset / 8) value }

/-! ### The ring (R263, R265, R314) -/

/-- The address of the command at STRHEAD. -/
def Stream.slot (x : Stream) : Word := x.base + BitVec.ofNat 64 (64 * (x.head.toNat % 2 ^ x.log2n.toNat))

/-- Eight little-endian doublewords. -/
def cmdOf (bs : List Byte) : Cmd := Vector.ofFn fun i => BitVec.ofNat 64 (leNat ((bs.drop (8 * i.val)).take 8))

def execRingSlotFetch (fn n : Nat) (s : State) : Out :=
  onStream fn n s fun p key x =>
    if x.en && !x.stopped && x.cmd.isNone && x.head != x.tail then
      let a := s.processor p x.xlat
      let s1 := s.procNoted a x.slot 64
      match s.procRead a x.slot 64 with
      | .error e => (s1.putStream key (x.stop 4)).procReport fn x.slot e
      | .ok bs =>
        let c := cmdOf bs
        let y := { x with head := x.head + 1 }
        match c.format with
        | none => s1.putStream key { y with cmd := some c, begun := false }
        | some d =>
          -- a COMPL that is not 16-aligned gets no record
          let compl := if c.compl.extractLsb' 0 4 = 0#4 then c.compl else 0
          (s1.putStream key (y.stop d)).writeRecord p key x.xlat compl c.irq (.format d)
    else s

/-! ### WAITV (R267) -/

/-- The comparison of a value read with OPERAND under CMP. -/
def Cmd.holds (c : Cmd) (v : Word) : Bool :=
  let cmp := (c.dw 4).extractLsb' 0 2
  if cmp = 0 then v == (c.dw 3) else if cmp = 1 then v != (c.dw 3) else if cmp = 2 then (c.dw 3).ule v else v.ult (c.dw 3)

/-- One reading of the word. A stream that is disabled is not held by a WAITV with no TIMEOUT. -/
def State.poll (s : State) (p key : Nat) (x : Stream) (c : Cmd) : State :=
  let a := s.processor p x.xlat
  let s1 := s.procNoted a (c.dw 2) 8
  match s.procRead a (c.dw 2) 8 with
  | .error e => (s1.endCommand p key x c (.error (c.dw 2))).procReport (key / 16) (c.dw 2) e
  | .ok bs =>
    let v := BitVec.ofNat 64 (leNat bs)
    let y := { x with begun := true, polled := v }
    if c.holds v then s1.endCommand p key x c .ok else s1.putStream key (if x.en then y else y.dropWait)

def execWaitv (fn n : Nat) (s : State) : Out := onCommand fn n 2 s fun p key x c => s.poll p key x c

/-- A WAITV that has begun. -/
def onWait (fn n : Nat) (s : State) (k : Nat → Nat → Stream → Cmd → State) : Out :=
  onStream fn n s fun p key x =>
    match x.cmd with
    | some c => if c.kind = 2 && x.begun then k p key x c else s
    | none => s

def execWaitvPoll (fn n : Nat) (s : State) : Out := onWait fn n s fun p key x c => s.poll p key x c

def execWaitvTimeout (fn n : Nat) (s : State) : Out :=
  onWait fn n s fun p key x c => if c.timeout = 0 then s else s.endCommand p key x c (.timeout x.polled)

/-! ### SIGNAL (R268) -/

def execSignal (fn n : Nat) (s : State) : Out :=
  onCommand fn n 3 s fun p key x c =>
    let add := (c.dw 4).getLsbD 0
    match s.procReach (s.processor p x.xlat) (c.dw 2) 8 .write with
    | .error e => (s.endCommand p key x c (.error (c.dw 2))).procReport fn (c.dw 2) e
    | .ok h =>
      if s.poisoned h.loc 8 || (add && s.noPath h.loc) then (s.noteRead h.loc 8).endCommand p key x c (.error (c.dw 2))
      else
        let v := if add then BitVec.ofNat 64 (s.readNat h.loc 8) + (c.dw 3) else (c.dw 3)
        let s1 := if add then s.noteRead h.loc 8 else s
        (s1.procWrite key h (leBytes 8 v.toNat)).endCommand p key x c .ok

/-! ### COPY of data (R268, R314) -/

/-- The locations one byte goes between, or the address that fails. -/
def State.copyByte (s : State) (a : Agent) (src dst : Word) : Except (Word × ProcStop) (Nat × Hit) :=
  match s.procReach a src 1 .read, s.procReach a dst 1 .write with
  | .ok l, .ok m => if s.unreadable l.loc 1 then .error (src, .fail) else .ok (l.loc, m)
  | .error e, _ => .error (src, e)
  | _, .error e => .error (dst, e)

/-- The bytes before the first that fails, and that failure. -/
def copyPrefix : List (Except (Word × ProcStop) (Nat × Hit)) → List (Nat × Hit) × Option (Word × ProcStop)
  | [] => ([], none)
  | .error e :: _ => ([], some e)
  | .ok p :: r => (p :: (copyPrefix r).1, (copyPrefix r).2)

/-- Bytes copied in the order given. -/
def State.copyBytes (s : State) (key : Nat) : List (Nat × Hit) → State
  | [] => s
  | p :: r => (s.procWrite key p.2 [s.byte p.1]).copyBytes key r

/-- A free order. -/
def State.shuffle (s : State) : Nat → List (Nat × Hit) → State × List (Nat × Hit)
  | 0, l => (s, l)
  | n + 1, l =>
    let (k, s1) := s.drawNat l.length
    match l[k]? with
    | some p =>
      let (s2, r) := s1.shuffle n (l.eraseIdx k)
      (s2, p :: r)
    | none => (s1, l)

/-- A byte is written to a location that another is read from. -/
def overlaps (l : List (Nat × Hit)) : Bool :=
  l.any fun p => l.any fun q => decide (p.2.loc = q.1) && decide (p.1 ≠ p.2.loc)

/-- Bytes copied in any order: it shows only where source and destination overlap. -/
def State.copyFree (s : State) (key : Nat) (l : List (Nat × Hit)) : State :=
  if overlaps l then
    let (s1, r) := s.shuffle l.length l
    s1.copyBytes key r
  else s.copyBytes key l

/-- The first destination byte in a skim region. -/
def State.skimByte (s : State) (a : Agent) (dst : Word) (len : Nat) : Option Word :=
  ((List.range len).map fun i => dst + BitVec.ofNat 64 i).find? fun va =>
    !inVaultSpace va && (s.regionAt a.part a.root2 va).isSome

/-- The copy performed, with the record it completes with and the failure to report. -/
def State.copyData (s : State) (p key : Nat) (x : Stream) (c : Cmd) : State × Record :=
  let a := s.processor p x.xlat
  match s.skimByte a (c.dw 3) c.len with
  | some va => (s, .error va)
  | none =>
    let r := copyPrefix ((List.range c.len).map fun i =>
      s.copyByte a ((c.dw 2) + BitVec.ofNat 64 i) ((c.dw 3) + BitVec.ofNat 64 i))
    match r.2 with
    | none => ((s.procNoted a (c.dw 2) c.len).copyFree key r.1, .ok)
    | some (va, e) =>
      let (k, s1) := s.drawNat (r.1.length + 1)
      (((s1.procNoted a (c.dw 2) (r.1.length + 1)).copyFree key (r.1.take k)).procReport (key / 16) va e, .error va)

/-- COPY_DATA. One with NOWAIT begins at its first event and is performed at a later one. -/
def execCopyData (fn n : Nat) (s : State) : Out :=
  onStream fn n s fun p key x =>
    let pending : State :=
      match x.copies with
      | [] => s
      | c :: _ =>
        let (k, s1) := s.drawNat x.copies.length
        let d := x.copies.getD k c
        let (s2, r) := s1.copyData p key x d
        (s2.putStream key { x with copies := x.copies.eraseIdx k }).writeRecord p key x.xlat d.compl d.irq r
    match x.cmd with
    | some c =>
      if c.kind = 4 && c.mode == 0 && !x.begun then
        if c.nowait then s.putStream key { x.idle with copies := x.copies ++ [c] }
        else
          let (s1, r) := s.copyData p key x c
          s1.endCommand p key x c r
      else pending
    | none => pending

/-! ### FENCE (R266) -/

/-- Every earlier command of the stream has completed. -/
def Stream.drained (x : Stream) : Bool := x.launches.isEmpty && x.loads.isEmpty && x.releases.isEmpty && x.copies.isEmpty

def execCommandFence (fn n : Nat) (s : State) : Out :=
  onCommand fn n 5 s fun p key x c => if x.drained then s.endCommand p key x c .ok else s

end Sys2Proof.Machine
end

