-- ==== Sys2Proof/Machine/Loader.lean ====
section
/-! DEFINITION. Code objects: the loader's decisions, segments and relocations, and their release (spec/16 R246 to
R257; spec/17 R268, R314; spec/15 R238). -/

namespace Sys2Proof.Machine

/-! ### The prefix (R246 to R248, R253) -/

/-- A little-endian field of n bytes. -/
def bytesAt (bs : List Byte) (off n : Nat) : Nat := leNat ((bs.drop off).take n)

/-- Whether n bytes from an offset are zero. -/
def zeroAt (bs : List Byte) (off n : Nat) : Bool := bytesAt bs off n == 0

def headerBytes : Nat := 128

/-- Bytes of the prefix that a header announces. -/
def prefixBytes (h : List Byte) : Nat :=
  headerBytes + 32 + bytesAt h 14 1 * 64 + bytesAt h 32 4 * 16 + (if bytesAt h 15 1 / 2 % 2 = 1 then 3328 else 0)

/-- Steps 1 and 2 of R253 on the header: the kernel entry is even, canonical and outside vault space. -/
def headerOk (h : List Byte) : Bool :=
  let entry := BitVec.ofNat 64 (bytesAt h 16 8)
  let det := BitVec.ofNat 32 (bytesAt h 8 4)
  bytesAt h 0 4 == 0x004F4B54 && bytesAt h 4 2 == 1 && zeroAt h 36 12 && zeroAt h 80 48 && bytesAt h 15 1 / 4 == 0 &&
  decide (1 ≤ bytesAt h 12 2) && decide (1 ≤ bytesAt h 6 1) && !entry.getLsbD 0 && canonical entry &&
  !inVaultSpace entry && det &&& 0xFFFFFEE0#32 == 0 && !(det.getLsbD 8 && det &&& 0x1F#32 != 0)

/-- A header of an object that holds no unordered form (R237). -/
def headerOrdered (h : List Byte) : Bool := BitVec.ofNat 32 (bytesAt h 8 4) &&& 0x1F#32 == 0

/-- A header as a stream takes it: a deterministic one refuses an object with an unordered form at its load (R116, R136, R174).
That this is part of step 2, with status FORMAT, is a DESIGN CHOICE (log 84). -/
def headerFit (det : Bool) (h : List Byte) : Bool := headerOk h && (!det || headerOrdered h)

/-- The parts of a prefix. -/
def recordsAt : Nat := headerBytes + 32
def relocsAt (h : List Byte) : Nat := recordsAt + bytesAt h 14 1 * 64
def signatureAt (h : List Byte) : Nat := relocsAt h + bytesAt h 32 4 * 16

/-- The must-be-zero bytes of the relocation list and of the signature block. -/
def prefixZeros (p : List Byte) : Bool :=
  ((List.range (bytesAt p 32 4)).all fun i => zeroAt p (relocsAt p + 16 * i + 3) 1) &&
  (bytesAt p 15 1 / 2 % 2 == 0 || zeroAt p (signatureAt p + 3325) 3)

/-- 32 bytes as a hash value. -/
def hashAt (bs : List Byte) (off : Nat) : BitVec 256 := BitVec.ofNat 256 (bytesAt bs off 32)

/-- Step 3: the signature of the root, or the partition's policy for unsigned objects (R251). -/
def signatureOk (t : Partition) (p : List Byte) : Bool :=
  if bytesAt p 15 1 / 2 % 2 = 1 then
    let block := p.drop (signatureAt p)
    match t.keys.find? fun k => k.take 16 == block.take 16 with
    | some k => Config.mldsaVerify (k.drop 16) (shake256 (p.take (signatureAt p))) ((block.drop 16).take 3309)
    | none => false
  else !t.signed

def reqAt (p : List Byte) (n : Nat) : Word := BitVec.ofNat 64 (bytesAt p (headerBytes + 8 * n) 8)

/-- The status of a prefix by steps 1 to 6 of R253. -/
def prefixStatus (t : Partition) (det : Bool) (p : List Byte) : BitVec 8 :=
  let subset (a b : Word) : Bool := a &&& ~~~b == 0
  let mm := bytesAt p 7 1
  if !(headerFit det p && prefixZeros p) then 1
  else if !signatureOk t p then 2
  else if !(subset (reqAt p 0) t.caps.feat0 && subset (reqAt p 1) t.caps.feat1 && subset (reqAt p 2) t.caps.feat2 &&
            subset (reqAt p 3) t.caps.feat3) then 3
  else if !((mm == 1 && t.caps.mm.getLsbD 0) || (mm == 2 && t.caps.mm.getLsbD 1)) then 4
  else if !subset (BitVec.ofNat 64 (bytesAt p 24 8)) t.caps.errata then 5
  else if bytesAt p 6 1 ≤ (t.caps.mm.extractLsb' 8 8).toNat then 0 else 9

/-! ### Reading the stream (R268, R314) -/

/-- n bytes of a stream read one by one, or the address that fails. -/
def State.fetchBytes (s : State) (a : Agent) (src : Word) : Nat → Except (Word × ProcStop) (List Byte)
  | 0 => .ok []
  | n + 1 =>
    match s.procRead a src 1 with
    | .error e => .error (src, e)
    | .ok b =>
      match s.fetchBytes a (src + 1) n with
      | .ok r => .ok (b ++ r)
      | .error e => .error e

/-- A segment header's fields (R249). -/
def segmentOf (h : List Byte) : Segment :=
  { va := BitVec.ofNat 64 (bytesAt h 0 8), filesz := bytesAt h 8 4, memsz := bytesAt h 12 4,
    kind := BitVec.ofNat 8 (bytesAt h 16 1), frame := none }

/-- The segments that the records of a stream announce, as far as it can be read. How the device knows the address of a segment
that has not arrived is a DESIGN CHOICE (log 73): the record headers are read ahead, unverified, when the prefix is
accepted. -/
def State.announced (s : State) (a : Agent) (src : Word) (len : Nat) : Nat → Nat → List Segment
  | 0, _ => []
  | n + 1, off =>
    if len < off + 64 then []
    else
      match s.fetchBytes a (src + BitVec.ofNat 64 off) 64 with
      | .ok h => segmentOf h :: s.announced a src len n (off + 64 + bytesAt h 8 4)
      | .error _ => []

/-- What the loader makes of a prefix. -/
inductive Prefix where
  | unreadable (va : Word) (e : ProcStop)
  | refused (status : BitVec 8)
  | accepted (o : CodeObject)

/-- The object of an accepted prefix p. -/
def State.objectOf (s : State) (part key : Nat) (x : Stream) (c : Cmd) (p : List Byte) (status : BitVec 8) : CodeObject :=
  let a := s.processor part x.xlat
  let nseg := bytesAt p 12 2
  let first := prefixBytes p
  let word (off : Nat) : Word := BitVec.ofNat 64 (bytesAt p off 8)
  { handle := (c.dw 2), len := c.len, part := part, root := x.xlat, stream := key, entry := word 16,
    mmrev := BitVec.ofNat 2 (bytesAt p 7 1), errata := word 24,
    req := Vector.ofFn fun n => reqAt p n.val, ordered := headerOrdered p, pin := bytesAt p 15 1 % 2 == 1,
    nests := (List.range (bytesAt p 14 1)).map fun i => Vector.ofFn fun k => word (recordsAt + 64 * i + 8 * k.val),
    relocs := (List.range (bytesAt p 32 4)).map fun i => (word (relocsAt p + 16 * i), word (relocsAt p + 16 * i + 8)),
    ncores := (s.partAt part).ncores, status := status, nseg := nseg,
    segments := s.announced a (c.dw 2) c.len nseg first, arrived := 0, nextAt := first, expect := hashAt p 48,
    complete := false, failed := false, released := false, compl := c.compl, irq := c.irq, nowait := c.nowait }

/-- The prefix of the stream at SRC read and judged. A stream that is too short for it is no code object. -/
def State.loadPrefix (s : State) (part key : Nat) (x : Stream) (c : Cmd) : Prefix :=
  let a := s.processor part x.xlat
  let read (n : Nat) : Except (Word × ProcStop) (List Byte) := s.fetchBytes a (c.dw 2) (min n c.len)
  match read headerBytes with
  | .error (va, e) => .unreadable va e
  | .ok h =>
    if c.len < headerBytes || !headerFit x.det h || c.len < prefixBytes h then .refused 1
    else
      match read (prefixBytes h) with
      | .error (va, e) => .unreadable va e
      | .ok p =>
        let status := prefixStatus (s.partAt part) x.det p
        if status = 0 || status = 9 then .accepted (s.objectOf part key x c p status) else .refused status

/-- How many of n bytes from an address on are read, up to the first that fails. -/
def State.fetched (s : State) (a : Agent) (src : Word) (n : Nat) : Nat :=
  match s.fetchBytes a src n with
  | .ok _ => n
  | .error (va, _) => (va - src).toNat + 1

/-- How many bytes of the stream the test of a prefix reads. -/
def State.prefixReads (s : State) (part : Nat) (x : Stream) (c : Cmd) : Nat :=
  let a := s.processor part x.xlat
  match s.fetchBytes a (c.dw 2) (min headerBytes c.len) with
  | .ok h =>
    if c.len < headerBytes || !headerFit x.det h || c.len < prefixBytes h then min headerBytes c.len
    else s.fetched a (c.dw 2) (prefixBytes h)
  | .error _ => s.fetched a (c.dw 2) (min headerBytes c.len)

/-- COPY_OBJECT_LOAD. -/
def execCopyObjectLoad (fn n : Nat) (s : State) : Out :=
  onCommand fn n 4 s fun p key x c =>
    if c.mode = 1 then
      let t := s.procNoted (s.processor p x.xlat) (c.dw 2) (s.prefixReads p x c)
      match s.loadPrefix p key x c with
      | .unreadable va e => (t.endCommand p key x c (.error va)).procReport fn va e
      | .refused status => t.endCommand p key x c (.loader status)
      | .accepted o =>
        let id := t.nextObject
        let y := if c.nowait then { x with loads := x.loads ++ [id] } else x
        let s1 := { t with objects := tput t.objects id o, nextObject := id + 1 }
        s1.endCommand p key y c ⟨false, 0, o.status, 0, 0⟩
    else s

/-! ### Relocation (R250) -/

/-- Whether a 32-bit word is of the SI format. -/
def isSI (w : BitVec 32) : Bool :=
  w.extractLsb' 29 3 == 6#3 && [2, 3, 5, 6, 7, 11, 12, 13].contains (w.extractLsb' 23 6).toNat

/-- Whether it is of the SU format. -/
def isSU (w : BitVec 32) : Bool := w.extractLsb' 29 3 == 6#3 && w.extractLsb' 23 6 == 4#6

/-- Whether the IMM11 of a word holds a value: a CSR number, a LOOP length, a shift amount, or a signed value. -/
def imm11Fits (w : BitVec 32) (v : Int) : Bool :=
  let maj := (w.extractLsb' 23 6).toNat
  let min := (w.extractLsb' 21 2).toNat
  if maj = 13 then decide (0 ≤ v) && decide (v ≤ 2047)
  else if maj = 12 && min = 0 then decide (1 ≤ v) && decide (v ≤ 2047)
  else if maj = 3 && min < 3 then decide (0 ≤ v) && decide (v ≤ 63)
  else decide (-1024 ≤ v) && decide (v ≤ 1023)

/-- The bytes of an instruction word: the high parcel first, each little-endian (R6, R59). -/
def wordBytes (w : BitVec 32) : List Byte := leBytes 2 (w.toNat / 65536) ++ leBytes 2 (w.toNat % 65536)

/-- The instruction word at an offset. -/
def wordAt (bs : List Byte) (off : Nat) : BitVec 32 := BitVec.ofNat 32 (bytesAt bs off 2 * 65536 + bytesAt bs (off + 2) 2)

/-- One relocation applied to a segment's content; none when it breaks a limit. A KIND above 3 is one that breaks it (DESIGN
CHOICE, log 55: R250 gives it no status). -/
def relocate (content : List Byte) (kind off : Nat) (v : Int) : Option (List Byte) :=
  let put (bs : List Byte) : List Byte := content.take off ++ bs ++ content.drop (off + bs.length)
  let w := wordAt content off
  if content.length < off + (if kind = 3 then 8 else 4) then none
  else if kind = 0 then
    if off % 2 = 0 && isSU w && decide (-32768 ≤ v) && decide (v ≤ 32767) then
      some (put (wordBytes ((w &&& 0xFFFF0000#32) ||| (BitVec.ofInt 16 v).setWidth 32)))
    else none
  else if kind = 1 then
    if off % 2 = 0 && isSI w && imm11Fits w v then
      some (put (wordBytes ((w &&& 0xFFFFF800#32) ||| (BitVec.ofInt 11 v).setWidth 32)))
    else none
  else if kind = 2 then
    if decide (-(2 ^ 31) ≤ v) && decide (v ≤ 2 ^ 32 - 1) then some (put (leBytes 4 (BitVec.ofInt 32 v).toNat)) else none
  else if kind = 3 then some (put (leBytes 8 (BitVec.ofInt 64 v).toNat))
  else none

/-- The relocations of segment `index` applied; an entry that names no segment is judged with the last one. -/
def CodeObject.relocated (o : CodeObject) (index : Nat) : List (Word × Word) → List Byte → Option (List Byte)
  | [], content => some content
  | (w0, w1) :: r, content =>
    let seg := (w0.extractLsb' 0 16).toNat
    if o.nseg ≤ seg then (if index + 1 = o.nseg then none else o.relocated index r content)
    else if seg = index then
      let v := (w1.extractLsb' 0 32).toInt * (o.ncores : Int) + (w1.extractLsb' 32 32).toInt
      match relocate content (w0.extractLsb' 16 8).toNat (w0.extractLsb' 32 32).toNat v with
      | some c => o.relocated index r c
      | none => none
    else o.relocated index r content

/-! ### Placement and mapping (R249, R252) -/

/-- The rules of the segment header. A last byte that is not canonical, or lies in vault space or in the other half, breaks them
too (DESIGN CHOICE, log 55: R249 says so of VA alone). -/
def segmentOk (h : List Byte) : Bool :=
  let g := segmentOf h
  let last := g.va.toNat + g.memsz - 1
  g.va.toNat % 8 == 0 && canonical g.va && !inVaultSpace g.va && decide (g.filesz ≤ g.memsz) && decide (g.kind.toNat ≤ 2) &&
  zeroAt h 17 15 &&
  (g.memsz == 0 || (decide (last < 2 ^ 64) && canonical (BitVec.ofNat 64 last) && !inVaultSpace (BitVec.ofNat 64 last) &&
                    decide (g.va.toNat / 2 ^ 63 = last / 2 ^ 63)))

/-- The 64 KiB pages that a segment occupies. -/
def Segment.pages (g : Segment) : List Nat :=
  if g.memsz = 0 then []
  else
    let lo := g.va.toNat / 65536
    let hi := (g.va.toNat + g.memsz - 1) / 65536
    (List.range (hi - lo + 1)).map fun i => lo + i

/-- A page holds a mapping of the partition's tables, or of another object, or of a segment of another KIND. -/
def State.pageTaken (s : State) (id : Nat) (o : CodeObject) (g : Segment) (page : Nat) : Bool :=
  let va := page * 65536
  let tables := match s.stage1 o.part o.root (s.partAt o.part).root2 va with
    | .ok _ => true
    | _ => false
  let others := s.objects.any fun q => q.1 != id && q.2.inSpace o.part o.root && (q.2.mappedAt va).isSome
  let mine := (o.segments.take o.arrived).any fun q => q.occupies va && q.kind != g.kind
  tables || others || mine

/-- A frame can hold a segment: partition physical pages of this device (R283) that the partition may write. -/
def State.frameOk (s : State) (part : Nat) (g : Segment) (frame : Word) : Bool :=
  frame.toNat % 65536 == 0 && decide (frame.toNat + 65536 * g.pages.length ≤ 2 ^ 52) &&
  (List.range g.pages.length).all fun i =>
    match s.stage2In part (s.partAt part).root2 (frame.toNat + 65536 * i) true with
    | .ok l => nodeOf (s.fabric.normal l.base) == 0
    | _ => false

/-- Zeros written from a location of HBM on. -/
def State.zeroRange (s : State) (loc n : Nat) : State :=
  { s with mem := ckeep (fun k => !(decide (loc ≤ k) && decide (k < loc + n))) s.mem,
           poison := clearPoison s.poison loc n,
           repair := { s.repair with weak := clearPoison s.repair.weak loc n } }

/-- Content written, and the rest of n bytes zeroed, page by page at a mapped address. The bytes of a page outside the segment
stay what the frame held (DESIGN CHOICE, log 73). -/
def State.fillSegment (s : State) (a : Agent) : Nat → Word → Nat → List Byte → State
  | 0, _, _, _ => s
  | f + 1, va, n, bs =>
    if n = 0 then s
    else
      let k := min n (65536 - va.toNat % 65536)
      let now := bs.take k
      let s1 := match s.walk a va.toNat false with
        | .ok t => (s.write (t.at va.toNat) now).zeroRange (t.at va.toNat + now.length) (k - now.length)
        | _ => s
      s1.fillSegment a f (va + BitVec.ofNat 64 k) (n - k) (bs.drop k)

/-- The element of a list at an index replaced, or added at the end. -/
def putSegment (l : List Segment) (i : Nat) (g : Segment) : List Segment := l.take i ++ g :: l.drop (i + 1)

/-- The second record of a load, and the end of its wait. -/
def State.endLoad (s : State) (id : Nat) (o : CodeObject) (r : Record) : State :=
  let x := s.streamAt o.stream
  let s1 := { s with objects := tput s.objects id o }
  (s1.putStream o.stream { x with loads := x.loads.filter fun k => k != id }).writeRecord o.part o.stream o.root o.compl
    o.irq r

/-- The object ends: nothing further of it is accepted (R252). -/
def State.failLoad (s : State) (id : Nat) (o : CodeObject) (r : Record) : State := s.endLoad id { o with failed := true } r

/-- A segment with header h and its content mapped to a frame. -/
def State.mapSegment (s : State) (id : Nat) (o : CodeObject) (h content : List Byte) (frame : Word) : State :=
  let g := { segmentOf h with frame := some frame }
  let o1 := { o with
    segments := putSegment o.segments o.arrived g, arrived := o.arrived + 1, nextAt := o.nextAt + 64 + g.filesz,
    expect := hashAt h 32, complete := o.arrived + 1 == o.nseg }
  let s1 := { s with objects := tput s.objects id o1 }
  let a := s1.processor o.part o.root
  let s2 := s1.fillSegment a (g.pages.length + 1) g.va g.memsz content
  if o1.complete then s2.endLoad id o1 ⟨true, 0, o.status, 0, 0⟩ else s2

/-- The next segment record of an object that still loads. -/
def State.nextSegment (s : State) (id : Nat) (o : CodeObject) (frame : Word) : State :=
  let a := s.processor o.part o.root
  let start := o.handle + BitVec.ofNat 64 o.nextAt
  let unread (va : Word) (e : ProcStop) : State :=
    ((s.procNoted a start ((va - start).toNat + 1)).failLoad id o (.error va)).procReport (o.stream / 16) va e
  if o.len < o.nextAt + 64 then s.failLoad id o (.loader 8)
  else
    match s.fetchBytes a start 64 with
    | .error (va, e) => unread va e
    | .ok h =>
      let filesz := bytesAt h 8 4
      if o.len < o.nextAt + 64 + filesz then s.failLoad id o (.loader 8)
      else
        match s.fetchBytes a (start + 64) filesz with
        | .error (va, e) => unread va e
        | .ok content =>
          let g := segmentOf h
          let t := s.procNoted a start (64 + filesz)
          if shake256 (h ++ content) ≠ o.expect then t.failLoad id o (.loader 8)
          else if !segmentOk h || (o.arrived + 1 == o.nseg && hashAt h 32 != 0) || g.pages.any (s.pageTaken id o g)
          then t.failLoad id o (.loader 6)
          else
            match o.relocated o.arrived o.relocs content with
            | none => t.failLoad id o (.loader 7)
            | some c => if s.frameOk o.part g frame then t.mapSegment id o h c frame else s

def execSegmentRecordArrival (object : Nat) (frame : Word) (s : State) : Out :=
  match tget s.objects object with
  | some o => .next (if o.complete || o.failed then s else s.nextSegment object o frame)
  | none => .next s

/-! ### Release (R257, R268) -/

/-- The loaded object that a handle names in a partition. -/
def State.objectNamed (s : State) (part : Nat) (handle : Word) : Option (Nat × CodeObject) :=
  s.objects.find? fun o => decide (o.2.part = part) && o.2.handle == handle && !o.2.released && !o.2.failed

def execCopyObjectRelease (fn n : Nat) (s : State) : Out :=
  onCommand fn n 4 s fun p key x c =>
    if c.mode = 2 then
      match s.objectNamed p (c.dw 2) with
      | none => s.endCommand p key x c (.refused 2)
      | some (id, o) =>
        let s1 := { s with objects := tput s.objects id { o with released := true } }
        let wait : Pending := { object := id, compl := c.compl, irq := c.irq }
        let y := { x with releases := x.releases ++ [wait] }
        s1.putStream key (if c.nowait then y.idle else { y with begun := true })
    else s

/-- A release may complete: the object has loaded whole or failed, and no launch that has begun names it. -/
def State.releasable (s : State) (id : Nat) : Bool :=
  (match tget s.objects id with
   | some o => o.complete || o.failed
   | none => true) && s.launches.all fun l => l.2.begun.isNone || l.2.object != id

/-- The command that runs is the release that waits last. -/
def Stream.releasing (x : Stream) : Bool :=
  match x.cmd with
  | some c => c.kind == 4 && c.mode == 2 && x.begun
  | none => false

def execObjectReleaseCompletion (fn n : Nat) (s : State) : Out :=
  onStream fn n s fun p key x =>
    match x.releases.findIdx? fun r => s.releasable r.object with
    | none => s
    | some i =>
      match x.releases[i]? with
      | none => s
      | some r =>
        let y := { x with releases := x.releases.eraseIdx i }
        let z := if x.releasing && i + 1 == x.releases.length then y.idle else y
        let s1 := { s with objects := tdel s.objects r.object }
        (s1.putStream key z).writeRecord p key x.xlat r.compl r.irq .ok

end Sys2Proof.Machine
end

