-- ==== Sys2Proof/Machine/Repair.lean ====
section
/-! DEFINITION. Records of repairs, patrol scrubbing and repairs in service (spec/20 R305 to R309, R312; spec/12 R202). -/

namespace Sys2Proof.Machine

/-! ### Records (R308, R312) -/

/-- The 32 bytes of the n-th record of the log (R308). -/
def ErrorRecord.bytes (e : ErrorRecord) (n : Nat) : List Byte :=
  leBytes 8 (e.kind % 256 + 256 * (e.unit % 256) + 65536 * (e.part % 16) + 4294967296 * (e.count % 4294967296)) ++
    leBytes 8 e.location ++ leBytes 8 (Config.cycles n).toNat ++ leBytes 8 0

/-- The error log in the Pip memory of a die. -/
def State.errorLog (s : State) (die : Nat) : List (List Byte) :=
  (s.repair.log.zipIdx.filter fun p => p.1.die == die).map fun p => p.1.bytes p.2

/-- A repair's record, and the amendment to the unit map that Pip signs. -/
def State.repaired (s : State) (e : ErrorRecord) : State :=
  let bytes := Config.amendmentBytes e.kind e.unit e.location s.boot.count
  let t := s.logError e
  { t with boot := { t.boot with amendments := t.boot.amendments ++ [(bytes, Config.mldsaSign bytes)] } }

/-! ### Patrol scrubbing (R305, R307) -/

/-- A pass over the code words of a range: correctable errors are corrected and written back, others logged and left. -/
def State.patrol (s : State) (lo n : Nat) : State :=
  let inside (w : Nat) : Bool := decide (lo ≤ w) && decide (w < lo + n)
  let s0 := { s with repair := { s.repair with recent := s.repair.recent.filter fun w => !inside w } }
  let s1 := (s.repair.weak.filter inside).foldl State.correct s0
  let s2 := { s1 with repair := { s1.repair with weak := s1.repair.weak.filter fun w => !inside w } }
  (s.poison.filter inside).foldl (fun t w => t.logError (t.wordRecord 3 w)) s2

def execHbmPatrolScrub (stack : Nat) (s : State) : Out :=
  .next (if stack < 8 then s.patrol (stack * 2 ^ 36) (2 ^ 36) else s)

def execVaultPatrolScrub (core : Nat) (s : State) : Out :=
  .next (if core < Config.cores then s.patrol (vaultLoc core 0) Config.vaultBytes else s)

/-! ### Rows (R309) -/

/-- The bank and row of a code word of a unit; none when it lies elsewhere (R202). -/
def rowOf (u : RowUnit) (word : Nat) : Option (Nat × Nat) :=
  match u with
  | .hbm stack => if word < vaultKey && word / 2 ^ 36 == stack then some (Config.hbmRow word) else none
  | .vault core =>
    if vaultLoc core 0 ≤ word && word < vaultLoc core 0 + Config.vaultBytes then
      let o := (word - vaultKey) % Config.vaultBytes
      some (o / 8 % 64, o / 512)
    else none

/-- The key of a bank, by which the unit map counts its used spare rows too, and the spare rows it has. -/
def bankKey (u : RowUnit) (bank : Nat) : Nat :=
  match u with
  | .hbm stack => 2 * (stack * 65536 + bank)
  | .vault core => 2 * (core * 65536 + bank) + 1

def spareRows (u : RowUnit) : Nat :=
  match u with
  | .hbm _ => 4
  | .vault _ => 2

/-- ROW_REMAP: a row with three corrected errors between scrub passes, or an uncorrectable one, moves to a spare; its
bytes and its uncorrectable words stay as they are. With no spare left the error is reported again. -/
def execRowRemap (unit : RowUnit) (bank row : Nat) (s : State) : Out :=
  let here (w : Nat) : Bool := rowOf unit w == some (bank, row)
  let bad := s.poison.filter here
  let weak := s.repair.recent.filter here
  let word := (bad ++ weak).headD 0
  if !bad.isEmpty || decide (3 ≤ weak.length) then
    let used := (tget s.repair.moved (bankKey unit bank)).getD []
    if used.length + (tget s.boot.unitMap.spareRowsUsed (bankKey unit bank)).getD 0 < spareRows unit then
      .next (({ s with repair := { s.repair with
        moved := tput s.repair.moved (bankKey unit bank) (used ++ [row]),
        recent := s.repair.recent.filter fun w => !here w } } : State).repaired (s.wordRecord 4 word))
    else .next (s.logError (s.wordRecord (if bad.isEmpty then 1 else 2) word))
  else .next s

/-! ### Slices, tile rows and cores (R309) -/

/-- LANE_SLICE_RETIRE: a slice with two uncorrectable register errors. -/
def execLaneSliceRetire (core slice : Nat) (s : State) : Out :=
  let c := s.coreAt core
  if core < Config.cores && decide (slice < 16) && !c.slicesLost.contains slice &&
     decide (2 ≤ (tget s.repair.sliceErrors (16 * core + slice)).getD 0) then
    .next ((s.setCoreAt core { c with slicesLost := c.slicesLost ++ [slice] }).repaired
      { die := dieOf core, kind := 6, unit := 3, part := s.partOfCore core, count := 0, location := unitPlace core slice })
  else .next s

/-- ARRAY_TILE_ROW_RETIRE: a tile row with two uncorrectable cell errors. A band that holds it keeps it until it is
detached. -/
def execArrayTileRowRetire (cluster row : Nat) (s : State) : Out :=
  if cluster < Config.clusters && decide (row < 16) && !s.repair.tileRowsLost.contains (cluster, row) &&
     decide (2 ≤ (tget s.repair.rowErrors (16 * cluster + row)).getD 0) then
    .next (({ s with repair := { s.repair with tileRowsLost := s.repair.tileRowsLost ++ [(cluster, row)] } } : State).repaired
      { die := cluster / 12, kind := 6, unit := 4, part := s.partOfCore (4 * cluster), count := 0,
        location := cluster / 12 + 256 * cluster })
  else .next s

/-- A change of one hart brought in front, and then the hart before it in front again. -/
def State.atHart (s : State) (h : Nat) (f : State → State) : State := (f (s.focus h)).focus s.cur

/-- CORE_RETIRE: at the end of its workgroups, or at once with fault 0x11 for the harts that run one. -/
def execCoreRetire (core : Nat) (s : State) : Out :=
  let c := s.coreAt core
  if core < Config.cores && !c.retired then
    let s1 := (s.setCoreAt core { c with retired := true }).repaired
      { die := dieOf core, kind := 6, unit := 3, part := s.partOfCore core, count := 0, location := unitPlace core 0 }
    let harts := [2 * core, 2 * core + 1]
    if harts.all fun h => (s1.hartAt h).gone then .next { s1 with parts := vacate core s1.parts }
    else
      let (now, s2) := s1.drawBit
      if now then
        let s3 := harts.foldl (fun t h =>
          if (t.hartAt h).live then t.atHart h fun u => u.takeFault (plainFault 0x11) else t) s2
        .next { s3 with parts := vacate core s3.parts }
      else .next s2
  else .next s

end Sys2Proof.Machine
end

