-- ==== Sys2Proof/Machine/Launch.lean ====
section
/-! DEFINITION. Launches, loop-nest records and the walker (spec/17 R269 to R276; spec/15 R238 to R241; spec/01 R14,
R15; spec/00 R5). -/

namespace Sys2Proof.Machine

/-! ### Loop-nest records (R272, R273) -/

/-- Spatial levels, each with whether it is of kind DIES, and temporal levels. -/
structure Nest where
  spatial : List (Nat × Bool)
  temporal : List Nat
deriving DecidableEq, Repr

def listProduct : List Nat → Nat
  | [] => 1
  | c :: r => c * listProduct r

/-- The level in a doubleword: its count and kind. -/
def levelOf (w : Word) : Option (Nat × Nat) :=
  let count := (w.extractLsb' 0 32).toNat
  let kind := (w.extractLsb' 32 2).toNat
  if count = 0 || kind = 3 || w.extractLsb' 34 30 != 0#30 then none else some (count, kind)

/-- A legal record as levels; none when it breaks a limit of R272. -/
def nestOf (c : Cmd) : Option Nest :=
  let n := ((c.dw 0).extractLsb' 0 3).toNat
  let levels := ((c.toList.drop 1).take n).map levelOf
  if n < 1 || 4 < n || (c.dw 0).extractLsb' 3 61 != 0#61 || (c.toList.drop (1 + n)).any (fun w => w != 0) ||
     levels.any Option.isNone then none
  else
    let ls := levels.filterMap id
    let sp := (ls.filter fun l => l.2 != 0).map fun l => (l.1, l.2 == 2)
    let tp := (ls.filter fun l => l.2 == 0).map Prod.fst
    if 3 < sp.length || 3 < tp.length || 1 < (sp.filter Prod.snd).length || 2 ^ 48 ≤ listProduct (sp.map Prod.fst)
    then none else some ⟨sp, tp⟩

/-- The record that NEST names; an object with no record runs a single workgroup. -/
def CodeObject.nest (o : CodeObject) (index : Nat) : Option Nest :=
  if o.nests.isEmpty then (if index = 0 then some ⟨[], []⟩ else none) else (o.nests[index]?).bind nestOf

/-- The indices of a flat index, the last level varying fastest. -/
def digits : List Nat → Nat → List Nat
  | [], _ => []
  | c :: r, i => (i / listProduct r % c) :: digits r i

/-- The flat index of indices. -/
def undigits : List Nat → List Nat → Nat
  | _ :: r, d :: ds => d * listProduct r + undigits r ds
  | _, _ => 0

/-! ### Lanes of the walker (R241, R274, R275) -/

/-- Dies whose bits are set in capcore.DIES, ascending. -/
def Partition.dies (p : Partition) : List Nat := (List.range 4).filter fun d => p.caps.core.getLsbD (12 + d)

def Launch.counts (l : Launch) : List Nat := l.spatial.map Prod.fst

/-- Workgroups of the launch. -/
def Launch.total (l : Launch) : Nat := listProduct l.counts

def Launch.byDie (l : Launch) : Bool := !l.det && l.spatial.any Prod.snd

/-- Lanes along which workgroups are handed out in ascending order. -/
def Launch.lanes (l : Launch) (p : Partition) : Nat :=
  if l.det then p.ncores else if l.byDie then p.dies.length else 1

/-- The lane that a core serves. -/
def Launch.laneOf (l : Launch) (p : Partition) (core ordinal : Nat) : Option Nat :=
  if l.det then some ordinal else if l.byDie then p.dies.findIdx? fun d => d == dieOf core else some 0

/-- The indices of the DIES level that lane d of D serves: the first, and how many. -/
def dieBlock (c d n : Nat) : Nat × Nat := (c * d / n, c * (d + 1) / n - c * d / n)

/-- The k-th workgroup of a lane, in ascending order. -/
def Launch.nth (l : Launch) (p : Partition) (lane k : Nat) : Option Nat :=
  if l.byDie then
    let block := l.spatial.map fun s => if s.2 then dieBlock s.1 lane p.dies.length else (0, s.1)
    if k < listProduct (block.map Prod.snd) then
      some (undigits l.counts (((digits (block.map Prod.snd) k).zip block).map fun x => x.1 + x.2.1))
    else none
  else
    let i := if l.det then lane + p.ncores * k else k
    if i < l.total then some i else none

/-- The ordinal that a core backs. -/
def Partition.ordinalOf (p : Partition) (core : Nat) : Option Nat := p.ordinals.findIdx? fun o => o == some core

/-- A hart of the partition's cores that holds no workgroup. -/
def State.freeHart (s : State) (part hart : Nat) : Option Nat :=
  let p := s.partAt part
  let die := dieOf (coreOf hart)
  if decide (hart < Config.harts) && p.active && (s.hartAt hart).run == .absent && !(s.coreAt (coreOf hart)).retired &&
     s.boot.diesUp.getLsbD die && s.boot.huskUp.getLsbD die
  then p.ordinalOf (coreOf hart) else none

/-- No workgroup of the launch on this ordinal is still to complete, and the core runs no other (R241, R275). -/
def State.ordinalFree (s : State) (l : Launch) (hart ordinal : Nat) : Bool :=
  hart % 2 == 0 && (s.hartAt (hart + 1)).run == .absent &&
  l.running.all fun h => (s.hartAt h).ctl.index % (s.partAt l.part).ncores != ordinal

/-- The workgroup that a launch can give a hart: its lane, and its index. -/
def State.offer (s : State) (l : Launch) (hart : Nat) : Option (Nat × Nat) :=
  if l.begun.isSome && l.ended.isNone then
    let p := s.partAt l.part
    match s.freeHart l.part hart with
    | none => none
    | some k =>
      if l.det && !s.ordinalFree l hart k then none
      else
        match l.laneOf p (coreOf hart) k with
        | none => none
        | some lane => (l.nth p lane (l.handed.getD lane 0)).map fun i => (lane, i)
  else none

/-- An older running launch of the partition has a workgroup for the hart (R276). -/
def State.olderOffer (s : State) (l : Launch) (hart : Nat) : Bool :=
  s.launches.any fun q =>
    decide (q.2.part = l.part) && (match q.2.begun, l.begun with
      | some a, some b => decide (a < b)
      | _, _ => false) && (s.offer q.2 hart).isSome

/-! ### The start of a workgroup (R5, R14, R15, R270) -/

/-- The registers a workgroup starts with. -/
def Launch.regs (l : Launch) (i ordinal ncores : Nat) : Vector Word 32 :=
  let ds := digits l.counts i
  let w (n : Nat) : Word := BitVec.ofNat 64 n
  let r : Vector Word 32 := Vector.replicate 32 0
  (((((((((r.set 1 (w i)).set 2 (w (ds.getD 0 0))).set 3 (w (ds.getD 1 0))).set 4 (w (ds.getD 2 0))).set 5 l.args).set 6
    (w ordinal)).set 7 (w ncores)).set 8 (w (l.temporal.getD 0 0))).set 9 (w (l.temporal.getD 1 0))).set 10
    (w (l.temporal.getD 2 0))

/-- A hart at the start of workgroup i. tvec, tepc, PP and SO are Husk's and stay. -/
def Hart.start (old : Hart) (l : Launch) (o : CodeObject) (p : Partition) (id i ordinal : Nat) : Hart :=
  { Hart.reset with
    run := .running, pc := o.entry, regs := l.regs i ordinal p.ncores,
    csr := { UserCsr.reset with det := l.det, mmrev := o.mmrev },
    sup := { old.sup with tcause := 0, hpri := l.pri, xlat1 := l.root &&& 0x800FFFFFFFFFF000#64, xlat2 := p.root2 },
    ctl := { HartCtl.reset with errata := o.errata, req := o.req, part := l.part, launch := some id, index := i } }

/-- A vault half becomes free until written. -/
def State.forgetHalf (s : State) (half : Nat) : State :=
  { s with vaults := tput s.vaults half s.free.count, free := s.free.next }

/-- The vault data of earlier workgroups does not reach this one. -/
def State.forgetVault (s : State) (core : Nat) (p : Partition) : State :=
  match p.pair with
  | none => (s.forgetHalf (2 * core)).forgetHalf (2 * core + 1)
  | some _ => s.forgetHalf (2 * core + if p.half then 1 else 0)

/-- A `.pin` launch that keeps the core's vault has not completed: its data stays (R276). -/
def State.vaultPinned (s : State) (core part : Nat) : Bool :=
  (s.coreAt core).pinned.any fun k => (tget s.launches k).any fun q => decide (q.part = part) && q.begun.isSome

/-- Workgroup i of launch id handed to a hart. -/
def State.handOff (s : State) (id : Nat) (l : Launch) (o : CodeObject) (hart lane i ordinal : Nat) : State :=
  let p := s.partAt l.part
  let core := coreOf hart
  let keep := s.vaultPinned core l.part || (s.hartAt (sibling hart)).run != .absent
  let s1 := if keep then s else s.forgetVault core p
  let c := s1.coreAt core
  let left := c.pinned.filter fun k => (tget s1.launches k).isSome && k != id
  let s2 := s1.setCoreAt core { c with pinned := if l.pin then left ++ [id] else left }
  let s3 := s2.setHartAt hart ((s2.hartAt hart).start l o p id i ordinal)
  let l1 := { l with handed := l.handed.set lane (l.handed.getD lane 0 + 1), running := l.running ++ [hart] }
  { s3 with launches := tput s3.launches id l1 }

def execWorkgroupHandoff (launch hart : Nat) (s : State) : Out :=
  match tget s.launches launch with
  | none => .next s
  | some l =>
    match s.offer l hart, s.freeHart l.part hart, tget s.objects l.object with
    | some (lane, i), some k, some o => .next (if s.olderOffer l hart then s else s.handOff launch l o hart lane i k)
    | _, _, _ => .next s

/-! ### Beginning (R269) -/

/-- A launch may begin: beside a deterministic launch no other of its partition runs, and one begins only with every
ordinal backed. -/
def State.mayBegin (s : State) (part : Nat) (det : Bool) : Bool :=
  let running := s.launches.filter fun q => decide (q.2.part = part) && q.2.begun.isSome
  if det then running.isEmpty && (s.partAt part).ordinals.all Option.isSome else running.all fun q => !q.2.det

/-- The vault of a core keeps its data from now on for a `.pin` launch (R276); what earlier workgroups left in an idle core's
is lost first. -/
def State.pinCore (s : State) (id part core : Nat) : State :=
  let idle := (s.hartAt (2 * core)).run == .absent && (s.hartAt (2 * core + 1)).run == .absent
  let t := if idle && !s.vaultPinned core part then s.forgetVault core (s.partAt part) else s
  let c := t.coreAt core
  t.setCoreAt core { c with pinned := c.pinned ++ [id] }

/-- The launch begins; with NOWAIT its stream goes on. One that declares `.pin` keeps the vaults of all its ordinals' cores
from its beginning on: other cores write them laterally before they have a workgroup of it. -/
def State.begin (s : State) (id : Nat) (l : Launch) : State :=
  let x := s.streamAt l.stream
  let p := s.partAt l.part
  let l1 := { l with begun := some s.nextLaunch, handed := List.replicate (l.lanes p) 0 }
  let s0 := if l.pin then (p.ordinals.filterMap (fun o => o)).foldl (fun t c => t.pinCore id l.part c) s else s
  let s1 := { s0 with launches := tput s0.launches id l1, nextLaunch := s0.nextLaunch + 1 }
  if l.nowait then s1.putStream l.stream { x.idle with launches := x.launches ++ [id] } else s1

/-- DETAIL of the first test that fails, or the launch (R269). An object with an unordered form that an ordinary stream has
loaded is refused on a deterministic one. -/
def State.testLaunch (s : State) (part key : Nat) (x : Stream) (c : Cmd) : Except (BitVec 8) Launch :=
  match s.objectNamed part (c.dw 2) with
  | none => .error 2
  | some (id, o) =>
    match o.nest ((c.dw 4).extractLsb' 0 8).toNat with
    | none => .error 3
    | some nest =>
      if x.det && !o.ordered then .error 1
      else if (s.partAt part).ncores ≠ o.ncores then .error 4
      else
        .ok { stream := key, part := part, object := id, root := x.xlat, args := (c.dw 3), pri := (c.dw 4).extractLsb' 8 2,
              det := x.det, pin := o.pin, spatial := nest.spatial, temporal := nest.temporal, handed := [],
              running := [], begun := none, ended := none, nowait := c.nowait, compl := c.compl,
              irq := c.irq }

def execLaunch (fn n : Nat) (s : State) : Out :=
  onCommand fn n 1 s fun p key x c =>
    match s.testLaunch p key x c with
    | .error d => s.endCommand p key x c (.refused d)
    | .ok l =>
      let id := s.nextLaunch
      let s1 := ({ s with launches := tput s.launches id l, nextLaunch := id + 1 } : State).putStream key
        { x with begun := true }
      if s.mayBegin p x.det then s1.begin id l else s1

/-- A launch that waited begins: it is tested again, and refused if its object is gone or what it needs has changed. -/
def State.beginLate (s : State) (id : Nat) (l : Launch) : State :=
  let x := s.streamAt l.stream
  match x.cmd with
  | none => s.begin id l
  | some c =>
    match s.testLaunch l.part l.stream { x with det := l.det, xlat := l.root } c with
    | .error d => ({ s with launches := tdel s.launches id } : State).endCommand l.part l.stream x c (.refused d)
    | .ok q => s.begin id q

/-- LAUNCH_DEFERRED_BEGIN: a launch that waits until it may begin. -/
def execLaunchDeferredBegin (launch : Nat) (s : State) : Out :=
  match tget s.launches launch with
  | none => .next s
  | some l => .next (if l.begun.isNone && s.mayBegin l.part l.det then s.beginLate launch l else s)

/-! ### Completion (R271) -/

/-- Every workgroup has been handed out. -/
def Launch.allHanded (l : Launch) : Bool := l.handed.sum == l.total

/-- The launch leaves, its record written. -/
def State.endLaunch (s : State) (id : Nat) (l : Launch) (r : Record) : State :=
  let s1 := { s with launches := tdel s.launches id }
  let x := s1.streamAt l.stream
  let y := if l.nowait then { x with launches := x.launches.filter fun k => k != id } else x.idle
  (s1.putStream l.stream y).writeRecord l.part l.stream l.root l.compl l.irq r

def execLaunchCompletion (launch : Nat) (s : State) : Out :=
  match tget s.launches launch with
  | none => .next s
  | some l =>
    if l.begun.isSome && l.running.isEmpty then
      match l.ended with
      | some (c, i) => .next (s.endLaunch launch l (.faulted c i))
      | none => .next (if l.allHanded then s.endLaunch launch l .ok else s)
    else .next s

/-- The workgroup of the hart in front ended by Husk: its strip aborted; a frozen hart stays. -/
def State.cutOff (s : State) : State :=
  let s1 := if s.stripOpen then s.abort else s
  if s.hart.run == .frozen then s1 else { s1.endWorkgroup with saved := tdel s1.saved s1.cur }

/-- Whether a hart has trapped. -/
def Hart.trapped (h : Hart) : Bool :=
  h.priv == .supervisor || (match h.run with
    | .stopped _ => true
    | _ => false)

def execLaunchFaultedEnd (launch hart : Nat) (s : State) : Out :=
  match tget s.launches launch with
  | none => .next s
  | some l =>
    let h := s.hartAt hart
    if l.running.contains hart && l.ended.isNone && h.trapped then
      let s1 := { s with launches := tput s.launches launch { l with ended := some (h.sup.tcause, h.ctl.index) } }
      .next (l.running.foldl (fun t k => t.atHart k State.cutOff) s1)
    else .next s

end Sys2Proof.Machine
end

