-- ==== Sys2Proof/Machine/Image.lean ====
section
/-! DEFINITION. The images of saved contexts: the header and the blocks of a hart image as bytes, the save area of a core,
and a hart read back from its image (spec/19 R293 to R295). Log 86 lists what of the layout is the model's choice. -/

namespace Sys2Proof.Machine

/-- The doubleword at a location. -/
def State.dword (s : State) (loc : Nat) : Word := BitVec.ofNat 64 (s.readNat loc 8)

def dwordBytes (ws : List Word) : List Byte := ws.flatMap fun w => leBytes 8 w.toNat

/-- Bytes with zeros after them, up to the size of a block. -/
def padded (n : Nat) (bs : List Byte) : List Byte := bs ++ List.replicate (n - bs.length) 0

/-! ### The header (R293) -/

/-- The M field of the macro-operation suspended at the pc: bits [5:3] of its base word. -/
def State.suspendedMask (s : State) : Word :=
  match (s.reachAddr s.self (s.hart.pc + 6) .fetch).2 with
  | .hit h => (s.byte h.loc).extractLsb' 3 3 |>.setWidth 64
  | _ => 0

/-- The header of the image of the hart in front. -/
def State.header (s : State) : Vector Word 9 :=
  let u := s.hart.csr
  let p := s.hart.sup
  let part := s.hart.ctl.part
  let ordinal := ((s.partAt part).ordinalOf (coreOf s.cur)).getD 0
  #v[field u.vl 0 ||| field u.gvl 16 ||| field u.rc 28 ||| bit u.tp 30 ||| bit u.so 31 |||
       (if u.mseqAct then s.suspendedMask <<< 32 else 0),
     u.ggen, u.ncarry.word,
     u.mseq ||| (s.tgrant <<< 24) ||| (s.mvl <<< 32) ||| bit s.ownMatrix.isSome 48 |||
       (if s.ownMatrix.isSome then BitVec.ofNat 64 (clusterOf (coreOf s.cur)) <<< 50 else 0),
     s.hart.pc, if u.so then s.hart.strip.cp.pc else 0,
     field u.mmrev 0 ||| bit u.det 2 ||| field p.hpri 4 ||| bit s.hart.ui.inHandler 6 ||| (BitVec.ofNat 64 ordinal <<< 8) |||
       (BitVec.ofNat 64 part <<< 16),
     p.xlat1, s.hart.ctl.errata]

/-- The CLUSTER field of a header that says the hart owns matrix state replaced (R294). -/
def moveCluster (h : Vector Word 9) (cluster : Nat) : Vector Word 9 :=
  if h[3].getLsbD 48 then h.set 3 ((h[3] &&& ~~~mask 50 6) ||| (BitVec.ofNat 64 cluster <<< 50)) else h

/-! ### The save area of a core (R293) -/

/-- The save area of the core of an ordinal, at partition physical SAVEBASE. -/
def Partition.saveArea (p : Partition) (ordinal : Nat) : Nat := p.saveBase.toNat + saveBytes * ordinal

/-- Where the store buffers of its two harts and the matrix image begin in a core's save area. -/
def bufferAt (hart : Nat) : Nat := 2 * imageSize + 262144 * (hart % 2)
def matrixImageAt : Nat := 2 * imageSize + 524288

/-! ### A hart image as bytes -/

def Loop.words (l : Loop) : List Word := [l.start, l.stop, l.count]

/-- At most three loops (R91), and how many there are. -/
def loopWords (ls : List Loop) : List Word :=
  let ws := ls.flatMap Loop.words
  ws ++ List.replicate (9 - ws.length) 0 ++ [BitVec.ofNat 64 ls.length]

def Checkpoint.words (c : Checkpoint) : List Word :=
  c.regs.toList.drop 1 ++ loopWords c.loops ++ [c.ncarry.word, field c.fflags 0, c.step, field c.vl 0]

/-- The CSRs of the block at 0x0400, in its order. -/
def imageCsrs : List (BitVec 11) :=
  [0x003#11, 0x005#11, 0x006#11, 0x007#11, 0x010#11, 0x011#11, 0x012#11, 0x030#11, 0x031#11, 0x032#11, 0x033#11, 0x034#11,
    0x035#11]

def VDesc.words (v : VDesc) : List Word :=
  [v.addr ||| 1, v.root,
   BitVec.ofNat 64 v.rbits ||| (BitVec.ofNat 64 v.levels <<< 8) ||| (BitVec.ofNat 64 v.esize <<< 16) ||| bit v.walloc 24 |||
     bit v.deleg 25,
   v.bg, 0, 0, 0, 0]

def LockRange.words (r : LockRange) : List Word := [r.base, r.len ||| bit true 63]

def VReg.bytes (v : VReg) : List Byte := (List.range 1024).flatMap fun e => leBytes 4 (cget v.cells e).toNat

/-- The image of the hart in front. -/
def State.image (s : State) : List Byte :=
  let h := s.hart
  padded 256 (dwordBytes s.header.toList) ++
  padded 256 (dwordBytes (h.regs.toList.drop 1)) ++
  padded 512 (dwordBytes h.strip.cp.words) ++
  padded 512 (dwordBytes (imageCsrs.map (fun c => (s.csr c).getD 0) ++ loopWords h.loops ++ h.ui.bank.toList)) ++
  dwordBytes (h.vdesc.toList.flatMap fun v => (v.map VDesc.words).getD (List.replicate 8 0)) ++
  dwordBytes ((List.range 32).flatMap fun r => ((tget h.locks r).map LockRange.words).getD [0, 0]) ++
  padded 256 (dwordBytes ((List.range 10).map fun i => (s.csr (0x500#11 + BitVec.ofNat 11 i)).getD 0)) ++
  h.mregs.toList.flatMap (fun m => leBytes 1024 m.bits.toNat) ++
  h.vregs.toList.flatMap VReg.bytes

/-! ### A hart read back from its image -/

def State.loopsAt (s : State) (loc : Nat) : List Loop :=
  (List.range (min 3 (s.dword (loc + 72)).toNat)).map fun i =>
    ⟨s.dword (loc + 24 * i), s.dword (loc + 24 * i + 8), s.dword (loc + 24 * i + 16)⟩

def chainOf (w : Word) : Chain := ⟨w.extractLsb' 0 32, w.extractLsb' 32 16⟩

/-- s1 to s31 at a location; s0 reads 0. -/
def State.regsAt (s : State) (loc : Nat) : Vector Word 32 :=
  Vector.ofFn fun i => if i.val = 0 then 0 else s.dword (loc + 8 * (i.val - 1))

def State.checkpointAt (s : State) (loc : Nat) (pc : Word) : Checkpoint :=
  { regs := s.regsAt loc, loops := s.loopsAt (loc + 248), ncarry := chainOf (s.dword (loc + 328)),
    fflags := (s.dword (loc + 336)).setWidth 5, step := s.dword (loc + 344), pc := pc,
    vl := (s.dword (loc + 352)).setWidth 14 }

def State.vdescAt (s : State) (loc : Nat) : Option VDesc :=
  let g := s.dword (loc + 16)
  if s.dword loc &&& 1 = 0 then none
  else some
    { addr := s.dword loc &&& ~~~1#64, root := s.dword (loc + 8), rbits := (g.extractLsb' 0 8).toNat,
      levels := (g.extractLsb' 8 8).toNat, esize := (g.extractLsb' 16 8).toNat, walloc := g.getLsbD 24, deleg := g.getLsbD 25,
      bg := s.dword (loc + 24) }

/-- The locked ranges of an image, each with the translations it had where its bounds are the same. -/
def State.locksAt (s : State) (loc : Nat) (old : List (Nat × LockRange)) : List (Nat × LockRange) :=
  (List.range 32).filterMap fun r =>
    let base := s.dword (loc + 16 * r)
    let len := s.dword (loc + 16 * r + 8)
    let trans := match tget old r with
      | some x => if x.base = base ∧ x.len = len &&& mask 0 63 then x.trans else []
      | none => []
    if len.getLsbD 63 then some (r, ⟨base, len &&& mask 0 63, trans⟩) else none

def State.recordAt (s : State) (loc : Nat) : FaultRecord :=
  { fcause := s.dword loc, fpc := s.dword (loc + 8), fstrip := s.dword (loc + 16), felem := s.dword (loc + 24),
    fidx0 := s.dword (loc + 32), fidx1 := s.dword (loc + 40), fidx2 := s.dword (loc + 48), faddr := s.dword (loc + 56),
    fcoord := s.dword (loc + 64), finfo := s.dword (loc + 72) }

/-- The elements of a vector register at a location. -/
def State.vectorAt (s : State) (loc : Nat) : Cells 32 :=
  clist 0 ((List.range 1024).map fun e => BitVec.ofNat 32 (s.readNat (loc + 4 * e) 4))

/-- A halted hart with what the image at a location holds; stale bits, the loops set aside and the store buffer, which
have no place in the image or no layout, are of its record. Completions since the save are in the image's uipend. -/
def State.hartFrom (s : State) (loc : Nat) (x : Hart) : Hart :=
  let c := loc + 0x400
  let w (i : Nat) : Word := s.dword (c + 8 * i)
  { x with
    regs := s.regsAt (loc + 0x100),
    strip := { x.strip with cp := s.checkpointAt (loc + 0x200) (s.dword (loc + 40)) },
    csr := { x.csr with rmode := (w 0).setWidth 2, step := w 1, fflags := (w 2).setWidth 5, lse := (w 3).setWidth 8,
                        dim0 := w 4, dim1 := w 5, dim2 := w 6 },
    ui := { x.ui with
      uivec := w 7, kind := (w 8).extractLsb' 0 2, queue := (w 8).extractLsb' 2 2, value := (w 8).extractLsb' 8 56,
      uiepc := w 9, maskEq := (w 10).extractLsb' 0 4, maskRaise := (w 10).getLsbD 4,
      pendEq := (w 11).extractLsb' 0 4, pendRaise := (w 11).getLsbD 4, uistk := w 12,
      bank := Vector.ofFn fun i => s.dword (c + 184 + 8 * i.val) },
    loops := s.loopsAt (c + 104),
    vdesc := Vector.ofFn fun i => s.vdescAt (loc + 0x600 + 64 * i.val),
    locks := s.locksAt (loc + 0x700) x.locks,
    record := s.recordAt (loc + 0x900),
    mregs := Vector.ofFn fun i => ⟨x.mregs[i].stale, BitVec.ofNat _ (s.readNat (loc + 0xA00 + 1024 * i.val) 1024)⟩,
    vregs := Vector.ofFn fun i => ⟨x.vregs[i].stale, s.vectorAt (loc + 0x2A00 + 4096 * i.val)⟩ }

/-! ### A context saved (R292, R293, R295) -/

/-- Bytes whose values the spec does not give, in a part of a save area: a store buffer or a matrix image, which have no
layout. -/
def State.unlaid (s : State) (loc n : Nat) : State :=
  s.write loc ((List.range n).map fun i => Config.freeByte s.free.count (loc + i))

/-- Whether the slot of the core in front in the shadow SRAM is taken: the pool holds one switched-out context per core,
which is an image of each hart and the core's matrix image (R295). A switch saves the running member while it restores the
other, whose contexts leave their slots (R298). -/
def State.slotTaken (s : State) : Bool :=
  let part := s.hart.ctl.part
  !(s.partAt part).switching && s.saved.any fun k =>
    coreOf k.1 == coreOf s.cur && (s.hartAt k.1).ctl.part != part && k.2.area.isNone

/-- The cells of the hart in front and of its matrix state whose errors the save sequencer's reads correct (R305). -/
def State.weakCells (s : State) : List Nat := (List.range 153).filter s.cellWeak

/-- The image that the hart in front is saved to, its bytes in memory when it goes to the save area, and its open
strip's store buffer there wherever the image goes. Husk may choose the save area (R295). -/
def State.saveImage (s : State) : State :=
  let p := s.partAt s.hart.ctl.part
  let area := p.saveArea ((p.ordinalOf (coreOf s.cur)).getD 0)
  let out := s.slotTaken || Config.freeBit s.free.count
  let s1 := if s.stripOpen then s.unlaid (area + bufferAt s.cur) (16 * s.hart.strip.used) else s
  let s2 := if out && s.ownMatrix.isSome then s1.unlaid (area + matrixImageAt) (saveBytes - matrixImageAt) else s1
  let s3 := if out then s2.write (area + hartImageAt s.cur) s.image else s2
  let damaged := { s.hart.upsets with weak := 0 } != .none || s.hart.strip.buf.any BufEntry.bad ||
    (match s.ownMatrix with
     | some m => m.damaged != 0
     | none => false)
  let ctx : SavedContext :=
    { header := s.header, reservedZero := true, matrix := s.ownMatrix, poisoned := damaged, cut := false,
      area := if out then some area else none, weak := false }
  ({ s with
    mem := s3.mem, poison := s3.poison, repair := s3.repair, free := s.free.next,
    saved := tput s.saved s.cur ctx } : State).correctCells s.weakCells

/-- The header of a context saved at a hart. -/
def State.headerOf (s : State) (hart : Nat) (c : SavedContext) : Vector Word 9 :=
  match c.imageLoc hart with
  | none => c.header
  | some loc => Vector.ofFn fun i => s.dword (loc + 8 * i.val)

/-- The bytes of a header that its table does not name are zero. -/
def State.headerZeros (s : State) (hart : Nat) (c : SavedContext) : Bool :=
  match c.imageLoc hart with
  | none => c.reservedZero
  | some loc => (s.bytes (loc + 72) 184).all fun b => b == 0

/-- The ranges of memory that the restore of a context reads, each with its length. -/
def State.imageRanges (s : State) (hart : Nat) (c : SavedContext) (x : Hart) : List (Nat × Nat) :=
  let h := s.headerOf hart c
  let images := match c.area with
    | none => []
    | some a => (a + hartImageAt hart, imageSize) ::
        if c.matrix.isSome then [(a + matrixImageAt, saveBytes - matrixImageAt)] else []
  if h[0].getLsbD 31 && !c.cut then
    images ++ [((s.partAt x.ctl.part).saveArea (h[6].extractLsb' 8 8).toNat + bufferAt hart, 16 * x.strip.used)]
  else images

/-- An uncorrectable code word in what a context is restored from (R306). -/
def State.imagePoisoned (s : State) (hart : Nat) (c : SavedContext) (x : Hart) : Bool :=
  c.poisoned || (s.imageRanges hart c x).any fun p => s.poisoned p.1 p.2

/-- One error of a hart's image in shadow SRAM corrected on its read: counted, and recorded beside r (R305, R308). -/
def State.correctShadow (s : State) (hart : Nat) (r : ErrorRecord) : State :=
  let key := 2 ^ 60 + 256 * hart + 255
  let n := (tget s.repair.corrected key).getD 0 + 1
  ({ s with repair := { s.repair with corrected := tput s.repair.corrected key n } } : State).logError
    { r with kind := 1, count := n }

/-- What the reads of a restore leave in the counts and the log of errors; an image in shadow SRAM has a record of its own
(R308). -/
def State.imageNoted (s : State) (hart : Nat) (c : SavedContext) (x : Hart) : State :=
  let t := (s.imageRanges hart c x).foldl (fun u p => u.noteRead p.1 p.2) s
  if c.area.isSome then t
  else
    let core := coreOf hart
    let r : ErrorRecord :=
      { die := dieOf core, kind := 2, unit := 2, part := x.ctl.part, count := 0, location := unitPlace core 0 }
    let t1 := if c.weak then t.correctShadow hart r else t
    if c.poisoned then t1.logError r else t1

end Sys2Proof.Machine
end

