-- ==== Sys2Proof/Machine/VectorArith.lean ====
section
/-! DEFINITION. Vector arithmetic, compares and conversions, majors 0x10 to 0x16 (spec/06 R106 to R111). -/

namespace Sys2Proof.Machine

/-! ### Element operations -/

/-- The lesser: a NaN gives the canonical NaN, −0 counts below +0, no flag (R106). -/
def minF (a b : Elem) : Elem :=
  let x := val32 a
  let y := val32 b
  if x.isNan || y.isNan then canonNan32
  else if x.lt y then a
  else if y.lt x then b
  else if a.getLsbD 31 then a else b

/-- The greater, likewise. -/
def maxF (a b : Elem) : Elem :=
  let x := val32 a
  let y := val32 b
  if x.isNan || y.isNan then canonNan32
  else if y.lt x then a
  else if x.lt y then b
  else if a.getLsbD 31 then b else a

/-- a[30:0] with the sign bit of b. -/
def copySign (a b : Elem) : Elem := (a &&& 0x7FFFFFFF#32) ||| (b &&& 0x80000000#32)

/-- ±(a × b) ± d, rounded once (R107). -/
def fmaWith (negProduct negAddend : Bool) (a b d : Elem) : Elem × FFlags :=
  let x := if negProduct then (val32 a).neg else val32 a
  let z := if negAddend then (val32 d).neg else val32 d
  withFlags (rne32 (x.fma (val32 b) z))

/-- 1/√a, with a last bit that is 1 when bits beyond it were lost (R107). -/
def Num.rsqrt (a : Num) : Exact :=
  match a with
  | .nan => ⟨.nan, 0⟩
  | .inf neg => if neg then ⟨.nan, flagNV⟩ else ⟨.fin false 0 0, 0⟩
  | .fin neg m e =>
    if m = 0 then ⟨.inf neg, flagDZ⟩
    else if neg then ⟨.nan, flagNV⟩
    else
      let odd := e % 2 != 0
      let m' := if odd then 2 * m else m
      let e' := if odd then e - 1 else e
      let q := isqrt (2 ^ 192 / m')
      ⟨.fin false (2 * q + (if q * q * m' = 2 ^ 192 then 0 else 1)) (-(e' / 2) - 97), 0⟩

/-- VFCLS: one bit set (R108). -/
def classify32 (a : Elem) : Elem :=
  match val32 a with
  | .nan => 256
  | .inf neg => if neg then 1 else 128
  | .fin neg m e =>
    if m = 0 then (if neg then 8 else 16)
    else if magLt m e 1 (-126) then (if neg then 4 else 32)
    else (if neg then 2 else 64)

def saturate32 (i : Int) : Elem := BitVec.ofInt 32 (max (-2147483648) (min 2147483647 i))

def intOp (f : Elem → Elem → Elem) (x y : Elem) : Elem := f x y
def testOp (f : Elem → Elem → Bool) (x y : Elem) : Bool := f x y

/-- FP32 to INT32 by a rounding to an integer, saturating (R110). -/
def toInt32 (toInt : Num → Int) (a : Elem) : Elem × FFlags :=
  match val32 a with
  | .nan => (0, 0)
  | .inf neg => (if neg then 0x80000000#32 else 0x7FFFFFFF#32, flagNX)
  | .fin neg m e =>
    let r := saturate32 (toInt (.fin neg m e))
    (r, if (Num.ofInt r.toInt).eqv (.fin neg m e) then 0 else flagNX)

/-- The greatest integer at most a, as FP32 (R110). -/
def floor32 (a : Elem) : Elem :=
  match val32 a with
  | .nan => canonNan32
  | .inf _ => a
  | .fin neg m e =>
    if m = 0 || !magLt m e 1 23 then a
    else BitVec.ofNat 32 (fp32.round .rne (Num.ofInt (Num.fin neg m e).floor)).pat

/-- VFRAC (R110). -/
def fraction32 (a : Elem) : Elem × FFlags :=
  match val32 a with
  | .nan => (canonNan32, 0)
  | .inf _ => (canonNan32, flagNV)
  | .fin _ _ _ =>
    let r := withFlags (fsub a (floor32 a))
    if r.1 = 0x3F800000#32 then (0x3F7FFFFF#32, r.2) else r

/-- VEXPN; erratum switch 2 gives −127 for a subnormal (R110, R256). -/
def exponent32 (erratum : Bool) (a : Elem) : Elem :=
  match val32 a with
  | .fin _ m e =>
    if m = 0 then 0x80000000#32
    else if erratum && magLt m e 1 (-126) then 0xFFFFFF81#32
    else BitVec.ofInt 32 (floorLog2 m e)
  | _ => 0x7FFFFFFF#32

/-- RNE32(a × 2^n); beyond ±1,000 every n gives the same result as ±1,000 (R110). -/
def scale32 (a : Elem) (n : Int) : Elem × FFlags :=
  match val32 a with
  | .nan => (canonNan32, 0)
  | .inf _ => (a, 0)
  | .fin neg m e =>
    if m = 0 then (a, 0)
    else withFlags (rne32 (exactly ((Num.fin neg m e).scale (max (-1000) (min 1000 n)))))

/-- The exponent of VLDEXP: b as INT32, or all 64 bits of s[B] (R110). -/
def State.bExponent (s : State) (b : BOp) (e : Nat) : Int :=
  match b with
  | .vv n => (s.elem n e).toInt
  | .vs n => (s.x n).toInt
  | .vi n => n.toInt

/-- A floating-point compare. -/
def compareF (s : State) (d a : BitVec 5) (b : BOp) (m : BitVec 3) (test : Num → Num → Bool) : Out :=
  compareOp s d a b m fun t e => test (val32 (t.elem a e)) (val32 (t.bFloat b e))

/-! ### Narrowing chains (R47, R111) -/

/-- Elements narrowed in ascending order, each by a function of the chain: what each delivers by element, the flags,
and the chain after the last. -/
def narrowAll (f : Elem → Chain → Narrowed) : List (Nat × Elem) → Chain → List (Nat × Nat) × FFlags × Chain
  | [], c => ([], 0, c)
  | (e, x) :: r, c =>
    let n := f x c
    let (l, fl, c') := narrowAll f r n.chain
    ((e, n.pat) :: l, n.flags ||| fl, c')

/-- The dither counter of SN: step[15:0] (R22, R47). -/
def State.dither (s : State) : Half := s.hart.csr.step.extractLsb' 0 16

def State.withChain (s : State) (c : Chain) : State := s.withCsr { s.hart.csr with ncarry := c }

/-- VRNDB: active elements to BF16 precision under rmode, in FP32 layout (R111). -/
def execVrndb (d a : BitVec 5) (m : BitVec 3) (s : State) : Out :=
  vectorIssue s [fun _ => s.alignCheck d 0, fun _ => s.alignCheck a 1] false (s.vUse a 1 ++ pUse m) (s.vUse d 0)
    fun t =>
      let (q, fl, c) :=
        narrowAll (fun x c => bf16.narrow fp32 t.hart.csr.rmode t.dither (val32 x) c)
          ((t.actives m).map fun e => (e, t.elem a e)) t.hart.csr.ncarry
      finish (((t.setGroup d fun e => (q.lookup e).map fun p => BitVec.ofNat 32 (p * 65536)).orFlags fl).withChain c) 4

/-! ### Floating-point arithmetic (R106) -/
def execVaddF (d a : BitVec 5) (b : BOp) (m : BitVec 3) (s : State) : Out :=
  vectorOp s d a b m false fun t e => withFlags (fadd (t.elem a e) (t.bFloat b e))
def execVsubF (d a : BitVec 5) (b : BOp) (m : BitVec 3) (s : State) : Out :=
  vectorOp s d a b m false fun t e => withFlags (fsub (t.elem a e) (t.bFloat b e))
def execVmulF (d a : BitVec 5) (b : BOp) (m : BitVec 3) (s : State) : Out :=
  vectorOp s d a b m false fun t e => withFlags (fmul (t.elem a e) (t.bFloat b e))
def execVdivF (d a : BitVec 5) (b : BOp) (m : BitVec 3) (s : State) : Out :=
  vectorOp s d a b m false fun t e => withFlags (fdiv (t.elem a e) (t.bFloat b e))
def execVminF (d a : BitVec 5) (b : BOp) (m : BitVec 3) (s : State) : Out :=
  vectorOp s d a b m false fun t e => (minF (t.elem a e) (t.bFloat b e), 0)
def execVmaxF (d a : BitVec 5) (b : BOp) (m : BitVec 3) (s : State) : Out :=
  vectorOp s d a b m false fun t e => (maxF (t.elem a e) (t.bFloat b e), 0)
def execVsgnjF (d a : BitVec 5) (b : BOp) (m : BitVec 3) (s : State) : Out :=
  vectorOp s d a b m false fun t e => (copySign (t.elem a e) (t.bFloat b e), 0)
def execVabsF (d a : BitVec 5) (m : BitVec 3) (s : State) : Out :=
  vectorOp1 s d a m fun t e => (t.elem a e &&& 0x7FFFFFFF#32, 0)
/-! ### Fused arithmetic (R107) -/
def execVfma (d a : BitVec 5) (b : BOp) (m : BitVec 3) (s : State) : Out :=
  vectorOp s d a b m true fun t e => fmaWith false false (t.elem a e) (t.bFloat b e) (t.elem d e)
def execVfms (d a : BitVec 5) (b : BOp) (m : BitVec 3) (s : State) : Out :=
  vectorOp s d a b m true fun t e => fmaWith false true (t.elem a e) (t.bFloat b e) (t.elem d e)
def execVfnma (d a : BitVec 5) (b : BOp) (m : BitVec 3) (s : State) : Out :=
  vectorOp s d a b m true fun t e => fmaWith true true (t.elem a e) (t.bFloat b e) (t.elem d e)
def execVfnms (d a : BitVec 5) (b : BOp) (m : BitVec 3) (s : State) : Out :=
  vectorOp s d a b m true fun t e => fmaWith true false (t.elem a e) (t.bFloat b e) (t.elem d e)
def execVsqrt (d a : BitVec 5) (m : BitVec 3) (s : State) : Out :=
  vectorOp1 s d a m fun t e => withFlags (rne32 (val32 (t.elem a e)).sqrt)
def execVrsq (d a : BitVec 5) (m : BitVec 3) (s : State) : Out :=
  vectorOp1 s d a m fun t e => withFlags (rne32 (val32 (t.elem a e)).rsqrt)
def execVrcp (d a : BitVec 5) (m : BitVec 3) (s : State) : Out :=
  vectorOp1 s d a m fun t e => withFlags (rne32 (Num.one.div (val32 (t.elem a e))))
def execVnegF (d a : BitVec 5) (m : BitVec 3) (s : State) : Out :=
  vectorOp1 s d a m fun t e => (t.elem a e ^^^ 0x80000000#32, 0)
/-! ### Floating-point compares and classification (R108) -/
def execVfeq (d a : BitVec 5) (b : BOp) (m : BitVec 3) (s : State) : Out :=
  compareF s d a b m fun x y => x.eqv y
def execVfne (d a : BitVec 5) (b : BOp) (m : BitVec 3) (s : State) : Out :=
  compareF s d a b m fun x y => !x.eqv y
def execVflt (d a : BitVec 5) (b : BOp) (m : BitVec 3) (s : State) : Out :=
  compareF s d a b m fun x y => x.lt y
def execVfle (d a : BitVec 5) (b : BOp) (m : BitVec 3) (s : State) : Out :=
  compareF s d a b m fun x y => x.lt y || x.eqv y
def execVfgt (d a : BitVec 5) (b : BOp) (m : BitVec 3) (s : State) : Out :=
  compareF s d a b m fun x y => y.lt x
def execVfge (d a : BitVec 5) (b : BOp) (m : BitVec 3) (s : State) : Out :=
  compareF s d a b m fun x y => y.lt x || x.eqv y
def execVfuo (d a : BitVec 5) (b : BOp) (m : BitVec 3) (s : State) : Out :=
  compareF s d a b m fun x y => x.isNan || y.isNan
def execVfcls (d a : BitVec 5) (m : BitVec 3) (s : State) : Out :=
  vectorOp1 s d a m fun t e => (classify32 (t.elem a e), 0)
/-! ### Integer arithmetic (R109) -/
def execVadd (d a : BitVec 5) (b : BOp) (m : BitVec 3) (s : State) : Out :=
  vectorOp s d a b m false fun t e => (intOp (fun x y => x + y) (t.elem a e) (t.bInt b e), 0)
def execVsub (d a : BitVec 5) (b : BOp) (m : BitVec 3) (s : State) : Out :=
  vectorOp s d a b m false fun t e => (intOp (fun x y => x - y) (t.elem a e) (t.bInt b e), 0)
def execVmul (d a : BitVec 5) (b : BOp) (m : BitVec 3) (s : State) : Out :=
  vectorOp s d a b m false fun t e => (intOp (fun x y => x * y) (t.elem a e) (t.bInt b e), 0)
def execVmulh (d a : BitVec 5) (b : BOp) (m : BitVec 3) (s : State) : Out :=
  vectorOp s d a b m false fun t e => (intOp (fun x y => BitVec.ofInt 32 (x.toInt * y.toInt / 2 ^ 32)) (t.elem a e) (t.bInt b e), 0)
def execVmin (d a : BitVec 5) (b : BOp) (m : BitVec 3) (s : State) : Out :=
  vectorOp s d a b m false fun t e => (intOp (fun x y => if y.slt x then y else x) (t.elem a e) (t.bInt b e), 0)
def execVmax (d a : BitVec 5) (b : BOp) (m : BitVec 3) (s : State) : Out :=
  vectorOp s d a b m false fun t e => (intOp (fun x y => if x.slt y then y else x) (t.elem a e) (t.bInt b e), 0)
def execVminu (d a : BitVec 5) (b : BOp) (m : BitVec 3) (s : State) : Out :=
  vectorOp s d a b m false fun t e => (intOp (fun x y => if y.ult x then y else x) (t.elem a e) (t.bInt b e), 0)
def execVmaxu (d a : BitVec 5) (b : BOp) (m : BitVec 3) (s : State) : Out :=
  vectorOp s d a b m false fun t e => (intOp (fun x y => if x.ult y then y else x) (t.elem a e) (t.bInt b e), 0)
def execVand (d a : BitVec 5) (b : BOp) (m : BitVec 3) (s : State) : Out :=
  vectorOp s d a b m false fun t e => (intOp (fun x y => x &&& y) (t.elem a e) (t.bInt b e), 0)
def execVor (d a : BitVec 5) (b : BOp) (m : BitVec 3) (s : State) : Out :=
  vectorOp s d a b m false fun t e => (intOp (fun x y => x ||| y) (t.elem a e) (t.bInt b e), 0)
def execVxor (d a : BitVec 5) (b : BOp) (m : BitVec 3) (s : State) : Out :=
  vectorOp s d a b m false fun t e => (intOp (fun x y => x ^^^ y) (t.elem a e) (t.bInt b e), 0)
def execVsadd (d a : BitVec 5) (b : BOp) (m : BitVec 3) (s : State) : Out :=
  vectorOp s d a b m false fun t e => (intOp (fun x y => saturate32 (x.toInt + y.toInt)) (t.elem a e) (t.bInt b e), 0)
def execVssub (d a : BitVec 5) (b : BOp) (m : BitVec 3) (s : State) : Out :=
  vectorOp s d a b m false fun t e => (intOp (fun x y => saturate32 (x.toInt - y.toInt)) (t.elem a e) (t.bInt b e), 0)
def execVsll (d a : BitVec 5) (b : BOp) (m : BitVec 3) (s : State) : Out :=
  vectorOp s d a b m false fun t e => (t.elem a e <<< t.bShift b e, 0)
def execVsrl (d a : BitVec 5) (b : BOp) (m : BitVec 3) (s : State) : Out :=
  vectorOp s d a b m false fun t e => (t.elem a e >>> t.bShift b e, 0)
def execVsra (d a : BitVec 5) (b : BOp) (m : BitVec 3) (s : State) : Out :=
  vectorOp s d a b m false fun t e => ((t.elem a e).sshiftRight (t.bShift b e), 0)
/-! ### Integer compares (R108) -/
def execVeq (d a : BitVec 5) (b : BOp) (m : BitVec 3) (s : State) : Out :=
  compareOp s d a b m fun t e => testOp (fun x y => x == y) (t.elem a e) (t.bInt b e)
def execVne (d a : BitVec 5) (b : BOp) (m : BitVec 3) (s : State) : Out :=
  compareOp s d a b m fun t e => testOp (fun x y => x != y) (t.elem a e) (t.bInt b e)
def execVlt (d a : BitVec 5) (b : BOp) (m : BitVec 3) (s : State) : Out :=
  compareOp s d a b m fun t e => testOp (fun x y => x.slt y) (t.elem a e) (t.bInt b e)
def execVltu (d a : BitVec 5) (b : BOp) (m : BitVec 3) (s : State) : Out :=
  compareOp s d a b m fun t e => testOp (fun x y => x.ult y) (t.elem a e) (t.bInt b e)
def execVle (d a : BitVec 5) (b : BOp) (m : BitVec 3) (s : State) : Out :=
  compareOp s d a b m fun t e => testOp (fun x y => x.sle y) (t.elem a e) (t.bInt b e)
def execVleu (d a : BitVec 5) (b : BOp) (m : BitVec 3) (s : State) : Out :=
  compareOp s d a b m fun t e => testOp (fun x y => x.ule y) (t.elem a e) (t.bInt b e)
def execVgt (d a : BitVec 5) (b : BOp) (m : BitVec 3) (s : State) : Out :=
  compareOp s d a b m fun t e => testOp (fun x y => y.slt x) (t.elem a e) (t.bInt b e)
def execVgtu (d a : BitVec 5) (b : BOp) (m : BitVec 3) (s : State) : Out :=
  compareOp s d a b m fun t e => testOp (fun x y => y.ult x) (t.elem a e) (t.bInt b e)
/-! ### Conversion (R110) -/
def execVcvfI (d a : BitVec 5) (m : BitVec 3) (s : State) : Out :=
  vectorOp1 s d a m fun t e => withFlags (rne32 (exactly (Num.ofInt (t.elem a e).toInt)))
def execVcviF (d a : BitVec 5) (m : BitVec 3) (s : State) : Out :=
  vectorOp1 s d a m fun t e => toInt32 Num.nearestInt (t.elem a e)
def execVcviFz (d a : BitVec 5) (m : BitVec 3) (s : State) : Out :=
  vectorOp1 s d a m fun t e => toInt32 Num.truncInt (t.elem a e)
def execVflr (d a : BitVec 5) (m : BitVec 3) (s : State) : Out :=
  vectorOp1 s d a m fun t e => (floor32 (t.elem a e), 0)
def execVfrac (d a : BitVec 5) (m : BitVec 3) (s : State) : Out :=
  vectorOp1 s d a m fun t e => fraction32 (t.elem a e)
def execVexpn (d a : BitVec 5) (m : BitVec 3) (s : State) : Out :=
  vectorOp1 s d a m fun t e => (exponent32 (s.hart.ctl.errata.getLsbD 2) (t.elem a e), 0)
def execVldexp (d a : BitVec 5) (b : BOp) (m : BitVec 3) (s : State) : Out :=
  vectorOp s d a b m false fun t e => scale32 (t.elem a e) (t.bExponent b e)

end Sys2Proof.Machine
end

