-- ==== Sys2Proof/Machine/Matrix.lean ====
section
/-! DEFINITION. Matrix state, tile and accumulator moves and the array operations, majors 0x27 to 0x29 (spec/08 R137
to R152; spec/13 R214). -/

namespace Sys2Proof.Machine

/-! ### Reading matrix state (R137) -/

/-- Band rows, NR. -/
def Matrix.nr (m : Matrix) : Nat := 16 * m.rows.length

def tileKey (t r c : Nat) : Nat := t * 16384 + r * 256 + c
def slotKey (k c n : Nat) : Nat := (k * 256 + c) * 16 + n

def Matrix.tile (m : Matrix) (t r c : Nat) : Num := val16 (cget m.tiles (tileKey t r c))
def Matrix.pending (m : Matrix) (a r c : Nat) : A48 := cget m.pend (tileKey a r c)
/-- The knot pair that band row k selects. -/
def Matrix.pairOf (m : Matrix) (k : Nat) : KnotPair := m.knots[(cget m.sel k).toNat]'(by omega)
def Matrix.coef (m : Matrix) (k c n : Nat) : Num := val16 (cget m.slots (slotKey k c n))

/-- φ and φ' of cell (k, n) at an activation. -/
def Matrix.phi (m : Matrix) (k n : Nat) (x : Num) : FlagM A48 := cellPhi (m.pairOf k) (m.coef k n) x
def Matrix.dphi (m : Matrix) (k n : Nat) (x : Num) : FlagM A48 := cellDphi (m.pairOf k) (m.coef k n) x

/-- Matrix state as MATTACH leaves it: `rows` tile rows, tags `lse`. -/
def Matrix.fresh (owner : Nat) (rows : List Nat) (lse : BitVec 8) : Matrix :=
  { owner := owner, rows := rows, mvl := 256, tiles := [], acc := [], pend := [], tags := Vector.replicate 4 lse,
    pendTags := Vector.replicate 4 lse, slots := [], knots := Vector.replicate 4 ⟨0, 0⟩, sel := [], damaged := 0,
    weak := 0 }

/-! ### Issue (R28, R137, R138, R143) -/

/-- Fault 0x0F: the hart holds no matrix state. -/
def State.matrixCheck (s : State) : Option FaultInfo := faultIf s.ownMatrix.isNone (plainFault 0x0F)

/-- A limit that depends on matrix state, judged only while the hart holds it. -/
def State.limit (s : State) (f : Matrix → Option FaultInfo) : Option FaultInfo := s.ownMatrix.bind f

/-- An operand field above the last number of its class. -/
def classCheck (n : BitVec 5) (top opd : Nat) : Option FaultInfo :=
  faultIf (decide (top < n.toNat)) (operandFault 0x02 n opd)

def accCheck (n : BitVec 5) : Option FaultInfo := classCheck n 3 0
def tileCheck (n : BitVec 5) (opd : Nat) : Option FaultInfo := classCheck n 7 opd

/-- The tag of an accumulator of the pending bank. -/
def Matrix.pendTag (m : Matrix) (a : Nat) : BitVec 8 := (m.pendTags[a]?).getD 0

/-- The loss-scale tag of an accumulator differs from lse (R143). -/
def State.tagCheck (s : State) (a : Nat) : Option FaultInfo :=
  s.limit fun m => faultIf (m.pendTag a != s.hart.csr.lse)
    { plainFault 0x0C with info := operandInfo (BitVec.ofNat 5 a) 0 }

/-- An instruction on matrix state: its operand checks, an open strip where it is strip-bound, matrix state, stale
sources, the contract, and its later checks; then its operands are read, and it goes on with the marks set and the matrix
state. -/
def matrixIssue (s : State) (bound : Bool) (fields : List (Unit → Option FaultInfo)) (reads writes : List Use)
    (later : List (Unit → Option FaultInfo)) (k : State → Matrix → Out) : Out :=
  guarded s
    (fields ++ ((fun _ => faultIf (bound && !s.stripOpen) (plainFault 0x05)) :: (fun _ => s.matrixCheck) ::
                (fun _ => s.staleCheck reads) :: (fun _ => s.contractCheck reads writes) :: later))
    fun _ => readable s reads fun _ =>
      match s.ownMatrix with
      | some m => k (s.mark reads writes) m
      | none => faulted s (plainFault 0x0F)

/-! ### Attach and detach (R141, R142) -/

/-- The other hart of the core owns the core's matrix state. -/
def State.matrixElsewhere (s : State) : Option FaultInfo :=
  faultIf (s.core.matrix.any fun m => m.owner != s.cur) (plainFault 0x0F)

/-- Tile rows of the cluster's array that a core's band holds. -/
def Core.rowsHeld (c : Core) : List Nat :=
  match c.matrix with
  | some m => m.rows
  | none => []

/-- Tile rows of a cluster's array that work and are held by no band (R141, R309, R312). -/
def State.freeRows (s : State) (cluster : Nat) : List Nat :=
  let held := (List.range 4).flatMap fun i => (s.coreAt (4 * cluster + i)).rowsHeld
  (List.range 16).filter fun r => !held.contains r && s.rowWorks cluster r

def State.mseqZero (s : State) : State := s.withCsr { s.hart.csr with mseqStep := 0, mseqAct := false }

/-- MATTACH (R141). -/
def execMattach (d a : BitVec 5) (s : State) : Out :=
  let w := (s.x a).toNat
  guarded s
    [fun _ => faultIf (decide (w < 1) || decide (16 < w)) (operandFault 0x02 a 1), fun _ => s.matrixElsewhere]
    fun _ =>
      closing s fun s1 =>
        match s1.ownMatrix with
        | some m => finish (s1.setX d (BitVec.ofNat 64 m.rows.length)) 4
        | none =>
          let rows := (s1.freeRows (clusterOf (coreOf s1.cur))).take w
          if rows.isEmpty then finish (s1.setX d 0) 4
          else
            let s2 := (s1.withMatrix (some (Matrix.fresh s1.cur rows s1.hart.csr.lse))).mseqZero
            finish (s2.setX d (BitVec.ofNat 64 rows.length)) 4

/-- MDETACH: of a core that holds no matrix state it has no effect, an open strip stays open (R142, R214). -/
def execMdetach (s : State) : Out :=
  guarded s [fun _ => s.matrixElsewhere] fun _ =>
    if s.ownMatrix.isSome then closing s fun s1 => finish (s1.withMatrix none).mseqZero 4 else finish s 4

/-! ### Configuration and scale (R140, R143) -/

def execMsetvl (d a : BitVec 5) (s : State) : Out :=
  let n := s.x a
  matrixIssue s false
    [fun _ => faultIf (decide (n.toNat < 1) || decide (256 < n.toNat)) (operandFault 0x02 a 1)]
    [] (bandUse 0 0) [] fun s1 m => finish ((s1.withMatrix (some { m with mvl := n.toNat })).setX d n) 4

/-- An accumulator of a bank cleared. -/
def zeroTile (c : Cells 48) (a : Nat) : Cells 48 := csplice c (tileKey a 0 0) (List.replicate 16384 0)

/-- A tag of a bank replaced. -/
def setTag (v : Vector (BitVec 8) 4) (a : Nat) (t : BitVec 8) : Vector (BitVec 8) 4 := v.setIfInBounds a t

/-- An accumulator cleared and tagged, in the pending bank or the committed one. -/
def Matrix.zeroAcc (m : Matrix) (pending : Bool) (a : Nat) (lse : BitVec 8) : Matrix :=
  if pending then ({ m with pend := zeroTile m.pend a, pendTags := setTag m.pendTags a lse } : Matrix).rewrote (1#41 <<< (12 + a))
  else ({ m with acc := zeroTile m.acc a, tags := setTag m.tags a lse } : Matrix).rewrote (1#41 <<< (8 + a))

def execMzero (d : BitVec 5) (s : State) : Out :=
  matrixIssue s false [fun _ => accCheck d] [] [] []
    fun s1 m => finish (s1.withMatrix (some (m.zeroAcc s1.stripOpen d.toNat s1.hart.csr.lse))) 4

def execMknot (d a b : BitVec 5) (s : State) : Out :=
  let ka := s.x a
  let kb := s.x b &&& knotBMask
  matrixIssue s false
    [fun _ => classCheck d 3 0, fun _ => faultIf (!knotAValid ka) (operandFault 0x02 a 1),
     fun _ => faultIf (!knotBValid kb) (operandFault 0x02 b 2)]
    [] (bandUse d 0) []
    fun s1 m =>
      let m1 : Matrix := { m with knots := m.knots.setIfInBounds d.toNat ⟨ka, kb⟩ }
      finish (s1.withMatrix (some (m1.rewrote (3#41 <<< (32 + 2 * d.toNat))))) 4

def execMgsel (d a b : BitVec 5) (s : State) : Out :=
  let first := (s.x a).toNat
  let count := (s.x b).toNat
  matrixIssue s false
    [fun _ => classCheck d 3 0,
     fun _ => s.limit fun m => faultIf (decide (m.nr ≤ first)) (operandFault 0x02 a 1),
     fun _ => faultIf (decide (count = 0)) (operandFault 0x02 b 2),
     fun _ => s.limit fun m => faultIf (decide (m.nr < first + count)) (operandFault 0x02 b 2)]
    [] (bandUse d 0) []
    fun s1 m =>
      let m1 : Matrix := { m with sel := csplice m.sel first (List.replicate count (d.setWidth 2)) }
      finish (s1.withMatrix (some (if first = 0 && decide (m.nr ≤ count) then m1.rewrote (1#41 <<< 40) else m1))) 4

/-- k of MRESC. -/
def State.rescale (s : State) (b : BOp) : Int :=
  match b with
  | .vi n => n.toInt
  | .vs n => (s.x n).toInt
  | .vv _ => 0

def BOp.reg : BOp → BitVec 5
  | .vv n => n
  | .vs n => n
  | .vi n => n

/-- The tag that an MRESC or an extract meets: the pending one inside a strip. -/
def State.tagOf (s : State) (m : Matrix) (a : Nat) : Int :=
  ((if s.stripOpen then m.pendTags[a]? else m.tags[a]?).getD 0).toInt

/-- A tile of a bank with each element changed, and the flags raised. -/
def mapTile (c : Cells 48) (a : Nat) (f : Nat → Nat → A48 → FlagM A48) : Cells 48 × FFlags :=
  let base := tileKey a 0 0
  let r := (List.range 16384).map fun i => withFlags (f (i / 256) (i % 256) (cget c (base + i)))
  (csplice c base (r.map Prod.fst), r.foldl (fun fl x => fl ||| x.2) 0)

def execMresc (d : BitVec 5) (b : BOp) (s : State) : Out :=
  let k := s.rescale b
  matrixIssue s false
    [fun _ => faultIf (BOp.isVector b) illegal, fun _ => accCheck d,
     fun _ => s.limit fun m =>
       let t := s.tagOf m d.toNat + k
       faultIf (decide (t < -128) || decide (127 < t)) (operandFault 0x02 (BOp.reg b) 2)]
    (accUse d 0) [] []
    fun s1 m =>
      let tag := BitVec.ofInt 8 (s1.tagOf m d.toNat + k)
      let (c, fl) := mapTile (if s1.stripOpen then m.pend else m.acc) d.toNat fun _ _ v => rne48 (exactly ((val48 v).scale k))
      let m1 : Matrix :=
        if s1.stripOpen then { m with pend := c, pendTags := setTag m.pendTags d.toNat tag }
        else { m with acc := c, tags := setTag m.tags d.toNat tag }
      finish ((s1.withMatrix (some m1)).orFlags fl) 4

/-! ### Tile and accumulator moves (R144, R145) -/

/-- The check of the index operand: its must-be-zero bits and its limit. `bits` is the width that VS may use. -/
def State.indexCheck (s : State) (b : BOp) (bits top : Nat) : Option FaultInfo :=
  match b with
  | .vv _ => some illegal
  | .vi n => faultIf (decide (top < n.toNat)) (operandFault 0x02 n 2)
  | .vs n =>
    let v := (s.x n).toNat
    faultIf (decide (2 ^ bits ≤ v) || decide (top < v % 256)) (operandFault 0x02 n 2)

/-- The index, and whether s[B][8] selects BF16. -/
def State.moveIndex (s : State) (b : BOp) : Nat := s.bIndex b % 256
def State.moveNarrow (s : State) (b : BOp) : Bool :=
  match b with
  | .vs n => (s.x n).getLsbD 8
  | _ => false

/-- A vector group written below n; the elements from n on are tail (R144). -/
def State.setMoved (s : State) (d : BitVec 5) (n : Nat) (f : Nat → Elem) : State :=
  ((s.withVl n).setGroup d fun e => some (f e)).withVl s.vl

def State.rowCount (s : State) : Nat := min s.vl 256
def State.colCount (s : State) : Nat := min s.vl 64

/-- Elements of a tile written one by one. -/
def putTile {w : Nat} (c : Cells w) (n : Nat) (key : Nat → Nat) (f : Nat → BitVec w) : Cells w :=
  (List.range n).foldl (fun c e => cset c (key e) (f e)) c

def execTroww (d a : BitVec 5) (b : BOp) (s : State) : Out :=
  matrixIssue s true [fun _ => faultIf (BOp.isVector b) illegal, fun _ => tileCheck d 0, fun _ => s.alignCheck a 1, fun _ => s.indexCheck b 8 63]
    (s.vUse a 1) (tUse d 0) []
    fun s1 m =>
      let x := s1.moveIndex b
      let t := putTile m.tiles s1.rowCount (fun e => tileKey d.toNat x e) fun e => (s1.elem a e).extractLsb' 16 16
      finish (s1.withMatrix (some { m with tiles := t })) 4

def execTrowr (d a : BitVec 5) (b : BOp) (s : State) : Out :=
  matrixIssue s true [fun _ => faultIf (BOp.isVector b) illegal, fun _ => s.alignCheck d 0, fun _ => tileCheck a 1, fun _ => s.indexCheck b 8 63]
    (tUse a 1) (s.vUse d 0) []
    fun s1 m =>
      let x := s1.moveIndex b
      finish (s1.setMoved d s1.rowCount fun e => (cget m.tiles (tileKey a.toNat x e)).setWidth 32 <<< 16) 4

def execTcolw (d a : BitVec 5) (b : BOp) (s : State) : Out :=
  matrixIssue s true [fun _ => faultIf (BOp.isVector b) illegal, fun _ => tileCheck d 0, fun _ => s.alignCheck a 1, fun _ => s.indexCheck b 8 255]
    (s.vUse a 1) (tUse d 0) []
    fun s1 m =>
      let x := s1.moveIndex b
      let t := putTile m.tiles s1.colCount (fun e => tileKey d.toNat e x) fun e => (s1.elem a e).extractLsb' 16 16
      finish (s1.withMatrix (some { m with tiles := t })) 4

def execTcolr (d a : BitVec 5) (b : BOp) (s : State) : Out :=
  matrixIssue s true [fun _ => faultIf (BOp.isVector b) illegal, fun _ => s.alignCheck d 0, fun _ => tileCheck a 1, fun _ => s.indexCheck b 8 255]
    (tUse a 1) (s.vUse d 0) []
    fun s1 m =>
      let x := s1.moveIndex b
      finish (s1.setMoved d s1.colCount fun e => (cget m.tiles (tileKey a.toNat e x)).setWidth 32 <<< 16) 4

/-- Accumulator elements narrowed in ascending order (R145): patterns in FP32 layout, flags, chain. -/
def extractAll (narrow16 : Bool) (mode : BitVec 2) (step : Half) (tag : Int) :
    List A48 → Chain → List Elem × FFlags × Chain
  | [], c => ([], 0, c)
  | v :: r, c =>
    let x := (val48 v).scale (-tag)
    let q := (if narrow16 then bf16 else fp32).narrow a48 mode step x c
    let p : Elem := BitVec.ofNat 32 (if narrow16 then q.pat * 65536 else q.pat)
    let (ps, fl, c1) := extractAll narrow16 mode step tag r q.chain
    (p :: ps, q.flags ||| fl, c1)

/-- AEXTR and AEXTC: the element of the accumulator that vector element e receives is given. -/
def extract (s : State) (d a : BitVec 5) (b : BOp) (top : Nat) (count : State → Nat)
    (source : Matrix → Nat → Nat → A48) : Out :=
  matrixIssue s true [fun _ => faultIf (BOp.isVector b) illegal, fun _ => s.alignCheck d 0, fun _ => classCheck a 3 1, fun _ => s.indexCheck b 9 top]
    (accUse a 1) (s.vUse d 0) []
    fun s1 m =>
      let tag := (m.pendTag a.toNat).toInt
      let n := count s1
      let (ps, fl, c) := extractAll (s1.moveNarrow b) s1.hart.csr.rmode s1.dither tag
        ((List.range n).map (source m (s1.moveIndex b))) s1.hart.csr.ncarry
      finish (((s1.setMoved d n fun e => ps.getD e 0).orFlags fl).withChain c) 4

def execAextr (d a : BitVec 5) (b : BOp) (s : State) : Out :=
  extract s d a b 63 State.rowCount fun m x e => m.pending a.toNat x e
def execAextc (d a : BitVec 5) (b : BOp) (s : State) : Out :=
  extract s d a b 255 State.colCount fun m x e => m.pending a.toNat e x

/-- AINSR: exact, with the canonical NaN for a NaN (R144). -/
def execAinsr (d a : BitVec 5) (b : BOp) (s : State) : Out :=
  matrixIssue s true [fun _ => faultIf (BOp.isVector b) illegal, fun _ => accCheck d, fun _ => s.alignCheck a 1, fun _ => s.indexCheck b 8 63]
    (s.vUse a 1) [] []
    fun s1 m =>
      let x := s1.moveIndex b
      let tag := (m.pendTag d.toNat).toInt
      let c := putTile m.pend s1.rowCount (fun e => tileKey d.toNat x e) fun e =>
        quiet (rne48 (exactly ((val32 (s1.elem a e)).scale tag)))
      finish (s1.withMatrix (some { m with pend := c })) 4

def execTzero (d : BitVec 5) (s : State) : Out :=
  matrixIssue s true [fun _ => tileCheck d 0] [] (tUse d 0) []
    fun s1 m =>
      let m1 : Matrix := { m with tiles := csplice m.tiles (tileKey d.toNat 0 0) (List.replicate 16384 0) }
      finish (s1.withMatrix (some (m1.rewrote (1#41 <<< d.toNat)))) 4

/-! ### Coefficient slots (R147) -/

/-- The first band row of MLDC and MSTC lies in the band. R147 states the fault for MLDC; that MSTC raises it too is a
DESIGN CHOICE (log 82). -/
def State.bandRowCheck (s : State) (b : BitVec 5) : Option FaultInfo :=
  s.limit fun m => faultIf (decide (m.nr ≤ (s.x b).toNat)) (operandFault 0x02 b 2)

def execMldc (d a b : BitVec 5) (s : State) : Out :=
  matrixIssue s true [fun _ => classCheck d 15 0, fun _ => tileCheck a 1, fun _ => s.bandRowCheck b]
    (tUse a 1) (bandUse d 0) []
    fun s1 m =>
      let rb := (s1.x b).toNat
      let slots := (List.range 64).foldl (fun c i =>
        if rb + i < m.nr then
          putTile c 256 (fun k => slotKey (rb + i) k d.toNat) fun k => cget m.tiles (tileKey a.toNat i k)
        else c) m.slots
      let m1 : Matrix := { m with slots := slots }
      finish (s1.withMatrix (some (if rb = 0 && decide (m.nr ≤ 64) then m1.rewrote (1#41 <<< (16 + d.toNat)) else m1))) 4

def execMstc (d a b : BitVec 5) (s : State) : Out :=
  matrixIssue s true [fun _ => tileCheck d 0, fun _ => classCheck a 15 1, fun _ => s.bandRowCheck b]
    (bandUse a 1 ++ slotPlaneUse a.toNat a 1) (tUse d 0) []
    fun s1 m =>
      let rb := (s1.x b).toNat
      let vs := (List.range 16384).map fun i =>
        if rb + i / 256 < m.nr then cget m.slots (slotKey (rb + i / 256) (i % 256) a.toNat) else 0
      let m1 : Matrix := { m with tiles := csplice m.tiles (tileKey d.toNat 0 0) vs }
      finish (s1.withMatrix (some (m1.rewrote (1#41 <<< d.toNat)))) 4

/-! ### Array passes (R146, R148 to R151) -/

/-- s := RNE48(s + φ_k(x)) over band rows k with their activations, in order. -/
def forwardSum (phi : Nat → Num → FlagM A48) : List (Nat × Num) → A48 → FlagM A48
  | [], s => pure s
  | (k, x) :: r, s => do
    let p ← phi k x
    let t ← rne48 ((val48 s).add (val48 p))
    forwardSum phi r t

/-- s := RNE48(s + RNE48(δ_n × φ'_n)) over columns, in order. -/
def backwardSum (delta : Nat → Num) (dphi : Nat → FlagM A48) : List Nat → A48 → FlagM A48
  | [], s => pure s
  | n :: r, s => do
    let q ← dphi n
    let p ← rne48 ((delta n).mul (val48 q))
    let t ← rne48 ((val48 s).add (val48 p))
    backwardSum delta dphi r t

/-- s := RNE48(s + x × y) with exact products, in order. -/
def productSum : List (Num × Num) → A48 → FlagM A48
  | [], s => pure s
  | (x, y) :: r, s => do
    let t ← rne48 (x.fma y (val48 s))
    productSum r t

/-- The activations of a forward pass in a row of 64: band rows with the columns they take, compressed where a mask
is given (R148). -/
def maskedRows (nr : Nat) (bits : Option (Nat → Bool)) : List (Nat × Nat) :=
  match bits with
  | none => (List.range nr).map fun k => (k, k)
  | some f => ((List.range nr).filter f).zipIdx

/-- The forward pass over an accumulator of the pending bank. `x b c` is the activation in row b and column c. -/
def Matrix.forward (m : Matrix) (a : Nat) (phi : Nat → Nat → Num → FlagM A48) (rows : List (Nat × Nat))
    (x : Nat → Nat → Num) : Matrix × FFlags :=
  let (c, fl) := mapTile m.pend a fun b n s =>
    if n < m.mvl then forwardSum (fun k v => phi k n v) (rows.map fun p => (p.1, x b p.2)) s else pure s
  ({ m with pend := c }, fl)

/-- The backward data pass (R149). -/
def Matrix.backward (m : Matrix) (a : Nat) (x delta : Nat → Nat → Num) : Matrix × FFlags :=
  let (c, fl) := mapTile m.pend a fun b k s =>
    if k < m.nr then backwardSum (delta b) (fun n => m.dphi k n (x b k)) (List.range m.mvl) s else pure s
  ({ m with pend := c }, fl)

/-- The outer product over batch rows, into accumulator rows k − kb (R150). -/
def Matrix.outer (m : Matrix) (a kb : Nat) (batch : List Nat) (x delta : Nat → Nat → Num) : Matrix × FFlags :=
  let (c, fl) := mapTile m.pend a fun r n s =>
    if kb + r < m.nr && decide (n < m.mvl) then productSum (batch.map fun b => (x b (kb + r), delta b n)) s else pure s
  ({ m with pend := c }, fl)

/-- The products a gradient slot receives from the batch rows, none where an activation is a NaN (R151). -/
def slotProducts (k : KnotPair) (slot : Nat) (x delta : Nat → Num) : List Nat → Option (List (Num × Num))
  | [] => some []
  | b :: r =>
    match gradientSet k (x b), slotProducts k slot x delta r with
    | some g, some l => some ((g.filter fun p => p.1 == slot).map (fun p => (delta b, p.2)) ++ l)
    | _, _ => none

/-- The gradient of one slot of a cell added to a value (R151). Where the activation of one batch row is a NaN the flags of
the other rows' additions are not set either (DESIGN CHOICE, log 82). -/
def gradientSum (k : KnotPair) (slot : Nat) (batch : List Nat) (x delta : Nat → Num) (s : A48) : FlagM A48 :=
  match slotProducts k slot x delta batch with
  | some l => productSum l s
  | none => pure canonNan48

/-- MMA (R148). The mask is read at bits 0 to NR − 1, each as the register holds it. -/
def State.maskRows (s : State) (m : BitVec 3) : Option (Nat → Bool) :=
  if m = 0 then none else some (s.mreg m.toNat).bit

def State.darkMask (s : State) (m : BitVec 3) : Option FaultInfo :=
  s.limit fun x => faultIf (m != 0 && s.stripOpen && decide (s.span < x.nr)) (operandFault 0x02 (m.setWidth 5) 3)

def execMma (d a : BitVec 5) (m : BitVec 3) (s : State) : Out :=
  matrixIssue s true [fun _ => accCheck d, fun _ => tileCheck a 1, fun _ => s.darkMask m]
    (tUse a 1 ++ pUse m ++ bandUse d 0 ++ cellsUse d 0 ++ accUse d 0) [] [fun _ => s.tagCheck d.toNat]
    fun s1 x =>
      let (x1, fl) := x.forward d.toNat x.phi (maskedRows x.nr (s1.maskRows m)) fun b c => x.tile a.toNat b c
      finish ((s1.withMatrix (some x1)).orFlags fl) 4

def execMspld (d a b : BitVec 5) (s : State) : Out :=
  matrixIssue s true [fun _ => accCheck d, fun _ => tileCheck a 1, fun _ => tileCheck b 2]
    (tUse a 1 ++ tUse b 2 ++ bandUse d 0 ++ cellsUse d 0 ++ accUse d 0) [] [fun _ => s.tagCheck d.toNat]
    fun s1 x =>
      let (x1, fl) := x.backward d.toNat (fun b k => x.tile a.toNat b k) fun r n => x.tile b.toNat r n
      finish ((s1.withMatrix (some x1)).orFlags fl) 4

def execMopa (d a b : BitVec 5) (s : State) : Out :=
  matrixIssue s true [fun _ => accCheck d, fun _ => tileCheck a 1, fun _ => tileCheck b 2]
    (tUse a 1 ++ tUse b 2 ++ bandUse d 0 ++ accUse d 0) [] [fun _ => s.tagCheck d.toNat]
    fun s1 x =>
      let (x1, fl) := x.outer d.toNat (64 * d.toNat) (List.range 64) (fun r k => x.tile a.toNat r k)
        fun r n => x.tile b.toNat r n
      finish ((s1.withMatrix (some x1)).orFlags fl) 4

/-- A tile register written by gradients rounded to BF16. -/
def Matrix.scatter (m : Matrix) (td ta tb kb : Nat) : Matrix × FFlags :=
  let base := tileKey td 0 0
  let r := (List.range 16384).map fun i =>
    let k := kb + i / 256 / 16
    let n := i % 256
    let old := cget m.tiles (base + i)
    if k < m.nr && decide (n < m.mvl) then
      withFlags (do
        let acc ← gradientSum (m.pairOf k) (i / 256 % 16) (List.range 64) (fun b => m.tile ta b k) (fun b => m.tile tb b n)
          (quiet (rne48 (exactly (val16 old))))
        rne16 (exactly (val48 acc)))
    else (old, 0)
  ({ m with tiles := csplice m.tiles base (r.map Prod.fst) }, r.foldl (fun fl x => fl ||| x.2) 0)

/-- MSPLG: tiles in bits [2:0], kbase in the remaining bits of the three fields (R67, R151). -/
def execMsplg (d a b : BitVec 5) (s : State) : Out :=
  let low (n : BitVec 5) : BitVec 5 := n &&& 7
  let kb := 4 * (d.toNat / 8 * 16 + a.toNat / 8 * 4 + b.toNat / 8)
  matrixIssue s true [] (tUse (low d) 0 ++ tUse (low a) 1 ++ tUse (low b) 2 ++ bandUse (low d) 0 ++ knotsUse (low d) 0)
    (tUse (low d) 0) []
    fun s1 x =>
      let (x1, fl) := x.scatter (low d).toNat (low a).toNat (low b).toNat kb
      finish ((s1.withMatrix (some x1)).orFlags fl) 4

/-! ### Refinement (R152) -/

/-- The pair after a refinement. -/
def KnotPair.refined (k : KnotPair) : KnotPair :=
  let invh : Elem := quiet (fmul k.invh 0x40000000#32)
  ⟨(k.a &&& mask 32 32) ||| invh.setWidth 64, (k.b &&& mask 4 5) ||| BitVec.ofNat 64 (2 * k.g % 16)⟩

/-- The grid capacity of a pair is exceeded by a refinement. -/
def KnotPair.full (k : KnotPair) : Bool :=
  decide (12 < 2 * k.g) || decide (15 < 2 * k.g + k.ord) || !(val32 k.refined.invh).isFinite

/-- The slots of a cell refined: new patterns with their flags. -/
def Matrix.refineCell (m : Matrix) (p : KnotPair) (k c : Nat) : List (Half × FFlags) :=
  let new := refineCoefs p.ord ((List.range (p.g + p.ord)).map (m.coef k c))
  (List.range 15).map fun i =>
    match new[i]? with
    | some v => withFlags (rne16 (exactly v))
    | none => (0, 0)

/-- Every band row that selects pair d refined, in all columns. -/
def Matrix.refine (m : Matrix) (d : Nat) (p : KnotPair) : Matrix × FFlags :=
  let cells := (List.range (m.nr * 256)).filter fun i => (cget m.sel (i / 256)).toNat == d
  let r := cells.foldl (fun (acc : Cells 16 × FFlags) i =>
    let l := m.refineCell p (i / 256) (i % 256)
    (csplice acc.1 (slotKey (i / 256) (i % 256) 0) (l.map Prod.fst), l.foldl (fun fl x => fl ||| x.2) acc.2)) (m.slots, 0)
  ({ m with slots := r.1, knots := m.knots.setIfInBounds d p.refined }, r.2)

def execMrefn (d : BitVec 5) (s : State) : Out :=
  let pair (m : Matrix) : KnotPair := (m.knots[d.toNat]?).getD ⟨0, 0⟩
  matrixIssue s false
    [fun _ => classCheck d 3 0,
     fun _ => s.limit fun m => faultIf (decide ((pair m).g = 0)) (operandFault 0x02 d 0)]
    [] []
    [fun _ => s.limit fun m => faultIf (pair m).full { plainFault 0x0D with info := operandInfo d 0 }]
    fun s1 _ => readable s1 (cellsUse d 0) fun _ =>
      closing s1 fun s2 =>
        match s2.ownMatrix with
        | some m =>
          let (m1, fl) := m.refine d.toNat (pair m)
          finish ((s2.withMatrix (some m1)).orFlags fl) 4
        | none => finish s2 4

end Sys2Proof.Machine
end

