-- ==== Sys2Proof/Machine/Tlb.lean ====
section
/-! DEFINITION. Locked ranges and the translation probe, major 0x26 (spec/07 R132 to R135). -/

namespace Sys2Proof.Machine

/-- The agent of a lock or a probe: it reads the tables afresh. -/
def State.walker (s : State) : Agent := { s.self with locks := [], cached := false }

/-- What the tables give for a page that a range is to lock: vault space has no translation. -/
def State.lockPage (s : State) (a : Agent) (va : Nat) : Xlat :=
  let w := BitVec.ofNat 64 va
  if inVaultSpace w || !canonical w then .invalid else s.walk a va false

/-- The pages from an address up to `stop` with what the tables give for each, at most n of them, and whether these are
all. A page that has no translation counts as one of 64 KiB. -/
def State.lockPages (s : State) (a : Agent) (stop : Nat) : Nat → Nat → List (Nat × Xlat) × Bool
  | 0, va => ([], decide (stop ≤ va))
  | n + 1, va =>
    if stop ≤ va then ([], true)
    else
      let x := s.lockPage a va
      let next := match x with
        | .ok t => t.vbase + 2 ^ t.bits
        | _ => va / 65536 * 65536 + 65536
      let (l, all) := s.lockPages a stop n next
      ((va, x) :: l, all)

/-- The translations of pages. -/
def translationsOf (l : List (Nat × Xlat)) : List TlbEntry :=
  l.filterMap fun p =>
    match p.2 with
    | .ok t => some t
    | _ => none

/-- Range r of the hart in front released. -/
def State.unlock (s : State) (r : Nat) : State := { s with hart := { s.hart with locks := tdel s.hart.locks r } }

/-- TLBLOCK (R132). A length of 0 or a span of more than 64 translations comes first, then a page outside the partition,
then one that does not translate; each leaves the range unlocked. faddr is the base on the first page, and the first byte of a
later one (log 32). -/
def execTlblock (d a b : BitVec 5) (s : State) : Out :=
  let r := s.x d
  let base := s.x a
  let len := s.x b
  let (pages, all) := s.lockPages s.walker (base.toNat + len.toNat) 64 base.toNat
  let fault (c : BitVec 8) (p : Nat × Xlat) : FaultInfo := elementFault c 0 (BitVec.ofNat 64 p.1) (scalarInfo false 0)
  guarded s [fun _ => faultIf (decide (31 < r.toNat)) (operandFault 0x02 d 0)] fun _ =>
    let s1 := s.unlock r.toNat
    guarded s1
      [fun _ => faultIf (len == 0 || !all) (operandFault 0x02 b 2),
       fun _ => (pages.find? fun p => p.2 == .outside).map (fault 0x12),
       fun _ => (pages.find? fun p => p.2 == .invalid).map (fault 0x07)] fun _ =>
      let range : LockRange := { base := base, len := len, trans := (translationsOf pages).map fun t => (t, true) }
      finish { s1 with hart := { s1.hart with locks := tput s1.hart.locks r.toNat range } } 4

/-- TLBUNLK (R132). -/
def execTlbunlk (a : BitVec 5) (s : State) : Out :=
  let r := s.x a
  guarded s [fun _ => faultIf (decide (31 < r.toNat)) (operandFault 0x02 a 1)] fun _ =>
    finish (s.unlock r.toNat) 4

/-- The code of a page size. -/
def sizeCode (bits : Nat) : Nat := if bits = 16 then 0 else if bits = 21 then 1 else if bits = 30 then 2 else 3

/-- The probe word of an address (R134). V, SZ and W are of the two stages' combined translation in a skim region too,
which its accesses do not use (DESIGN CHOICE, log 78). -/
def State.probeWord (s : State) (va : Word) : State × Word :=
  if inVaultSpace va then
    (s, if ((s.partAt s.hart.ctl.part).vaultAt (some (coreOf s.cur)) va).isSome then 0x20#64 else 0)
  else
    let held := (lockedAt s.self va).any fun t => t.2
    let skim := (s.regionAt s.hart.ctl.part s.hart.sup.xlat2 va).isSome
    let marks := (if held then 0x10#64 else 0) ||| (if skim then 0x40#64 else 0)
    if canonical va then
      let (s1, x) := s.translate s.self va false
      match x with
      | .ok t =>
        (s1, marks ||| 1#64 ||| BitVec.ofNat 64 (2 * sizeCode t.bits) ||| (if t.w then 0x8#64 else 0))
      | _ => (s1, marks)
    else (s, marks)

/-- TLBPRB (R134). -/
def execTlbprb (d a : BitVec 5) (s : State) : Out :=
  let (s1, v) := s.probeWord (s.x a)
  finish (s1.drawn.setX d v) 4

end Sys2Proof.Machine
end

