-- ==== Sys2Proof/Machine/Context.lean ====
section
/-! DEFINITION. Pre-emption, saved contexts and their restore (spec/10 R185; spec/19 R292 to R295, R298; spec/13 R215;
spec/20 R306). -/

namespace Sys2Proof.Machine

/-! ### Halting (R185, R292, R293) -/

/-- The matrix state of the hart in front, and a context switch of its core: the override ends, the CLB is dropped
and the matrix state moves to the image (R183, R227, R292). -/
def State.saveCore (s : State) : State :=
  let t := s.saveImage
  { t with core := { t.core with gov := t.core.gov.cleared, clb := [], matrix := detachOf t.core.matrix t.cur } }

/-- The hart in front halts and its context is saved. -/
def State.halt (s : State) : State :=
  let s1 := s.saveCore
  { s1 with hart := { s1.hart with run := .halted, ctl := { s1.hart.ctl with preempt := false, holds := 0 } } }

/-- A hart at U whose halt has been asked for, at an instruction or step boundary (R185). -/
def State.haltDue (s : State) : Option State :=
  if s.hart.ctl.preempt && s.hart.live && s.atUser && s.hart.claim.isNone then
    if !s.stripOpen || s.hart.csr.mseqAct then some s.halt
    else if s.hart.run == .waiting .wfi then some s.abort.halt
    else none
  else none

/-- A halt asked of hart h. -/
def State.requestHalt (s : State) (h : Nat) : State :=
  let x := s.hartAt h
  if x.live then
    (s.setHartAt h { x with ctl := { x.ctl with preempt := true } }).atHart h fun t => t.haltDue.getD t
  else s

def execPreemptionRequest (hart : Nat) (s : State) : Out := .next (s.requestHalt hart)

/-- PREEMPTION_EXPIRY: the open strip of a hart asked to halt is aborted, once the walk it has under way is installed. -/
def execPreemptionExpiry (hart : Nat) (s : State) : Out :=
  let x := s.hartAt hart
  if x.ctl.preempt && x.live && x.priv == .user && x.csr.so && !x.csr.mseqAct && x.claim.isNone then
    .next (s.atHart hart fun t => t.abort.halt)
  else .next s

/-! ### Harts that change their number (R294, R298) -/

/-- A record moved to another key. -/
def moveKey {α : Type} (l : List (Nat × α)) (old new : Nat) : List (Nat × α) :=
  match tget l old with
  | some x => tput (tdel l old) new x
  | none => l

/-- The registers of Husk that no image holds stay with the hart's place (R15, R293). -/
def Hart.adopt (x slot : Hart) : Hart :=
  { x with sup := { x.sup with tvec := slot.sup.tvec, tepc := slot.sup.tepc, pp := slot.sup.pp, so := slot.sup.so } }

/-- A parked hart moved to another key; a real place that it leaves is absent. -/
def moveHart (l : List (Nat × Hart)) (old new : Nat) : List (Nat × Hart) :=
  match tget l old with
  | none => l
  | some x =>
    let moved := tput l new (x.adopt ((tget l new).getD Hart.reset))
    if old < Config.harts then tput moved old (Hart.reset.adopt x) else tdel moved old

/-- The agent of a sent write when a hart changes its number: the hart, or one of its engine queues. -/
def renamedAgent (old new agent : Nat) : Nat :=
  if agent = old then new
  else (((List.range 4).find? fun q => decide (agent = engineAgent old q)).map (engineAgent new)).getD agent

/-- A parked hart, its saved context, its writes held and sent, and its place in launches under another number. -/
def State.rename (s : State) (old new : Nat) : State :=
  let f (k : Nat) : Nat := if k = old then new else k
  { s with
    harts := moveHart s.harts old new, saved := moveKey s.saved old new,
    launches := tmap (fun _ l => { l with running := l.running.map f }) s.launches,
    fabric := { s.fabric with held := s.fabric.held.map fun w => { w with hart := f w.hart },
                              sent := s.fabric.sent.map fun w => { w with agent := renamedAgent old new w.agent } } }

/-- The front hart and core copied to the tables, and taken up from them again. -/
def State.park (s : State) : State :=
  { s with harts := tput s.harts s.cur s.hart, cores := tput s.cores (coreOf s.cur) s.core }

def State.unpark (s : State) : State :=
  let c := coreOf s.cur
  { s with hart := (tget s.harts s.cur).getD Hart.reset, core := (tget s.cores c).getD Core.reset,
           harts := tdel s.harts s.cur, cores := tdel s.cores c }

/-! ### Restore (R215, R294, R306) -/

/-- The fields of a header that R294 checks, with the reserved bits of its named bytes. -/
def headerFits (h : Vector Word 9) (part : Nat) : Bool :=
  h[0].extractLsb' 35 13 == 0#13 && decide ((h[6].extractLsb' 16 4).toNat = part) &&
  h[0].extractLsb' 14 2 == 0#2 && !h[0].getLsbD 27 && h[0].extractLsb' 48 16 == 0#16 &&
  h[3].extractLsb' 21 3 == 0#3 && h[3].extractLsb' 29 3 == 0#3 && h[3].extractLsb' 41 7 == 0#7 &&
  !h[3].getLsbD 49 && h[3].extractLsb' 56 8 == 0#8 && !h[6].getLsbD 3 && !h[6].getLsbD 7 &&
  h[6].extractLsb' 20 44 == 0#44

/-- A header's fields written back. -/
def Hart.withHeader (x : Hart) (h : Vector Word 9) : Hart :=
  { x with
    pc := h[4],
    csr := { x.csr with
      vl := h[0].extractLsb' 0 14, gvl := h[0].extractLsb' 16 11, rc := h[0].extractLsb' 28 2, tp := h[0].getLsbD 30,
      so := h[0].getLsbD 31, ggen := h[1], ncarry := ⟨h[2].extractLsb' 0 32, h[2].extractLsb' 32 16⟩, mseqStep := h[3].extractLsb' 0 20,
      mseqAct := h[3].getLsbD 20, mmrev := h[6].extractLsb' 0 2, det := h[6].getLsbD 2 },
    sup := { x.sup with hpri := h[6].extractLsb' 4 2, xlat1 := h[7] },
    ui := { x.ui with inHandler := h[6].getLsbD 6 },
    strip := { x.strip with cp := { x.strip.cp with pc := if h[0].getLsbD 31 then h[5] else x.strip.cp.pc } },
    ctl := { x.ctl with errata := h[8] } }

/-- The pages of a locked range walked again; a page that no longer translates keeps its old translation, absent. -/
def State.relock (s : State) (a : Agent) (stop : Nat) (old : List (TlbEntry × Bool)) :
    Nat → Nat → List (TlbEntry × Bool)
  | 0, va => (old.filter fun t => decide (va < t.1.vbase + 2 ^ t.1.bits)).map fun t => (t.1, false)
  | n + 1, va =>
    if stop ≤ va then []
    else
      match s.walk a va false with
      | .ok t => (t, true) :: s.relock a stop old n (t.vbase + 2 ^ t.bits)
      | _ =>
        match old.find? fun t => decide (va / 2 ^ t.1.bits * 2 ^ t.1.bits = t.1.vbase) with
        | some t => (t.1, false) :: s.relock a stop old n (t.1.vbase + 2 ^ t.1.bits)
        | none => s.relock a stop old n (va / 65536 * 65536 + 65536)

/-- The locked ranges of the hart in front locked again. -/
def State.relocked (s : State) : State :=
  let a := s.walker
  { s with hart := { s.hart with locks := tmap (fun _ r =>
      { r with trans := s.relock a (r.base.toNat + r.len.toNat) r.trans 64 r.base.toNat }) s.hart.locks } }

/-- The context of the hart in front is discarded and its launch ends FAULTED, CAUSE 0x11 (R306). -/
def State.discardContext (s : State) : State :=
  match s.hart.ctl.launch with
  | none => s.cutOff
  | some id =>
    match tget s.launches id with
    | none => s.cutOff
    | some l =>
      let ended := match l.ended with
        | some e => some e
        | none => some (0x11#8, s.hart.ctl.index)
      let s1 := { s with launches := tput s.launches id { l with ended := ended } }
      l.running.foldl (fun t k => t.atHart k State.cutOff) s1

/-- The core that a context with this header is restored onto, and the hart of it. -/
def State.restoreHart (s : State) (h part : Nat) (header : Vector Word 9) : Option Nat :=
  ((s.partAt part).coreOf (header[6].extractLsb' 8 8).toNat).map fun c => 2 * c + h % 2

/-- Tile rows, slices and the place itself are free for a context at hart t, which was at h; `need` is the slices of its
strip. -/
def State.roomFor (s : State) (h t part need : Nat) (matrix : Option Matrix) : Bool :=
  (t == h || (s.hartAt t).run == .absent) &&
  decide (need + (s.hartAt (sibling t)).held ≤ s.slicesOf (coreOf t) part) &&
  (match matrix with
   | none => true
   | some m => (s.coreAt (coreOf t)).matrix.isNone &&
               decide (m.rows.length ≤ (s.freeRows (clusterOf (coreOf t))).length))

/-- The hart that a context saved at hart h restores: what its images hold, an open strip aborted where it has been since
the save. -/
def State.revived (s : State) (h : Nat) (ctx : SavedContext) : Hart :=
  let x := match ctx.imageLoc h with
    | none => s.hartAt h
    | some loc => s.hartFrom loc (s.hartAt h)
  let y := x.withHeader (s.headerOf h ctx)
  if ctx.cut then y.aborted else y

/-- The slices of a hart's open strip. -/
def Hart.stripSlices (x : Hart) : Nat := if x.csr.so then (x.csr.gvl.toNat + 63) / 64 else 0

/-- A restored hart taken up at the hart in front, with its matrix state; the registers of Husk that no image holds are those
of the place. -/
def State.takeUp (s : State) (x : Hart) (ctx : SavedContext) : State :=
  let run := if x.run == .halted then .running else x.run
  let rows := s.freeRows (clusterOf (coreOf s.cur))
  let m := match ctx.matrix with
    | some m =>
      let m1 := { m with owner := s.cur, rows := rows.take m.rows.length }
      if ctx.cut then discardPending (some m1) s.cur else some m1
    | none => s.core.matrix
  ({ s with hart := { x.adopt s.hart with run := run, ctl := { x.ctl with holds := x.stripSlices } }, core := { s.core with matrix := m },
            saved := tdel s.saved s.cur } : State).relocked

/-- The restore of the context saved at hart h of the running member: refused, discarded, waiting for its place, or
done. -/
def State.restore (s : State) (h : Nat) : State :=
  match tget s.saved h with
  | none => s
  | some ctx =>
    let part := (s.hartAt h).ctl.part
    let header := s.headerOf h ctx
    if s.imagePoisoned h ctx (s.hartAt h) then (s.imageNoted h ctx (s.hartAt h)).atHart h State.discardContext
    else if !(headerFits header part && s.headerZeros h ctx) then s.report (.restoreRefused h)
    else
      match s.restoreHart h part header with
      | none => s
      | some t =>
        let x := s.revived h ctx
        if s.roomFor h t part x.stripSlices ctx.matrix then
          let s0 := s.imageNoted h ctx (s.hartAt h)
          let s1 := if t = h then s0 else ((s0.park.rename h t).unpark)
          s1.atHart t fun u => u.takeUp x ctx
        else s

/-! ### Time-sharing (R298) -/

/-- The key of a hart of an idle member. -/
def idleKey (part h : Nat) : Nat := h + Config.harts * (part + 1)

/-- The harts of a partition's cores. -/
def Partition.harts (p : Partition) : List Nat :=
  (p.ordinals.filterMap id).flatMap fun c => [2 * c, 2 * c + 1]

/-- Matrix state of a hart that has not halted goes to an image too. -/
def State.saveStray (s : State) (h : Nat) : State :=
  s.atHart h fun t => if t.ownMatrix.isSome then t.saveCore else t

/-- What a context switch does to a core: the override ends and the CLB is dropped. -/
def State.switchCore (s : State) (c : Nat) : State :=
  let k := s.coreAt c
  s.setCoreAt c { k with gov := k.gov.cleared, clb := [] }

/-- The harts of two members exchanged. -/
def State.exchange (s : State) (p q : Nat) (harts : List Nat) : State :=
  (harts.foldl (fun t h => (t.rename h (idleKey p h)).rename (idleKey q h) h) s.park).unpark

/-- The members of a pair marked. -/
def State.activate (s : State) (p q : Nat) : State :=
  let mark (a : Bool) (k : Nat) (l : List (Nat × Partition)) : List (Nat × Partition) :=
    match tget l k with
    | some x => tput l k { x with active := a }
    | none => l
  { s with parts := mark true q (mark false p s.parts) }

/-- The harts of the cores that either member of a pair holds. -/
def State.pairHarts (s : State) (p q : Nat) : List Nat :=
  let held (k c : Nat) : Bool := (s.partAt k).ordinals.contains (some c)
  ((List.range Config.cores).filter fun c => held p c || held q c).flatMap fun c => [2 * c, 2 * c + 1]

/-- A switch away from a partition begins, or ends. -/
def State.switched (s : State) (part : Nat) (on : Bool) : State :=
  { s with parts := tput s.parts part { s.partAt part with switching := on } }

/-- TIME_SHARE_SWITCH: every hart of the running member is asked to halt; once none of them issues, the members are
exchanged and the other's contexts restored. -/
def execTimeShareSwitch (part : Nat) (s : State) : Out :=
  let p := s.partAt part
  match p.pair with
  | none => .next s
  | some q =>
    if p.active then
      let hs := s.pairHarts part q
      let s1 := hs.foldl State.requestHalt (s.switched part true)
      if hs.any fun h => (s1.hartAt h).live then .next s1
      else
        let s2 := (p.ordinals.filterMap id).foldl State.switchCore (hs.foldl State.saveStray s1)
        let s3 := ((s2.exchange part q hs).activate part q).switched part false
        .next (hs.foldl State.restore s3)
    else .next s

end Sys2Proof.Machine
end

