-- ==== Sys2Proof/Machine/UserInt.lean ====
section
/-! DEFINITION. User interrupts: sources, entry, and the instructions of major 0x2B (spec/09 R171 to R174). -/

namespace Sys2Proof.Machine

/-- A source of user interrupts that can be pending. -/
inductive Source where
  | queue (q : Fin 4)
  | raise
deriving DecidableEq, Repr

/-- The first unblocked pending source, queues 0 to 3 and then RAISE, of the queues `allowed` (R172). -/
def UserInt.source (u : UserInt) (allowed : BitVec 4) : Option Source :=
  let eq := u.pendEq &&& ~~~u.maskEq &&& allowed
  if eq.getLsbD 0 then some (.queue 0)
  else if eq.getLsbD 1 then some (.queue 1)
  else if eq.getLsbD 2 then some (.queue 2)
  else if eq.getLsbD 3 then some (.queue 3)
  else if u.pendRaise && !u.maskRaise then some .raise
  else none

/-- The source that the hart in front takes: at U, with the handler not running (R172). -/
def State.takeable (s : State) (allowed : BitVec 4) : Option Source :=
  if s.atUser && !s.hart.ui.inHandler then s.hart.ui.source allowed else none

/-- Completions that stay pending when an interrupt of queue q is taken: those of operations above `upto`, whose own turn
comes with their tags (R174; DEDUCED, log 79). -/
def State.clearQueue (s : State) (q : Fin 4) (upto : Option Nat) : State :=
  let k := s.hart.queues[q]
  let rest := match upto with
    | some n => k.uiDone.filter fun x => decide (n < x)
    | none => []
  let u := s.hart.ui
  let pend := if rest.isEmpty then u.pendEq &&& ~~~(1#4 <<< q.val) else u.pendEq
  { s with hart := { s.hart with queues := s.hart.queues.set q { k with uiDone := rest },
                                 ui := { u with pendEq := pend, owed := u.owed &&& ~~~(1#4 <<< q.val) } } }

/-- A source taken: its pending bit cleared, the handler entered with a resume address (R172). -/
def State.takeSource (s : State) (src : Source) (upto : Option Nat) (resume : Word) : State :=
  match src with
  | .queue q => (s.clearQueue q upto).enterHandler 0 (BitVec.ofNat 2 q.val) 0 resume
  | .raise =>
    let u := s.hart.ui
    (s.withUi { u with pendRaise := false }).enterHandler 1 0 u.raised resume

/-- Queues whose completions may be taken before any instruction: in a deterministic launch only those that a UIWAIT
before it takes (R174). -/
def State.freeQueues (s : State) : BitVec 4 := if s.hart.csr.det then s.hart.ui.owed else 0xF

/-- Whether the hart in front stands where a pending source is taken before the instruction at the pc (R172). -/
def State.interruptPoint (s : State) : Bool :=
  !s.stripOpen &&
  match s.hart.run with
  | .running => true
  | .waiting .ewait => true
  | .waiting .wfi => true
  | .waiting (.held va) => (va - s.hart.pc).ult 8
  | _ => false

/-- The interrupt taken before the instruction at the pc, if any. -/
def State.interrupt (s : State) : Option State :=
  if s.interruptPoint then (s.takeable s.freeQueues).map fun src => s.takeSource src none s.hart.pc else none

/-- UIRET (R173). -/
def execUiret (s : State) : Out :=
  guarded s [fun _ => faultIf (!s.hart.ui.inHandler) (plainFault 0x01)] fun _ => .next s.handlerReturn

/-- Every source is blocked. -/
def UserInt.blocked (u : UserInt) : Bool := u.maskEq == 0xF#4 && u.maskRaise

/-- An interrupt-requesting operation of the hart is outstanding. -/
def Hart.uiOutstanding (h : Hart) : Bool :=
  h.queues.toList.any fun q => q.ops.any fun o =>
    match o.kind with
    | .copy _ _ _ _ _ _ ui => ui
    | _ => false

/-- UIWAIT (R173, R174). -/
def execUiwait (s : State) : Out :=
  closing s fun t =>
    let t1 := t.withRun .running
    if !t.atUser || t.hart.ui.inHandler || t.hart.ui.blocked then finish t1 4
    else if t.hart.csr.det && t.hart.uiOutstanding then waitAt t .uiwait
    else
      -- in a deterministic launch it takes every source that is pending, one after another, each to resume behind it
      let owed : BitVec 4 := if t.hart.csr.det then t.hart.ui.pendEq &&& ~~~t.hart.ui.maskEq else 0
      let t2 := t1.withUi { t1.hart.ui with owed := owed }
      match t2.takeable 0xF with
      | some src => .next (t2.takeSource src none (t.hart.pc + 4))
      | none => waitAt t .uiwait

/-- UIMASK (R173). -/
def execUimask (d a : BitVec 5) (s : State) : Out :=
  let v := s.x a
  guarded s [fun _ => faultIf (decide (v >>> 5 ≠ 0)) (operandFault 0x02 a 1)] fun _ =>
    let u := s.hart.ui
    finish ((s.withUi { u with maskEq := v.extractLsb' 0 4, maskRaise := v.getLsbD 4 }).setX d u.uimask) 4

/-- UIRAISE (R173). -/
def execUiraise (a : BitVec 5) (s : State) : Out :=
  finish (s.withUi { s.hart.ui with pendRaise := true, raised := (s.x a).extractLsb' 0 56 }) 4

/-- USER_INTERRUPT_ENTRY: a hart that stands at a permitted point takes its pending source. -/
def execUserInterruptEntry (hart : Nat) (s : State) : Out :=
  let x := s.hartAt hart
  if x.run == .waiting .uiwait then execUiwait (s.focus hart)
  else
    match (s.focus hart).interrupt with
    | some t => .next t
    | none => .next s

end Sys2Proof.Machine
end

