-- ==== Sys2Proof/Machine/Scalar.lean ====
section
/-! DEFINITION. Scalar arithmetic, loads and stores (spec/05 R82 to R87, R98). -/

namespace Sys2Proof.Machine

/-- A scalar result: s[D] := v, and on to the next instruction (R82). -/
def scalarResult (s : State) (d : BitVec 5) (v : Word) : Out := finish (s.setX d v) 4

/-! ### SALU (R83) -/

/-- The number of leading zero bits of the low n bits. -/
def leadingZeros (v : Word) : Nat → Nat
  | 0 => 0
  | n + 1 => if v.getLsbD n then 0 else 1 + leadingZeros v n

/-- The number of trailing zero bits among n bits from bit i. -/
def trailingZeros (v : Word) (i : Nat) : Nat → Nat
  | 0 => 0
  | n + 1 => if v.getLsbD i then 0 else 1 + trailingZeros v (i + 1) n

/-- The number of 1 bits among the low n bits. -/
def popCount (v : Word) : Nat → Nat
  | 0 => 0
  | n + 1 => (if v.getLsbD n then 1 else 0) + popCount v n

/-- Signed quotient toward zero: −1 for a divisor of 0; −2^63 by −1 wraps. -/
def quotient (a b : Word) : Word := if b = 0 then BitVec.allOnes 64 else a.sdiv b
def quotientU (a b : Word) : Word := if b = 0 then BitVec.allOnes 64 else a.udiv b
/-- a − b × quotient, the sign of a; a for a divisor of 0. -/
def remainder (a b : Word) : Word := if b = 0 then a else a.srem b
def remainderU (a b : Word) : Word := if b = 0 then a else a.umod b
/-- Bits [127:64] of the product. -/
def mulHigh (a b : Word) : Word := BitVec.ofInt 64 (a.toInt * b.toInt / 2 ^ 64)
def mulHighU (a b : Word) : Word := BitVec.ofNat 64 (a.toNat * b.toNat / 2 ^ 64)
/-- b[5:0]. -/
def shiftAmount (b : Word) : Nat := b.toNat % 64
def flagWord (b : Bool) : Word := if b then 1 else 0

def execAdd (d a b : BitVec 5) (s : State) : Out := scalarResult s d (s.x a + s.x b)
def execSub (d a b : BitVec 5) (s : State) : Out := scalarResult s d (s.x a - s.x b)
def execAnd (d a b : BitVec 5) (s : State) : Out := scalarResult s d (s.x a &&& s.x b)
def execOr (d a b : BitVec 5) (s : State) : Out := scalarResult s d (s.x a ||| s.x b)
def execXor (d a b : BitVec 5) (s : State) : Out := scalarResult s d (s.x a ^^^ s.x b)
def execSll (d a b : BitVec 5) (s : State) : Out := scalarResult s d (s.x a <<< shiftAmount (s.x b))
def execSrl (d a b : BitVec 5) (s : State) : Out := scalarResult s d (s.x a >>> shiftAmount (s.x b))
def execSra (d a b : BitVec 5) (s : State) : Out := scalarResult s d ((s.x a).sshiftRight (shiftAmount (s.x b)))
def execSlt (d a b : BitVec 5) (s : State) : Out := scalarResult s d (flagWord ((s.x a).slt (s.x b)))
def execSltu (d a b : BitVec 5) (s : State) : Out := scalarResult s d (flagWord ((s.x a).ult (s.x b)))
def execMul (d a b : BitVec 5) (s : State) : Out := scalarResult s d (s.x a * s.x b)
def execMulh (d a b : BitVec 5) (s : State) : Out := scalarResult s d (mulHigh (s.x a) (s.x b))
def execMulhu (d a b : BitVec 5) (s : State) : Out := scalarResult s d (mulHighU (s.x a) (s.x b))
def execDiv (d a b : BitVec 5) (s : State) : Out := scalarResult s d (quotient (s.x a) (s.x b))
def execDivu (d a b : BitVec 5) (s : State) : Out := scalarResult s d (quotientU (s.x a) (s.x b))
def execRem (d a b : BitVec 5) (s : State) : Out := scalarResult s d (remainder (s.x a) (s.x b))
def execRemu (d a b : BitVec 5) (s : State) : Out := scalarResult s d (remainderU (s.x a) (s.x b))
def execMin (d a b : BitVec 5) (s : State) : Out :=
  scalarResult s d (if (s.x b).slt (s.x a) then s.x b else s.x a)
def execMax (d a b : BitVec 5) (s : State) : Out :=
  scalarResult s d (if (s.x a).slt (s.x b) then s.x b else s.x a)
def execMinu (d a b : BitVec 5) (s : State) : Out :=
  scalarResult s d (if (s.x b).ult (s.x a) then s.x b else s.x a)
def execMaxu (d a b : BitVec 5) (s : State) : Out :=
  scalarResult s d (if (s.x a).ult (s.x b) then s.x b else s.x a)
def execClz (d a : BitVec 5) (s : State) : Out := scalarResult s d (BitVec.ofNat 64 (leadingZeros (s.x a) 64))
def execCtz (d a : BitVec 5) (s : State) : Out := scalarResult s d (BitVec.ofNat 64 (trailingZeros (s.x a) 0 64))
def execPopc (d a : BitVec 5) (s : State) : Out := scalarResult s d (BitVec.ofNat 64 (popCount (s.x a) 64))

/-! ### SIMM, SSHI, SLI (R84, R85) -/

/-- An IMM11 as a signed value. -/
def simm11 (i : BitVec 11) : Word := i.signExtend 64

def execAddi (d a : BitVec 5) (i : BitVec 11) (s : State) : Out := scalarResult s d (s.x a + simm11 i)
def execAndi (d a : BitVec 5) (i : BitVec 11) (s : State) : Out := scalarResult s d (s.x a &&& simm11 i)
def execOri (d a : BitVec 5) (i : BitVec 11) (s : State) : Out := scalarResult s d (s.x a ||| simm11 i)
def execXori (d a : BitVec 5) (i : BitVec 11) (s : State) : Out := scalarResult s d (s.x a ^^^ simm11 i)
def execSlli (d a : BitVec 5) (i : BitVec 6) (s : State) : Out := scalarResult s d (s.x a <<< i.toNat)
def execSrli (d a : BitVec 5) (i : BitVec 6) (s : State) : Out := scalarResult s d (s.x a >>> i.toNat)
def execSrai (d a : BitVec 5) (i : BitVec 6) (s : State) : Out := scalarResult s d ((s.x a).sshiftRight i.toNat)
def execSlti (d a : BitVec 5) (i : BitVec 11) (s : State) : Out :=
  scalarResult s d (flagWord ((s.x a).slt (simm11 i)))

/-- v with the 16 bits from bit `lo` replaced. -/
def insert16 (v : Word) (lo : Nat) (k : BitVec 16) : Word :=
  (v &&& ~~~(0xFFFF#64 <<< lo)) ||| (k.setWidth 64 <<< lo)

def execLil (d : BitVec 5) (i : BitVec 16) (s : State) : Out := scalarResult s d (i.signExtend 64)
def execLih (d : BitVec 5) (i : BitVec 16) (s : State) : Out := scalarResult s d (insert16 (s.x d) 16 i)
def execLix (d : BitVec 5) (i : BitVec 16) (s : State) : Out := scalarResult s d (insert16 (s.x d) 32 i)
def execLiy (d : BitVec 5) (i : BitVec 16) (s : State) : Out := scalarResult s d (insert16 (s.x d) 48 i)

/-! ### Loads and stores (R86, R87) -/

/-- The address s[A] + off. -/
def State.address (s : State) (a : BitVec 5) (off : Word) : Word := s.x a + off

/-- The low n bytes of a value, sign-extended. -/
def signed (n v : Nat) : Word := (BitVec.ofNat (8 * n) v).signExtend 64
def unsigned (v : Nat) : Word := BitVec.ofNat 64 v

/-- s[D] := the n bytes at an address, by an extension, for an instruction of `size` bytes. -/
def loadTo (s : State) (d : BitVec 5) (va : Word) (n : Nat) (ext : Nat → Word) (size : Nat) : Out :=
  scalarLoad s va n 0 fun t v => finish (t.setX d (ext v)) size

/-- The low n bytes of s[D] to an address. -/
def storeFrom (s : State) (d : BitVec 5) (va : Word) (n : Nat) (size : Nat) : Out :=
  scalarStore s va n d (s.x d) fun t => finish t size

def execLb (d a : BitVec 5) (i : BitVec 11) (s : State) : Out := loadTo s d (s.address a (simm11 i)) 1 (signed 1) 4
def execLh (d a : BitVec 5) (i : BitVec 11) (s : State) : Out := loadTo s d (s.address a (simm11 i)) 2 (signed 2) 4
def execLw (d a : BitVec 5) (i : BitVec 11) (s : State) : Out := loadTo s d (s.address a (simm11 i)) 4 (signed 4) 4
def execLd (d a : BitVec 5) (i : BitVec 11) (s : State) : Out := loadTo s d (s.address a (simm11 i)) 8 (signed 8) 4
def execLbu (d a : BitVec 5) (i : BitVec 11) (s : State) : Out := loadTo s d (s.address a (simm11 i)) 1 unsigned 4
def execLhu (d a : BitVec 5) (i : BitVec 11) (s : State) : Out := loadTo s d (s.address a (simm11 i)) 2 unsigned 4
def execLwu (d a : BitVec 5) (i : BitVec 11) (s : State) : Out := loadTo s d (s.address a (simm11 i)) 4 unsigned 4
/-- A hint with no architected effect and no fault of any kind. -/
def execPref (_a : BitVec 5) (_i : BitVec 11) (s : State) : Out := finish s 4
def execSb (d a : BitVec 5) (i : BitVec 11) (s : State) : Out := storeFrom s d (s.address a (simm11 i)) 1 4
def execSh (d a : BitVec 5) (i : BitVec 11) (s : State) : Out := storeFrom s d (s.address a (simm11 i)) 2 4
def execSw (d a : BitVec 5) (i : BitVec 11) (s : State) : Out := storeFrom s d (s.address a (simm11 i)) 4 4
def execSd (d a : BitVec 5) (i : BitVec 11) (s : State) : Out := storeFrom s d (s.address a (simm11 i)) 8 4

/-! ### Mask-to-scalar moves (R98) -/

/-- Bits e < VL of a mask that are 1. -/
def State.maskOnes (s : State) (m : Nat) : List Nat := (List.range s.vl).filter (s.maskBit m)

/-- A mask read into s[D]. -/
def maskToScalar (s : State) (d a : BitVec 5) (value : State → Word) : Out :=
  vectorIssue s [fun _ => maskCheck a 1] false (mUse a 1) [] fun t => scalarResult t d (value t)

def execMpopc (d a : BitVec 5) (s : State) : Out :=
  maskToScalar s d a fun t => BitVec.ofNat 64 (t.maskOnes a.toNat).length
def execMfirst (d a : BitVec 5) (s : State) : Out :=
  maskToScalar s d a fun t =>
    match (List.range t.vl).find? (t.maskBit a.toNat) with
    | some e => BitVec.ofNat 64 e
    | none => BitVec.allOnes 64
def execMany (d a : BitVec 5) (s : State) : Out :=
  maskToScalar s d a fun t => flagWord ((List.range t.vl).any (t.maskBit a.toNat))
def execMall (d a : BitVec 5) (s : State) : Out :=
  maskToScalar s d a fun t => flagWord ((List.range t.vl).all (t.maskBit a.toNat))
/-- Word w of the mask, w = s[B]; the only minor that reads bits at or beyond VL. -/
def execMtos (d a b : BitVec 5) (s : State) : Out :=
  maskToScalar s d a fun t =>
    let w := (s.x b).toNat
    if 128 ≤ w then 0 else BitVec.ofNat 64 (bitsOf (fun i => t.maskBit a.toNat (64 * w + i)) 64)

end Sys2Proof.Machine
end

