-- ==== Sys2Proof/Machine/VectorMem.lean ====
section
/-! DEFINITION. Vector loads, stores and atomics, majors 0x1B to 0x23 (spec/07 R121 to R129; spec/02 R35, R40 to
R42, R47; spec/10 R177). -/

namespace Sys2Proof.Machine

/-! ### The probe (R125) -/

/-- What the probe checks as one: an element, or a block of format 5. It names the element of a fault, the VL that a
trim gives, whether it holds the lowest active element, its indices, and its accesses. -/
structure Item where
  elem : Nat
  trimTo : Nat
  first : Bool
  idx : List Nat
  accesses : List (Word × Nat)
deriving DecidableEq, Repr

/-- The fault of an item at an address. -/
def Item.fault (i : Item) (c : BitVec 8) (va : Word) (a : AccessInfo) : FaultInfo :=
  { elementFault c i.elem va a with
    idx0 := BitVec.ofNat 64 (i.idx.getD 0 0), idx1 := BitVec.ofNat 64 (i.idx.getD 1 0),
    idx2 := BitVec.ofNat 64 (i.idx.getD 2 0) }

/-- The accesses of an item probed. -/
def State.probeAccesses (s : State) (a : Agent) (need : Need) :
    List (Word × Nat) → State × List (Word × Nat × Probe)
  | [] => (s, [])
  | (va, n) :: r =>
    let (s1, p) := s.probeAt a va n need
    let (s2, l) := s1.probeAccesses a need r
    (s2, (va, n, p) :: l)

/-- Every item probed. -/
def State.probeItems (s : State) (a : Agent) (need : Need) :
    List Item → State × List (Item × List (Word × Nat × Probe))
  | [] => (s, [])
  | i :: r =>
    let (s1, p) := s.probeAccesses a need i.accesses
    let (s2, l) := s1.probeItems a need r
    (s2, (i, p) :: l)

/-- An access that reached its location. -/
structure Reached where
  va : Word
  size : Nat
  hit : Hit
deriving DecidableEq, Repr

/-- The accesses that reached their locations, up to the first that did not. -/
def reachedOf : List (Word × Nat × Probe) → List Reached
  | (va, n, .hit h) :: r => ⟨va, n, h⟩ :: reachedOf r
  | _ => []

/-- The place of what an access meets in the order in which R125 looks for a cause; a segment that has not arrived stands
with 0x07. -/
def Probe.rank (p : Probe) : Nat :=
  match p with
  | .outside => 0
  | .fault c => if c = 0x14 then 1 else if c = 0x09 then 2 else if c = 0x07 then 3 else if c = 0x08 then 4 else 5
  | .held => 3
  | .hit _ => 6

/-- The access of an item whose failure is the item's: of the first cause in that order, the first. -/
def failureOf (l : List (Word × Nat × Probe)) : Option (Word × Probe) :=
  (List.range 6).findSome? fun k => (l.find? fun x => x.2.2.rank == k).map fun x => (x.1, x.2.2)

/-- How a probe ends. -/
inductive ProbeEnd where
  | all
  | trim (vl : Nat)
  | fault (f : FaultInfo)
  | held (va : Word)
deriving DecidableEq, Repr

/-- The loop of R125 over probed items: those that pass before the end, and the end. -/
def judge (firstOnly : Bool) (a : AccessInfo) :
    List (Item × List (Word × Nat × Probe)) → List (Item × List Reached) × ProbeEnd
  | [] => ([], .all)
  | (i, l) :: r =>
    match failureOf l with
    | none =>
      let (ok, e) := judge firstOnly a r
      ((i, reachedOf l) :: ok, e)
    | some (va, .fault c) =>
      if !i.first && (c == 0x09#8 || ((c == 0x07#8 || c == 0x08#8) && firstOnly)) then ([], .trim i.trimTo)
      else ([], .fault (i.fault c va a))
    | some (va, .outside) => ([], .fault (i.fault 0x12 va a))
    | some (va, _) => ([], .held va)

/-- The first access outside the partition, which outranks every other fault. -/
def outsideOf (a : AccessInfo) (l : List (Item × List (Word × Nat × Probe))) : Option FaultInfo :=
  l.findSome? fun p =>
    p.2.findSome? fun q =>
      match q with
      | (va, _, .outside) => some (p.1.fault 0x12 va a)
      | _ => none

/-- The probe of an instruction: the items that pass and its end. -/
def State.probed (s : State) (firstOnly : Bool) (a : AccessInfo) (items : List Item) :
    State × List (Item × List Reached) × ProbeEnd :=
  let (s1, l) := s.probeItems s.self (if a.write then .write else .read) items
  match outsideOf a l with
  | some f => (s1.drawn, [], .fault f)
  | none =>
    let (ok, e) := judge firstOnly a l
    (s1.drawn, ok, e)

/-- VL lowered by a trim (R127, R184). -/
def State.trimmed (s : State) (e : ProbeEnd) : State :=
  match e with
  | .trim vl => s.withVl vl
  | _ => s

/-! ### Element addresses (R121, R122) -/

/-- How a vector memory instruction addresses its elements. -/
inductive Mode where
  | unit
  | strided (b : BitVec 5)
  | indexed (b : BitVec 5)
  | tensor (n : Nat)
deriving DecidableEq, Repr

def State.dim (s : State) (k : Nat) : Word :=
  if k = 0 then s.hart.csr.dim0 else if k = 1 then s.hart.csr.dim1 else s.hart.csr.dim2
def State.dimLen (s : State) (k : Nat) : Nat := (s.dim k).toNat % 2 ^ 32
def State.dimStride (s : State) (k : Nat) : Int := ((s.dim k).extractLsb' 32 32).toInt

/-- The product of the lengths of the dimensions below k. -/
def State.dimProduct (s : State) (k : Nat) : Nat := ((List.range k).map s.dimLen).foldl (· * ·) 1

/-- The index of element e in dimension k of n. -/
def State.dimIndex (s : State) (n e k : Nat) : Nat :=
  if k + 1 = n then e / s.dimProduct k else e / s.dimProduct k % s.dimLen k

def State.indices (s : State) (n e : Nat) : List Nat := (List.range n).map (s.dimIndex n e)

/-- An element whose outermost index lies at or beyond its length. -/
def State.beyondTensor (s : State) (n e : Nat) : Bool := decide (s.dimLen (n - 1) ≤ s.dimIndex n e (n - 1))

/-- The address of strip element e. -/
def State.elemAddr (s : State) (mode : Mode) (a : BitVec 5) (size e : Nat) : Word :=
  match mode with
  | .unit => s.x a + BitVec.ofNat 64 (e * size)
  | .strided b => s.x a + BitVec.ofNat 64 e * s.x b
  | .indexed b => s.x a + (s.elem b e).signExtend 64
  | .tensor n =>
    s.x a + BitVec.ofInt 64 (((List.range n).map fun k => (s.dimIndex n e k : Int) * s.dimStride k).foldl (· + ·) 0)

/-- VL once a tensor's end has trimmed it (R122). -/
def State.tensorTrim (s : State) (mode : Mode) (m : BitVec 3) : State :=
  match mode with
  | .tensor n =>
    match (s.actives m).find? (s.beyondTensor n) with
    | some e => s.withVl e
    | none => s
  | _ => s

/-- The items of the formats of one element each. -/
def State.elementItems (s : State) (mode : Mode) (a : BitVec 5) (m : BitVec 3) (size : Nat) : List Item :=
  let act := s.actives m
  act.map fun e =>
    { elem := e, trimTo := e, first := act.head? == some e,
      idx := match mode with
        | .tensor n => s.indices n e
        | _ => [e],
      accesses := [(s.elemAddr mode a size e, size)] }

/-- The items of format 5: every block that holds an element below VL, byte by byte (R42). A block without an active
element is checked too: a fault of it names its first element, it trims as any other, and block 0 is the one that
cannot trim when no element is active (DESIGN CHOICE, log 77). -/
def State.blockItems (s : State) (a : BitVec 5) (m : BitVec 3) : List Item :=
  let act := s.actives m
  let lowest := act.headD 0
  (List.range ((s.vl + 31) / 32)).map fun b =>
    let e := (act.find? fun k => k / 32 == b).getD (32 * b)
    { elem := e, trimTo := 32 * b, first := lowest / 32 == b, idx := [e],
      accesses := (List.range 17).map fun i => (s.x a + BitVec.ofNat 64 (17 * b + i), 1) }

def State.memItems (s : State) (mode : Mode) (a : BitVec 5) (m : BitVec 3) (fmt : MemFmt) : List Item :=
  if fmt = .fmtMxfp4 then s.blockItems a m else s.elementItems mode a m fmt.size

/-! ### Operand checks (R35, R41, R71, R122) -/

/-- The field of B. -/
def Mode.field : Mode → BitVec 5
  | .unit => 0
  | .strided b => b
  | .indexed b => b
  | .tensor n => BitVec.ofNat 5 n

def Mode.isUnit : Mode → Bool
  | .unit => true
  | _ => false

/-- The offset vector's alignment. -/
def State.modeAlign (s : State) : Mode → Option FaultInfo
  | .indexed b => s.alignCheck b 2
  | _ => none

def State.modeUse (s : State) : Mode → List Use
  | .indexed b => s.vUse b 2
  | _ => []

/-- A dimension of length 0. -/
def State.dimCheck (s : State) : Mode → Option FaultInfo
  | .tensor n => ((List.range n).find? fun k => s.dimLen k == 0).map fun k => operandFault 0x02 (BitVec.ofNat 5 k) 5
  | _ => none

/-- A dimension count of 0 is no encoding (R70). -/
def Mode.legal : Mode → Bool
  | .tensor n => decide (1 ≤ n)
  | _ => true

def State.memFields (s : State) (mode : Mode) (d : BitVec 5) (m : BitVec 3) (fmt : MemFmt) (store : Bool) :
    List (Unit → Option FaultInfo) :=
  [fun _ => faultIf (!mode.legal) illegal, fun _ => s.alignCheck d 0, fun _ => s.modeAlign mode,
   fun _ => faultIf (fmt == .fmtMxfp4 && !mode.isUnit) (operandFault 0x02 mode.field 2),
   fun _ => faultIf (fmt == .fmtMxfp4 && store && m != 0) (operandFault 0x02 (m.setWidth 5) 3),
   fun _ => s.dimCheck mode]

/-! ### Loads (R123) -/

/-- The bytes of the accesses of an item as a load reads them, up to the first that cannot be read, with its address. -/
def State.loadReached (s : State) (v : LoadView) : List Reached → State × List Byte × Option Word
  | [] => (s, [], none)
  | x :: r =>
    let (s1, bs, bad) := s.loadBytes v x.hit.loc x.size
    if bad then (s1, bs, some x.va)
    else
      let (s2, l, f) := s1.loadReached v r
      (s2, bs ++ l, f)

/-- The items read in order, up to the first that meets uncorrectable data. -/
def State.loadItems (s : State) (v : LoadView) :
    List (Item × List Reached) → State × List (Item × List Byte) × Option (Item × Word)
  | [] => (s, [], none)
  | (i, l) :: r =>
    let (s1, bs, bad) := s.loadReached v l
    match bad with
    | some va => (s1, [], some (i, va))
    | none =>
      let (s2, rest, f) := s1.loadItems v r
      (s2, (i, bs) :: rest, f)

/-- What element e receives from the items read. -/
def loadedElem (fmt : MemFmt) (items : List (Item × List Byte)) (e : Nat) : Option Elem :=
  if fmt = .fmtMxfp4 then
    (items.find? fun p => p.1.trimTo / 32 == e / 32).map fun p => mxElem p.2 (e % 32)
  else
    (items.find? fun p => p.1.elem == e).map fun p => fmt.widen (leNat p.2)

/-- A vector load. -/
def vectorLoad (s : State) (st : BitVec 2) (mode : Mode) (d a : BitVec 5) (firstOnly : Bool) (m t : BitVec 3) : Out :=
  let fmt := MemFmt.ofCode t
  let info : AccessInfo := { st := st, fmt := t, write := false, scope := 0, reg := 0, opd := 0 }
  vectorIssue s (s.memFields mode d m fmt false) false (s.modeUse mode ++ pUse m) (s.vUse d 0)
    fun s1 =>
      let s2 := s1.tensorTrim mode m
      let (s3, ok, e) := s2.probed firstOnly info (s2.memItems mode a m fmt)
      match e with
      | .fault f => faulted s3 f
      | .held va => waitAt s3 (.held va)
      | e =>
        let (s4, items, bad) := s3.loadItems (s3.view st) ok
        match bad with
        | some (i, va) => faulted s4 (i.fault 0x11 va info)
        | none =>
          loading s3 st (ok.flatMap fun p => p.2.map fun x => (x.hit.loc, x.size)) fun _ =>
            let s5 := s4.trimmed e
            finish (s5.setGroup d fun k => if s5.active m k then loadedElem fmt items k else none) 4

def execVldu (s : BitVec 2) (d a : BitVec 5) (u : BitVec 1) (m t : BitVec 3) (s' : State) : Out :=
  vectorLoad s' s .unit d a (u == 1#1) m t
def execVlds (s : BitVec 2) (d a b : BitVec 5) (m t : BitVec 3) (s' : State) : Out :=
  vectorLoad s' s (.strided b) d a false m t
def execVldx (s : BitVec 2) (d a b : BitVec 5) (m t : BitVec 3) (s' : State) : Out :=
  vectorLoad s' s (.indexed b) d a false m t
def execVldm (s : BitVec 2) (d a : BitVec 5) (n : BitVec 2) (m t : BitVec 3) (s' : State) : Out :=
  vectorLoad s' s (.tensor n.toNat) d a false m t

/-! ### Stores (R124) -/

/-- The buffered accesses of an item's bytes. -/
def State.entriesOf (s : State) (st : BitVec 2) (reg : BitVec 5) (e : Nat) : List Reached → List Byte → List BufEntry
  | [], _ => []
  | x :: r, bs => s.entry st e reg x.va x.hit none (.store (bs.take x.size)) :: s.entriesOf st reg e r (bs.drop x.size)

/-- The blocks of format 5 encoded in order: bytes by block, flags, chain (R41). -/
def State.encodeBlocks (s : State) (d : BitVec 5) : List (Item × List Reached) → Chain →
    List (List Byte) × FFlags × Chain
  | [], c => ([], 0, c)
  | (i, _) :: r, c =>
    let present := (List.range (min 32 (s.vl - i.trimTo))).map fun k => s.elem d (i.trimTo + k)
    let (bs, f, c1) :=
      encodeBlock s.hart.csr.rmode s.dither present c
    let (rest, g, c2) := s.encodeBlocks d r c1
    (bs :: rest, f ||| g, c2)

/-- The bytes that each item stores, the flags and the chain after them. -/
def State.storedBytes (s : State) (d : BitVec 5) (fmt : MemFmt) (items : List (Item × List Reached)) :
    List (List Byte) × FFlags × Chain :=
  if fmt = .fmtMxfp4 then s.encodeBlocks d items s.hart.csr.ncarry
  else
    let (q, fl, c) := narrowAll (fmt.store s.hart.csr.rmode s.dither)
      (items.map fun p => (p.1.elem, s.elem d p.1.elem)) s.hart.csr.ncarry
    (q.map fun p => leBytes fmt.size p.2, fl, c)

/-- Entries of the store buffer that an instruction takes (R177). -/
def entriesTaken (fmt : MemFmt) (items : Nat) : Nat := if fmt = .fmtMxfp4 then 32 * items else items

/-- A vector store. -/
def vectorStore (s : State) (st : BitVec 2) (mode : Mode) (d a : BitVec 5) (m t : BitVec 3) : Out :=
  let fmt := MemFmt.ofCode t
  let info : AccessInfo := { st := st, fmt := t, write := true, scope := 0, reg := 0, opd := 0 }
  vectorIssueWith s (s.memFields mode d m fmt true) false (s.vUse d 0 ++ s.modeUse mode ++ pUse m) []
    [fun _ => s.underMask m (s.roomCheck (entriesTaken fmt (s.memItems mode a m fmt).length))]
    fun s1 =>
      let s2 := s1.tensorTrim mode m
      let (s3, ok, e) := s2.probed false info (s2.memItems mode a m fmt)
      match e with
      | .fault f => faulted s3 f
      | .held va => waitAt s3 (.held va)
      | e =>
        let s4 := s3.trimmed e
        let (bytes, fl, c) := s4.storedBytes d fmt ok
        let entries := (ok.zip bytes).flatMap fun p => s4.entriesOf st d p.1.1.elem p.1.2 p.2
        finish (((s4.buffer entries (entriesTaken fmt ok.length)).orFlags fl).withChain c) 4

def execVstu (s : BitVec 2) (d a : BitVec 5) (m t : BitVec 3) (s' : State) : Out := vectorStore s' s .unit d a m t
def execVsts (s : BitVec 2) (d a b : BitVec 5) (m t : BitVec 3) (s' : State) : Out :=
  vectorStore s' s (.strided b) d a m t
def execVstx (s : BitVec 2) (d a b : BitVec 5) (m t : BitVec 3) (s' : State) : Out :=
  vectorStore s' s (.indexed b) d a m t
def execVstm (s : BitVec 2) (d a : BitVec 5) (n : BitVec 2) (m t : BitVec 3) (s' : State) : Out :=
  vectorStore s' s (.tensor n.toNat) d a m t

/-! ### Vector atomics (R129) -/

/-- The buffered atomics of probed items, each at one word. -/
def State.atomicEntries (s : State) (st : BitVec 2) (d : BitVec 5) (op : AtomicOp) (leaf : Item → Option LeafKey)
    (items : List (Item × List Reached)) : List BufEntry :=
  items.flatMap fun p => p.2.map fun x => s.entry st p.1.elem d x.va x.hit (leaf p.1) (.atomic op (s.elem d p.1.elem))

/-- A VAT instruction. -/
def vectorAtomic (s : State) (st : BitVec 2) (d a b : BitVec 5) (m : BitVec 3) (op : AtomicOp) : Out :=
  let info : AccessInfo := { st := st, fmt := 0, write := true, scope := 1, reg := 0, opd := 0 }
  vectorIssueWith s [fun _ => s.alignCheck d 0, fun _ => s.alignCheck b 2] op.unordered
    (s.vUse d 0 ++ s.vUse b 2 ++ pUse m) []
    [fun _ => s.underMask m (s.roomCheck (s.actives m).length)]
    fun s1 =>
      let (s2, ok, e) := s1.probed false info (s1.elementItems (.indexed b) a m 4)
      match e with
      | .fault f => faulted s2 f
      | .held va => waitAt s2 (.held va)
      | e =>
        let s3 := s2.trimmed e
        finish (s3.buffer (s3.atomicEntries st d op (fun _ => none) ok) ok.length) 4

def execVaaddO (s : BitVec 2) (d a b : BitVec 5) (m : BitVec 3) (s' : State) : Out := vectorAtomic s' s d a b m .addF32
def execVaaddU (s : BitVec 2) (d a b : BitVec 5) (m : BitVec 3) (s' : State) : Out := vectorAtomic s' s d a b m .addF32U
def execVaaddi (s : BitVec 2) (d a b : BitVec 5) (m : BitVec 3) (s' : State) : Out := vectorAtomic s' s d a b m .addI
def execVamaxi (s : BitVec 2) (d a b : BitVec 5) (m : BitVec 3) (s' : State) : Out := vectorAtomic s' s d a b m .maxI
def execVamini (s : BitVec 2) (d a b : BitVec 5) (m : BitVec 3) (s' : State) : Out := vectorAtomic s' s d a b m .minI
def execVaswp (s : BitVec 2) (d a b : BitVec 5) (m : BitVec 3) (s' : State) : Out := vectorAtomic s' s d a b m .swap
def execVaor (s : BitVec 2) (d a b : BitVec 5) (m : BitVec 3) (s' : State) : Out := vectorAtomic s' s d a b m .or
def execVaand (s : BitVec 2) (d a b : BitVec 5) (m : BitVec 3) (s' : State) : Out := vectorAtomic s' s d a b m .and

/-! ### Records (R160, R163, R165, R166, R188) -/

/-- n accesses of w bytes each from an address on. -/
def accessesOf (va : Word) (w n : Nat) : List (Word × Nat) :=
  (List.range n).map fun i => (va + BitVec.ofNat 64 (w * i), w)

/-- A probe's end, or fault 0x14 of a record that is not aligned, which only 0x12 outranks (R28). -/
def ProbeEnd.aligned (e : ProbeEnd) (misaligned : Bool) (f : FaultInfo) : ProbeEnd :=
  match e with
  | .fault g => if misaligned && g.cause != 0x12 then .fault f else .fault g
  | e => if misaligned then .fault f else e

/-- A record at an address that is to be a multiple of `align`, read as a load in stream ST by accesses of one form;
`early` is a fault that its locations decide. -/
def recordRead (s : State) (st : BitVec 2) (va : Word) (align : Nat) (accesses : List (Word × Nat))
    (early : List Reached → Option FaultInfo) (k : State → List Byte → Out) : Out :=
  let info : AccessInfo := { st := st, fmt := 0, write := false, scope := 0, reg := 0, opd := 0 }
  let item : Item := { elem := 0, trimTo := 0, first := true, idx := [0], accesses := accesses }
  let (s1, ok, e) := s.probed false info [item]
  let reached := ok.flatMap Prod.snd
  match e.aligned (va.toNat % align != 0) (item.fault 0x14 va info) with
  | .fault f => faulted s1 f
  | .held va => waitAt s1 (.held va)
  | _ =>
    match early reached with
    | some f => faulted s1 f
    | none =>
      let (s2, bs, bad) := s1.loadReached (s1.view st) reached
      match bad with
      | some va => faulted s2 (item.fault 0x11 va info)
      | none => loading s1 st (reached.map fun x => (x.hit.loc, x.size)) fun _ => k s2 bs

end Sys2Proof.Machine
end

