-- ==== Sys2Proof/Machine/Engine.lean ====
section
/-! DEFINITION. Engine queues, the instructions of major 0x2A and the events of engine operations (spec/09 R164 to
R170, R174; spec/11 R200, R201; spec/18 R287 to R291; spec/20 R306). An operation is performed when it completes. -/

namespace Sys2Proof.Machine

/-! ### Queues and tags (R164) -/

def State.queue (s : State) (q : BitVec 2) : EngQueue := s.hart.queues[q.toNat]'(by omega)

def State.withQueue (s : State) (q : BitVec 2) (k : EngQueue) : State :=
  { s with hart := { s.hart with queues := s.hart.queues.set q.toNat k (by omega) } }

/-- The queue and the sequence number of a tag. -/
def tagQueue (t : Word) : BitVec 2 := t.extractLsb' 62 2
def tagSeq (t : Word) : Nat := (t.extractLsb' 0 62).toNat

/-- A tag beyond the last issued. -/
def State.tagLimit (s : State) (r : BitVec 5) (opd : Nat) : Option FaultInfo :=
  let t := s.x r
  faultIf (decide ((s.queue (tagQueue t)).issued < tagSeq t)) (operandFault 0x02 r opd)

def EngQueue.full (k : EngQueue) : Bool := decide (Config.queueDepth ≤ k.ops.length)

/-- The operation queued, with its tag. -/
def State.enqueue (s : State) (q : BitVec 2) (kind : EngKind) : State × Word :=
  let k := s.queue q
  let n := k.issued + 1
  (s.withQueue q { k with issued := n, ops := k.ops ++ [⟨n, kind, none, s.hart.unordered⟩] },
   (q.setWidth 64 <<< 62) ||| (BitVec.ofNat 62 n).setWidth 64)

/-- An address that is not a multiple of n, judged before the close. -/
def engAlign (va : Word) (n : Nat) (write : Bool) (scope : BitVec 2) : Option FaultInfo :=
  faultIf (va.toNat % n != 0) (elementFault 0x14 0 va (scalarInfo write scope))

/-- The little-endian doubleword i of some bytes. -/
def dword (bs : List Byte) (i : Nat) : Word := BitVec.ofNat 64 (leNat ((bs.drop (8 * i)).take 8))

/-! ### Regions (R168, R200) -/

/-- Where the generation of a valid region entry lies. -/
def State.genLoc (s : State) (part : Nat) (root2 : Word) (n : Nat) : Option Nat :=
  match s.regionTable part root2, s.regionNumbered part root2 n with
  | some t, some _ => some (t + 64 * n + 32)
  | _, _ => none

/-- A publish: the generation of a region entry grows by 1. -/
def State.publish (s : State) (part : Nat) (root2 : Word) (n : Nat) : State :=
  match s.genLoc part root2 n with
  | some l => s.write l (leBytes 8 (s.readNat l 8 + 1))
  | none => s

/-- A publish by the hart in front, which its engine operations are not ordered after (R170, R196). -/
def State.publishOwn (s : State) (n : Nat) : State :=
  let part := s.hart.ctl.part
  let root2 := s.hart.sup.xlat2
  match s.genLoc part root2 n with
  | some l => (s.replacing l 8).publish part root2 n
  | none => s

def State.myRegion (s : State) (n : Nat) : Option Region := s.regionNumbered s.hart.ctl.part s.hart.sup.xlat2 n

/-- The region holds a range. -/
def Region.holds (r : Region) (va : Word) (n : Nat) : Bool :=
  decide (r.base ≤ va.toNat) && decide (va.toNat + n ≤ r.base + r.len)

/-- The region of this partition that an operation writes. -/
def EngKind.writes : EngKind → Option Nat
  | .copy _ _ len _ (.region n) _ _ => if len = 0 then none else some n
  | .copy _ _ _ _ (.remote _) _ _ => none
  | .coll b _ => some b.region
  | .sig _ _ _ _ _ => none

/-- An operation of the hart writes region n. -/
def Hart.writesRegion (h : Hart) (n : Nat) : Bool :=
  h.queues.toList.any fun q => q.ops.any fun o => o.kind.writes == some n

/-- An operation that has begun: it waits for a source, or its collective has formed. -/
def EngineOp.started (o : EngineOp) : Bool :=
  match o.kind with
  | .coll _ (some _) => true
  | _ => o.stalled.isSome

/-- The operation at the head of one of the hart's queues writes region n, and has begun where `begun` asks for it. -/
def Hart.headWrites (h : Hart) (begun : Bool) (n : Nat) : Bool :=
  h.queues.toList.any fun q => (q.ops.head?).any fun o => o.kind.writes == some n && (!begun || o.started)

/-- An operation of another hart of the partition writes region n, or may be writing it. -/
def State.othersWrite (s : State) (begun : Bool) (n : Nat) : Bool :=
  s.hartIds.any fun h => h != s.cur && (s.hartAt h).ctl.part == s.hart.ctl.part && (s.hartAt h).headWrites begun n

/-! ### ECOPY (R165) -/

/-- The destination of a copy, or the fault its classification ends in. A peer's page without write permission does not
translate for it (DEDUCED, log 80). -/
def State.copyDest (s : State) (dst : Word) (len region : Nat) : State × Except Probe CopyDest :=
  if (s.myRegion region).any (fun r => r.holds dst len) then (s, .ok (.region region))
  else if inVaultSpace dst || !canonical dst then (s, .error (.fault 0x07))
  else
    let (s1, x) := s.translate { s.self with locks := [] } dst true
    match x with
    | .ok t =>
      if nodeOf (t.at dst.toNat) = 0 then (s1, .error (.fault 0x10))
      else if t.w then (s1, .ok (.remote (t.at dst.toNat)))
      else (s1, .error (.fault 0x07))
    | .outside => (s1, .error .outside)
    | .awaited => (s1, .error .held)
    | _ => (s1, .error (.fault 0x07))

/-- Waits while a queue is full. -/
def roomIn (s : State) (q : BitVec 2) (k : State → Out) : Out :=
  if (s.queue q).full then waitAt s .queue else k s

def execEcopy (q : BitVec 2) (d a : BitVec 5) (u k : BitVec 1) (_p : BitVec 2) (s : State) : Out :=
  let va := s.x a
  guarded s [fun _ => engAlign va 8 false 0] fun _ =>
    closing s fun s1 => roomIn s1 q fun s2 =>
      recordRead s2 0 va 8 (accessesOf va 8 3) (fun _ => none) fun s5 bs =>
        let src := dword bs 0
        let dst := dword bs 1
        let w := dword bs 2
        let len := (w.extractLsb' 0 40).toNat
        let region := (w.extractLsb' 40 8).toNat
        guarded s5 [fun _ => faultIf (w.extractLsb' 48 16 != 0#16) (operandFault 0x02 a 1)] fun _ =>
          let queue (t : State) (c : CopyDest) : Out :=
            let (t1, tag) := t.enqueue q (.copy src dst len region c (k == 1#1) (u == 1#1))
            finish (t1.setX d tag) 4
          if len = 0 then queue s5 (.region region)
          else
            let (s6, r) := s5.copyDest dst len region
            match r with
            | .ok c => queue s6.drawn c
            | .error (.fault c) => faulted s6 (elementFault c 0 dst (scalarInfo true 0))
            | .error .outside => faulted s6 (elementFault 0x12 0 dst (scalarInfo true 0))
            | .error _ => waitAt s6 (.held dst)

/-! ### ECOLL (R166) -/

/-- The parameter block in 64 bytes; none when a field breaks its limits. -/
def collBlock (bs : List Byte) : Option CollBlock :=
  let w := dword bs 0
  let nmem := (w.extractLsb' 4 8).toNat
  let root := (w.extractLsb' 12 8).toNat
  if decide (nmem < 1) || decide (192 < nmem) || decide (nmem ≤ root) || w.extractLsb' 20 44 != 0#44 ||
     (dword bs 5).extractLsb' 8 56 != 0#56 || dword bs 6 != 0
  then none
  else some { op := w.extractLsb' 0 2, itype := w.getLsbD 2, otype := w.getLsbD 3, nmem := nmem, root := root,
              list := dword bs 1, src := dword bs 2, dst := dword bs 3, count := (dword bs 4).toNat,
              region := ((dword bs 5).extractLsb' 0 8).toNat, status := dword bs 7 }

def execEcoll (q : BitVec 2) (d a : BitVec 5) (_p : BitVec 2) (s : State) : Out :=
  let va := s.x a
  guarded s [fun _ => engAlign va 64 false 0] fun _ =>
    closing s fun s1 => roomIn s1 q fun s2 =>
      recordRead s2 0 va 64 (accessesOf va 8 8) (fun _ => none) fun s3 bs =>
        match collBlock bs with
        | none => faulted s3 (operandFault 0x02 a 1)
        | some b =>
          let (s4, tag) := s3.enqueue q (.coll b none)
          finish (s4.setX d tag) 4

/-! ### EPUB, EWAIT, EPOLL, ESIG (R168, R169, R174) -/

def execEpub (a : BitVec 5) (c : BitVec 3) (s : State) : Out :=
  let n := s.x a
  let info (va : Word) : FaultInfo := elementFault 0x10 0 va (scalarInfo true (c.extractLsb' 0 2))
  guarded s
    [fun _ => faultIf (decide (2 < c.toNat)) illegal,
     fun _ => faultIf (decide (255 < n.toNat)) (operandFault 0x02 a 1)] fun _ =>
    closing s fun s1 =>
      match s1.myRegion n.toNat with
      | none => faulted s1 (info 0)
      | some r =>
        -- an operation of another agent that is queued may or may not have begun
        let (busy, s2) :=
          if s1.othersWrite true n.toNat then (true, s1)
          else if s1.othersWrite false n.toNat then s1.drawBit
          else (false, s1)
        if busy then faulted s2 (info (BitVec.ofNat 64 r.base))
        else if s2.hart.writesRegion n.toNat then waitAt s2 .publish
        else ordered s2 0xF fun s3 => finish (s3.publishOwn n.toNat) 4

/-- The earliest error of a queue at or before a sequence number, with the queue without it. -/
def EngQueue.takeError (k : EngQueue) (seq : Nat) : Option (EngineError × EngQueue) :=
  match k.errors with
  | [] => none
  | e :: r => if e.seq ≤ seq then some (e, { k with errors := r }) else none

/-- A tag that names a frozen queue freezes the hart. The record's faddr and finfo are 0 (DESIGN CHOICE, log 81). -/
def frozenCheck (s : State) (t : Word) (k : State → Out) : Out :=
  if tagSeq t != 0 && (s.queue (tagQueue t)).frozen then faulted s (elementFault 0x12 0 0 (scalarInfo false 0)) else k s

/-- EWAIT. In a deterministic launch the deferred fault of an erring operation comes before its completion interrupt (DESIGN
CHOICE, log 79). -/
def execEwait (a : BitVec 5) (s : State) : Out :=
  let t := s.x a
  let q := tagQueue t
  guarded s [fun _ => s.tagLimit a 1] fun _ =>
    closing s fun s1 => frozenCheck s1 t fun s2 =>
      if (s2.queue q).done < tagSeq t then waitAt s2 .ewait
      else
        match (s2.queue q).takeError (tagSeq t) with
        | some (e, k) => faulted (s2.withQueue q k) (elementFault e.cause 0 e.va (scalarInfo false 0))
        | none =>
          let mine := (s2.queue q).uiDone.any fun n => decide (n ≤ tagSeq t)
          match (if s2.hart.csr.det && mine then s2.takeable (1#4 <<< q.toNat) else none) with
          | some src => .next (s2.takeSource src (some (tagSeq t)) s2.hart.pc)
          | none => finish s2.fenced 4

def execEpoll (d a : BitVec 5) (s : State) : Out :=
  let t := s.x a
  guarded s [fun _ => s.tagLimit a 1, fun _ => s.detCheck true] fun _ =>
    closing s fun s1 =>
      if tagSeq t ≤ (s1.queue (tagQueue t)).done then finish (s1.fenced.setX d 1) 4 else finish (s1.setX d 0) 4

def execEsig (d a b : BitVec 5) (s : State) : Out :=
  let t := s.x d
  let q := tagQueue t
  let va := s.x a
  let v := s.x b
  let bytes := leBytes 8 v.toNat
  guarded s [fun _ => s.tagLimit d 0, fun _ => engAlign va 8 true 2] fun _ =>
    closing s fun s1 => frozenCheck s1 t fun s2 =>
      if t = 0 then
        ordered s2 0xF fun s3 => scalarAccess s3 va 8 true 2 fun s4 h =>
          finish (s4.perform (s4.entry 0 0 b va h none (.store bytes)) bytes) 4
      else
        roomIn s2 q fun s3 => scalarAccess s3 va 8 true 2 fun s4 h =>
          finish (s4.enqueue q (.sig (tagSeq t) va h.loc h.page v)).1 4

/-! ### What an operation meets (R169) -/

/-- Why an operation cannot go on. -/
inductive EngStop where
  /-- a source translation that fails: Husk maps the page or refuses it -/
  | stall (va : Word)
  | error (cause : BitVec 8) (va : Word)
  | freeze (va : Word)
deriving DecidableEq, Repr

/-- The bytes of a location that some writes replaced, the latest first. -/
def replacedAt (old : List Replaced) (loc : Nat) : List Byte :=
  old.filterMap fun g => if g.1 ≤ loc then g.2[loc - g.1]? else none

/-- The byte an engine reads at a location: the one there, or one that a write of the hart not ordered before the
operation replaced (R170, R196). -/
def State.orOlder (s : State) (old : List Replaced) (loc : Nat) : Byte :=
  let l := replacedAt old loc
  if l.isEmpty then s.byte loc else (s.byte loc :: l).getD (s.choose loc (l.length + 1)) 0

/-- The generations of the region table that some writes replaced: the locations. -/
def State.publishedIn (s : State) (a : Agent) (old : List Replaced) : List Nat :=
  match s.regionTable a.part a.root2 with
  | some t => ((List.range 256).map fun i => t + 64 * i + 32).filter fun l => old.any fun g => g.1 == l
  | none => []

/-- The state as an operation samples the generations of the regions: a publish of its hart that it is not ordered after may
not have been performed for it (R165, R196). -/
def State.sampled (s : State) (old : List Replaced) : State :=
  { s with mem := (s.publishedIn s.engine old).foldl (fun m l =>
      let gens := s.bytes l 8 :: (old.filter fun g => g.1 == l).map Prod.snd
      writeCells m l (s.asCells l (gens.getD (s.choose l gens.length) []))) s.mem }

/-- One source byte. -/
def State.engByte (s : State) (old : List Replaced) (va : Word) : Except EngStop Byte :=
  match ((s.sampled old).reachAddr s.engine va .read).2 with
  | .hit h => if s.unreadable h.loc 1 then .error (.error 0x11 va) else .ok (s.orOlder old h.loc)
  | .outside => .error (.freeze va)
  | _ => .error (.stall va)

def State.engBytes (s : State) (old : List Replaced) (va : Word) (n : Nat) : List (Except EngStop Byte) :=
  (List.range n).map fun i => s.engByte old (va + BitVec.ofNat 64 i)

/-- A write of an engine that some writes of its hart are not ordered before: it may be performed before any of them (R170). -/
def State.writeUnder (s : State) (old : List Replaced) (loc : Nat) (bytes : List Byte) : State :=
  let hides := old.filter fun g => decide (g.1 < loc + bytes.length) && decide (loc < g.1 + g.2.length)
  if hides.isEmpty then s.write loc bytes
  else
    let later := hides.take (s.choose loc (hides.length + 1))
    let hidden (i : Nat) : Bool := later.any fun g => decide (g.1 ≤ loc + i) && decide (loc + i < g.1 + g.2.length)
    (s.write loc (bytes.zipIdx.map fun p => if hidden p.2 then s.byte (loc + p.2) else p.1)).drawn

/-- What the reads of an operation's source leave in the counts and the log of errors. -/
def State.noteSource (s : State) (va : Word) (n : Nat) : State := s.noteRange s.engine va n

/-- The first stop among bytes. -/
def firstStop : List (Except EngStop Byte) → Option EngStop
  | [] => none
  | .error e :: _ => some e
  | .ok _ :: r => firstStop r

def bytesOf (l : List (Except EngStop Byte)) : List Byte :=
  l.filterMap fun x =>
    match x with
    | .ok b => some b
    | .error _ => none

/-- The location of n bytes at offset `off` of the back backing of a region of a partition, which the second stage must let
be written (R301). -/
def State.backAt (s : State) (part : Nat) (root2 : Word) (r : Region) (off n : Nat) (va : Word) : Except EngStop Nat :=
  match s.stage2In part root2 (r.back + off) true with
  | .ok l =>
    let loc := s.fabric.normal (l.base + (r.back + off) % 2 ^ l.bits)
    if !l.w then .error (.error 0x07 va)
    else if !s.admitted part loc n true then .error (.freeze va)
    else if s.noPath loc then .error (.error 0x11 va)
    else .ok loc
  | .outside => .error (.freeze va)
  | .invalid => .error (.error 0x07 va)

/-- Where n bytes from an offset of a region go: the location of each 64-byte block, and its length. -/
def State.backBlocks (s : State) (part : Nat) (root2 : Word) (r : Region) :
    Nat → Nat → Nat → Except EngStop (List (Nat × Nat))
  | 0, _, _ => .ok []
  | f + 1, off, n =>
    if n = 0 then .ok []
    else
      let k := min n (64 - off % 64)
      match s.backAt part root2 r off k (BitVec.ofNat 64 (r.base + off)), s.backBlocks part root2 r f (off + k) (n - k) with
      | .ok loc, .ok l => .ok ((loc, k) :: l)
      | .error e, _ => .error e
      | _, .error e => .error e

/-- The destination of n bytes in a region: the entry still holds them and they can be written. -/
def State.destBlocks (s : State) (region : Nat) (dst : Word) (n : Nat) : Except EngStop (List (Nat × Nat)) :=
  match s.myRegion region with
  | none => .error (.error 0x07 dst)
  | some r => 
    if r.holds dst n then
      s.backBlocks s.hart.ctl.part s.hart.sup.xlat2 r (n / 64 + 2) (dst.toNat - r.base) n
    else .error (.error 0x07 dst)

/-- Bytes written block by block by an agent. -/
def State.writeBlocks (s : State) (agent : Nat) : List (Nat × Nat) → List Byte → State
  | [], _ => s
  | (loc, k) :: r, bs => ((s.sending agent loc k).write loc (bs.take k)).writeBlocks agent r (bs.drop k)

/-- Which bytes an operation that ended in error had written is free (R165). -/
def State.writeSome (s : State) (agent : Nat) : List Nat → List (Except EngStop Byte) → State
  | loc :: r, .ok b :: bs =>
    let (w, s1) := s.drawBit
    (if w then (s1.sending agent loc 1).write loc [b] else s1).writeSome agent r bs
  | _ :: r, .error _ :: bs => s.writeSome agent r bs
  | _, _ => s

/-- The byte locations of blocks. -/
def blockLocs (l : List (Nat × Nat)) : List Nat := l.flatMap fun p => (List.range p.2).map fun i => p.1 + i

/-! ### How an operation of the hart in front ends -/

/-- The operation at the head of a queue. -/
def State.headOp (s : State) (q : BitVec 2) : Option EngineOp :=
  let k := s.queue q
  if k.frozen then none else k.ops.head?

def EngKind.ui : EngKind → Bool
  | .copy _ _ _ _ _ _ ui => ui
  | _ => false

/-- A bit of uipend set: in the hart, or in the image of one that has halted (R292). -/
def State.pendUi (s : State) (q : BitVec 2) : State :=
  match s.imageOf s.cur with
  | some _ => s.orImage s.cur imageUipend (2 ^ q.toNat)
  | none => s.withUi { s.hart.ui with pendEq := s.hart.ui.pendEq ||| (1#4 <<< q.toNat) }

/-- The head of a queue completed, with its error if it ended in one. -/
def State.complete (s : State) (q : BitVec 2) (o : EngineOp) (err : Option (BitVec 8 × Word)) : State :=
  let k := s.queue q
  let k1 := { k with done := o.seq, ops := k.ops.tail, uiDone := if o.kind.ui then k.uiDone ++ [o.seq] else k.uiDone }
  let k2 := match err with
    | some (c, va) =>
      { k1 with errors := k1.errors ++ [⟨o.seq, c, va⟩], firstError := some (k1.firstError.getD o.seq) }
    | none => k1
  let s1 := s.withQueue q k2
  (if o.kind.ui then s1.pendUi q else s1).settle

/-- The queue frozen at an access (R169). -/
def State.freezeQueue (s : State) (q : BitVec 2) (va : Word) : State :=
  (s.withQueue q { s.queue q with frozen := true }).report (.queueViolation s.cur q.toNat va)

/-- The engine waits for Husk, who is told (R169). -/
def State.stallHead (s : State) (q : BitVec 2) (o : EngineOp) (va : Word) : State :=
  let k := s.queue q
  (s.withQueue q { k with ops := { o with stalled := some va } :: k.ops.tail }).report (.sourceFault s.cur q.toNat va)

/-- A doubleword of ordinary memory written by an operation of queue q. -/
def State.engineWrite (s : State) (q : BitVec 2) (old : List Replaced) (loc : Nat) (v : Word) : State :=
  (s.sending (engineAgent s.cur q.toNat) loc 8).writeUnder old loc (leBytes 8 v.toNat)

/-- STATUS written as a release at SYSTEM; whether it could be. -/
def State.writeStatus (s : State) (q : BitVec 2) (o : EngineOp) (b : CollBlock) (v : Word) : State × Option EngStop :=
  match (s.probe s.engine b.status 8 .write).2 with
  | .hit h =>
    if s.noPath h.loc then (s, some (.error 0x11 b.status)) else (s.engineWrite q o.unordered h.loc v, none)
  | .outside => (s, some (.freeze b.status))
  | _ => (s, some (.error 0x07 b.status))

/-- An operation ends with an error: ECOLL writes STATUS too. -/
def State.endError (s : State) (q : BitVec 2) (o : EngineOp) (c : BitVec 8) (va : Word) : State :=
  match o.kind with
  | .coll b _ =>
    let (s1, stop) := s.writeStatus q o b (0x5#64 ||| (c.setWidth 64 <<< 8))
    match stop with
    | some (.freeze w) => s1.freezeQueue q w
    | _ => s1.complete q o (some (c, va))
  | _ => s.complete q o (some (c, va))

/-- A stop acted on. -/
def State.stopped (s : State) (q : BitVec 2) (o : EngineOp) (e : EngStop) : State :=
  match e with
  | .stall va => s.stallHead q o va
  | .error c va => s.endError q o c va
  | .freeze va => s.freezeQueue q va

/-- One byte of a remote destination, translated by both stages and in no region of this partition: its grant still covers
it, and a path leads there (R165, R169, R282, R287). -/
def State.remoteByte (s : State) (dst va : Word) : Except EngStop Byte :=
  if inVaultSpace va || !canonical va then .error (.error 0x07 va)
  else
    match s.walk s.engine va.toNat true with
    | .ok t =>
      if nodeOf (t.at va.toNat) = 0 then .error (.error 0x10 dst)
      else if !t.w then .error (.error 0x07 va)
      else if s.noPath (t.at va.toNat) then .error (.error 0x11 va)
      else .ok 0
    | .outside => .error (.freeze va)
    | _ => .error (.error 0x07 va)

/-- What keeps a copy from completing: of several stops that of the lowest source byte, then that of the destination (DESIGN
CHOICE, log 40: blocks go in any order). -/
def State.copyStop (s : State) (old : List Replaced) (src dst : Word) (len region : Nat) (dest : CopyDest) :
    Option EngStop :=
  if len = 0 then none
  else
    match firstStop (s.engBytes old src len) with
    | some e => some e
    | none =>
      match dest with
      | .region _ =>
        match s.destBlocks region dst len with
        | .error e => some e
        | .ok _ => none
      | .remote _ => firstStop ((List.range len).map fun i => s.remoteByte dst (dst + BitVec.ofNat 64 i))

/-- A copy into a region of this partition performed. A copy to a peer is the peer's to place (R288). -/
def State.performCopy (s : State) (q : BitVec 2) (old : List Replaced) (src dst : Word) (len region : Nat) (dest : CopyDest)
    (publish : Bool) : State :=
  let s0 := if len = 0 then s else (s.noteSource src len).drawn
  match dest with
  | .region _ =>
    match s.destBlocks region dst len with
    | .ok l =>
      let s1 := s0.writeBlocks (engineAgent s.cur q.toNat) l (bytesOf (s.engBytes old src len))
      if publish && len != 0 then s1.publish s1.hart.ctl.part s1.hart.sup.xlat2 region else s1
    | .error _ => s
  | .remote _ => s0

/-- An operation of a partition that writes region n, at the head of a queue other than the one skipped, has begun and not
completed: an automatic publish waits for it (R165). -/
def State.regionBusy (s : State) (part n : Nat) (skip : Nat → Nat → Bool) : Bool :=
  let begun (k : EngQueue) : Bool := (k.ops.head?).any fun o => o.started && o.kind.writes == some n
  s.hartIds.any fun h =>
    (s.hartAt h).ctl.part == part && (List.range 4).any fun i => !skip h i && ((s.hartAt h).queues[i]?).any begun

/-- A copy stopped with an error: what it had read, and which of its back bytes it had written. -/
def State.partialCopy (s : State) (q : BitVec 2) (o : EngineOp) : State :=
  match o.kind with
  | .copy src dst len region (.region _) _ _ =>
    match s.destBlocks region dst len with
    | .ok l => (s.noteSource src len).writeSome (engineAgent s.cur q.toNat) (blockLocs l) (s.engBytes o.unordered src len)
    | .error _ => s.noteSource src len
  | .copy src _ len _ (.remote _) _ _ => s.noteSource src len
  | _ => s

/-! ### Collectives (R166, R167, R290, R291) -/

/-- Bytes of an element by its type bit. -/
def collSize (fp : Bool) : Nat := if fp then 4 else 2

/-- An element of an input widened to FP32. -/
def collWiden (fp : Bool) (raw : Nat) : Elem := if fp then BitVec.ofNat 32 raw else BitVec.ofNat 32 (raw * 65536)

/-- An output element's pattern. -/
def collNarrow (fp : Bool) (x : Elem) : Nat := if fp then x.toNat else (quiet (rne16 (exactly (val32 x)))).toNat

/-- Elements a member reads. -/
def CollBlock.inputs (b : CollBlock) (rank : Nat) : Nat :=
  if b.op = 1 then b.nmem * b.count else if b.op = 3 && rank != b.root then 0 else b.count

/-- The sum of output element i over the ranks. -/
def rankSum (i : Nat) : List (List Elem) → Elem
  | [] => 0
  | x :: r => r.foldl (fun acc y => quiet (fadd acc (y.getD i 0))) (x.getD i 0)

/-- The partial sums of element i. -/
def rankSums (i : Nat) : List (List Elem) → List Elem
  | [] => []
  | x :: r => (List.range (r.length + 1)).map fun k => rankSum i (x :: r.take k)

/-- The output of a member, as FP32 values before narrowing. -/
def CollBlock.output (b : CollBlock) (rank : Nat) (inputs : List (List Elem)) : List Elem :=
  if b.op = 0 then (List.range b.count).map fun i => rankSum i inputs
  else if b.op = 1 then (List.range b.count).map fun i => rankSum (rank * b.count + i) inputs
  else if b.op = 2 then inputs.flatMap fun x => (List.range b.count).map fun i => x.getD i 0
  else (List.range b.count).map fun i => (inputs.getD b.root []).getD i 0

/-- Whether any input, accumulator or output element of any member is a NaN or an infinity. -/
def CollBlock.nonFinite (b : CollBlock) (inputs : List (List Elem)) : Bool :=
  let bad (x : Elem) : Bool := !(val32 x).isFinite
  let total := if b.op = 1 then b.nmem * b.count else b.count
  let sums : List Elem := if b.op = 0 || b.op = 1 then (List.range total).flatMap fun i => rankSums i inputs else []
  let outs := (List.range b.nmem).flatMap fun r => b.output r inputs
  inputs.any (fun l => l.any bad) || sums.any bad ||
    outs.any fun x => bad (collWiden b.otype (collNarrow b.otype x))

/-- The member list as the engine reads it. -/
def State.memberIds (s : State) (old : List Replaced) (b : CollBlock) : Except EngStop (List Nat) :=
  let l := s.engBytes old b.list (2 * b.nmem)
  match firstStop l with
  | some e => .error e
  | none => .ok ((List.range b.nmem).map fun i => leNat (((bytesOf l).drop (2 * i)).take 2))

/-- The input of this device. -/
def State.collInput (s : State) (old : List Replaced) (b : CollBlock) (rank : Nat) : Except EngStop (List Elem) :=
  let w := collSize b.itype
  let l := s.engBytes old b.src (w * b.inputs rank)
  match firstStop l with
  | some e => .error e
  | none =>
    .ok ((List.range (b.inputs rank)).map fun i => collWiden b.itype (leNat (((bytesOf l).drop (w * i)).take w)))

/-- The collectives of the partition with a member list that have been counted (R290). -/
def State.collectiveCount (s : State) (ids : List Nat) : Nat :=
  ((s.fabric.collectives.find? fun c => c.1 == s.hart.ctl.part && c.2.1 == ids).map fun c => c.2.2).getD 0

/-- The collective count of a member list taken. -/
def State.countCollective (s : State) (ids : List Nat) : State :=
  let part := s.hart.ctl.part
  let rest := s.fabric.collectives.filter fun c => !(c.1 == part && c.2.1 == ids)
  { s with fabric := { s.fabric with collectives := rest ++ [(part, ids, s.collectiveCount ids + 1)] } }

/-- An announcement that differs from the block in what members compare. -/
def CollBlock.differs (b : CollBlock) (ids : List Nat) (m : Member) : Bool :=
  m.ids != ids || m.op != b.op || m.itype != b.itype || m.otype != b.otype || m.nmem != b.nmem || m.root != b.root ||
  m.count != b.count

/-- An id list no collective may have: ids that name no device, an id present twice, or this device absent. -/
def badIds (self : Nat) (ids : List Nat) : Bool :=
  ids.any (fun i => decide (i < 1) || decide (192 < i)) || decide (¬ ids.Nodup) || !ids.contains self

/-- A peer of a list that the partition holds no grant to at all (R282, R290). -/
def State.ungranted (s : State) (ids : List Nat) : Bool :=
  ids.any fun i =>
    i != s.fabric.domain &&
    !(s.fabric.grants.any fun g => g.srcNode == s.fabric.domain && g.srcPart == s.hart.ctl.part && g.dstNode == i)

/-- A member whose buffers lie where the partition may not read them (R282, R290; DESIGN CHOICE, log 91: the exchange reads). -/
def State.unreachedBuffers (s : State) (ms : List Member) : Bool :=
  ms.any fun m => m.id != s.fabric.domain && !(s.fabric.granted s.hart.ctl.part (m.id * 2 ^ 44 + m.base) m.len false)

/-- A peer of a list to which no path is left (R287). -/
def State.losesPeer (s : State) (ids : List Nat) : Bool :=
  ids.any fun i => i != s.fabric.domain && s.fabric.lost.contains i

/-- The members one by one, the rank of an announcement being its place. -/
def membersAgree (b : CollBlock) (ids : List Nat) (self : Nat) : List Nat → List Member → Bool
  | [], [] => true
  | i :: r, m :: ms => m.id == i && (i == self || !b.differs ids m) && membersAgree b ids self r ms
  | _, _ => false

/-- A collective forms from the announcements of its members, in rank order, or ends with cause 0x02, with 0x12 where
this member may not reach a peer's buffers, or with 0x11 where no path leads to one. The k-th of this device's collectives
with a list takes the k-th of each peer (R287, R290). -/
def State.formCollective (s : State) (q : BitVec 2) (o : EngineOp) (b : CollBlock) (ms : List Member) : Option State :=
  match s.memberIds o.unordered b with
  | .error e => some ((s.noteSource b.list (2 * b.nmem)).stopped q o e)
  | .ok ids =>
    let turn := s.collectiveCount ids + 1
    if ms.any fun m => m.id != s.fabric.domain && m.ids == ids && m.turn != turn then none
    else
      let s1 := (s.noteSource b.list (2 * b.nmem)).countCollective ids
      if badIds s.fabric.domain ids || !membersAgree b ids s.fabric.domain ids ms then some (s1.endError q o 0x02 0)
      else if s.unreachedBuffers ms then some (s1.endError q o 0x12 0)
      else if s.losesPeer ids then some (s1.endError q o 0x11 0)
      else
        let k := s1.queue q
        some (s1.withQueue q { k with ops := { o with kind := .coll b (some ms) } :: k.ops.tail })

/-- Rank of this device among announcements. -/
def rankOf (self : Nat) (ms : List Member) : Nat := (ms.findIdx? fun m => m.id == self).getD 0

/-- Where the output of a collective goes: a region that does not hold it is cause 0x10, a backing that does not
translate 0x07 (R169). -/
def State.collDest (s : State) (b : CollBlock) (n : Nat) : Except EngStop (List (Nat × Nat)) :=
  if n = 0 then .ok []
  else if (s.myRegion b.region).any fun r => r.holds b.dst n then s.destBlocks b.region b.dst n
  else .error (.error 0x10 b.dst)

/-- A formed collective performed: output, publish, STATUS. One that has lost a peer ends with cause 0x11 (R287); one whose
STATUS cannot be written publishes nothing (R291). -/
def State.performColl (s : State) (q : BitVec 2) (o : EngineOp) (b : CollBlock) (ms : List Member) : State :=
  let rank := rankOf s.fabric.domain ms
  if s.losesPeer (ms.map Member.id) then s.endError q o 0x11 0
  else
  match s.collInput o.unordered b rank with
  | .error (.error c va) => (s.noteSource b.src (collSize b.itype * b.inputs rank)).endError q o c va
  | .error e => s.stopped q o e
  | .ok own =>
    let inputs := ms.zipIdx.map fun p => if p.2 = rank then own else p.1.input
    let w := collSize b.otype
    let bytes := (b.output rank inputs).flatMap fun x => leBytes w (collNarrow b.otype x)
    match s.collDest b bytes.length with
    | .error e => s.stopped q o e
    | .ok l =>
      let v : Word := 1#64 ||| if b.nonFinite inputs then 2#64 else 0
      match (s.writeStatus q o b v).2 with
      | some e => s.stopped q o e
      | none =>
        let s1 := ((s.noteSource b.src (collSize b.itype * b.inputs rank)).drawn.writeBlocks (engineAgent s.cur q.toNat) l bytes).publish
          s.hart.ctl.part s.hart.sup.xlat2 b.region
        (s1.writeStatus q o b v).1.complete q o none

/-! ### Events (R164 to R169, R290, R291) -/

/-- An event of the operation at the head of queue q of a hart, brought in front. -/
def onHead (hart queue : Nat) (s : State) (k : State → BitVec 2 → EngineOp → Option State) : Out :=
  let q := BitVec.ofNat 2 queue
  let t := s.focus hart
  if (hart < Config.harts || (tget s.harts hart).isSome) && decide (queue < 4) then
    match t.headOp q with
    | some o => .next ((k t q o).getD s)
    | none => .next s
  else .next s

/-- A copy whose translations are not waited for completes, stalls, ends with an error or freezes its queue. -/
def State.runCopy (s : State) (q : BitVec 2) (o : EngineOp) : Option State :=
  match o.kind, o.stalled with
  | .copy src dst len region dest publish _, none =>
    match s.copyStop o.unordered src dst len region dest with
    | none =>
      let busy := s.regionBusy s.hart.ctl.part region fun h i => h == s.cur && i == q.toNat
      if publish && len != 0 && o.kind.writes.isSome && busy then none
      else some ((s.performCopy q o.unordered src dst len region dest publish).complete q o none)
    | some (.error c va) => some ((s.partialCopy q o).stopped q o (.error c va))
    | some e => some (s.stopped q o e)
  | _, _ => none

def execEcopyCompletion (hart queue : Nat) (s : State) : Out := onHead hart queue s fun t q o => t.runCopy q o

def execCollectiveFormation (hart queue : Nat) (members : List Member) (s : State) : Out :=
  onHead hart queue s fun t q o =>
    match o.kind, o.stalled with
    | .coll b none, none => t.formCollective q o b members
    | _, _ => none

/-- The members of a collective, formed or not. -/
def State.collIds (s : State) (o : EngineOp) (b : CollBlock) (ms : Option (List Member)) : List Nat :=
  match ms with
  | some l => l.map fun m => m.id
  | none =>
    match s.memberIds o.unordered b with
    | .ok ids => ids
    | .error _ => []

/-- A collective that ends before it has formed has taken its count of the list too (R290). -/
def State.countUnformed (s : State) (o : EngineOp) (b : CollBlock) (ms : Option (List Member)) : State :=
  match ms, s.memberIds o.unordered b with
  | none, .ok ids => s.countCollective ids
  | _, _ => s

/-- A collective ended by an error, formed or not. -/
def State.failColl (s : State) (q : BitVec 2) (o : EngineOp) (b : CollBlock) (ms : Option (List Member)) (c : BitVec 8)
    (va : Word) : State := (s.countUnformed o b ms).endError q o c va

/-- A formed collective performed; one that cannot form any more for want of a path ended. -/
def State.runColl (s : State) (q : BitVec 2) (o : EngineOp) : Option State :=
  match o.kind, o.stalled with
  | .coll b (some ms), none => some (s.performColl q o b ms)
  | .coll b none, none => if s.losesPeer (s.collIds o b none) then some (s.failColl q o b none 0x11 0) else none
  | _, _ => none

def execEcollCompletion (hart queue : Nat) (s : State) : Out := onHead hart queue s fun t q o => t.runColl q o

def execCollectiveFailureReport (hart queue : Nat) (cause : BitVec 8) (s : State) : Out :=
  onHead hart queue s fun t q o =>
    match o.kind with
    | .coll b ms => some (t.failColl q o b ms cause 0)
    | _ => none

/-- A signal whose turn has come: written unless an operation at or before its tag ended in error. -/
def State.runSig (s : State) (q : BitVec 2) (o : EngineOp) : Option State :=
  match o.kind with
  | .sig tag va loc _ v =>
    if (s.queue q).firstError.any fun n => decide (n ≤ tag) then some (s.complete q o none)
    else if s.noPath loc then some (s.endError q o 0x11 va)
    else some ((s.engineWrite q o.unordered loc v).complete q o none)
  | _ => none

def execEsigWrite (hart queue : Nat) (s : State) : Out := onHead hart queue s fun t q o => t.runSig q o

/-- A collective that reaches peers which it may not, or cannot (R287, R290). -/
def State.collCause (s : State) (ids : List Nat) (c : BitVec 8) : Bool :=
  (c == 0x11#8 && s.losesPeer ids) || (c == 0x12#8 && s.ungranted ids)

/-- ENGINE_ERROR_COMPLETION: a copy that its target rejects (R288), one that meets what R169 lists, or a collective
that loses a peer. -/
def execEngineErrorCompletion (hart queue : Nat) (cause : BitVec 8) (va : Word) (s : State) : Out :=
  onHead hart queue s fun t q o =>
    match o.kind with
    | .copy src dst len region dest _ _ =>
      let remote := match dest with
        | .remote _ => len != 0 && cause == 0x10#8 && va == dst
        | .region _ => false
      if remote || (o.stalled.isNone && t.copyStop o.unordered src dst len region dest == some (.error cause va))
      then some ((t.partialCopy q o).stopped q o (.error cause va)) else none
    | .coll b ms => if t.collCause (t.collIds o b ms) cause then some (t.failColl q o b ms cause va) else none
    | _ => none

/-- ENGINE_SOURCE_TRANSLATION_FAULT: the head operation meets a source address that does not translate. -/
def execEngineSourceTranslationFault (hart queue : Nat) (va : Word) (s : State) : Out :=
  onHead hart queue s fun t q o =>
    match o.kind, o.stalled with
    | .copy src dst len region dest _ _, none =>
      if t.copyStop o.unordered src dst len region dest = some (.stall va) then some (t.stallHead q o va) else none
    | .coll b (some ms), none =>
      match t.collInput o.unordered b (rankOf t.fabric.domain ms) with
      | .error (.stall w) => if w = va then some (t.stallHead q o va) else none
      | _ => none
    | _, _ => none

/-- ENGINE_TRANSLATION_RESOLVED: Husk has mapped the page, or refuses it. -/
def execEngineTranslationResolved (hart queue : Nat) (refused : Bool) (s : State) : Out :=
  onHead hart queue s fun t q o =>
    match o.stalled with
    | some va =>
      if refused then some ((t.partialCopy q o).endError q o 0x07 va)
      else
        let k := t.queue q
        some (t.withQueue q { k with ops := { o with stalled := none } :: k.ops.tail })
    | none => none

/-- ENGINE_QUEUE_FREEZE: the head operation's access lies outside the partition. -/
def execEngineQueueFreeze (hart queue : Nat) (va : Word) (s : State) : Out :=
  onHead hart queue s fun t q o =>
    match o.kind, o.stalled with
    | .copy src dst len region dest _ _, none =>
      if t.copyStop o.unordered src dst len region dest = some (.freeze va) then some (t.freezeQueue q va) else none
    | .coll b (some ms), none =>
      match t.collInput o.unordered b (rankOf t.fabric.domain ms) with
      | .error (.freeze w) => if w = va then some (t.freezeQueue q va) else none
      | _ => none
    | _, _ => none

/-- A hart that waits as said goes on at its next turn. -/
def resumeFrom (hart : Nat) (w : Wait) (s : State) : Out :=
  let h := s.hartAt hart
  if h.run == .waiting w then .next (s.setHartAt hart { h with run := .running }) else .next s

/-- A hart that stalls on a full queue issues its instruction again. -/
def execEngineQueueStallEnd (hart : Nat) (s : State) : Out := resumeFrom hart .queue s

/-- A hart in EWAIT executes it again. -/
def execEwaitResume (hart : Nat) (s : State) : Out := resumeFrom hart .ewait s

/-- An operation of the hart in front that completes without an announcement from elsewhere. -/
def State.engineTurn (s : State) : Option State :=
  [0#2, 1#2, 2#2, 3#2].findSome? fun q =>
    match s.headOp q with
    | some o =>
      match s.runCopy q o with
      | some t => some t
      | none =>
        match s.runSig q o with
        | some t => some t
        | none => s.runColl q o
    | none => none

end Sys2Proof.Machine
end

