-- ==== Sys2Proof/Machine/Invalidation.lean ====
section
/-! DEFINITION. Invalidations of translations (spec/19 R302, R303; spec/07 R120, R135; spec/12 R212). A range is given
by its first address and the first address beyond it. -/

namespace Sys2Proof.Machine

/-- Whether n bytes from a base meet the range. -/
def meetsRange (lo hi : Word) (base n : Nat) : Bool := decide (base < hi.toNat) && decide (lo.toNat < base + n)

/-- Translations removed from both TLB levels. -/
def State.dropCached (s : State) (gone : TlbEntry → Bool) : State :=
  let t := s.mapCores fun _ c => { c with tlb := c.tlb.filter fun e => !gone e }
  { t with tlb2 := tmap (fun _ l => l.filter fun e => !gone e) t.tlb2 }

/-- Translations of locked ranges marked as removed. -/
def Hart.dropLocked (h : Hart) (gone : TlbEntry → Bool) : Hart :=
  { h with locks := tmap (fun _ r => { r with trans := r.trans.map fun t => (t.1, t.2 && !gone t.1) }) h.locks }

/-- An access was probed through a translation that goes. -/
def BufEntry.through (e : BufEntry) (gone : TlbEntry → Bool) : Bool := e.page.any gone

/-- Whether a strip buffered a store or an atomic through a translation that goes (R120). -/
def Hart.buffered (h : Hart) (gone : TlbEntry → Bool) : Bool := h.csr.so && h.strip.buf.any fun e => e.through gone

/-- A signal that is queued was probed through a translation that goes. -/
def EngKind.through (k : EngKind) (gone : TlbEntry → Bool) : Bool :=
  match k with
  | .sig _ _ _ page _ => page.any gone
  | _ => false

def Hart.signals (h : Hart) (gone : TlbEntry → Bool) : Bool :=
  h.queues.toList.any fun q => q.ops.any fun o => o.kind.through gone

/-- An unbuffered access or a signal through a translation that goes is not yet performed: the invalidation does not
complete (R302). -/
def State.unperformed (s : State) (gone : TlbEntry → Bool) : Bool :=
  (s.fabric.held.any fun w => w.entry.through gone) || s.hartIds.any fun h => (s.hartAt h).signals gone

/-- An invalidation: cached and locked translations that satisfy `gone` are removed, and the strips that buffered
through one are aborted (R120, R135, R302, R303). -/
def State.invalidate (s : State) (gone : TlbEntry → Bool) : State :=
  if s.unperformed gone then s
  else
    let victims := s.hartIds.filter fun h => (s.hartAt h).buffered gone
    (victims.foldl State.abortAt (s.dropCached gone)).mapHarts fun _ h => h.dropLocked gone

/-- The fields of a root that name a table. -/
def sameRoot (a b : Word) : Bool := a.extractLsb' 12 40 == b.extractLsb' 12 40

/-- The virtual addresses that the first-stage leaf of a translation maps: its base, and their number (R302). -/
def TlbEntry.firstLeaf (t : TlbEntry) : Nat × Nat := (t.vbase / 2 ^ t.first * 2 ^ t.first, 2 ^ t.first)

/-- The partition physical addresses of the second-stage leaves that a translation was derived from: that of its page, and
those through which the walk read first-stage tables. -/
def TlbEntry.secondLeaves (t : TlbEntry) : List (Nat × Nat) :=
  (t.ppa / 2 ^ t.second * 2 ^ t.second, 2 ^ t.second) :: t.tables.map fun p => (p.1, 2 ^ p.2)

/-- FIRST_STAGE_INVALIDATION: a range of virtual addresses under one first-stage root of a partition. A translation goes when
the leaf it was derived from meets the range (DEDUCED, log 90). -/
def execFirstStageInvalidation (part : Nat) (root lo hi : Word) (s : State) : Out :=
  .next (s.invalidate fun t =>
    decide (t.part = part) && sameRoot t.root1 root && meetsRange lo hi t.firstLeaf.1 t.firstLeaf.2)

/-- SECOND_STAGE_INVALIDATION: a range of partition physical addresses. -/
def execSecondStageInvalidation (part : Nat) (lo hi : Word) (s : State) : Out :=
  .next (s.invalidate fun t => decide (t.part = part) && t.secondLeaves.any fun p => meetsRange lo hi p.1 p.2)

end Sys2Proof.Machine
end

