-- ==== Sys2Proof/Machine/Partition.lean ====
section
/-! DEFINITION. Partitions: creation, resizing, destruction, the movement of cores, teardown and function-level reset
(spec/19 R296 to R299, R304; spec/17 R278 to R280; spec/16 R258, R259; spec/12 R208, R209; spec/00 R5). -/

namespace Sys2Proof.Machine

def State.putPart (s : State) (part : Nat) (p : Partition) : State := { s with parts := tput s.parts part p }

/-! ### Zeroing (R5, R208, R209) -/

/-- Zeros in every byte of a range of locations. -/
def State.wipe (s : State) (lo n : Nat) : State :=
  { s with
    mem := ckeep (fun k => !(decide (lo ≤ k) && decide (k < lo + n))) s.mem,
    poison := clearPoison s.poison lo n,
    repair := { s.repair with weak := clearPoison s.repair.weak lo n },
    vaults := s.vaults.filter fun v =>
      !(decide (lo ≤ vaultKey + v.1 * halfVault) && decide (vaultKey + (v.1 + 1) * halfVault ≤ lo + n)) }

/-- A core's vault zeroed, or the half that a member of a pair holds. -/
def State.wipeVault (s : State) (core : Nat) (half : Option Bool) : State :=
  match half with
  | none => s.wipe (vaultLoc core 0) Config.vaultBytes
  | some h => s.wipe (vaultLoc core (if h then halfVault else 0)) halfVault

/-- An HBM stack zeroed. -/
def State.wipeStack (s : State) (stack : Nat) : State := s.wipe (stack * 2 ^ 36) (2 ^ 36)

/-! ### Capabilities (R258, R259) -/

def listMin (d : Nat) (l : List Nat) : Nat := l.foldl min d

/-- Bits of a mask that are set. -/
def bitsSet (m : BitVec 24) : Nat := ((List.range 24).filter m.getLsbD).length

/-- The clusters of some cores. -/
def clustersOf (cores : List Nat) : List Nat := (List.range Config.clusters).filter fun k => cores.any fun c => clusterOf c == k

/-- How many tile rows of a cluster's array work. -/
def State.rowsOn (s : State) (cluster : Nat) : Nat := ((List.range 16).filter (s.rowWorks cluster)).length

/-- The capability registers of a partition of these cores, stacks and links: what the unit map has of them, after
repairs (R258). -/
def State.capsFor (s : State) (cores : List Nat) (hbm : BitVec 8) (links : BitVec 24) (shared : Bool) : Caps :=
  let slices := listMin 16 (cores.map s.slicesOn)
  let ks := clustersOf cores
  let rows := listMin 16 (ks.map s.rowsOn)
  let dies := (List.range 4).filter fun d => cores.any fun c => dieOf c == d
  { core := BitVec.ofNat 64 (cores.length + 2 * 256 + (dies.map fun d => 2 ^ (12 + d)).sum),
    slice := BitVec.ofNat 64 (slices + 64 * slices * 65536),
    arr := BitVec.ofNat 64 (ks.length + rows * 256 + 256 * 65536),
    vault := if shared then 0x11000 else 0x2000,
    hbm := hbm.setWidth 64 ||| (BitVec.ofNat 64 (64 * bitsSet (hbm.setWidth 24)) <<< 16),
    link := links.setWidth 64, eng := Caps.full.eng, feat0 := Caps.full.feat0,
    feat1 := if links = 0 then 0x2F else 0x3F, feat2 := 0, feat3 := 0, mm := Caps.full.mm, errata := Caps.full.errata }

/-! ### Creation (R296) -/

/-- The cores a partition holds, its moving ones included. -/
def State.holds (s : State) (part core : Nat) : Bool :=
  (s.partAt part).ordinals.contains (some core) || s.repair.vaultZeroing.any fun v => v.1 == core && v.2 == part

/-- A core held by a partition other than those named. -/
def State.coreTaken (s : State) (self : Nat) (partner : Option Nat) (core : Nat) : Bool :=
  s.parts.any fun p => p.1 != self && some p.1 != partner && s.holds p.1 core

/-- A part of a core's vault: the half that a member of a pair holds, or all of it. -/
def inVaultPart (core : Nat) (half : Option Bool) (loc : Nat) : Bool :=
  let lo := vaultLoc core (if half = some true then halfVault else 0)
  decide (lo ≤ loc) && decide (loc < lo + if half.isSome then halfVault else Config.vaultBytes)

/-- A write to a part of a core's vault by a hart other than those named is in flight: buffered in an open strip, held behind
another write, or queued (R207, R208). -/
def State.inFlightTo (s : State) (inside : Nat → Bool) (own : List Nat) : Bool :=
  (s.fabric.held.any fun w => inside w.entry.loc) ||
  (s.hartIds.filter fun h => !own.contains h).any fun h =>
    let x := s.hartAt h
    (x.csr.so && x.strip.buf.any fun e => inside e.loc) ||
    x.queues.toList.any fun q => q.ops.any fun o =>
      match o.kind with
      | .sig _ _ loc _ _ => inside loc
      | _ => false

/-- The half of each vault that a partition holds, when it is a member of a pair (R209). -/
def Partition.vaultHalf (p : Partition) : Option Bool := p.pair.map fun _ => p.half

/-- The watts of the partitions but one. -/
def State.wattsBut (s : State) (part : Nat) : Nat := ((s.parts.filter fun p => p.1 != part).map fun p => p.2.envelope).sum

/-- The package limit, which can be configured down to 1,200 W (R3). -/
def State.packageLimit (s : State) : Nat := min Config.packageWatts (max Config.leastPackageWatts s.boot.watts)

/-- An envelope within its limits for a number of cores. -/
def State.envelopeOk (s : State) (part cores watts : Nat) : Bool :=
  decide (5 * cores ≤ watts) && decide (s.wattsBut part + watts ≤ s.packageLimit)

/-- Distinct cores in ascending order of die, cluster and core (R275). -/
def ascending (cores : List Nat) : List Nat := (List.range Config.cores).filter cores.contains

/-- A core that a partition may be given: present, not retired, on a die that runs partitions (R311, R312). One whose vault
lacks a bank, or whose cluster has no copy engine, is given to none: R259 has no capability for it (DESIGN CHOICE, log 88). -/
def State.coreUp (s : State) (core : Nat) : Bool :=
  let m := s.boot.unitMap
  m.cores.getLsbD core && !(s.coreAt core).retired && s.boot.diesUp.getLsbD (dieOf core) &&
  s.boot.huskUp.getLsbD (dieOf core) && !(m.banksAbsent.any fun b => b / 64 == core) && m.engines.getLsbD (clusterOf core)

/-- A core that no zeroing keeps from being given out. -/
def State.coreFree (s : State) (core : Nat) : Bool := s.coreUp core && !s.repair.vaultZeroing.any fun v => v.1 == core

/-- The save area of a partition is aligned and lies in the stacks granted to it. -/
def saveAreaOk (base : Word) (cores : Nat) (hbm : BitVec 8) : Bool :=
  let last := base.toNat + saveBytes * cores - 1
  base.toNat % 65536 == 0 && decide (last < 2 ^ 39) &&
  (List.range 8).all fun i => decide (i < base.toNat / 2 ^ 36) || decide (last / 2 ^ 36 < i) || hbm.getLsbD i

/-- The limits of R296. -/
def State.requestOk (s : State) (r : PartitionRequest) : Bool :=
  let others := s.parts.filter fun p => some p.1 != r.pair
  let partnerOk := match r.pair with
    | none => true
    | some q => q != r.part && decide (q ≤ 15) && (match tget s.parts q with
      | none => true
      | some p => p.pair == some r.part)
  decide (r.part ≤ 15) && (tget s.parts r.part).isNone &&
  decide (1 ≤ r.cores.length) && decide ((ascending r.cores).length = r.cores.length) &&
  r.cores.all (fun c => s.coreFree c && !s.coreTaken r.part r.pair c) &&
  r.hbm &&& ~~~s.boot.unitMap.hbm == 0 && r.links &&& ~~~s.boot.unitMap.links == 0 &&
  decide (1 ≤ r.minCores) && decide (r.minCores ≤ r.cores.length) &&
  others.all (fun p => p.2.hbm &&& r.hbm == 0 && p.2.links &&& r.links == 0) &&
  s.envelopeOk r.part r.cores.length r.envelope && partnerOk &&
  r.functions.all (fun f => decide (1 ≤ f) && decide (f ≤ 192) && (s.partOfFn f).isNone) &&
  decide (1 ≤ r.roots.length) && decide (r.roots.length ≤ 2) && saveAreaOk r.saveBase r.cores.length r.hbm

/-- The shadow SRAM that some cores bring is zeroed: it holds no context but those of the partner (R5, R296). -/
def State.wipeShadow (s : State) (cores : List Nat) (pair : Option Nat) : State :=
  { s with saved := s.saved.filter fun k =>
      !(k.2.area.isNone && cores.contains (coreOf k.1) && some (s.hartAt k.1).ctl.part != pair) }

/-- PARTITION_CREATE. The later member of a pair holds the upper half and waits for a switch. While an access to a vault given
out is in flight the event does nothing yet (R208). -/
def execPartitionCreate (request : PartitionRequest) (s : State) : Out :=
  let r := request
  if s.requestOk r then
    if r.cores.any fun c => s.inFlightTo (inVaultPart c (r.pair.map fun q => (tget s.parts q).isSome)) [] then .next s else
    let partner := r.pair.bind fun q => tget s.parts q
    let late := partner.isSome
    let cores := ascending r.cores
    let shared := match partner with
      | some p => p.hbm
      | none => 0
    let mine := (List.range 8).filter fun i => r.hbm.getLsbD i && !shared.getLsbD i
    let half := r.pair.map fun _ => late
    let s1 := (mine.foldl State.wipeStack (cores.foldl (fun t c => t.wipeVault c half) s)).wipeShadow cores r.pair
    let p : Partition :=
      { ordinals := cores.map some, minCores := r.minCores, hbm := r.hbm, links := r.links, envelope := r.envelope,
        pair := r.pair, half := late, active := !late, switching := false, functions := r.functions, roots := r.roots, saveBase := r.saveBase,
        signed := r.signed, keys := r.keys, target := r.target, rgntab := 0,
        caps := s.capsFor cores r.hbm r.links r.pair.isSome }
    .next (s1.putPart r.part p)
  else .next (s.report (.requestRejected r.part))

/-! ### What ends the agents of a partition (R5, R304) -/

/-- The workgroup of the hart in front ended at once: its strip aborted, its engine operations ended with their back
writes unpublished, its saved context discarded. -/
def State.killed (s : State) : State :=
  let s1 := if s.stripOpen then s.abort else s
  let idle := s1.hart.queues.map fun q => { q with ops := [], frozen := false }
  ({ s1 with hart := { s1.hart with queues := idle }, saved := tdel s1.saved s1.cur } : State).workgroupOver

/-- The harts that hold a workgroup of a partition. -/
def State.partHarts (s : State) (part : Nat) : List Nat :=
  s.hartIds.filter fun h => decide ((s.hartAt h).ctl.part = part) && (s.hartAt h).run != .absent

def State.killAll (s : State) (harts : List Nat) : State := harts.foldl (fun t h => t.atHart h State.killed) s

/-- The streams of some functions changed. -/
def State.mapStreams (s : State) (functions : List Nat) (f : Stream → Stream) : State :=
  { s with streams := tmap (fun k x => if functions.contains (k / 16) then f x else x) s.streams }

/-- The writes held for a partition dropped (R287). -/
def State.dropHeld (s : State) (part : Nat) : State :=
  { s with fabric := { s.fabric with held := s.fabric.held.filter fun w => w.part != part } }

/-- The writes held for the workgroups that run on some harts dropped. -/
def State.dropHeldOf (s : State) (harts : List Nat) : State :=
  { s with fabric := { s.fabric with held := s.fabric.held.filter fun w => !(harts.any fun h => w.of h) } }

/-- A stream disabled: a WAITV with no TIMEOUT holds it no longer (R267). -/
def Stream.disable (x : Stream) : Stream := ({ x with en := false } : Stream).dropWait

/-- The launches of a partition. -/
def State.partLaunches (s : State) (part : Nat) : List (Nat × Launch) := s.launches.filter fun l => decide (l.2.part = part)

/-! ### Teardown (R304) -/

/-- Whether a hart has a frozen engine queue. -/
def Hart.queueFrozen (h : Hart) : Bool := h.queues.toList.any fun q => q.frozen

/-- INFO of a teardown: the frozen workgroup, or 0 for an engine or a remote rejection. -/
def State.frozenIndex (s : State) (harts : List Nat) : Nat :=
  match harts.find? fun h => (s.hartAt h).run == .frozen && !(s.hartAt h).ctl.rejected with
  | some h => (s.hartAt h).ctl.index
  | none => 0

/-- The teardown of a partition's contexts, whose running launches end with INFO. -/
def State.teardown (s : State) (part info : Nat) : State :=
  let hs := s.partHarts part
  let fns := (s.partAt part).functions
  let s1 := (s.killAll hs).dropHeld part
  let ls := (s1.partLaunches part).filter fun l => l.2.begun.isSome
  let s2 := ls.foldl (fun t l => t.endLaunch l.1 l.2 (.faulted 0x12 info)) s1
  (s2.mapStreams fns Stream.disable).report (.teardown part)

/-- PARTITION_TEARDOWN, once an agent of the partition is frozen; Pip reports the freeze and the teardown. -/
def execPartitionTeardown (part : Nat) (s : State) : Out :=
  let hs := s.partHarts part
  if hs.any fun h => (s.hartAt h).run == .frozen || (s.hartAt h).queueFrozen then
    .next ((s.report (.frozen part)).teardown part (s.frozenIndex hs))
  else .next s

/-! ### Function-level reset (R299) -/

/-- FUNCTION_LEVEL_RESET of a virtual function. -/
def execFunctionLevelReset (fn : Nat) (s : State) : Out :=
  if decide (1 ≤ fn) && decide (fn ≤ 192) then
    let ls := s.launches.filter fun l => l.2.stream / 16 == fn
    let hs := ls.flatMap fun l => l.2.running
    let s1 := (s.dropHeldOf hs).killAll hs
    let s2 := ls.foldl (fun t l => { t with launches := tdel t.launches l.1 }) s1
    let s3 := s2.putFn fn { s2.fnRegs fn with status := (s2.fnRegs fn).status + 1 }
    .next (s3.mapStreams [fn] fun x => { x.idle with en := false, launches := [], copies := [] })
  else .next s

/-! ### Destruction and resizing (R296) -/

/-- The recipient number of a core whose vault is being zeroed for no partition. -/
def noPart : Nat := 16

/-- PARTITION_DESTROY. A partner left alone runs on in its half. A core on its way to the partition is zeroed still before any
other is given it (R208). -/
def execPartitionDestroy (part : Nat) (s : State) : Out :=
  match tget s.parts part with
  | none => .next s
  | some p =>
    let hs := s.partHarts part
    let d := s.fabric.domain
    let s1 := ((s.killAll hs).dropHeld part).dropCached fun t => t.part == part
    let grants := s1.fabric.grants.filter fun g =>
      !(g.srcNode == d && g.srcPart == part) && !(g.dstNode == d && g.dstPart == part)
    let s2 := { s1 with
      launches := s1.launches.filter fun l => l.2.part != part,
      objects := s1.objects.filter fun o => o.2.part != part,
      streams := s1.streams.filter fun x => !p.functions.contains (x.1 / 16),
      fabric := { s1.fabric with grants := grants, collectives := s1.fabric.collectives.filter fun c => c.1 != part },
      repair := { s1.repair with vaultZeroing := tmap (fun _ r => if r = part then noPart else r) s1.repair.vaultZeroing } }
    let cores := p.ordinals.filterMap id
    let s3 := cores.foldl (fun t c => t.wipeVault c p.vaultHalf) s2
    match p.pair with
    | none => .next { s3 with parts := tdel s3.parts part }
    | some q =>
      let s4 := if p.active && (tget s3.parts q).isSome then
        let hs := s3.pairHarts part q
        hs.foldl State.restore ((s3.exchange part q hs).activate part q)
      else s3
      .next { s4 with parts := tdel s4.parts part }

/-- The ordinals after a resize to the cores given: those kept must be the ones that back them. -/
def resized (ordinals : List (Option Nat)) (cores : List Nat) : Option (List (Option Nat)) :=
  let n := min ordinals.length cores.length
  if (ordinals.take n).zip (cores.take n) |>.all fun x => x.1.isNone || x.1 == some x.2 then
    some (ordinals.take n ++ (cores.drop n).map some)
  else none

/-- PARTITION_RESIZE: ordinals added or removed at the top while no launch of the partition runs; one that waits to begin is
tested again when it does. While an access to a vault given out is in flight the event does nothing yet (R208). -/
def execPartitionResize (part : Nat) (cores : List Nat) (s : State) : Out :=
  match tget s.parts part with
  | none => .next (s.report (.requestRejected part))
  | some p =>
    let added := cores.drop p.ordinals.length
    let removed := (p.ordinals.drop cores.length).filterMap id
    let ok := ((s.partLaunches part).all fun l => l.2.begun.isNone) && decide (1 ≤ cores.length) && decide (cores.length ≤ Config.cores) &&
      decide ((ascending cores).length = cores.length) &&
      added.all (fun c => s.coreFree c && !s.holds part c && !s.coreTaken part p.pair c) &&
      s.envelopeOk part cores.length p.envelope && saveAreaOk p.saveBase cores.length p.hbm
    match resized p.ordinals cores with
    | some o =>
      if ok && decide (p.minCores ≤ (o.filter Option.isSome).length) then
        if added.any fun c => s.inFlightTo (inVaultPart c p.vaultHalf) [] then .next s else
        -- a core that is added is zeroed, and the half of one that leaves a pair (R209, R296)
        let leaving := if p.pair.isSome then removed else []
        let s1 := (added ++ leaving).foldl (fun t c => t.wipeVault c p.vaultHalf) s
        let s2 := s1.wipeShadow added p.pair
        .next (s2.putPart part { p with ordinals := o })
      else .next (s.report (.requestRejected part))
    | none => .next (s.report (.requestRejected part))

/-- ENVELOPE_CHANGE: it reaches the harts through later revisions (R180, R297). -/
def execEnvelopeChange (part watts : Nat) (s : State) : Out :=
  match tget s.parts part with
  | some p =>
    if s.envelopeOk part p.ordinals.length watts then .next (s.putPart part { p with envelope := watts })
    else .next (s.report (.requestRejected part))
  | none => .next s

/-! ### Movement of cores (R208, R278 to R280) -/

/-- Vacant ordinals of a partition that no core on its way to it will back. -/
def State.vacantFor (s : State) (part : Nat) : Nat :=
  ((s.partAt part).ordinals.filter Option.isNone).length -
    (s.repair.vaultZeroing.filter fun v => v.2 == part).length

/-- The conditions under which the service controller moves a core. -/
def State.mayMove (s : State) (donor recipient core : Nat) : Bool :=
  let d := s.partAt donor
  let r := s.partAt recipient
  donor != recipient && d.ordinals.contains (some core) && d.pair.isNone && r.pair.isNone &&
  (s.hartAt (2 * core)).run == .absent && (s.hartAt (2 * core + 1)).run == .absent &&
  ((s.partLaunches donor).all fun l => l.2.begun.isNone || !(l.2.det || l.2.pin)) &&
  decide (d.minCores + 1 ≤ (d.ordinals.filter Option.isSome).length) && decide (0 < s.vacantFor recipient) && r.target != 0

/-- SERVICE_WINDOW_EXPIRY: a core that may move leaves its ordinal vacant, and its vault is being zeroed. -/
def execServiceWindowExpiry (donor recipient core : Nat) (s : State) : Out :=
  if s.mayMove donor recipient core then
    let d := s.partAt donor
    let s1 := s.putPart donor { d with ordinals := d.ordinals.map fun o => if o == some core then none else o }
    .next { s1 with repair := { s1.repair with vaultZeroing := s1.repair.vaultZeroing ++ [(core, recipient)] } }
  else .next s

/-- The lowest vacant ordinal backed by a core. -/
def back (core : Nat) : List (Option Nat) → List (Option Nat)
  | [] => []
  | none :: r => some core :: r
  | o :: r => o :: back core r

/-- A core joins a partition; the `.pin` launches that run there keep its vault from now on (R276). -/
def State.join (s : State) (core part : Nat) (p : Partition) : State :=
  let pins := (s.partLaunches part).filter fun l => l.2.pin && l.2.begun.isSome
  (s.setCoreAt core { s.coreAt core with pinned := pins.map Prod.fst }).putPart part { p with ordinals := back core p.ordinals }

/-- VAULT_ZERO_COMPLETION: once no lateral access to its vault is in flight the core joins its recipient, if it still may. -/
def execVaultZeroCompletion (core : Nat) (s : State) : Out :=
  match s.repair.vaultZeroing.find? fun v => v.1 == core with
  | none => .next s
  | some (_, r) =>
    if s.inFlightTo (inVaultPart core none) [] then .next s else
    let s1 := s.wipeVault core none
    let s2 := { s1 with repair := { s1.repair with vaultZeroing := s1.repair.vaultZeroing.filter fun v => v.1 != core } }
    match tget s2.parts r with
    | some p => .next (if s2.coreUp core then s2.join core r p else s2)
    | none => .next s2

/-! ### Restore of a context (R294) -/

/-- The cores to which Husk may move the ordinal that a core backs: idle ones of the same partition, whose vaults no running
`.pin` launch keeps, while no workgroup runs on the core itself and no access to its vault is in flight but those of its own
halted harts. Of a member of a pair the half of each vault that it holds counts. -/
def State.ordinalTargets (s : State) (part core : Nat) : List Nat :=
  let p := s.partAt part
  let idle (c : Nat) : Bool := (s.hartAt (2 * c)).run == .absent && (s.hartAt (2 * c + 1)).run == .absent
  let still (h : Nat) : Bool := (s.hartAt h).run == .absent || (s.hartAt h).run == .halted
  let quiet (c : Nat) (own : List Nat) : Bool := !s.inFlightTo (inVaultPart c p.vaultHalf) own
  if still (2 * core) && still (2 * core + 1) && quiet core [2 * core, 2 * core + 1] then
    (p.ordinals.filterMap id).filter fun c =>
      c != core && idle c && quiet c [] && !(s.coreAt c).retired && !s.vaultPinned c part
  else []

/-- Two cores exchanged. -/
def exchanged (a b c : Nat) : Nat := if c = a then b else if c = b then a else c

/-- A signal to a location that moves. -/
def EngKind.moved (k : EngKind) (f : Nat → Nat) : EngKind :=
  match k with
  | .sig tag addr loc page value => .sig tag addr (f loc) page value
  | _ => k

/-- A context saved from a core that its ordinal leaves for core `new`: its CLUSTER field, and its buffered stores and queued
signals to the vault. -/
def State.contextMoved (s : State) (half : Option Bool) (core new h : Nat) : State :=
  match tget s.saved h with
  | none => s
  | some ctx =>
    let header := moveCluster (s.headerOf h ctx) (clusterOf new)
    let x := s.hartAt h
    let move (loc : Nat) : Nat := if inVaultPart core half loc then loc - vaultLoc core 0 + vaultLoc new 0 else loc
    let queues := x.queues.map fun q => { q with ops := q.ops.map fun o => { o with kind := o.kind.moved move } }
    let s1 := s.setHartAt h { x with
      strip := { x.strip with buf := x.strip.buf.map fun e => { e with loc := move e.loc } }, queues := queues }
    match ctx.imageLoc h with
    | none => { s1 with saved := tput s1.saved h { ctx with header := header } }
    | some loc => s1.write (loc + 24) (leBytes 8 header[3].toNat)

/-- The `.pin` launches of a partition, among some. -/
def State.pinsOf (s : State) (part : Nat) (l : List Nat) : List Nat :=
  l.filter fun k => (tget s.launches k).any fun q => decide (q.part = part)

/-- Husk moves the ordinal that a core backs to another core, which gives up its own for it: the vault, or the half that a
member of a pair holds, is copied with its uncorrectable words, and the old one is zeroed. -/
def State.moveOrdinal (s : State) (part core new : Nat) : State :=
  let p := s.partAt part
  let lo := if p.vaultHalf = some true then halfVault else 0
  let n := if p.pair.isSome then halfVault else Config.vaultBytes
  let s1 := s.putPart part { p with ordinals := p.ordinals.map fun o => o.map (exchanged core new) }
  let bad := (s.poison.filter (inVaultPart core p.vaultHalf)).map fun w => w - vaultLoc core 0 + vaultLoc new 0
  let s2 := s1.write (vaultLoc new lo) (s1.bytes (vaultLoc core lo) n)
  let s3 := ({ s2 with poison := s2.poison ++ bad } : State).wipeVault core p.vaultHalf
  let leaving := s3.coreAt core
  let into := s3.coreAt new
  let pins := s3.pinsOf part leaving.pinned
  let s4 := (s3.setCoreAt new { into with pinned := into.pinned ++ pins }).setCoreAt core
    { leaving with pinned := leaving.pinned.filter fun k => !pins.contains k }
  (s4.contextMoved p.vaultHalf core new (2 * core)).contextMoved p.vaultHalf core new (2 * core + 1)

/-- A choice of Husk before a restore: the ordinal of a halted hart's core moves, or it stays (log 87). -/
def State.mayMoveOrdinal (s : State) (hart : Nat) : State :=
  let part := (s.hartAt hart).ctl.part
  let targets := s.ordinalTargets part (coreOf hart)
  if targets.isEmpty then s
  else
    let (k, s1) := s.drawNat (targets.length + 1)
    match targets[k]? with
    | some new => s1.moveOrdinal part (coreOf hart) new
    | none => s1

/-- CONTEXT_RESTORE of a halted hart, after which Husk may have moved its ordinal. -/
def execContextRestore (hart : Nat) (s : State) : Out :=
  if hart < Config.harts && (s.hartAt hart).run == .halted then .next ((s.mayMoveOrdinal hart).restore hart) else .next s

end Sys2Proof.Machine
end

