-- ==== Sys2Proof/Machine/Boot.lean ====
section
/-! DEFINITION. Boot, firmware updates and attestation (spec/20 R310 to R313; spec/18 R281). -/

namespace Sys2Proof.Machine

/-- A hash as 32 bytes. -/
def hashBytes (h : BitVec 256) : List Byte := leBytes 32 h.toNat

/-- A measurement extended by an image (R311). -/
def extend (m : BitVec 256) (image : List Byte) : BitVec 256 :=
  shake256 (hashBytes m ++ hashBytes (shake256 image))

/-- An image in flash and its signature. -/
def BootState.image (b : BootState) (die : Nat) (husk : Bool) : List Byte :=
  (tget b.flash (2 * die + if husk then 1 else 0)).getD []

def BootState.verified (b : BootState) (die : Nat) (husk : Bool) : Bool :=
  Config.mldsaVerify Config.rootKey (shake256 (b.image die husk))
    ((tget b.signatures (2 * die + if husk then 1 else 0)).getD [])

/-- The unit map and its amendments, each under its key (R312). -/
def BootState.mapVerified (b : BootState) : Bool :=
  Config.mldsaVerify Config.manufacturingKey (shake256 (Config.unitMapBytes b.unitMap)) b.unitMapSig &&
  b.amendments.all fun a => Config.mldsaVerify Config.identityKey (shake256 a.1) a.2

def setBit (m : BitVec 4) (n : Nat) (on : Bool) : BitVec 4 :=
  if on then m ||| (1#4 <<< n) else m &&& ~~~(1#4 <<< n)

/-- Steps 1 to 4 of R311 for a die. A unit map that fails keeps the device down. -/
def BootState.bootDie (b : BootState) (die : Fin 4) : BootState :=
  let m0 := shake256 (b.image die false)
  let down := { b with diesUp := setBit b.diesUp die false, huskUp := setBit b.huskUp die false,
                       measures := b.measures.set die m0 }
  if b.verified die false then
    if b.mapVerified then
      { b with diesUp := setBit b.diesUp die true, huskUp := setBit b.huskUp die (b.verified die true),
               measures := b.measures.set die (extend m0 (b.image die true)) }
    else { down with diesUp := 0, huskUp := 0 }
  else down

/-- The partitions that hold one of some cores. -/
def State.partsOf (s : State) (mine : Nat → Bool) : List Nat :=
  (s.parts.filter fun p => (p.2.ordinals.filterMap id).any mine).map Prod.fst

/-- The partitions that hold a core of a die. -/
def State.partsOnDie (s : State) (die : Nat) : List Nat := s.partsOf fun c => dieOf c == die

/-- A core of a die that runs no partition. -/
def State.dieDown (s : State) (core : Nat) : Bool := !(s.boot.diesUp.getLsbD (dieOf core) && s.boot.huskUp.getLsbD (dieOf core))

/-- No core of a die that runs no partition backs an ordinal (R311). A unit map that fails keeps every die down. -/
def State.freeDies (s : State) : State :=
  { s with parts := ((List.range Config.cores).filter s.dieDown).foldl (fun l c => vacate c l) s.parts }

/-- The boot state after a die's boot; with die 0 the boot is counted, the domain id assigned, and the errors counted since
boot begin anew. -/
def State.booted (s : State) (die : Fin 4) : State :=
  let b := s.boot.bootDie die
  if die.val = 0 then
    { s with boot := { b with count := b.count + 1 }, fabric := { s.fabric with domain := b.domainConfig },
             repair := { s.repair with corrected := [] } }
  else { s with boot := b }

/-- BOOT: the die's partitions are torn down first, and then those of dies that a failed unit map takes down with it. -/
def execBoot (die : Nat) (s : State) : Out :=
  if h : die < 4 then
    let first := s.partsOnDie die
    let s1 := (first.foldl (fun t p => t.teardown p 0) s).booted ⟨die, h⟩
    let more := (s1.partsOf s1.dieDown).filter fun p => !first.contains p
    .next (more.foldl (fun t p => t.teardown p 0) s1).freeDies
  else .next s

/-- FIRMWARE_UPDATE: an image in flash replaced. -/
def execFirmwareUpdate (die : Nat) (husk : Bool) (image signature : List Byte) (s : State) : Out :=
  if die < 4 then
    let key := 2 * die + if husk then 1 else 0
    .next { s with boot := { s.boot with flash := tput s.boot.flash key image,
                                         signatures := tput s.boot.signatures key signature } }
  else .next s

/-- The 208 bytes a quote signs (R313). -/
def State.quoteBody (s : State) (nonce : List Byte) : List Byte :=
  let b := s.boot
  let map := Config.unitMapBytes b.unitMap ++ b.amendments.flatMap fun a => a.1 ++ a.2
  let parts := (s.parts.map fun p => 2 ^ (16 + p.1)).sum
  nonce ++ b.measures.toList.flatMap hashBytes ++ hashBytes (shake256 map) ++ leBytes 8 b.count ++
    leBytes 8 (s.fabric.domain % 256 + parts)

/-- The 3,309 bytes of an ML-DSA-65 signature. -/
def signature (body : List Byte) : List Byte := ((Config.mldsaSign body) ++ List.replicate 3309 0).take 3309

/-- ATTESTATION_QUOTE: Pip answers a nonce of 32 bytes. -/
def execAttestationQuote (nonce : List Byte) (s : State) : Out :=
  if nonce.length = 32 then
    let body := s.quoteBody nonce
    .next { s with boot := { s.boot with quotes := s.boot.quotes ++ [body ++ signature body ++ [0, 0, 0]] } }
  else .next s

end Sys2Proof.Machine
end

