-- ==== Sys2Proof/Machine/Branch.lean ====
section
/-! DEFINITION. Branches, jumps and hardware loops (spec/05 R88 to R94). -/

namespace Sys2Proof.Machine

/-- A branch of `size` bytes to pc + off, taken when the condition holds (R88). -/
def branch (s : State) (taken : Bool) (off : Word) (size : Nat) : Out :=
  if taken then .next (s.jump (s.hart.pc + off)) else finish s size

/-- An offset in parcels. -/
def off15 (o : BitVec 15) : Word := o.signExtend 64 <<< 1
def off23 (o : BitVec 23) : Word := o.signExtend 64 <<< 1

def execBeqz (a : BitVec 5) (o : BitVec 15) (s : State) : Out := branch s (decide (s.x a = 0)) (off15 o) 4
def execBnez (a : BitVec 5) (o : BitVec 15) (s : State) : Out := branch s (decide (s.x a ≠ 0)) (off15 o) 4
def execBltz (a : BitVec 5) (o : BitVec 15) (s : State) : Out := branch s ((s.x a).slt 0) (off15 o) 4
def execBgez (a : BitVec 5) (o : BitVec 15) (s : State) : Out := branch s (!(s.x a).slt 0) (off15 o) 4
def execBgtz (a : BitVec 5) (o : BitVec 15) (s : State) : Out := branch s ((0#64).slt (s.x a)) (off15 o) 4
def execBlez (a : BitVec 5) (o : BitVec 15) (s : State) : Out := branch s (!(0#64).slt (s.x a)) (off15 o) 4
def execBbs (a : BitVec 5) (o : BitVec 15) (s : State) : Out := branch s ((s.x a).getLsbD 0) (off15 o) 4
def execBbc (a : BitVec 5) (o : BitVec 15) (s : State) : Out := branch s (!(s.x a).getLsbD 0) (off15 o) 4

def execJ (o : BitVec 23) (s : State) : Out := .next (s.jump (s.hart.pc + off23 o))
def execJal (o : BitVec 23) (s : State) : Out := .next ((s.setX 31 (s.hart.pc + 4)).jump (s.hart.pc + off23 o))

/-- A jump to a computed target; at U a target of 0 ends the workgroup (R89, R90). -/
def jumpRegister (s : State) (a : BitVec 5) (i : BitVec 11) (link : State → State) : Out :=
  let t := (s.x a + simm11 i) &&& ~~~1#64
  if s.atUser && decide (t = 0) then closing s fun s1 => .next (link s1).endWorkgroup
  else .next ((link s).jump t)

def execJalr (d a : BitVec 5) (i : BitVec 11) (s : State) : Out :=
  jumpRegister s a i fun t => t.setX d (s.hart.pc + 4)
def execJr (a : BitVec 5) (i : BitVec 11) (s : State) : Out := jumpRegister s a i id

/-- LOOP (R91). A count of 0 reaches the end as an instruction whose next address it is. -/
def execLoop (a : BitVec 5) (i : BitVec 11) (s : State) : Out :=
  let start := s.hart.pc + 4
  let stop := start + (i.setWidth 64 <<< 1)
  let outer := match s.hart.loops with
    | l :: _ => l.stop.ult stop
    | [] => false
  guarded s
    [fun _ => faultIf (decide (3 ≤ s.hart.loops.length)) (operandFault 0x02 a 1),
     fun _ => faultIf (decide (i = 0) || outer) (operandFault 0x02 (i.setWidth 5) 2)]
    fun _ =>
      if s.x a = 0 then .next (s.reach stop)
      else .next { s with hart := { s.hart with pc := start, loops := ⟨start, stop, s.x a⟩ :: s.hart.loops } }

/-- LEXIT (R94). -/
def execLexit (s : State) : Out := finish { s with hart := { s.hart with loops := s.hart.loops.drop 1 } } 4

end Sys2Proof.Machine
end

