-- ==== Sys2Proof/Machine/System.lean ====
section
/-! DEFINITION. System instructions and the events of fetch and waiting (spec/01 R32; spec/03 R60, R70; spec/05 R99). -/

namespace Sys2Proof.Machine

def execNop (s : State) : Out := finish s 4

/-- Cause 0x15: the strip closes and the hart resumes after the ECALL (R25, R99). -/
def execEcall (s : State) : Out := .next (s.takeCall 0x15)
/-- Cause 0x16, likewise. -/
def execEbreak (s : State) : Out := .next (s.takeCall 0x16)

/-- At S a return from the trap; at U fault 0x01 (R99). -/
def execTret (s : State) : Out :=
  guarded s [fun _ => faultIf s.atUser (plainFault 0x01)] fun _ => .next s.trapReturn

/-- The hart waits at its first turn and goes on at a later one: WFI may end with no event (R99). -/
def execWfi (s : State) : Out :=
  if s.hart.run == .waiting .wfi then finish (s.withRun .running) 4 else waitAt s .wfi

/-- A convoy boundary; no effect outside a strip (R32). -/
def cvy (s : State) : State :=
  if s.stripOpen then s.withStrip { s.hart.strip with convoy := s.hart.strip.convoy + 1 } else s

def execCvy (s : State) : Out := finish (cvy s) 4

/-- The model fetches from memory at every issue, so nothing is held to discard (R99). -/
def execFencei (s : State) : Out := finish s 4

/-- An encoding that is no instruction, at the pc of the hart in front (R70). -/
def execIllegalEncoding (s : State) : Out := faulted s illegal

/-- A hart in WFI resumes issue (R99). -/
def execWfiWake (hart : Nat) (s : State) : Out :=
  if (s.hartAt hart).run == .waiting .wfi then finish ((s.focus hart).withRun .running) 4 else .next s

/-- A fetch or data access held for 1 ms raises fault 0x13 with its address (R60, R252). -/
def execCodeArrivalTimeout (hart : Nat) (s : State) : Out :=
  match (s.hartAt hart).run with
  | .waiting (.held va) => faulted ((s.focus hart).withRun .running) { plainFault 0x13 with addr := va }
  | _ => .next s

end Sys2Proof.Machine
end

