-- ==== Sys2Proof/Machine/Compressed.lean ====
section
/-! DEFINITION. Compressed forms: the effect of the expansion, in two bytes (spec/03 R68, R69). -/

namespace Sys2Proof.Machine

def simm6 (i : BitVec 6) : Word := i.signExtend 64
/-- s30 plus a scaled unsigned immediate. -/
def State.stackAddress (s : State) (i : BitVec 6) (scale : Nat) : Word := s.x 30 + BitVec.ofNat 64 (scale * i.toNat)

def execCAddi (d : BitVec 5) (i : BitVec 6) (s : State) : Out := finish (s.setX d (s.x d + simm6 i)) 2
def execCLi (d : BitVec 5) (i : BitVec 6) (s : State) : Out := finish (s.setX d (simm6 i)) 2
def execCLd (d : BitVec 5) (i : BitVec 6) (s : State) : Out := loadTo s d (s.stackAddress i 8) 8 (signed 8) 2
def execCSd (d : BitVec 5) (i : BitVec 6) (s : State) : Out := storeFrom s d (s.stackAddress i 8) 8 2
def execCLw (d : BitVec 5) (i : BitVec 6) (s : State) : Out := loadTo s d (s.stackAddress i 4) 4 (signed 4) 2
def execCSw (d : BitVec 5) (i : BitVec 6) (s : State) : Out := storeFrom s d (s.stackAddress i 4) 4 2
def execCMv (d a : BitVec 5) (s : State) : Out := finish (s.setX d (s.x a)) 2
def execCAdd (d a : BitVec 5) (s : State) : Out := finish (s.setX d (s.x d + s.x a)) 2
def execCSub (d a : BitVec 5) (s : State) : Out := finish (s.setX d (s.x d - s.x a)) 2
def execCGrant (d a : BitVec 5) (s : State) : Out :=
  guarded s (s.grantChecks fun _ => none) fun _ => grantWith s d a 0 false id 2
def execCJ (o : BitVec 11) (s : State) : Out := .next (s.jump (s.hart.pc + (simm11 o <<< 1)))
def execCBeqz (a : BitVec 5) (o : BitVec 6) (s : State) : Out := branch s (decide (s.x a = 0)) (simm6 o <<< 1) 2
def execCBnez (a : BitVec 5) (o : BitVec 6) (s : State) : Out := branch s (decide (s.x a ≠ 0)) (simm6 o <<< 1) 2
def execCNop (s : State) : Out := finish s 2
def execCSclose (s : State) : Out := closing s fun t => finish t 2
def execCCvy (s : State) : Out := finish (cvy s) 2

end Sys2Proof.Machine
end

