-- ==== Sys2Proof/Machine/Fabric.lean ====
section
/-! DEFINITION. The fabric: grants, requests and copies that arrive from peers, rejections, links and paths (spec/18
R281 to R288; spec/20 R308, R309). -/

namespace Sys2Proof.Machine

def State.withFabric (s : State) (f : Fabric) : State := { s with fabric := f }

/-! ### Grants (R282) -/

/-- A grant installed on its source and its target. Its range is one of HBM addresses, of which bits [43:39] are zero (R210,
R283). -/
def execFabricGrantInstall (grant : FabricGrant) (s : State) : Out :=
  let f := s.fabric
  let mine := grant.srcNode == f.domain || grant.dstNode == f.domain
  if mine && decide (grant.base + grant.len ≤ 2 ^ 39) && grant.srcNode != grant.dstNode && !f.grants.contains grant
  then .next (s.withFabric { f with grants := f.grants ++ [grant] }) else .next s

/-- A request is performed whole by the event that brings it, so none is under way. -/
def execFabricGrantWithdraw (grant : FabricGrant) (s : State) : Out :=
  .next (s.withFabric { s.fabric with grants := s.fabric.grants.filter fun g => g != grant })

/-- The grant that admits a peer's access to n bytes of this device's HBM. -/
def Fabric.admits (f : Fabric) (srcNode srcPart addr n : Nat) (write : Bool) : Option FabricGrant :=
  if addr + n ≤ 2 ^ 39 then
    f.grants.find? fun g =>
      decide (g.dstNode = f.domain) && decide (g.srcNode = srcNode) && decide (g.srcPart = srcPart) &&
      decide (g.base ≤ addr) && decide (addr + n ≤ g.base + g.len) && (g.write || !write)
  else none

/-- The read-modify-write of a VAT element by its minor (R129). -/
def atomicOfMinor (minor : BitVec 3) : AtomicOp :=
  match minor.toNat with
  | 0 => .addF32
  | 1 => .addF32U
  | 2 => .addI
  | 3 => .maxI
  | 4 => .minI
  | 5 => .swap
  | 6 => .or
  | _ => .and

/-- What an AMO of a minor writes over a doubleword, if anything (R130). -/
def amoNew (minor : BitVec 2) (operand expected old : Word) : Option Word :=
  if minor = 0 then some (old + operand)
  else if minor = 1 then some operand
  else if minor = 2 then (if old = expected then some operand else none)
  else some (if old.slt operand then operand else old)

/-- An admitted access of a peer performed at its home memory (R284). A read-modify-write that cannot read performs
nothing: its source takes fault 0x11. -/
def State.serve (s : State) (addr : Nat) (op : RemoteOp) : State :=
  match op with
  | .read n => s.noteRead addr n
  | .write bs => s.write addr bs
  | .amo minor operand expected =>
    let t := s.noteRead addr 8
    if s.poisoned addr 8 then t
    else
      match amoNew minor operand expected (BitVec.ofNat 64 (s.readNat addr 8)) with
      | some v => t.write addr (leBytes 8 v.toNat)
      | none => t
  | .vat minor x =>
    let a := atomicOfMinor minor
    if s.poisoned addr a.size then s.noteRead addr a.size else (s.update a addr x).1

/-- An admitted request is performed; any other is discarded and reported. -/
def execRemoteRequestArrival (request : RemoteRequest) (s : State) : Out :=
  let r := request
  match s.fabric.admits r.srcNode r.srcPart r.addr r.op.bytes r.op.writes with
  | some _ => .next (s.serve r.addr r.op)
  | none => .next (s.report (.requestRefused r.srcNode r.srcPart r.addr))

/-- Where a copy from a peer goes in a region of a local partition: its offset, when it is accepted (R288). -/
def State.copyOffset (s : State) (part : Nat) (root2 : Word) (r : Region) (q n : Nat) : Option Nat :=
  match s.stage2In part root2 r.bk0 false with
  | .ok l =>
    let b := s.fabric.normal (l.base + r.bk0 % 2 ^ l.bits)
    if b ≤ q ∧ q + n ≤ b + r.len then some (q - b) else none
  | _ => none

/-- The agent number of peers' engines among the writes sent on to peers. -/
def remoteAgent : Nat := 2 ^ 34

/-- REMOTE_ECOPY_ARRIVAL: an admitted copy that its region accepts is written into the back backing, and published
when asked. While an operation of the local partition that writes the region has begun, the event of a copy that publishes
does nothing yet: the publish waits for it (R165, R288). -/
def execRemoteEcopyArrival (copy : RemoteCopy) (s : State) : Out :=
  let n := copy.bytes.length
  let root2 := (s.partAt copy.part).root2
  match s.fabric.admits copy.srcNode copy.srcPart copy.addr n true with
  | none => .next (s.report (.requestRefused copy.srcNode copy.srcPart copy.addr))
  | some g =>
    match s.regionNumbered copy.part root2 copy.region with
    | none => .next s
    | some r =>
      match s.copyOffset copy.part root2 r copy.addr n with
      | none => .next s
      | some off =>
        match s.backBlocks copy.part root2 r (n / 64 + 2) off n with
        | .ok l =>
          let publishes := copy.publish && n != 0
          if g.dstPart != copy.part || (publishes && s.regionBusy copy.part copy.region fun _ _ => false) then .next s
          else
            let t := s.writeBlocks remoteAgent l copy.bytes
            .next (if publishes then t.publish copy.part root2 copy.region else t)
        | .error _ => .next s

/-! ### Rejections (R27, R282) -/

/-- Whether a hart has a workgroup that can be frozen. -/
def Hart.freezable (h : Hart) : Bool :=
  match h.run with
  | .absent => false
  | .frozen => false
  | _ => true

/-- The agent that a rejection names. -/
def refusedAgent (r : Rejection) : Nat :=
  match r.queue with
  | some q => engineAgent r.hart q
  | none => r.hart

/-- The write that a rejection names among those sent: the oldest of its agent to those bytes. -/
def Fabric.refused (f : Fabric) (r : Rejection) : Option Nat :=
  f.sent.findIdx? fun w => decide (w.agent = refusedAgent r) && decide (w.loc = r.loc) && decide (w.old.length = r.len)

/-- The oldest of some writes that covers a location leaves another byte there once it is undone. -/
def putOld (loc : Nat) (b : Byte) : List SentWrite → Option (List SentWrite)
  | [] => none
  | w :: r =>
    if decide (w.loc ≤ loc) && decide (loc < w.loc + w.old.length) then some ({ w with old := w.old.set (loc - w.loc) b } :: r)
    else (putOld loc b r).map fun l => w :: l

/-- One byte that a refused write replaced given back: to memory, or to the next write of the byte that may still be
refused. `mine` are the writes sent up to it, `later` those after it. -/
def State.giveBack (s : State) (mine later : List SentWrite) (loc : Nat) (b : Byte) : State :=
  match putOld loc b later with
  | some l => s.withFabric { s.fabric with sent := mine ++ l }
  | none => s.write loc [b]

/-- A write that its target refuses is performed nowhere (R119): each of its bytes is what it would be without it. -/
def State.undone (s : State) (r : Rejection) : State :=
  match s.fabric.refused r with
  | none => s
  | some i =>
    let mine := s.fabric.sent.take i
    let old := ((s.fabric.sent[i]?).map SentWrite.old).getD []
    old.zipIdx.foldl (fun t p => t.giveBack mine (t.fabric.sent.drop i) (r.loc + p.2) p.1)
      (s.withFabric { s.fabric with sent := s.fabric.sent.eraseIdx i })

/-- The workgroup whose access was refused still holds its hart. -/
def State.refusedNow (s : State) (r : Rejection) : Bool :=
  match s.fabric.refused r with
  | some i => (s.fabric.sent[i]?).all fun w => w.ended == 0
  | none => true

/-- What the record of a rejection says of the access (R26). -/
def refusedInfo (r : Rejection) : AccessInfo :=
  { st := r.st, fmt := r.fmt, write := r.write, scope := r.scope, reg := 0, opd := 0 }

/-- The hart in front frozen by a rejection: at its instruction in flight, or at this boundary for a store drained at
an earlier close. -/
def State.rejected (s : State) (r : Rejection) : State :=
  let s0 := { s with hart := { s.hart with ctl := { s.hart.ctl with rejected := true } } }
  if r.inFlight then s0.takeFault (elementFault 0x12 0 r.va (refusedInfo r))
  else
    let s1 := s0.withRecord
      { s0.recordOf (elementFault 0x12 r.elem r.va (refusedInfo r)) false with fcause := 0x12, fpc := r.fpc, fstrip := r.fstrip }
    let s2 := if s1.stripOpen then s1.abortAt s1.cur else s1
    s2.freeze r.va

/-- REMOTE_REJECTION_ARRIVAL. A rejected write is undone whatever has become of its agent; the agent is frozen unless its
workgroup has ended. -/
def execRemoteRejectionArrival (rejection : Rejection) (s : State) : Out :=
  let r := rejection
  let t := s.undone r
  let h := t.hartAt r.hart
  if !s.refusedNow r then .next t
  else
    match r.queue with
    | some k =>
      if h.run == .absent || decide (4 ≤ k) then .next t else .next ((t.focus r.hart).freezeQueue (BitVec.ofNat 2 k) r.va)
    | none => if h.freezable then .next ((t.focus r.hart).rejected r) else .next t

/-! ### Links and paths (R287, R309) -/

/-- Failed replays of a link: of one flit in a row, and of its lane. -/
def Fabric.failures (f : Fabric) (link : Nat) : Nat := (tget f.replays link).getD 0
def Fabric.laneFails (f : Fabric) (link : Nat) : Nat := (tget f.laneFailures link).getD 0

/-- The counts of a link begun anew. -/
def Fabric.cleared (f : Fabric) (link : Nat) : Fabric :=
  { f with replays := tdel f.replays link, laneFailures := tdel f.laneFailures link }

/-- A replay is invisible; it is counted. Whether it is of the flit that failed last is free: between two flits a replay
has passed. -/
def execFlitCrcFailure (link : Nat) (s : State) : Out :=
  if s.fabric.linksUp.getLsbD link then
    let (same, t) := s.drawBit
    let f := t.fabric
    .next (t.withFabric { f with
      replays := tput f.replays link (if same then f.failures link + 1 else 1),
      laneFailures := tput f.laneFailures link (f.laneFails link + 1) })
  else .next s

/-- The record of an event of a link. -/
def linkRecord (kind link : Nat) : ErrorRecord :=
  { die := link / 6, kind := kind, unit := 5, part := 15, count := 0, location := link }

/-- A link has no spare lane left: it is used, or the unit map has none (R312). -/
def State.noSpareLane (s : State) (link : Nat) : Bool :=
  s.fabric.spareUsed.getLsbD link || !s.boot.unitMap.spareLanes.getLsbD link

/-- LINK_DOWN: a flit that fails 16 replays in a row, or a lane with 16 failed replays, takes down a link that has no spare
lane left (R287, R309). -/
def execLinkDown (link : Nat) (s : State) : Out :=
  let f := s.fabric
  if f.linksUp.getLsbD link && s.noSpareLane link && (decide (16 ≤ f.failures link) || decide (16 ≤ f.laneFails link)) then
    let off : BitVec 24 := ~~~(1#24 <<< link)
    let f1 := { f.cleared link with linksUp := f.linksUp &&& off, common := tmap (fun _ m => m &&& off) f.common }
    .next ((s.withFabric f1).logError (linkRecord 7 link))
  else .next s

/-- LINK_LANE_RETRAIN: after 16 failed replays on a lane the link takes up its spare lane, once. -/
def execLinkLaneRetrain (link : Nat) (s : State) : Out :=
  let f := s.fabric
  if f.linksUp.getLsbD link && !s.noSpareLane link && decide (16 ≤ f.laneFails link) then
    .next ((s.withFabric { f.cleared link with spareUsed := f.spareUsed ||| (1#24 <<< link) }).repaired
      (linkRecord 5 link))
  else .next s

/-- PATH_LOSS: no common link to a peer is left. -/
def execPathLoss (node : Nat) (s : State) : Out :=
  let f := s.fabric
  if decide (1 ≤ node) && decide (node ≤ 192) && node != f.domain && !f.lost.contains node &&
     ((tget f.common node).getD 0) &&& f.linksUp == 0
  then .next ((s.withFabric { f with lost := f.lost ++ [node] }).report (.pathLost node)) else .next s

/-- A hart once a held write of its workgroup is performed: the flags of an atomic reach its fflags and what a strip
open since would restore (R119), and the replaced bytes are kept for the engines (R170). -/
def Hart.performed (h : Hart) (f : FFlags) (old : Replaced) : Hart :=
  { h with csr := { h.csr with fflags := h.csr.fflags ||| f },
           strip := { h.strip with cp := { h.strip.cp with fflags := h.strip.cp.fflags ||| f } },
           unordered := old :: h.unordered }

/-- Flags of a held atomic in the image of a hart that has halted since (R39, R292). -/
def State.imageFlags (s : State) (hart : Nat) (f : FFlags) : State :=
  if f = 0 then s else (s.orImage hart imageFflags f.toNat).orImage hart imageCheckpointFflags f.toNat

/-- A held write performed. The elements of an unordered atomic that was held are applied one by one in the order of the
buffer (DESIGN CHOICE, log 41). -/
def State.performHeld (s : State) (w : HeldWrite) : State :=
  let e := w.entry
  let s1 := s.sendingOf w.hart w.ended e.loc e.size
  let (t, f) : State × FFlags :=
    match e.op with
    | .store bs => (s1.write e.loc bs, 0)
    | .atomic op x => s1.update op e.loc x
  if w.ended = 0 && t.hartIds.contains w.hart then
    (t.setHartAt w.hart ((t.hartAt w.hart).performed f (e.loc, s.bytes e.loc e.size))).imageFlags w.hart f
  else t

/-- A held write must be performed before another: they are of one workgroup, and the other's stream waits for it. -/
def HeldWrite.before (v w : HeldWrite) : Bool :=
  decide (v.hart = w.hart) && decide (v.ended = w.ended) && v.blocks.getLsbD w.entry.stream.toNat

/-- The held writes performed in order, but those that have no path still and those behind them (R284, R287). -/
def State.release (kept : List HeldWrite) : List HeldWrite → State → State
  | [], s => { s with fabric := { s.fabric with held := kept } }
  | w :: r, s =>
    if s.noPath w.entry.loc || kept.any (fun v => v.before w) then State.release (kept ++ [w]) r s
    else State.release kept r (s.performHeld w)

/-- PATH_RESTORED: links in common return, and the writes held for the peer are performed in order. -/
def execPathRestored (node : Nat) (links : BitVec 24) (s : State) : Out :=
  let f := s.fabric
  if f.lost.contains node && links != 0 then
    let f1 := { f with lost := f.lost.filter fun n => n != node, linksUp := f.linksUp ||| links,
                       common := tput f.common node links }
    .next (State.release [] f.held (s.withFabric f1))
  else .next s

end Sys2Proof.Machine
end

