-- ==== Sys2Proof/Machine/Macro.lean ====
section
/-! DEFINITION. The tile-level macro-operations of major 0x30 (spec/03 R64; spec/08 R153 to R156; spec/10 R177). -/

namespace Sys2Proof.Machine

/-! ### Vault operands (R153) -/

structure VaultOp where
  base : Nat
  rpitch : Nat
  tpitch : Nat
  rot : Nat
  rows : Nat
deriving DecidableEq, Repr

def VaultOp.ofPair (even odd : Word) : VaultOp :=
  { base := (even.extractLsb' 0 32).toNat, rpitch := (even.extractLsb' 32 32).toNat,
    tpitch := (odd.extractLsb' 0 32).toNat, rot := (odd.extractLsb' 32 4).toNat,
    rows := (odd.extractLsb' 36 12).toNat }

/-- The pair s[R], s[R+1]. -/
def State.vaultOp (s : State) (r : BitVec 5) : VaultOp := VaultOp.ofPair (s.x r) (s.x (r + 1))

/-- Offset of element (h, c) of chunk q in the own vault. -/
def VaultOp.offset (o : VaultOp) (q h c : Nat) : Nat :=
  o.base + q * o.tpitch + h * o.rpitch + 8 * ((c / 4 + h * o.rot) % 64) + 2 * (c % 4)

/-- The address of an offset in the own vault. -/
def ownAddr (off : Nat) : Word := Config.vaultBase + BitVec.ofNat 64 off

/-- The location of an offset in the own vault, in the half the partition holds (R127). -/
def State.ownVault (s : State) (off : Nat) : Option Nat :=
  if off < Config.vaultBytes && (s.partAt s.hart.ctl.part).inHalf off then some (vaultLoc (coreOf s.cur) off) else none

/-! ### Checks (R154, R155) -/

/-- A must-be-zero bit of a pair, or ROWS outside 1 to 64. -/
def State.pairCheck (s : State) (r : BitVec 5) (opd : Nat) : Option FaultInfo :=
  let o := s.vaultOp r
  faultIf ((s.x (r + 1)).extractLsb' 48 16 != 0#16 || decide (o.rows < 1) || decide (64 < o.rows)) (operandFault 0x02 r opd)

def evenCheck (r : BitVec 5) (opd : Nat) : Option FaultInfo := faultIf (r.getLsbD 0) (operandFault 0x02 r opd)

/-- A fault of a vault operand at an offset of the own vault. -/
def vaultFault (c : BitVec 8) (opd : Nat) (off : Nat) (write : Bool) : FaultInfo :=
  elementFault c 0 (ownAddr off)
    { st := 0, fmt := 0, write := write, scope := 0, reg := 0, opd := BitVec.ofNat 3 opd }

/-- An odd BASE, RPITCH or TPITCH, at the first element it misplaces. -/
def VaultOp.alignFault (o : VaultOp) (opd : Nat) (write : Bool) : Option FaultInfo :=
  if o.base % 2 = 1 then some (vaultFault 0x14 opd (o.offset 0 0 0) write)
  else if o.rpitch % 2 = 1 then some (vaultFault 0x14 opd (o.offset 0 1 0) write)
  else if o.tpitch % 2 = 1 then some (vaultFault 0x14 opd (o.offset 1 0 0) write)
  else none

/-- Offsets of the checked elements of an operand that lie outside the own vault: chunks below q, rows below ROWS,
columns below n. -/
def State.outsideVault (s : State) (o : VaultOp) (q n : Nat) : List Nat :=
  (List.range q).flatMap fun i => (List.range o.rows).flatMap fun h =>
    (List.range n).filterMap fun c =>
      let off := o.offset i h c
      if (s.ownVault off).isSome then none else some off

/-- The lowest of a list of offsets. -/
def lowest : List Nat → Option Nat
  | [] => none
  | x :: r =>
    match lowest r with
    | some y => some (min x y)
    | none => some x

/-! ### Reading chunks (R154) -/

/-- One element read in stream st0; outside the own vault, where no check looked, the spec states no value. -/
def State.readElem (s : State) (off : Nat) : State × Half × Bool :=
  match s.ownVault off with
  | some loc =>
    let (s1, bs, bad) := s.loadBytes (s.view 0) loc 2
    (s1, BitVec.ofNat 16 (leNat bs), bad)
  | none => (s, Config.freeHalf off, false)

/-- Elements of a chunk read in the order given, up to the first that is uncorrectable. Element (h, c) is kept at
h × 256 + c; one that is not read counts as +0. -/
def State.readChunk (s : State) (o : VaultOp) (q : Nat) : List (Nat × Nat) → Cells 16 → State × Cells 16 × Option Nat
  | [], acc => (s, acc, none)
  | (h, c) :: r, acc =>
    let (s1, v, bad) := s.readElem (o.offset q h c)
    if bad then (s1, acc, some (o.offset q h c)) else s1.readChunk o q r (cset acc (h * 256 + c) v)

/-- Row and column numbers of a chunk in row order. -/
def gridOf (rows : Nat) (cols : List Nat) : List (Nat × Nat) :=
  (List.range rows).flatMap fun h => cols.map fun c => (h, c)

/-- A chunk read for a step, or the fault 0x11, of which the spec names felem and faddr: finfo.OPD is 0 for either vault
operand (DESIGN CHOICE, log 20). -/
def reading (s : State) (o : VaultOp) (q : Nat) (want : List (Nat × Nat)) (k : State → Cells 16 → Except (State × FaultInfo) State) :
    Except (State × FaultInfo) State :=
  let (s1, v, bad) := s.readChunk o q want []
  match bad with
  | some off => .error (s1, vaultFault 0x11 0 off false)
  | none => k s1 v

/-- The element (h, c) of a chunk read. -/
def chunkAt (v : Cells 16) (h c : Nat) : Num := val16 (cget v (h * 256 + c))

/-! ### Steps (R155) -/

/-- A macro-operation that has been issued. -/
structure MacroOp where
  d : Nat
  x : VaultOp
  y : VaultOp
  chunks : Nat
  knot : BitVec 2
  kbase : Nat
  mask : Option (Nat → Bool)

/-- The matrix state changed by a pass, its flags in fflags. -/
def State.passed (s : State) (r : Matrix × FFlags) : State := (s.withMatrix (some r.1)).orFlags r.2

/-- Matrix state of which a slot is written in some of the first band rows and the columns in use. -/
def Matrix.wroteSlot (m : Matrix) (n rows : Nat) : Matrix :=
  if m.nr ≤ rows && m.mvl = 256 then m.rewrote (1#41 <<< (16 + n)) else m

/-- Slot n of band rows 0 to 63 loaded from a chunk of 64 rows. -/
def Matrix.loadSlot (m : Matrix) (n : Nat) (v : Cells 16) : Matrix :=
  ({ m with slots := (List.range 64).foldl (fun c k =>
      putTile c m.mvl (fun i => slotKey k i n) fun i => cget v (k * 256 + i)) m.slots } : Matrix).wroteSlot n 64

/-- A step that loads slot n of band rows 0 to 63 from plane p of Y. -/
def slotStep (s : State) (m : Matrix) (o : MacroOp) (n p : Nat) : Except (State × FaultInfo) State :=
  reading s o.y p (gridOf (min o.y.rows 64) (List.range m.mvl)) fun s1 v => .ok (s1.withMatrix (some (m.loadSlot n v)))

/-- K positions of chunk q whose mask bits are set. -/
def MacroOp.kRows (o : MacroOp) (q : Nat) : List Nat :=
  match o.mask with
  | none => List.range 64
  | some f => (List.range 64).filter fun h => f (64 * q + h)

/-- A forward pass over chunk q of X. -/
def forwardStep (s : State) (m : Matrix) (o : MacroOp) (q : Nat) (phi : Nat → Nat → Num → FlagM A48) :
    Except (State × FaultInfo) State :=
  let ks := o.kRows q
  reading s o.x q (gridOf (min o.x.rows 64) ks) fun s1 v =>
    .ok (s1.passed (m.forward o.d phi (ks.map fun k => (k, k)) fun b c => chunkAt v b c))

/-- A pass over chunk q of X and of Y: the band rows whose activations it reads, the batch rows, and what it does. -/
def pairStep (s : State) (m : Matrix) (o : MacroOp) (q : Nat) (ks : List Nat) (batch : Nat)
    (pass : (Nat → Nat → Num) → (Nat → Nat → Num) → Matrix × FFlags) : Except (State × FaultInfo) State :=
  reading s o.x q (gridOf (min o.x.rows batch) ks) fun s1 x =>
    reading s1 o.y q (gridOf (min o.y.rows batch) (List.range m.mvl)) fun s2 y =>
      .ok (s2.passed (pass (fun b k => chunkAt x b k) fun b n => chunkAt y b n))

/-- Batch rows of TOPA and TSPLG. -/
def MacroOp.batch (o : MacroOp) : Nat := min o.x.rows o.y.rows

/-- Band rows kbase to kbase + n − 1 that the band has. -/
def MacroOp.bandRows (o : MacroOp) (m : Matrix) (n : Nat) : List Nat :=
  ((List.range n).map fun i => o.kbase + i).filter fun k => decide (k < m.nr)

/-- Coefficient gradients accumulated in rows (k − kbase) × 16 + slot of an accumulator. -/
def Matrix.gradients (m : Matrix) (a kb : Nat) (batch : List Nat) (x delta : Nat → Nat → Num) : Matrix × FFlags :=
  let (c, fl) := mapTile m.pend a fun r n s =>
    let k := kb + r / 16
    if k < m.nr && decide (n < m.mvl) then
      gradientSum (m.pairOf k) (r % 16) batch (fun b => x b k) (fun b => delta b n) s
    else pure s
  ({ m with pend := c }, fl)

def tmmaStep (s : State) (m : Matrix) (o : MacroOp) (i : Nat) : Except (State × FaultInfo) State :=
  if i % 2 = 0 then slotStep s m o 15 (i / 2)
  else forwardStep s m o (i / 2) fun k n => cellPhi ⟨0, 0⟩ (m.coef k n)

def tsplfStep (s : State) (m : Matrix) (o : MacroOp) (i : Nat) : Except (State × FaultInfo) State :=
  if i % 17 < 16 then slotStep s m o (i % 17) (16 * (i / 17) + i % 17) else forwardStep s m o (i / 17) m.phi

def tspldStep (s : State) (m : Matrix) (o : MacroOp) (i : Nat) : Except (State × FaultInfo) State :=
  pairStep s m o i (List.range m.nr) 64 fun x y => m.backward (o.d + i) x y

def topaStep (s : State) (m : Matrix) (o : MacroOp) (i : Nat) : Except (State × FaultInfo) State :=
  pairStep s m o i (o.bandRows m 64) o.batch fun x y => m.outer o.d o.kbase (List.range o.batch) x y

def tsplgStep (s : State) (m : Matrix) (o : MacroOp) (i : Nat) : Except (State × FaultInfo) State :=
  pairStep s m o i (o.bandRows m 4) o.batch fun x y => m.gradients o.d o.kbase (List.range o.batch) x y

/-- Slot d + q of band rows kbase + h, and at step 0 their selectors. -/
def tldcStep (s : State) (m : Matrix) (o : MacroOp) (i : Nat) : Except (State × FaultInfo) State :=
  let rows := min o.x.rows (m.nr - o.kbase)
  reading s o.x i (gridOf rows (List.range m.mvl)) fun s1 v =>
    let slots := (List.range rows).foldl (fun c h =>
      putTile c m.mvl (fun n => slotKey (o.kbase + h) n (o.d + i)) fun n => cget v (h * 256 + n)) m.slots
    let sel := if i = 0 then csplice m.sel o.kbase (List.replicate rows o.knot) else m.sel
    let m1 := ({ m with slots := slots, sel := sel } : Matrix).wroteSlot (o.d + i) (if o.kbase = 0 then rows else 0)
    let whole := i = 0 && o.kbase = 0 && decide (m.nr ≤ rows)
    .ok (s1.withMatrix (some (if whole then m1.rewrote (1#41 <<< 40) else m1)))

/-- Entries that a chunk of TSTC takes (R177). -/
def MacroOp.chunkEntries (o : MacroOp) (m : Matrix) : Nat := o.x.rows * ((m.mvl + 3) / 4)

/-- Slot d + q of band rows kbase + h buffered in stream st0, row by row and column by column. -/
def tstcStep (s : State) (m : Matrix) (o : MacroOp) (i : Nat) : Except (State × FaultInfo) State :=
  let entries := (gridOf o.x.rows (List.range m.mvl)).filterMap fun p =>
    let off := o.x.offset i p.1 p.2
    let k := o.kbase + p.1
    let v : Half := if k < m.nr then cget m.slots (slotKey k p.2 (o.d + i)) else 0
    (s.ownVault off).map fun loc => s.entry 0 0 0 (ownAddr off) ⟨loc, none⟩ none (.store (leBytes 2 v.toNat))
  .ok (s.buffer entries (o.chunkEntries m))

/-! ### Issue and the sequencer (R154, R156) -/

/-- The step that comes next. -/
def State.firstStep (s : State) : Nat := if s.hart.csr.mseqAct then s.hart.csr.mseqStep.toNat else 0

/-- One step of the operation: it stands before its next step, where it can be suspended (R156, R277), or is complete.
Between two steps other agents have their turns. -/
def sequence (s : State) (m : Matrix) (total : Nat) (step : State → Matrix → Nat → Except (State × FaultInfo) State) : Out :=
  let i := s.firstStep
  if total ≤ i then finish s.mseqZero 8
  else
    match step s m i with
    | .error (t, f) => faulted t f
    | .ok t =>
      if i + 1 < total then .next (t.withCsr { t.hart.csr with mseqStep := BitVec.ofNat 20 (i + 1), mseqAct := true })
      else finish t.mseqZero 8

/-- What distinguishes the minors at issue: operand classes, limits, contract, the parts of the band read at issue, tiles
accumulated into, steps. -/
structure MacroForm where
  top : Nat
  limits : List (Unit → Option FaultInfo)
  readsBand : Bool
  cells : List Use
  accs : List Nat
  perChunk : Nat
  planes : Nat
  store : Bool

/-- Every accumulator of a list cleared and tagged in the pending bank (R64). -/
def Matrix.clearAll (m : Matrix) (lse : BitVec 8) : List Nat → Matrix
  | [] => m
  | a :: r => (m.zeroAcc true a lse).clearAll lse r

/-- A macro-operation. `pair` is none where the minor has one vault operand. Of several faults 0x02, those of the
instruction's own fields are named before those of a pair's contents (DESIGN CHOICE, log 36). -/
def macroOp (s : State) (f : MacroForm) (d a : BitVec 5) (m : BitVec 3) (pair : Option (BitVec 5)) (chunks : BitVec 10)
    (knot : BitVec 2) (kbase : BitVec 8) (clr : Bool) (step : MacroOp → State → Matrix → Nat → Except (State × FaultInfo) State) :
    Out :=
  let q := chunks.toNat
  let o : MacroOp :=
    { d := d.toNat, x := s.vaultOp a, y := s.vaultOp (pair.getD a), chunks := q, knot := knot, kbase := kbase.toNat,
      mask := s.maskRows m }
  let onPair (g : BitVec 5 → Option FaultInfo) : Option FaultInfo :=
    match pair with
    | some p => g p
    | none => none
  let band := bandUse d 0
  let outside (mx : Matrix) : Option FaultInfo :=
    let xs := (s.outsideVault o.x q mx.mvl).map fun off => (off, 1)
    let ys := match pair with
      | some _ => (s.outsideVault o.y (f.planes * q) mx.mvl).map fun off => (off, 4)
      | none => []
    (lowest ((xs ++ ys).map fun p => p.1)).bind fun off =>
      ((xs ++ ys).find? fun p => p.1 == off).map fun p => vaultFault 0x09 p.2 off f.store
  let left (mx : Matrix) : Nat := (q - s.firstStep) * o.chunkEntries mx
  matrixIssue s true
    ((fun _ => classCheck d f.top 0) :: (fun _ => evenCheck a 1) :: (fun _ => onPair fun p => evenCheck p 4) ::
     (fun _ => faultIf (chunks == 0) (operandFault 0x02 0 4)) :: (fun _ => s.pairCheck a 1) ::
     (fun _ => onPair fun p => s.pairCheck p 4) :: f.limits)
    (pUse m ++ (if f.readsBand then band else []) ++ f.cells ++ if clr && s.firstStep == 0 then [] else
      f.accs.flatMap fun n => accUse (BitVec.ofNat 5 n) 0)
    (if f.readsBand then [] else band)
    [fun _ => s.limit fun mx => if f.store then s.roomCheck (left mx) else none,
     fun _ => if clr && s.firstStep == 0 then none else f.accs.findSome? s.tagCheck,
     fun _ => o.x.alignFault 1 f.store,
     fun _ => onPair fun _ => o.y.alignFault 4 false,
     fun _ => s.limit outside]
    fun s1 mx =>
      let mx1 := if clr && s1.firstStep == 0 then mx.clearAll s1.hart.csr.lse f.accs else mx
      let run : Unit → Out := fun _ => sequence (s1.withMatrix (some mx1)) mx1 (f.perChunk * q) (step o)
      if f.store then run () else loading s1 0 [(vaultLoc (coreOf s1.cur) 0, Config.vaultBytes)] run

/-- A limit that names a prefix field (R155). -/
def prefixFault (v : Nat) : FaultInfo := operandFault 0x02 (BitVec.ofNat 5 v) 4

/-- The limits of TMMA and TSPLF. -/
def State.forwardLimits (s : State) (m : BitVec 3) (chunks : BitVec 10) : List (Unit → Option FaultInfo) :=
  [fun _ => s.limit fun x => faultIf (decide (x.rows.length < 4)) (prefixFault chunks.toNat),
   fun _ => faultIf (m != 0 && (decide (128 < chunks.toNat) || (s.stripOpen && decide (s.span < 64 * chunks.toNat))))
     (prefixFault chunks.toNat)]

/-- KBASE lies in the band. -/
def State.kbaseLimit (s : State) (kbase : BitVec 8) : Option FaultInfo :=
  s.limit fun x => faultIf (decide (x.nr ≤ kbase.toNat)) (prefixFault kbase.toNat)

/-- The slots of TLDC and TSTC. -/
def slotLimit (d : BitVec 5) (chunks : BitVec 10) : Option FaultInfo :=
  faultIf (decide (16 < d.toNat + chunks.toNat)) (prefixFault chunks.toNat)

def execTmma (d a : BitVec 5) (m : BitVec 3) (pair : BitVec 5) (chunks : BitVec 10) (clr : Bool) (s : State) : Out :=
  macroOp s ⟨3, s.forwardLimits m chunks, false, [], [d.toNat], 2, 1, false⟩ d a m (some pair) chunks 0 0 clr
    fun o t x i => tmmaStep t x o i

def execTsplf (d a : BitVec 5) (m : BitVec 3) (pair : BitVec 5) (chunks : BitVec 10) (clr : Bool) (s : State) : Out :=
  macroOp s ⟨3, s.forwardLimits m chunks, false, knotsUse d 0, [d.toNat], 17, 16, false⟩ d a m (some pair) chunks 0 0 clr
    fun o t x i => tsplfStep t x o i

def execTspld (d a : BitVec 5) (pair : BitVec 5) (chunks : BitVec 10) (clr : Bool) (s : State) : Out :=
  let limits := [fun _ => faultIf (decide (4 < d.toNat + chunks.toNat)) (prefixFault chunks.toNat)]
  macroOp s ⟨3, limits, true, cellsUse d 0, (List.range chunks.toNat).map fun q => d.toNat + q, 1, 1, false⟩ d a 0 (some pair) chunks 0 0
    clr fun o t x i => tspldStep t x o i

def execTopa (d a : BitVec 5) (pair : BitVec 5) (chunks : BitVec 10) (kbase : BitVec 8) (clr : Bool) (s : State) : Out :=
  macroOp s ⟨3, [fun _ => s.kbaseLimit kbase], true, [], [d.toNat], 1, 1, false⟩ d a 0 (some pair) chunks 0 kbase clr
    fun o t x i => topaStep t x o i

def execTsplg (d a : BitVec 5) (pair : BitVec 5) (chunks : BitVec 10) (kbase : BitVec 8) (clr : Bool) (s : State) : Out :=
  macroOp s ⟨3, [fun _ => s.kbaseLimit kbase], true, knotsUse d 0, [d.toNat], 1, 1, false⟩ d a 0 (some pair) chunks 0 kbase clr
    fun o t x i => tsplgStep t x o i

def execTldc (d a : BitVec 5) (chunks : BitVec 10) (knot : BitVec 2) (kbase : BitVec 8) (s : State) : Out :=
  macroOp s ⟨15, [fun _ => slotLimit d chunks, fun _ => s.kbaseLimit kbase], false, [], [], 1, 1, false⟩ d a 0 none chunks knot
    kbase false fun o t x i => tldcStep t x o i

def execTstc (d a : BitVec 5) (chunks : BitVec 10) (kbase : BitVec 8) (s : State) : Out :=
  let slotsRead := (List.range chunks.toNat).flatMap fun q => slotPlaneUse (d.toNat + q) d 0
  macroOp s ⟨15, [fun _ => slotLimit d chunks, fun _ => s.kbaseLimit kbase], true, slotsRead, [], 1, 1, true⟩ d a 0 none chunks 0 kbase
    false fun o t x i => tstcStep t x o i

end Sys2Proof.Machine
end

