-- ==== Sys2Proof/Machine/VectorMove.lean ====
section
/-! DEFINITION. Reductions, scans, permutations and mask instructions, majors 0x17 to 0x19 (spec/06 R112 to R115). -/

namespace Sys2Proof.Machine

/-! ### Reductions (R112) -/

/-- The active elements of a group, ascending. -/
def State.activeElems (s : State) (n : BitVec 5) (m : BitVec 3) : List Elem := (s.actives m).map (s.elem n)

/-- The initial value s[D][31:0]. -/
def State.initial (s : State) (d : BitVec 5) : Elem := (s.x d).setWidth 32

/-- A reduction of group A into s[D], its result extended from 32 bits. -/
def reduction (s : State) (d a : BitVec 5) (m : BitVec 3) (unordered : Bool) (ext : Elem → Word)
    (f : State → Elem × FFlags) : Out :=
  vectorIssue s [fun _ => s.alignCheck a 1] unordered (s.vUse a 1 ++ pUse m) []
    fun t =>
      let r := f t
      finish ((t.orFlags r.2).setX d (ext r.1)) 4

def zext (x : Elem) : Word := x.setWidth 64
def sext (x : Elem) : Word := x.signExtend 64

def execVsumO (d a : BitVec 5) (m : BitVec 3) (s : State) : Out :=
  reduction s d a m false zext fun t => withFlags (orderedSum (t.initial d) (t.activeElems a m))
def execVsumU (d a : BitVec 5) (m : BitVec 3) (s : State) : Out :=
  reduction s d a m true zext fun t => withFlags (treeSum (t.initial d) (t.activeElems a m))
def execVdotO (d a b : BitVec 5) (m : BitVec 3) (s : State) : Out :=
  vectorIssue s [fun _ => s.alignCheck a 1, fun _ => s.alignCheck b 2] false
    (s.vUse a 1 ++ s.vUse b 2 ++ pUse m) []
    fun t =>
      let r := withFlags (orderedDot (t.initial d) ((t.actives m).map fun e => (t.elem a e, t.elem b e)))
      finish ((t.orFlags r.2).setX d (zext r.1)) 4
def execVmaxr (d a : BitVec 5) (m : BitVec 3) (s : State) : Out :=
  reduction s d a m false zext fun t => ((t.activeElems a m).foldl maxF (t.initial d), 0)
def execVminr (d a : BitVec 5) (m : BitVec 3) (s : State) : Out :=
  reduction s d a m false zext fun t => ((t.activeElems a m).foldl minF (t.initial d), 0)
def execVisum (d a : BitVec 5) (m : BitVec 3) (s : State) : Out :=
  reduction s d a m false sext fun t => ((t.activeElems a m).foldl (· + ·) (t.initial d), 0)

/-! ### Scans (R113) -/

/-- The ordered prefix sums of a list. -/
def scanOrdered : Elem → List Elem → FlagM (List Elem)
  | _, [] => pure []
  | acc, x :: r => do
    let y ← fadd acc x
    let l ← scanOrdered y r
    pure (y :: l)

/-- Each value added to the one of the other list at its place. -/
def addAll : List Elem → List Elem → FlagM (List Elem)
  | x :: xs, y :: ys => do
    let z ← fadd x y
    let l ← addAll xs ys
    pure (z :: l)
  | _, _ => pure []

/-- One step at distance k: x_i := x_(i−k) + x_i for i at least k. -/
def scanStep (k : Nat) (l : List Elem) : FlagM (List Elem) := do
  let r ← addAll l (l.drop k)
  pure (l.take k ++ r)

/-- The steps k = 2^i, …, while k is below the length. -/
def scanSteps : Nat → Nat → List Elem → FlagM (List Elem)
  | 0, _, l => pure l
  | n + 1, k, l =>
    if k < l.length then do
      let l' ← scanStep k l
      scanSteps n (2 * k) l'
    else pure l

/-- VSCAN.U's sums: the doubling tree, then the initial value added to each. -/
def scanUnordered (c : Elem) (l : List Elem) : FlagM (List Elem) := do
  let t ← scanSteps 14 1 l
  addAll (t.map fun _ => c) t

/-- A scan of group A from s[B][31:0] into group D. -/
def scan (s : State) (d a b : BitVec 5) (m : BitVec 3) (unordered : Bool)
    (f : Elem → List Elem → FlagM (List Elem)) : Out :=
  vectorIssue s [fun _ => s.alignCheck d 0, fun _ => s.alignCheck a 1] unordered (s.vUse a 1 ++ pUse m) (s.vUse d 0)
    fun t =>
      let es := t.actives m
      let r := withFlags (f (t.initial b) (es.map (t.elem a)))
      finish ((t.setGroup d fun e => (es.zip r.1).lookup e).orFlags r.2) 4

def execVscanO (d a b : BitVec 5) (m : BitVec 3) (s : State) : Out := scan s d a b m false scanOrdered
def execVscanU (d a b : BitVec 5) (m : BitVec 3) (s : State) : Out := scan s d a b m true scanUnordered

/-! ### Permutation and movement (R114) -/

/-- A destination group that is a vector source. -/
def overlapCheck (d a : BitVec 5) : Option FaultInfo := faultIf (decide (d = a)) (operandFault 0x02 d 0)

/-- VSLUP and VSLDN: a VV form is no instruction. -/
def slide (s : State) (d a : BitVec 5) (b : BOp) (m : BitVec 3) (pick : State → Nat → Option Elem) : Out :=
  vectorIssue s [fun _ => faultIf b.isVector illegal, fun _ => s.alignCheck d 0, fun _ => overlapCheck d a,
                 fun _ => s.alignCheck a 1] false (s.vUse a 1 ++ pUse m) (s.vUse d 0)
    fun t => finish (t.setGroup d fun e => if t.active m e then pick t e else none) 4

def execVslup (d a : BitVec 5) (b : BOp) (m : BitVec 3) (s : State) : Out :=
  slide s d a b m fun t e => if t.bIndex b ≤ e then some (t.elem a (e - t.bIndex b)) else none
def execVsldn (d a : BitVec 5) (b : BOp) (m : BitVec 3) (s : State) : Out :=
  slide s d a b m fun t e => some (if e + t.bIndex b < t.vl then t.elem a (e + t.bIndex b) else 0)
def execVperm (d a b : BitVec 5) (m : BitVec 3) (s : State) : Out :=
  vectorIssue s [fun _ => s.alignCheck d 0, fun _ => overlapCheck d a, fun _ => overlapCheck d b,
                 fun _ => s.alignCheck a 1, fun _ => s.alignCheck b 2] false
    (s.vUse a 1 ++ s.vUse b 2 ++ pUse m) (s.vUse d 0)
    fun t => finish (t.setGroup d fun e =>
      if t.active m e then
        let i := (t.elem b e).toNat
        some (if i < t.vl then t.elem a i else 0)
      else none) 4
def execVcomp (d a b : BitVec 5) (s : State) : Out :=
  vectorIssue s [fun _ => s.alignCheck d 0, fun _ => overlapCheck d a, fun _ => s.alignCheck a 1,
                 fun _ => maskCheck b 2] false (s.vUse a 1 ++ mUse b 2) (s.vUse d 0)
    fun t =>
      let picked := t.maskOnes b.toNat
      finish (t.setGroup d fun e =>
        match picked[e]? with
        | some i => some (t.elem a i)
        | none => if t.hart.csr.tp then some 0 else none) 4
def execViota (d a : BitVec 5) (m : BitVec 3) (s : State) : Out :=
  vectorIssue s [fun _ => s.alignCheck d 0, fun _ => maskCheck a 1] false (mUse a 1 ++ pUse m) (s.vUse d 0)
    fun t => finish (t.setGroup d fun e =>
      if t.active m e then
        some (BitVec.ofNat 32 ((List.range e).filter fun i => t.active m i && t.maskBit a.toNat i).length)
      else none) 4
/-- The predicate selects between A and B; every element below VL is written. -/
def execVmerge (d a : BitVec 5) (b : BOp) (m : BitVec 3) (s : State) : Out :=
  vectorIssue s [fun _ => s.alignCheck d 0, fun _ => s.alignCheck a 1, fun _ => s.bAlign b] false
    (s.vUse a 1 ++ s.bUse b ++ pUse m) (s.vUse d 0)
    fun t => finish (t.setGroup d fun e =>
      some (if m ≠ 0 && !t.maskBit m.toNat e then t.elem a e else t.bInt b e)) 4
def execVmvVv (d a : BitVec 5) (m : BitVec 3) (s : State) : Out := vectorOp1 s d a m fun t e => (t.elem a e, 0)
def execVmvVsVi (d : BitVec 5) (b : BOp) (m : BitVec 3) (s : State) : Out :=
  vectorIssue s [fun _ => faultIf b.isVector illegal, fun _ => s.alignCheck d 0] false (pUse m) (s.vUse d 0)
    fun t => finish (t.elementwise d m fun e => (t.bInt b e, 0)) 4
def execVext (d a b : BitVec 5) (s : State) : Out :=
  vectorIssue s [fun _ => s.alignCheck a 1] false (s.vUse a 1) []
    fun t =>
      let i := (t.x b).toNat
      finish (t.setX d (if i < t.span then zext (t.elem a i) else 0)) 4

/-! ### Mask instructions (R115) -/

/-- A mask operation on two masks. -/
def maskOp (s : State) (d a b : BitVec 5) (m : BitVec 3) (f : Bool → Bool → Bool) : Out :=
  vectorIssue s [fun _ => maskCheck d 0, fun _ => maskCheck a 1, fun _ => maskCheck b 2] false
    (mUse a 1 ++ mUse b 2 ++ pUse m) (mUse d 0)
    fun t => finish (t.maskwise d.toNat m fun e => f (t.maskBit a.toNat e) (t.maskBit b.toNat e)) 4

def execMand (d a b : BitVec 5) (m : BitVec 3) (s : State) : Out := maskOp s d a b m fun x y => x && y
def execMor (d a b : BitVec 5) (m : BitVec 3) (s : State) : Out := maskOp s d a b m fun x y => x || y
def execMxor (d a b : BitVec 5) (m : BitVec 3) (s : State) : Out := maskOp s d a b m fun x y => x != y
def execMandn (d a b : BitVec 5) (m : BitVec 3) (s : State) : Out := maskOp s d a b m fun x y => x && !y
def execMnot (d a : BitVec 5) (m : BitVec 3) (s : State) : Out :=
  vectorIssue s [fun _ => maskCheck d 0, fun _ => maskCheck a 1] false (mUse a 1 ++ pUse m) (mUse d 0)
    fun t => finish (t.maskwise d.toNat m fun e => !t.maskBit a.toNat e) 4

/-- A mask set to one value, which reads no register but the predicate. -/
def maskFill (s : State) (d : BitVec 5) (m : BitVec 3) (v : Bool) : Out :=
  vectorIssue s [fun _ => maskCheck d 0] false (pUse m) (mUse d 0)
    fun t => finish (t.maskwise d.toNat m fun _ => v) 4

def execMset (d : BitVec 5) (m : BitVec 3) (s : State) : Out := maskFill s d m true
def execMclr (d : BitVec 5) (m : BitVec 3) (s : State) : Out := maskFill s d m false
def execMfromv (d a : BitVec 5) (m : BitVec 3) (s : State) : Out :=
  vectorIssue s [fun _ => maskCheck d 0, fun _ => s.alignCheck a 1] false (s.vUse a 1 ++ pUse m) (mUse d 0)
    fun t => finish (t.maskwise d.toNat m fun e => t.elem a e != 0) 4

end Sys2Proof.Machine
end

