-- ==== Sys2Proof/Machine/Volume.lean ====
section
/-! DEFINITION. Sparse volumes: descriptors, the walk of a Lath tree with the CLB, claims, and the instructions of
major 0x25 (spec/09 R159 to R163; spec/14 R223 to R235; spec/18 R283). -/

namespace Sys2Proof.Machine

/-! ### Descriptors (R160, R223) -/

/-- An address a tree may use: canonical, a multiple of 64, not in vault space. -/
def treeAddress (v : Word) : Bool := v.extractLsb' 0 6 == 0#6 && canonical v && !inVaultSpace v

/-- The descriptor in 64 bytes at an address; none when it breaks a limit. -/
def descriptorOf (addr : Word) (bytes : List Byte) : Option VDesc :=
  let q (i : Nat) : Word := BitVec.ofNat 64 (leNat ((bytes.drop (8 * i)).take 8))
  let geo := q 1
  let rbits := (geo.extractLsb' 0 3).toNat
  let esize := (geo.extractLsb' 8 3).toNat
  if decide (6 < rbits) || geo.extractLsb' 5 3 != 3#3 || !(esize == 2 || esize == 4) || geo.extractLsb' 13 51 != 0#51 ||
     q 7 != 0 || !treeAddress (q 0) || !treeAddress (q 3) || (q 5).ult (q 3)
  then none
  else some { addr := addr, root := q 0, rbits := rbits, levels := (geo.extractLsb' 3 2).toNat, esize := esize,
              walloc := geo.getLsbD 11, deleg := geo.getLsbD 12, bg := q 2 }

/-- Bits of a coordinate per axis (R225). -/
def VDesc.budget (v : VDesc) : Nat := v.rbits + 4 * v.levels + 3

/-- The background element, its bytes and its value as an element (R161). -/
def VDesc.bgBytes (v : VDesc) : List Byte := leBytes v.esize v.bg.toNat

/-- An element's value from its bytes: 4 bytes as they are, or a BF16 pattern. -/
def VDesc.widen (v : VDesc) (raw : Nat) : Elem :=
  if v.esize = 2 then BitVec.ofNat 32 (raw * 65536) else BitVec.ofNat 32 raw

/-! ### Voxels -/

/-- An active element with its coordinate. -/
structure Voxel where
  elem : Nat
  x : Int
  y : Int
  z : Int
deriving DecidableEq, Repr

/-- A coordinate inside the budget. -/
def VDesc.inside (v : VDesc) (p : Voxel) : Bool :=
  let half : Int := 2 ^ (v.budget - 1)
  let ok (c : Int) : Bool := decide (-half ≤ c) && decide (c < half)
  ok p.x && ok p.y && ok p.z

/-- The index of a coordinate. -/
def VDesc.index (v : VDesc) (c : Int) : Nat := (c + 2 ^ (v.budget - 1)).toNat

/-- The entry of the table of a level, level 0 the root, on the path of a voxel (R225). -/
def VDesc.entryAt (v : VDesc) (p : Voxel) (level : Nat) : Nat :=
  let i (c : Int) : Nat :=
    if level = 0 then v.index c / 2 ^ (v.budget - v.rbits) else v.index c / 2 ^ (v.budget - v.rbits - 4 * level) % 16
  if level = 0 then (i p.z * 2 ^ v.rbits + i p.y) * 2 ^ v.rbits + i p.x else i p.z * 256 + i p.y * 16 + i p.x

/-- The number of a voxel's element in its leaf. -/
def VDesc.leafElem (v : VDesc) (p : Voxel) : Nat :=
  v.index p.z % 8 * 64 + v.index p.y % 8 * 8 + v.index p.x % 8

/-- The tag of a voxel's leaf (R227). -/
def State.leafKey (s : State) (v : VDesc) (p : Voxel) : LeafKey :=
  { part := s.hart.ctl.part, root1 := s.hart.sup.xlat1, root := v.root, ix := v.index p.x / 8, iy := v.index p.y / 8,
    iz := v.index p.z / 8 }

/-! ### The walk (R162, R226 to R228) -/

/-- Who walks: the descriptor, the voxel, whether it allocates, field A and what a record says of the access. -/
structure Lath where
  desc : VDesc
  vox : Voxel
  writer : Bool
  reg : BitVec 5
  info : AccessInfo
deriving DecidableEq, Repr

/-- How a walk ends. -/
inductive LathEnd where
  | leaf (va : Word)
  | absent
  | fault (f : FaultInfo)
  | held (va : Word)
  /-- a chunk has been claimed: the walk goes on once it is installed -/
  | claimed
deriving DecidableEq, Repr

/-- What an access of a walk that has no location ends the walk with. -/
def Lath.lost (c : Lath) (va : Word) (p : Probe) : LathEnd :=
  match p with
  | .hit _ => .absent
  | .fault f => .fault (elementFault f c.vox.elem va c.info)
  | .outside => .fault (elementFault 0x12 c.vox.elem va c.info)
  | .held => .held va

/-- Fault 0x0B of an entry, or of a slot. -/
def volumeFault (addr : Word) (reg : BitVec 5) : FaultInfo :=
  { plainFault 0x0B with addr := addr, info := operandInfo reg 0 }

/-- Fault 0x0A (R162). -/
def Lath.noRoom (c : Lath) : FaultInfo :=
  let f (i : Int) : Word := (BitVec.ofInt 21 i).setWidth 64
  { plainFault 0x0A with
    elem := c.vox.elem, idx0 := BitVec.ofNat 64 c.vox.elem, addr := c.desc.addr + 32,
    coord := f c.vox.x ||| (f c.vox.y <<< 21) ||| (f c.vox.z <<< 42), deleg := c.desc.deleg }

/-- Bytes written from an address on, each 64 KiB page apart, up to the first that cannot be reached. -/
def State.fillChunk (s : State) (c : Lath) : Nat → Word → List Byte → State × Option LathEnd
  | 0, _, _ => (s, none)
  | n + 1, va, bs =>
    if bs.isEmpty then (s, none)
    else
      let k := 65536 - va.toNat % 65536
      let (s1, p) := s.reachAddr s.self va .write
      match p with
      | .hit h =>
        if nodeOf h.loc != 0 then (s1, some (.fault (volumeFault va c.reg)))
        else ((s1.replacing h.loc (bs.take k).length).write h.loc (bs.take k)).fillChunk c n (va + BitVec.ofNat 64 k) (bs.drop k)
      | p => (s1, some (c.lost va p))

/-- `n` copies of some bytes. -/
def copies : Nat → List Byte → List Byte
  | 0, _ => []
  | n + 1, bs => bs ++ copies n bs

/-- A claim and its fill (R162, R230). The entry must be writable before a chunk is claimed for it (DESIGN CHOICE, log 37).
The install is the hart's next turn, so that another hart's may come first (R231). -/
def State.allocate (s : State) (c : Lath) (entryVa : Word) (leaf : Bool) : State × LathEnd :=
  if !c.desc.walloc then (s, .fault c.noRoom)
  else
    let (s0, e) := s.probe s.self entryVa 8 .write
    match e with
    | .hit _ =>
      let pool := c.desc.addr + 32
      let (s1, p) := s0.probe s0.self pool 16 .write
      match p with
      | .hit h =>
        if nodeOf h.loc != 0 then (s1, .fault (volumeFault pool c.reg))
        else if s1.poisoned h.loc 16 then (s1.noteRead h.loc 16, .fault (elementFault 0x11 c.vox.elem pool c.info))
        else
          let size := if leaf then 512 * c.desc.esize else 32768
          let next := s1.readNat h.loc 8
          let limit := s1.readNat (h.loc + 8) 8
          if limit < next + size then (s1, .fault c.noRoom)
          else
            let s2 := ((s1.noteRead h.loc 16).replacing h.loc 8).write h.loc (leBytes 8 (next + size))
            let data := if leaf then copies 512 c.desc.bgBytes else List.replicate 32768 0
            let (s3, bad) := s2.fillChunk c 2 (BitVec.ofNat 64 next) data
            match bad with
            | some f => (s3, f)
            | none =>
              let k : Claim := { entry := entryVa, waste := c.desc.addr + 48, chunk := BitVec.ofNat 64 next, size := size,
                                 elem := c.vox.elem, info := c.info.word }
              ({ s3 with hart := { s3.hart with claim := some k } }, .claimed)
      | p => (s1, c.lost pool p)
    | e => (s0, c.lost entryVa e)

/-- The fault of an access of an install. -/
def Claim.fault (k : Claim) (c : BitVec 8) (va : Word) : FaultInfo :=
  { plainFault c with elem := k.elem, idx0 := BitVec.ofNat 64 k.elem, addr := va, info := k.info }

/-- The fault of an install; the instruction of a strip aborted since its claim takes none. -/
def State.claimFault (s : State) (k : Claim) (c : BitVec 8) (va : Word) : State :=
  if s.stripOpen then s.takeFault (k.fault c va) else s

/-- A doubleword that an install updates: its fault, or the wait for a segment, ends the hart's turn. -/
def State.claimWord (s : State) (k : Claim) (va : Word) (f : State → Nat → State) : State :=
  let (t, p) := s.probe s.self va 8 .write
  match p with
  | .hit h => if t.poisoned h.loc 8 then (t.noteRead h.loc 8).claimFault k 0x11 va else f (t.noteRead h.loc 8) h.loc
  | .fault c => t.claimFault k c va
  | .outside => t.claimFault k 0x12 va
  | .held => ({ t with hart := { t.hart with claim := some k } } : State).withRun (.waiting (.held va))

/-- The install of the claimed chunk: the entry takes it, or the chunk is waste when the entry is taken (R231). -/
def State.install (s : State) (k : Claim) : State :=
  ({ s with hart := { s.hart with claim := none } } : State).claimWord k k.entry fun t loc =>
    if t.readNat loc 8 = 0 then (t.replacing loc 8).write loc (leBytes 8 k.chunk.toNat)
    else t.claimWord k k.waste fun u w => (u.replacing w 8).write w (leBytes 8 (u.readNat w 8 + k.size))

/-- Whether an entry names what no table or leaf can be: its form, or a child on another node (R226). -/
def State.badEntry (s : State) (v : Word) : State × Bool :=
  if treeAddress v then
    let (s1, p) := s.probe s.self v 8 .read
    match p with
    | .hit h => (s1, nodeOf h.loc != 0)
    | _ => (s1, false)
  else (s, true)

/-- The walk from the table of a level on; n levels are left below it. A table that lies on another node is 0x0B, with the
address of the entry to be read (DESIGN CHOICE, log 37). -/
def State.walkLath (s : State) (c : Lath) : Nat → Nat → Word → State × LathEnd
  | n, level, table =>
    let va := table + BitVec.ofNat 64 (8 * c.desc.entryAt c.vox level)
    let (s1, p) := s.probe s.self va 8 .read
    match p with
    | .hit h =>
      let s2 := s1.noteRead h.loc 8
      if s1.poisoned h.loc 8 then (s2, .fault (elementFault 0x11 c.vox.elem va c.info))
      else if nodeOf h.loc != 0 then (s2, .fault (volumeFault va c.reg))
      else if s1.readNat h.loc 8 = 0 then
        if c.writer then s2.allocate c va (decide (n = 0)) else (s2, .absent)
      else
        let v := BitVec.ofNat 64 (s1.readNat h.loc 8)
        let (s3, bad) := s2.badEntry v
        if bad then (s3, .fault (volumeFault va c.reg))
        else
          match n with
          | 0 => (s3, .leaf v)
          | n' + 1 => s3.walkLath c n' (level + 1) v
    | p => (s1, c.lost va p)

def State.fromRoot (s : State) (c : Lath) : State × LathEnd := s.walkLath c c.desc.levels 0 c.desc.root

/-- A leaf entered in the CLB; which entry a full one gives up is free. -/
def State.enterClb (s : State) (e : ClbEntry) : State :=
  let l := s.core.clb
  if l.length < Config.clbEntries then { s with core := { s.core with clb := l ++ [e] } }
  else
    let (k, s1) := s.drawNat l.length
    { s1 with core := { s1.core with clb := l.eraseIdx k ++ [e] } }

/-- The leaf of a voxel, through the CLB. A hit that the tree no longer gives may or may not be used (R227, R234). -/
def State.leafOf (s : State) (c : Lath) : State × LathEnd :=
  let key := s.leafKey c.desc c.vox
  let missed (t : State) : State × LathEnd :=
    let (t1, r) := t.fromRoot c
    match r with
    | .leaf v => (t1.enterClb ⟨key, v⟩, .leaf v)
    | r => (t1, r)
  match s.core.clb.find? fun e => e.key == key with
  | some e =>
    if (s.fromRoot { c with writer := false }).2 = .leaf e.leaf then (s, .leaf e.leaf)
    else
      let (b, s1) := s.drawBit
      if b then (s1, .leaf e.leaf)
      else missed { s1 with core := { s1.core with clb := s1.core.clb.filter fun x => x.key != key } }
  | none => missed s

/-! ### Elements (R162) -/

/-- An element whose walk has ended well: its location, or none where it reads the background, and the bytes a read
of it gives. -/
structure Found where
  elem : Nat
  va : Word
  hit : Option Hit
  key : LeafKey
  bytes : List Byte
deriving DecidableEq, Repr

/-- One element walked and its address checked; a leaf that runs on into another node's page is 0x0B there (R283; DESIGN
CHOICE, log 37). `data` says that its bytes are read, in a stream. -/
def State.findVoxel (s : State) (c : Lath) (st : BitVec 2) (data : Bool) : State × Except LathEnd Found :=
  let none' : Found := { elem := c.vox.elem, va := 0, hit := none, key := s.leafKey c.desc c.vox, bytes := c.desc.bgBytes }
  if !c.desc.inside c.vox then (s, .ok none')
  else
    let (s1, r) := s.leafOf c
    match r with
    | .absent => (s1, .ok none')
    | .leaf v =>
      let va := v + BitVec.ofNat 64 (c.desc.esize * c.desc.leafElem c.vox)
      let (s2, p) := s1.probe s1.self va c.desc.esize (if c.writer then .write else .read)
      match p with
      | .hit h =>
        if nodeOf h.loc != 0 then (s2, .error (.fault (volumeFault va c.reg)))
        else if data then
          let (s3, bs, bad) := s2.loadBytes (s2.view st) h.loc c.desc.esize
          if bad then (s3, .error (.fault (elementFault 0x11 c.vox.elem va c.info)))
          else (s3, .ok { none' with va := va, hit := some h, bytes := bs })
        else (s2, .ok { none' with va := va, hit := some h })
      | p => (s2, .error (c.lost va p))
    | r => (s1, .error r)

/-- The first fault of a cause among elements that are walked without allocating. -/
def State.faultAhead (s : State) (mk : Voxel → Lath) (cause : BitVec 8) : List Voxel → Option FaultInfo
  | [] => none
  | p :: r =>
    match (s.findVoxel { mk p with writer := false } 0 false).2 with
    | .error (.fault f) => if f.cause = cause then some f else s.faultAhead mk cause r
    | _ => s.faultAhead mk cause r

/-- The fault of an element, or what outranks it among the elements after it: 0x0B, then 0x12 (R28). -/
def State.ranked (s : State) (mk : Voxel → Lath) (f : FaultInfo) (r : List Voxel) : FaultInfo :=
  if f.cause = 0x0B then f
  else
    match s.faultAhead mk 0x0B r with
    | some g => g
    | none => if f.cause = 0x12 then f else (s.faultAhead mk 0x12 r).getD f

/-- The elements walked in order, up to the first that ends otherwise. -/
def State.findVoxels (s : State) (mk : Voxel → Lath) (st : BitVec 2) (data : Bool) :
    List Voxel → State × List Found × Option LathEnd
  | [] => (s, [], none)
  | p :: r =>
    let (s1, e) := s.findVoxel (mk p) st data
    match e with
    | .ok f =>
      let (s2, l, b) := s1.findVoxels mk st data r
      (s2, f :: l, b)
    | .error (.fault f) => (s1, [], some (.fault (s1.ranked mk f r)))
    | .error e => (s1, [], some e)

/-! ### Instructions (R159 to R161) -/

/-- The three coordinate groups. -/
def State.coordUse (s : State) (a : BitVec 5) : List Use :=
  s.vUse a 1 ++ s.vUse (a + BitVec.ofNat 5 s.rows) 1 ++ s.vUse (a + BitVec.ofNat 5 (2 * s.rows)) 1

/-- A names the first of three groups (R71, R159). -/
def State.coordCheck (s : State) (a : BitVec 5) : Option FaultInfo :=
  faultIf (decide (29 < a.toNat) || (s.stripOpen && (a.toNat % s.rows != 0 || decide (32 < a.toNat + 3 * s.rows))))
    (operandFault 0x02 a 1)

/-- The descriptor in a slot. -/
def State.slot (s : State) (b : BitVec 2) : Option VDesc := s.hart.vdesc[b.toNat]'(by omega)

/-- An empty slot (R159). -/
def State.slotCheck (s : State) (b : BitVec 2) : Option FaultInfo :=
  faultIf (s.slot b).isNone (volumeFault 0 (b.setWidth 5))

/-- The active elements with their coordinates. -/
def State.voxels (s : State) (a : BitVec 5) (m : BitVec 3) : List Voxel :=
  let c (k e : Nat) : Int := (s.elem (a + BitVec.ofNat 5 (k * s.rows)) e).toInt
  (s.actives m).map fun e => ⟨e, c 0 e, c 1 e, c 2 e⟩

/-- A VCO instruction on the voxels of a slot: checks of the fields, its operands, the walk, then `k` with what was
found. -/
def coordOp (s : State) (st : BitVec 2) (fields : List (Unit → Option FaultInfo)) (a : BitVec 5) (b : BitVec 2)
    (m : BitVec 3) (unordered writer data : Bool) (scope : BitVec 2) (reads writes : List Use)
    (k : State → VDesc → List Found → Out) : Out :=
  let info : AccessInfo := { st := st, fmt := 0, write := writer, scope := scope, reg := 0, opd := 0 }
  vectorIssueWith s (fields ++ ([fun _ => s.coordCheck a] : List (Unit → Option FaultInfo))) unordered
    (reads ++ s.coordUse a ++ slotUse b 2 ++ pUse m) writes
    [fun _ => if writer then s.underMask m (s.roomCheck (s.actives m).length) else none, fun _ => s.slotCheck b]
    fun s1 =>
      let vs := s1.voxels a m
      guarded s1
        [fun _ => (s1.slot b).bind fun v =>
           faultIf (writer && vs.any fun p => !v.inside p) (volumeFault v.addr a)]
        fun _ =>
          match s1.slot b with
          | none => faulted s1 (volumeFault 0 (b.setWidth 5))
          | some v =>
            let (s2, l, e) := s1.findVoxels (fun p => ⟨v, p, writer, a, info⟩) st data vs
            match e with
            | none =>
              let read := l.filterMap fun f => f.hit.map fun h => (h.loc, v.esize)
              if data then loading s1 st read fun _ => k s2 v l else k s2 v l
            | some (.fault f) => faulted s2 f
            | some (.held va) => waitAt s2 (.held va)
            | some _ => .next s2

/-- What element e found. -/
def foundAt (l : List Found) (e : Nat) : Option Found := l.find? fun f => f.elem == e

def execVldc (s : BitVec 2) (d a : BitVec 5) (b : BitVec 2) (m : BitVec 3) (s' : State) : Out :=
  coordOp s' s [fun _ => s'.alignCheck d 0] a b m false false true 0 [] (s'.vUse d 0) fun t v l =>
    finish (t.setGroup d fun e => (foundAt l e).map fun f => v.widen (leNat f.bytes)) 4

/-- The stores of the elements found, narrowed in ascending order where an element takes two bytes. -/
def State.voxelStores (s : State) (st : BitVec 2) (d : BitVec 5) (v : VDesc) (l : List Found) :
    List BufEntry × FFlags × Chain :=
  let xs := l.map fun f => (f.elem, s.elem d f.elem)
  let (q, fl, c) :=
    if v.esize = 2 then narrowAll (fun x c => bf16.narrow fp32 s.hart.csr.rmode s.dither (val32 x) c) xs s.hart.csr.ncarry
    else (xs.map fun p => (p.1, p.2.toNat), 0, s.hart.csr.ncarry)
  ((l.zip q).filterMap fun p => p.1.hit.map fun h =>
     s.entry st p.1.elem d p.1.va h (some p.1.key) (.store (leBytes v.esize p.2.2)), fl, c)

def execVstc (s : BitVec 2) (d a : BitVec 5) (b : BitVec 2) (m : BitVec 3) (s' : State) : Out :=
  coordOp s' s [fun _ => s'.alignCheck d 0] a b m false true false 0 (s'.vUse d 0) [] fun t v l =>
    let (es, fl, c) := t.voxelStores s d v l
    finish (((t.buffer es es.length).orFlags fl).withChain c) 4

/-- VACAD: buffered atomic adds. -/
def voxelAdd (s : State) (st : BitVec 2) (d a : BitVec 5) (b : BitVec 2) (m : BitVec 3) (unordered : Bool) : Out :=
  coordOp s st [fun _ => s.alignCheck d 0] a b m unordered true false 1 (s.vUse d 0) [] fun t v l =>
    let op : AtomicOp :=
      if v.esize = 2 then (if unordered then .addBf16U else .addBf16) else (if unordered then .addF32U else .addF32)
    let es := l.filterMap fun f => f.hit.map fun h =>
      t.entry st f.elem d f.va h (some f.key) (.atomic op (t.elem d f.elem))
    finish (t.buffer es es.length) 4

def execVacadO (s : BitVec 2) (d a : BitVec 5) (b : BitVec 2) (m : BitVec 3) (s' : State) : Out :=
  voxelAdd s' s d a b m false
def execVacadU (s : BitVec 2) (d a : BitVec 5) (b : BitVec 2) (m : BitVec 3) (s' : State) : Out :=
  voxelAdd s' s d a b m true

def execVprbc (s : BitVec 2) (d a : BitVec 5) (b : BitVec 2) (m : BitVec 3) (s' : State) : Out :=
  coordOp s' s [fun _ => maskCheck d 0] a b m false false true 0 [] (mUse d 0) fun t _ l =>
    finish (t.setMask d.toNat fun e => (foundAt l e).map fun f => f.hit.isSome) 4

/-! ### VSETVOL and VCLBINV (R160, R163) -/

def execVsetvol (s : BitVec 2) (a : BitVec 5) (b : BitVec 2) (s' : State) : Out :=
  vectorIssue s' [] false [] (slotUse b 2) fun t =>
    let va := t.x a
    let bad := volumeFault va (b.setWidth 5)
    let misaligned := elementFault 0x14 0 va { st := s, fmt := 0, write := false, scope := 0, reg := 0, opd := 0 }
    guarded t [fun _ => faultIf (va.toNat % 64 != 0) misaligned] fun _ =>
      recordRead t s va 1 (accessesOf va 1 64) (fun l => faultIf (l.any fun x => nodeOf x.hit.loc != 0) bad) fun t1 bs =>
        match descriptorOf va bs with
        | some v => finish { t1 with hart := { t1.hart with vdesc := t1.hart.vdesc.set b.toNat (some v) (by omega) } } 4
        | none => faulted t1 bad

/-- A corner of a box. -/
def corner (w : Word) (k : Nat) : Int := (w.extractLsb' (21 * k) 21).toInt

/-- Whether a leaf of a volume of budget n meets a box. -/
def LeafKey.meets (k : LeafKey) (n : Nat) (lo hi : Word) : Bool :=
  let on (i axis : Nat) : Bool :=
    let first : Int := 8 * i - 2 ^ (n - 1)
    decide (first ≤ corner hi axis) && decide (corner lo axis ≤ first + 7)
  on k.ix 0 && on k.iy 1 && on k.iz 2

/-- The leaves of the slot's volume that meet the box. -/
def State.inBox (s : State) (v : VDesc) (lo hi : Word) (k : LeafKey) : Bool :=
  k.part == s.hart.ctl.part && k.root1 == s.hart.sup.xlat1 && k.root == v.root && k.meets v.budget lo hi

/-- A hart whose open strip holds a buffered write in a leaf. -/
def Hart.wrote (h : Hart) (inBox : LeafKey → Bool) : Bool :=
  h.csr.so && h.strip.buf.any fun e =>
    match e.leaf with
    | some k => inBox k
    | none => false

/-- The shoot-down of a box: CLB entries removed from every core, other harts' strips aborted. -/
def State.shootDown (s : State) (v : VDesc) (lo hi : Word) : State :=
  if (List.range 3).any fun k => decide (corner hi k < corner lo k) then s
  else
    let box := s.inBox v lo hi
    let s1 := s.mapCores fun _ c => { c with clb := c.clb.filter fun e => !box e.key }
    let victims := s1.hartIds.filter fun h => h != s.cur && (s1.hartAt h).wrote box
    victims.foldl (fun t h => t.abortAt h) s1

/-- Another hart of the partition stands in a walk, between its claim and its install. -/
def State.walksElsewhere (s : State) : Bool :=
  s.hartIds.any fun h =>
    let x := s.hartAt h
    h != s.cur && x.ctl.part == s.hart.ctl.part && x.live && x.claim.isSome

/-- VCLBINV: it completes once every walk that began before is finished (R163). -/
def execVclbinv (s : BitVec 2) (a : BitVec 5) (b : BitVec 2) (s' : State) : Out :=
  vectorIssueWith s' [] false (slotUse b 2) [] [fun _ => s'.slotCheck b] fun t =>
    let va := t.x a
    recordRead t s va 8 (accessesOf va 1 16) (fun _ => none) fun t1 bs =>
      let w (i : Nat) : Word := BitVec.ofNat 64 (leNat ((bs.drop (8 * i)).take 8))
      if t1.walksElsewhere then waitAt t1 .walk
      else
        match t1.slot b with
        | some v => finish (t1.shootDown v (w 0) (w 1)) 4
        | none => finish t1 4

end Sys2Proof.Machine
end

