-- ==== Sys2Proof/Machine/Dispatch.lean ====
section
/-! DEFINITION. The meaning of every instruction and event, one arm each. -/

namespace Sys2Proof.Machine

def exec (i : Instr) (s : State) : Host.Outcome State Fault Refusal :=
  match i with
  | .add d a b => Sys2Proof.Machine.execAdd d a b s
  | .sub d a b => Sys2Proof.Machine.execSub d a b s
  | .and d a b => Sys2Proof.Machine.execAnd d a b s
  | .or d a b => Sys2Proof.Machine.execOr d a b s
  | .xor d a b => Sys2Proof.Machine.execXor d a b s
  | .sll d a b => Sys2Proof.Machine.execSll d a b s
  | .srl d a b => Sys2Proof.Machine.execSrl d a b s
  | .sra d a b => Sys2Proof.Machine.execSra d a b s
  | .slt d a b => Sys2Proof.Machine.execSlt d a b s
  | .sltu d a b => Sys2Proof.Machine.execSltu d a b s
  | .mul d a b => Sys2Proof.Machine.execMul d a b s
  | .mulh d a b => Sys2Proof.Machine.execMulh d a b s
  | .mulhu d a b => Sys2Proof.Machine.execMulhu d a b s
  | .div d a b => Sys2Proof.Machine.execDiv d a b s
  | .divu d a b => Sys2Proof.Machine.execDivu d a b s
  | .rem d a b => Sys2Proof.Machine.execRem d a b s
  | .remu d a b => Sys2Proof.Machine.execRemu d a b s
  | .min d a b => Sys2Proof.Machine.execMin d a b s
  | .max d a b => Sys2Proof.Machine.execMax d a b s
  | .minu d a b => Sys2Proof.Machine.execMinu d a b s
  | .maxu d a b => Sys2Proof.Machine.execMaxu d a b s
  | .clz d a => Sys2Proof.Machine.execClz d a s
  | .ctz d a => Sys2Proof.Machine.execCtz d a s
  | .popc d a => Sys2Proof.Machine.execPopc d a s
  | .addi d a im => Sys2Proof.Machine.execAddi d a im s
  | .andi d a im => Sys2Proof.Machine.execAndi d a im s
  | .ori d a im => Sys2Proof.Machine.execOri d a im s
  | .xori d a im => Sys2Proof.Machine.execXori d a im s
  | .slli d a im => Sys2Proof.Machine.execSlli d a im s
  | .srli d a im => Sys2Proof.Machine.execSrli d a im s
  | .srai d a im => Sys2Proof.Machine.execSrai d a im s
  | .slti d a im => Sys2Proof.Machine.execSlti d a im s
  | .lil d im => Sys2Proof.Machine.execLil d im s
  | .lih d im => Sys2Proof.Machine.execLih d im s
  | .lix d im => Sys2Proof.Machine.execLix d im s
  | .liy d im => Sys2Proof.Machine.execLiy d im s
  | .lb d a im => Sys2Proof.Machine.execLb d a im s
  | .lh d a im => Sys2Proof.Machine.execLh d a im s
  | .lw d a im => Sys2Proof.Machine.execLw d a im s
  | .ld d a im => Sys2Proof.Machine.execLd d a im s
  | .lbu d a im => Sys2Proof.Machine.execLbu d a im s
  | .lhu d a im => Sys2Proof.Machine.execLhu d a im s
  | .lwu d a im => Sys2Proof.Machine.execLwu d a im s
  | .pref a im => Sys2Proof.Machine.execPref a im s
  | .sb d a im => Sys2Proof.Machine.execSb d a im s
  | .sh d a im => Sys2Proof.Machine.execSh d a im s
  | .sw d a im => Sys2Proof.Machine.execSw d a im s
  | .sd d a im => Sys2Proof.Machine.execSd d a im s
  | .beqz a o => Sys2Proof.Machine.execBeqz a o s
  | .bnez a o => Sys2Proof.Machine.execBnez a o s
  | .bltz a o => Sys2Proof.Machine.execBltz a o s
  | .bgez a o => Sys2Proof.Machine.execBgez a o s
  | .bgtz a o => Sys2Proof.Machine.execBgtz a o s
  | .blez a o => Sys2Proof.Machine.execBlez a o s
  | .bbs a o => Sys2Proof.Machine.execBbs a o s
  | .bbc a o => Sys2Proof.Machine.execBbc a o s
  | .j o => Sys2Proof.Machine.execJ o s
  | .jal o => Sys2Proof.Machine.execJal o s
  | .jalr d a im => Sys2Proof.Machine.execJalr d a im s
  | .jr a im => Sys2Proof.Machine.execJr a im s
  | .loop a im => Sys2Proof.Machine.execLoop a im s
  | .csrr d im => Sys2Proof.Machine.execCsrr d im s
  | .csrw d a im => Sys2Proof.Machine.execCsrw d a im s
  | .csrs d a im => Sys2Proof.Machine.execCsrs d a im s
  | .csrc d a im => Sys2Proof.Machine.execCsrc d a im s
  | .mpopc d a => Sys2Proof.Machine.execMpopc d a s
  | .mfirst d a => Sys2Proof.Machine.execMfirst d a s
  | .many d a => Sys2Proof.Machine.execMany d a s
  | .mall d a => Sys2Proof.Machine.execMall d a s
  | .mtos d a b => Sys2Proof.Machine.execMtos d a b s
  | .vaddF d a b m => Sys2Proof.Machine.execVaddF d a b m s
  | .vsubF d a b m => Sys2Proof.Machine.execVsubF d a b m s
  | .vmulF d a b m => Sys2Proof.Machine.execVmulF d a b m s
  | .vdivF d a b m => Sys2Proof.Machine.execVdivF d a b m s
  | .vminF d a b m => Sys2Proof.Machine.execVminF d a b m s
  | .vmaxF d a b m => Sys2Proof.Machine.execVmaxF d a b m s
  | .vsgnjF d a b m => Sys2Proof.Machine.execVsgnjF d a b m s
  | .vabsF d a m => Sys2Proof.Machine.execVabsF d a m s
  | .vfma d a b m => Sys2Proof.Machine.execVfma d a b m s
  | .vfms d a b m => Sys2Proof.Machine.execVfms d a b m s
  | .vfnma d a b m => Sys2Proof.Machine.execVfnma d a b m s
  | .vfnms d a b m => Sys2Proof.Machine.execVfnms d a b m s
  | .vsqrt d a m => Sys2Proof.Machine.execVsqrt d a m s
  | .vrsq d a m => Sys2Proof.Machine.execVrsq d a m s
  | .vrcp d a m => Sys2Proof.Machine.execVrcp d a m s
  | .vnegF d a m => Sys2Proof.Machine.execVnegF d a m s
  | .vfeq d a b m => Sys2Proof.Machine.execVfeq d a b m s
  | .vfne d a b m => Sys2Proof.Machine.execVfne d a b m s
  | .vflt d a b m => Sys2Proof.Machine.execVflt d a b m s
  | .vfle d a b m => Sys2Proof.Machine.execVfle d a b m s
  | .vfgt d a b m => Sys2Proof.Machine.execVfgt d a b m s
  | .vfge d a b m => Sys2Proof.Machine.execVfge d a b m s
  | .vfuo d a b m => Sys2Proof.Machine.execVfuo d a b m s
  | .vfcls d a m => Sys2Proof.Machine.execVfcls d a m s
  | .vadd d a b m => Sys2Proof.Machine.execVadd d a b m s
  | .vsub d a b m => Sys2Proof.Machine.execVsub d a b m s
  | .vmul d a b m => Sys2Proof.Machine.execVmul d a b m s
  | .vmulh d a b m => Sys2Proof.Machine.execVmulh d a b m s
  | .vmin d a b m => Sys2Proof.Machine.execVmin d a b m s
  | .vmax d a b m => Sys2Proof.Machine.execVmax d a b m s
  | .vminu d a b m => Sys2Proof.Machine.execVminu d a b m s
  | .vmaxu d a b m => Sys2Proof.Machine.execVmaxu d a b m s
  | .vand d a b m => Sys2Proof.Machine.execVand d a b m s
  | .vor d a b m => Sys2Proof.Machine.execVor d a b m s
  | .vxor d a b m => Sys2Proof.Machine.execVxor d a b m s
  | .vsll d a b m => Sys2Proof.Machine.execVsll d a b m s
  | .vsrl d a b m => Sys2Proof.Machine.execVsrl d a b m s
  | .vsra d a b m => Sys2Proof.Machine.execVsra d a b m s
  | .vsadd d a b m => Sys2Proof.Machine.execVsadd d a b m s
  | .vssub d a b m => Sys2Proof.Machine.execVssub d a b m s
  | .veq d a b m => Sys2Proof.Machine.execVeq d a b m s
  | .vne d a b m => Sys2Proof.Machine.execVne d a b m s
  | .vlt d a b m => Sys2Proof.Machine.execVlt d a b m s
  | .vltu d a b m => Sys2Proof.Machine.execVltu d a b m s
  | .vle d a b m => Sys2Proof.Machine.execVle d a b m s
  | .vleu d a b m => Sys2Proof.Machine.execVleu d a b m s
  | .vgt d a b m => Sys2Proof.Machine.execVgt d a b m s
  | .vgtu d a b m => Sys2Proof.Machine.execVgtu d a b m s
  | .vcvfI d a m => Sys2Proof.Machine.execVcvfI d a m s
  | .vcviF d a m => Sys2Proof.Machine.execVcviF d a m s
  | .vcviFz d a m => Sys2Proof.Machine.execVcviFz d a m s
  | .vrndb d a m => Sys2Proof.Machine.execVrndb d a m s
  | .vflr d a m => Sys2Proof.Machine.execVflr d a m s
  | .vfrac d a m => Sys2Proof.Machine.execVfrac d a m s
  | .vexpn d a m => Sys2Proof.Machine.execVexpn d a m s
  | .vldexp d a b m => Sys2Proof.Machine.execVldexp d a b m s
  | .vsumO d a m => Sys2Proof.Machine.execVsumO d a m s
  | .vsumU d a m => Sys2Proof.Machine.execVsumU d a m s
  | .vdotO d a b m => Sys2Proof.Machine.execVdotO d a b m s
  | .vmaxr d a m => Sys2Proof.Machine.execVmaxr d a m s
  | .vminr d a m => Sys2Proof.Machine.execVminr d a m s
  | .visum d a m => Sys2Proof.Machine.execVisum d a m s
  | .vscanO d a b m => Sys2Proof.Machine.execVscanO d a b m s
  | .vscanU d a b m => Sys2Proof.Machine.execVscanU d a b m s
  | .vslup d a b m => Sys2Proof.Machine.execVslup d a b m s
  | .vsldn d a b m => Sys2Proof.Machine.execVsldn d a b m s
  | .vperm d a b m => Sys2Proof.Machine.execVperm d a b m s
  | .vcomp d a b => Sys2Proof.Machine.execVcomp d a b s
  | .viota d a m => Sys2Proof.Machine.execViota d a m s
  | .vmerge d a b m => Sys2Proof.Machine.execVmerge d a b m s
  | .vmvVv d a m => Sys2Proof.Machine.execVmvVv d a m s
  | .vmvVsVi d b m => Sys2Proof.Machine.execVmvVsVi d b m s
  | .vext d a b => Sys2Proof.Machine.execVext d a b s
  | .mand d a b m => Sys2Proof.Machine.execMand d a b m s
  | .mor d a b m => Sys2Proof.Machine.execMor d a b m s
  | .mxor d a b m => Sys2Proof.Machine.execMxor d a b m s
  | .mandn d a b m => Sys2Proof.Machine.execMandn d a b m s
  | .mnot d a m => Sys2Proof.Machine.execMnot d a m s
  | .mset d m => Sys2Proof.Machine.execMset d m s
  | .mclr d m => Sys2Proof.Machine.execMclr d m s
  | .mfromv d a m => Sys2Proof.Machine.execMfromv d a m s
  | .grant d a c => Sys2Proof.Machine.execGrant d a c s
  | .grantx d a b => Sys2Proof.Machine.execGrantx d a b s
  | .vldu st d a u m t => Sys2Proof.Machine.execVldu st d a u m t s
  | .vlds st d a b m t => Sys2Proof.Machine.execVlds st d a b m t s
  | .vldx st d a b m t => Sys2Proof.Machine.execVldx st d a b m t s
  | .vldm st d a n m t => Sys2Proof.Machine.execVldm st d a n m t s
  | .vstu st d a m t => Sys2Proof.Machine.execVstu st d a m t s
  | .vsts st d a b m t => Sys2Proof.Machine.execVsts st d a b m t s
  | .vstx st d a b m t => Sys2Proof.Machine.execVstx st d a b m t s
  | .vstm st d a n m t => Sys2Proof.Machine.execVstm st d a n m t s
  | .vaaddO st d a b m => Sys2Proof.Machine.execVaaddO st d a b m s
  | .vaaddU st d a b m => Sys2Proof.Machine.execVaaddU st d a b m s
  | .vaaddi st d a b m => Sys2Proof.Machine.execVaaddi st d a b m s
  | .vamaxi st d a b m => Sys2Proof.Machine.execVamaxi st d a b m s
  | .vamini st d a b m => Sys2Proof.Machine.execVamini st d a b m s
  | .vaswp st d a b m => Sys2Proof.Machine.execVaswp st d a b m s
  | .vaor st d a b m => Sys2Proof.Machine.execVaor st d a b m s
  | .vaand st d a b m => Sys2Proof.Machine.execVaand st d a b m s
  | .amoadd d a b c => Sys2Proof.Machine.execAmoadd d a b c s
  | .amoswp d a b c => Sys2Proof.Machine.execAmoswp d a b c s
  | .amocas d a b c => Sys2Proof.Machine.execAmocas d a b c s
  | .amomax d a b c => Sys2Proof.Machine.execAmomax d a b c s
  | .ldacq d a c => Sys2Proof.Machine.execLdacq d a c s
  | .strel a b c => Sys2Proof.Machine.execStrel a b c s
  | .fence c => Sys2Proof.Machine.execFence c s
  | .sbar k c => Sys2Proof.Machine.execSbar k c s
  | .vldc st d a b m => Sys2Proof.Machine.execVldc st d a b m s
  | .vstc st d a b m => Sys2Proof.Machine.execVstc st d a b m s
  | .vacadO st d a b m => Sys2Proof.Machine.execVacadO st d a b m s
  | .vacadU st d a b m => Sys2Proof.Machine.execVacadU st d a b m s
  | .vprbc st d a b m => Sys2Proof.Machine.execVprbc st d a b m s
  | .vclbinv st a b => Sys2Proof.Machine.execVclbinv st a b s
  | .vsetvol st a b => Sys2Proof.Machine.execVsetvol st a b s
  | .tlblock d a b => Sys2Proof.Machine.execTlblock d a b s
  | .tlbunlk a => Sys2Proof.Machine.execTlbunlk a s
  | .tlbprb d a => Sys2Proof.Machine.execTlbprb d a s
  | .mattach d a => Sys2Proof.Machine.execMattach d a s
  | .msetvl d a => Sys2Proof.Machine.execMsetvl d a s
  | .mzero d => Sys2Proof.Machine.execMzero d s
  | .mknot d a b => Sys2Proof.Machine.execMknot d a b s
  | .mgsel d a b => Sys2Proof.Machine.execMgsel d a b s
  | .mresc d b => Sys2Proof.Machine.execMresc d b s
  | .troww d a b => Sys2Proof.Machine.execTroww d a b s
  | .trowr d a b => Sys2Proof.Machine.execTrowr d a b s
  | .tcolw d a b => Sys2Proof.Machine.execTcolw d a b s
  | .tcolr d a b => Sys2Proof.Machine.execTcolr d a b s
  | .aextr d a b => Sys2Proof.Machine.execAextr d a b s
  | .aextc d a b => Sys2Proof.Machine.execAextc d a b s
  | .ainsr d a b => Sys2Proof.Machine.execAinsr d a b s
  | .tzero d => Sys2Proof.Machine.execTzero d s
  | .mldc d a b => Sys2Proof.Machine.execMldc d a b s
  | .mstc d a b => Sys2Proof.Machine.execMstc d a b s
  | .mrefn d => Sys2Proof.Machine.execMrefn d s
  | .mma d a m => Sys2Proof.Machine.execMma d a m s
  | .mspld d a b => Sys2Proof.Machine.execMspld d a b s
  | .mopa d a b => Sys2Proof.Machine.execMopa d a b s
  | .msplg d a b => Sys2Proof.Machine.execMsplg d a b s
  | .tmma d a m pair chunks clr => Sys2Proof.Machine.execTmma d a m pair chunks clr s
  | .tsplf d a m pair chunks clr => Sys2Proof.Machine.execTsplf d a m pair chunks clr s
  | .tspld d a pair chunks clr => Sys2Proof.Machine.execTspld d a pair chunks clr s
  | .topa d a pair chunks kbase clr => Sys2Proof.Machine.execTopa d a pair chunks kbase clr s
  | .tsplg d a pair chunks kbase clr => Sys2Proof.Machine.execTsplg d a pair chunks kbase clr s
  | .tldc d a chunks knot kbase => Sys2Proof.Machine.execTldc d a chunks knot kbase s
  | .tstc d a chunks kbase => Sys2Proof.Machine.execTstc d a chunks kbase s
  | .ecopy q d a u k p => Sys2Proof.Machine.execEcopy q d a u k p s
  | .ecoll q d a p => Sys2Proof.Machine.execEcoll q d a p s
  | .epub a c => Sys2Proof.Machine.execEpub a c s
  | .ewait a => Sys2Proof.Machine.execEwait a s
  | .epoll d a => Sys2Proof.Machine.execEpoll d a s
  | .esig d a b => Sys2Proof.Machine.execEsig d a b s
  | .uimask d a => Sys2Proof.Machine.execUimask d a s
  | .uiraise a => Sys2Proof.Machine.execUiraise a s
  | .cAddi d im => Sys2Proof.Machine.execCAddi d im s
  | .cLi d im => Sys2Proof.Machine.execCLi d im s
  | .cLd d im => Sys2Proof.Machine.execCLd d im s
  | .cSd d im => Sys2Proof.Machine.execCSd d im s
  | .cLw d im => Sys2Proof.Machine.execCLw d im s
  | .cSw d im => Sys2Proof.Machine.execCSw d im s
  | .cMv d a => Sys2Proof.Machine.execCMv d a s
  | .cAdd d a => Sys2Proof.Machine.execCAdd d a s
  | .cSub d a => Sys2Proof.Machine.execCSub d a s
  | .cGrant d a => Sys2Proof.Machine.execCGrant d a s
  | .cJ o => Sys2Proof.Machine.execCJ o s
  | .cBeqz a o => Sys2Proof.Machine.execCBeqz a o s
  | .cBnez a o => Sys2Proof.Machine.execCBnez a o s
  | .nop => Sys2Proof.Machine.execNop s
  | .ecall => Sys2Proof.Machine.execEcall s
  | .ebreak => Sys2Proof.Machine.execEbreak s
  | .tret => Sys2Proof.Machine.execTret s
  | .wfi => Sys2Proof.Machine.execWfi s
  | .cvy => Sys2Proof.Machine.execCvy s
  | .fencei => Sys2Proof.Machine.execFencei s
  | .lexit => Sys2Proof.Machine.execLexit s
  | .sclose => Sys2Proof.Machine.execSclose s
  | .mdetach => Sys2Proof.Machine.execMdetach s
  | .uiret => Sys2Proof.Machine.execUiret s
  | .uiwait => Sys2Proof.Machine.execUiwait s
  | .cNop => Sys2Proof.Machine.execCNop s
  | .cSclose => Sys2Proof.Machine.execCSclose s
  | .cCvy => Sys2Proof.Machine.execCCvy s
  | .govctlWrite core value => Sys2Proof.Machine.execGovctlWrite core value s
  | .knotRegisterWrite reg value => Sys2Proof.Machine.execKnotRegisterWrite reg value s
  | .rgntabWrite part value => Sys2Proof.Machine.execRgntabWrite part value s
  | .xlat2Write value => Sys2Proof.Machine.execXlat2Write value s
  | .illegalEncoding => Sys2Proof.Machine.execIllegalEncoding s
  | .codeArrivalTimeout hart => Sys2Proof.Machine.execCodeArrivalTimeout hart s
  | .grantRevocation victim left => Sys2Proof.Machine.execGrantRevocation victim left s
  | .grantWaitEnd hart => Sys2Proof.Machine.execGrantWaitEnd hart s
  | .governorRevision allocation => Sys2Proof.Machine.execGovernorRevision allocation s
  | .revocationProtectionExpiry hart => Sys2Proof.Machine.execRevocationProtectionExpiry hart s
  | .preemptionRequest hart => Sys2Proof.Machine.execPreemptionRequest hart s
  | .preemptionExpiry hart => Sys2Proof.Machine.execPreemptionExpiry hart s
  | .contextRestore hart => Sys2Proof.Machine.execContextRestore hart s
  | .userInterruptEntry hart => Sys2Proof.Machine.execUserInterruptEntry hart s
  | .wfiWake hart => Sys2Proof.Machine.execWfiWake hart s
  | .engineQueueStallEnd hart => Sys2Proof.Machine.execEngineQueueStallEnd hart s
  | .ewaitResume hart => Sys2Proof.Machine.execEwaitResume hart s
  | .ecopyCompletion hart queue => Sys2Proof.Machine.execEcopyCompletion hart queue s
  | .collectiveFormation hart queue members => Sys2Proof.Machine.execCollectiveFormation hart queue members s
  | .ecollCompletion hart queue => Sys2Proof.Machine.execEcollCompletion hart queue s
  | .collectiveFailureReport hart queue cause => Sys2Proof.Machine.execCollectiveFailureReport hart queue cause s
  | .esigWrite hart queue => Sys2Proof.Machine.execEsigWrite hart queue s
  | .engineErrorCompletion hart queue cause va => Sys2Proof.Machine.execEngineErrorCompletion hart queue cause va s
  | .engineSourceTranslationFault hart queue va => Sys2Proof.Machine.execEngineSourceTranslationFault hart queue va s
  | .engineTranslationResolved hart queue refused => Sys2Proof.Machine.execEngineTranslationResolved hart queue refused s
  | .firstStageInvalidation part root lo hi => Sys2Proof.Machine.execFirstStageInvalidation part root lo hi s
  | .secondStageInvalidation part lo hi => Sys2Proof.Machine.execSecondStageInvalidation part lo hi s
  | .remoteRequestArrival request => Sys2Proof.Machine.execRemoteRequestArrival request s
  | .remoteEcopyArrival copy => Sys2Proof.Machine.execRemoteEcopyArrival copy s
  | .remoteRejectionArrival rejection => Sys2Proof.Machine.execRemoteRejectionArrival rejection s
  | .fabricGrantInstall grant => Sys2Proof.Machine.execFabricGrantInstall grant s
  | .fabricGrantWithdraw grant => Sys2Proof.Machine.execFabricGrantWithdraw grant s
  | .flitCrcFailure link => Sys2Proof.Machine.execFlitCrcFailure link s
  | .linkDown link => Sys2Proof.Machine.execLinkDown link s
  | .linkLaneRetrain link => Sys2Proof.Machine.execLinkLaneRetrain link s
  | .pathLoss node => Sys2Proof.Machine.execPathLoss node s
  | .pathRestored node links => Sys2Proof.Machine.execPathRestored node links s
  | .strtailWrite fn stream value => Sys2Proof.Machine.execStrtailWrite fn stream value s
  | .strctlWrite fn stream value => Sys2Proof.Machine.execStrctlWrite fn stream value s
  | .strstatStoppedClear fn stream value => Sys2Proof.Machine.execStrstatStoppedClear fn stream value s
  | .streamRegisterWrite fn stream offset value => Sys2Proof.Machine.execStreamRegisterWrite fn stream offset value s
  | .ringSlotFetch fn stream => Sys2Proof.Machine.execRingSlotFetch fn stream s
  | .launch fn stream => Sys2Proof.Machine.execLaunch fn stream s
  | .launchDeferredBegin launch => Sys2Proof.Machine.execLaunchDeferredBegin launch s
  | .workgroupHandoff launch hart => Sys2Proof.Machine.execWorkgroupHandoff launch hart s
  | .launchCompletion launch => Sys2Proof.Machine.execLaunchCompletion launch s
  | .launchFaultedEnd launch hart => Sys2Proof.Machine.execLaunchFaultedEnd launch hart s
  | .waitv fn stream => Sys2Proof.Machine.execWaitv fn stream s
  | .waitvPoll fn stream => Sys2Proof.Machine.execWaitvPoll fn stream s
  | .waitvTimeout fn stream => Sys2Proof.Machine.execWaitvTimeout fn stream s
  | .signal fn stream => Sys2Proof.Machine.execSignal fn stream s
  | .copyData fn stream => Sys2Proof.Machine.execCopyData fn stream s
  | .copyObjectLoad fn stream => Sys2Proof.Machine.execCopyObjectLoad fn stream s
  | .segmentRecordArrival object frame => Sys2Proof.Machine.execSegmentRecordArrival object frame s
  | .copyObjectRelease fn stream => Sys2Proof.Machine.execCopyObjectRelease fn stream s
  | .objectReleaseCompletion fn stream => Sys2Proof.Machine.execObjectReleaseCompletion fn stream s
  | .commandFence fn stream => Sys2Proof.Machine.execCommandFence fn stream s
  | .serviceWindowExpiry donor recipient core => Sys2Proof.Machine.execServiceWindowExpiry donor recipient core s
  | .vaultZeroCompletion core => Sys2Proof.Machine.execVaultZeroCompletion core s
  | .partitionCreate request => Sys2Proof.Machine.execPartitionCreate request s
  | .partitionDestroy part => Sys2Proof.Machine.execPartitionDestroy part s
  | .partitionResize part cores => Sys2Proof.Machine.execPartitionResize part cores s
  | .timeShareSwitch part => Sys2Proof.Machine.execTimeShareSwitch part s
  | .partitionTeardown part => Sys2Proof.Machine.execPartitionTeardown part s
  | .functionLevelReset fn => Sys2Proof.Machine.execFunctionLevelReset fn s
  | .hbmPatrolScrub stack => Sys2Proof.Machine.execHbmPatrolScrub stack s
  | .vaultPatrolScrub core => Sys2Proof.Machine.execVaultPatrolScrub core s
  | .rowRemap unit bank row => Sys2Proof.Machine.execRowRemap unit bank row s
  | .laneSliceRetire core slice => Sys2Proof.Machine.execLaneSliceRetire core slice s
  | .arrayTileRowRetire cluster row => Sys2Proof.Machine.execArrayTileRowRetire cluster row s
  | .coreRetire core => Sys2Proof.Machine.execCoreRetire core s
  | .boot die => Sys2Proof.Machine.execBoot die s
  | .firmwareUpdate die husk image signature => Sys2Proof.Machine.execFirmwareUpdate die husk image signature s
  | .attestationQuote nonce => Sys2Proof.Machine.execAttestationQuote nonce s
  | .envelopeChange part watts => Sys2Proof.Machine.execEnvelopeChange part watts s
  | .engineQueueFreeze hart queue va => Sys2Proof.Machine.execEngineQueueFreeze hart queue va s

end Sys2Proof.Machine
end

