-- ==== Sys2Proof/Machine/Upset.lean ====
section
/-! DEFINITION. Registers and matrix state with an error (spec/20 R305, R306): what an instruction reads of them, what a
corrected error leaves in the counts, and what happens when a scalar register cannot be read. -/

namespace Sys2Proof.Machine

/-! ### What an instruction reads -/

/-- The scalar register of a second operand. -/
def BOp.scalars (b : BOp) : List (BitVec 5) :=
  match b with
  | .vs n => [n]
  | _ => []

/-- The registers that a checkpoint copies (R117). -/
def checkpointed : List (BitVec 5) := (List.range 32).map (BitVec.ofNat 5)

/-- The scalar registers that an instruction reads as operands. A GRANT copies all of them. -/
def Instr.scalarReads (i : Instr) : List (BitVec 5) :=
  match i with
  | .add _ a b | .sub _ a b | .and _ a b | .or _ a b | .xor _ a b | .sll _ a b | .srl _ a b | .sra _ a b | .slt _ a b
    | .sltu _ a b | .mul _ a b | .mulh _ a b | .mulhu _ a b | .div _ a b | .divu _ a b | .rem _ a b | .remu _ a b
    | .min _ a b | .max _ a b | .minu _ a b | .maxu _ a b | .amoadd _ a b _ | .amoswp _ a b _ | .amomax _ a b _
    | .mknot _ a b | .mgsel _ a b | .strel a b _ => [a, b]
  | .amocas d a b _ | .tlblock d a b | .esig d a b => [d, a, b]
  | .clz _ a | .ctz _ a | .popc _ a | .msetvl _ a | .mattach _ a | .tlbprb _ a | .epoll _ a | .uimask _ a | .cMv _ a
    | .addi _ a _ | .andi _ a _ | .ori _ a _ | .xori _ a _ | .slli _ a _ | .srli _ a _ | .srai _ a _ | .slti _ a _
    | .lb _ a _ | .lh _ a _ | .lw _ a _ | .ld _ a _ | .lbu _ a _ | .lhu _ a _ | .lwu _ a _ | .jalr _ a _ | .csrw _ a _
    | .csrs _ a _ | .csrc _ a _ | .beqz a _ | .bnez a _ | .bltz a _ | .bgez a _ | .bgtz a _ | .blez a _ | .bbs a _
    | .bbc a _ | .jr a _ | .loop a _ | .epub a _ | .cBeqz a _ | .cBnez a _ | .tlbunlk a | .ewait a | .uiraise a
    | .ldacq _ a _ | .vclbinv _ a _ | .vsetvol _ a _ | .ecopy _ _ a _ _ _ | .ecoll _ _ a _ | .vldu _ _ a _ _ _
    | .vldx _ _ a _ _ _ | .vldm _ _ a _ _ _ | .vstu _ _ a _ _ | .vstx _ _ a _ _ _ | .vstm _ _ a _ _ _
    | .vaaddO _ _ a _ _ | .vaaddU _ _ a _ _ | .vaaddi _ _ a _ _ | .vamaxi _ _ a _ _ | .vamini _ _ a _ _
    | .vaswp _ _ a _ _ | .vaor _ _ a _ _ | .vaand _ _ a _ _ => [a]
  | .lih d _ | .lix d _ | .liy d _ | .vsumO d _ _ | .vsumU d _ _ | .vmaxr d _ _ | .vminr d _ _ | .visum d _ _
    | .vdotO d _ _ _ | .cAddi d _ => [d]
  | .sb d a _ | .sh d a _ | .sw d a _ | .sd d a _ | .cAdd d a | .cSub d a => [d, a]
  | .vaddF _ _ b _ | .vsubF _ _ b _ | .vmulF _ _ b _ | .vdivF _ _ b _ | .vminF _ _ b _ | .vmaxF _ _ b _
    | .vsgnjF _ _ b _ | .vfma _ _ b _ | .vfms _ _ b _ | .vfnma _ _ b _ | .vfnms _ _ b _ | .vfeq _ _ b _
    | .vfne _ _ b _ | .vflt _ _ b _ | .vfle _ _ b _ | .vfgt _ _ b _ | .vfge _ _ b _ | .vfuo _ _ b _ | .vadd _ _ b _
    | .vsub _ _ b _ | .vmul _ _ b _ | .vmulh _ _ b _ | .vmin _ _ b _ | .vmax _ _ b _ | .vminu _ _ b _ | .vmaxu _ _ b _
    | .vand _ _ b _ | .vor _ _ b _ | .vxor _ _ b _ | .vsll _ _ b _ | .vsrl _ _ b _ | .vsra _ _ b _ | .vsadd _ _ b _
    | .vssub _ _ b _ | .veq _ _ b _ | .vne _ _ b _ | .vlt _ _ b _ | .vltu _ _ b _ | .vle _ _ b _ | .vleu _ _ b _
    | .vgt _ _ b _ | .vgtu _ _ b _ | .vldexp _ _ b _ | .vslup _ _ b _ | .vsldn _ _ b _ | .vmerge _ _ b _
    | .vmvVsVi _ b _ | .mresc _ b | .troww _ _ b | .trowr _ _ b | .tcolw _ _ b | .tcolr _ _ b | .aextr _ _ b
    | .aextc _ _ b | .ainsr _ _ b => BOp.scalars b
  | .vscanO _ _ b _ | .vscanU _ _ b _ | .mtos _ _ b | .vext _ _ b | .mldc _ _ b | .mstc _ _ b => [b]
  | .vlds _ _ a b _ _ | .vsts _ _ a b _ _ => [a, b]
  | .tmma _ a _ pair _ _ | .tsplf _ a _ pair _ _ | .tspld _ a pair _ _ | .topa _ a pair _ _ _ | .tsplg _ a pair _ _ _ =>
    [a, a + 1, pair, pair + 1]
  | .tldc _ a _ _ _ | .tstc _ a _ _ => [a, a + 1]
  | .cLd _ _ | .cLw _ _ => [30]
  | .cSd d _ | .cSw d _ => [30, d]
  | .grant _ _ _ | .grantx _ _ _ | .cGrant _ _ => checkpointed
  | _ => []

/-- Accumulators of the pending bank that a macro-operation adds to; its CLR form clears them first. -/
def State.accsUse (s : State) (clr : Bool) (accs : List Nat) : List Use :=
  if clr && s.firstStep == 0 then [] else accs.flatMap fun n => accUse (BitVec.ofNat 5 n) 0

/-- The vector and mask registers and the parts of the matrix state that an instruction reads. -/
def State.unitsRead (s : State) (i : Instr) : List Use :=
  match i with
  | .vaddF _ a b m | .vsubF _ a b m | .vmulF _ a b m | .vdivF _ a b m | .vminF _ a b m | .vmaxF _ a b m
    | .vsgnjF _ a b m | .vfeq _ a b m | .vfne _ a b m | .vflt _ a b m | .vfle _ a b m | .vfgt _ a b m | .vfge _ a b m
    | .vfuo _ a b m | .vadd _ a b m | .vsub _ a b m | .vmul _ a b m | .vmulh _ a b m | .vmin _ a b m | .vmax _ a b m
    | .vminu _ a b m | .vmaxu _ a b m | .vand _ a b m | .vor _ a b m | .vxor _ a b m | .vsll _ a b m | .vsrl _ a b m
    | .vsra _ a b m | .vsadd _ a b m | .vssub _ a b m | .veq _ a b m | .vne _ a b m | .vlt _ a b m | .vltu _ a b m
    | .vle _ a b m | .vleu _ a b m | .vgt _ a b m | .vgtu _ a b m | .vldexp _ a b m | .vslup _ a b m | .vsldn _ a b m
    | .vmerge _ a b m => s.vUse a 1 ++ s.bUse b ++ pUse m
  | .vfma d a b m | .vfms d a b m | .vfnma d a b m | .vfnms d a b m => s.vUse d 0 ++ s.vUse a 1 ++ s.bUse b ++ pUse m
  | .vabsF _ a m | .vsqrt _ a m | .vrsq _ a m | .vrcp _ a m | .vnegF _ a m | .vfcls _ a m | .vcvfI _ a m
    | .vcviF _ a m | .vcviFz _ a m | .vrndb _ a m | .vflr _ a m | .vfrac _ a m | .vexpn _ a m | .vmvVv _ a m
    | .vsumO _ a m | .vsumU _ a m | .vmaxr _ a m | .vminr _ a m | .visum _ a m | .mfromv _ a m | .vscanO _ a _ m
    | .vscanU _ a _ m => s.vUse a 1 ++ pUse m
  | .vdotO _ a b m | .vperm _ a b m => s.vUse a 1 ++ s.vUse b 2 ++ pUse m
  | .vcomp _ a b => s.vUse a 1 ++ mUse b 2
  | .viota _ a m | .mnot _ a m => mUse a 1 ++ pUse m
  | .vext _ a _ | .troww _ a _ | .tcolw _ a _ | .ainsr _ a _ => s.vUse a 1
  | .mand _ a b m | .mor _ a b m | .mxor _ a b m | .mandn _ a b m => mUse a 1 ++ mUse b 2 ++ pUse m
  | .mpopc _ a | .mfirst _ a | .many _ a | .mall _ a | .mtos _ a _ => mUse a 1
  | .mset _ m | .mclr _ m | .vmvVsVi _ _ m | .vldu _ _ _ _ m _ | .vlds _ _ _ _ m _ | .vldm _ _ _ _ m _ => pUse m
  | .vldx _ _ _ b m _ => s.vUse b 2 ++ pUse m
  | .vstu _ d _ m _ | .vsts _ d _ _ m _ | .vstm _ d _ _ m _ => s.vUse d 0 ++ pUse m
  | .vstx _ d _ b m _ | .vaaddO _ d _ b m | .vaaddU _ d _ b m | .vaaddi _ d _ b m | .vamaxi _ d _ b m
    | .vamini _ d _ b m | .vaswp _ d _ b m | .vaor _ d _ b m | .vaand _ d _ b m => s.vUse d 0 ++ s.vUse b 2 ++ pUse m
  | .vldc _ _ a _ m | .vprbc _ _ a _ m => s.coordUse a ++ pUse m
  | .vstc _ d a _ m | .vacadO _ d a _ m | .vacadU _ d a _ m => s.vUse d 0 ++ s.coordUse a ++ pUse m
  | .csrr _ c | .csrw _ _ c | .csrs _ _ c | .csrc _ _ c => knotUse c
  | .mresc d _ => accUse d 0
  | .trowr _ a _ | .tcolr _ a _ | .mldc _ a _ => tUse a 1
  | .aextr _ a _ | .aextc _ a _ => accUse a 1
  | .mstc _ a _ => slotPlaneUse a.toNat a 1
  | .mrefn d => cellsUse d 0
  | .mma d a m => tUse a 1 ++ pUse m ++ cellsUse d 0 ++ accUse d 0
  | .mspld d a b => tUse a 1 ++ tUse b 2 ++ cellsUse d 0 ++ accUse d 0
  | .mopa d a b => tUse a 1 ++ tUse b 2 ++ accUse d 0
  | .msplg d a b => tUse d 0 ++ tUse a 1 ++ tUse b 2 ++ knotsUse d 0
  | .tmma d _ m _ _ clr => pUse m ++ s.accsUse clr [d.toNat]
  | .tsplf d _ m _ _ clr => pUse m ++ knotsUse d 0 ++ s.accsUse clr [d.toNat]
  | .tspld d _ _ chunks clr => cellsUse d 0 ++ s.accsUse clr ((List.range chunks.toNat).map fun q => d.toNat + q)
  | .topa d _ _ _ _ clr => s.accsUse clr [d.toNat]
  | .tsplg d _ _ _ _ clr => knotsUse d 0 ++ s.accsUse clr [d.toNat]
  | .tstc d _ chunks _ => (List.range chunks.toNat).flatMap fun q => slotPlaneUse (d.toNat + q) d 0
  | _ => []

/-! ### Errors that a read corrects (R305) -/

/-- The cells that an instruction reads. -/
def State.cellsRead (s : State) (i : Instr) : List Nat :=
  ((Instr.scalarReads i).filter (fun n => n != 0)).map BitVec.toNat ++ (s.unitsRead i).flatMap fun u => s.unitCells u.unit

/-- The errors that the reads of an instruction correct, counted when it is issued (DESIGN CHOICE, log 85). -/
def State.corrected (s : State) (i : Instr) : State := s.correctCells ((s.cellsRead i).eraseDups.filter s.cellWeak)

/-! ### Scalar registers that cannot be read (R306) -/

/-- The first register that an instruction reads and that is uncorrectable. -/
def State.spoiltRegister (s : State) (i : Instr) : Option (BitVec 5) :=
  (Instr.scalarReads i).find? fun n => n != 0 && s.hart.upsets.scalar.getLsbD n.toNat

/-- An instruction meets an uncorrectable scalar register: in an open strip the strip is aborted, which restores the
register from the checkpoint; outside one it is fault 0x11. -/
def registerFault (s : State) (n : BitVec 5) : Out :=
  if s.stripOpen then faulted s replayFault else faulted (s.logError s.coreRecord) (operandFault 0x11 n 7)

end Sys2Proof.Machine
end

