-- ==== Sys2Proof/Machine/Issue.lean ====
section
/-! DEFINITION. Fetch and issue: the parcels at the pc, the faults of fetch and of the encoding, and the turn of a hart
(spec/03 R59, R60, R70; spec/01 R13, R28; spec/05 R93; spec/16 R252, R254, R259). -/

namespace Sys2Proof.Machine

/-! ### Fetch (R60) -/

/-- Why a parcel cannot be fetched. -/
inductive FetchStop where
  /-- it has not arrived -/
  | held (va : Word)
  | fault (f : FaultInfo)
deriving DecidableEq, Repr

/-- The agent of fetch: a locked translation that was removed is no source for it, and no access to it (R135, R211). -/
def State.fetcher (s : State) : Agent :=
  { s.self with locks := tmap (fun _ r => { r with trans := r.trans.filter Prod.snd }) s.hart.locks }

/-- The parcel at an address. Vault space and skim regions hold no code segment. -/
def State.fetchParcel (s : State) (va : Word) : State × Except FetchStop Half :=
  let fault (c : BitVec 8) : Except FetchStop Half := .error (.fault (elementFault c 0 va (scalarInfo false 0)))
  if inVaultSpace va || (s.regionAt s.hart.ctl.part s.hart.sup.xlat2 va).isSome then (s, fault 0x07)
  else
    let (t, p) := s.reachAddr s.fetcher va .fetch
    match p with
    | .hit h =>
      (t.noteRead h.loc 2, if s.unreadable h.loc 2 then fault 0x11 else .ok (BitVec.ofNat 16 (s.readNat h.loc 2)))
    | .held => (t, .error (.held va))
    | .outside => (t, fault 0x12)
    | .fault _ => (t, fault 0x07)

/-- n parcels from an address on, the lowest-addressed one that stops deciding. -/
def State.fetchParcels (s : State) : Nat → Word → State × Except FetchStop (List Half)
  | 0, _ => (s, .ok [])
  | n + 1, va =>
    match s.fetchParcel va with
    | (t, .error e) => (t, .error e)
    | (t, .ok p) =>
      match t.fetchParcels n (va + 2) with
      | (u, .error e) => (u, .error e)
      | (u, .ok r) => (u, .ok (p :: r))

/-- Parcels that follow a first parcel (R59). -/
def moreParcels (p : Half) : Nat := if p.extractLsb' 14 2 ≠ 3#2 then 0 else if p.extractLsb' 13 1 = 0#1 then 1 else 3

/-- The parcels of the instruction at the pc. -/
def State.fetch (s : State) : State × Except FetchStop (List Half) :=
  match s.fetchParcel s.hart.pc with
  | (t, .error e) => (t.drawn, .error e)
  | (t, .ok p) =>
    match t.fetchParcels (moreParcels p) (s.hart.pc + 2) with
    | (u, .error e) => (u.drawn, .error e)
    | (u, .ok r) => (u.drawn, .ok (p :: r))

/-! ### Loop ends (R93) -/

/-- The control transfers of R93. -/
def Instr.transfers (i : Instr) : Bool :=
  match i with
  | .beqz _ _ => true
  | .bnez _ _ => true
  | .bltz _ _ => true
  | .bgez _ _ => true
  | .bgtz _ _ => true
  | .blez _ _ => true
  | .bbs _ _ => true
  | .bbc _ _ => true
  | .j _ => true
  | .jal _ => true
  | .jalr _ _ _ => true
  | .jr _ _ => true
  | .cJ _ => true
  | .cBeqz _ _ => true
  | .cBnez _ _ => true
  | .ecall => true
  | .ebreak => true
  | .tret => true
  | _ => false

/-- The instruction of n bytes at p stands where fault 0x0E is raised for the loop. -/
def Loop.cut (l : Loop) (p : Word) (n : Nat) (transfers : Bool) : Bool :=
  (decide (p.toNat < l.stop.toNat) && decide (l.stop.toNat < p.toNat + n)) ||
  (transfers && decide (p.toNat + n = l.stop.toNat))

def State.loopEnd (s : State) (i : Instr) (n : Nat) : Bool := s.hart.loops.any fun l => l.cut s.hart.pc n (Instr.transfers i)

/-! ### Features (R69, R254, R259) -/

/-- The major of a compressed parcel's expansion, by its operation. -/
def expandedMajor (op : BitVec 5) : Nat :=
  match op.toNat with
  | 1 => 2
  | 2 => 2
  | 3 => 5
  | 4 => 7
  | 5 => 5
  | 6 => 7
  | 8 => 1
  | 9 => 1
  | 10 => 1
  | 11 => 26
  | 12 => 9
  | 13 => 8
  | 14 => 8
  | 17 => 26
  | _ => 0

/-- The major of an instruction's parcels, and the bits of capfeat1 it needs. -/
def features (ps : List Half) : Nat × BitVec 6 :=
  match ps with
  | [] => (0, 0)
  | [p] => (expandedMajor (cOp p), 1)
  | [p, q] =>
    let w : BitVec 32 := p ++ q
    let maj := (fMaj w).toNat
    let fmt := (fF w).toNat
    let bits : BitVec 6 :=
      if 27 ≤ maj && maj ≤ 34 then
        if 2 ≤ fmt && fmt ≤ 4 then 2 else if fmt = 5 then 4 else if fmt = 6 then 8 else 0
      else if maj = 42 && fmt = 1 then 16
      else if maj = 41 && fmt = 2 then 32
      else 0
    (maj, bits)
  | _ => (48, 0)

/-- Whether two feature words hold the features of some parcels. -/
def hasFeatures (w0 w1 : Word) (ps : List Half) : Bool :=
  let f := features ps
  w0.getLsbD f.1 && (f.2.setWidth 64 &&& ~~~w1) == 0

/-- At U the object's REQ words decide, at S the partition's capability registers. -/
def State.featured (s : State) (ps : List Half) : Bool :=
  if s.atUser then hasFeatures s.hart.ctl.req[0] s.hart.ctl.req[1] ps
  else
    let c := (s.partAt s.hart.ctl.part).caps
    hasFeatures c.feat0 c.feat1 ps

/-! ### Issue (R13, R28) -/

/-- The causes judged at issue, before any operand is read, in their order (R28 item 3, R240). -/
def issueCauses : List (BitVec 8) := [0x01, 0x02, 0x05, 0x06, 0x0F, 0x04, 0x03, 0x0B, 0x0C, 0x0D]

/-- The hart as it would be if each scalar register that cannot be read held a value. -/
def State.guess (s : State) (v : Word) : State :=
  let h := s.hart
  { s with hart := { h with
    regs := Vector.ofFn fun i => if h.upsets.scalar.getLsbD i.val then v else h.regs[i],
    upsets := { h.upsets with scalar := 0 }, record := { h.record with fcause := BitVec.allOnes 64 } } }

/-- The fault judged at issue that an instruction would take with a value in those registers, with its place in the order. -/
def State.guessed (s : State) (i : Instr) (v : Word) : Option (Nat × FaultInfo) :=
  match exec i (s.guess v) with
  | .next t =>
    let r := t.hart.record
    let c := r.fcause.extractLsb' 0 8
    (issueCauses.findIdx? fun k => k == c).map fun n =>
      (n, { cause := c, elem := r.felem.toNat, idx0 := r.fidx0, idx1 := r.fidx1, idx2 := r.fidx2, addr := r.faddr,
            coord := r.fcoord, info := r.finfo, deleg := false, replay := false })
  | _ => none

/-- The fault judged at issue that does not hang on what those registers hold: with each of three values there is one, and
the last of them in the order is it (DESIGN CHOICE, log 83). -/
def State.issueFault (s : State) (i : Instr) : Option FaultInfo :=
  let l := [0#64, 1#64, 0x1000000000#64].map (s.guessed i)
  if l.all Option.isSome then
    ((l.filterMap id).foldl (fun best p => match best with
      | some b => if b.1 < p.1 then some p else some b
      | none => some p) none).map Prod.snd
  else none

/-- An instruction that reads a scalar register that cannot be read. -/
def State.issueSpoilt (s : State) (i : Instr) (n : BitVec 5) : Out :=
  match s.issueFault i with
  | some f => faulted s f
  | none => registerFault s n

/-- Parcels that have been fetched decoded and executed (R28 items 2 and 3). -/
def State.execute (s : State) (ps : List Half) : Out :=
  match decodeParcels ps with
  | .error _ => execIllegalEncoding s
  | .ok (i, n) =>
    if s.loopEnd i n then faulted s (plainFault 0x0E)
    else if !s.featured ps then faulted s (plainFault 0x17)
    else
      match s.spoiltRegister i with
      | some n => s.issueSpoilt i n
      | none => exec i (s.corrected i)

/-- What the walks of an instruction leave in the counts and the log of errors: those that filled the TLB, and one that ended
in a page fault (R305; log 85). -/
def State.walkNotes (s t : State) : State :=
  let filled := (t.core.tlb.filter fun e => !s.core.tlb.contains e).map fun e => BitVec.ofNat 64 e.vbase
  let failed := if t.hart.record != s.hart.record && t.hart.record.fcause.extractLsb' 0 8 == 7#8 then [t.hart.record.faddr] else []
  (filled ++ failed).foldl (fun u va => u.noteWalk s.self va) t

/-- The hart in front issues the instruction at its pc. -/
def State.issueNext (s : State) : Out :=
  let out := match s.fetch with
    | (t, .error (.held va)) => waitAt t (.held va)
    | (t, .error (.fault f)) => faulted t f
    | (t, .ok ps) => t.execute ps
  match out with
  | .next t => .next (s.walkNotes t)
  | o => o

/-- A hart that waits tries its instruction again; WFI sees that it waited. -/
def State.retrying (s : State) : State :=
  match s.hart.run with
  | .waiting .wfi => s
  | .waiting _ => s.withRun .running
  | _ => s

/-- The turn of the hart in front: it installs the chunk of a walk under way, halts, takes a user interrupt, or
issues. -/
def State.issue (s : State) : Out :=
  if s.hart.live then
    match s.hart.claim with
    | some k => .next (s.install k)
    | none =>
      match s.haltDue with
      | some t => .next t
      | none =>
        match s.interrupt with
        | some t => .next t
        | none => s.retrying.issueNext
  else .next s

/-- A hart that issues, or opens its strip when it issues next (R185). -/
def RunState.ready (r : RunState) : Bool := r == .running || r == .waiting .granted

def State.otherRunning (s : State) : Option Nat :=
  (s.harts.find? fun h => decide (h.1 < Config.harts) && h.2.run.ready).map Prod.fst

/-- The next turn when nothing is prescribed: the hart in front while it runs; else an engine operation of it, another
hart that runs, or its waiting instruction once more. -/
def State.turn (s : State) : Out :=
  if s.hart.run.ready then s.issue
  else
    match s.engineTurn with
    | some t => .next t
    | none =>
      match s.otherRunning with
      | some h => .next (s.focus h)
      | none => s.issue

end Sys2Proof.Machine
end

