-- ==== Sys2Proof/Machine/Step.lean ====
section
/-! DEFINITION. The step: the turn that the agenda names, or the hart in front; and an instruction placed where it is
fetched. -/

namespace Sys2Proof.Machine

/-- One step of the machine. The agenda says which hart or agent moves next; without one the hart in front has its
turn. An event of the agenda is one of the table's rows that has no word. -/
def step (s : State) : Host.Outcome State Fault Refusal :=
  match s.agenda with
  | [] => s.turn
  | .hart h :: r =>
    if h < Config.harts then (({ s with agenda := r } : State).focus h).issue else .fault (.noSuchHart h)
  | .event i :: r => if i.hasWord then .next { s with agenda := r } else exec i { s with agenda := r }

/-! ### An instruction placed (R210, R300, R301) -/

/-- The pc, or the reset entry where no instruction can stand. -/
def fetchPc (pc : Word) : Word := if canonical pc && !inVaultSpace pc && !pc.getLsbD 0 then pc else resetEntry

/-- Where the tables go: in the half of the first stack that the instruction does not lie in. -/
def tableBase (pc : Word) : Nat := if pc.toNat % 2 ^ 36 < 2 ^ 35 then 2 ^ 35 else 2 ^ 20

/-- Entries of one table: index and value. -/
def tableWrites (pc : Word) : List (Nat × Nat) :=
  let b := tableBase pc
  [(b, b + 0x8000 + 1), (b + 0x8000, 15),
   (b + 0x10000 + 8 * (pc.toNat / 2 ^ 48 % 512), b + 0x18000 + 1), (b + 0x18000 + 8 * (pc.toNat / 2 ^ 36 % 4096), 15)]

/-- Doublewords written. -/
def writeDwords (m : Memory) : List (Nat × Nat) → Memory
  | [] => m
  | p :: r => writeDwords (writeCells m p.1 (leBytes 8 p.2)) r

/-- The partition's second stage and first stage as one page of 64 GiB each, which no translation found earlier hides,
the hart in front running at U, nothing prescribed, and the instruction at the pc. -/
def State.withFetchWord (s : State) (nbits w : Nat) : State :=
  let pc := fetchPc s.hart.pc
  let b := tableBase pc
  let part := s.hart.ctl.part
  let p := if (s.partAt part).hbm.getLsbD 0 then s.partAt part else .full
  let bytes := tableBytes nbits w
  let root (n : Nat) : Word := BitVec.ofNat 64 (2 ^ 63 + n)
  let h := s.hart
  { s with
    hart := { h with
      run := .running, priv := .user, pc := pc, sup := { h.sup with xlat1 := root (b + 0x10000), xlat2 := root b },
      ui := { h.ui with pendEq := 0, pendRaise := false }, ctl := { h.ctl with preempt := false },
      locks := [], claim := none },
    core := { s.core with tlb := [] },
    tlb2 := [],
    parts := tput s.parts part p,
    mem := writeCells (writeDwords s.mem (tableWrites pc)) (pc.toNat % 2 ^ 36) bytes,
    free := { s.free with pages := [] },
    agenda := [] }

end Sys2Proof.Machine
end

