-- ==== Sys2Proof/NumberClaims.lean ====
section
/-! DEFINITION. What the statements say of numbers (spec/02): values as rational numbers, the tables of formats, and rounding,
narrowing and sums by what they deliver, not by how the model computes it. -/

namespace Sys2Proof.Machine

/-! ### Values -/

/-- The magnitude of a finite value; 0 for the others. -/
def Num.mag : Num → Rat
  | .fin _ m e => (m : Rat) * (2 : Rat) ^ e
  | _ => 0

/-- A finite value with its sign; 0 for the others. -/
def Num.value (x : Num) : Rat := if x.isNeg then -x.mag else x.mag

/-- The distance of two numbers. -/
def gap (a b : Rat) : Rat := if a ≤ b then b - a else a - b

/-- z is the exact sum of x and y: a NaN with one, or for infinities of unlike sign; an infinity with one; else finite, a zero
sum being −0 only of two negative operands (R34). -/
def SumOf (x y z : Num) : Prop :=
  if x.isNan || y.isNan then z = .nan
  else if !x.isFinite && !y.isFinite then z = if x.isNeg = y.isNeg then x else .nan
  else if !x.isFinite then z = x
  else if !y.isFinite then z = y
  else z.isFinite = true ∧ z.value = x.value + y.value ∧ (z.mag = 0 → z.isNeg = (x.isNeg && y.isNeg))

/-! ### Formats (R36, R38, R43, R48) -/

/-- A floating-point format as the tables of R36, R38, R43 and R48 give it: the widths of its fields, its bias, its largest
finite magnitude and that one's pattern, the magnitude from which on RNE goes beyond it and whether that magnitude does so
itself, the pattern delivered then and for an infinity, the flags of an infinity narrowed, and the canonical NaN. -/
structure FormatRow where
  fmt : Fmt
  expBits : Nat
  fracBits : Nat
  bias : Nat
  top : Rat
  topPat : Nat
  limit : Rat
  tieOver : Bool
  overPat : Nat
  infFlags : FFlags
  nanPat : Nat

def rowF32 : FormatRow :=
  { fmt := fp32, expBits := 8, fracBits := 23, bias := 127, top := 2 ^ 128 - 2 ^ 104, topPat := 0x7F7FFFFF,
    limit := 2 ^ 128 - 2 ^ 103, tieOver := true, overPat := 0x7F800000, infFlags := 0, nanPat := 0x7FC00000 }
def rowBf16 : FormatRow :=
  { fmt := bf16, expBits := 8, fracBits := 7, bias := 127, top := 2 ^ 128 - 2 ^ 120, topPat := 0x7F7F,
    limit := 2 ^ 128 - 2 ^ 119, tieOver := true, overPat := 0x7F80, infFlags := 0, nanPat := 0x7FC0 }
def rowF16 : FormatRow :=
  { fmt := f16, expBits := 5, fracBits := 10, bias := 15, top := 65504, topPat := 0x7BFF,
    limit := 65520, tieOver := true, overPat := 0x7C00, infFlags := 0, nanPat := 0x7E00 }
def rowE4m3 : FormatRow :=
  { fmt := e4m3, expBits := 4, fracBits := 3, bias := 7, top := 448, topPat := 0x7E,
    limit := 464, tieOver := false, overPat := 0x7E, infFlags := flagNV ||| flagNX, nanPat := 0x7F }
def rowE5m2 : FormatRow :=
  { fmt := e5m2, expBits := 5, fracBits := 2, bias := 15, top := 57344, topPat := 0x7B,
    limit := 61440, tieOver := true, overPat := 0x7C, infFlags := 0, nanPat := 0x7E }
/-- E2M1 has neither infinities nor NaNs: a block that holds one is no narrowing (R41). -/
def rowE2m1 : FormatRow :=
  { fmt := e2m1, expBits := 2, fracBits := 1, bias := 1, top := 6, topPat := 0x7,
    limit := 7, tieOver := true, overPat := 0x7, infFlags := flagNV, nanPat := 0x7 }
def rowA48 : FormatRow :=
  { fmt := a48, expBits := 10, fracBits := 37, bias := 511, top := 2 ^ 512 - 2 ^ 474, topPat := 0x7FDFFFFFFFFF,
    limit := 2 ^ 512 - 2 ^ 473, tieOver := true, overPat := 0x7FE000000000, infFlags := 0, nanPat := 0x7FF000000000 }

def formatRows : List FormatRow := [rowF32, rowBf16, rowF16, rowE4m3, rowE5m2, rowE2m1, rowA48]

/-- Bits of a pattern. -/
def FormatRow.width (w : FormatRow) : Nat := 1 + w.expBits + w.fracBits

/-- A pattern with its sign. -/
def FormatRow.signed (w : FormatRow) (neg : Bool) (p : Nat) : Nat := (if neg then 2 ^ (w.width - 1) else 0) + p

/-- The smallest normal magnitude. -/
def FormatRow.minNormal (w : FormatRow) : Rat := (2 : Rat) ^ (1 - (w.bias : Int))

/-- The value a pattern stands for (R33, R36, R43). -/
def Stands (w : FormatRow) (p : Nat) (x : Num) : Prop :=
  let sign := decide (2 ^ (w.width - 1) ≤ p)
  let e := p / 2 ^ w.fracBits % 2 ^ w.expBits
  let m := p % 2 ^ w.fracBits
  let ones := 2 ^ w.expBits - 1
  let finite : Prop := x.isFinite = true ∧ x.isNeg = sign ∧
    x.mag = if e = 0 then (m : Rat) * (2 : Rat) ^ (1 - (w.bias : Int) - w.fracBits)
      else (2 ^ w.fracBits + m : Rat) * (2 : Rat) ^ ((e : Int) - w.bias - w.fracBits)
  if w.expBits = 2 then finite
  else if w.expBits = 4 then (if e = ones ∧ m = 7 then x = .nan else finite)
  else if e = ones then x = (if m = 0 then .inf sign else .nan)
  else finite

/-! ### Rounding (R10, R34, R38, R39, R48) -/

/-- NX and UF of a magnitude v delivered as q (R39). -/
def lossFlags (w : FormatRow) (v q : Rat) : FFlags :=
  if q = v then 0 else if 0 < v ∧ v < w.minNormal then flagNX ||| flagUF else flagNX

/-- A finite pattern of a sign and its magnitude. -/
def Grids (w : FormatRow) (neg : Bool) (p : Nat) (q : Rat) : Prop :=
  p < 2 ^ w.width ∧ (w.fmt.decode p).isFinite = true ∧ (w.fmt.decode p).isNeg = neg ∧ (w.fmt.decode p).mag = q

/-- A magnitude that RNE takes beyond the largest finite one. -/
def Beyond (w : FormatRow) (v : Rat) : Prop := w.limit < v ∨ v = w.limit ∧ w.tieOver = true

/-- A number of sign neg and magnitude v rounded to nearest, ties to the even pattern. -/
def Nearest (w : FormatRow) (neg : Bool) (v : Rat) (r : Rounded) : Prop :=
  (Beyond w v → r = ⟨w.signed neg w.overPat, flagOF ||| flagNX⟩) ∧
  (¬ Beyond w v → ∃ q, Grids w neg r.pat q ∧ r.flags = lossFlags w v q ∧
    ∀ p u, Grids w neg p u → gap v q ≤ gap v u ∧ (gap v u = gap v q → p ≠ r.pat → r.pat % 2 = 0))

/-- The pattern of the largest magnitude of a sign that is at most v. -/
def Under (w : FormatRow) (neg : Bool) (v : Rat) (pat : Nat) (q : Rat) : Prop :=
  Grids w neg pat q ∧ q ≤ v ∧ ∀ p u, Grids w neg p u → u ≤ v → u ≤ q

/-- A number rounded toward zero. -/
def TowardZero (w : FormatRow) (neg : Bool) (v : Rat) (r : Rounded) : Prop :=
  (w.top < v → r = ⟨w.signed neg w.topPat, flagOF ||| flagNX⟩) ∧
  (v ≤ w.top → ∃ q, Under w neg v r.pat q ∧ r.flags = lossFlags w v q)

/-- A value rounded to nearest, infinities and NaNs included; E2M1 takes neither. -/
def Rounds (w : FormatRow) (x : Num) (r : Rounded) : Prop :=
  match x with
  | .nan => w.expBits ≠ 2 → r = ⟨w.nanPat, 0⟩
  | .inf neg => w.expBits ≠ 2 → r = ⟨w.signed neg w.overPat, w.infFlags⟩
  | .fin neg _ _ => Nearest w neg x.mag r

/-- A value rounded toward zero, likewise. -/
def Truncates (w : FormatRow) (x : Num) (r : Rounded) : Prop :=
  match x with
  | .nan => w.expBits ≠ 2 → r = ⟨w.nanPat, 0⟩
  | .inf neg => w.expBits ≠ 2 → r = ⟨w.signed neg w.overPat, w.infFlags⟩
  | .fin neg _ _ => TowardZero w neg x.mag r

/-- 2^l is the last place of the format at a magnitude (L of R48). -/
def LastPlace (w : FormatRow) (v : Rat) (l : Int) : Prop :=
  let top := l + w.fracBits
  let least := 1 - (w.bias : Int)
  least ≤ top ∧ v < (2 : Rat) ^ (top + 1) ∧ ((2 : Rat) ^ top ≤ v ∨ top = least)

/-- SN of R48: what the dither lifts over the last place is taken along. -/
def Stochastic (w : FormatRow) (x : Num) (dith : Half) (r : Rounded) : Prop :=
  match x with
  | .nan => w.expBits ≠ 2 → r = ⟨w.nanPat, 0⟩
  | .inf neg => w.expBits ≠ 2 → r = ⟨w.signed neg w.overPat, w.infFlags⟩
  | .fin neg _ _ =>
    let v := x.mag
    (v = 0 → r = ⟨w.signed neg 0, 0⟩) ∧
    (w.top < v → r = ⟨w.signed neg w.overPat, flagOF ||| flagNX⟩) ∧
    (0 < v → v ≤ w.top → ∀ l, LastPlace w v l →
      ∃ q, Under w neg (v + dith.toNat * (2 : Rat) ^ (l - 16)) r.pat q ∧ r.flags = lossFlags w v q)

/-- Discard of R48. -/
def Discards (w : FormatRow) (x : Num) (d : Half) : Prop :=
  (x.mag = 0 → d = 0) ∧
  (0 < x.mag → ∀ l, LastPlace w x.mag l → (d.toNat : Int) = (x.mag * (2 : Rat) ^ (16 - l)).floor % 65536)

/-- MIX16 of R47. -/
def mixed (x : Nat) : Nat :=
  let a := (x ^^^ (x / 256)) * 0x6B2D % 65536
  let b := (a ^^^ (a / 128)) * 0x3A95 % 65536
  b ^^^ (b / 512)

/-! ### The narrowing chain (R47) -/

/-- y = RNE_src(x + res), with whether it overflowed from finite operands. -/
def FedBack (src : FormatRow) (x : Num) (res : Elem) (y : Num) (tooLarge : Prop) : Prop :=
  (∃ z r, SumOf x (val32 res) z ∧ Rounds src z r ∧ y = src.fmt.decode r.pat) ∧
  (tooLarge ↔ x.isFinite = true ∧ (val32 res).isFinite = true ∧ y.isFinite = false)

/-- The residual of y delivered as q. -/
def Leaves (y q : Num) (res : Elem) : Prop :=
  if y.isFinite && q.isFinite then ∃ z r, SumOf y q.neg z ∧ Rounds rowF32 z r ∧ res = BitVec.ofNat 32 r.pat
  else res = 0

/-- One active element x of source format src narrowed to a target under rmode, with the chain before it and what it leaves. -/
def Narrows (w src : FormatRow) (mode : BitVec 2) (step : Half) (x : Num) (c : Chain) (n : Narrowed) : Prop :=
  match mode.toNat with
  | 0 => Rounds w x ⟨n.pat, n.flags⟩ ∧ n.chain = c
  | 1 => Truncates w x ⟨n.pat, n.flags⟩ ∧ n.chain = c
  | 2 => ∃ y tooLarge, FedBack src x c.res y tooLarge ∧ n.chain.disc = c.disc ∧ Leaves y (w.fmt.decode n.pat) n.chain.res ∧
      (tooLarge → n.pat = w.signed y.isNeg w.overPat ∧ n.flags = flagOF ||| flagNX) ∧
      (¬ tooLarge → Rounds w y ⟨n.pat, n.flags⟩)
  | _ => Stochastic w x (BitVec.ofNat 16 (mixed (c.disc ^^^ step).toNat)) ⟨n.pat, n.flags⟩ ∧ n.chain.res = c.res ∧
      Discards w x n.chain.disc

/-- Elements narrowed one after another: what each delivers, the flags of all, and the chain after the last. -/
def Chained {α : Type} (one : α → Chain → Narrowed → Prop) :
    List (Nat × α) → Chain → List (Nat × Nat) → FFlags → Chain → Prop
  | [], c, l, f, c' => l = [] ∧ f = 0 ∧ c' = c
  | (e, x) :: r, c, l, f, c' =>
    ∃ n l' f', one x c n ∧ Chained one r n.chain l' f' c' ∧ l = (e, n.pat) :: l' ∧ f = n.flags ||| f'

/-- An element as a format other than MXFP4 stores it (R35, R38). -/
def StoredAs (f : MemFmt) (mode : BitVec 2) (step : Half) (x : Elem) (c : Chain) (n : Narrowed) : Prop :=
  match f with
  | .fmtF32 => n = ⟨x.toNat, 0, c⟩
  | .fmtI32 => n = ⟨x.toNat, 0, c⟩
  | .fmtI8 => n = ⟨(BitVec.ofInt 8 (if x.toInt < -128 then -128 else if 127 < x.toInt then 127 else x.toInt)).toNat, 0, c⟩
  | .fmtBf16 => Narrows rowBf16 rowF32 mode step (val32 x) c n
  | .fmtF16 => Narrows rowF16 rowF32 mode step (val32 x) c n
  | .fmtE4m3 => Narrows rowE4m3 rowF32 mode step (val32 x) c n
  | .fmtE5m2 => Narrows rowE5m2 rowF32 mode step (val32 x) c n
  | .fmtMxfp4 => False

/-- The scale byte of a block of finite values (R41 step 2). -/
def ScaleByte (xs : List Num) (b : Nat) : Prop :=
  ((∀ x ∈ xs, x.mag = 0) → b = 0) ∧
  ∀ x ∈ xs, 0 < x.mag → (∀ y ∈ xs, y.mag ≤ x.mag) → ∀ k : Int, (2 : Rat) ^ k ≤ x.mag → x.mag < (2 : Rat) ^ (k + 1) →
    (b : Int) = (if k - 2 < -127 then -127 else if 127 < k - 2 then 127 else k - 2) + 127

/-- One element of a block: the nibble of x × 2^(127 − X), a zero keeping x's sign. Under EF the residual is kept in the
element's own unit, as q is (R41 step 3, R47; log 76); a y that is no number, or infinite without overflow, gives a nibble that
the spec does not state. -/
def NarrowsNibble (scale : Nat) (mode : BitVec 2) (step : Half) (x : Num) (c : Chain) (n : Narrowed) : Prop :=
  let k : Int := 127 - scale
  ∃ r : Narrowed, n.flags = r.flags ∧ n.chain = r.chain ∧ n.pat = (if r.pat % 8 = 0 then (if x.isNeg then 8 else 0) else r.pat) ∧
    (mode.toNat ≠ 2 → Narrows rowE2m1 rowF32 mode step (x.scale k) c r) ∧
    (mode.toNat = 2 → ∃ y tooLarge, FedBack rowF32 x c.res y tooLarge ∧ r.chain.disc = c.disc ∧
      (y.isFinite = true → Rounds rowE2m1 (y.scale k) ⟨r.pat, r.flags⟩ ∧
        Leaves y ((e2m1.decode r.pat).scale (-k)) r.chain.res) ∧
      (y.isFinite = false → r.chain.res = 0) ∧
      (tooLarge → r.pat = rowE2m1.signed y.isNeg 7 ∧ r.flags = flagOF ||| flagNX))

/-- A block of 17 bytes as a format-5 store writes it from its present elements (R41), with the flags and the chain after it.
A block with a NaN or an infinity leaves the chain as it is (log 76). -/
def EncodesBlock (mode : BitVec 2) (step : Half) (xs : List Elem) (c : Chain) (block : List Byte) (f : FFlags) (c' : Chain) : Prop :=
  let vs := xs.map val32
  block.length = 17 ∧
  ((∃ v ∈ vs, v.isFinite = false) → block = 0xFF#8 :: List.replicate 16 0 ∧ c' = c ∧
    f = if ∃ v ∈ vs, v.isFinite = false ∧ v ≠ .nan then flagNV else 0) ∧
  ((∀ v ∈ vs, v.isFinite = true) → ScaleByte vs (block.getD 0 0).toNat ∧
    ∃ l, Chained (fun x => NarrowsNibble (block.getD 0 0).toNat mode step (val32 x)) (xs.zipIdx.map fun p => (p.2, p.1)) c l f c' ∧
      ∀ j, j < 32 → (block.getD (1 + j / 2) 0).toNat / (if j % 2 = 0 then 1 else 16) % 16 = ((l.map Prod.snd).getD j 0))

/-- Blocks encoded one after another. -/
def EncodesBlocks (mode : BitVec 2) (step : Half) :
    List (List Elem) → Chain → List (List Byte) → FFlags → Chain → Prop
  | [], c, l, f, c' => l = [] ∧ f = 0 ∧ c' = c
  | xs :: r, c, l, f, c' =>
    ∃ b g d l' f', EncodesBlock mode step xs c b g d ∧ EncodesBlocks mode step r d l' f' c' ∧ l = b :: l' ∧ f = g ||| f'

/-! ### Conversions (R110, R256) -/

/-- A finite value as INT32: saturated, NX when the result differs from it. -/
def Saturates (v : Rat) (k : Int) (r : Elem × FFlags) : Prop :=
  r.1 = BitVec.ofInt 32 (if k < -2147483648 then -2147483648 else if 2147483647 < k then 2147483647 else k) ∧
  r.2 = if (r.1.toInt : Rat) = v then 0 else flagNX

/-- FP32 to INT32: the integer that `cuts` names, saturated. -/
def ToInt (cuts : Rat → Int → Prop) (a : Elem) (r : Elem × FFlags) : Prop :=
  match val32 a with
  | .nan => r = (0, 0)
  | .inf neg => r = (if neg then 0x80000000#32 else 0x7FFFFFFF#32, flagNX)
  | .fin neg m e => let v := (Num.fin neg m e).value; ∃ k, cuts v k ∧ Saturates v k r

/-- The nearest integer, ties to even. -/
def NearestInt (v : Rat) (k : Int) : Prop := 2 * gap v k ≤ 1 ∧ (2 * gap v k = 1 → k % 2 = 0)

/-- The integer toward zero. -/
def TruncatedInt (v : Rat) (k : Int) : Prop :=
  (0 ≤ v → (k : Rat) ≤ v ∧ v < k + 1) ∧ (v < 0 → v ≤ k ∧ (k : Rat) - 1 < v)

/-- VFLR. -/
def Floors (a r : Elem) : Prop :=
  match val32 a with
  | .nan => r = canonNan32
  | .inf _ => r = a
  | .fin neg m e =>
    let x := Num.fin neg m e
    (x.mag = 0 ∨ 2 ^ 23 ≤ x.mag → r = a) ∧
    (0 < x.mag → x.mag < 2 ^ 23 → (val32 r).isFinite = true ∧ (val32 r).isNeg = x.isNeg ∧ (val32 r).value = x.value.floor)

/-- VFRAC. -/
def Fractions (a : Elem) (r : Elem × FFlags) : Prop :=
  match val32 a with
  | .nan => r = (canonNan32, 0)
  | .inf _ => r = (canonNan32, flagNV)
  | .fin neg m e =>
    let v := (Num.fin neg m e).value
    ∃ f, Nearest rowF32 false (v - v.floor) f ∧ r.2 = f.flags ∧
      r.1 = if f.pat = 0x3F800000 then 0x3F7FFFFF#32 else BitVec.ofNat 32 f.pat

/-- VEXPN, and what erratum switch 2 makes of a subnormal. -/
def Exponents (erratum : Bool) (a r : Elem) : Prop :=
  match val32 a with
  | .nan => r = 0x7FFFFFFF#32
  | .inf _ => r = 0x7FFFFFFF#32
  | .fin neg m e =>
    let v := (Num.fin neg m e).mag
    (v = 0 → r = 0x80000000#32) ∧
    ∀ k : Int, (2 : Rat) ^ k ≤ v → v < (2 : Rat) ^ (k + 1) → r = if erratum = true ∧ k < -126 then 0xFFFFFF81#32 else BitVec.ofInt 32 k

/-- VLDEXP. -/
def Scales (a : Elem) (n : Int) (r : Elem × FFlags) : Prop :=
  match val32 a with
  | .nan => r = (canonNan32, 0)
  | .inf _ => r = (a, 0)
  | .fin neg m e =>
    let v := (Num.fin neg m e).mag
    (v = 0 → r = (a, 0)) ∧
    (0 < v → ∃ q, Nearest rowF32 neg (v * (2 : Rat) ^ n) q ∧ r = (BitVec.ofNat 32 q.pat, q.flags))

/-! ### Sums (R50, R51, R113) -/

/-- RNE32(a + b), with its flags. -/
def Adds (a b : Elem) (r : Elem × FFlags) : Prop :=
  ∃ z q, SumOf (val32 a) (val32 b) z ∧ Rounds rowF32 z q ∧ r.1 = BitVec.ofNat 32 q.pat ∧
    r.2 = q.flags ||| (if z = .nan ∧ (val32 a).isNan = false ∧ (val32 b).isNan = false then flagNV else 0)

/-- The flags of n results. -/
def orAll (n : Nat) (f : Nat → FFlags) : FFlags := ((List.range n).map f).foldl (· ||| ·) 0

/-- A list of 2^k values halved k times, adjacent pairs added, to one value T (R51). -/
def Halves : Nat → List Elem → Elem → FFlags → Prop
  | 0, l, t, f => l = [t] ∧ f = 0
  | k + 1, l, t, f => ∃ (l' : List Elem) (g : Nat → FFlags) (f' : FFlags), l.length = 2 ^ (k + 1) ∧ l'.length = 2 ^ k ∧
      (∀ i, i < 2 ^ k → Adds (l.getD (2 * i) 0) (l.getD (2 * i + 1) 0) (l'.getD i 0, g i)) ∧
      Halves k l' t f' ∧ f = orAll (2 ^ k) g ||| f'

/-- The tree sum of R51. -/
def TreeSums (s : Elem) (l : List Elem) (r : Elem) (f : FFlags) : Prop :=
  (l = [] → r = s ∧ f = 0) ∧
  (l ≠ [] → ∃ k t g h, l.length ≤ 2 ^ k ∧ (∀ j, l.length ≤ 2 ^ j → k ≤ j) ∧
    Halves k (l ++ List.replicate (2 ^ k - l.length) 0) t g ∧ Adds s t (r, h) ∧ f = g ||| h)

/-- The doubling steps of VSCAN.U from distance k on, n being the number of values (R113). -/
def ScanFrom (n : Nat) : Nat → Nat → List Elem → List Elem → FFlags → Prop
  | 0, k, l, r, f => n ≤ k ∧ r = l ∧ f = 0
  | j + 1, k, l, r, f => k < n ∧ ∃ (l' : List Elem) (g : Nat → FFlags) (f' : FFlags), l'.length = n ∧
      (∀ i, i < n → if k ≤ i then Adds (l.getD (i - k) 0) (l.getD i 0) (l'.getD i 0, g i) else l'.getD i 0 = l.getD i 0 ∧ g i = 0) ∧
      ScanFrom n j (2 * k) l' r f' ∧ f = orAll n g ||| f'

/-- The unordered scan of R113: the steps, then the initial value added to each. -/
def Scans (c : Elem) (l r : List Elem) (f : FFlags) : Prop :=
  ∃ (j : Nat) (x : List Elem) (g : FFlags) (h : Nat → FFlags), ScanFrom l.length j 1 l x g ∧ r.length = l.length ∧
    (∀ i, i < l.length → Adds c (x.getD i 0) (r.getD i 0, h i)) ∧ f = g ||| orAll l.length h

end Sys2Proof.Machine
end

