-- ==== Sys2Proof/SplineClaims.lean ====
section
/-! DEFINITION. What the statements say of one array cell (spec/02 R53 to R58; spec/08 R137, R146, R151, R152): its value, its
derivative, its gradient and its refinement, step by step as the rules write them. -/

namespace Sys2Proof.Machine

/-! ### FP32 steps, whose flags are not kept -/

def near32 (x : Exact) : Num := val32 (BitVec.ofNat 32 (fp32.round .rne x.val).pat)
def plus32 (a b : Num) : Num := near32 (a.add b)
def minus32 (a b : Num) : Num := near32 (a.sub b)
def times32 (a b : Num) : Num := near32 (a.mul b)
/-- n × 2^e. -/
def whole (n : Nat) (e : Int := 0) : Num := .fin false n e

/-! ### A48 steps, whose flags are kept -/

/-- RNE48 of an exact result, as a value, its flags joined to those so far. -/
def join48 (f : FFlags) (x : Exact) : Num × FFlags :=
  let r := a48.round .rne x.val
  (val48 (BitVec.ofNat 48 r.pat), f ||| (x.flags ||| r.flags))

/-- RNE48 of an exact result, as a pattern. -/
def end48 (f : FFlags) (x : Exact) : A48 × FFlags :=
  let r := a48.round .rne x.val
  (BitVec.ofNat 48 r.pat, f ||| (x.flags ||| r.flags))

/-- One value added to an accumulator element by RNE48, with the flags so far (R146). -/
def add48 (s : A48 × FFlags) (x : Exact) : A48 × FFlags := end48 s.2 x

/-- Exact products added one after another, each sum rounded by RNE48 (R58). -/
def dot48 (start : Num × FFlags) (l : List (Num × Num)) : Num × FFlags :=
  l.foldl (fun s p => join48 s.2 (p.1.fma p.2 s.1)) start

/-! ### Grid and basis (R53, R55 to R57) -/

def pairG (p : KnotPair) : Nat := p.b.toNat % 16
def pairOrd (p : KnotPair) : Nat := p.b.toNat / 16 % 4
def pairClamp (p : KnotPair) : Nat := p.b.toNat / 64 % 4
def pairIdent (p : KnotPair) : Bool := p.b.getLsbD 8
def pairLo (p : KnotPair) : Num := val32 (BitVec.ofNat 32 (p.a.toNat / 2 ^ 32))
def pairInvh (p : KnotPair) : Num := val32 (BitVec.ofNat 32 p.a.toNat)

/-- The grid coordinate u of an activation. -/
def coordOf (p : KnotPair) (x : Num) : Num := times32 (minus32 x (pairLo p)) (pairInvh p)

/-- Where a coordinate lies: interval, place in it, grid end, and whether it lies in the grid. -/
structure Place where
  j : Nat
  t : Num
  ub : Num
  inside : Bool

def placeOf (g : Nat) (u : Num) : Place :=
  if u.isFinite && decide (0 ≤ u.value) && decide (u.value < g) then
    let j := u.value.floor.toNat
    ⟨j, (u.sub (whole j)).val, whole 0, true⟩
  else if u.isNeg then ⟨0, whole 0, whole 0, false⟩
  else ⟨g - 1, whole 1, whole g, false⟩

/-- The basis at t. -/
def basisOf (ord : Nat) (t : Num) : List Num :=
  let s := minus32 (whole 1) t
  let t2 := times32 t t
  let s2 := times32 s s
  let k6 := val32 0x3E2AAAAB#32
  match ord with
  | 0 => [whole 1]
  | 1 => [s, t]
  | 2 =>
    let b0 := times32 s2 (whole 1 (-1))
    let b2 := times32 t2 (whole 1 (-1))
    [b0, minus32 (minus32 (whole 1) b0) b2, b2]
  | _ =>
    let t3 := times32 t2 t
    let b0 := times32 (times32 s2 s) k6
    let b3 := times32 t3 k6
    let b1 := times32 (plus32 (minus32 (times32 (whole 3) t3) (times32 (whole 6) t2)) (whole 4)) k6
    [b0, b1, minus32 (minus32 (minus32 (whole 1) b0) b1) b3, b3]

/-- The derivative basis at t. -/
def slopesOf (ord : Nat) (t : Num) : List Num :=
  let s := minus32 (whole 1) t
  match ord with
  | 0 => [whole 0]
  | 1 => [(whole 1).neg, whole 1]
  | 2 => [s.neg, minus32 s.neg.neg t, t]
  | _ =>
    let t2 := times32 t t
    let b0 := (times32 (times32 s s) (whole 1 (-1))).neg
    let b3 := times32 t2 (whole 1 (-1))
    let b1 := times32 (minus32 (times32 (whole 3) t2) (times32 (whole 4) t)) (whole 1 (-1))
    [b0, b1, minus32 (minus32 b0.neg b1) b3, b3]

/-! ### Value and derivative (R58, R137, R146) -/

/-- What an evaluation of a spline pair starts from. -/
structure CellEval where
  place : Place
  u : Num
  /-- whether the spline sum is taken -/
  sums : Bool
  /-- out of the grid under LINEAR -/
  linear : Bool
  coefs : List Num

def evalOf (p : KnotPair) (coef : Nat → Num) (x : Num) : CellEval :=
  let u := coordOf p x
  let c := placeOf (pairG p) u
  ⟨c, u, c.inside || decide (pairClamp p ≠ 1), !c.inside && decide (pairClamp p = 2),
   (List.range (pairOrd p + 1)).map fun i => coef (c.j + i)⟩

/-- A NaN that makes both results the canonical one. -/
def spoils (p : KnotPair) (coef : Nat → Num) (x : Num) : Bool :=
  let e := evalOf p coef x
  x.isNan || e.u.isNan || e.sums && e.coefs.any Num.isNan || pairIdent p && (coef 15).isNan

/-- D of R58, from the flags before it. -/
def slopeSum (p : KnotPair) (e : CellEval) (f : FFlags) : Num × FFlags :=
  dot48 (whole 0, f) (e.coefs.zip (slopesOf (pairOrd p) e.place.t))

/-- φ, with the flags of the RNE48 roundings that form it. -/
def phiOf (p : KnotPair) (coef : Nat → Num) (x : Num) : A48 × FFlags :=
  let wx := (coef 15).mul x
  if pairG p = 0 then end48 0 wx
  else if spoils p coef x then (canonNan48, 0)
  else
    let e := evalOf p coef x
    let start : Num × FFlags := if pairIdent p then (wx.val, wx.flags) else (whole 0, 0)
    let acc := if e.sums then dot48 start (e.coefs.zip (basisOf (pairOrd p) e.place.t)) else start
    if e.linear then
      let d := slopeSum p e acc.2
      let q := join48 d.2 (d.1.mul (minus32 e.u e.place.ub))
      end48 q.2 (acc.1.add q.1)
    else end48 acc.2 (exactly acc.1)

/-- φ', likewise. -/
def dphiOf (p : KnotPair) (coef : Nat → Num) (x : Num) : A48 × FFlags :=
  if pairG p = 0 then end48 0 (exactly (coef 15))
  else if spoils p coef x then (canonNan48, 0)
  else
    let e := evalOf p coef x
    let d : Num × FFlags := if e.place.inside || e.linear then slopeSum p e 0 else (whole 0, 0)
    let q := join48 d.2 ((pairInvh p).mul d.1)
    end48 q.2 ((if pairIdent p then coef 15 else whole 0).add q.1)

/-! ### Gradient and refinement (R151, R152) -/

/-- The gradient set of an activation: slots with their factors. -/
def gradientOf (p : KnotPair) (x : Num) : List (Nat × Num) :=
  let u := coordOf p x
  let c := placeOf (pairG p) u
  let bs := basisOf (pairOrd p) c.t
  if pairG p = 0 then [(15, x)]
  else
    (if c.inside || decide (pairClamp p = 0) then bs.zipIdx.map fun b => (c.j + b.2, b.1)
     else if pairClamp p = 2 then
       (bs.zip (slopesOf (pairOrd p) c.t)).zipIdx.map fun b =>
         (c.j + b.2, plus32 b.1.1 (times32 b.1.2 (minus32 u c.ub)))
     else []) ++ if pairIdent p then [(15, x)] else []

/-- The gradient set holds a NaN: x is one, or the location it gives (R55). -/
def gradientSpoilt (p : KnotPair) (x : Num) : Bool := x.isNan || decide (pairG p ≠ 0) && (coordOf p x).isNan

/-- A slot's gradients of some batch rows added to a value: by RNE48 of exact products, in order. -/
def gradientsAdded (p : KnotPair) (slot : Nat) (batch : List Nat) (x delta : Nat → Num) (start : A48 × FFlags) : A48 × FFlags :=
  if batch.any fun b => gradientSpoilt p (x b) then (canonNan48, start.2)
  else
    (batch.flatMap fun b => ((gradientOf p (x b)).filter fun g => g.1 == slot).map fun g => (delta b, g.2)).foldl
      (fun s g => add48 s (g.1.fma g.2 (val48 s.1))) start

/-- Member n of the new sequence of R152, from the old coefficients. -/
def refinedAt (ord : Nat) (p : Nat → Num) (n : Nat) : Num :=
  let i := n / 2
  let mean (a b : Num) : Num := times32 (plus32 a b) (whole 1 (-1))
  let weigh (a b : Num) : Num := plus32 (times32 (whole 3 (-2)) a) (times32 (whole 1 (-2)) b)
  match ord with
  | 0 => p i
  | 1 => if n % 2 = 0 then p i else mean (p i) (p (i + 1))
  | 2 =>
    if n % 2 = 0 then weigh (p i) (p (i + 1))
    else plus32 (times32 (whole 1 (-2)) (p i)) (times32 (whole 3 (-2)) (p (i + 1)))
  | _ =>
    if n % 2 = 0 then mean (p i) (p (i + 1))
    else times32 (plus32 (plus32 (p i) (times32 (whole 6) (p (i + 1)))) (p (i + 2))) (whole 1 (-3))

end Sys2Proof.Machine
end

