-- ==== Sys2Proof/Claims.lean ====
section
/-! DEFINITION. The words the statements are made of: how control goes on, what stays as it was, and what an instruction of
each shape leaves behind. -/

namespace Sys2Proof.Machine

/-! ### Control and frame -/

/-- Control goes on behind an instruction of n bytes, through the ends of hardware loops (R92). -/
def GoesOn (s t : State) (n : Nat) : Prop :=
  (t.hart.pc, t.hart.loops) = loopBack s.hart.loops (s.hart.pc + BitVec.ofNat 64 n)

/-- Every byte of memory reads as before. -/
def SameBytes (s t : State) : Prop := ∀ a, t.byte a = s.byte a

/-- The registers of a hart with an error that a read corrects, of t in some parts and of s in the others (R305). -/
def weakBut (parts : BitVec 112) (s t : State) : BitVec 112 :=
  (s.hart.upsets.weak &&& ~~~parts) ||| (t.hart.upsets.weak &&& parts)

/-- Where the marks of the registers of each kind lie among them. -/
def scalarCells : BitVec 112 := 0xFFFFFFFF#112
def bankCells : BitVec 112 := 0xFF#112 <<< 32
def checkpointCells : BitVec 112 := 0xFFFFFFFF#112 <<< 40
def vectorCells : BitVec 112 := 0xFFFFFFFF#112 <<< 72
def maskCells : BitVec 112 := 0xFF#112 <<< 104

/-- The registers of a hart with an error are as before but for the general ones (R305). -/
def sameUpsets (s t : State) : Upsets :=
  { s.hart.upsets with scalar := t.hart.upsets.scalar, weak := weakBut scalarCells s t }

/-- Nothing of the machine differs but general registers, the pc and the active loops of the hart in front. -/
def OnlyRegisters (s t : State) : Prop :=
  t = { s with hart := { s.hart with
    regs := t.hart.regs, pc := t.hart.pc, loops := t.hart.loops, upsets := sameUpsets s t } }

/-- Every general register but s[d] reads as before, and has the errors it had. -/
def RegistersBut (s t : State) (d : BitVec 5) : Prop :=
  ∀ r, r ≠ d → t.x r = s.x r ∧ t.hart.upsets.scalar.getLsbD r.toNat = s.hart.upsets.scalar.getLsbD r.toNat ∧
    t.hart.upsets.weak.getLsbD r.toNat = s.hart.upsets.weak.getLsbD r.toNat

/-- s[d] reads v, and its code word has no error any more (R305); s0 reads 0 whatever is written (R14). -/
def Reads (t : State) (d : BitVec 5) (v : Word) : Prop :=
  t.x d = (if d = 0 then 0 else v) ∧
  (d ≠ 0 → t.hart.upsets.scalar.getLsbD d.toNat = false ∧ t.hart.upsets.weak.getLsbD d.toNat = false)

/-- An instruction of n bytes completes: s[d] := v, and nothing else changes but the pc and the loops it ends. -/
def Gives (i : Instr) (s : State) (d : BitVec 5) (v : Word) (n : Nat) : Prop :=
  ∃ t, exec i s = .next t ∧ Reads t d v ∧ RegistersBut s t d ∧ GoesOn s t n ∧ OnlyRegisters s t ∧ SameBytes s t

/-- An instruction of n bytes completes and changes nothing but the pc and the loops it ends. -/
def NoEffect (i : Instr) (s : State) (n : Nat) : Prop :=
  ∃ t, exec i s = .next t ∧ (∀ r, t.x r = s.x r) ∧ GoesOn s t n ∧ SameBytes s t ∧
    t = { s with hart := { s.hart with pc := t.hart.pc, loops := t.hart.loops } }

/-- Control is transferred to q: the innermost loops whose bodies do not hold q end, and the next one's body holds it (R94). -/
def LandsAt (s t : State) (q : Word) : Prop :=
  t.hart.pc = q ∧ ∃ n, t.hart.loops = s.hart.loops.drop n ∧
    (∀ l ∈ s.hart.loops.take n, ¬ (l.start.toNat ≤ q.toNat ∧ q.toNat < l.stop.toNat)) ∧
    ∀ l, t.hart.loops.head? = some l → l.start.toNat ≤ q.toNat ∧ q.toNat < l.stop.toNat

/-- Nothing differs but the pc and the active loops. -/
def OnlyControl (s t : State) : Prop := t = { s with hart := { s.hart with pc := t.hart.pc, loops := t.hart.loops } }

/-- A jump to q that writes no register. -/
def Jumps (i : Instr) (s : State) (q : Word) : Prop :=
  ∃ t, exec i s = .next t ∧ LandsAt s t q ∧ OnlyControl s t ∧ SameBytes s t

/-- A jump to q that writes s[d] := v. -/
def JumpsAndLinks (i : Instr) (s : State) (q : Word) (d : BitVec 5) (v : Word) : Prop :=
  ∃ t, exec i s = .next t ∧ LandsAt s t q ∧ Reads t d v ∧ RegistersBut s t d ∧ OnlyRegisters s t ∧ SameBytes s t

/-- A branch of n bytes: to q when the condition holds, else on. -/
def Branches (i : Instr) (s : State) (c : Prop) (q : Word) (n : Nat) : Prop :=
  (c → Jumps i s q) ∧ (¬ c → NoEffect i s n)

/-- The number of zero bits above the highest 1. -/
def LeadingZeros (v : Word) (n : Nat) : Prop :=
  n ≤ 64 ∧ (∀ i, 64 - n ≤ i → i < 64 → v.getLsbD i = false) ∧ (n < 64 → v.getLsbD (63 - n) = true)

/-- The number of zero bits below the lowest 1. -/
def TrailingZeros (v : Word) (n : Nat) : Prop :=
  n ≤ 64 ∧ (∀ i, i < n → v.getLsbD i = false) ∧ (n < 64 → v.getLsbD n = true)

/-- A byte count's two's-complement value of the low 8n bits of a number. -/
def lowSigned (n v : Nat) : Int :=
  let r := v % 256 ^ n
  if 2 * r < 256 ^ n then r else (r : Int) - 256 ^ n

/-! ### Scalar accesses (spec/05 R86, R87; spec/11 R195) -/

/-- Translating and probing leaves everything but the TLBs, and the number of free values drawn. -/
def OnlyCaches (s t : State) : Prop :=
  t = { s with core := { s.core with tlb := t.core.tlb }, tlb2 := t.tlb2, free := t.free }

/-- An access of n bytes by the hart in front reaches location h. -/
def Reaches (s : State) (va : Word) (n : Nat) (need : Need) (s1 : State) (h : Hit) : Prop :=
  s.probe s.self va n need = (s1, .hit h)

/-- Buffered entries without the note of which loads know their place. -/
def BufEntry.plain (e : BufEntry) : BufEntry := { e with seen := 0 }

/-- The buffered stores that cover a location, in the order of the buffer. -/
def covering (s : State) (loc : Nat) : List BufEntry := s.hart.strip.buf.filter fun e => (e.byteAt loc).isSome

/-- The byte b that a load of stream st reads at a location in an open strip (R87, R123, R198): from memory when no buffered
store covers it; else from one that does, or from memory when none of those is of the stream, behind a convoy boundary, or of a
merged stream. Under merged streams it is the latest. A store of the stream itself hides those of other streams in this
convoy and, where convoys stand in order, those of its own convoy and of earlier ones. Stores of one other stream, all behind
a boundary, give the latest of them. -/
def LoadSource (s : State) (st : BitVec 2) (loc : Nat) (b : Byte) : Prop :=
  let all := covering s loc
  let own := all.filter fun e => e.stream == st
  let before (e : BufEntry) : Prop := e.convoy < s.hart.strip.convoy
  let merged : Prop := s.hart.csr.mmrev = 1
  (all = [] → b = s.byte loc) ∧
  ((∃ e ∈ all, e.byteAt loc = some b) ∨ b = s.byte loc ∧ ∀ e ∈ all, ¬ merged ∧ e.stream ≠ st ∧ ¬ before e) ∧
  (merged → ∀ e, all.getLast? = some e → e.byteAt loc = some b) ∧
  (¬ merged →
    (∀ e, own.getLast? = some e → (∀ f ∈ all, f.stream = st ∨ ¬ before f) → e.byteAt loc = some b) ∧
    (∀ e, own.getLast? = some e → s.hart.strip.buf.Pairwise (fun f g => f.convoy ≤ g.convoy) →
      (∀ f ∈ all, f.stream = st ∨ f.convoy ≤ e.convoy ∨ ¬ before f) → e.byteAt loc = some b) ∧
    (∀ e other, other ≠ st → all.getLast? = some e → (∀ f ∈ all, f.stream = other ∧ before f) → e.byteAt loc = some b))

/-- No write of the hart is held that a load of stream st at these bytes waits for (R119, R287), and no entry of the store
buffer is uncorrectable (R306). -/
def Unhindered (s : State) (st : BitVec 2) (accesses : List (Nat × Nat)) : Prop :=
  (∀ w ∈ s.fabric.held, w.hart = s.cur → w.ended = 0 → w.blocks.getLsbD st.toNat = false ∧
    ∀ p ∈ accesses, w.entry.touches p.1 p.2 = false) ∧
  (s.stripOpen = true → ∀ e ∈ s.hart.strip.buf, e.bad = false)

/-- A load finds these bytes, readable ones, in stream st0. -/
def Finds (s1 : State) (loc n : Nat) (bs : List Byte) : Prop :=
  Unhindered s1 0 [(loc, n)] ∧ ∃ s2, s1.loadBytes (s1.view 0) loc n = (s2, bs, false)

/-- Reading keeps the entries of the store buffer: those of each stream in their order, but for the note of which loads know
them. -/
def SameBuffer (s t : State) : Prop :=
  ∀ st, (t.hart.strip.buf.filter fun e => e.stream == st).map BufEntry.plain =
    (s.hart.strip.buf.filter fun e => e.stream == st).map BufEntry.plain

/-- What reading n bytes leaves in the counts and the log of errors: nothing when it meets no code word with an error
(R305, R308). -/
def ErrorsNoted (s t : State) (accesses : List (Nat × Nat)) : Prop :=
  (∀ w ∈ s.repair.weak ++ s.poison, ∀ p ∈ accesses, wordMeets p.1 p.2 w = false) →
    t.repair = s.repair ∧ t.reports = s.reports

/-- A load changes nothing but general registers, the pc and its loops, the TLBs, the free values drawn, the order of
unordered buffered stores that it has seen, and the counts and the log of errors. -/
def OnlyLoaded (s t : State) : Prop :=
  SameBuffer s t ∧ (s.stripOpen = false → t.hart.strip = s.hart.strip) ∧
  t = { s with
    hart := { s.hart with
      regs := t.hart.regs, pc := t.hart.pc, loops := t.hart.loops, upsets := sameUpsets s t,
      strip := { s.hart.strip with buf := t.hart.strip.buf } },
    core := { s.core with tlb := t.core.tlb }, tlb2 := t.tlb2, free := t.free,
    repair := { s.repair with corrected := t.repair.corrected, recent := t.repair.recent, log := t.repair.log },
    reports := t.reports }

/-- A scalar load of `size` bytes of code completes: s[D] := ext of the n bytes found, which outside a strip are those of
memory and in one come from where R123 says; nothing is stored. -/
def Loads (i : Instr) (s : State) (d : BitVec 5) (va : Word) (n : Nat) (ext : Nat → Word) (size : Nat) : Prop :=
  ∀ s1 h bs, Reaches s va n .read s1 h → Finds s1 h.loc n bs →
    (s.stripOpen = false → bs = s.bytes h.loc n) ∧
    (s.stripOpen = true → bs.length = n ∧ ∀ k, k < n → LoadSource s 0 (h.loc + k) (bs.getD k 0)) ∧
    ∃ t, exec i s = .next t ∧ Reads t d (ext (leNat bs)) ∧ RegistersBut s t d ∧ GoesOn s t size ∧ OnlyLoaded s t ∧
      ErrorsNoted s t [(h.loc, n)] ∧ SameBytes s t

/-- Bytes bs lie from loc on, and every other byte reads as before. -/
def Stored (s t : State) (loc : Nat) (bs : List Byte) : Prop :=
  ∀ a, t.byte a = if loc ≤ a ∧ a < loc + bs.length then bs.getD (a - loc) 0 else s.byte a

/-- The code words covered whole by a write hold no error any more, all others are as they were (R305). -/
def WordsCleared (s t : State) (loc n : Nat) : Prop :=
  let covered (w : Nat) : Prop := loc ≤ w ∧ w + codeWordBytes w ≤ loc + n
  (∀ w, w ∈ t.poison ↔ w ∈ s.poison ∧ ¬ covered w) ∧ ∀ w, w ∈ t.repair.weak ↔ w ∈ s.repair.weak ∧ ¬ covered w

/-- Likewise, and nothing is counted or logged. -/
def Corrected (s t : State) (loc n : Nat) : Prop :=
  WordsCleared s t loc n ∧ t.repair = { s.repair with weak := t.repair.weak }

/-- The write to a location is performed at once: a path leads to its peer, and no write of the hart's that its stream waits
for is held (R119, R287). -/
def GoesOut (s : State) (st : BitVec 2) (loc : Nat) : Prop :=
  s.noPath loc = false ∧ ∀ w ∈ s.fabric.held, w.hart = s.cur → w.ended = 0 → w.blocks.getLsbD st.toNat = false

/-- The bytes that a write replaces are kept for the engines (R170). -/
def keptFor (s : State) (loc n : Nat) : List Replaced := (loc, s.bytes loc n) :: s.hart.unordered

/-- A write to a peer is noted with the bytes it replaces, which a rejection gives back (R119, R282). -/
def sentTo (s : State) (agent ended loc n : Nat) : Fabric :=
  if nodeOf loc = 0 then s.fabric else { s.fabric with sent := s.fabric.sent ++ [⟨agent, ended, loc, s.bytes loc n⟩] }

/-- A write held: its hart, its partition, the streams that wait for it, all four when streams are merged (R192, R198). -/
def heldWrite (s : State) (e : BufEntry) : HeldWrite :=
  ⟨s.cur, 0, s.hart.ctl.part, if s.hart.csr.mmrev = 1 then 0b1111 else 1#4 <<< e.stream.toNat, e⟩

/-- The store buffer of t is that of s with new entries of one stream and of the present convoy among the others: entries
keep their order, those of one stream follow each other in program order, convoys stay in order, and new entries are the last
where streams are merged (R198), on a deterministic hart (R242), and where no entry of another stream meets them (R119). -/
def BufferedIn (s t : State) (new : List BufEntry) : Prop :=
  let old := s.hart.strip.buf
  let buf := t.hart.strip.buf
  buf.length = old.length + new.length ∧ old.Sublist buf ∧ new.Sublist buf ∧
  (∀ st, (buf.filter fun e => e.stream == st) = (old ++ new).filter fun e => e.stream == st) ∧
  (s.hart.csr.mmrev = 1 ∨ s.hart.csr.det = true ∨
    (∀ e ∈ new, ∀ f ∈ old, f.stream ≠ e.stream → f.touches e.loc e.size = false) → buf = old ++ new) ∧
  (old.Pairwise (fun f g => f.convoy ≤ g.convoy) → (∀ f ∈ old, f.convoy ≤ s.hart.strip.convoy) →
    buf.Pairwise fun f g => f.convoy ≤ g.convoy)

/-- A new entry of the store buffer, of the present convoy and instruction: where it goes, the translation its probe used
(R120), which no load has seen. -/
def newEntry (s : State) (st : BitVec 2) (e : Nat) (reg : BitVec 5) (va : Word) (h : Hit) (op : BufOp) : BufEntry :=
  { stream := st, convoy := s.hart.strip.convoy, instr := s.hart.strip.instrs, elem := e, reg := reg, va := va,
    loc := h.loc, page := h.page, leaf := none, op := op, seen := 0, bad := false }

/-- A scalar store of `size` bytes of code completes (R87). In an open strip with room it puts one entry of stream st0 into
the store buffer and stores nothing yet. Outside a strip it stores the low n bytes of v, or, where the last path to the peer
is lost or an earlier write is held, holds the write. General registers stay. -/
def Stores (i : Instr) (s : State) (reg : BitVec 5) (va : Word) (n : Nat) (v : Word) (size : Nat) : Prop :=
  ∀ s1 h, Reaches s va n .write s1 h →
    let e := newEntry s 0 0 reg va h (.store (leBytes n v.toNat))
    (s.stripOpen = true → s.hart.strip.used + 1 ≤ 16384 →
      ∃ t, exec i s = .next t ∧ GoesOn s t size ∧ SameBytes s t ∧ BufferedIn s t [e] ∧
        t = { s1 with
          hart := { s.hart with
            pc := t.hart.pc, loops := t.hart.loops,
            strip := { s.hart.strip with
              buf := t.hart.strip.buf, used := s.hart.strip.used + 1, instrs := s.hart.strip.instrs + 1 } },
          free := t.free }) ∧
    (s.stripOpen = false → GoesOut s 0 h.loc → s.mem.wf = true →
      ∃ t, exec i s = .next t ∧ GoesOn s t size ∧ Stored s t h.loc (leBytes n v.toNat) ∧ Corrected s t h.loc n ∧
        t = { s1 with
          hart := { s.hart with pc := t.hart.pc, loops := t.hart.loops, unordered := keptFor s h.loc n },
          fabric := sentTo s s.cur 0 h.loc n, mem := t.mem, poison := t.poison, repair := t.repair }) ∧
    (s.stripOpen = false → ¬ GoesOut s 0 h.loc →
      ∃ t, exec i s = .next t ∧ GoesOn s t size ∧ SameBytes s t ∧
        t = { s1 with
          hart := { s.hart with pc := t.hart.pc, loops := t.hart.loops },
          fabric := { s.fabric with held := s.fabric.held ++ [heldWrite s e] } })

/-! ### Faults and traps (spec/01 R25 to R28; spec/10 R178) -/

/-- The fault record of a cause at the pc: cause, INS, address, the open strip's GRANT, and the fields the cause writes (R26). -/
def Recorded (s t : State) (f : FaultInfo) (dlg : Bool) : Prop :=
  t.hart.record =
    { fcause := BitVec.ofNat 64 (f.cause.toNat + (if s.stripOpen then 256 else 0) + (if dlg then 512 else 0)),
      fpc := s.hart.pc, fstrip := if s.stripOpen then s.hart.strip.cp.pc else 0,
      felem := BitVec.ofNat 64 (f.elem % 8192), fidx0 := f.idx0, fidx1 := f.idx1, fidx2 := f.idx2, faddr := f.addr,
      fcoord := f.coord, finfo := f.info }

/-- A fault leaves memory and everything outside the hart's own record and its matrix accumulators as it was, and none of
its vector registers, masks, engine queues, locked ranges, slots or user-interrupt registers changes. -/
def FaultFrame (s t : State) : Prop :=
  SameBytes s t ∧
  t = { s with hart := t.hart, core := { s.core with matrix := t.core.matrix }, reports := t.reports } ∧
  t.hart = { s.hart with
    run := t.hart.run, priv := t.hart.priv, pc := t.hart.pc, regs := t.hart.regs, loops := t.hart.loops,
    trapLoops := t.hart.trapLoops, sup := t.hart.sup, record := t.hart.record,
    csr := { s.hart.csr with
      ncarry := t.hart.csr.ncarry, fflags := t.hart.csr.fflags, step := t.hart.csr.step, so := t.hart.csr.so,
      vl := t.hart.csr.vl, mseqStep := t.hart.csr.mseqStep, mseqAct := t.hart.csr.mseqAct },
    strip := { s.hart.strip with buf := t.hart.strip.buf, used := t.hart.strip.used },
    upsets := sameUpsets s t,
    ctl := { s.hart.ctl with protectedStrip := t.hart.ctl.protectedStrip } }

/-- Matrix state of which the pending bank is its owner's committed one again, with the errors of that (R178, R306). -/
def pendingDropped (m : Option Matrix) (owner : Nat) : Option Matrix :=
  m.map fun m =>
    if m.owner = owner then
      { m with pend := m.acc, pendTags := m.tags, damaged := discardMarks m.damaged, weak := discardMarks m.weak }
    else m

/-- A strip that was open has been aborted: the checkpoint is back, the store buffer discarded, and the pending bank of the
hart's own accumulators is the committed one again (R178). Without a strip nothing of these has changed. -/
def Unwound (s t : State) : Prop :=
  (s.stripOpen = true →
    t.hart.regs = s.hart.strip.cp.regs ∧ t.hart.csr.ncarry = s.hart.strip.cp.ncarry ∧
    t.hart.csr.fflags = s.hart.strip.cp.fflags ∧ t.hart.csr.step = s.hart.strip.cp.step ∧ t.hart.csr.so = false ∧
    t.hart.csr.vl = 0 ∧ t.hart.csr.mseqStep = 0 ∧ t.hart.csr.mseqAct = false ∧ t.hart.strip.buf = [] ∧
    t.hart.upsets.scalar = s.hart.upsets.checkpoint ∧ t.hart.upsets.weak = s.hart.upsets.weak &&& ~~~scalarCells ∧
    t.core.matrix = pendingDropped s.core.matrix s.cur) ∧
  (s.stripOpen = false →
    t.hart.regs = s.hart.regs ∧ t.hart.csr = s.hart.csr ∧ t.hart.strip = s.hart.strip ∧ t.hart.upsets = s.hart.upsets ∧
    t.core.matrix = s.core.matrix)

/-- An uncorrectable register or buffer entry of an open strip met (R306, R308): the strip is aborted, to begin again at its
GRANT; no record is written and no trap taken, and the error is logged. -/
def Replays (s t : State) : Prop :=
  Unwound s t ∧ SameBytes s t ∧ t.hart.pc = s.hart.strip.cp.pc ∧ t.hart.loops = s.hart.strip.cp.loops ∧
  t.hart.record = s.hart.record ∧ t.hart.sup = s.hart.sup ∧ t.hart.priv = s.hart.priv ∧
  ∃ e : ErrorRecord, e.kind = 2 ∧ e.unit = 3 ∧ e.part = s.hart.ctl.part ∧ e.die = coreOf s.cur / 48 ∧
    t.repair = { s.repair with log := s.repair.log ++ [e] } ∧ t.reports = s.reports ++ [.errorRecord e]

/-- Where a hart resumes after a fault: at the GRANT of an open strip, else at the faulting instruction (R25). -/
def resumeOf (s : State) : Word := if s.stripOpen then s.hart.strip.cp.pc else s.hart.pc

/-- The loops in force at the resume address. -/
def loopsOf (s : State) : List Loop := if s.stripOpen then s.hart.strip.cp.loops else s.hart.loops

/-- Trap entry to S (R25, R95): tcause, tepc and tstatus, privilege S at tvec with no active loop, the loops set aside when
the trap came from U. -/
def EntersTrap (s t : State) (c : BitVec 8) (so : Bool) (resume : Word) (loops : List Loop) : Prop :=
  t.hart.sup = { s.hart.sup with tcause := c, tepc := resume, pp := s.hart.priv, so := so } ∧
  t.hart.priv = .supervisor ∧ t.hart.pc = s.hart.sup.tvec ∧ t.hart.run = .running ∧ t.hart.loops = [] ∧
  t.hart.trapLoops = (if s.hart.priv = .user then loops else s.hart.trapLoops) ∧ t.reports = s.reports

/-- A fault is taken: `i` raises f. This names the next state that FaultTaken and FaultsThatStop describe. -/
def Raises (i : Instr) (s : State) (f : FaultInfo) : Prop := exec i s = .next (s.takeFault f)

/-! ### Fetch (spec/03 R59, R60) -/

/-- Parcels fetched one after another from an address on. -/
def Parcels : State → Word → List Half → State → Prop
  | s, _, [], t => t = s
  | s, va, p :: r, t => ∃ u, s.fetchParcel va = (u, .ok p) ∧ Parcels u (va + 2) r t

/-- The parcels of an instruction by its first one. -/
def parcelsOf (p : Half) : Nat := if p.toNat < 0xC000 then 1 else if p.toNat < 0xE000 then 2 else 4

/-- A fault that names an address: cause, address, and finfo with WR for a write. -/
def accessFault (c : BitVec 8) (va : Word) (wr : Bool) : FaultInfo :=
  { plainFault c with addr := va, info := if wr then 0x20 else 0 }

/-- A free value has been drawn. -/
def drew (s : State) : State := { s with free := ⟨s.free.count + 1, []⟩ }

/-! ### Control and status registers (spec/01 R20 to R26) -/

/-- The assigned CSR numbers (R21). -/
def assigned (c : Nat) : Bool :=
  decide (c ≤ 0x00A) || (decide (0x010 ≤ c) && decide (c ≤ 0x012)) || c == 0x018 || c == 0x019 ||
  (decide (0x020 ≤ c) && decide (c ≤ 0x027)) || (decide (0x030 ≤ c) && decide (c ≤ 0x035)) ||
  (decide (0x040 ≤ c) && decide (c ≤ 0x043)) || c == 0x050 || (decide (0x200 ≤ c) && decide (c ≤ 0x203)) ||
  (decide (0x210 ≤ c) && decide (c ≤ 0x214)) || (decide (0x220 ≤ c) && decide (c ≤ 0x222)) || c == 0x230 ||
  (decide (0x400 ≤ c) && decide (c ≤ 0x406)) || (decide (0x410 ≤ c) && decide (c ≤ 0x416)) ||
  (decide (0x500 ≤ c) && decide (c ≤ 0x509))

/-- A CSR number that an instruction may name at the hart's privilege (R20). -/
def Permitted (s : State) (c : BitVec 11) : Prop :=
  assigned c.toNat = true ∧ (s.hart.priv = .supervisor ∨ ¬ (0x200 ≤ c.toNat ∧ c.toNat < 0x400))

/-- Bits [hi : lo]. -/
def bits (hi lo : Nat) : Word := BitVec.ofNat 64 ((2 ^ (hi + 1 - lo) - 1) * 2 ^ lo)

/-- The fields that a CSR write changes at either privilege (R21, R22, R46, R171). -/
def userFields (c : Nat) : Word :=
  match c with
  | 0x003 => bits 1 0
  | 0x004 => bits 47 0
  | 0x005 => bits 63 0
  | 0x006 => bits 4 0
  | 0x007 => bits 7 0
  | 0x010 => bits 63 0
  | 0x011 => bits 63 0
  | 0x012 => bits 63 0
  | 0x030 => bits 63 1
  | 0x032 => bits 63 1
  | 0x033 => bits 4 0
  | 0x035 => bits 63 0
  | _ => 0

/-- The fields that a CSR write changes at S (R21 to R26, R171, R200, R300). -/
def supervisorFields (c : Nat) : Word :=
  match c with
  | 0x008 => bits 0 0
  | 0x031 => bits 3 0 ||| bits 63 8
  | 0x034 => bits 4 0
  | 0x050 => bits 20 0
  | 0x200 => bits 63 1
  | 0x202 => bits 63 1
  | 0x203 => bits 1 0 ||| bits 5 4
  | 0x210 => bits 6 0
  | 0x211 => bits 47 0
  | 0x212 => bits 47 0
  | 0x213 => bits 47 0
  | 0x214 => bits 47 0
  | 0x220 => bits 51 12 ||| bits 63 63
  | 0x230 => bits 51 14
  | 0x500 => bits 9 0
  | 0x501 => bits 63 1
  | 0x502 => bits 63 1
  | 0x503 => bits 12 0
  | 0x504 => bits 63 0
  | 0x505 => bits 63 0
  | 0x506 => bits 63 0
  | 0x507 => bits 63 0
  | 0x508 => bits 62 0
  | 0x509 => bits 15 0
  | _ => userFields c

def fieldsOf (p : Priv) (c : Nat) : Word :=
  match p with
  | .user => userFields c
  | .supervisor => supervisorFields c

/-- The value of a CSR after v is written to it: its writable fields are v's; uimask keeps IN; a CSR without a writable
field keeps its value (R7, R20). -/
def afterWrite (p : Priv) (c : Nat) (old v : Word) : Word :=
  if fieldsOf p c = 0 then old else (v &&& fieldsOf p c) ||| (if c = 0x033 then old &&& 0x100#64 else 0)

/-- What a CSR instruction keeps: its destination aside every register; the pc past its four bytes; memory; and all state
but CSRs, the governor's, the partition's region table base, and what Pip is told. -/
def CsrFrame (s t : State) (d : BitVec 5) (old : Word) : Prop :=
  Reads t d old ∧ RegistersBut s t d ∧ GoesOn s t 4 ∧ SameBytes s t ∧
  t = { s with
    hart := { s.hart with
      regs := t.hart.regs, pc := t.hart.pc, loops := t.hart.loops, csr := t.hart.csr, sup := t.hart.sup,
      record := t.hart.record, upsets := sameUpsets s t,
      ui := { t.hart.ui with
        bank := s.hart.ui.bank, loops := s.hart.ui.loops, raised := s.hart.ui.raised, owed := s.hart.ui.owed } },
    core := { s.core with gov := t.core.gov }, parts := t.parts, reports := t.reports }

/-- A CSR instruction that reads: no CSR changes. -/
def CsrReads (i : Instr) (s : State) (d : BitVec 5) (old : Word) : Prop := Gives i s d old 4

/-- A CSR instruction that writes v to a CSR with no behaviour of its own: that CSR is written, no other. -/
def CsrWrites (i : Instr) (s : State) (d : BitVec 5) (c : BitVec 11) (old v : Word) : Prop :=
  ∃ t, exec i s = .next t ∧ CsrFrame s t d old ∧ t.reports = s.reports ∧
    t.csr c = some (afterWrite s.hart.priv c.toNat old v) ∧ ∀ k, k ≠ c → t.csr k = s.csr k

/-! ### Vector instructions (spec/01 R16 to R19; spec/06 R102 to R105) -/

/-- A vector group begins at a multiple of RC (R19). -/
def Aligned (s : State) (n : BitVec 5) : Prop := n.toNat % s.rows = 0

/-- Likewise for a second operand; a scalar or an immediate has no group. -/
def AlignedB (s : State) (b : BOp) : Prop := ∀ n, b = .vv n → Aligned s n

/-- Whether a unit holds an uncorrectable code word (R306): vector registers, masks, tiles, accumulators of the bank in use,
slots, knots and selectors. -/
def Spoilt (s : State) (unit : Nat) : Prop :=
  let matrix (n : Nat) : Prop := ∃ m, s.ownMatrix = some m ∧ m.damaged.getLsbD n = true
  (unit < 32 ∧ s.hart.upsets.vector.getLsbD unit = true) ∨
  (32 ≤ unit ∧ unit < 40 ∧ s.hart.upsets.mask.getLsbD (unit - 32) = true) ∨
  (40 ≤ unit ∧ unit < 48 ∧ matrix (unit - 40)) ∨
  (53 ≤ unit ∧ unit < 57 ∧ matrix (unit - 45 + if s.stripOpen then 4 else 0)) ∨
  (57 ≤ unit ∧ unit < 82 ∧ matrix (unit - 41))

/-- The open strip lets an instruction read and write some units (R30, R104, R306): no source is stale or uncorrectable, and
nothing it writes has been read in the strip before it was written there. -/
def Ready (s : State) (reads writes : List Use) : Prop :=
  s.stripOpen = true ∧ (∀ u ∈ reads, s.unitStale u.unit = false ∧ ¬ Spoilt s u.unit) ∧
  ∀ w ∈ writes, s.hart.strip.readFirst.getLsbD w.unit = false ∧
    ((∃ u ∈ reads, u.unit = w.unit) → s.hart.strip.written.getLsbD w.unit = true)

/-- The marks of the strip contract after an instruction (R104): what it read unwritten, and what it wrote. -/
def Marked (s t : State) (reads writes : List Use) : Prop :=
  ∀ k, k < 53 →
    (t.hart.strip.readFirst.getLsbD k = true ↔
      s.hart.strip.readFirst.getLsbD k = true ∨ (∃ u ∈ reads, u.unit = k) ∧ s.hart.strip.written.getLsbD k = false) ∧
    (t.hart.strip.written.getLsbD k = true ↔
      s.hart.strip.written.getLsbD k = true ∨ ∃ w ∈ writes, w.unit = k)

/-- A flag is set once it was set before or an active element raised it (R39). -/
def Flagged (s t : State) (m : BitVec 3) (op : Nat → Elem × FFlags) : Prop :=
  ∀ k, t.hart.csr.fflags.getLsbD k = true ↔
    s.hart.csr.fflags.getLsbD k = true ∨ ∃ e, s.active m e = true ∧ (op e).2.getLsbD k = true

/-- No flag has changed. -/
def Unflagged (s t : State) : Prop := t.hart.csr.fflags = s.hart.csr.fflags

/-- An instruction writes an element below RC × GVL: it has a result for it, or it sets a tail element to +0. -/
def Written {α : Type} (s : State) (res : Nat → Option α) (e : Nat) : Prop :=
  (e < s.vl ∧ (res e).isSome = true) ∨ (s.vl ≤ e ∧ s.hart.csr.tp = true)

/-- Group d as an instruction leaves it: an element below VL holds its result where there is one and its old value where
there is none; a tail element follows TP; the registers of the group are fresh, their dark elements and every other
register as before (R18, R103, R104). A register of it that was stale or all of whose elements in use are written has
no error any more (R305). -/
def WroteGroup (s t : State) (d : BitVec 5) (res : Nat → Option Elem) : Prop :=
  (∀ e, e < s.span → t.elem d e =
    if e < s.vl then (res e).getD (s.elem d e) else if s.hart.csr.tp then 0 else s.elem d e) ∧
  (∀ r, r < s.rows → (t.vreg (d.toNat + r)).stale = false ∧
    ∀ i, s.gvl ≤ i → (t.vreg (d.toNat + r)).elem i = (s.vreg (d.toNat + r)).elem i) ∧
  (∀ n, n < d.toNat ∨ d.toNat + s.rows ≤ n → t.vreg n = s.vreg n) ∧
  ∀ n, n < 32 →
    let whole : Prop := ∃ r, r < s.rows ∧ n = d.toNat + r ∧
      ((s.vreg n).stale = true ∨ ∀ i, i < s.gvl → Written s res (r * s.gvl + i))
    (t.hart.upsets.vector.getLsbD n = true ↔ s.hart.upsets.vector.getLsbD n = true ∧ ¬ whole) ∧
    (t.hart.upsets.weak.getLsbD (72 + n) = true ↔ s.hart.upsets.weak.getLsbD (72 + n) = true ∧ ¬ whole)

/-- Mask d likewise, its bits beyond the strip as before, and every other mask (R18, R103, R305). -/
def WroteMask (s t : State) (d : BitVec 5) (res : Nat → Option Bool) : Prop :=
  (∀ e, e < 8192 → (t.mreg d.toNat).bit e =
    if s.span ≤ e then (s.mreg d.toNat).bit e
    else if e < s.vl then (res e).getD ((s.mreg d.toNat).bit e)
    else if s.hart.csr.tp then false else (s.mreg d.toNat).bit e) ∧
  (t.mreg d.toNat).stale = false ∧ (∀ n, n ≠ d.toNat → t.mreg n = s.mreg n) ∧
  ∀ n, n < 8 →
    let whole : Prop := n = d.toNat ∧ ((s.mreg n).stale = true ∨ ∀ e, e < s.span → Written s res e)
    (t.hart.upsets.mask.getLsbD n = true ↔ s.hart.upsets.mask.getLsbD n = true ∧ ¬ whole) ∧
    (t.hart.upsets.weak.getLsbD (104 + n) = true ↔ s.hart.upsets.weak.getLsbD (104 + n) = true ∧ ¬ whole)

/-- Nothing of the machine differs but what vector instructions write: registers of the three kinds, fflags and ncarry,
the marks of the strip, the pc and the active loops. -/
def OnlyVector (s t : State) : Prop :=
  t = { s with hart := { s.hart with
    regs := t.hart.regs, vregs := t.hart.vregs, mregs := t.hart.mregs, pc := t.hart.pc, loops := t.hart.loops,
    csr := { s.hart.csr with fflags := t.hart.csr.fflags, ncarry := t.hart.csr.ncarry },
    upsets := { s.hart.upsets with
      scalar := t.hart.upsets.scalar, vector := t.hart.upsets.vector, mask := t.hart.upsets.mask,
      weak := weakBut (scalarCells ||| vectorCells ||| maskCells) s t },
    strip := { s.hart.strip with readFirst := t.hart.strip.readFirst, written := t.hart.strip.written } } }

/-- What every vector instruction keeps (its marks, the pc past its four bytes, memory, all other state). -/
def VectorStep (s t : State) (reads writes : List Use) : Prop :=
  Marked s t reads writes ∧ GoesOn s t 4 ∧ OnlyVector s t ∧ SameBytes s t

/-- The result of active elements, masked-off ones having none. -/
def onActive {α : Type} (s : State) (m : BitVec 3) (res : Nat → α) (e : Nat) : Option α :=
  if s.active m e then some (res e) else none

/-- A vector instruction completes and writes group d; scalars, masks and ncarry stay. -/
def WritesGroup (i : Instr) (s : State) (reads : List Use) (d : BitVec 5) (res : Nat → Option Elem)
    (flags : State → Prop) : Prop :=
  ∃ t, exec i s = .next t ∧ WroteGroup s t d res ∧ flags t ∧ t.hart.regs = s.hart.regs ∧
    t.hart.mregs = s.hart.mregs ∧ t.hart.csr.ncarry = s.hart.csr.ncarry ∧
    t.hart.upsets = { s.hart.upsets with vector := t.hart.upsets.vector, weak := weakBut vectorCells s t } ∧
    VectorStep s t reads (s.vUse d 0)

/-- A vector instruction completes and writes mask d; scalars, vectors, fflags and ncarry stay. -/
def WritesMask (i : Instr) (s : State) (reads : List Use) (d : BitVec 5) (res : Nat → Option Bool) : Prop :=
  ∃ t, exec i s = .next t ∧ WroteMask s t d res ∧ Unflagged s t ∧ t.hart.regs = s.hart.regs ∧
    t.hart.vregs = s.hart.vregs ∧ t.hart.csr.ncarry = s.hart.csr.ncarry ∧
    t.hart.upsets = { s.hart.upsets with mask := t.hart.upsets.mask, weak := weakBut maskCells s t } ∧
    VectorStep s t reads (mUse d 0)

/-- A vector instruction completes and writes scalar d; vectors, masks and ncarry stay. -/
def WritesScalar (i : Instr) (s : State) (reads : List Use) (d : BitVec 5) (v : Word) (flags : State → Prop) : Prop :=
  ∃ t, exec i s = .next t ∧ Reads t d v ∧ RegistersBut s t d ∧ flags t ∧ t.hart.vregs = s.hart.vregs ∧
    t.hart.mregs = s.hart.mregs ∧ t.hart.csr.ncarry = s.hart.csr.ncarry ∧ t.hart.upsets = sameUpsets s t ∧
    VectorStep s t reads []

/-- RNE32 of an exact result, with the flags of the operation and of the rounding (R10, R39). -/
def rounded (x : Exact) : Elem × FFlags :=
  let r := fp32.round .rne x.val
  (BitVec.ofNat 32 r.pat, x.flags ||| r.flags)

/-- An element operation that raises no flag. -/
def unflagged (x : Elem) : Elem × FFlags := (x, 0)

/-- Operands D, A, B under predicate m that an elementwise instruction can execute with (R19, R104). -/
def Operable (s : State) (d a : BitVec 5) (b : BOp) (m : BitVec 3) : Prop :=
  Aligned s d ∧ Aligned s a ∧ AlignedB s b ∧ Ready s (s.vUse a 1 ++ s.bUse b ++ pUse m) (s.vUse d 0)

/-- Likewise where D is an addend too (R107). -/
def OperableFused (s : State) (d a : BitVec 5) (b : BOp) (m : BitVec 3) : Prop :=
  Aligned s d ∧ Aligned s a ∧ AlignedB s b ∧ Ready s (s.vUse d 0 ++ s.vUse a 1 ++ s.bUse b ++ pUse m) (s.vUse d 0)

/-- Operands D, A under predicate m. -/
def OperableUnary (s : State) (d a : BitVec 5) (m : BitVec 3) : Prop :=
  Aligned s d ∧ Aligned s a ∧ Ready s (s.vUse a 1 ++ pUse m) (s.vUse d 0)

/-- A three-operand instruction computes op of a[e] and b[e], b as FP32, with the flags of its active elements. -/
def ComputesF (i : Instr) (s : State) (d a : BitVec 5) (b : BOp) (m : BitVec 3) (op : Elem → Elem → Elem × FFlags) : Prop :=
  let f (e : Nat) := op (s.elem a e) (s.bFloat b e)
  WritesGroup i s (s.vUse a 1 ++ s.bUse b ++ pUse m) d (onActive s m fun e => (f e).1) (Flagged s · m f)

/-- A fused instruction computes op of a[e], b[e] and d[e]. -/
def ComputesFused (i : Instr) (s : State) (d a : BitVec 5) (b : BOp) (m : BitVec 3)
    (op : Elem → Elem → Elem → Elem × FFlags) : Prop :=
  let f (e : Nat) := op (s.elem a e) (s.bFloat b e) (s.elem d e)
  WritesGroup i s (s.vUse d 0 ++ s.vUse a 1 ++ s.bUse b ++ pUse m) d (onActive s m fun e => (f e).1) (Flagged s · m f)

/-- A unary instruction computes op of a[e]. -/
def ComputesUnary (i : Instr) (s : State) (d a : BitVec 5) (m : BitVec 3) (op : Elem → Elem × FFlags) : Prop :=
  let f (e : Nat) := op (s.elem a e)
  WritesGroup i s (s.vUse a 1 ++ pUse m) d (onActive s m fun e => (f e).1) (Flagged s · m f)

/-- A unary instruction computes what a relation says of a[e]. -/
def ConvertsBy (i : Instr) (s : State) (d a : BitVec 5) (m : BitVec 3) (rel : Elem → Elem × FFlags → Prop) : Prop :=
  ∃ op : Elem → Elem × FFlags, (∀ x, rel x (op x)) ∧ ComputesUnary i s d a m op

/-- A three-operand integer instruction computes op of a[e] and b[e] and changes no flag. -/
def ComputesI (i : Instr) (s : State) (d a : BitVec 5) (b : BOp) (m : BitVec 3) (op : Elem → Elem → Elem) : Prop :=
  WritesGroup i s (s.vUse a 1 ++ s.bUse b ++ pUse m) d (onActive s m fun e => op (s.elem a e) (s.bInt b e)) (Unflagged s)

/-- The result of VMIN.F and VMAX.F (R106): `less u v` says that u goes before v, `sign` which sign equal values give. -/
def Extreme (less : Num → Num → Bool) (sign : Bool → Bool → Bool) (x y r : Elem) : Prop :=
  if (val32 x).isNan || (val32 y).isNan then r = canonNan32
  else (r = x ∨ r = y) ∧ less (val32 x) (val32 r) = false ∧ less (val32 y) (val32 r) = false ∧
    ((val32 x).eqv (val32 y) = true → r.getLsbD 31 = sign (x.getLsbD 31) (y.getLsbD 31))

/-- s combined with the values of a list, one after another (R112). -/
def ExtremeOf (less : Num → Num → Bool) (sign : Bool → Bool → Bool) : Elem → List Elem → Elem → Prop
  | s, [], r => r = s
  | s, x :: l, r => ∃ t, Extreme less sign s x t ∧ ExtremeOf less sign t l r

/-- The class of an FP32 pattern, by its fields (R108). -/
def fpClass (x : Elem) : Nat :=
  let neg := x.getLsbD 31
  let e := x.toNat / 2 ^ 23 % 256
  let f := x.toNat % 2 ^ 23
  if e = 255 then (if f = 0 then (if neg then 0 else 7) else 8)
  else if e = 0 then (if f = 0 then (if neg then 3 else 4) else (if neg then 2 else 5))
  else (if neg then 1 else 6)

/-- The ordered sum of R50, with the flags of its roundings. -/
def sumOrdered (init : Elem) (l : List Elem) : Elem × FFlags :=
  l.foldl (fun p x => let r := rounded ((val32 p.1).add (val32 x)); (r.1, p.2 ||| r.2)) (init, 0)

/-- The ordered dot product of R50. -/
def dotOrdered (init : Elem) (l : List (Elem × Elem)) : Elem × FFlags :=
  l.foldl (fun p x => let r := rounded ((val32 x.1).fma (val32 x.2) (val32 p.1)); (r.1, p.2 ||| r.2)) (init, 0)

/-- The flags f are ORed in. -/
def Ored (s t : State) (f : FFlags) : Prop := t.hart.csr.fflags = s.hart.csr.fflags ||| f

/-- A compare writes mask bit e of each active e. -/
def Compares (i : Instr) (s : State) (d a : BitVec 5) (b : BOp) (m : BitVec 3) (test : Nat → Bool) : Prop :=
  WritesMask i s (s.vUse a 1 ++ s.bUse b ++ pUse m) d (onActive s m test)

/-! ### Strips, scalar atomics, locked ranges (spec/07) -/

/-- Location a lies in the bytes of a buffered entry. -/
def BufEntry.holds (e : BufEntry) (a : Nat) : Prop := e.loc ≤ a ∧ a < e.loc + e.size

/-- A strip opens for a GRANT or GRANTX of `size` bytes: row width g, row code rc, tail policy tp, a requested count n;
the checkpoint is that of u, the state once the strip before it is closed and the width is found (R117). -/
def Opens (i : Instr) (s u : State) (d : BitVec 5) (n g : Nat) (rc : BitVec 2) (tp : Bool) (size : Nat) : Prop :=
  let vl := min n (2 ^ rc.toNat * g)
  ∃ t, exec i s = .next t ∧ Reads t d (BitVec.ofNat 64 vl) ∧ RegistersBut u t d ∧ GoesOn u t size ∧ SameBytes u t ∧
    t.hart.csr = { u.hart.csr with
      gvl := BitVec.ofNat 11 g, rc := rc, tp := tp, so := true, vl := BitVec.ofNat 14 vl,
      ggen := if g = u.gvl then u.hart.csr.ggen else u.hart.csr.ggen + 1 } ∧
    t.hart.strip =
      { cp := { regs := u.hart.regs, loops := u.hart.loops, ncarry := u.hart.csr.ncarry, fflags := u.hart.csr.fflags,
                step := u.hart.csr.step, pc := u.hart.pc, vl := BitVec.ofNat 14 vl },
        buf := [], used := 0, convoy := 0, instrs := 0, readFirst := 0, written := 0 } ∧
    (g ≠ u.gvl → (∀ k, k < 32 → (t.vreg k).stale = true) ∧ ∀ k, k < 8 → (t.mreg k).stale = true) ∧
    (g = u.gvl → t.hart.vregs = u.hart.vregs ∧ t.hart.mregs = u.hart.mregs) ∧
    t.hart.ctl = { u.hart.ctl with holds := (g + 63) / 64, protectedStrip := u.hart.ctl.revoked, revoked := false } ∧
    t = { u with
      hart := { u.hart with
        regs := t.hart.regs, vregs := t.hart.vregs, mregs := t.hart.mregs, pc := t.hart.pc, loops := t.hart.loops,
        csr := t.hart.csr, strip := t.hart.strip, ctl := t.hart.ctl,
        upsets := { sameUpsets u t with checkpoint := 0, weak := (sameUpsets u t).weak &&& ~~~checkpointCells } },
      core := { u.core with matrix := pendingDropped u.core.matrix u.cur } }

/-- Slices taken from hart v, to which `left` remain: its open strip is aborted, and its next one protected (R182, R186). -/
def RevokedFrom (s t : State) (v left : Nat) : Prop :=
  let x := s.hartAt v
  let a := if x.csr.so then x.aborted else x
  t.hartAt v = { a with ctl := { a.ctl with slices := left, holds := left, revoked := x.ctl.revoked || x.csr.so } } ∧
  (∀ k, k ≠ v → t.hartAt k = s.hartAt k) ∧
  t = { s with hart := t.hart, core := t.core, harts := t.harts, cores := t.cores, saved := t.saved }

/-- Buffered stores performed in their order, but that one with no path to its peer, or behind a held write of its stream, is
held, and with it those of its stream after it (R119, R192, R287). -/
def DrainsInOrder (s t : State) (buf : List BufEntry) : Prop :=
  ∃ held : Nat → Bool,
    (∀ i e, buf[i]? = some e → (held i = true ↔ ¬ GoesOut s e.stream e.loc ∨
      ∃ j f, j < i ∧ held j = true ∧ buf[j]? = some f ∧ (f.stream = e.stream ∨ s.hart.csr.mmrev = 1))) ∧
    t.fabric.held = s.fabric.held ++ (buf.zipIdx.filter fun p => held p.2).map (fun p => heldWrite s p.1) ∧
    let done := (buf.zipIdx.filter fun p => !held p.2).map Prod.fst
    (∀ a, (∀ e ∈ done, ¬ e.holds a) → t.byte a = s.byte a) ∧
    ∀ pre e post bs a, done = pre ++ e :: post → e.op = .store bs → e.holds a → (∀ f ∈ post, ¬ f.holds a) →
      t.byte a = bs.getD (a - e.loc) 0

/-- Only the pc and the loops it ends differ from u. -/
def PassesTo (i : Instr) (s u : State) (n : Nat) : Prop :=
  ∃ t, exec i s = .next t ∧ GoesOn u t n ∧ OnlyControl u t ∧ SameBytes u t

/-- An atomic exchange of the doubleword at va, once u is reached, the strip closed: s[D] receives the old value, and the word
what `new` gives, if anything (R130). -/
def Exchanges (i : Instr) (s u : State) (d : BitVec 5) (va : Word) (new : Word → Option Word) : Prop :=
  ∀ u1 h bs, u.stripOpen = false → Reaches u va 8 .write u1 h → Finds u1 h.loc 8 bs → u.mem.wf = true →
    let old := BitVec.ofNat 64 (leNat (u.bytes h.loc 8))
    ∃ t, exec i s = .next t ∧ Reads t d old ∧ RegistersBut u t d ∧ GoesOn u t 4 ∧ ErrorsNoted u t [(h.loc, 8)] ∧
      (∀ v, new old = some v → Stored u t h.loc (leBytes 8 v.toNat) ∧ WordsCleared u t h.loc 8 ∧
        t.hart.unordered = keptFor u h.loc 8 ∧ t.fabric = sentTo u u.cur 0 h.loc 8) ∧
      (new old = none → SameBytes u t ∧ t.poison = u.poison ∧ t.repair.weak = u.repair.weak ∧
        t.hart.unordered = u.hart.unordered ∧ t.fabric = u.fabric) ∧
      t = { u1 with
        hart := { u1.hart with
          regs := t.hart.regs, pc := t.hart.pc, loops := t.hart.loops, upsets := sameUpsets u t,
          unordered := t.hart.unordered },
        fabric := t.fabric, mem := t.mem, poison := t.poison,
        repair := { u.repair with
          weak := t.repair.weak, corrected := t.repair.corrected, recent := t.repair.recent, log := t.repair.log },
        reports := t.reports }

/-- A write of the hart's workgroup that one of some streams waits for is held for a peer (R131, R192, R287). -/
def Behind (s : State) (streams : BitVec 4) : Prop :=
  ∃ w ∈ s.fabric.held, w.hart = s.cur ∧ w.ended = 0 ∧ w.blocks &&& streams ≠ 0

/-- A stream barrier over streams k completes: later accesses of these streams wait for every held write of the hart's
workgroup that one of them waits for already; the hart goes on (R131). -/
def Bars (i : Instr) (s u : State) (k : BitVec 4) : Prop :=
  ∃ t, exec i s = .next t ∧ GoesOn u t 4 ∧ SameBytes u t ∧
    t = { u with
      hart := { u.hart with pc := t.hart.pc, loops := t.hart.loops },
      fabric := { u.fabric with held := u.fabric.held.map fun w =>
        if w.hart = u.cur ∧ w.ended = 0 ∧ w.blocks &&& k ≠ 0 then { w with blocks := w.blocks ||| k } else w } }

/-- The pages from va up to `stop` in order, with what the tables give for each; vault space and an address that is not
canonical have no translation, and a page without one counts as 64 KiB (R132). -/
def Pages (s : State) (stop : Nat) : Nat → List (Nat × Xlat) → Prop
  | va, [] => stop ≤ va
  | va, (p, x) :: r =>
    let none : Prop := inVaultSpace (BitVec.ofNat 64 va) = true ∨ canonical (BitVec.ofNat 64 va) = false
    va < stop ∧ p = va ∧ (none → x = .invalid) ∧ (¬ none → x = s.walk s.walker va false) ∧
    match x with
    | .ok t => Pages s stop (t.vbase + 2 ^ t.bits) r
    | _ => Pages s stop (va / 65536 * 65536 + 65536) r

/-! ### Vector memory (spec/07 R121 to R129) -/

/-- Accesses probed one after another, each on the state the one before it left, with what each meets. -/
def ProbesFrom (a : Agent) (need : Need) : State → List (Word × Nat) → List Probe → State → Prop
  | s, [], ps, t => ps = [] ∧ t = s
  | s, (va, n) :: r, ps, t =>
    ∃ p qs, ps = p :: qs ∧ (s.probeAt a va n need).2 = p ∧ ProbesFrom a need (s.probeAt a va n need).1 r qs t

/-- The accesses of one instruction probed: its free choices, one for each page, are the same for all of them (R128). -/
def Probes (a : Agent) (need : Need) (s : State) (l : List (Word × Nat)) (ps : List Probe) (t : State) : Prop :=
  ∃ w, ProbesFrom a need s l ps w ∧ t = drew w

/-- Locations read one after another as loads of one stream, all of them readable. -/
def ReadsAll (v : LoadView) : State → List (Nat × Nat) → List (List Byte) → State → Prop
  | s, [], bss, t => bss = [] ∧ t = s
  | s, (loc, n) :: r, bss, t => ∃ u bs cs, bss = bs :: cs ∧ s.loadBytes v loc n = (u, bs, false) ∧ ReadsAll v u r cs t

/-- A vector load completes: group d is written with VL = n; v is the state once memory has been read. -/
def LoadsGroup (i : Instr) (s v : State) (d : BitVec 5) (n : Nat) (res : Nat → Option Elem) : Prop :=
  ∃ t, exec i s = .next t ∧ WroteGroup (s.withVl n) t d res ∧ t.vl = n ∧ GoesOn s t 4 ∧ SameBytes s t ∧
    t = { v with
      hart := { v.hart with
        vregs := t.hart.vregs, pc := t.hart.pc, loops := t.hart.loops,
        csr := { v.hart.csr with vl := BitVec.ofNat 14 n },
        upsets := { v.hart.upsets with vector := t.hart.upsets.vector, weak := weakBut vectorCells v t } },
      free := t.free }

/-- A vector store or atomic completes: VL = n, `entries` among the others of the store buffer, `taken` of its places
taken, flags and the narrowing chain; nothing is stored yet. -/
def BuffersAll (i : Instr) (s v : State) (n : Nat) (entries : List BufEntry) (taken : Nat) (fl : FFlags) (c : Chain) : Prop :=
  ∃ t, exec i s = .next t ∧ GoesOn s t 4 ∧ SameBytes s t ∧ BufferedIn s t entries ∧
    t = { v with
      hart := { v.hart with
        pc := t.hart.pc, loops := t.hart.loops,
        csr := { v.hart.csr with vl := BitVec.ofNat 14 n, fflags := v.hart.csr.fflags ||| fl, ncarry := c },
        strip := { v.hart.strip with
          buf := t.hart.strip.buf, used := v.hart.strip.used + taken, instrs := v.hart.strip.instrs + 1 } },
      free := t.free }

/-- The active elements below n. -/
def activeBelow (s : State) (m : BitVec 3) (n : Nat) : List Nat := (List.range n).filter (s.active m)

/-- The fault of element e at an address: its indices, and finfo with ST, FMT, WR and SCOPE (R122, R125, R26). -/
def elemFault (c : BitVec 8) (e : Nat) (idx : List Nat) (va : Word) (info : Nat) : FaultInfo :=
  { plainFault c with
    elem := e, idx0 := BitVec.ofNat 64 (idx.getD 0 0), idx1 := BitVec.ofNat 64 (idx.getD 1 0),
    idx2 := BitVec.ofNat 64 (idx.getD 2 0), addr := va, info := BitVec.ofNat 64 info }

/-- A failed check that trims VL instead of faulting: not of the lowest active element (R125). -/
def Trims (ff : Bool) (k : Nat) (c : BitVec 8) : Prop := 0 < k ∧ (c = 0x09 ∨ ff = true ∧ (c = 0x07 ∨ c = 0x08))

/-- A vector load of elements of `size` bytes (R123, R125). u is the state once its operands are marked and a tensor's end
has lowered VL to n0. Every active element is probed; one outside the partition decides; else the first that fails faults or
trims VL. Then those below VL are read, each byte from where R123 says, and the first that cannot be read faults. -/
def VectorLoad (i : Instr) (s : State) (st : BitVec 2) (t m : BitVec 3) (d : BitVec 5) (reads : List Use) (ff : Bool) (n0 : Nat)
    (addr : Nat → Word) (idx : Nat → List Nat) : Prop :=
  let f := MemFmt.ofCode t
  let u := (s.mark reads (s.vUse d 0)).withVl n0
  let es := activeBelow s m n0
  let fault (c : BitVec 8) (e : Nat) := elemFault c e (idx e) (addr e) (st.toNat + 4 * t.toNat)
  ∀ ps v, Probes u.self .read u (es.map fun e => (addr e, f.size)) ps v →
    (∀ pre e post, es = pre ++ e :: post → ps[pre.length]? = some .outside → (∀ p ∈ ps.take pre.length, p ≠ .outside) →
      exec i s = .next (v.takeFault (fault 0x12 e))) ∧
    ∀ (hs : List Hit) (rest : List Probe), ps = hs.map Probe.hit ++ rest → (∀ p ∈ ps, p ≠ .outside) →
      let locs := hs.map fun h => (h.loc, f.size)
      (∀ e c tail, es[hs.length]? = some e → rest = .fault c :: tail → ¬ Trims ff hs.length c →
        exec i s = .next (v.takeFault (fault c e))) ∧
      (∀ e tail, es[hs.length]? = some e → rest = .held :: tail →
        exec i s = .next { v with hart := { v.hart with run := .waiting (.held (addr e)) } }) ∧
      ∀ n, (rest = [] ∧ n = n0 ∨ ∃ c tail, rest = .fault c :: tail ∧ Trims ff hs.length c ∧ es[hs.length]? = some n) →
        (∀ bss w, ReadsAll (v.view st) v locs bss w →
          (∀ k j, k < hs.length → j < f.size →
            LoadSource s st ((locs.getD k (0, 0)).1 + j) ((bss.getD k []).getD j 0)) ∧
          (Unhindered s st locs →
            LoadsGroup i s w d n fun e => ((es.zip bss).lookup e).map fun bs => f.widen (leNat bs))) ∧
        ∀ k e loc bss w bs w', es[k]? = some e → locs[k]? = some (loc, f.size) → ReadsAll (v.view st) v (locs.take k) bss w →
          w.loadBytes (v.view st) loc f.size = (w', bs, true) → exec i s = .next (w'.takeFault (fault 0x11 e))

/-- A vector store of elements of `size` bytes (R124, R125, R177): as a load is probed; the elements before the first that
fails are narrowed in ascending order and put into the store buffer. -/
def VectorStore (i : Instr) (s : State) (st : BitVec 2) (t m : BitVec 3) (d : BitVec 5) (reads : List Use) (n0 : Nat)
    (addr : Nat → Word) (idx : Nat → List Nat) : Prop :=
  let f := MemFmt.ofCode t
  let u := (s.mark reads []).withVl n0
  let es := activeBelow s m n0
  let fault (c : BitVec 8) (e : Nat) := elemFault c e (idx e) (addr e) (st.toNat + 4 * t.toNat + 32)
  (16384 < s.hart.strip.used + (activeBelow s m s.vl).length →
    exec i s = .next (s.takeFault (operandFault 0x03 0 6))) ∧
  (s.hart.strip.used + (activeBelow s m s.vl).length ≤ 16384 →
    ∀ ps v, Probes u.self .write u (es.map fun e => (addr e, f.size)) ps v →
      (∀ pre e post, es = pre ++ e :: post → ps[pre.length]? = some .outside → (∀ p ∈ ps.take pre.length, p ≠ .outside) →
        exec i s = .next (v.takeFault (fault 0x12 e))) ∧
      ∀ (hs : List Hit) (rest : List Probe), ps = hs.map Probe.hit ++ rest → (∀ p ∈ ps, p ≠ .outside) →
        ∃ (q : List (Nat × Nat)) (fl : FFlags) (ch : Chain),
        Chained (StoredAs f s.hart.csr.rmode (s.hart.csr.step.extractLsb' 0 16))
          ((es.take hs.length).map fun e => (e, s.elem d e)) s.hart.csr.ncarry q fl ch ∧
        let entries := (hs.zip q).map fun p => newEntry s st p.2.1 d (addr p.2.1) p.1 (.store (leBytes f.size p.2.2))
        let put (n : Nat) := BuffersAll i s v n entries hs.length fl ch
        (rest = [] → put n0) ∧
        ∀ e, es[hs.length]? = some e →
          (∀ c tail, rest = .fault c :: tail →
            (Trims false hs.length c → put e) ∧ (¬ Trims false hs.length c → exec i s = .next (v.takeFault (fault c e)))) ∧
          ∀ tail, rest = .held :: tail →
            exec i s = .next { v with hart := { v.hart with run := .waiting (.held (addr e)) } })

/-- A vector atomic: its elements are probed as a store's and put into the store buffer with their operands (R129). -/
def VectorAtomic (i : Instr) (s : State) (st : BitVec 2) (m : BitVec 3) (d : BitVec 5) (reads : List Use) (op : AtomicOp)
    (addr : Nat → Word) : Prop :=
  let u := s.mark reads []
  let es := activeBelow s m s.vl
  let fault (c : BitVec 8) (e : Nat) := elemFault c e [e] (addr e) (st.toNat + 96)
  (16384 < s.hart.strip.used + es.length → exec i s = .next (s.takeFault (operandFault 0x03 0 6))) ∧
  (s.hart.strip.used + es.length ≤ 16384 →
    ∀ ps v, Probes u.self .write u (es.map fun e => (addr e, 4)) ps v →
      (∀ pre e post, es = pre ++ e :: post → ps[pre.length]? = some .outside → (∀ p ∈ ps.take pre.length, p ≠ .outside) →
        exec i s = .next (v.takeFault (fault 0x12 e))) ∧
      ∀ (hs : List Hit) (rest : List Probe), ps = hs.map Probe.hit ++ rest → (∀ p ∈ ps, p ≠ .outside) →
        let entries := (hs.zip es).map fun p => newEntry s st p.2 d (addr p.2) p.1 (.atomic op (s.elem d p.2))
        let put (n : Nat) := BuffersAll i s v n entries hs.length 0 s.hart.csr.ncarry
        (rest = [] → put s.vl) ∧
        ∀ e, es[hs.length]? = some e →
          (∀ c tail, rest = .fault c :: tail →
            (Trims false hs.length c → put e) ∧ (¬ Trims false hs.length c → exec i s = .next (v.takeFault (fault c e)))) ∧
          ∀ tail, rest = .held :: tail →
            exec i s = .next { v with hart := { v.hart with run := .waiting (.held (addr e)) } })

/-- Length and signed stride of dimension k (R122). -/
def dimLength (s : State) (k : Nat) : Nat := (s.dim k).toNat % 2 ^ 32
def dimStep (s : State) (k : Nat) : Int := ((s.dim k).extractLsb' 32 32).toInt

/-- The indices of element e in n dimensions, and the element's offset (R122). -/
def tensorIndices (s : State) (n e : Nat) : List Nat :=
  if n = 1 then [e]
  else if n = 2 then [e % dimLength s 0, e / dimLength s 0]
  else [e % dimLength s 0, e / dimLength s 0 % dimLength s 1, e / (dimLength s 0 * dimLength s 1)]

def tensorOffset (s : State) (n e : Nat) : Int :=
  ((tensorIndices s n e).zipIdx.map fun p => (p.1 : Int) * dimStep s p.2).sum

/-- VL once the end of a tensor of n dimensions has trimmed it: the lowest active element whose outermost index lies at or
beyond its length, else VL as it is (R122). -/
def TensorEnd (s : State) (m : BitVec 3) (n n0 : Nat) : Prop :=
  let beyond (e : Nat) : Prop := dimLength s (n - 1) ≤ (tensorIndices s n e).getD (n - 1) 0
  (∀ e, e < n0 → s.active m e = true → ¬ beyond e) ∧ (n0 = s.vl ∨ s.active m n0 = true ∧ beyond n0)

/-- What an element in memory widens to (R35, R37). -/
def Widens (f : MemFmt) (raw : Nat) (x : Elem) : Prop :=
  let exactly (g : Fmt) : Prop :=
    if g.decode raw = .nan then x = canonNan32
    else (val32 x).eqv (g.decode raw) = true ∧ x.getLsbD 31 = (g.decode raw).isNeg
  match f with
  | .fmtF32 => x = BitVec.ofNat 32 raw
  | .fmtI32 => x = BitVec.ofNat 32 raw
  | .fmtBf16 => x = BitVec.ofNat 32 (raw * 65536)
  | .fmtF16 => exactly f16
  | .fmtE4m3 => exactly e4m3
  | .fmtE5m2 => exactly e5m2
  | .fmtI8 => x = BitVec.ofInt 32 (lowSigned 1 raw)
  | .fmtMxfp4 => True

/-- Element j of an MXFP4 block of 17 bytes whose values lie in range of FP32 (R40). -/
def BlockElem (bytes : List Byte) (j : Nat) (x : Elem) : Prop :=
  let scale := (bytes.getD 0 0).toNat
  let nibble := (bytes.getD (1 + j / 2) 0).toNat / (if j % 2 = 0 then 1 else 16) % 16
  (scale = 255 → x = canonNan32) ∧
  (scale ≤ 252 → (val32 x).eqv ((e2m1.decode nibble).scale ((scale : Int) - 127)) = true ∧ x.getLsbD 31 = decide (8 ≤ nibble))

/-! ### Matrix state (spec/08 R137 to R155) -/

/-- In an open strip none of these units has been read before it was written (R138). -/
def Unread (s : State) (writes : List Use) : Prop :=
  s.stripOpen = true → ∀ w ∈ writes, s.hart.strip.readFirst.getLsbD w.unit = false

/-- An instruction of four bytes on the hart's matrix state completes: the new matrix state satisfies P, the next state `extra`;
outside matrix state only registers, flags, the chain and the marks differ. -/
def ActsOnMatrix (i : Instr) (s : State) (reads writes : List Use) (P : Matrix → Prop) (extra : State → Prop) : Prop :=
  ∃ t m, exec i s = .next t ∧ t.core.matrix = some m ∧ P m ∧ extra t ∧ GoesOn s t 4 ∧ SameBytes s t ∧
    (s.stripOpen = true → Marked s t reads writes) ∧ (s.stripOpen = false → t.hart.strip = s.hart.strip) ∧
    t = { s with
      hart := { s.hart with
        regs := t.hart.regs, vregs := t.hart.vregs, pc := t.hart.pc, loops := t.hart.loops,
        csr := { s.hart.csr with fflags := t.hart.csr.fflags, ncarry := t.hart.csr.ncarry },
        upsets := { s.hart.upsets with
          scalar := t.hart.upsets.scalar, vector := t.hart.upsets.vector, weak := weakBut (scalarCells ||| vectorCells) s t },
        strip := { s.hart.strip with readFirst := t.hart.strip.readFirst, written := t.hart.strip.written } },
      core := { s.core with matrix := some m } }

/-- No register, flag or chain changes. -/
def SameRegisters (s t : State) : Prop :=
  t.hart.regs = s.hart.regs ∧ t.hart.vregs = s.hart.vregs ∧ t.hart.csr = s.hart.csr ∧ t.hart.upsets = s.hart.upsets

/-- Flags are ORed in from the results of a 64 × 256 grid; registers and the chain stay. -/
def FlaggedGrid (s t : State) (f : Nat → Nat → FFlags) : Prop :=
  t.hart.regs = s.hart.regs ∧ t.hart.vregs = s.hart.vregs ∧ t.hart.csr.ncarry = s.hart.csr.ncarry ∧
  t.hart.upsets = s.hart.upsets ∧
  ∀ k, t.hart.csr.fflags.getLsbD k = true ↔
    s.hart.csr.fflags.getLsbD k = true ∨ ∃ r c, r < 64 ∧ c < 256 ∧ (f r c).getLsbD k = true

/-- Every element (n, r, c) of the four accumulators of a bank, or of the eight tile registers, by its value. -/
def Grid48 (old new : Cells 48) (f : Nat → Nat → Nat → A48 → A48) : Prop :=
  ∀ n r c, n < 4 → r < 64 → c < 256 → cget new (tileKey n r c) = f n r c (cget old (tileKey n r c))
def Grid16 (old new : Cells 16) (f : Nat → Nat → Nat → Half → Half) : Prop :=
  ∀ n r c, n < 8 → r < 64 → c < 256 → cget new (tileKey n r c) = f n r c (cget old (tileKey n r c))

/-- Every slot n of every cell (k, c), by its value. -/
def Slots16 (old new : Cells 16) (f : Nat → Nat → Nat → Half → Half) : Prop :=
  ∀ k c n, k < 256 → c < 256 → n < 16 → cget new (slotKey k c n) = f k c n (cget old (slotKey k c n))

/-- The index operand of a move, when it is a permitted one: `w` bits of s[B] may be set, the index is at most `top` (R144). -/
def MoveIndex (s : State) (b : BOp) (w top x : Nat) : Prop :=
  x ≤ top ∧ match b with
    | .vi n => x = n.toNat
    | .vs n => x = (s.x n).toNat % 256 ∧ (s.x n).toNat < 2 ^ w
    | .vv _ => False

/-- Bit 8 of s[B]: the BF16 target of an extract (R144). -/
def narrowTarget (s : State) (b : BOp) : Bool :=
  match b with
  | .vs n => (s.x n).getLsbD 8
  | _ => false

/-- s := RNE48(s + φ_k(x)) over band rows with their activations, in order (R148). -/
def forwardOf (phi : Nat → Num → A48 × FFlags) (s : A48) (rows : List (Nat × Num)) : A48 × FFlags :=
  rows.foldl (fun s k => let p := phi k.1 k.2; add48 (s.1, s.2 ||| p.2) ((val48 s.1).add (val48 p.1))) (s, 0)

/-- s := RNE48(s + RNE48(δ × φ')) over columns, in order (R149). -/
def backwardOf (dphi : Nat → A48 × FFlags) (delta : Nat → Num) (s : A48) (cols : List Nat) : A48 × FFlags :=
  cols.foldl (fun s n =>
    let q := dphi n
    let p := add48 (0, s.2 ||| q.2) ((delta n).mul (val48 q.1))
    add48 (s.1, p.2) ((val48 s.1).add (val48 p.1))) (s, 0)

/-- s := RNE48(s + x × y), the product exact, in order (R150). -/
def productOf (s : A48) (l : List (Num × Num)) : A48 × FFlags :=
  l.foldl (fun s p => add48 s (p.1.fma p.2 (val48 s.1))) (s, 0)

/-- Band rows with the column of the activation each takes: row k takes column k, or under a mask the next one of those
whose bit is set (R148). -/
def bandColumns (nr : Nat) (mask : Option (Nat → Bool)) : List (Nat × Nat) :=
  match mask with
  | none => (List.range nr).map fun k => (k, k)
  | some f => ((List.range nr).filter f).zipIdx

/-- Element (h, c) of chunk q of a vault operand, as the vault of the hart's core holds it (R153); +0 where it is not read. -/
def vaultChunk (s : State) (o : VaultOp) (q rows : Nat) (cols : List Nat) (h c : Nat) : Num :=
  if h < rows ∧ c ∈ cols then
    let off := o.base + q * o.tpitch + h * o.rpitch + 8 * ((c / 4 + h * o.rot) % 64) + 2 * (c % 4)
    val16 (BitVec.ofNat 16 (leNat (s.bytes (2 ^ 52 + coreOf s.cur * 8388608 + off) 2)))
  else val16 0

/-- An in-vault offset lies in the half a member of a time-shared pair holds (R127). -/
def HalfHolds (p : Partition) (off : Nat) : Prop := p.pair = none ∨ (p.half = true ↔ 0x400000 ≤ off)

/-- An offset lies in the own vault (R154). -/
def InOwnVault (s : State) (off : Nat) : Prop := off < 8388608 ∧ HalfHolds (s.partAt s.hart.ctl.part) off

/-- A vault operand passes the checks of R153 and R154: its must-be-zero bits, its rows, its alignment, and its place in the
vault for `chunks` chunks and n columns. -/
def VaultOk (s : State) (r : BitVec 5) (chunks n : Nat) : Prop :=
  let o := s.vaultOp r
  r.getLsbD 0 = false ∧ (s.x (r + 1)).extractLsb' 48 16 = 0 ∧ 1 ≤ o.rows ∧ o.rows ≤ 64 ∧
  o.base % 2 = 0 ∧ o.rpitch % 2 = 0 ∧ o.tpitch % 2 = 0 ∧
  ∀ q h c, q < chunks → h < o.rows → c < n → InOwnVault s (o.offset q h c)

/-- The step at which a macro-operation goes on: the first, or the one that mseq names (R156). -/
def stepNow (s : State) : Nat := if s.hart.csr.mseqAct then s.hart.csr.mseqStep.toNat else 0

/-- A macro-operation that passes its checks does its next step (R155, R156): it then stands before the step after it, where
it can be suspended and other agents have their turns (R277), or it is done, mseq being 0. Uncorrectable data ends it with
fault 0x11. Where it loads from the vault, no held write of the hart may stand before it. -/
def RunsSteps (i : Instr) (s u : State) (loads : Bool) (total : Nat)
    (step : State → Matrix → Nat → Except (State × FaultInfo) State) : Prop :=
  let k := stepNow s
  k < total → (loads = true → Unhindered u 0 [(2 ^ 52 + coreOf s.cur * 8388608, 8388608)]) →
    ∀ m, u.core.matrix = some m →
      (∀ v, step u m k = .ok v →
        (k + 1 < total → exec i s = .next { v with hart := { v.hart with
          csr := { v.hart.csr with mseqStep := BitVec.ofNat 20 (k + 1), mseqAct := true } } }) ∧
        (k + 1 = total → ∃ t, exec i s = .next t ∧ GoesOn v t 8 ∧ SameBytes v t ∧
          t = { v with hart := { v.hart with
            pc := t.hart.pc, loops := t.hart.loops, csr := { v.hart.csr with mseqStep := 0, mseqAct := false } } })) ∧
      (∀ w f, step u m k = .error (w, f) → exec i s = .next (w.takeFault f)) ∧
      (s.poison = [] → ∃ v, step u m k = .ok v)

/-! ### Volumes (spec/09 R159 to R163; spec/14 R225 to R231) -/

/-- Bytes written at a location by the hart in front, which keeps those replaced for its engines (R170). -/
def written (s : State) (loc : Nat) (bs : List Byte) : State := (s.replacing loc bs.length).write loc bs

/-- A claim of a chunk within one 64 KiB page for a zero entry at `va` that can be written: pool next moves on, the chunk is
filled, and the hart's next turn installs it (R162, R230, R231). -/
def Claims (c : Lath) (va : Word) (leaf : Bool) (s t : State) : Prop :=
  let size := if leaf then 512 * c.desc.esize else 32768
  let data := if leaf then (List.replicate 512 (leBytes c.desc.esize c.desc.bg.toNat)).flatten else List.replicate 32768 (0#8)
  c.desc.walloc = true ∧ 0 < size ∧ ∃ e h g s0 s1 s3, s.probe s.self va 8 .write = (s0, .hit e) ∧
    s0.probe s0.self (c.desc.addr + 32) 16 .write = (s1, .hit h) ∧ nodeOf h.loc = 0 ∧ s1.poisoned h.loc 16 = false ∧
    let next := s1.readNat h.loc 8
    next + size ≤ s1.readNat (h.loc + 8) 8 ∧ next % 65536 + size ≤ 65536 ∧
    let s2 := written (s1.noteRead h.loc 16) h.loc (leBytes 8 (next + size))
    s2.reachAddr s2.self (BitVec.ofNat 64 next) .write = (s3, .hit g) ∧ nodeOf g.loc = 0 ∧
    let s4 := written s3 g.loc data
    t = { s4 with hart := { s4.hart with
      claim := some ⟨va, c.desc.addr + 48, BitVec.ofNat 64 next, size, c.vox.elem, c.info.word⟩ } }

/-- Where a walk stops without a fault: at a leaf, or at an entry that reads 0, the last of the walk or not. -/
inductive WalkEnd where
  | leaf (va : Word)
  | zero (va : Word) (last : Bool)

/-- The walk from the table of a level, n levels left below it: each entry is read as a doubleword of this device, and names a
table or leaf of it at a canonical multiple of 64 outside vault space (R162, R226). -/
def Walks (c : Lath) : Nat → Nat → Word → State → WalkEnd → State → Prop
  | n, level, table, s, r, t =>
    let va := table + BitVec.ofNat 64 (8 * c.desc.entryAt c.vox level)
    ∃ h u, s.probe s.self va 8 .read = (u, .hit h) ∧ u.poisoned h.loc 8 = false ∧ nodeOf h.loc = 0 ∧
      let w := u.noteRead h.loc 8
      (u.readNat h.loc 8 = 0 ∧ r = .zero va (decide (n = 0)) ∧ t = w ∨
        ∃ v : Word, u.readNat h.loc 8 ≠ 0 ∧ v.toNat = u.readNat h.loc 8 ∧
          v.toNat % 64 = 0 ∧ canonical v = true ∧ inVaultSpace v = false ∧
          (∀ g, (w.probe w.self v 8 .read).2 = .hit g → nodeOf g.loc = 0) ∧
          match n with
          | 0 => r = .leaf v ∧ t = (w.probe w.self v 8 .read).1
          | k + 1 => Walks c k (level + 1) v (w.probe w.self v 8 .read).1 r t)

/-- Elements found one after another, each on the state the one before it left. -/
def FindsAll (mk : Voxel → Lath) (st : BitVec 2) (data : Bool) : State → List Voxel → List Found → State → Prop
  | s, [], l, t => l = [] ∧ t = s
  | s, p :: r, l, t => ∃ f q u, l = f :: q ∧ s.findVoxel (mk p) st data = (u, .ok f) ∧ FindsAll mk st data u r q t

/-- A record at va, to be a multiple of `align`, is read as a load in stream st by some accesses: one outside the partition
decides, then its alignment; else of what fails the first cause in the order of R125, at the first access that meets it; a
record that `early` says of its locations is the fault f; the first access that cannot be read faults; else `done` of the
state after it, and its bytes (R28, R125, R160, R163, R165, R166). -/
def RecordRead (i : Instr) (s u : State) (st : BitVec 2) (va : Word) (align : Nat) (l : List (Word × Nat)) (early : List Hit → Prop)
    (f : FaultInfo) (done : State → List Byte → Prop) : Prop :=
  let fault (c : BitVec 8) (va : Word) := elemFault c 0 [0] va st.toNat
  ∀ ps w, Probes u.self .read u l ps w →
    (∀ pre va n post, l = pre ++ (va, n) :: post → ps[pre.length]? = some .outside → (∀ p ∈ ps.take pre.length, p ≠ .outside) →
      exec i s = .next (w.takeFault (fault 0x12 va))) ∧
    ((∀ p ∈ ps, p ≠ .outside) → va.toNat % align ≠ 0 → exec i s = .next (w.takeFault (fault 0x14 va))) ∧
    ((∀ p ∈ ps, p ≠ .outside) → va.toNat % align = 0 →
      (∀ k a n p, l[k]? = some (a, n) → ps[k]? = some p → (∀ q ∈ ps, p.rank ≤ q.rank) → (∀ q ∈ ps.take k, q.rank ≠ p.rank) →
        (∀ c, p = .fault c → exec i s = .next (w.takeFault (fault c a))) ∧
        (p = .held → exec i s = .next { w with hart := { w.hart with run := .waiting (.held a) } })) ∧
      ∀ hs : List Hit, ps = hs.map Probe.hit →
        (early hs → exec i s = .next (w.takeFault f)) ∧
        (¬ early hs →
          let locs := (hs.zip l).map fun p => (p.1.loc, p.2.2)
          (∀ bss x, ReadsAll (w.view st) w locs bss x → Unhindered u st locs → done x bss.flatten) ∧
          ∀ (k : Nat) (va : Word) (n loc : Nat) (bss : List (List Byte)) (x : State) (bs : List Byte) (y : State),
            l[k]? = some (va, n) → locs[k]? = some (loc, n) → ReadsAll (w.view st) w (locs.take k) bss x →
            x.loadBytes (w.view st) loc n = (y, bs, true) → exec i s = .next (y.takeFault (fault 0x11 va))))

/-- A doubleword of an install at va, from u on: where it can be read and written `done` holds of the state after the read
and its location; else the turn ends in a fault of the claim's element, which a strip aborted since the claim does not take, or
the hart waits for the page with its claim (R125, R226). -/
def ClaimWord (s u : State) (k : Claim) (va : Word) (done : State → Nat → Prop) : Prop :=
  let ends (w : State) (c : BitVec 8) : Prop :=
    let f : FaultInfo :=
      { plainFault c with elem := k.elem, idx0 := BitVec.ofNat 64 k.elem, addr := va, info := k.info }
    step s = .next (if w.stripOpen then w.takeFault f else w)
  ∀ w p, u.probe u.self va 8 .write = (w, p) →
    (∀ h, p = .hit h → w.poisoned h.loc 8 = true → ends (w.noteRead h.loc 8) 0x11) ∧
    (∀ h, p = .hit h → w.poisoned h.loc 8 = false → done (w.noteRead h.loc 8) h.loc) ∧
    (∀ c, p = .fault c → ends w c) ∧ (p = .outside → ends w 0x12) ∧
    (p = .held → step s = .next { w with hart := { w.hart with claim := some k, run := .waiting (.held va) } })

/-- The chunk of a claim is installed by the hart's next turn: a zero entry takes it, else the waste counter grows by its
size (R162, R231). -/
def Installs (s : State) (k : Claim) : Prop :=
  let puts (u : State) (loc v : Nat) : Prop := u.mem.wf = true → ∃ t, step s = .next t ∧ Stored u t loc (leBytes 8 v) ∧
    Corrected u t loc 8 ∧ t = { u with
      hart := { u.hart with unordered := keptFor u loc 8 }, fabric := sentTo u u.cur 0 loc 8, mem := t.mem, poison := t.poison,
      repair := t.repair }
  ClaimWord s { s with hart := { s.hart with claim := none } } k k.entry fun u loc =>
    let now := leNat (u.bytes loc 8)
    (now = 0 → puts u loc k.chunk.toNat) ∧
    (now ≠ 0 → ClaimWord s u k k.waste fun w at' => puts w at' (leNat (w.bytes at' 8) + k.size))

/-- The first fault of cause c among elements that are walked without allocating. -/
def Ahead (x : State) (mk : Voxel → Lath) (c : BitVec 8) (vs : List Voxel) (g : FaultInfo) : Prop :=
  let ends (p : Voxel) (f : FaultInfo) : Prop := (x.findVoxel { mk p with writer := false } 0 false).2 = .error (.fault f)
  ∃ pre p post, vs = pre ++ p :: post ∧ ends p g ∧ g.cause = c ∧ ∀ q ∈ pre, ∀ f, ends q f → f.cause ≠ c

/-- A VCO instruction walks its active elements in ascending order: `done` holds once all are found; else the first that is
not found decides, but that an entry no tree can hold (0x0B) among it and the later ones ranks ahead, and then an address
outside the partition (0x12) (R28, R162). A chunk claimed for it is installed first. -/
def VoxelWalk (i : Instr) (s : State) (mk : Voxel → Lath) (st : BitVec 2) (data : Bool) (u : State) (vs : List Voxel)
    (done : State → List Found → Prop) : Prop :=
  (∀ l w, FindsAll mk st data u vs l w → done w l) ∧
  ∀ pre p post l w, vs = pre ++ p :: post → FindsAll mk st data u pre l w →
    (∀ x f, w.findVoxel (mk p) st data = (x, .error (.fault f)) →
      let takes (g : FaultInfo) : Prop := exec i s = .next (x.takeFault g)
      let ahead (c : BitVec 8) (g : FaultInfo) : Prop := Ahead x mk c post g
      (f.cause = 0x0B → takes f) ∧ (f.cause ≠ 0x0B → ∀ g, ahead 0x0B g → takes g) ∧
      (f.cause ≠ 0x0B → (∀ g, ¬ ahead 0x0B g) →
        (f.cause = 0x12 → takes f) ∧
        (f.cause ≠ 0x12 → (∀ g, ahead 0x12 g → takes g) ∧ ((∀ g, ¬ ahead 0x12 g) → takes f)))) ∧
    (∀ x va, w.findVoxel (mk p) st data = (x, .error (.held va)) →
      exec i s = .next { x with hart := { x.hart with run := .waiting (.held va) } }) ∧
    ∀ x, w.findVoxel (mk p) st data = (x, .error .claimed) → exec i s = .next x

/-- A writing VCO instruction completes: entries among the others of the store buffer; w is the state its walks left. -/
def BuffersVoxels (i : Instr) (s w : State) (entries : List BufEntry) (fl : FFlags) (c : Chain) : Prop :=
  ∃ t, exec i s = .next t ∧ GoesOn s t 4 ∧ SameBytes w t ∧ BufferedIn w t entries ∧
    t = { w with
      hart := { w.hart with
        pc := t.hart.pc, loops := t.hart.loops,
        csr := { w.hart.csr with fflags := w.hart.csr.fflags ||| fl, ncarry := c },
        strip := { w.hart.strip with
          buf := t.hart.strip.buf, used := w.hart.strip.used + entries.length,
          instrs := w.hart.strip.instrs + 1 } },
      free := t.free }

/-- A leaf of volume v meets the box from lo to hi, each a packed triple of 21-bit corners (R163). -/
def MeetsBox (s : State) (v : VDesc) (lo hi : Word) (k : LeafKey) : Prop :=
  let axis (i n : Nat) : Prop :=
    (8 * i - 2 ^ (v.rbits + 4 * v.levels + 2) : Int) ≤ (hi.extractLsb' (21 * n) 21).toInt ∧
      (lo.extractLsb' (21 * n) 21).toInt ≤ 8 * i - 2 ^ (v.rbits + 4 * v.levels + 2) + 7
  k.part = s.hart.ctl.part ∧ k.root1 = s.hart.sup.xlat1 ∧ k.root = v.root ∧ axis k.ix 0 ∧ axis k.iy 1 ∧ axis k.iz 2

/-! ### Engine commands and user interrupts (spec/09 R164 to R174) -/

/-- Queue q takes one more operation, numbered behind the last issued, with the bytes that the hart's writes not ordered
before it have replaced (R170); no other queue changes (R164). -/
def Enqueued (w t : State) (q : BitVec 2) (kind : EngKind) : Prop :=
  t.queue q = { w.queue q with
    issued := (w.queue q).issued + 1, ops := (w.queue q).ops ++ [⟨(w.queue q).issued + 1, kind, none, w.hart.unordered⟩] } ∧
  ∀ r, r ≠ q → t.queue r = w.queue r

/-- An engine command queues an operation and writes its tag to s[D]; w is the state once memory has been read. -/
def Commands (i : Instr) (s w : State) (q : BitVec 2) (d : BitVec 5) (kind : EngKind) : Prop :=
  ∃ t, exec i s = .next t ∧ Reads t d (q ++ BitVec.ofNat 62 ((w.queue q).issued + 1)) ∧ RegistersBut s t d ∧ GoesOn w t 4 ∧
    SameBytes w t ∧ Enqueued w t q kind ∧
    t = { w with hart := { w.hart with
      regs := t.hart.regs, pc := t.hart.pc, loops := t.hart.loops, queues := t.hart.queues, upsets := sameUpsets w t } }

/-- An operation that writes region n of its partition: a copy of at least one byte into it, or a collective (R165 to R168). -/
def WritesRegion (k : EngKind) (n : Nat) : Prop :=
  (∃ src dst len named publish ui, k = .copy src dst len named (.region n) publish ui ∧ len ≠ 0) ∨
  ∃ b ms, k = .coll b ms ∧ b.region = n

/-- The hart waits at the instruction; u is the state it waits in. -/
def WaitsIn (i : Instr) (s u : State) (w : Wait) : Prop := exec i s = .next { u with hart := { u.hart with run := .waiting w } }

/-- The first unblocked pending source of the queues `allowed`: queues 0 to 3, then RAISE (R172). -/
def FirstSource (u : UserInt) (allowed : BitVec 4) (src : Source) : Prop :=
  let due (q : Nat) : Prop := u.pendEq.getLsbD q = true ∧ u.maskEq.getLsbD q = false ∧ allowed.getLsbD q = true
  match src with
  | .queue q => due q.val ∧ ∀ r, r < q.val → ¬ due r
  | .raise => u.pendRaise = true ∧ u.maskRaise = false ∧ ∀ r, r < 4 → ¬ due r

/-- The user handler is entered from u for a source (R172): its pending bit goes unless completions `rest` of the queue
remain, uicause and uiepc are written, the loops are set aside, s24 to s31 switch to the shadow bank, s30 from uistk. -/
def EntersHandler (u t : State) (src : Source) (rest : List Nat) (resume : Word) : Prop :=
  (∀ n, t.x n = if n.toNat < 24 then u.x n else if n = 30 then u.hart.ui.uistk else 0) ∧
  t.hart.ui = { u.hart.ui with
    kind := t.hart.ui.kind, queue := t.hart.ui.queue, value := t.hart.ui.value, pendEq := t.hart.ui.pendEq,
    pendRaise := t.hart.ui.pendRaise, uiepc := resume, inHandler := true, loops := u.hart.loops, bank := t.hart.ui.bank,
    owed := t.hart.ui.owed } ∧
  (∀ k : Fin 8, t.hart.ui.bank[k] = u.x (BitVec.ofNat 5 (24 + k.val))) ∧
  (match src with
    | .queue q => t.hart.ui.kind = 0 ∧ t.hart.ui.queue.toNat = q.val ∧ t.hart.ui.value = 0 ∧
      t.hart.ui.pendRaise = u.hart.ui.pendRaise ∧
      (∀ k, t.hart.ui.owed.getLsbD k = (u.hart.ui.owed.getLsbD k && decide (k ≠ q.val))) ∧
      (∀ k, t.hart.ui.pendEq.getLsbD k = if k = q.val then !rest.isEmpty else u.hart.ui.pendEq.getLsbD k) ∧
      t.queue (BitVec.ofNat 2 q.val) = { u.queue (BitVec.ofNat 2 q.val) with uiDone := rest } ∧
      ∀ r, r.toNat ≠ q.val → t.queue r = u.queue r
    | .raise => t.hart.ui.kind = 1 ∧ t.hart.ui.queue = 0 ∧ t.hart.ui.value = u.hart.ui.raised ∧ t.hart.ui.pendRaise = false ∧
      t.hart.ui.pendEq = u.hart.ui.pendEq ∧ t.hart.ui.owed = u.hart.ui.owed ∧ t.hart.queues = u.hart.queues) ∧
  (∀ n, n < 32 → t.hart.upsets.scalar.getLsbD n = (decide (n < 24) && u.hart.upsets.scalar.getLsbD n)) ∧
  (∀ k, k < 8 → t.hart.upsets.bank.getLsbD k = u.hart.upsets.scalar.getLsbD (24 + k)) ∧
  (∀ n, n < 112 → t.hart.upsets.weak.getLsbD n =
    if 24 ≤ n ∧ n < 32 then false else u.hart.upsets.weak.getLsbD (if 32 ≤ n ∧ n < 40 then n - 8 else n)) ∧
  SameBytes u t ∧
  t = { u with hart := { u.hart with
    run := .running, pc := u.hart.ui.uivec, loops := [], regs := t.hart.regs, ui := t.hart.ui, queues := t.hart.queues,
    upsets := { u.hart.upsets with
      scalar := t.hart.upsets.scalar, bank := t.hart.upsets.bank, weak := t.hart.upsets.weak } } }

/-- An instruction or event takes the source. -/
def TakesSource (i : Instr) (s u : State) (src : Source) (rest : List Nat) (resume : Word) : Prop :=
  ∃ t, exec i s = .next t ∧ EntersHandler u t src rest resume

/-! ### Engine operations (spec/09 R164 to R170) -/

/-- Operation o at the head of queue q of the hart in front completes, ended by err if that is given (R164, R169): the queue
moves on, an interrupt it asked for is pending, in the image of a hart that has halted where that lies in a save area (R292;
its place: log 86), and a hart that has issued its last instruction ends its workgroup once all
its queues are empty. -/
def Done (u t : State) (q : BitVec 2) (o : EngineOp) (err : Option (BitVec 8 × Word)) : Prop :=
  let k := u.queue q
  let image (loc : Nat) : Prop := ∃ ctx a, tget u.saved u.cur = some ctx ∧ ctx.area = some a ∧ loc = a + 0x22A00 * (u.cur % 2)
  ∃ x : State,
    ((∀ loc, ¬ image loc) → x = { u with
      hart := { u.hart with queues := x.hart.queues, ui := { u.hart.ui with pendEq := x.hart.ui.pendEq } } } ∧
      ∀ j, x.hart.ui.pendEq.getLsbD j = (u.hart.ui.pendEq.getLsbD j || o.kind.ui && decide (j = q.toNat))) ∧
    (∀ loc, image loc →
      let place := loc + imageUipend
      (o.kind.ui = false → x = { u with hart := { u.hart with queues := x.hart.queues } }) ∧
      (o.kind.ui = true → Corrected u x place 8 ∧
        (u.mem.wf = true → Stored u x place (leBytes 8 (leNat (u.bytes place 8) ||| 2 ^ q.toNat))) ∧
        x = { u with
          hart := { u.hart with queues := x.hart.queues }, mem := x.mem, poison := x.poison, repair := x.repair })) ∧
    x.queue q = { k with
      done := o.seq, ops := k.ops.tail, uiDone := if o.kind.ui then k.uiDone ++ [o.seq] else k.uiDone,
      errors := k.errors ++ err.toList.map fun e => ⟨o.seq, e.1, e.2⟩,
      firstError := if err.isSome then some (k.firstError.getD o.seq) else k.firstError } ∧
    (∀ r, r ≠ q → x.queue r = u.queue r) ∧
    let ended : Prop := u.hart.run = .ending ∧ ∀ r, (x.queue r).ops = []
    (ended → t = x.workgroupOver) ∧ (¬ ended → t = x)

/-- How many bytes of the block of 64 at an offset are among n bytes of a region from `first` on. -/
def blockLength (first n off : Nat) : Nat := min (64 - off % 64) (first + n - off)

/-- What a block of a back backing meets, and its location when the second stage maps it (R165, R301). -/
def backWalk (u : State) (part : Nat) (root : Word) (r : Region) (off : Nat) : Walk := u.stage2In part root (r.back + off) true
def backLoc (u : State) (r : Region) (off : Nat) (l : Leaf) : Nat := u.fabric.normal (l.base + (r.back + off) % 2 ^ l.bits)

/-- The block of n bytes at an offset of a region of a partition can be written: the second stage lets it be, the grant of a
peer covers it, and a path leads there (R282, R287, R301). -/
def BlockOpen (u : State) (part : Nat) (root : Word) (r : Region) (off n : Nat) : Prop :=
  ∃ l, backWalk u part root r off = .ok l ∧ l.w = true ∧ u.admitted part (backLoc u r off l) n true = true ∧
    u.noPath (backLoc u r off l) = false

/-- An offset at which a block of 64 bytes of a region begins, for n bytes from `first` on. -/
def BlockStart (first n off : Nat) : Prop := first ≤ off ∧ off < first + n ∧ (off = first ∨ off % 64 = 0)

/-- Byte i of the n at dst, in a region, lies at loc i of its back backing, and each block of them can be written (R165,
R200). -/
def BackAt (u : State) (region : Nat) (dst : Word) (n : Nat) (loc : Nat → Nat) : Prop :=
  ∃ r, u.myRegion region = some r ∧ r.base ≤ dst.toNat ∧ dst.toNat + n ≤ r.base + r.len ∧
    let first := dst.toNat - r.base
    let part := u.hart.ctl.part
    let root := u.hart.sup.xlat2
    (∀ off, BlockStart first n off → BlockOpen u part root r off (blockLength first n off)) ∧
    ∀ i, i < n → ∃ l, backWalk u part root r (first + i) = .ok l ∧ loc i = backLoc u r (first + i) l

/-- What the block at an offset of a back backing ends in when it cannot be written, for n bytes from `first` on whose earlier
blocks can be: an error, or a freeze (R165, R169, R282, R287, R301). -/
def BackStops (u : State) (r : Region) (first n off : Nat) (fails : BitVec 8 → Word → Prop) (freezes : Word → Prop) : Prop :=
  let va := BitVec.ofNat 64 (r.base + off)
  let part := u.hart.ctl.part
  let root := u.hart.sup.xlat2
  let w := backWalk u part root r off
  let admitted (l : Leaf) : Prop := u.admitted part (backLoc u r off l) (blockLength first n off) true = true
  BlockStart first n off → (∀ k, BlockStart first n k → k < off → BlockOpen u part root r k (blockLength first n k)) →
    (w = .invalid → fails 0x07 va) ∧ (w = .outside → freezes va) ∧
    ∀ l, w = .ok l → (l.w = false → fails 0x07 va) ∧ (l.w = true → ¬ admitted l → freezes va) ∧
      (l.w = true → admitted l → u.noPath (backLoc u r off l) = true → fails 0x11 va)

/-- Writes to peers have joined those that may still be rejected (R282). -/
def SentOn (u c : State) : Prop :=
  ∃ l : List SentWrite, c.fabric = { u.fabric with sent := u.fabric.sent ++ l } ∧ ∀ w ∈ l, w.ended = 0 ∧ nodeOf w.loc ≠ 0

/-- An agent other than a hart has read and written: c differs from u in memory, where a code word may have become correctable, in
the writes to peers that may be rejected, and in the counts and the log of errors, if there are any; a free value has been
drawn (R305, R308). -/
def Touched (u c : State) : Prop :=
  (∀ w ∈ c.poison, w ∈ u.poison) ∧ (∀ w ∈ c.repair.weak, w ∈ u.repair.weak) ∧ SentOn u c ∧
  (u.poison = [] → u.repair.weak = [] → c.repair = u.repair ∧ c.reports = u.reports) ∧
  c = { u with
    mem := c.mem, poison := c.poison, free := c.free, reports := c.reports, fabric := c.fabric,
    repair := { u.repair with
      weak := c.repair.weak, corrected := c.repair.corrected, recent := c.repair.recent, log := c.repair.log } }

/-- Bytes bs placed at loc 0, loc 1, … in this order; every other byte stays. -/
def Placed (u c : State) (loc : Nat → Nat) (bs : List Byte) : Prop :=
  Touched u c ∧
  (∀ a, (∀ i, i < bs.length → loc i ≠ a) → c.byte a = u.byte a) ∧
  ∀ i, i < bs.length → (∀ j, i < j → j < bs.length → loc j ≠ loc i) → c.byte (loc i) = bs.getD i 0

/-- A doubleword written to ordinary memory by an engine queue of the hart in front. Among the hart's earlier writes which are
not ordered before the operation and touch its bytes, the latest n may be performed after it (R170). -/
def EngineWrites (u c : State) (q : BitVec 2) (old : List Replaced) (loc v : Nat) : Prop :=
  let reaches (g : Replaced) (a : Nat) : Prop := g.1 ≤ a ∧ a < g.1 + g.2.length
  ∃ n, (∀ a, c.byte a =
      if loc ≤ a ∧ a < loc + 8 ∧ (∀ g ∈ (old.filter fun g => decide (g.1 < loc + 8) && decide (loc < g.1 + g.2.length)).take n,
          ¬ reaches g a) then (leBytes 8 v).getD (a - loc) 0 else u.byte a) ∧
    Corrected u c loc 8 ∧
    c = { u with
      mem := c.mem, poison := c.poison, repair := c.repair, free := c.free,
      fabric := sentTo u (engineAgent u.cur q.toNat) 0 loc 8 }

/-- The state as an operation samples the generations of the regions: it differs from u only in such bytes as a write of the
hart that is not ordered before the operation replaced (R165, R170, R196). -/
def SampledFrom (u : State) (old : List Replaced) : Prop :=
  let v := u.sampled old
  v = { u with mem := v.mem } ∧
  ∀ a, v.byte a = u.byte a ∨ ∃ g ∈ old, g.1 ≤ a ∧ g.2[a - g.1]? = some (v.byte a)

/-- What the engine of the hart in front may read at va for an operation: the byte there, or one that a write of the hart
which is not ordered before the operation replaced (R170, R196). -/
def SourceByte (u : State) (old : List Replaced) (va : Word) (b : Byte) : Prop :=
  ∃ h, ((u.sampled old).reachAddr u.engine va .read).2 = .hit h ∧ u.unreadable h.loc 1 = false ∧
    (b = u.byte h.loc ∨ ∃ g ∈ old, g.1 ≤ h.loc ∧ g.2[h.loc - g.1]? = some b)

/-- n source bytes from an address on, each of them readable. -/
def SourceRead (u : State) (old : List Replaced) (va : Word) (bs : List Byte) : Prop :=
  ∀ i, i < bs.length → SourceByte u old (va + BitVec.ofNat 64 i) (bs.getD i 0)

/-- n source bytes can be read. -/
def SourceOpen (u : State) (old : List Replaced) (va : Word) (n : Nat) : Prop :=
  ∀ i, i < n → ∃ h, ((u.sampled old).reachAddr u.engine (va + BitVec.ofNat 64 i) .read).2 = .hit h ∧
    u.unreadable h.loc 1 = false

/-- An operation of a partition that writes region n has begun and not completed, at the head of a queue but that skipped: it
waits for a source, or its collective has formed (R165). -/
def RegionBusy (u : State) (part n : Nat) (skip : Nat → Nat → Prop) : Prop :=
  ∃ h, (h = u.cur ∨ ∃ p ∈ u.harts, p.1 = h) ∧ (u.hartAt h).ctl.part = part ∧
    ∃ j : Fin 4, ¬ skip h j.val ∧ ∃ k, ((u.hartAt h).queues.get j).ops.head? = some k ∧
      (k.stalled ≠ none ∨ ∃ b ms, k.kind = .coll b (some ms)) ∧ WritesRegion k.kind n

/-- How many collectives of the partition with a list have been counted (R290). -/
def countedOf (u : State) (ids : List Nat) : Nat :=
  ((u.fabric.collectives.find? fun c => c.1 == u.hart.ctl.part && c.2.1 == ids).map fun c => c.2.2).getD 0

/-- One more has. -/
def Counted (u x : State) (ids : List Nat) : Prop :=
  countedOf x ids = countedOf u ids + 1 ∧ (∀ l, l ≠ ids → countedOf x l = countedOf u l) ∧
  x = { u with fabric := { u.fabric with collectives := x.fabric.collectives } }

/-- A copy ended with an error may have written some of its back bytes, and nothing else (R169). -/
def PartlyCopied (u p : State) (dest : CopyDest) (region : Nat) (dst : Word) (n : Nat) : Prop :=
  Touched u p ∧ ∀ a, p.byte a ≠ u.byte a →
    (∀ x, dest ≠ .remote x) ∧ ∃ loc i, BackAt u region dst n loc ∧ i < n ∧ loc i = a

/-! ### Halting, contexts, invalidations (spec/10 R185; spec/19 R292 to R294, R302) -/

/-- The matrix state of a core that hart h owns. -/
def ownedBy (c : Core) (h : Nat) : Option Matrix := c.matrix.bind fun m => if m.owner = h then some m else none

/-- The header of the image of hart h, whose record is x and whose matrix state is m (R293). -/
def HeaderOf (s : State) (h : Nat) (x : Hart) (m : Option Matrix) (hd : Vector Word 9) : Prop :=
  let u := x.csr
  hd[0].extractLsb' 0 14 = u.vl ∧ hd[0].extractLsb' 14 2 = 0 ∧ hd[0].extractLsb' 16 11 = u.gvl ∧ hd[0].getLsbD 27 = false ∧
  hd[0].extractLsb' 28 2 = u.rc ∧ hd[0].getLsbD 30 = u.tp ∧ hd[0].getLsbD 31 = u.so ∧
  (u.mseqAct = false → hd[0].extractLsb' 32 3 = 0) ∧ hd[0].extractLsb' 35 29 = 0 ∧ hd[1] = u.ggen ∧
  hd[2] = (0#16 ++ u.ncarry.disc) ++ u.ncarry.res ∧
  hd[3].extractLsb' 0 20 = u.mseqStep ∧ hd[3].getLsbD 20 = u.mseqAct ∧
  (∀ k, m = some k → k.rows.length ≤ 16 → k.mvl ≤ 256 →
    (hd[3].extractLsb' 24 5).toNat = k.rows.length ∧ (hd[3].extractLsb' 32 9).toNat = k.mvl ∧ hd[3].getLsbD 48 = true ∧
    (hd[3].extractLsb' 50 6).toNat = coreOf h / 4) ∧
  (m = none → hd[3].extractLsb' 24 40 = 0) ∧ hd[4] = x.pc ∧ hd[5] = (if u.so then x.strip.cp.pc else 0) ∧
  hd[6].extractLsb' 0 2 = u.mmrev ∧ hd[6].getLsbD 2 = u.det ∧ hd[6].extractLsb' 4 2 = x.sup.hpri ∧
  hd[6].getLsbD 6 = x.ui.inHandler ∧ hd[7] = x.sup.xlat1 ∧ hd[8] = x.ctl.errata ∧
  ∀ k, (s.partAt x.ctl.part).ordinals.findIdx? (fun o => o == some (coreOf h)) = some k → k < 192 → x.ctl.part < 16 →
    (hd[6].extractLsb' 8 8).toNat = k ∧ (hd[6].extractLsb' 16 4).toNat = x.ctl.part

/-- The image of a hart with record x as it lies in a save area: the header, s1 to s31, the masks and the vector registers
(R293). -/
def ImageAt (t : State) (loc : Nat) (x : Hart) (hd : Vector Word 9) : Prop :=
  let dw (a : Nat) : Nat := leNat (t.bytes (loc + a) 8)
  (∀ k : Fin 9, dw (8 * k.val) = hd[k].toNat) ∧ (∀ a, 72 ≤ a → a < 256 → t.byte (loc + a) = 0) ∧
  (∀ n, n < 31 → dw (0x100 + 8 * n) = (x.x (BitVec.ofNat 5 (n + 1))).toNat) ∧
  (∀ k : Fin 8, leNat (t.bytes (loc + 0xA00 + 1024 * k.val) 1024) = (x.mregs.get k).bits.toNat) ∧
  ∀ (k : Fin 32) (e : Nat), e < 1024 →
    leNat (t.bytes (loc + 0x2A00 + 4096 * k.val + 4 * e) 4) = (cget (x.vregs.get k).cells e).toNat

/-- Hart h, whose record has become x and whose matrix state m, halts: its image is saved, to a slot in shadow SRAM or, when
that is taken or Husk chooses so, to its core's area of the save area; its core's override ends and its CLB is dropped, and its
matrix state is in the image (R24, R185, R292, R293, R295). A slot holds the contexts of one member of a pair, and while a switch
goes on it is free (R298). Nothing is written but in the core's save area; errors that the reads of the save correct are counted. -/
def HaltsAs (i : Instr) (s : State) (h : Nat) (x : Hart) (m : Option Matrix) : Prop :=
  let p := s.partAt x.ctl.part
  let area := p.saveBase.toNat + 4194304 * (p.ordinals.findIdx? fun o => o == some (coreOf h)).getD 0
  let damaged : Prop := { x.upsets with weak := 0 } ≠ .none ∨ (∃ e ∈ x.strip.buf, e.bad = true) ∨ ∃ k, m = some k ∧ k.damaged ≠ 0
  let taken : Prop := p.switching = false ∧
    ∃ k ∈ s.saved, coreOf k.1 = coreOf h ∧ (s.hartAt k.1).ctl.part ≠ x.ctl.part ∧ k.2.area = none
  ∃ t ctx, exec i s = .next t ∧
    t.hartAt h = { x with run := .halted, ctl := { x.ctl with preempt := false, holds := 0 } } ∧
    tget t.saved h = some ctx ∧ HeaderOf s h x m ctx.header ∧ ctx.reservedZero = true ∧ ctx.matrix = m ∧ ctx.cut = false ∧ ctx.weak = false ∧
    (ctx.poisoned = true ↔ damaged) ∧ (taken → ctx.area = some area) ∧
    (ctx.area = none ∧ (x.csr.so = false → SameBytes s t ∧ t.poison = s.poison) ∨
      ctx.area = some area ∧ (s.mem.wf = true → ImageAt t (area + 0x22A00 * (h % 2)) x ctx.header)) ∧
    (x.upsets.weak = 0 → (∀ k, m = some k → k.weak = 0) →
      t.repair.corrected = s.repair.corrected ∧ t.repair.log = s.repair.log ∧ t.reports = s.reports) ∧
    (s.mem.wf = true → ∀ a, a < area ∨ area + 4194304 ≤ a → x.strip.used ≤ 16384 → t.byte a = s.byte a) ∧
    (let c := s.coreAt (coreOf h)
     t.coreAt (coreOf h) = { c with
       gov := { c.gov with en := false, pos := 0, latest := none }, clb := [], matrix := if m.isSome then none else c.matrix }) ∧
    (∀ k, k ≠ h → t.hartAt k = s.hartAt k ∧ tget t.saved k = tget s.saved k) ∧ (∀ k, k ≠ coreOf h → t.coreAt k = s.coreAt k) ∧
    t = { s with
      hart := t.hart, core := t.core, harts := t.harts, cores := t.cores, saved := t.saved, mem := t.mem, poison := t.poison,
      repair := { s.repair with weak := t.repair.weak, corrected := t.repair.corrected, log := t.repair.log },
      reports := t.reports, free := t.free }

/-- An invalidation waits while a write that is held, or a signal that is queued, was probed through a translation that
satisfies `gone`. Else it removes those translations from both TLB levels and from locked ranges, and aborts the strips that
buffered a write through one; no byte changes (R120, R302, R303). -/
def Invalidates (i : Instr) (s : State) (gone : TlbEntry → Prop) : Prop :=
  let through (page : Option TlbEntry) : Prop := ∃ e, page = some e ∧ gone e
  let known (h : Nat) : Prop := h = s.cur ∨ ∃ p ∈ s.harts, p.1 = h
  let waits : Prop := (∃ w ∈ s.fabric.held, through w.entry.page) ∨
    ∃ h, known h ∧ ∃ q : Fin 4, ∃ o ∈ ((s.hartAt h).queues.get q).ops, ∃ tag va loc page v,
      o.kind = .sig tag va loc page v ∧ through page
  let hit (x : Hart) : Prop := x.csr.so = true ∧ ∃ e ∈ x.strip.buf, through e.page
  (waits → exec i s = .next s) ∧
  (¬ waits → ∃ t, exec i s = .next t ∧ SameBytes s t ∧
    (∀ c e, e ∈ (t.coreAt c).tlb ↔ e ∈ (s.coreAt c).tlb ∧ ¬ gone e) ∧
    (∀ d e, e ∈ (tget t.tlb2 d).getD [] ↔ e ∈ (tget s.tlb2 d).getD [] ∧ ¬ gone e) ∧
    ∀ h, known h →
      let x := s.hartAt h
      let y := t.hartAt h
      (hit x → y = { x.aborted with locks := y.locks } ∧
        tget t.saved h = (tget s.saved h).map fun k => { k with cut := true }) ∧
      (¬ hit x → y = { x with locks := y.locks } ∧ tget t.saved h = tget s.saved h) ∧
      (∀ r, (tget y.locks r).map (fun l => (l.base, l.len, l.trans.map Prod.fst)) =
        (tget x.locks r).map fun l => (l.base, l.len, l.trans.map Prod.fst)) ∧
      ∀ (r n : Nat) (l l' : LockRange) (e : TlbEntry) (b b' : Bool), tget x.locks r = some l → tget y.locks r = some l' →
        l.trans[n]? = some (e, b) → l'.trans[n]? = some (e, b') → (b' = true ↔ b = true ∧ ¬ gone e))

/-- Of which agents of sent writes a workgroup has ended: harts, and their engine queues (R282). -/
def EndsOf (ends : Nat → Prop) (g : Nat → Nat) : Prop :=
  ∀ a, g a ≠ 0 ↔ ∃ h, ends h ∧ (a = h ∨ ∃ q : Fin 4, a = engineAgent h q.val)

/-- The workgroups of some harts are ended by Husk (R271, R306): their strips are aborted and their saved contexts discarded;
a frozen hart stays, one with engine operations outstanding issues nothing further, any other is free. -/
def CutsOff (s t : State) (l : List Nat) : Prop :=
  let ends (h : Nat) : Prop := h ∈ l ∧ (s.hartAt h).run ≠ .frozen ∧ ∀ q : Fin 4, ((s.hartAt h).queues.get q).ops = []
  (∀ h, h ∉ l → t.hartAt h = s.hartAt h ∧ tget t.saved h = tget s.saved h) ∧
  (∀ h, h ∈ l →
    let a := if (s.hartAt h).csr.so then (s.hartAt h).aborted else s.hartAt h
    ((s.hartAt h).run = .frozen → t.hartAt h = a ∧ tget t.saved h = tget s.saved h) ∧
    ((s.hartAt h).run ≠ .frozen → tget t.saved h = none) ∧
    ((s.hartAt h).run ≠ .frozen → ¬ ends h → t.hartAt h = { a with run := .ending }) ∧
    (ends h → ownedBy (t.coreAt (coreOf h)) h = none ∧ t.hartAt h = { a with
      run := .absent, locks := [], vdesc := Vector.replicate 4 none, claim := none, unordered := [],
      ctl := { a.ctl with launch := none, holds := 0, revoked := false, protectedStrip := false, preempt := false,
                          rejected := false } })) ∧
  (∀ id, tget s.launches id = none → tget t.launches id = none) ∧
  (∀ id q, tget s.launches id = some q → ∃ left, tget t.launches id = some { q with running := left } ∧
    ∀ h, h ∈ left ↔ h ∈ q.running ∧ ¬ ends h) ∧
  ((∀ h ∈ l, (s.coreAt (coreOf h)).retired = false) → t.parts = s.parts) ∧
  (∃ f : Nat → Nat, (∀ h, ends h → f h = 1) ∧ (∀ h, ¬ ends h → f h = 0) ∧ ∃ g, EndsOf ends g ∧
    t.fabric = { s.fabric with
      held := s.fabric.held.map fun w => { w with ended := w.ended + f w.hart },
      sent := s.fabric.sent.map fun w => { w with ended := w.ended + g w.agent } }) ∧
  t = { s with hart := t.hart, core := t.core, harts := t.harts, cores := t.cores, saved := t.saved, launches := t.launches,
               parts := t.parts, fabric := t.fabric }

/-- A location of a core's vault. -/
def InVault (core loc : Nat) : Prop := 2 ^ 52 + core * 2 ^ 23 ≤ loc ∧ loc < 2 ^ 52 + (core + 1) * 2 ^ 23

/-- The bytes of a core's vault, or of the half a member of a pair holds (R209). -/
def vaultRange (core : Nat) (half : Option Bool) : Nat × Nat :=
  match half with
  | none => (2 ^ 52 + core * 2 ^ 23, 2 ^ 23)
  | some h => (2 ^ 52 + core * 2 ^ 23 + if h then 2 ^ 22 else 0, 2 ^ 22)

/-- A location of that part of a core's vault. -/
def InPart (core : Nat) (half : Option Bool) (loc : Nat) : Prop :=
  (vaultRange core half).1 ≤ loc ∧ loc < (vaultRange core half).1 + (vaultRange core half).2

/-- The half of each vault that a partition holds, when it is a member of a pair. -/
def halfOf (p : Partition) : Option Bool := if p.pair = none then none else some p.half

/-- A write to a part of a core's vault is in flight, from a hart other than some: buffered in an open strip, held, or a signal
that is queued (R208). -/
def VaultInFlight (s : State) (core : Nat) (half : Option Bool) (own : List Nat) : Prop :=
  (∃ w ∈ s.fabric.held, InPart core half w.entry.loc) ∨
  ∃ h, (h = s.cur ∨ ∃ p ∈ s.harts, p.1 = h) ∧ h ∉ own ∧
    ((s.hartAt h).csr.so = true ∧ (∃ e ∈ (s.hartAt h).strip.buf, InPart core half e.loc) ∨
      ∃ q : Fin 4, ∃ o ∈ ((s.hartAt h).queues.get q).ops, ∃ tag va loc page v,
        o.kind = .sig tag va loc page v ∧ InPart core half loc)

/-- A `.pin` launch of a partition that has begun keeps the core's vault (R276). -/
def VaultKept (s : State) (core part : Nat) : Prop :=
  ∃ k ∈ (s.coreAt core).pinned, ∃ l, tget s.launches k = some l ∧ l.part = part ∧ l.begun.isSome = true

/-- Core `new`, idle, may take over the ordinal that `core` backs, on which no workgroup runs (R294; which core may: log 87). -/
def OrdinalTarget (s : State) (part core new : Nat) : Prop :=
  let p := s.partAt part
  let still (h : Nat) : Prop := (s.hartAt h).run = .absent ∨ (s.hartAt h).run = .halted
  still (2 * core) ∧ still (2 * core + 1) ∧ ¬ VaultInFlight s core (halfOf p) [2 * core, 2 * core + 1] ∧
  some new ∈ p.ordinals ∧ new ≠ core ∧ (s.hartAt (2 * new)).run = .absent ∧ (s.hartAt (2 * new + 1)).run = .absent ∧
  ¬ VaultInFlight s new (halfOf p) [] ∧ (s.coreAt new).retired = false ∧ ¬ VaultKept s new part

/-- The CLUSTER field of doubleword 3 of a header that says the hart owns matrix state (R293, R294). -/
def ClusterSet (old new : Word) (cluster : Nat) : Prop :=
  if old.getLsbD 48 then ∀ i, new.getLsbD i = if 50 ≤ i ∧ i < 56 then cluster.testBit (i - 50) else old.getLsbD i else new = old

/-- Husk has moved the ordinal that a core backs to core `new`, which backs its own from now on (R294): the vault, or the half
that a member of a pair holds, is copied, its uncorrectable words with it, and the old one reads 0; the saved contexts follow,
their CLUSTER fields rewritten and their buffered stores and queued signals to the vault placed in the new one. -/
def MovesOrdinal (s u : State) (part core new : Nat) : Prop :=
  let p := s.partAt part
  let base (c : Nat) : Nat := 2 ^ 52 + c * 2 ^ 23
  let inside := InPart core (halfOf p)
  let range := vaultRange core (halfOf p)
  let place (a : Nat) : Nat := if range.1 ≤ a ∧ a < range.1 + range.2 then a - base core + base new else a
  let own := [2 * core, 2 * core + 1]
  let field (h a : Nat) : Prop := ∃ ctx k, tget s.saved h = some ctx ∧ ctx.area = some k ∧
    k + 0x22A00 * (h % 2) + 24 ≤ a ∧ a < k + 0x22A00 * (h % 2) + 32
  let mine (k : Nat) : Prop := ∃ l, tget s.launches k = some l ∧ l.part = part
  tget u.parts part = some { p with ordinals := p.ordinals.map fun o => o.map fun c =>
    if c = core then new else if c = new then core else c } ∧
  (∀ k, k ≠ part → tget u.parts k = tget s.parts k) ∧
  (s.mem.wf = true → ∀ a, (∀ h ∈ own, ¬ field h a) →
    (InPart new (halfOf p) a → u.byte a = s.byte (a - base new + base core)) ∧ (inside a → u.byte a = 0) ∧
    (¬ InPart new (halfOf p) a → ¬ inside a → u.byte a = s.byte a)) ∧
  ((∀ k ∈ s.saved, ∀ a, k.2.area = some a → a + 4194304 ≤ 2 ^ 52) →
    ∀ w ∈ s.poison, inside w → w - base core + base new ∈ u.poison) ∧
  (∀ h ∈ own, ∀ ctx, tget s.saved h = some ctx →
    (let x := s.hartAt h
     u.hartAt h = { x with
       strip := { x.strip with buf := x.strip.buf.map fun e => { e with loc := place e.loc } },
       queues := x.queues.map fun q => { q with ops := q.ops.map fun o => { o with kind := match o.kind with
         | .sig tag va loc page v => .sig tag va (place loc) page v
         | k => k } } }) ∧
    (ctx.area = none → ∃ hd, tget u.saved h = some { ctx with header := hd } ∧
      ClusterSet (ctx.header[3]) (hd[3]) (new / 4) ∧ ∀ k : Fin 9, k.val ≠ 3 → hd[k] = ctx.header[k]) ∧
    ∀ a, ctx.area = some a → tget u.saved h = some ctx) ∧
  (∀ h, h ∉ own ∨ tget s.saved h = none → u.hartAt h = s.hartAt h ∧ tget u.saved h = tget s.saved h) ∧
  (let x := s.coreAt new
   let y := u.coreAt new
   y = { x with pinned := y.pinned } ∧ ∀ k, k ∈ y.pinned ↔ k ∈ x.pinned ∨ k ∈ (s.coreAt core).pinned ∧ mine k) ∧
  (let x := s.coreAt core
   let y := u.coreAt core
   y = { x with pinned := y.pinned } ∧ ∀ k, k ∈ y.pinned ↔ k ∈ x.pinned ∧ ¬ mine k) ∧
  (∀ k, k ≠ core → k ≠ new → u.coreAt k = s.coreAt k) ∧
  u = { s with
    hart := u.hart, core := u.core, harts := u.harts, cores := u.cores, mem := u.mem, poison := u.poison, vaults := u.vaults,
    parts := u.parts, saved := u.saved, repair := { s.repair with weak := u.repair.weak } }

/-- What a restore reads an image in a save area as (R293): general registers, masks, vector registers and the fault record;
the blocks without a layout in the spec are read as log 86 says, and everything else is of the record x. -/
def ImageRead (u : State) (loc : Nat) (x z : Hart) : Prop :=
  let dw (a : Nat) : Word := BitVec.ofNat 64 (leNat (u.bytes (loc + a) 8))
  (∀ n : BitVec 5, n ≠ 0 → z.x n = dw (0x100 + 8 * (n.toNat - 1))) ∧
  (∀ k : Fin 8, (z.mregs.get k).stale = (x.mregs.get k).stale ∧
    (z.mregs.get k).bits.toNat = leNat (u.bytes (loc + 0xA00 + 1024 * k.val) 1024)) ∧
  (∀ k : Fin 32, (z.vregs.get k).stale = (x.vregs.get k).stale ∧ ∀ e, e < 1024 →
    (cget (z.vregs.get k).cells e).toNat = leNat (u.bytes (loc + 0x2A00 + 4096 * k.val + 4 * e) 4)) ∧
  z.record = { fcause := dw 0x900, fpc := dw 0x908, fstrip := dw 0x910, felem := dw 0x918, fidx0 := dw 0x920, fidx1 := dw 0x928,
               fidx2 := dw 0x930, faddr := dw 0x938, fcoord := dw 0x940, finfo := dw 0x948 } ∧
  z = { x with
    regs := z.regs, vregs := z.vregs, mregs := z.mregs, loops := z.loops, vdesc := z.vdesc, locks := z.locks, record := z.record,
    csr := { x.csr with rmode := z.csr.rmode, step := z.csr.step, fflags := z.csr.fflags, lse := z.csr.lse, dim0 := z.csr.dim0,
                        dim1 := z.csr.dim1, dim2 := z.csr.dim2 },
    ui := { x.ui with
      uivec := z.ui.uivec, kind := z.ui.kind, queue := z.ui.queue, value := z.ui.value, uiepc := z.ui.uiepc,
      maskEq := z.ui.maskEq, maskRaise := z.ui.maskRaise, pendEq := z.ui.pendEq, pendRaise := z.ui.pendRaise,
      uistk := z.ui.uistk, bank := z.ui.bank },
    strip := { x.strip with cp := z.strip.cp } }

/-- The header of a context at hart h and whether its unnamed bytes are zero: of the record, or where its image lies (R293). -/
def HeaderRead (u : State) (h : Nat) (ctx : SavedContext) (hd : Vector Word 9) (zeros : Prop) : Prop :=
  (ctx.area = none → hd = ctx.header ∧ (zeros ↔ ctx.reservedZero = true)) ∧
  ∀ a, ctx.area = some a →
    let loc := a + 0x22A00 * (h % 2)
    (∀ k : Fin 9, hd[k] = BitVec.ofNat 64 (leNat (u.bytes (loc + 8 * k.val) 8))) ∧
    (zeros ↔ ∀ k, 72 ≤ k → k < 256 → u.byte (loc + k) = 0)

/-- An uncorrectable code word lies in what a context is restored from (R306). -/
def ImageSpoilt (u : State) (h : Nat) (ctx : SavedContext) (hd : Vector Word 9) : Prop :=
  let bad (loc n : Nat) : Prop := ∃ w ∈ u.poison, wordMeets loc n w = true
  let x := u.hartAt h
  ctx.poisoned = true ∨
  (∃ a, ctx.area = some a ∧ (bad (a + 0x22A00 * (h % 2)) 0x22A00 ∨
    ctx.matrix ≠ none ∧ bad (a + 2 * 0x22A00 + 524288) (4194304 - 2 * 0x22A00 - 524288))) ∨
  (hd[0].getLsbD 31 = true ∧ ctx.cut = false ∧
    bad ((u.partAt x.ctl.part).saveBase.toNat + 4194304 * (hd[6].extractLsb' 8 8).toNat + 2 * 0x22A00 + 262144 * (h % 2))
      (16 * x.strip.used))

/-- What the reads of a restore leave in the counts and the log of errors (R305, R308): nothing without an error in what is
read; and an image in shadow SRAM that is uncorrectable, or that a read corrects, has a record of UNIT 2. -/
def ImageNoted (u v : State) (h : Nat) (ctx : SavedContext) (hd : Vector Word 9) : Prop :=
  (¬ ImageSpoilt u h ctx hd → u.repair.weak = [] → (ctx.area = none → ctx.weak = false) → v = u) ∧
  (∀ kind, ctx.poisoned = true ∧ kind = 2 ∨ ctx.weak = true ∧ kind = 1 → ctx.area = none →
    ∃ e ∈ v.repair.log, e.kind = kind ∧ e.unit = 2 ∧ e.die = coreOf h / 48 ∧ e.part = (u.hartAt h).ctl.part) ∧
  (∃ l, v.repair.log = u.repair.log ++ l ∧ v.reports = u.reports ++ l.map Report.errorRecord) ∧
  v = { u with
    repair := { u.repair with corrected := v.repair.corrected, recent := v.repair.recent, log := v.repair.log },
    reports := v.reports }

/-- The context of a hart is discarded, and its launch ends FAULTED with CAUSE 0x11 (R306). -/
def DiscardsContext (u t : State) (h : Nat) : Prop :=
  let x := u.hartAt h
  (∀ id l, x.ctl.launch = some id → tget u.launches id = some l → l.running.Nodup →
    ∃ v, tget v.launches id = some { l with ended := some (l.ended.getD (0x11, x.ctl.index)) } ∧
      (∀ k, k ≠ id → tget v.launches k = tget u.launches k) ∧ v = { u with launches := v.launches } ∧
      CutsOff v t l.running) ∧
  ((∀ id, x.ctl.launch = some id → tget u.launches id = none) → CutsOff u t [h])

/-- A restore of hart h by event i, from state u on (R215, R294, R306): a spoilt image is discarded, a header that is not
legal is reported to Husk, a context without its place waits, and one that has it is taken up. -/
def RestoresFrom (i : Instr) (s u : State) (hart : Nat) : Prop :=
  let x := u.hartAt hart
  (tget u.saved hart = none → exec i s = .next u) ∧
  ∀ ctx hd zeros, tget u.saved hart = some ctx → HeaderRead u hart ctx hd zeros →
    let ok : Prop := zeros ∧ hd[0].extractLsb' 35 13 = 0 ∧ (hd[6].extractLsb' 16 4).toNat = x.ctl.part ∧
      hd[0].extractLsb' 14 2 = 0 ∧ hd[0].getLsbD 27 = false ∧ hd[0].extractLsb' 48 16 = 0 ∧ hd[3].extractLsb' 21 3 = 0 ∧
      hd[3].extractLsb' 29 3 = 0 ∧ hd[3].extractLsb' 41 7 = 0 ∧ hd[3].getLsbD 49 = false ∧ hd[3].extractLsb' 56 8 = 0 ∧
      hd[6].getLsbD 3 = false ∧ hd[6].getLsbD 7 = false ∧ hd[6].extractLsb' 20 44 = 0
    let spoilt := ImageSpoilt u hart ctx hd
    (spoilt → ∃ v t, exec i s = .next t ∧ ImageNoted u v hart ctx hd ∧ DiscardsContext v t hart) ∧
    (¬ spoilt → ¬ ok → exec i s = .next { u with reports := u.reports ++ [.restoreRefused hart] }) ∧
    (¬ spoilt → ok → (∀ core, (u.partAt x.ctl.part).ordinals[(hd[6].extractLsb' 8 8).toNat]? ≠ some (some core)) →
      exec i s = .next u) ∧
    ∀ core, ¬ spoilt → ok → (u.partAt x.ctl.part).ordinals[(hd[6].extractLsb' 8 8).toNat]? = some (some core) → core < 192 →
      let seat := 2 * core + hart % 2
      let place := u.hartAt seat
      let other := u.hartAt (sibling seat)
      let held := if other.run = .absent ∨ other.run = .halted then 0 else other.ctl.holds
      let so := hd[0].getLsbD 31 && !ctx.cut
      let need := if so then ((hd[0].extractLsb' 16 11).toNat + 63) / 64 else 0
      let free := (List.range 16).filter fun r =>
        !(((List.range 4).flatMap fun i => (u.coreAt (core / 4 * 4 + i)).rowsHeld).contains r) &&
        !u.boot.unitMap.rowsAbsent.contains (16 * (core / 4) + r) && !u.repair.tileRowsLost.contains (core / 4, r)
      let works (i : Nat) : Bool :=
        !u.boot.unitMap.slicesAbsent.contains (16 * core + i) && !(u.coreAt core).slicesLost.contains i
      let room : Prop := (seat = hart ∨ place.run = .absent) ∧
        need + held ≤ min ((List.range 16).countP works) ((u.partAt x.ctl.part).caps.slice.toNat % 32) ∧
        ∀ k, ctx.matrix = some k → (u.coreAt core).matrix = none ∧ k.rows.length ≤ free.length
      (¬ room → exec i s = .next u) ∧
      (room → ∃ v t z, exec i s = .next t ∧ ImageNoted u v hart ctx hd ∧ SameBytes u t ∧ tget t.saved seat = none ∧
        (ctx.area = none → z = x) ∧ (∀ a, ctx.area = some a → ImageRead u (a + 0x22A00 * (hart % 2)) x z) ∧
        (seat ≠ hart → (t.hartAt hart).run = .absent) ∧
        (∀ k, k ≠ hart → k ≠ seat → t.hartAt k = u.hartAt k ∧ tget t.saved k = tget u.saved k) ∧
        (∀ k, ctx.matrix = some k →
          let m := { k with owner := seat, rows := free.take k.rows.length }
          (t.coreAt core).matrix = if ctx.cut then pendingDropped (some m) seat else some m) ∧
        (∀ id l, tget u.launches id = some l → tget t.launches id = some { l with
          running := l.running.map fun h => if h = hart then seat else h }) ∧
        t = { v with
          hart := t.hart, core := t.core, harts := t.harts, cores := t.cores, saved := t.saved, launches := t.launches,
          fabric := { u.fabric with
            held := u.fabric.held.map fun w => { w with hart := if w.hart = hart then seat else w.hart },
            sent := u.fabric.sent.map fun w => { w with agent := renamedAgent hart seat w.agent } } } ∧
        let y := t.hartAt seat
        let full : Hart := { z with
          pc := hd[4],
          csr := { z.csr with
            vl := hd[0].extractLsb' 0 14, gvl := hd[0].extractLsb' 16 11, rc := hd[0].extractLsb' 28 2,
            tp := hd[0].getLsbD 30, so := hd[0].getLsbD 31, ggen := hd[1],
            ncarry := ⟨hd[2].extractLsb' 0 32, hd[2].extractLsb' 32 16⟩, mseqStep := hd[3].extractLsb' 0 20,
            mseqAct := hd[3].getLsbD 20, mmrev := hd[6].extractLsb' 0 2, det := hd[6].getLsbD 2 },
          sup := { z.sup with
            tvec := place.sup.tvec, tepc := place.sup.tepc, pp := place.sup.pp, so := place.sup.so,
            hpri := hd[6].extractLsb' 4 2, xlat1 := hd[7] },
          ui := { z.ui with inHandler := hd[6].getLsbD 6 },
          strip := { z.strip with cp := { z.strip.cp with pc := if hd[0].getLsbD 31 then hd[5] else z.strip.cp.pc } },
          ctl := { z.ctl with errata := hd[8] } }
        let left := if ctx.cut then full.aborted else full
        (y.locks.map fun l => (l.1, l.2.base, l.2.len)) = (z.locks.map fun l => (l.1, l.2.base, l.2.len)) ∧
        y = { left with run := .running, locks := y.locks, ctl := { left.ctl with holds := need } })

/-! ### Repairs and stores in order (spec/18 R287; spec/20 R308, R309, R312) -/

/-- A record joins the error log, and a copy of it goes to Husk of its partition and to the hypervisor (R308). -/
def Logs (s t : State) (e : ErrorRecord) : Prop :=
  t.repair.log = s.repair.log ++ [e] ∧ t.reports = s.reports ++ [.errorRecord e]

/-- What a read of n bytes at a location leaves in the counts and the log of errors (R305, R308): each correctable code word of
this device that it meets is counted once more and recorded with KIND 1, each uncorrectable one recorded with KIND 2. -/
def Noted (s t : State) (loc n : Nat) : Prop :=
  let met (w : Nat) : Prop := wordMeets loc n w = true ∧ (w < 2 ^ 44 ∨ 2 ^ 52 ≤ w)
  let count (u : State) (w : Nat) : Nat := (tget u.repair.corrected w).getD 0
  ErrorsNoted s t [(loc, n)] ∧
  (s.repair.weak.Nodup → ∀ w, (w ∈ s.repair.weak ∧ met w → count t w = count s w + 1) ∧
    (¬ (w ∈ s.repair.weak ∧ met w) → count t w = count s w)) ∧
  (∃ l : List ErrorRecord, t.repair.log = s.repair.log ++ l ∧ t.reports = s.reports ++ l.map Report.errorRecord ∧
    (∀ w, w ∈ t.repair.recent ↔ w ∈ s.repair.recent ∨ w ∈ s.repair.weak ∧ met w) ∧
    (∀ e ∈ l, e.kind = 1 ∨ e.kind = 2) ∧
    ∀ w, met w → w < 2 ^ 44 →
      (w ∈ s.poison → ∃ e ∈ l, e.kind = 2 ∧ e.unit = 0 ∧ e.location = w ∧ e.die = w / 2 ^ 37) ∧
      (w ∈ s.repair.weak → ∃ e ∈ l, e.kind = 1 ∧ e.unit = 0 ∧ e.location = w ∧ e.die = w / 2 ^ 37)) ∧
  t = { s with
    repair := { s.repair with corrected := t.repair.corrected, recent := t.repair.recent, log := t.repair.log },
    reports := t.reports }

/-- Bytes written, and nothing else. -/
def WritesOnly (u t : State) (loc : Nat) (bs : List Byte) : Prop :=
  (u.mem.wf = true → Stored u t loc bs) ∧ Corrected u t loc bs.length ∧
  t = { u with mem := t.mem, poison := t.poison, repair := t.repair }

/-- The write that a rejection names, the oldest that its agent has sent to these bytes, performed nowhere (R119, R282): each of
its bytes, in memory or kept for the next write of the byte that may still be rejected, is the one it replaced. -/
def Undone (s t : State) (r : Rejection) : Prop :=
  let named (w : SentWrite) : Prop := w.agent = ((r.queue.map (engineAgent r.hart)).getD r.hart) ∧ w.loc = r.loc ∧ w.old.length = r.len
  let covers (w : SentWrite) (a : Nat) : Prop := w.loc ≤ a ∧ a < w.loc + w.old.length
  ((∀ w ∈ s.fabric.sent, ¬ named w) → t = s) ∧
  ∀ pre x post, s.fabric.sent = pre ++ x :: post → named x → (∀ w ∈ pre, ¬ named w) → ∃ later : List SentWrite,
    t = { s with
      fabric := { s.fabric with sent := pre ++ later }, mem := t.mem, poison := t.poison,
      repair := { s.repair with weak := t.repair.weak } } ∧
    (∀ w ∈ t.poison, w ∈ s.poison) ∧ (∀ w ∈ t.repair.weak, w ∈ s.repair.weak) ∧ later.length = post.length ∧
    (∀ (j : Nat) (w v : SentWrite), post[j]? = some w → later[j]? = some v → v = { w with old := v.old } ∧
      v.old.length = w.old.length ∧ ∀ k, k < w.old.length →
        let a := w.loc + k
        let moves : Prop := covers x a ∧ ∀ y ∈ post.take j, ¬ covers y a
        (moves → v.old[k]? = x.old[a - x.loc]?) ∧ (¬ moves → v.old[k]? = w.old[k]?)) ∧
    (s.mem.wf = true → ∀ a,
      let back : Prop := covers x a ∧ ∀ y ∈ post, ¬ covers y a
      (back → t.byte a = x.old.getD (a - x.loc) 0) ∧ (¬ back → t.byte a = s.byte a))

/-- The agent of the write that a rejection names has not ended its workgroup since (R282). -/
def StillRuns (s : State) (r : Rejection) : Prop :=
  let named (w : SentWrite) : Prop := w.agent = ((r.queue.map (engineAgent r.hart)).getD r.hart) ∧ w.loc = r.loc ∧ w.old.length = r.len
  ∀ pre x post, s.fabric.sent = pre ++ x :: post → named x → (∀ w ∈ pre, ¬ named w) → x.ended = 0

/-- A held write performed (R119, R129, R287): its bytes, or its word updated; a hart whose workgroup still runs takes the flags,
into its checkpoint too and into an image of it that lies in a save area (R292; their places there: log 86), and keeps the bytes
replaced for its engines (R170). -/
def PerformsHeld (s t : State) (w : HeldWrite) : Prop :=
  let e := w.entry
  let old : Replaced := (e.loc, s.bytes e.loc e.size)
  let runs : Prop := w.ended = 0 ∧ (w.hart = s.cur ∨ ∃ p ∈ s.harts, p.1 = w.hart)
  let image (loc : Nat) : Prop := runs ∧
    ∃ ctx a, tget s.saved w.hart = some ctx ∧ ctx.area = some a ∧ loc = a + 0x22A00 * (w.hart % 2)
  let stays (f : FFlags) : Prop :=
    (runs →
      let x := s.hartAt w.hart
      t.hartAt w.hart = { x with
        csr := { x.csr with fflags := x.csr.fflags ||| f },
        strip := { x.strip with cp := { x.strip.cp with fflags := x.strip.cp.fflags ||| f } },
        unordered := old :: x.unordered }) ∧
    (∀ h, h ≠ w.hart ∨ w.ended ≠ 0 → t.hartAt h = s.hartAt h)
  let flagged (loc : Nat) (f : FFlags) (g : Nat → Byte) (a : Nat) : Byte :=
    let dw (b : Nat) : Byte := g b ||| (BitVec.ofNat 8 f.toNat)
    if f ≠ 0 ∧ (a = loc + imageFflags ∨ a = loc + imageCheckpointFflags) then dw a else g a
  (∀ bs, e.op = .store bs →
    (s.mem.wf = true → Stored s t e.loc bs) ∧ WordsCleared s t e.loc bs.length ∧ stays 0) ∧
  (∀ op x, e.op = .atomic op x →
    let r := op.apply (BitVec.ofNat 32 (leNat (s.bytes e.loc op.size))) x
    let after (a : Nat) : Byte :=
      if e.loc ≤ a ∧ a < e.loc + op.size then (leBytes op.size r.1.toNat).getD (a - e.loc) 0 else s.byte a
    (s.mem.wf = true → (∀ loc, ¬ image loc) → ∀ a, t.byte a = after a) ∧
    (s.mem.wf = true → ∀ loc, image loc → ∀ a, t.byte a = flagged loc r.2 after a) ∧ stays r.2 ∧
    ErrorsNoted s t [(e.loc, op.size)]) ∧
  t = { s with
    fabric := sentTo s w.hart w.ended e.loc e.size, hart := t.hart, harts := t.harts, mem := t.mem, poison := t.poison, reports := t.reports,
    repair := { s.repair with
      weak := t.repair.weak, corrected := t.repair.corrected, recent := t.repair.recent, log := t.repair.log } }

/-- Held writes performed in order, but those whose peer has no path still, and those whose stream waits for one of these
(R119, R284, R287); `kept` are the ones that stay. -/
def ReleasedFrom : List HeldWrite → State → List HeldWrite → State → Prop
  | kept, s, [], t => t = { s with fabric := { s.fabric with held := kept } }
  | kept, s, w :: r, t =>
    let stays : Prop := s.noPath w.entry.loc = true ∨
      ∃ v ∈ kept, v.hart = w.hart ∧ v.ended = w.ended ∧ v.blocks.getLsbD w.entry.stream.toNat = true
    (stays → ReleasedFrom (kept ++ [w]) s r t) ∧ (¬ stays → ∃ u, PerformsHeld s u w ∧ ReleasedFrom kept u r t)

/-- A record of kind `kind` of a code word of this device (R308). -/
def RecordOf (s : State) (e : ErrorRecord) (kind w : Nat) : Prop :=
  e.kind = kind ∧ e.count = (tget s.repair.corrected w).getD 0 ∧
  (w < 2 ^ 52 → e.unit = 0 ∧ e.location = w ∧ e.die = w / 2 ^ 37 ∧ e.part = s.partOfStack (w / 2 ^ 36)) ∧
  ∀ core, core < 192 → InVault core w → e.unit = 1 ∧ e.die = core / 48 ∧ e.part = s.partOfCore core ∧
    e.location = core / 48 + 256 * (core / 4) + 65536 * core

/-- A repair is recorded so, and appended, signed, to the unit map's amendments. -/
def Repairs (s t : State) (e : ErrorRecord) : Prop :=
  Logs s t e ∧
  ∃ bytes, t.boot = { s.boot with amendments := s.boot.amendments ++ [(bytes, Config.mldsaSign bytes)] }

/-- Nothing happens. -/
def NoEvent (i : Instr) (s : State) : Prop := exec i s = .next s

/-- Buffered entries performed in their order, all of them stores: the last one that touches a byte gives it its value. -/
def PerformedInOrder (s t : State) (l : List BufEntry) : Prop :=
  (∀ a, (∀ e ∈ l, ¬ e.holds a) → t.byte a = s.byte a) ∧
  ∀ pre e post bs a, l = pre ++ e :: post → e.op = .store bs → e.holds a → (∀ f ∈ post, ¬ f.holds a) →
    t.byte a = bs.getD (a - e.loc) 0

/-- n bytes from lo on read 0, every other byte as before. -/
def Zeroed (s t : State) (ranges : List (Nat × Nat)) : Prop :=
  ∀ a, t.byte a = if ranges.any (fun r => decide (r.1 ≤ a) && decide (a < r.1 + r.2)) then 0 else s.byte a


/-! ### Command streams and launches (spec/17 R262 to R276, R314) -/

/-- Stream `key` becomes y; nothing else changes. -/
def StreamAs (s t : State) (key : Nat) (y : Stream) : Prop :=
  t.streamAt key = y ∧ (∀ k, k ≠ key → t.streamAt k = s.streamAt k) ∧ t = { s with streams := t.streams }

/-- The command processor of a stream's function reaches n bytes at va: vault space never translates (R314), and n bytes of a
peer need one grant (R282). -/
def ProcReach (s : State) (part : Nat) (root va : Word) (n : Nat) (need : Need) (h : Hit) : Prop :=
  inVaultSpace va = false ∧ (s.reachAddr (s.processor part root) va need).2 = .hit h ∧ s.admitted part h.loc n need.isWrite = true

/-- It reaches them at loc. -/
def ProcHit (s : State) (part : Nat) (root va : Word) (n : Nat) (need : Need) (loc : Nat) : Prop :=
  ∃ h, ProcReach s part root va n need h ∧ h.loc = loc

/-- It does not reach va; an address outside the partition is reported to Pip, another is not (R314). -/
def ProcMiss (s : State) (fn part : Nat) (root va : Word) (n : Nat) (need : Need) (rep : List Report) : Prop :=
  (∀ loc, ¬ ProcHit s part root va n need loc) ∧
  let met := (s.reachAddr (s.processor part root) va need).2
  let outside : Prop := inVaultSpace va = false ∧ (met = .outside ∨ ∃ h, met = .hit h)
  (outside → rep = [.processorViolation fn va]) ∧ (¬ outside → rep = [])

/-- What a processor's read of n bytes leaves in the counts and the log of errors (R305, R308). -/
def ProcNotes (s v : State) (part : Nat) (root va : Word) (n : Nat) : Prop :=
  (s.poison = [] → s.repair.weak = [] → v = s) ∧
  (∀ loc, (∀ k, k < n → ProcHit s part root (va + BitVec.ofNat 64 k) 1 .read (loc + k)) →
    (∀ w ∈ s.repair.weak ++ s.poison, codeWord w = w) → Noted s v loc n) ∧
  v = { s with
    repair := { s.repair with corrected := v.repair.corrected, recent := v.repair.recent, log := v.repair.log },
    reports := v.reports }

/-- A write of a stream's processor goes out at once: its peer has a path, and none of the processor's is held before it
(R287). -/
def ProcOut (u : State) (key loc : Nat) : Prop := u.noPath loc = false ∧ ∀ w ∈ u.fabric.held, w.hart ≠ procAgent key

/-- Bytes written by a stream's processor: at once, or held until the path returns and the processor's writes before it are
performed (R287). -/
def ProcWrites (u t : State) (key : Nat) (h : Hit) (bs : List Byte) : Prop :=
  let loc := h.loc
  (ProcOut u key loc → Stored u t loc bs ∧ Corrected u t loc bs.length ∧
    t = { u with
      mem := t.mem, poison := t.poison, repair := t.repair, fabric := sentTo u (procAgent key) 0 loc bs.length }) ∧
  (¬ ProcOut u key loc → ∃ w : HeldWrite, w.hart = procAgent key ∧ w.ended = 0 ∧ w.blocks = 1 ∧
    w.part = (u.partOfFn (key / 16)).getD 0 ∧ w.entry.loc = loc ∧ w.entry.op = .store bs ∧ w.entry.stream = 0 ∧
    w.entry.page = h.page ∧ t = { u with fabric := { u.fabric with held := u.fabric.held ++ [w] } })

/-- The completion record of a stream's command: 16 bytes at COMPL unless it is 0 or cannot be written, and then the vector
(R264, R287, R314). -/
def Completes (u t : State) (part key : Nat) (root compl : Word) (irq : Bool) (w0 info : Nat) : Prop :=
  let rings (v : State) : State := { v with msix := if irq then v.msix ++ [(key / 16, key % 16)] else v.msix }
  let record := leBytes 8 w0 ++ leBytes 8 info
  (compl = 0 → t = rings u) ∧
  (compl ≠ 0 →
    (∀ h, ProcReach u part root compl 16 .write h → u.mem.wf = true → ∃ v, ProcWrites u v key h record ∧ t = rings v) ∧
    ∀ rep, ProcMiss u (key / 16) part root compl 16 .write rep → t = rings { u with reports := u.reports ++ rep })

/-- The command c of a stream completes with a record, from state w on; rep is what Pip is told besides. -/
def Ends (i : Instr) (s w : State) (part key : Nat) (x : Stream) (c : Cmd) (w0 info : Nat) (rep : List Report) : Prop :=
  ∃ u t, exec i s = .next { t with reports := t.reports ++ rep } ∧
    StreamAs w u key { x with cmd := none, begun := false, polled := 0 } ∧
    Completes u t part key x.xlat (c.dw 1) ((c.dw 0).getLsbD 9) w0 info

/-- A first doubleword of a final record (R264). -/
def finalRecord (cls detail cause : Nat) : Nat := 3 + 256 * cls + 65536 * detail + 16777216 * cause

/-- The must-be-zero fields, the alignments and the reserved values of a command with an OP of 1 to 5 (R264, R266). -/
def WellFormedCommand (c : Cmd) : Prop :=
  let op := (c.dw 0).toNat % 256
  (c.dw 0).toNat < 1024 ∧ (c.dw 1).toNat % 16 = 0 ∧ c.dw 5 = 0 ∧ c.dw 6 = 0 ∧ c.dw 7 = 0 ∧
  (op = 1 → (c.dw 4).toNat < 1024) ∧
  (op = 2 → (c.dw 2).toNat % 8 = 0 ∧ (c.dw 4).toNat % 2 ^ 32 < 4) ∧
  (op = 3 → (c.dw 2).toNat % 8 = 0 ∧ (c.dw 4).toNat < 2) ∧
  (op = 4 → (c.dw 4).toNat < 3 * 2 ^ 40 ∧ (2 * 2 ^ 40 ≤ (c.dw 4).toNat → c.dw 3 = 0 ∧ (c.dw 4).toNat = 2 * 2 ^ 40)) ∧
  (op = 5 → c.dw 2 = 0 ∧ c.dw 3 = 0 ∧ c.dw 4 = 0)

/-- Whether the comparison of WAITV holds of the value read (R267). -/
def WaitHolds (c : Cmd) (v : Nat) : Prop :=
  let operand := (c.dw 3).toNat
  match (c.dw 4).toNat % 4 with
  | 0 => v = operand
  | 1 => v ≠ operand
  | 2 => operand ≤ v
  | _ => v < operand

/-- A COPY of data in state s by the processor of stream key: what it writes and what Pip is told, in w, and its record's CLASS
and INFO (R268, R314). -/
def CopyOutcome (s w : State) (key part : Nat) (root : Word) (c : Cmd) (cls : Nat) (info : Word) : Prop :=
  let fn := key / 16
  let len := (c.dw 4).toNat % 2 ^ 40
  let src (i : Nat) : Word := c.dw 2 + BitVec.ofNat 64 i
  let dst (i : Nat) : Word := c.dw 3 + BitVec.ofNat 64 i
  let skim (i : Nat) : Prop := inVaultSpace (dst i) = false ∧ (s.regionAt part (s.partAt part).root2 (dst i)).isSome = true
  let moves (l m : Nat → Nat) (i : Nat) : Prop :=
    ProcHit s part root (src i) 1 .read (l i) ∧ s.unreadable (l i) 1 = false ∧ ProcHit s part root (dst i) 1 .write (m i)
  (∀ i, i < len → skim i → (∀ j, j < i → ¬ skim j) → w = s ∧ cls = 6 ∧ info = dst i) ∧
  ((∀ i, i < len → ¬ skim i) →
    (∀ l m, (∀ i, i < len → moves l m i ∧ ProcOut s key (m i)) → s.mem.wf = true →
      cls = 0 ∧ info = 0 ∧ Touched s w ∧
      (∀ a, (∀ i, i < len → m i ≠ a) → w.byte a = s.byte a) ∧
      ((∀ i j, i < len → j < len → m i ≠ l j) → (∀ i j, i < len → j < len → m i = m j → i = j) →
        ∀ i, i < len → w.byte (m i) = s.byte (l i))) ∧
    (∀ l m, (∀ i, i < len → moves l m i) → s.mem.wf = true →
      cls = 0 ∧ info = 0 ∧ (∀ a, (∀ i, i < len → m i ≠ a) → w.byte a = s.byte a) ∧
      ∃ (hs : List HeldWrite) (ss : List SentWrite),
        w.fabric = { s.fabric with held := s.fabric.held ++ hs, sent := s.fabric.sent ++ ss } ∧
        ∀ h ∈ hs, h.hart = procAgent key ∧ ∃ i b, i < len ∧ h.entry.loc = m i ∧ h.entry.op = .store [b] ∧
          ((∀ j, j < len → m j ≠ l i) → b = s.byte (l i))) ∧
    ∀ (k : Nat) (l m : Nat → Nat), k < len → (∀ i, i < k → moves l m i ∧ ProcOut s key (m i)) → s.mem.wf = true →
      let partly (r : List Report) : Prop :=
        ∃ v, Touched s v ∧ w = { v with reports := v.reports ++ r } ∧ ∀ a, (∀ i, i < k → m i ≠ a) → w.byte a = s.byte a
      (∀ r, ProcMiss s fn part root (src k) 1 .read r → partly r ∧ cls = 6 ∧ info = src k) ∧
      (∀ n, ProcHit s part root (src k) 1 .read n →
        (∀ r, ProcMiss s fn part root (dst k) 1 .write r → partly r ∧ cls = 6 ∧ info = dst k) ∧
        (∀ o, ProcHit s part root (dst k) 1 .write o → s.unreadable n 1 = true →
          partly [] ∧ cls = 6 ∧ info = src k)))

/-- The first object of the list that a handle names in a partition: not released and not failed (R266, R268, R269). -/
def Named (s : State) (part : Nat) (handle : Word) (id : Nat) (o : CodeObject) : Prop :=
  let names (q : Nat × CodeObject) : Prop := q.2.part = part ∧ q.2.handle = handle ∧ q.2.released = false ∧ q.2.failed = false
  ∃ pre post, s.objects = pre ++ (id, o) :: post ∧ names (id, o) ∧ ∀ q ∈ pre, ¬ names q

/-- A legal loop-nest record: its spatial levels, each with whether it is of kind DIES, and its temporal levels (R272). -/
def LegalNest (c : Vector Word 8) (spatial : List (Nat × Bool)) (temporal : List Nat) : Prop :=
  let dw (k : Nat) : Nat := (c.toList.getD k 0).toNat
  ∃ levels : List (Nat × Nat), dw 0 = levels.length ∧ 1 ≤ levels.length ∧ levels.length ≤ 4 ∧
    (∀ (k : Nat) (l : Nat × Nat), levels[k]? = some l → dw (k + 1) = l.1 + 2 ^ 32 * l.2 ∧ 1 ≤ l.1 ∧ l.1 < 2 ^ 32 ∧ l.2 < 3) ∧
    (∀ k, levels.length < k → k < 8 → dw k = 0) ∧
    spatial = (levels.filter fun l => l.2 != 0).map (fun l => (l.1, l.2 == 2)) ∧
    temporal = (levels.filter fun l => l.2 == 0).map Prod.fst ∧
    spatial.length ≤ 3 ∧ temporal.length ≤ 3 ∧ (spatial.filter Prod.snd).length ≤ 1 ∧
    (spatial.map Prod.fst).foldl (· * ·) 1 < 2 ^ 48

/-- The record a LAUNCH names: an object with none runs one workgroup, and only as record 0 (R269). -/
def NestOf (o : CodeObject) (index : Nat) (spatial : List (Nat × Bool)) (temporal : List Nat) : Prop :=
  (o.nests = [] ∧ index = 0 ∧ spatial = [] ∧ temporal = []) ∨
  ∃ c, o.nests[index]? = some c ∧ LegalNest c spatial temporal

/-- Whether a launch may begin: a deterministic one alone in its partition and with every ordinal backed, an ordinary one
beside no deterministic one (R269). -/
def MayBegin (s : State) (part : Nat) (det : Bool) : Prop :=
  let running (q : Nat × Launch) : Prop := q ∈ s.launches ∧ q.2.part = part ∧ q.2.begun.isSome = true
  if det then (∀ q, ¬ running q) ∧ ∀ k ∈ (s.partAt part).ordinals, k ≠ none else ∀ q, running q → q.2.det = false

/-- The cores of a partition keep their vaults for a `.pin` launch from its beginning on (R276): x is the state after it, in
which those of idle cores that no other `.pin` launch kept hold no data of earlier workgroups (R5). -/
def PinsVaults (u x : State) (id part : Nat) : Prop :=
  let mine (c : Nat) : Prop := some c ∈ (u.partAt part).ordinals
  let loses (a : Nat) : Prop := ∃ c, mine c ∧ InPart c (halfOf (u.partAt part)) a ∧ (u.hartAt (2 * c)).run = .absent ∧
    (u.hartAt (2 * c + 1)).run = .absent ∧ ¬ VaultKept u c part
  (∀ c, mine c → ∃ l, l ≠ [] ∧ (∀ k ∈ l, k = id) ∧ x.coreAt c = { u.coreAt c with pinned := (u.coreAt c).pinned ++ l }) ∧
  (∀ c, ¬ mine c → x.coreAt c = u.coreAt c) ∧ (∀ a, ¬ loses a → x.byte a = u.byte a) ∧
  x = { u with core := x.core, cores := x.cores, vaults := x.vaults, free := x.free }

/-- Launch id begins: it is the newest, nothing of it is handed out, and with NOWAIT its stream goes on (R265, R276). -/
def Begins (u t : State) (id : Nat) (l : Launch) : Prop :=
  let p := u.partAt l.part
  let lanes := if l.det then p.ncores else if l.spatial.any Prod.snd then p.dies.length else 1
  let x := u.streamAt l.stream
  ∃ v, (if l.pin then PinsVaults u v id l.part else v = u) ∧
  tget t.launches id = some { l with begun := some u.nextLaunch, handed := List.replicate lanes 0 } ∧
  (∀ k, k ≠ id → tget t.launches k = tget u.launches k) ∧
  (∀ k, t.streamAt k = if l.nowait = true ∧ k = l.stream then
      { x with cmd := none, begun := false, polled := 0, launches := x.launches ++ [id] } else u.streamAt k) ∧
  t = { v with launches := t.launches, nextLaunch := u.nextLaunch + 1, streams := t.streams }

/-- A flat index as the indices of its spatial levels, the last varying fastest (R273). -/
def IndicesOf (counts js : List Nat) (i : Nat) : Prop :=
  js.length = counts.length ∧ (∀ (k j c : Nat), js[k]? = some j → counts[k]? = some c → j < c) ∧
  i = (counts.zip js).foldl (fun acc x => acc * x.1 + x.2) 0

/-- Workgroup i of a running launch may go to a hart next: the hart is free, its core backs ordinal k, and i is the next of
the lane that the core serves (R241, R274, R275). -/
def Offers (s : State) (l : Launch) (hart lane i k : Nat) : Prop :=
  let p := s.partAt l.part
  let core := coreOf hart
  let next := l.handed.getD lane 0
  l.begun.isSome = true ∧ l.ended = none ∧ hart < 384 ∧ p.active = true ∧ (s.hartAt hart).run = .absent ∧
  (s.coreAt core).retired = false ∧ s.boot.diesUp.getLsbD (dieOf core) = true ∧ s.boot.huskUp.getLsbD (dieOf core) = true ∧
  p.ordinals[k]? = some (some core) ∧ (∀ j, j < k → p.ordinals[j]? ≠ some (some core)) ∧
  (if l.det then hart % 2 = 0 ∧ (s.hartAt (hart + 1)).run = .absent ∧ lane = k ∧ i = k + p.ordinals.length * next ∧ i < l.total ∧
      ∀ h ∈ l.running, (s.hartAt h).ctl.index % p.ordinals.length ≠ k
    else if l.spatial.any Prod.snd then
      p.dies[lane]? = some (dieOf core) ∧ (∀ j, j < lane → p.dies[j]? ≠ some (dieOf core)) ∧ l.nth p lane next = some i
    else lane = 0 ∧ i = next ∧ i < l.total)

/-- The launch leaves with a record (R271). -/
def LaunchGone (s t : State) (id : Nat) (l : Launch) (w0 info : Nat) : Prop :=
  ∃ a u, tget a.launches id = none ∧ (∀ k, k ≠ id → tget a.launches k = tget s.launches k) ∧
    a = { s with launches := a.launches } ∧
    (let x := a.streamAt l.stream
     StreamAs a u l.stream (if l.nowait then { x with launches := x.launches.filter fun k => k != id }
       else { x with cmd := none, begun := false, polled := 0 })) ∧
    Completes u t l.part l.stream l.root l.compl l.irq w0 info

/-- An event by which it does. -/
def LaunchEnds (i : Instr) (s : State) (id : Nat) (l : Launch) (w0 info : Nat) : Prop :=
  ∃ t, exec i s = .next t ∧ LaunchGone s t id l w0 info

/-- Launches that leave one after the other with one record. -/
def AllGone (w0 info : Nat) : State → List (Nat × Launch) → State → Prop
  | s, [], t => t = s
  | s, (id, l) :: r, t => ∃ u, LaunchGone s u id l w0 info ∧ AllGone w0 info u r t

/-- Object id becomes o; nothing else changes. -/
def ObjectAs (s t : State) (id : Nat) (o : CodeObject) : Prop :=
  tget t.objects id = some o ∧ (∀ k, k ≠ id → tget t.objects k = tget s.objects k) ∧ t = { s with objects := t.objects }

/-- n bytes of a stream from an address on, each reached and correctable. -/
def StreamBytes (s : State) (part : Nat) (root va : Word) (bs : List Byte) : Prop :=
  ∀ i, i < bs.length → ∃ loc, ProcHit s part root (va + BitVec.ofNat 64 i) 1 .read loc ∧ s.unreadable loc 1 = false ∧
    bs[i]? = some (s.byte loc)

/-- The first of n bytes of a stream that cannot be read, and what Pip is told (R314). -/
def StreamStops (s : State) (fn part : Nat) (root va : Word) (n : Nat) (stop : Word) (rep : List Report) : Prop :=
  ∃ bs, bs.length < n ∧ StreamBytes s part root va bs ∧ stop = va + BitVec.ofNat 64 bs.length ∧
    (ProcMiss s fn part root stop 1 .read rep ∨
      rep = [] ∧ ∃ loc, ProcHit s part root stop 1 .read loc ∧ s.unreadable loc 1 = true)

/-- The second record of a load, from state w on (R268). -/
def LoadEnds (i : Instr) (s w : State) (id : Nat) (o : CodeObject) (w0 info : Nat) (rep : List Report) : Prop :=
  ∃ v u t, exec i s = .next { t with reports := t.reports ++ rep } ∧ ObjectAs w v id o ∧
    (let x := v.streamAt o.stream
     StreamAs v u o.stream { x with loads := x.loads.filter fun k => k != id }) ∧
    Completes u t o.part o.stream o.root o.compl o.irq w0 info


/-- An address that a kernel or a segment may lie at: canonical in 57 bits and outside vault space (R210, R247, R249). -/
def InRange (va : Nat) : Prop :=
  (va < 2 ^ 56 ∨ 2 ^ 64 - 2 ^ 56 ≤ va) ∧ va < 2 ^ 64 ∧ ¬ (0xFFF0000000000000 ≤ va ∧ va ≤ 0xFFF0FFFFFFFFFFFF)

/-- Bytes [lo, hi) of a list are zero. -/
def ZeroBytes (bs : List Byte) (lo hi : Nat) : Prop := ∀ k, lo ≤ k → k < hi → bs.getD k 0 = 0

/-- An object that declares no unordered form (R237). -/
def OrderedObject (h : List Byte) : Prop := bytesAt h 8 4 % 32 = 0

/-- The header of a code object passes steps 1 and 2 of R253: MAGIC, FORMAT, the bytes R247 does not name, NSEG, LEVEL, ENTRY, and
DET, whose reserved bits are zero and which declares no ORDERED object with an unordered form (R238). -/
def HeaderLegal (h : List Byte) : Prop :=
  let entry := bytesAt h 16 8
  let det := bytesAt h 8 4
  bytesAt h 0 4 = 0x004F4B54 ∧ bytesAt h 4 2 = 1 ∧ ZeroBytes h 36 48 ∧ ZeroBytes h 80 128 ∧ bytesAt h 15 1 < 4 ∧
  1 ≤ bytesAt h 12 2 ∧ 1 ≤ bytesAt h 6 1 ∧ entry % 2 = 0 ∧ InRange entry ∧
  det / 32 % 8 = 0 ∧ det < 512 ∧ (256 ≤ det → det % 32 = 0)

/-- Where the signature block of a prefix begins, and the bytes of the prefix (R246). -/
def signatureBegins (h : List Byte) : Nat := 160 + 64 * bytesAt h 14 1 + 16 * bytesAt h 32 4
def prefixLength (h : List Byte) : Nat := signatureBegins h + if bytesAt h 15 1 / 2 % 2 = 1 then 3328 else 0

/-- The must-be-zero bytes of the relocation list and of the signature block (R250, R251). -/
def PrefixZero (p : List Byte) : Prop :=
  (∀ k, k < bytesAt p 32 4 → let at' := 160 + 64 * bytesAt p 14 1 + 16 * k; ZeroBytes p (at' + 3) (at' + 4)) ∧
  (bytesAt p 15 1 / 2 % 2 = 1 → ZeroBytes p (signatureBegins p + 3325) (signatureBegins p + 3328))

/-- Step 3 of R253: the root is signed by the key that the block names among those installed; an object without a signature
passes where the policy does not require one (R251). -/
def SignatureGood (t : Partition) (p : List Byte) : Prop :=
  let signed : Prop := bytesAt p 15 1 / 2 % 2 = 1
  let block := p.drop (signatureBegins p)
  (¬ signed → t.signed = false) ∧
  (signed → ∃ pre k post, t.keys = pre ++ k :: post ∧ k.take 16 = block.take 16 ∧ (∀ q ∈ pre, q.take 16 ≠ block.take 16) ∧
    Config.mldsaVerify (k.drop 16) (shake256 (p.take (signatureBegins p))) ((block.drop 16).take 3309) = true)

/-- The segment that a segment header announces (R249). -/
def announcedBy (h : List Byte) : Segment :=
  { va := BitVec.ofNat 64 (bytesAt h 0 8), filesz := bytesAt h 8 4, memsz := bytesAt h 12 4,
    kind := BitVec.ofNat 8 (bytesAt h 16 1), frame := none }

/-- The rules of a segment header (R249). -/
def SegmentLegal (h : List Byte) : Prop :=
  let va := bytesAt h 0 8
  let n := bytesAt h 12 4
  va % 8 = 0 ∧ InRange va ∧ bytesAt h 8 4 ≤ n ∧ bytesAt h 16 1 ≤ 2 ∧ ZeroBytes h 17 32 ∧
  (n ≠ 0 → InRange (va + n - 1) ∧ va / 2 ^ 63 = (va + n - 1) / 2 ^ 63)

/-- A segment occupies a 64 KiB page (R249). -/
def OnPage (g : Segment) (page : Nat) : Prop :=
  g.memsz ≠ 0 ∧ g.va.toNat / 65536 ≤ page ∧ page ≤ (g.va.toNat + g.memsz - 1) / 65536

/-- How many pages a segment occupies. -/
def pageCount (g : Segment) : Nat :=
  if g.memsz = 0 then 0 else (g.va.toNat + g.memsz - 1) / 65536 - g.va.toNat / 65536 + 1

/-- A page may hold a segment of object id: neither the partition's tables nor a mapped segment of another object of the same
address space map it, and no earlier segment of the object of another KIND lies on it (R249). -/
def PageOpen (s : State) (id : Nat) (o : CodeObject) (kind : BitVec 8) (page : Nat) : Prop :=
  (∀ l, s.stage1 o.part o.root (s.partAt o.part).root2 (page * 65536) ≠ .ok l) ∧
  (∀ q ∈ s.objects, q.1 ≠ id → q.2.part = o.part → q.2.root.extractLsb' 12 40 = o.root.extractLsb' 12 40 →
    o.root.getLsbD 63 = true → ∀ g ∈ q.2.segments, g.frame ≠ none → ¬ OnPage g page) ∧
  ∀ k g, k < o.arrived → o.segments[k]? = some g → OnPage g page → g.kind = kind

/-- A frame can hold the n pages of a segment: partition physical pages that the partition may write, on this device (R283). -/
def FrameHolds (s : State) (part : Nat) (frame : Word) (n : Nat) : Prop :=
  frame.toNat % 65536 = 0 ∧ frame.toNat + 65536 * n ≤ 2 ^ 52 ∧
  ∀ k, k < n → ∃ l, s.stage2In part (s.partAt part).root2 (frame.toNat + 65536 * k) true = .ok l ∧
    nodeOf (s.fabric.normal l.base) = 0

/-- The tests of a LAUNCH in their order (R269): the DETAIL it is refused with, or the launch that passes. -/
def LaunchTested (s : State) (part key : Nat) (root : Word) (det : Bool) (c : Cmd) (refused : Nat → Prop)
    (passes : Launch → Prop) : Prop :=
  let p := s.partAt part
  let index := (c.dw 4).toNat % 256
  ((∀ id o, ¬ Named s part (c.dw 2) id o) → refused 2) ∧
  ∀ id o, Named s part (c.dw 2) id o →
    ((∀ sp tp, ¬ NestOf o index sp tp) → refused 3) ∧
    ∀ sp tp, NestOf o index sp tp →
      (det = true → o.ordered = false → refused 1) ∧
      (¬ (det = true ∧ o.ordered = false) → p.ordinals.length ≠ o.ncores → refused 4) ∧
      (¬ (det = true ∧ o.ordered = false) → p.ordinals.length = o.ncores →
        passes {
          stream := key, part := part, object := id, root := root, args := c.dw 3, pri := (c.dw 4).extractLsb' 8 2, det := det,
          pin := o.pin, spatial := sp, temporal := tp, handed := [], running := [], begun := none, ended := none,
          nowait := (c.dw 0).getLsbD 8, compl := c.dw 1, irq := (c.dw 0).getLsbD 9 })

/-! ### Partitions (spec/19 R296 to R299, R304) -/

/-- A partition holds a core that backs an ordinal of it or that is on its way to it. -/
def HeldBy (s : State) (part core : Nat) : Prop :=
  some core ∈ (s.partAt part).ordinals ∨ ∃ v ∈ s.repair.vaultZeroing, v = (core, part)

/-- An envelope of at least 5 W a core that leaves the sum over partitions within the package limit, which is configured
between 1,200 W and 3,000 W (R3, R296). -/
def Powers (s : State) (part cores watts : Nat) : Prop :=
  5 * cores ≤ watts ∧
  ((s.parts.filter fun q => q.1 != part).map fun q => q.2.envelope).sum + watts ≤ min 3000 (max 1200 s.boot.watts)

/-- A core is present in the unit map with every bank of its vault and its cluster's copy engine, not retired, and on a die that
runs partitions (R311, R312; log 88). -/
def Up (s : State) (c : Nat) : Prop :=
  (∀ b ∈ s.boot.unitMap.banksAbsent, b / 64 ≠ c) ∧ s.boot.unitMap.engines.getLsbD (c / 4) = true ∧
  s.boot.unitMap.cores.getLsbD c = true ∧ (s.coreAt c).retired = false ∧ s.boot.diesUp.getLsbD (dieOf c) = true ∧
  s.boot.huskUp.getLsbD (dieOf c) = true

/-- A save area of 4 MiB a core, aligned to 64 KiB, lies in HBM stacks granted to the partition (R293, R296; the stacks: log
66). -/
def SaveArea (base : Word) (cores : Nat) (hbm : BitVec 8) : Prop :=
  let last := base.toNat + 4194304 * cores - 1
  base.toNat % 65536 = 0 ∧ last < 2 ^ 39 ∧ ∀ k, base.toNat / 2 ^ 36 ≤ k → k ≤ last / 2 ^ 36 → hbm.getLsbD k = true

/-- The limits of a request for a partition (R296). -/
def Creatable (s : State) (r : PartitionRequest) : Prop :=
  r.part ≤ 15 ∧ tget s.parts r.part = none ∧ r.cores ≠ [] ∧ r.cores.Nodup ∧
  (∀ c ∈ r.cores, c < 192 ∧ Up s c ∧ (∀ v ∈ s.repair.vaultZeroing, v.1 ≠ c) ∧ ∀ q ∈ s.parts, some q.1 ≠ r.pair → q.1 ≠ r.part → ¬ HeldBy s q.1 c) ∧
  (∀ k, r.hbm.getLsbD k = true → s.boot.unitMap.hbm.getLsbD k = true) ∧
  (∀ k, r.links.getLsbD k = true → s.boot.unitMap.links.getLsbD k = true) ∧
  1 ≤ r.minCores ∧ r.minCores ≤ r.cores.length ∧
  (∀ q ∈ s.parts, some q.1 ≠ r.pair → q.2.hbm &&& r.hbm = 0 ∧ q.2.links &&& r.links = 0) ∧
  Powers s r.part r.cores.length r.envelope ∧
  (∀ q, r.pair = some q → q ≠ r.part ∧ q ≤ 15 ∧ ∀ p, tget s.parts q = some p → p.pair = some r.part) ∧
  (∀ f ∈ r.functions, 1 ≤ f ∧ f ≤ 192 ∧ ∀ q ∈ s.parts, f ∉ q.2.functions) ∧
  1 ≤ r.roots.length ∧ r.roots.length ≤ 2 ∧ SaveArea r.saveBase r.cores.length r.hbm

/-- The workgroups of some harts end at once: strips aborted, engine operations ended, matrix state detached, saved contexts
discarded (R304). A retired core leaves its ordinals with its last workgroup (R309). -/
def Kills (s t : State) (gone : Nat → Prop) : Prop :=
  (∀ h, gone h →
    let x := s.hartAt h
    let y := t.hartAt h
    let a := if x.csr.so then x.aborted else x
    y = { a with
      queues := y.queues, run := .absent, locks := [], vdesc := Vector.replicate 4 none, claim := none, unordered := [],
      ctl := { a.ctl with launch := none, holds := 0, revoked := false, protectedStrip := false, preempt := false,
                          rejected := false } } ∧
    (∀ q : Fin 4, y.queues.get q = { x.queues.get q with ops := [], frozen := false }) ∧ tget t.saved h = none ∧
    ownedBy (t.coreAt (coreOf h)) h = none) ∧
  (∀ h, ¬ gone h → t.hartAt h = s.hartAt h ∧ tget t.saved h = tget s.saved h) ∧
  (∀ id, tget s.launches id = none → tget t.launches id = none) ∧
  (∀ id l, tget s.launches id = some l → ∃ r, tget t.launches id = some { l with running := r } ∧
    ∀ h, h ∈ r ↔ h ∈ l.running ∧ ¬ gone h) ∧
  ((∀ h, gone h → (s.coreAt (coreOf h)).retired = false) → t.parts = s.parts) ∧
  (∃ f g : Nat → Nat, (∀ h, gone h ↔ f h ≠ 0) ∧ EndsOf gone g ∧
    t.fabric = { s.fabric with
      held := s.fabric.held.map fun w => { w with ended := w.ended + f w.hart },
      sent := s.fabric.sent.map fun w => { w with ended := w.ended + g w.agent } }) ∧
  t = { s with hart := t.hart, core := t.core, harts := t.harts, cores := t.cores, saved := t.saved, launches := t.launches,
               parts := t.parts, fabric := t.fabric }

/-- The contexts of two members of a pair exchanged: those of the idle one come forward with their saved images; tvec, tepc
and tstatus's PP and SO stay with the place (R15, R298). -/
def Exchanged (s u : State) (part q : Nat) (harts : List Nat) : Prop :=
  let idle (p h : Nat) : Nat := h + 384 * (p + 1)
  let at' (x slot : Hart) : Hart := { x with
    sup := { x.sup with tvec := slot.sup.tvec, tepc := slot.sup.tepc, pp := slot.sup.pp, so := slot.sup.so } }
  (∀ h ∈ harts, u.hartAt h = at' (s.hartAt (idle q h)) (s.hartAt h) ∧
    u.hartAt (idle part h) = at' (s.hartAt h) Hart.reset ∧
    tget u.saved h = tget s.saved (idle q h) ∧ tget u.saved (idle part h) = tget s.saved h) ∧
  (∀ k, k < 192 →
    let c := s.coreAt k
    u.coreAt k = if some k ∈ (s.partAt part).ordinals then
      { c with gov := { c.gov with en := false, pos := 0, latest := none }, clb := [] } else c) ∧
  (∀ h, h < 384 → h ∉ harts → u.hartAt h = s.hartAt h ∧ tget u.saved h = tget s.saved h) ∧
  (∀ (k : Nat) (a : Bool), (k, a) ∈ [(part, false), (q, true)] →
    tget u.parts k = (tget s.parts k).map fun p => { p with active := a, switching := p.switching && decide (k ≠ part) }) ∧
  (∀ k, k ≠ part → k ≠ q → tget u.parts k = tget s.parts k) ∧
  (∀ id l, tget s.launches id = some l → tget u.launches id = some { l with
    running := l.running.map fun h => if h ∈ harts then idle part h else if h ∈ harts.map (idle q) then h - 384 * (q + 1) else h }) ∧
  u = { s with hart := u.hart, core := u.core, harts := u.harts, cores := u.cores, saved := u.saved, launches := u.launches,
               parts := u.parts, fabric := { s.fabric with held := u.fabric.held, sent := u.fabric.sent } }

/-- The contexts of some harts restored in order, each as CONTEXT_RESTORE does. -/
def RestoresAll : List Nat → State → State → Prop
  | [], s, t => t = s
  | h :: r, s, t => ∃ u, exec (.contextRestore h) s = .next u ∧ RestoresAll r u t

end Sys2Proof.Machine
end

