-- ==== Sys2Proof/Laws/Encoding.lean ====
section
/-! SUPPORT. The fields of encoded words, and parcels as bytes: what the round trip of each instruction rests on. -/

namespace Sys2Proof

/-! ### Fields of the word layouts -/

theorem extract_append_low {m n : Nat} (x : BitVec m) (y : BitVec n) (lo k : Nat) (h : lo + k ≤ n) :
    (x ++ y).extractLsb' lo k = y.extractLsb' lo k := by
  apply BitVec.eq_of_getLsbD_eq
  intro i hi
  simp only [BitVec.getLsbD_extractLsb', BitVec.getLsbD_append, hi, decide_true, Bool.true_and]
  rw [if_pos (by omega)]

theorem extract_append_high {m n : Nat} (x : BitVec m) (y : BitVec n) (lo k : Nat) (h : n ≤ lo) :
    (x ++ y).extractLsb' lo k = x.extractLsb' (lo - n) k := by
  apply BitVec.eq_of_getLsbD_eq
  intro i hi
  simp only [BitVec.getLsbD_extractLsb', BitVec.getLsbD_append, hi, decide_true, Bool.true_and]
  rw [if_neg (by omega)]
  congr 1
  omega

theorem extract_all {n : Nat} (x : BitVec n) : x.extractLsb' 0 n = x := by
  apply BitVec.eq_of_getLsbD_eq
  intro i hi
  simp [hi]

/-- The two parcels of a word put together again. -/
theorem words_join (w : BitVec 32) : w.extractLsb' 16 16 ++ w.extractLsb' 0 16 = w := by
  apply BitVec.eq_of_getLsbD_eq
  intro i hi
  simp only [BitVec.getLsbD_append, BitVec.getLsbD_extractLsb']
  by_cases h : i < 16
  · simp [h]
  · simp only [h, if_false]
    have : i - 16 < 16 := by omega
    simp only [this, decide_true, Bool.true_and]
    congr 1
    omega
@[simp] theorem fKind_vWord (maj : BitVec 6) (form : BitVec 2) (d a b : BitVec 5) (m f : BitVec 3) : fKind (vWord maj form d a b m f) = 6#3 :=
  (extract_append_high _ _ _ _ (by decide)).trans ((extract_append_high _ _ _ _ (by decide)).trans ((extract_append_high _ _ _ _ (by decide)).trans ((extract_append_high _ _ _ _ (by decide)).trans ((extract_append_high _ _ _ _ (by decide)).trans ((extract_append_high _ _ _ _ (by decide)).trans ((extract_append_high _ _ _ _ (by decide)).trans (extract_all _)))))))
@[simp] theorem fMaj_vWord (maj : BitVec 6) (form : BitVec 2) (d a b : BitVec 5) (m f : BitVec 3) : fMaj (vWord maj form d a b m f) = maj :=
  (extract_append_high _ _ _ _ (by decide)).trans ((extract_append_high _ _ _ _ (by decide)).trans ((extract_append_high _ _ _ _ (by decide)).trans ((extract_append_high _ _ _ _ (by decide)).trans ((extract_append_high _ _ _ _ (by decide)).trans ((extract_append_high _ _ _ _ (by decide)).trans ((extract_append_low _ _ _ _ (by decide)).trans (extract_all _)))))))
@[simp] theorem fForm_vWord (maj : BitVec 6) (form : BitVec 2) (d a b : BitVec 5) (m f : BitVec 3) : fForm (vWord maj form d a b m f) = form :=
  (extract_append_high _ _ _ _ (by decide)).trans ((extract_append_high _ _ _ _ (by decide)).trans ((extract_append_high _ _ _ _ (by decide)).trans ((extract_append_high _ _ _ _ (by decide)).trans ((extract_append_high _ _ _ _ (by decide)).trans ((extract_append_low _ _ _ _ (by decide)).trans (extract_all _))))))
@[simp] theorem fD_vWord (maj : BitVec 6) (form : BitVec 2) (d a b : BitVec 5) (m f : BitVec 3) : fD (vWord maj form d a b m f) = d :=
  (extract_append_high _ _ _ _ (by decide)).trans ((extract_append_high _ _ _ _ (by decide)).trans ((extract_append_high _ _ _ _ (by decide)).trans ((extract_append_high _ _ _ _ (by decide)).trans ((extract_append_low _ _ _ _ (by decide)).trans (extract_all _)))))
@[simp] theorem fA_vWord (maj : BitVec 6) (form : BitVec 2) (d a b : BitVec 5) (m f : BitVec 3) : fA (vWord maj form d a b m f) = a :=
  (extract_append_high _ _ _ _ (by decide)).trans ((extract_append_high _ _ _ _ (by decide)).trans ((extract_append_high _ _ _ _ (by decide)).trans ((extract_append_low _ _ _ _ (by decide)).trans (extract_all _))))
@[simp] theorem fB_vWord (maj : BitVec 6) (form : BitVec 2) (d a b : BitVec 5) (m f : BitVec 3) : fB (vWord maj form d a b m f) = b :=
  (extract_append_high _ _ _ _ (by decide)).trans ((extract_append_high _ _ _ _ (by decide)).trans ((extract_append_low _ _ _ _ (by decide)).trans (extract_all _)))
@[simp] theorem fM_vWord (maj : BitVec 6) (form : BitVec 2) (d a b : BitVec 5) (m f : BitVec 3) : fM (vWord maj form d a b m f) = m :=
  (extract_append_high _ _ _ _ (by decide)).trans ((extract_append_low _ _ _ _ (by decide)).trans (extract_all _))
@[simp] theorem fF_vWord (maj : BitVec 6) (form : BitVec 2) (d a b : BitVec 5) (m f : BitVec 3) : fF (vWord maj form d a b m f) = f :=
  (extract_append_low _ _ _ _ (by decide)).trans (extract_all _)
@[simp] theorem fKind_srWord (maj : BitVec 6) (form : BitVec 2) (d a b : BitVec 5) (min : BitVec 6) : fKind (srWord maj form d a b min) = 6#3 :=
  (extract_append_high _ _ _ _ (by decide)).trans ((extract_append_high _ _ _ _ (by decide)).trans ((extract_append_high _ _ _ _ (by decide)).trans ((extract_append_high _ _ _ _ (by decide)).trans ((extract_append_high _ _ _ _ (by decide)).trans ((extract_append_high _ _ _ _ (by decide)).trans (extract_all _))))))
@[simp] theorem fMaj_srWord (maj : BitVec 6) (form : BitVec 2) (d a b : BitVec 5) (min : BitVec 6) : fMaj (srWord maj form d a b min) = maj :=
  (extract_append_high _ _ _ _ (by decide)).trans ((extract_append_high _ _ _ _ (by decide)).trans ((extract_append_high _ _ _ _ (by decide)).trans ((extract_append_high _ _ _ _ (by decide)).trans ((extract_append_high _ _ _ _ (by decide)).trans ((extract_append_low _ _ _ _ (by decide)).trans (extract_all _))))))
@[simp] theorem fForm_srWord (maj : BitVec 6) (form : BitVec 2) (d a b : BitVec 5) (min : BitVec 6) : fForm (srWord maj form d a b min) = form :=
  (extract_append_high _ _ _ _ (by decide)).trans ((extract_append_high _ _ _ _ (by decide)).trans ((extract_append_high _ _ _ _ (by decide)).trans ((extract_append_high _ _ _ _ (by decide)).trans ((extract_append_low _ _ _ _ (by decide)).trans (extract_all _)))))
@[simp] theorem fD_srWord (maj : BitVec 6) (form : BitVec 2) (d a b : BitVec 5) (min : BitVec 6) : fD (srWord maj form d a b min) = d :=
  (extract_append_high _ _ _ _ (by decide)).trans ((extract_append_high _ _ _ _ (by decide)).trans ((extract_append_high _ _ _ _ (by decide)).trans ((extract_append_low _ _ _ _ (by decide)).trans (extract_all _))))
@[simp] theorem fA_srWord (maj : BitVec 6) (form : BitVec 2) (d a b : BitVec 5) (min : BitVec 6) : fA (srWord maj form d a b min) = a :=
  (extract_append_high _ _ _ _ (by decide)).trans ((extract_append_high _ _ _ _ (by decide)).trans ((extract_append_low _ _ _ _ (by decide)).trans (extract_all _)))
@[simp] theorem fB_srWord (maj : BitVec 6) (form : BitVec 2) (d a b : BitVec 5) (min : BitVec 6) : fB (srWord maj form d a b min) = b :=
  (extract_append_high _ _ _ _ (by decide)).trans ((extract_append_low _ _ _ _ (by decide)).trans (extract_all _))
@[simp] theorem fMin6_srWord (maj : BitVec 6) (form : BitVec 2) (d a b : BitVec 5) (min : BitVec 6) : fMin6 (srWord maj form d a b min) = min :=
  (extract_append_low _ _ _ _ (by decide)).trans (extract_all _)
@[simp] theorem fKind_siWord (maj : BitVec 6) (min : BitVec 2) (d a : BitVec 5) (imm : BitVec 11) : fKind (siWord maj min d a imm) = 6#3 :=
  (extract_append_high _ _ _ _ (by decide)).trans ((extract_append_high _ _ _ _ (by decide)).trans ((extract_append_high _ _ _ _ (by decide)).trans ((extract_append_high _ _ _ _ (by decide)).trans ((extract_append_high _ _ _ _ (by decide)).trans (extract_all _)))))
@[simp] theorem fMaj_siWord (maj : BitVec 6) (min : BitVec 2) (d a : BitVec 5) (imm : BitVec 11) : fMaj (siWord maj min d a imm) = maj :=
  (extract_append_high _ _ _ _ (by decide)).trans ((extract_append_high _ _ _ _ (by decide)).trans ((extract_append_high _ _ _ _ (by decide)).trans ((extract_append_high _ _ _ _ (by decide)).trans ((extract_append_low _ _ _ _ (by decide)).trans (extract_all _)))))
@[simp] theorem fForm_siWord (maj : BitVec 6) (min : BitVec 2) (d a : BitVec 5) (imm : BitVec 11) : fForm (siWord maj min d a imm) = min :=
  (extract_append_high _ _ _ _ (by decide)).trans ((extract_append_high _ _ _ _ (by decide)).trans ((extract_append_high _ _ _ _ (by decide)).trans ((extract_append_low _ _ _ _ (by decide)).trans (extract_all _))))
@[simp] theorem fD_siWord (maj : BitVec 6) (min : BitVec 2) (d a : BitVec 5) (imm : BitVec 11) : fD (siWord maj min d a imm) = d :=
  (extract_append_high _ _ _ _ (by decide)).trans ((extract_append_high _ _ _ _ (by decide)).trans ((extract_append_low _ _ _ _ (by decide)).trans (extract_all _)))
@[simp] theorem fA_siWord (maj : BitVec 6) (min : BitVec 2) (d a : BitVec 5) (imm : BitVec 11) : fA (siWord maj min d a imm) = a :=
  (extract_append_high _ _ _ _ (by decide)).trans ((extract_append_low _ _ _ _ (by decide)).trans (extract_all _))
@[simp] theorem fImm11_siWord (maj : BitVec 6) (min : BitVec 2) (d a : BitVec 5) (imm : BitVec 11) : fImm11 (siWord maj min d a imm) = imm :=
  (extract_append_low _ _ _ _ (by decide)).trans (extract_all _)
@[simp] theorem fKind_suWord (maj : BitVec 6) (min : BitVec 2) (d : BitVec 5) (imm : BitVec 16) : fKind (suWord maj min d imm) = 6#3 :=
  (extract_append_high _ _ _ _ (by decide)).trans ((extract_append_high _ _ _ _ (by decide)).trans ((extract_append_high _ _ _ _ (by decide)).trans ((extract_append_high _ _ _ _ (by decide)).trans (extract_all _))))
@[simp] theorem fMaj_suWord (maj : BitVec 6) (min : BitVec 2) (d : BitVec 5) (imm : BitVec 16) : fMaj (suWord maj min d imm) = maj :=
  (extract_append_high _ _ _ _ (by decide)).trans ((extract_append_high _ _ _ _ (by decide)).trans ((extract_append_high _ _ _ _ (by decide)).trans ((extract_append_low _ _ _ _ (by decide)).trans (extract_all _))))
@[simp] theorem fForm_suWord (maj : BitVec 6) (min : BitVec 2) (d : BitVec 5) (imm : BitVec 16) : fForm (suWord maj min d imm) = min :=
  (extract_append_high _ _ _ _ (by decide)).trans ((extract_append_high _ _ _ _ (by decide)).trans ((extract_append_low _ _ _ _ (by decide)).trans (extract_all _)))
@[simp] theorem fD_suWord (maj : BitVec 6) (min : BitVec 2) (d : BitVec 5) (imm : BitVec 16) : fD (suWord maj min d imm) = d :=
  (extract_append_high _ _ _ _ (by decide)).trans ((extract_append_low _ _ _ _ (by decide)).trans (extract_all _))
@[simp] theorem fImm16_suWord (maj : BitVec 6) (min : BitVec 2) (d : BitVec 5) (imm : BitVec 16) : fImm16 (suWord maj min d imm) = imm :=
  (extract_append_low _ _ _ _ (by decide)).trans (extract_all _)
@[simp] theorem fKind_brWord (maj : BitVec 6) (cond : BitVec 3) (a : BitVec 5) (off : BitVec 15) : fKind (brWord maj cond a off) = 6#3 :=
  (extract_append_high _ _ _ _ (by decide)).trans ((extract_append_high _ _ _ _ (by decide)).trans ((extract_append_high _ _ _ _ (by decide)).trans ((extract_append_high _ _ _ _ (by decide)).trans (extract_all _))))
@[simp] theorem fMaj_brWord (maj : BitVec 6) (cond : BitVec 3) (a : BitVec 5) (off : BitVec 15) : fMaj (brWord maj cond a off) = maj :=
  (extract_append_high _ _ _ _ (by decide)).trans ((extract_append_high _ _ _ _ (by decide)).trans ((extract_append_high _ _ _ _ (by decide)).trans ((extract_append_low _ _ _ _ (by decide)).trans (extract_all _))))
@[simp] theorem fCond_brWord (maj : BitVec 6) (cond : BitVec 3) (a : BitVec 5) (off : BitVec 15) : fCond (brWord maj cond a off) = cond :=
  (extract_append_high _ _ _ _ (by decide)).trans ((extract_append_high _ _ _ _ (by decide)).trans ((extract_append_low _ _ _ _ (by decide)).trans (extract_all _)))
@[simp] theorem fBrA_brWord (maj : BitVec 6) (cond : BitVec 3) (a : BitVec 5) (off : BitVec 15) : fBrA (brWord maj cond a off) = a :=
  (extract_append_high _ _ _ _ (by decide)).trans ((extract_append_low _ _ _ _ (by decide)).trans (extract_all _))
@[simp] theorem fOff15_brWord (maj : BitVec 6) (cond : BitVec 3) (a : BitVec 5) (off : BitVec 15) : fOff15 (brWord maj cond a off) = off :=
  (extract_append_low _ _ _ _ (by decide)).trans (extract_all _)
@[simp] theorem fKind_jWord (maj : BitVec 6) (off : BitVec 23) : fKind (jWord maj off) = 6#3 :=
  (extract_append_high _ _ _ _ (by decide)).trans ((extract_append_high _ _ _ _ (by decide)).trans (extract_all _))
@[simp] theorem fMaj_jWord (maj : BitVec 6) (off : BitVec 23) : fMaj (jWord maj off) = maj :=
  (extract_append_high _ _ _ _ (by decide)).trans ((extract_append_low _ _ _ _ (by decide)).trans (extract_all _))
@[simp] theorem fOff23_jWord (maj : BitVec 6) (off : BitVec 23) : fOff23 (jWord maj off) = off :=
  (extract_append_low _ _ _ _ (by decide)).trans (extract_all _)
@[simp] theorem fKind_xWord (pair : BitVec 5) (chunks : BitVec 10) (knot : BitVec 2) (kbase : BitVec 8) (clr : Bool) : fKind (xWord pair chunks knot kbase clr) = 7#3 :=
  (extract_append_high _ _ _ _ (by decide)).trans ((extract_append_high _ _ _ _ (by decide)).trans ((extract_append_high _ _ _ _ (by decide)).trans ((extract_append_high _ _ _ _ (by decide)).trans ((extract_append_high _ _ _ _ (by decide)).trans ((extract_append_high _ _ _ _ (by decide)).trans (extract_all _))))))
@[simp] theorem xPair_xWord (pair : BitVec 5) (chunks : BitVec 10) (knot : BitVec 2) (kbase : BitVec 8) (clr : Bool) : xPair (xWord pair chunks knot kbase clr) = pair :=
  (extract_append_high _ _ _ _ (by decide)).trans ((extract_append_high _ _ _ _ (by decide)).trans ((extract_append_high _ _ _ _ (by decide)).trans ((extract_append_high _ _ _ _ (by decide)).trans ((extract_append_high _ _ _ _ (by decide)).trans ((extract_append_low _ _ _ _ (by decide)).trans (extract_all _))))))
@[simp] theorem xChunks_xWord (pair : BitVec 5) (chunks : BitVec 10) (knot : BitVec 2) (kbase : BitVec 8) (clr : Bool) : xChunks (xWord pair chunks knot kbase clr) = chunks :=
  (extract_append_high _ _ _ _ (by decide)).trans ((extract_append_high _ _ _ _ (by decide)).trans ((extract_append_high _ _ _ _ (by decide)).trans ((extract_append_high _ _ _ _ (by decide)).trans ((extract_append_low _ _ _ _ (by decide)).trans (extract_all _)))))
@[simp] theorem xKnot_xWord (pair : BitVec 5) (chunks : BitVec 10) (knot : BitVec 2) (kbase : BitVec 8) (clr : Bool) : xKnot (xWord pair chunks knot kbase clr) = knot :=
  (extract_append_high _ _ _ _ (by decide)).trans ((extract_append_high _ _ _ _ (by decide)).trans ((extract_append_high _ _ _ _ (by decide)).trans ((extract_append_low _ _ _ _ (by decide)).trans (extract_all _))))
@[simp] theorem xKbase_xWord (pair : BitVec 5) (chunks : BitVec 10) (knot : BitVec 2) (kbase : BitVec 8) (clr : Bool) : xKbase (xWord pair chunks knot kbase clr) = kbase :=
  (extract_append_high _ _ _ _ (by decide)).trans ((extract_append_high _ _ _ _ (by decide)).trans ((extract_append_low _ _ _ _ (by decide)).trans (extract_all _)))
@[simp] theorem xClr_xWord (pair : BitVec 5) (chunks : BitVec 10) (knot : BitVec 2) (kbase : BitVec 8) (clr : Bool) : xClr (xWord pair chunks knot kbase clr) = clr := by
  have h : (xWord pair chunks knot kbase clr : BitVec 32).extractLsb' 3 1 = BitVec.ofBool clr :=
    (extract_append_high _ _ _ _ (by decide)).trans ((extract_append_low _ _ _ _ (by decide)).trans (extract_all _))
  rw [xClr, h]
  cases clr <;> rfl
@[simp] theorem xFl_xWord (pair : BitVec 5) (chunks : BitVec 10) (knot : BitVec 2) (kbase : BitVec 8) (clr : Bool) : xFl (xWord pair chunks knot kbase clr) = 0#3 :=
  (extract_append_low _ _ _ _ (by decide)).trans (extract_all _)
@[simp] theorem cOp_cWord (op : BitVec 5) (rest : BitVec 11) : cOp (cWord op rest) = op :=
  (extract_append_high _ _ _ _ (by decide)).trans (extract_all _)
@[simp] theorem cRest_cWord (op : BitVec 5) (rest : BitVec 11) : cRest (cWord op rest) = rest :=
  (extract_append_low _ _ _ _ (by decide)).trans (extract_all _)

/-! ### The first parcel of a word -/

theorem top3 (w : BitVec 32) : (w.extractLsb' 16 16).extractLsb' 13 3 = fKind w := by
  apply BitVec.eq_of_getLsbD_eq
  intro i hi
  have : 13 + i < 16 := by omega
  simp only [fKind, BitVec.getLsbD_extractLsb', hi, this, decide_true, Bool.true_and]
  congr 1
  omega

theorem extract_extract {n : Nat} (x : BitVec n) (a b c d : Nat) (h : c + d ≤ b) :
    (x.extractLsb' a b).extractLsb' c d = x.extractLsb' (a + c) d := by
  apply BitVec.eq_of_getLsbD_eq
  intro i hi
  have : c + i < b := by omega
  simp only [BitVec.getLsbD_extractLsb', hi, this, decide_true, Bool.true_and]
  congr 1
  omega

/-- The two topmost bits of a parcel, and the bit below them, by its topmost three. -/
theorem top_two (p : Half) : p.extractLsb' 14 2 = (p.extractLsb' 13 3).extractLsb' 1 2 :=
  (extract_extract p 13 3 1 2 (by decide)).symm
theorem third (p : Half) : p.extractLsb' 13 1 = (p.extractLsb' 13 3).extractLsb' 0 1 :=
  (extract_extract p 13 3 0 1 (by decide)).symm

/-- A word with no prefix is read from two parcels. -/
theorem decode_words32 (w : BitVec 32) (rest : List Half) (h : fKind w = 6#3) :
    decodeParcels (words32 w ++ rest) = (decode32 w).map (·, 4) := by
  have h2 : (w.extractLsb' 16 16).extractLsb' 14 2 = 3#2 := by rw [top_two, top3, h]; rfl
  have h1 : (w.extractLsb' 16 16).extractLsb' 13 1 = 0#1 := by rw [third, top3, h]; rfl
  simp only [words32, List.cons_append, List.nil_append, decodeParcels, h2, h1, ne_eq, not_true_eq_false, if_false,
    if_true, words_join]

/-- A prefix and its base word are read from four parcels. -/
theorem decode_words64 (x w : BitVec 32) (rest : List Half) (h : fKind x = 7#3) :
    decodeParcels (words64 x w ++ rest) = (decode64 x w).map (·, 8) := by
  have h2 : (x.extractLsb' 16 16).extractLsb' 14 2 = 3#2 := by rw [top_two, top3, h]; rfl
  have h1 : (x.extractLsb' 16 16).extractLsb' 13 1 ≠ 0#1 := by rw [third, top3, h]; decide
  simp only [words64, words32, List.cons_append, List.nil_append, decodeParcels, h2, h1, ne_eq, not_true_eq_false,
    if_false, words_join]

/-- A compressed operation is read from one parcel. -/
theorem decode_cWord (op : BitVec 5) (r : BitVec 11) (rest : List Half) (h : op.extractLsb' 3 2 ≠ 3#2) :
    decodeParcels ([cWord op r] ++ rest) = (decode16 (cWord op r)).map (·, 2) := by
  have h2 : (cWord op r).extractLsb' 14 2 ≠ 3#2 := by
    have e : (cWord op r).extractLsb' 14 2 = op.extractLsb' 3 2 := extract_append_high _ _ _ _ (by decide)
    rwa [e]
  simp only [List.cons_append, List.nil_append, decodeParcels, h2, ne_eq, not_false_eq_true, if_true]

/-! ### Parts of a compressed operation's fields -/

theorem cD_rest (op d : BitVec 5) (i : BitVec 6) : cD (cWord op (d ++ i)) = d :=
  (extract_append_low _ _ _ _ (by decide)).trans ((extract_append_high _ _ _ _ (by decide)).trans (extract_all _))
theorem cImm_rest (op d : BitVec 5) (i : BitVec 6) : cImm (cWord op (d ++ i)) = i :=
  (extract_append_low _ _ _ _ (by decide)).trans ((extract_append_low _ _ _ _ (by decide)).trans (extract_all _))
theorem cD_pair (op d a : BitVec 5) : cD (cWord op (d ++ a ++ 0#1)) = d :=
  (extract_append_low _ _ _ _ (by decide)).trans ((extract_append_high _ _ _ _ (by decide)).trans
    ((extract_append_high _ _ _ _ (by decide)).trans (extract_all _)))
theorem cA_pair (op d a : BitVec 5) : cA (cWord op (d ++ a ++ 0#1)) = a :=
  (extract_append_low _ _ _ _ (by decide)).trans ((extract_append_high _ _ _ _ (by decide)).trans
    ((extract_append_low _ _ _ _ (by decide)).trans (extract_all _)))
theorem cLow_pair (op d a : BitVec 5) : cLow (cWord op (d ++ a ++ 0#1)) = 0#1 :=
  (extract_append_low _ _ _ _ (by decide)).trans ((extract_append_low _ _ _ _ (by decide)).trans (extract_all _))

/-! ### Fields that hold two parts -/

@[simp] theorem joined_5_6_high (x : BitVec 5) (y : BitVec 6) : (x ++ y : BitVec 11).extractLsb' 6 5 = x :=
  (extract_append_high x y 6 5 (by decide)).trans (extract_all x)
@[simp] theorem joined_5_6_low (x : BitVec 5) (y : BitVec 6) : (x ++ y : BitVec 11).extractLsb' 0 6 = y :=
  (extract_append_low x y 0 6 (by decide)).trans (extract_all y)
@[simp] theorem joined_2_3_high (x : BitVec 2) (y : BitVec 3) : (x ++ y : BitVec 5).extractLsb' 3 2 = x :=
  (extract_append_high x y 3 2 (by decide)).trans (extract_all x)
@[simp] theorem joined_2_3_low (x : BitVec 2) (y : BitVec 3) : (x ++ y : BitVec 5).extractLsb' 0 3 = y :=
  (extract_append_low x y 0 3 (by decide)).trans (extract_all y)
@[simp] theorem joined_4_1_high (x : BitVec 4) (y : BitVec 1) : (x ++ y : BitVec 5).extractLsb' 1 4 = x :=
  (extract_append_high x y 1 4 (by decide)).trans (extract_all x)
@[simp] theorem joined_4_1_low (x : BitVec 4) (y : BitVec 1) : (x ++ y : BitVec 5).extractLsb' 0 1 = y :=
  (extract_append_low x y 0 1 (by decide)).trans (extract_all y)
@[simp] theorem joined_3_2_high (x : BitVec 3) (y : BitVec 2) : (x ++ y : BitVec 5).extractLsb' 2 3 = x :=
  (extract_append_high x y 2 3 (by decide)).trans (extract_all x)
@[simp] theorem joined_3_2_low (x : BitVec 3) (y : BitVec 2) : (x ++ y : BitVec 5).extractLsb' 0 2 = y :=
  (extract_append_low x y 0 2 (by decide)).trans (extract_all y)
@[simp] theorem joined_1_4_high (x : BitVec 1) (y : BitVec 4) : (x ++ y : BitVec 5).extractLsb' 4 1 = x :=
  (extract_append_high x y 4 1 (by decide)).trans (extract_all x)
@[simp] theorem joined_1_4_low (x : BitVec 1) (y : BitVec 4) : (x ++ y : BitVec 5).extractLsb' 0 4 = y :=
  (extract_append_low x y 0 4 (by decide)).trans (extract_all y)
@[simp] theorem joined_1_2_high (x : BitVec 1) (y : BitVec 2) : (x ++ y : BitVec 3).extractLsb' 2 1 = x :=
  (extract_append_high x y 2 1 (by decide)).trans (extract_all x)
@[simp] theorem joined_1_2_low (x : BitVec 1) (y : BitVec 2) : (x ++ y : BitVec 3).extractLsb' 0 2 = y :=
  (extract_append_low x y 0 2 (by decide)).trans (extract_all y)

/-! ### Parcels as bytes -/

theorem parcels_bytes (l : List Half) (rest : List Byte) : parcelsOf (bytesOf l ++ rest) = l ++ parcelsOf rest := by
  induction l with
  | nil => rfl
  | cons p r ih =>
    have h : p.extractLsb' 8 8 ++ p.extractLsb' 0 8 = p := by
      apply BitVec.eq_of_getLsbD_eq
      intro i hi
      simp only [BitVec.getLsbD_append, BitVec.getLsbD_extractLsb']
      by_cases g : i < 8
      · simp [g]
      · have : i - 8 < 8 := by omega
        simp only [g, if_false, this, decide_true, Bool.true_and]
        congr 1
        omega
    simp only [bytesOf, List.cons_append, parcelsOf, h, ih]

theorem bytes_length (l : List Half) : (bytesOf l).length = 2 * l.length := by
  induction l with
  | nil => rfl
  | cons p r ih => simp only [bytesOf, List.length_cons, ih]; omega

end Sys2Proof
end

