-- ==== Sys2Proof/Laws/PerInstr.lean ====
section
/-! SUPPORT. Encoding, instruction by instruction: the parcels of a well-formed instruction, followed by any others, decode
to it (spec/03 R59 to R72). An event has no word, so its statement asks nothing. -/

set_option Elab.async false
set_option linter.unusedSimpArgs false

namespace Sys2Proof.Laws.Encoding

def Statement (i : Instr) : Prop :=
  i.wellFormed = true → i.hasWord = true →
    ∀ rest, decodeParcels (encode i ++ rest) = .ok (i, 2 * (encode i).length)

/-! ### How the three lengths are read -/

theorem of32 {i : Instr} {w : BitVec 32} (he : encode i = words32 w) (hk : fKind w = 6#3)
    (h : i.wellFormed = true → decode32 w = .ok i) : Statement i := by
  intro hw _ rest
  rw [he, decode_words32 w rest hk, h hw]
  rfl

theorem of64 {i : Instr} {x w : BitVec 32} (he : encode i = words64 x w) (hk : fKind x = 7#3)
    (h : i.wellFormed = true → decode64 x w = .ok i) : Statement i := by
  intro hw _ rest
  rw [he, decode_words64 x w rest hk, h hw]
  rfl

theorem of16 {i : Instr} {op : BitVec 5} {r : BitVec 11} (he : encode i = [cWord op r])
    (hk : op.extractLsb' 3 2 ≠ 3#2) (h : decode16 (cWord op r) = .ok i) : Statement i := by
  intro _ _ rest
  rw [he, decode_cWord op r rest hk, h]
  rfl

theorem ofEvent {i : Instr} (h : i.hasWord = false) : Statement i := by
  intro _ g
  rw [h] at g
  cases g

/-! ### Majors -/

theorem decSys (w : BitVec 32) (h : fMaj w = 0#6) : decode32 w = decSys w := by
  unfold decode32; rw [h]; rfl
theorem decSalu (w : BitVec 32) (h : fMaj w = 1#6) : decode32 w = decSalu w := by
  unfold decode32; rw [h]; rfl
theorem decSimm (w : BitVec 32) (h : fMaj w = 2#6) : decode32 w = decSimm w := by
  unfold decode32; rw [h]; rfl
theorem decSshi (w : BitVec 32) (h : fMaj w = 3#6) : decode32 w = decSshi w := by
  unfold decode32; rw [h]; rfl
theorem decSli (w : BitVec 32) (h : fMaj w = 4#6) : decode32 w = decSli w := by
  unfold decode32; rw [h]; rfl
theorem decSlda (w : BitVec 32) (h : fMaj w = 5#6) : decode32 w = decSlda w := by
  unfold decode32; rw [h]; rfl
theorem decSldb (w : BitVec 32) (h : fMaj w = 6#6) : decode32 w = decSldb w := by
  unfold decode32; rw [h]; rfl
theorem decSst (w : BitVec 32) (h : fMaj w = 7#6) : decode32 w = decSst w := by
  unfold decode32; rw [h]; rfl
theorem decBr (w : BitVec 32) (h : fMaj w = 8#6) : decode32 w = decBr w := by
  unfold decode32; rw [h]; rfl
theorem decJ (w : BitVec 32) (h : fMaj w = 9#6) : decode32 w = decJ w := by
  unfold decode32; rw [h]; rfl
theorem decJal (w : BitVec 32) (h : fMaj w = 10#6) : decode32 w = decJal w := by
  unfold decode32; rw [h]; rfl
theorem decJr (w : BitVec 32) (h : fMaj w = 11#6) : decode32 w = decJr w := by
  unfold decode32; rw [h]; rfl
theorem decHloop (w : BitVec 32) (h : fMaj w = 12#6) : decode32 w = decHloop w := by
  unfold decode32; rw [h]; rfl
theorem decCsr (w : BitVec 32) (h : fMaj w = 13#6) : decode32 w = decCsr w := by
  unfold decode32; rw [h]; rfl
theorem decMsc (w : BitVec 32) (h : fMaj w = 14#6) : decode32 w = decMsc w := by
  unfold decode32; rw [h]; rfl
theorem decVfa (w : BitVec 32) (h : fMaj w = 16#6) : decode32 w = decVfa w := by
  unfold decode32; rw [h]; rfl
theorem decVfb (w : BitVec 32) (h : fMaj w = 17#6) : decode32 w = decVfb w := by
  unfold decode32; rw [h]; rfl
theorem decVfc (w : BitVec 32) (h : fMaj w = 18#6) : decode32 w = decVfc w := by
  unfold decode32; rw [h]; rfl
theorem decVia (w : BitVec 32) (h : fMaj w = 19#6) : decode32 w = decVia w := by
  unfold decode32; rw [h]; rfl
theorem decVib (w : BitVec 32) (h : fMaj w = 20#6) : decode32 w = decVib w := by
  unfold decode32; rw [h]; rfl
theorem decVic (w : BitVec 32) (h : fMaj w = 21#6) : decode32 w = decVic w := by
  unfold decode32; rw [h]; rfl
theorem decVcv (w : BitVec 32) (h : fMaj w = 22#6) : decode32 w = decVcv w := by
  unfold decode32; rw [h]; rfl
theorem decVrd (w : BitVec 32) (h : fMaj w = 23#6) : decode32 w = decVrd w := by
  unfold decode32; rw [h]; rfl
theorem decVpm (w : BitVec 32) (h : fMaj w = 24#6) : decode32 w = decVpm w := by
  unfold decode32; rw [h]; rfl
theorem decVmk (w : BitVec 32) (h : fMaj w = 25#6) : decode32 w = decVmk w := by
  unfold decode32; rw [h]; rfl
theorem decVgr (w : BitVec 32) (h : fMaj w = 26#6) : decode32 w = decVgr w := by
  unfold decode32; rw [h]; rfl
theorem decVldu (w : BitVec 32) (h : fMaj w = 27#6) : decode32 w = decVldu w := by
  unfold decode32; rw [h]; rfl
theorem decVlds (w : BitVec 32) (h : fMaj w = 28#6) : decode32 w = decVlds w := by
  unfold decode32; rw [h]; rfl
theorem decVldx (w : BitVec 32) (h : fMaj w = 29#6) : decode32 w = decVldx w := by
  unfold decode32; rw [h]; rfl
theorem decVldm (w : BitVec 32) (h : fMaj w = 30#6) : decode32 w = decVldm w := by
  unfold decode32; rw [h]; rfl
theorem decVstu (w : BitVec 32) (h : fMaj w = 31#6) : decode32 w = decVstu w := by
  unfold decode32; rw [h]; rfl
theorem decVsts (w : BitVec 32) (h : fMaj w = 32#6) : decode32 w = decVsts w := by
  unfold decode32; rw [h]; rfl
theorem decVstx (w : BitVec 32) (h : fMaj w = 33#6) : decode32 w = decVstx w := by
  unfold decode32; rw [h]; rfl
theorem decVstm (w : BitVec 32) (h : fMaj w = 34#6) : decode32 w = decVstm w := by
  unfold decode32; rw [h]; rfl
theorem decVat (w : BitVec 32) (h : fMaj w = 35#6) : decode32 w = decVat w := by
  unfold decode32; rw [h]; rfl
theorem decSat (w : BitVec 32) (h : fMaj w = 36#6) : decode32 w = decSat w := by
  unfold decode32; rw [h]; rfl
theorem decVco (w : BitVec 32) (h : fMaj w = 37#6) : decode32 w = decVco w := by
  unfold decode32; rw [h]; rfl
theorem decTlb (w : BitVec 32) (h : fMaj w = 38#6) : decode32 w = decTlb w := by
  unfold decode32; rw [h]; rfl
theorem decMst (w : BitVec 32) (h : fMaj w = 39#6) : decode32 w = decMst w := by
  unfold decode32; rw [h]; rfl
theorem decMmv (w : BitVec 32) (h : fMaj w = 40#6) : decode32 w = decMmv w := by
  unfold decode32; rw [h]; rfl
theorem decMop (w : BitVec 32) (h : fMaj w = 41#6) : decode32 w = decMop w := by
  unfold decode32; rw [h]; rfl
theorem decEng (w : BitVec 32) (h : fMaj w = 42#6) : decode32 w = decEng w := by
  unfold decode32; rw [h]; rfl
theorem decUint (w : BitVec 32) (h : fMaj w = 43#6) : decode32 w = decUint w := by
  unfold decode32; rw [h]; rfl

/-! ### Instructions -/

theorem add (d a b : BitVec 5) : Statement (.add d a b) := by
  refine of32 rfl (fKind_srWord ..) fun hw => (decSalu _ (fMaj_srWord ..)).trans ?_
  simp_all [Sys2Proof.decSalu, Instr.wellFormed, scopeOk]
theorem sub (d a b : BitVec 5) : Statement (.sub d a b) := by
  refine of32 rfl (fKind_srWord ..) fun hw => (decSalu _ (fMaj_srWord ..)).trans ?_
  simp_all [Sys2Proof.decSalu, Instr.wellFormed, scopeOk]
theorem and (d a b : BitVec 5) : Statement (.and d a b) := by
  refine of32 rfl (fKind_srWord ..) fun hw => (decSalu _ (fMaj_srWord ..)).trans ?_
  simp_all [Sys2Proof.decSalu, Instr.wellFormed, scopeOk]
theorem or (d a b : BitVec 5) : Statement (.or d a b) := by
  refine of32 rfl (fKind_srWord ..) fun hw => (decSalu _ (fMaj_srWord ..)).trans ?_
  simp_all [Sys2Proof.decSalu, Instr.wellFormed, scopeOk]
theorem xor (d a b : BitVec 5) : Statement (.xor d a b) := by
  refine of32 rfl (fKind_srWord ..) fun hw => (decSalu _ (fMaj_srWord ..)).trans ?_
  simp_all [Sys2Proof.decSalu, Instr.wellFormed, scopeOk]
theorem sll (d a b : BitVec 5) : Statement (.sll d a b) := by
  refine of32 rfl (fKind_srWord ..) fun hw => (decSalu _ (fMaj_srWord ..)).trans ?_
  simp_all [Sys2Proof.decSalu, Instr.wellFormed, scopeOk]
theorem srl (d a b : BitVec 5) : Statement (.srl d a b) := by
  refine of32 rfl (fKind_srWord ..) fun hw => (decSalu _ (fMaj_srWord ..)).trans ?_
  simp_all [Sys2Proof.decSalu, Instr.wellFormed, scopeOk]
theorem sra (d a b : BitVec 5) : Statement (.sra d a b) := by
  refine of32 rfl (fKind_srWord ..) fun hw => (decSalu _ (fMaj_srWord ..)).trans ?_
  simp_all [Sys2Proof.decSalu, Instr.wellFormed, scopeOk]
theorem slt (d a b : BitVec 5) : Statement (.slt d a b) := by
  refine of32 rfl (fKind_srWord ..) fun hw => (decSalu _ (fMaj_srWord ..)).trans ?_
  simp_all [Sys2Proof.decSalu, Instr.wellFormed, scopeOk]
theorem sltu (d a b : BitVec 5) : Statement (.sltu d a b) := by
  refine of32 rfl (fKind_srWord ..) fun hw => (decSalu _ (fMaj_srWord ..)).trans ?_
  simp_all [Sys2Proof.decSalu, Instr.wellFormed, scopeOk]
theorem mul (d a b : BitVec 5) : Statement (.mul d a b) := by
  refine of32 rfl (fKind_srWord ..) fun hw => (decSalu _ (fMaj_srWord ..)).trans ?_
  simp_all [Sys2Proof.decSalu, Instr.wellFormed, scopeOk]
theorem mulh (d a b : BitVec 5) : Statement (.mulh d a b) := by
  refine of32 rfl (fKind_srWord ..) fun hw => (decSalu _ (fMaj_srWord ..)).trans ?_
  simp_all [Sys2Proof.decSalu, Instr.wellFormed, scopeOk]
theorem mulhu (d a b : BitVec 5) : Statement (.mulhu d a b) := by
  refine of32 rfl (fKind_srWord ..) fun hw => (decSalu _ (fMaj_srWord ..)).trans ?_
  simp_all [Sys2Proof.decSalu, Instr.wellFormed, scopeOk]
theorem div (d a b : BitVec 5) : Statement (.div d a b) := by
  refine of32 rfl (fKind_srWord ..) fun hw => (decSalu _ (fMaj_srWord ..)).trans ?_
  simp_all [Sys2Proof.decSalu, Instr.wellFormed, scopeOk]
theorem divu (d a b : BitVec 5) : Statement (.divu d a b) := by
  refine of32 rfl (fKind_srWord ..) fun hw => (decSalu _ (fMaj_srWord ..)).trans ?_
  simp_all [Sys2Proof.decSalu, Instr.wellFormed, scopeOk]
theorem rem (d a b : BitVec 5) : Statement (.rem d a b) := by
  refine of32 rfl (fKind_srWord ..) fun hw => (decSalu _ (fMaj_srWord ..)).trans ?_
  simp_all [Sys2Proof.decSalu, Instr.wellFormed, scopeOk]
theorem remu (d a b : BitVec 5) : Statement (.remu d a b) := by
  refine of32 rfl (fKind_srWord ..) fun hw => (decSalu _ (fMaj_srWord ..)).trans ?_
  simp_all [Sys2Proof.decSalu, Instr.wellFormed, scopeOk]
theorem min (d a b : BitVec 5) : Statement (.min d a b) := by
  refine of32 rfl (fKind_srWord ..) fun hw => (decSalu _ (fMaj_srWord ..)).trans ?_
  simp_all [Sys2Proof.decSalu, Instr.wellFormed, scopeOk]
theorem max (d a b : BitVec 5) : Statement (.max d a b) := by
  refine of32 rfl (fKind_srWord ..) fun hw => (decSalu _ (fMaj_srWord ..)).trans ?_
  simp_all [Sys2Proof.decSalu, Instr.wellFormed, scopeOk]
theorem minu (d a b : BitVec 5) : Statement (.minu d a b) := by
  refine of32 rfl (fKind_srWord ..) fun hw => (decSalu _ (fMaj_srWord ..)).trans ?_
  simp_all [Sys2Proof.decSalu, Instr.wellFormed, scopeOk]
theorem maxu (d a b : BitVec 5) : Statement (.maxu d a b) := by
  refine of32 rfl (fKind_srWord ..) fun hw => (decSalu _ (fMaj_srWord ..)).trans ?_
  simp_all [Sys2Proof.decSalu, Instr.wellFormed, scopeOk]
theorem clz (d a : BitVec 5) : Statement (.clz d a) := by
  refine of32 rfl (fKind_srWord ..) fun hw => (decSalu _ (fMaj_srWord ..)).trans ?_
  simp_all [Sys2Proof.decSalu, Instr.wellFormed, scopeOk]
theorem ctz (d a : BitVec 5) : Statement (.ctz d a) := by
  refine of32 rfl (fKind_srWord ..) fun hw => (decSalu _ (fMaj_srWord ..)).trans ?_
  simp_all [Sys2Proof.decSalu, Instr.wellFormed, scopeOk]
theorem popc (d a : BitVec 5) : Statement (.popc d a) := by
  refine of32 rfl (fKind_srWord ..) fun hw => (decSalu _ (fMaj_srWord ..)).trans ?_
  simp_all [Sys2Proof.decSalu, Instr.wellFormed, scopeOk]
theorem addi (d a : BitVec 5) (i : BitVec 11) : Statement (.addi d a i) := by
  refine of32 rfl (fKind_siWord ..) fun hw => (decSimm _ (fMaj_siWord ..)).trans ?_
  simp_all [Sys2Proof.decSimm, Instr.wellFormed, scopeOk]
theorem andi (d a : BitVec 5) (i : BitVec 11) : Statement (.andi d a i) := by
  refine of32 rfl (fKind_siWord ..) fun hw => (decSimm _ (fMaj_siWord ..)).trans ?_
  simp_all [Sys2Proof.decSimm, Instr.wellFormed, scopeOk]
theorem ori (d a : BitVec 5) (i : BitVec 11) : Statement (.ori d a i) := by
  refine of32 rfl (fKind_siWord ..) fun hw => (decSimm _ (fMaj_siWord ..)).trans ?_
  simp_all [Sys2Proof.decSimm, Instr.wellFormed, scopeOk]
theorem xori (d a : BitVec 5) (i : BitVec 11) : Statement (.xori d a i) := by
  refine of32 rfl (fKind_siWord ..) fun hw => (decSimm _ (fMaj_siWord ..)).trans ?_
  simp_all [Sys2Proof.decSimm, Instr.wellFormed, scopeOk]
theorem slli (d a : BitVec 5) (i : BitVec 6) : Statement (.slli d a i) := by
  refine of32 rfl (fKind_siWord ..) fun hw => (decSshi _ (fMaj_siWord ..)).trans ?_
  simp_all [Sys2Proof.decSshi, Instr.wellFormed, scopeOk]
theorem srli (d a : BitVec 5) (i : BitVec 6) : Statement (.srli d a i) := by
  refine of32 rfl (fKind_siWord ..) fun hw => (decSshi _ (fMaj_siWord ..)).trans ?_
  simp_all [Sys2Proof.decSshi, Instr.wellFormed, scopeOk]
theorem srai (d a : BitVec 5) (i : BitVec 6) : Statement (.srai d a i) := by
  refine of32 rfl (fKind_siWord ..) fun hw => (decSshi _ (fMaj_siWord ..)).trans ?_
  simp_all [Sys2Proof.decSshi, Instr.wellFormed, scopeOk]
theorem slti (d a : BitVec 5) (i : BitVec 11) : Statement (.slti d a i) := by
  refine of32 rfl (fKind_siWord ..) fun hw => (decSshi _ (fMaj_siWord ..)).trans ?_
  simp_all [Sys2Proof.decSshi, Instr.wellFormed, scopeOk]
theorem lil (d : BitVec 5) (i : BitVec 16) : Statement (.lil d i) := by
  refine of32 rfl (fKind_suWord ..) fun hw => (decSli _ (fMaj_suWord ..)).trans ?_
  simp_all [Sys2Proof.decSli, Instr.wellFormed, scopeOk]
theorem lih (d : BitVec 5) (i : BitVec 16) : Statement (.lih d i) := by
  refine of32 rfl (fKind_suWord ..) fun hw => (decSli _ (fMaj_suWord ..)).trans ?_
  simp_all [Sys2Proof.decSli, Instr.wellFormed, scopeOk]
theorem lix (d : BitVec 5) (i : BitVec 16) : Statement (.lix d i) := by
  refine of32 rfl (fKind_suWord ..) fun hw => (decSli _ (fMaj_suWord ..)).trans ?_
  simp_all [Sys2Proof.decSli, Instr.wellFormed, scopeOk]
theorem liy (d : BitVec 5) (i : BitVec 16) : Statement (.liy d i) := by
  refine of32 rfl (fKind_suWord ..) fun hw => (decSli _ (fMaj_suWord ..)).trans ?_
  simp_all [Sys2Proof.decSli, Instr.wellFormed, scopeOk]
theorem lb (d a : BitVec 5) (i : BitVec 11) : Statement (.lb d a i) := by
  refine of32 rfl (fKind_siWord ..) fun hw => (decSlda _ (fMaj_siWord ..)).trans ?_
  simp_all [Sys2Proof.decSlda, Instr.wellFormed, scopeOk]
theorem lh (d a : BitVec 5) (i : BitVec 11) : Statement (.lh d a i) := by
  refine of32 rfl (fKind_siWord ..) fun hw => (decSlda _ (fMaj_siWord ..)).trans ?_
  simp_all [Sys2Proof.decSlda, Instr.wellFormed, scopeOk]
theorem lw (d a : BitVec 5) (i : BitVec 11) : Statement (.lw d a i) := by
  refine of32 rfl (fKind_siWord ..) fun hw => (decSlda _ (fMaj_siWord ..)).trans ?_
  simp_all [Sys2Proof.decSlda, Instr.wellFormed, scopeOk]
theorem ld (d a : BitVec 5) (i : BitVec 11) : Statement (.ld d a i) := by
  refine of32 rfl (fKind_siWord ..) fun hw => (decSlda _ (fMaj_siWord ..)).trans ?_
  simp_all [Sys2Proof.decSlda, Instr.wellFormed, scopeOk]
theorem lbu (d a : BitVec 5) (i : BitVec 11) : Statement (.lbu d a i) := by
  refine of32 rfl (fKind_siWord ..) fun hw => (decSldb _ (fMaj_siWord ..)).trans ?_
  simp_all [Sys2Proof.decSldb, Instr.wellFormed, scopeOk]
theorem lhu (d a : BitVec 5) (i : BitVec 11) : Statement (.lhu d a i) := by
  refine of32 rfl (fKind_siWord ..) fun hw => (decSldb _ (fMaj_siWord ..)).trans ?_
  simp_all [Sys2Proof.decSldb, Instr.wellFormed, scopeOk]
theorem lwu (d a : BitVec 5) (i : BitVec 11) : Statement (.lwu d a i) := by
  refine of32 rfl (fKind_siWord ..) fun hw => (decSldb _ (fMaj_siWord ..)).trans ?_
  simp_all [Sys2Proof.decSldb, Instr.wellFormed, scopeOk]
theorem pref (a : BitVec 5) (i : BitVec 11) : Statement (.pref a i) := by
  refine of32 rfl (fKind_siWord ..) fun hw => (decSldb _ (fMaj_siWord ..)).trans ?_
  simp_all [Sys2Proof.decSldb, Instr.wellFormed, scopeOk]
theorem sb (d a : BitVec 5) (i : BitVec 11) : Statement (.sb d a i) := by
  refine of32 rfl (fKind_siWord ..) fun hw => (decSst _ (fMaj_siWord ..)).trans ?_
  simp_all [Sys2Proof.decSst, Instr.wellFormed, scopeOk]
theorem sh (d a : BitVec 5) (i : BitVec 11) : Statement (.sh d a i) := by
  refine of32 rfl (fKind_siWord ..) fun hw => (decSst _ (fMaj_siWord ..)).trans ?_
  simp_all [Sys2Proof.decSst, Instr.wellFormed, scopeOk]
theorem sw (d a : BitVec 5) (i : BitVec 11) : Statement (.sw d a i) := by
  refine of32 rfl (fKind_siWord ..) fun hw => (decSst _ (fMaj_siWord ..)).trans ?_
  simp_all [Sys2Proof.decSst, Instr.wellFormed, scopeOk]
theorem sd (d a : BitVec 5) (i : BitVec 11) : Statement (.sd d a i) := by
  refine of32 rfl (fKind_siWord ..) fun hw => (decSst _ (fMaj_siWord ..)).trans ?_
  simp_all [Sys2Proof.decSst, Instr.wellFormed, scopeOk]
theorem beqz (a : BitVec 5) (o : BitVec 15) : Statement (.beqz a o) := by
  refine of32 rfl (fKind_brWord ..) fun hw => (decBr _ (fMaj_brWord ..)).trans ?_
  simp_all [Sys2Proof.decBr, Instr.wellFormed, scopeOk]
theorem bnez (a : BitVec 5) (o : BitVec 15) : Statement (.bnez a o) := by
  refine of32 rfl (fKind_brWord ..) fun hw => (decBr _ (fMaj_brWord ..)).trans ?_
  simp_all [Sys2Proof.decBr, Instr.wellFormed, scopeOk]
theorem bltz (a : BitVec 5) (o : BitVec 15) : Statement (.bltz a o) := by
  refine of32 rfl (fKind_brWord ..) fun hw => (decBr _ (fMaj_brWord ..)).trans ?_
  simp_all [Sys2Proof.decBr, Instr.wellFormed, scopeOk]
theorem bgez (a : BitVec 5) (o : BitVec 15) : Statement (.bgez a o) := by
  refine of32 rfl (fKind_brWord ..) fun hw => (decBr _ (fMaj_brWord ..)).trans ?_
  simp_all [Sys2Proof.decBr, Instr.wellFormed, scopeOk]
theorem bgtz (a : BitVec 5) (o : BitVec 15) : Statement (.bgtz a o) := by
  refine of32 rfl (fKind_brWord ..) fun hw => (decBr _ (fMaj_brWord ..)).trans ?_
  simp_all [Sys2Proof.decBr, Instr.wellFormed, scopeOk]
theorem blez (a : BitVec 5) (o : BitVec 15) : Statement (.blez a o) := by
  refine of32 rfl (fKind_brWord ..) fun hw => (decBr _ (fMaj_brWord ..)).trans ?_
  simp_all [Sys2Proof.decBr, Instr.wellFormed, scopeOk]
theorem bbs (a : BitVec 5) (o : BitVec 15) : Statement (.bbs a o) := by
  refine of32 rfl (fKind_brWord ..) fun hw => (decBr _ (fMaj_brWord ..)).trans ?_
  simp_all [Sys2Proof.decBr, Instr.wellFormed, scopeOk]
theorem bbc (a : BitVec 5) (o : BitVec 15) : Statement (.bbc a o) := by
  refine of32 rfl (fKind_brWord ..) fun hw => (decBr _ (fMaj_brWord ..)).trans ?_
  simp_all [Sys2Proof.decBr, Instr.wellFormed, scopeOk]
theorem j (o : BitVec 23) : Statement (.j o) := by
  refine of32 rfl (fKind_jWord ..) fun hw => (decJ _ (fMaj_jWord ..)).trans ?_
  simp_all [Sys2Proof.decJ, Instr.wellFormed, scopeOk]
theorem jal (o : BitVec 23) : Statement (.jal o) := by
  refine of32 rfl (fKind_jWord ..) fun hw => (decJal _ (fMaj_jWord ..)).trans ?_
  simp_all [Sys2Proof.decJal, Instr.wellFormed, scopeOk]
theorem jalr (d a : BitVec 5) (i : BitVec 11) : Statement (.jalr d a i) := by
  refine of32 rfl (fKind_siWord ..) fun hw => (decJr _ (fMaj_siWord ..)).trans ?_
  simp_all [Sys2Proof.decJr, Instr.wellFormed, scopeOk]
theorem jr (a : BitVec 5) (i : BitVec 11) : Statement (.jr a i) := by
  refine of32 rfl (fKind_siWord ..) fun hw => (decJr _ (fMaj_siWord ..)).trans ?_
  simp_all [Sys2Proof.decJr, Instr.wellFormed, scopeOk]
theorem loop (a : BitVec 5) (i : BitVec 11) : Statement (.loop a i) := by
  refine of32 rfl (fKind_siWord ..) fun hw => (decHloop _ (fMaj_siWord ..)).trans ?_
  simp_all [Sys2Proof.decHloop, Instr.wellFormed, scopeOk]
theorem csrr (d : BitVec 5) (i : BitVec 11) : Statement (.csrr d i) := by
  refine of32 rfl (fKind_siWord ..) fun hw => (decCsr _ (fMaj_siWord ..)).trans ?_
  simp_all [Sys2Proof.decCsr, Instr.wellFormed, scopeOk]
theorem csrw (d a : BitVec 5) (i : BitVec 11) : Statement (.csrw d a i) := by
  refine of32 rfl (fKind_siWord ..) fun hw => (decCsr _ (fMaj_siWord ..)).trans ?_
  simp_all [Sys2Proof.decCsr, Instr.wellFormed, scopeOk]
theorem csrs (d a : BitVec 5) (i : BitVec 11) : Statement (.csrs d a i) := by
  refine of32 rfl (fKind_siWord ..) fun hw => (decCsr _ (fMaj_siWord ..)).trans ?_
  simp_all [Sys2Proof.decCsr, Instr.wellFormed, scopeOk]
theorem csrc (d a : BitVec 5) (i : BitVec 11) : Statement (.csrc d a i) := by
  refine of32 rfl (fKind_siWord ..) fun hw => (decCsr _ (fMaj_siWord ..)).trans ?_
  simp_all [Sys2Proof.decCsr, Instr.wellFormed, scopeOk]
theorem mpopc (d a : BitVec 5) : Statement (.mpopc d a) := by
  refine of32 rfl (fKind_srWord ..) fun hw => (decMsc _ (fMaj_srWord ..)).trans ?_
  simp_all [Sys2Proof.decMsc, Instr.wellFormed, scopeOk]
theorem mfirst (d a : BitVec 5) : Statement (.mfirst d a) := by
  refine of32 rfl (fKind_srWord ..) fun hw => (decMsc _ (fMaj_srWord ..)).trans ?_
  simp_all [Sys2Proof.decMsc, Instr.wellFormed, scopeOk]
theorem many (d a : BitVec 5) : Statement (.many d a) := by
  refine of32 rfl (fKind_srWord ..) fun hw => (decMsc _ (fMaj_srWord ..)).trans ?_
  simp_all [Sys2Proof.decMsc, Instr.wellFormed, scopeOk]
theorem mall (d a : BitVec 5) : Statement (.mall d a) := by
  refine of32 rfl (fKind_srWord ..) fun hw => (decMsc _ (fMaj_srWord ..)).trans ?_
  simp_all [Sys2Proof.decMsc, Instr.wellFormed, scopeOk]
theorem mtos (d a b : BitVec 5) : Statement (.mtos d a b) := by
  refine of32 rfl (fKind_srWord ..) fun hw => (decMsc _ (fMaj_srWord ..)).trans ?_
  simp_all [Sys2Proof.decMsc, Instr.wellFormed, scopeOk]
theorem vaddF (d a : BitVec 5) (b : BOp) (m : BitVec 3) : Statement (.vaddF d a b m) := by
  refine of32 rfl (fKind_vWord ..) fun hw => (decVfa _ (fMaj_vWord ..)).trans ?_
  cases b <;> first
    | simp [Sys2Proof.decVfa, bopAll, bopSI, BOp.form, BOp.field]; done
    | exact nomatch hw
theorem vsubF (d a : BitVec 5) (b : BOp) (m : BitVec 3) : Statement (.vsubF d a b m) := by
  refine of32 rfl (fKind_vWord ..) fun hw => (decVfa _ (fMaj_vWord ..)).trans ?_
  cases b <;> first
    | simp [Sys2Proof.decVfa, bopAll, bopSI, BOp.form, BOp.field]; done
    | exact nomatch hw
theorem vmulF (d a : BitVec 5) (b : BOp) (m : BitVec 3) : Statement (.vmulF d a b m) := by
  refine of32 rfl (fKind_vWord ..) fun hw => (decVfa _ (fMaj_vWord ..)).trans ?_
  cases b <;> first
    | simp [Sys2Proof.decVfa, bopAll, bopSI, BOp.form, BOp.field]; done
    | exact nomatch hw
theorem vdivF (d a : BitVec 5) (b : BOp) (m : BitVec 3) : Statement (.vdivF d a b m) := by
  refine of32 rfl (fKind_vWord ..) fun hw => (decVfa _ (fMaj_vWord ..)).trans ?_
  cases b <;> first
    | simp [Sys2Proof.decVfa, bopAll, bopSI, BOp.form, BOp.field]; done
    | exact nomatch hw
theorem vminF (d a : BitVec 5) (b : BOp) (m : BitVec 3) : Statement (.vminF d a b m) := by
  refine of32 rfl (fKind_vWord ..) fun hw => (decVfa _ (fMaj_vWord ..)).trans ?_
  cases b <;> first
    | simp [Sys2Proof.decVfa, bopAll, bopSI, BOp.form, BOp.field]; done
    | exact nomatch hw
theorem vmaxF (d a : BitVec 5) (b : BOp) (m : BitVec 3) : Statement (.vmaxF d a b m) := by
  refine of32 rfl (fKind_vWord ..) fun hw => (decVfa _ (fMaj_vWord ..)).trans ?_
  cases b <;> first
    | simp [Sys2Proof.decVfa, bopAll, bopSI, BOp.form, BOp.field]; done
    | exact nomatch hw
theorem vsgnjF (d a : BitVec 5) (b : BOp) (m : BitVec 3) : Statement (.vsgnjF d a b m) := by
  refine of32 rfl (fKind_vWord ..) fun hw => (decVfa _ (fMaj_vWord ..)).trans ?_
  cases b <;> first
    | simp [Sys2Proof.decVfa, bopAll, bopSI, BOp.form, BOp.field]; done
    | exact nomatch hw
theorem vabsF (d a : BitVec 5) (m : BitVec 3) : Statement (.vabsF d a m) := by
  refine of32 rfl (fKind_vWord ..) fun hw => (decVfa _ (fMaj_vWord ..)).trans ?_
  simp_all [Sys2Proof.decVfa, Instr.wellFormed, scopeOk]
theorem vfma (d a : BitVec 5) (b : BOp) (m : BitVec 3) : Statement (.vfma d a b m) := by
  refine of32 rfl (fKind_vWord ..) fun hw => (decVfb _ (fMaj_vWord ..)).trans ?_
  cases b <;> first
    | simp [Sys2Proof.decVfb, bopAll, bopSI, BOp.form, BOp.field]; done
    | exact nomatch hw
theorem vfms (d a : BitVec 5) (b : BOp) (m : BitVec 3) : Statement (.vfms d a b m) := by
  refine of32 rfl (fKind_vWord ..) fun hw => (decVfb _ (fMaj_vWord ..)).trans ?_
  cases b <;> first
    | simp [Sys2Proof.decVfb, bopAll, bopSI, BOp.form, BOp.field]; done
    | exact nomatch hw
theorem vfnma (d a : BitVec 5) (b : BOp) (m : BitVec 3) : Statement (.vfnma d a b m) := by
  refine of32 rfl (fKind_vWord ..) fun hw => (decVfb _ (fMaj_vWord ..)).trans ?_
  cases b <;> first
    | simp [Sys2Proof.decVfb, bopAll, bopSI, BOp.form, BOp.field]; done
    | exact nomatch hw
theorem vfnms (d a : BitVec 5) (b : BOp) (m : BitVec 3) : Statement (.vfnms d a b m) := by
  refine of32 rfl (fKind_vWord ..) fun hw => (decVfb _ (fMaj_vWord ..)).trans ?_
  cases b <;> first
    | simp [Sys2Proof.decVfb, bopAll, bopSI, BOp.form, BOp.field]; done
    | exact nomatch hw
theorem vsqrt (d a : BitVec 5) (m : BitVec 3) : Statement (.vsqrt d a m) := by
  refine of32 rfl (fKind_vWord ..) fun hw => (decVfb _ (fMaj_vWord ..)).trans ?_
  simp_all [Sys2Proof.decVfb, Instr.wellFormed, scopeOk]
theorem vrsq (d a : BitVec 5) (m : BitVec 3) : Statement (.vrsq d a m) := by
  refine of32 rfl (fKind_vWord ..) fun hw => (decVfb _ (fMaj_vWord ..)).trans ?_
  simp_all [Sys2Proof.decVfb, Instr.wellFormed, scopeOk]
theorem vrcp (d a : BitVec 5) (m : BitVec 3) : Statement (.vrcp d a m) := by
  refine of32 rfl (fKind_vWord ..) fun hw => (decVfb _ (fMaj_vWord ..)).trans ?_
  simp_all [Sys2Proof.decVfb, Instr.wellFormed, scopeOk]
theorem vnegF (d a : BitVec 5) (m : BitVec 3) : Statement (.vnegF d a m) := by
  refine of32 rfl (fKind_vWord ..) fun hw => (decVfb _ (fMaj_vWord ..)).trans ?_
  simp_all [Sys2Proof.decVfb, Instr.wellFormed, scopeOk]
theorem vfeq (d a : BitVec 5) (b : BOp) (m : BitVec 3) : Statement (.vfeq d a b m) := by
  refine of32 rfl (fKind_vWord ..) fun hw => (decVfc _ (fMaj_vWord ..)).trans ?_
  cases b <;> first
    | simp [Sys2Proof.decVfc, bopAll, bopSI, BOp.form, BOp.field]; done
    | exact nomatch hw
theorem vfne (d a : BitVec 5) (b : BOp) (m : BitVec 3) : Statement (.vfne d a b m) := by
  refine of32 rfl (fKind_vWord ..) fun hw => (decVfc _ (fMaj_vWord ..)).trans ?_
  cases b <;> first
    | simp [Sys2Proof.decVfc, bopAll, bopSI, BOp.form, BOp.field]; done
    | exact nomatch hw
theorem vflt (d a : BitVec 5) (b : BOp) (m : BitVec 3) : Statement (.vflt d a b m) := by
  refine of32 rfl (fKind_vWord ..) fun hw => (decVfc _ (fMaj_vWord ..)).trans ?_
  cases b <;> first
    | simp [Sys2Proof.decVfc, bopAll, bopSI, BOp.form, BOp.field]; done
    | exact nomatch hw
theorem vfle (d a : BitVec 5) (b : BOp) (m : BitVec 3) : Statement (.vfle d a b m) := by
  refine of32 rfl (fKind_vWord ..) fun hw => (decVfc _ (fMaj_vWord ..)).trans ?_
  cases b <;> first
    | simp [Sys2Proof.decVfc, bopAll, bopSI, BOp.form, BOp.field]; done
    | exact nomatch hw
theorem vfgt (d a : BitVec 5) (b : BOp) (m : BitVec 3) : Statement (.vfgt d a b m) := by
  refine of32 rfl (fKind_vWord ..) fun hw => (decVfc _ (fMaj_vWord ..)).trans ?_
  cases b <;> first
    | simp [Sys2Proof.decVfc, bopAll, bopSI, BOp.form, BOp.field]; done
    | exact nomatch hw
theorem vfge (d a : BitVec 5) (b : BOp) (m : BitVec 3) : Statement (.vfge d a b m) := by
  refine of32 rfl (fKind_vWord ..) fun hw => (decVfc _ (fMaj_vWord ..)).trans ?_
  cases b <;> first
    | simp [Sys2Proof.decVfc, bopAll, bopSI, BOp.form, BOp.field]; done
    | exact nomatch hw
theorem vfuo (d a : BitVec 5) (b : BOp) (m : BitVec 3) : Statement (.vfuo d a b m) := by
  refine of32 rfl (fKind_vWord ..) fun hw => (decVfc _ (fMaj_vWord ..)).trans ?_
  cases b <;> first
    | simp [Sys2Proof.decVfc, bopAll, bopSI, BOp.form, BOp.field]; done
    | exact nomatch hw
theorem vfcls (d a : BitVec 5) (m : BitVec 3) : Statement (.vfcls d a m) := by
  refine of32 rfl (fKind_vWord ..) fun hw => (decVfc _ (fMaj_vWord ..)).trans ?_
  simp_all [Sys2Proof.decVfc, Instr.wellFormed, scopeOk]
theorem vadd (d a : BitVec 5) (b : BOp) (m : BitVec 3) : Statement (.vadd d a b m) := by
  refine of32 rfl (fKind_vWord ..) fun hw => (decVia _ (fMaj_vWord ..)).trans ?_
  cases b <;> first
    | simp [Sys2Proof.decVia, bopAll, bopSI, BOp.form, BOp.field]; done
    | exact nomatch hw
theorem vsub (d a : BitVec 5) (b : BOp) (m : BitVec 3) : Statement (.vsub d a b m) := by
  refine of32 rfl (fKind_vWord ..) fun hw => (decVia _ (fMaj_vWord ..)).trans ?_
  cases b <;> first
    | simp [Sys2Proof.decVia, bopAll, bopSI, BOp.form, BOp.field]; done
    | exact nomatch hw
theorem vmul (d a : BitVec 5) (b : BOp) (m : BitVec 3) : Statement (.vmul d a b m) := by
  refine of32 rfl (fKind_vWord ..) fun hw => (decVia _ (fMaj_vWord ..)).trans ?_
  cases b <;> first
    | simp [Sys2Proof.decVia, bopAll, bopSI, BOp.form, BOp.field]; done
    | exact nomatch hw
theorem vmulh (d a : BitVec 5) (b : BOp) (m : BitVec 3) : Statement (.vmulh d a b m) := by
  refine of32 rfl (fKind_vWord ..) fun hw => (decVia _ (fMaj_vWord ..)).trans ?_
  cases b <;> first
    | simp [Sys2Proof.decVia, bopAll, bopSI, BOp.form, BOp.field]; done
    | exact nomatch hw
theorem vmin (d a : BitVec 5) (b : BOp) (m : BitVec 3) : Statement (.vmin d a b m) := by
  refine of32 rfl (fKind_vWord ..) fun hw => (decVia _ (fMaj_vWord ..)).trans ?_
  cases b <;> first
    | simp [Sys2Proof.decVia, bopAll, bopSI, BOp.form, BOp.field]; done
    | exact nomatch hw
theorem vmax (d a : BitVec 5) (b : BOp) (m : BitVec 3) : Statement (.vmax d a b m) := by
  refine of32 rfl (fKind_vWord ..) fun hw => (decVia _ (fMaj_vWord ..)).trans ?_
  cases b <;> first
    | simp [Sys2Proof.decVia, bopAll, bopSI, BOp.form, BOp.field]; done
    | exact nomatch hw
theorem vminu (d a : BitVec 5) (b : BOp) (m : BitVec 3) : Statement (.vminu d a b m) := by
  refine of32 rfl (fKind_vWord ..) fun hw => (decVia _ (fMaj_vWord ..)).trans ?_
  cases b <;> first
    | simp [Sys2Proof.decVia, bopAll, bopSI, BOp.form, BOp.field]; done
    | exact nomatch hw
theorem vmaxu (d a : BitVec 5) (b : BOp) (m : BitVec 3) : Statement (.vmaxu d a b m) := by
  refine of32 rfl (fKind_vWord ..) fun hw => (decVia _ (fMaj_vWord ..)).trans ?_
  cases b <;> first
    | simp [Sys2Proof.decVia, bopAll, bopSI, BOp.form, BOp.field]; done
    | exact nomatch hw
theorem vand (d a : BitVec 5) (b : BOp) (m : BitVec 3) : Statement (.vand d a b m) := by
  refine of32 rfl (fKind_vWord ..) fun hw => (decVib _ (fMaj_vWord ..)).trans ?_
  cases b <;> first
    | simp [Sys2Proof.decVib, bopAll, bopSI, BOp.form, BOp.field]; done
    | exact nomatch hw
theorem vor (d a : BitVec 5) (b : BOp) (m : BitVec 3) : Statement (.vor d a b m) := by
  refine of32 rfl (fKind_vWord ..) fun hw => (decVib _ (fMaj_vWord ..)).trans ?_
  cases b <;> first
    | simp [Sys2Proof.decVib, bopAll, bopSI, BOp.form, BOp.field]; done
    | exact nomatch hw
theorem vxor (d a : BitVec 5) (b : BOp) (m : BitVec 3) : Statement (.vxor d a b m) := by
  refine of32 rfl (fKind_vWord ..) fun hw => (decVib _ (fMaj_vWord ..)).trans ?_
  cases b <;> first
    | simp [Sys2Proof.decVib, bopAll, bopSI, BOp.form, BOp.field]; done
    | exact nomatch hw
theorem vsll (d a : BitVec 5) (b : BOp) (m : BitVec 3) : Statement (.vsll d a b m) := by
  refine of32 rfl (fKind_vWord ..) fun hw => (decVib _ (fMaj_vWord ..)).trans ?_
  cases b <;> first
    | simp [Sys2Proof.decVib, bopAll, bopSI, BOp.form, BOp.field]; done
    | exact nomatch hw
theorem vsrl (d a : BitVec 5) (b : BOp) (m : BitVec 3) : Statement (.vsrl d a b m) := by
  refine of32 rfl (fKind_vWord ..) fun hw => (decVib _ (fMaj_vWord ..)).trans ?_
  cases b <;> first
    | simp [Sys2Proof.decVib, bopAll, bopSI, BOp.form, BOp.field]; done
    | exact nomatch hw
theorem vsra (d a : BitVec 5) (b : BOp) (m : BitVec 3) : Statement (.vsra d a b m) := by
  refine of32 rfl (fKind_vWord ..) fun hw => (decVib _ (fMaj_vWord ..)).trans ?_
  cases b <;> first
    | simp [Sys2Proof.decVib, bopAll, bopSI, BOp.form, BOp.field]; done
    | exact nomatch hw
theorem vsadd (d a : BitVec 5) (b : BOp) (m : BitVec 3) : Statement (.vsadd d a b m) := by
  refine of32 rfl (fKind_vWord ..) fun hw => (decVib _ (fMaj_vWord ..)).trans ?_
  cases b <;> first
    | simp [Sys2Proof.decVib, bopAll, bopSI, BOp.form, BOp.field]; done
    | exact nomatch hw
theorem vssub (d a : BitVec 5) (b : BOp) (m : BitVec 3) : Statement (.vssub d a b m) := by
  refine of32 rfl (fKind_vWord ..) fun hw => (decVib _ (fMaj_vWord ..)).trans ?_
  cases b <;> first
    | simp [Sys2Proof.decVib, bopAll, bopSI, BOp.form, BOp.field]; done
    | exact nomatch hw
theorem veq (d a : BitVec 5) (b : BOp) (m : BitVec 3) : Statement (.veq d a b m) := by
  refine of32 rfl (fKind_vWord ..) fun hw => (decVic _ (fMaj_vWord ..)).trans ?_
  cases b <;> first
    | simp [Sys2Proof.decVic, bopAll, bopSI, BOp.form, BOp.field]; done
    | exact nomatch hw
theorem vne (d a : BitVec 5) (b : BOp) (m : BitVec 3) : Statement (.vne d a b m) := by
  refine of32 rfl (fKind_vWord ..) fun hw => (decVic _ (fMaj_vWord ..)).trans ?_
  cases b <;> first
    | simp [Sys2Proof.decVic, bopAll, bopSI, BOp.form, BOp.field]; done
    | exact nomatch hw
theorem vlt (d a : BitVec 5) (b : BOp) (m : BitVec 3) : Statement (.vlt d a b m) := by
  refine of32 rfl (fKind_vWord ..) fun hw => (decVic _ (fMaj_vWord ..)).trans ?_
  cases b <;> first
    | simp [Sys2Proof.decVic, bopAll, bopSI, BOp.form, BOp.field]; done
    | exact nomatch hw
theorem vltu (d a : BitVec 5) (b : BOp) (m : BitVec 3) : Statement (.vltu d a b m) := by
  refine of32 rfl (fKind_vWord ..) fun hw => (decVic _ (fMaj_vWord ..)).trans ?_
  cases b <;> first
    | simp [Sys2Proof.decVic, bopAll, bopSI, BOp.form, BOp.field]; done
    | exact nomatch hw
theorem vle (d a : BitVec 5) (b : BOp) (m : BitVec 3) : Statement (.vle d a b m) := by
  refine of32 rfl (fKind_vWord ..) fun hw => (decVic _ (fMaj_vWord ..)).trans ?_
  cases b <;> first
    | simp [Sys2Proof.decVic, bopAll, bopSI, BOp.form, BOp.field]; done
    | exact nomatch hw
theorem vleu (d a : BitVec 5) (b : BOp) (m : BitVec 3) : Statement (.vleu d a b m) := by
  refine of32 rfl (fKind_vWord ..) fun hw => (decVic _ (fMaj_vWord ..)).trans ?_
  cases b <;> first
    | simp [Sys2Proof.decVic, bopAll, bopSI, BOp.form, BOp.field]; done
    | exact nomatch hw
theorem vgt (d a : BitVec 5) (b : BOp) (m : BitVec 3) : Statement (.vgt d a b m) := by
  refine of32 rfl (fKind_vWord ..) fun hw => (decVic _ (fMaj_vWord ..)).trans ?_
  cases b <;> first
    | simp [Sys2Proof.decVic, bopAll, bopSI, BOp.form, BOp.field]; done
    | exact nomatch hw
theorem vgtu (d a : BitVec 5) (b : BOp) (m : BitVec 3) : Statement (.vgtu d a b m) := by
  refine of32 rfl (fKind_vWord ..) fun hw => (decVic _ (fMaj_vWord ..)).trans ?_
  cases b <;> first
    | simp [Sys2Proof.decVic, bopAll, bopSI, BOp.form, BOp.field]; done
    | exact nomatch hw
theorem vcvfI (d a : BitVec 5) (m : BitVec 3) : Statement (.vcvfI d a m) := by
  refine of32 rfl (fKind_vWord ..) fun hw => (decVcv _ (fMaj_vWord ..)).trans ?_
  simp_all [Sys2Proof.decVcv, Instr.wellFormed, scopeOk]
theorem vcviF (d a : BitVec 5) (m : BitVec 3) : Statement (.vcviF d a m) := by
  refine of32 rfl (fKind_vWord ..) fun hw => (decVcv _ (fMaj_vWord ..)).trans ?_
  simp_all [Sys2Proof.decVcv, Instr.wellFormed, scopeOk]
theorem vcviFz (d a : BitVec 5) (m : BitVec 3) : Statement (.vcviFz d a m) := by
  refine of32 rfl (fKind_vWord ..) fun hw => (decVcv _ (fMaj_vWord ..)).trans ?_
  simp_all [Sys2Proof.decVcv, Instr.wellFormed, scopeOk]
theorem vrndb (d a : BitVec 5) (m : BitVec 3) : Statement (.vrndb d a m) := by
  refine of32 rfl (fKind_vWord ..) fun hw => (decVcv _ (fMaj_vWord ..)).trans ?_
  simp_all [Sys2Proof.decVcv, Instr.wellFormed, scopeOk]
theorem vflr (d a : BitVec 5) (m : BitVec 3) : Statement (.vflr d a m) := by
  refine of32 rfl (fKind_vWord ..) fun hw => (decVcv _ (fMaj_vWord ..)).trans ?_
  simp_all [Sys2Proof.decVcv, Instr.wellFormed, scopeOk]
theorem vfrac (d a : BitVec 5) (m : BitVec 3) : Statement (.vfrac d a m) := by
  refine of32 rfl (fKind_vWord ..) fun hw => (decVcv _ (fMaj_vWord ..)).trans ?_
  simp_all [Sys2Proof.decVcv, Instr.wellFormed, scopeOk]
theorem vexpn (d a : BitVec 5) (m : BitVec 3) : Statement (.vexpn d a m) := by
  refine of32 rfl (fKind_vWord ..) fun hw => (decVcv _ (fMaj_vWord ..)).trans ?_
  simp_all [Sys2Proof.decVcv, Instr.wellFormed, scopeOk]
theorem vldexp (d a : BitVec 5) (b : BOp) (m : BitVec 3) : Statement (.vldexp d a b m) := by
  refine of32 rfl (fKind_vWord ..) fun hw => (decVcv _ (fMaj_vWord ..)).trans ?_
  cases b <;> first
    | simp [Sys2Proof.decVcv, bopAll, bopSI, BOp.form, BOp.field]; done
    | exact nomatch hw
theorem vsumO (d a : BitVec 5) (m : BitVec 3) : Statement (.vsumO d a m) := by
  refine of32 rfl (fKind_vWord ..) fun hw => (decVrd _ (fMaj_vWord ..)).trans ?_
  simp_all [Sys2Proof.decVrd, Instr.wellFormed, scopeOk]
theorem vsumU (d a : BitVec 5) (m : BitVec 3) : Statement (.vsumU d a m) := by
  refine of32 rfl (fKind_vWord ..) fun hw => (decVrd _ (fMaj_vWord ..)).trans ?_
  simp_all [Sys2Proof.decVrd, Instr.wellFormed, scopeOk]
theorem vdotO (d a b : BitVec 5) (m : BitVec 3) : Statement (.vdotO d a b m) := by
  refine of32 rfl (fKind_vWord ..) fun hw => (decVrd _ (fMaj_vWord ..)).trans ?_
  simp_all [Sys2Proof.decVrd, Instr.wellFormed, scopeOk]
theorem vmaxr (d a : BitVec 5) (m : BitVec 3) : Statement (.vmaxr d a m) := by
  refine of32 rfl (fKind_vWord ..) fun hw => (decVrd _ (fMaj_vWord ..)).trans ?_
  simp_all [Sys2Proof.decVrd, Instr.wellFormed, scopeOk]
theorem vminr (d a : BitVec 5) (m : BitVec 3) : Statement (.vminr d a m) := by
  refine of32 rfl (fKind_vWord ..) fun hw => (decVrd _ (fMaj_vWord ..)).trans ?_
  simp_all [Sys2Proof.decVrd, Instr.wellFormed, scopeOk]
theorem visum (d a : BitVec 5) (m : BitVec 3) : Statement (.visum d a m) := by
  refine of32 rfl (fKind_vWord ..) fun hw => (decVrd _ (fMaj_vWord ..)).trans ?_
  simp_all [Sys2Proof.decVrd, Instr.wellFormed, scopeOk]
theorem vscanO (d a b : BitVec 5) (m : BitVec 3) : Statement (.vscanO d a b m) := by
  refine of32 rfl (fKind_vWord ..) fun hw => (decVrd _ (fMaj_vWord ..)).trans ?_
  simp_all [Sys2Proof.decVrd, Instr.wellFormed, scopeOk]
theorem vscanU (d a b : BitVec 5) (m : BitVec 3) : Statement (.vscanU d a b m) := by
  refine of32 rfl (fKind_vWord ..) fun hw => (decVrd _ (fMaj_vWord ..)).trans ?_
  simp_all [Sys2Proof.decVrd, Instr.wellFormed, scopeOk]
theorem vslup (d a : BitVec 5) (b : BOp) (m : BitVec 3) : Statement (.vslup d a b m) := by
  refine of32 rfl (fKind_vWord ..) fun hw => (decVpm _ (fMaj_vWord ..)).trans ?_
  cases b <;> first
    | simp [Sys2Proof.decVpm, bopAll, bopSI, BOp.form, BOp.field]; done
    | exact nomatch hw
theorem vsldn (d a : BitVec 5) (b : BOp) (m : BitVec 3) : Statement (.vsldn d a b m) := by
  refine of32 rfl (fKind_vWord ..) fun hw => (decVpm _ (fMaj_vWord ..)).trans ?_
  cases b <;> first
    | simp [Sys2Proof.decVpm, bopAll, bopSI, BOp.form, BOp.field]; done
    | exact nomatch hw
theorem vperm (d a b : BitVec 5) (m : BitVec 3) : Statement (.vperm d a b m) := by
  refine of32 rfl (fKind_vWord ..) fun hw => (decVpm _ (fMaj_vWord ..)).trans ?_
  simp_all [Sys2Proof.decVpm, Instr.wellFormed, scopeOk]
theorem vcomp (d a b : BitVec 5) : Statement (.vcomp d a b) := by
  refine of32 rfl (fKind_vWord ..) fun hw => (decVpm _ (fMaj_vWord ..)).trans ?_
  simp_all [Sys2Proof.decVpm, Instr.wellFormed, scopeOk]
theorem viota (d a : BitVec 5) (m : BitVec 3) : Statement (.viota d a m) := by
  refine of32 rfl (fKind_vWord ..) fun hw => (decVpm _ (fMaj_vWord ..)).trans ?_
  simp_all [Sys2Proof.decVpm, Instr.wellFormed, scopeOk]
theorem vmerge (d a : BitVec 5) (b : BOp) (m : BitVec 3) : Statement (.vmerge d a b m) := by
  refine of32 rfl (fKind_vWord ..) fun hw => (decVpm _ (fMaj_vWord ..)).trans ?_
  cases b <;> first
    | simp [Sys2Proof.decVpm, bopAll, bopSI, BOp.form, BOp.field]; done
    | exact nomatch hw
theorem vmvVv (d a : BitVec 5) (m : BitVec 3) : Statement (.vmvVv d a m) := by
  refine of32 rfl (fKind_vWord ..) fun hw => (decVpm _ (fMaj_vWord ..)).trans ?_
  simp_all [Sys2Proof.decVpm, Instr.wellFormed, scopeOk]
theorem vmvVsVi (d : BitVec 5) (b : BOp) (m : BitVec 3) : Statement (.vmvVsVi d b m) := by
  refine of32 rfl (fKind_vWord ..) fun hw => (decVpm _ (fMaj_vWord ..)).trans ?_
  cases b <;> first
    | simp [Sys2Proof.decVpm, bopAll, bopSI, BOp.form, BOp.field]; done
    | exact nomatch hw
theorem vext (d a b : BitVec 5) : Statement (.vext d a b) := by
  refine of32 rfl (fKind_vWord ..) fun hw => (decVpm _ (fMaj_vWord ..)).trans ?_
  simp_all [Sys2Proof.decVpm, Instr.wellFormed, scopeOk]
theorem mand (d a b : BitVec 5) (m : BitVec 3) : Statement (.mand d a b m) := by
  refine of32 rfl (fKind_vWord ..) fun hw => (decVmk _ (fMaj_vWord ..)).trans ?_
  simp_all [Sys2Proof.decVmk, Instr.wellFormed, scopeOk]
theorem mor (d a b : BitVec 5) (m : BitVec 3) : Statement (.mor d a b m) := by
  refine of32 rfl (fKind_vWord ..) fun hw => (decVmk _ (fMaj_vWord ..)).trans ?_
  simp_all [Sys2Proof.decVmk, Instr.wellFormed, scopeOk]
theorem mxor (d a b : BitVec 5) (m : BitVec 3) : Statement (.mxor d a b m) := by
  refine of32 rfl (fKind_vWord ..) fun hw => (decVmk _ (fMaj_vWord ..)).trans ?_
  simp_all [Sys2Proof.decVmk, Instr.wellFormed, scopeOk]
theorem mandn (d a b : BitVec 5) (m : BitVec 3) : Statement (.mandn d a b m) := by
  refine of32 rfl (fKind_vWord ..) fun hw => (decVmk _ (fMaj_vWord ..)).trans ?_
  simp_all [Sys2Proof.decVmk, Instr.wellFormed, scopeOk]
theorem mnot (d a : BitVec 5) (m : BitVec 3) : Statement (.mnot d a m) := by
  refine of32 rfl (fKind_vWord ..) fun hw => (decVmk _ (fMaj_vWord ..)).trans ?_
  simp_all [Sys2Proof.decVmk, Instr.wellFormed, scopeOk]
theorem mset (d : BitVec 5) (m : BitVec 3) : Statement (.mset d m) := by
  refine of32 rfl (fKind_vWord ..) fun hw => (decVmk _ (fMaj_vWord ..)).trans ?_
  simp_all [Sys2Proof.decVmk, Instr.wellFormed, scopeOk]
theorem mclr (d : BitVec 5) (m : BitVec 3) : Statement (.mclr d m) := by
  refine of32 rfl (fKind_vWord ..) fun hw => (decVmk _ (fMaj_vWord ..)).trans ?_
  simp_all [Sys2Proof.decVmk, Instr.wellFormed, scopeOk]
theorem mfromv (d a : BitVec 5) (m : BitVec 3) : Statement (.mfromv d a m) := by
  refine of32 rfl (fKind_vWord ..) fun hw => (decVmk _ (fMaj_vWord ..)).trans ?_
  simp_all [Sys2Proof.decVmk, Instr.wellFormed, scopeOk]
theorem grant (d a : BitVec 5) (c : BitVec 3) : Statement (.grant d a c) := by
  refine of32 rfl (fKind_vWord ..) fun hw => (decVgr _ (fMaj_vWord ..)).trans ?_
  simp_all [Sys2Proof.decVgr, Instr.wellFormed, scopeOk]
theorem grantx (d a b : BitVec 5) : Statement (.grantx d a b) := by
  refine of32 rfl (fKind_vWord ..) fun hw => (decVgr _ (fMaj_vWord ..)).trans ?_
  simp_all [Sys2Proof.decVgr, Instr.wellFormed, scopeOk]
theorem vldu (s : BitVec 2) (d a : BitVec 5) (u : BitVec 1) (m t : BitVec 3) : Statement (.vldu s d a u m t) := by
  refine of32 rfl (fKind_vWord ..) fun hw => (decVldu _ (fMaj_vWord ..)).trans ?_
  simp_all [Sys2Proof.decVldu, Instr.wellFormed, scopeOk]
theorem vlds (s : BitVec 2) (d a b : BitVec 5) (m t : BitVec 3) : Statement (.vlds s d a b m t) := by
  refine of32 rfl (fKind_vWord ..) fun hw => (decVlds _ (fMaj_vWord ..)).trans ?_
  simp_all [Sys2Proof.decVlds, Instr.wellFormed, scopeOk]
theorem vldx (s : BitVec 2) (d a b : BitVec 5) (m t : BitVec 3) : Statement (.vldx s d a b m t) := by
  refine of32 rfl (fKind_vWord ..) fun hw => (decVldx _ (fMaj_vWord ..)).trans ?_
  simp_all [Sys2Proof.decVldx, Instr.wellFormed, scopeOk]
theorem vldm (s : BitVec 2) (d a : BitVec 5) (n : BitVec 2) (m t : BitVec 3) : Statement (.vldm s d a n m t) := by
  refine of32 rfl (fKind_vWord ..) fun hw => (decVldm _ (fMaj_vWord ..)).trans ?_
  simp_all [Sys2Proof.decVldm, Instr.wellFormed, scopeOk]
theorem vstu (s : BitVec 2) (d a : BitVec 5) (m t : BitVec 3) : Statement (.vstu s d a m t) := by
  refine of32 rfl (fKind_vWord ..) fun hw => (decVstu _ (fMaj_vWord ..)).trans ?_
  simp_all [Sys2Proof.decVstu, Instr.wellFormed, scopeOk]
theorem vsts (s : BitVec 2) (d a b : BitVec 5) (m t : BitVec 3) : Statement (.vsts s d a b m t) := by
  refine of32 rfl (fKind_vWord ..) fun hw => (decVsts _ (fMaj_vWord ..)).trans ?_
  simp_all [Sys2Proof.decVsts, Instr.wellFormed, scopeOk]
theorem vstx (s : BitVec 2) (d a b : BitVec 5) (m t : BitVec 3) : Statement (.vstx s d a b m t) := by
  refine of32 rfl (fKind_vWord ..) fun hw => (decVstx _ (fMaj_vWord ..)).trans ?_
  simp_all [Sys2Proof.decVstx, Instr.wellFormed, scopeOk]
theorem vstm (s : BitVec 2) (d a : BitVec 5) (n : BitVec 2) (m t : BitVec 3) : Statement (.vstm s d a n m t) := by
  refine of32 rfl (fKind_vWord ..) fun hw => (decVstm _ (fMaj_vWord ..)).trans ?_
  simp_all [Sys2Proof.decVstm, Instr.wellFormed, scopeOk]
theorem vaaddO (s : BitVec 2) (d a b : BitVec 5) (m : BitVec 3) : Statement (.vaaddO s d a b m) := by
  refine of32 rfl (fKind_vWord ..) fun hw => (decVat _ (fMaj_vWord ..)).trans ?_
  simp_all [Sys2Proof.decVat, Instr.wellFormed, scopeOk]
theorem vaaddU (s : BitVec 2) (d a b : BitVec 5) (m : BitVec 3) : Statement (.vaaddU s d a b m) := by
  refine of32 rfl (fKind_vWord ..) fun hw => (decVat _ (fMaj_vWord ..)).trans ?_
  simp_all [Sys2Proof.decVat, Instr.wellFormed, scopeOk]
theorem vaaddi (s : BitVec 2) (d a b : BitVec 5) (m : BitVec 3) : Statement (.vaaddi s d a b m) := by
  refine of32 rfl (fKind_vWord ..) fun hw => (decVat _ (fMaj_vWord ..)).trans ?_
  simp_all [Sys2Proof.decVat, Instr.wellFormed, scopeOk]
theorem vamaxi (s : BitVec 2) (d a b : BitVec 5) (m : BitVec 3) : Statement (.vamaxi s d a b m) := by
  refine of32 rfl (fKind_vWord ..) fun hw => (decVat _ (fMaj_vWord ..)).trans ?_
  simp_all [Sys2Proof.decVat, Instr.wellFormed, scopeOk]
theorem vamini (s : BitVec 2) (d a b : BitVec 5) (m : BitVec 3) : Statement (.vamini s d a b m) := by
  refine of32 rfl (fKind_vWord ..) fun hw => (decVat _ (fMaj_vWord ..)).trans ?_
  simp_all [Sys2Proof.decVat, Instr.wellFormed, scopeOk]
theorem vaswp (s : BitVec 2) (d a b : BitVec 5) (m : BitVec 3) : Statement (.vaswp s d a b m) := by
  refine of32 rfl (fKind_vWord ..) fun hw => (decVat _ (fMaj_vWord ..)).trans ?_
  simp_all [Sys2Proof.decVat, Instr.wellFormed, scopeOk]
theorem vaor (s : BitVec 2) (d a b : BitVec 5) (m : BitVec 3) : Statement (.vaor s d a b m) := by
  refine of32 rfl (fKind_vWord ..) fun hw => (decVat _ (fMaj_vWord ..)).trans ?_
  simp_all [Sys2Proof.decVat, Instr.wellFormed, scopeOk]
theorem vaand (s : BitVec 2) (d a b : BitVec 5) (m : BitVec 3) : Statement (.vaand s d a b m) := by
  refine of32 rfl (fKind_vWord ..) fun hw => (decVat _ (fMaj_vWord ..)).trans ?_
  simp_all [Sys2Proof.decVat, Instr.wellFormed, scopeOk]
theorem amoadd (d a b : BitVec 5) (c : BitVec 3) : Statement (.amoadd d a b c) := by
  refine of32 rfl (fKind_vWord ..) fun hw => (decSat _ (fMaj_vWord ..)).trans ?_
  simp_all [Sys2Proof.decSat, Instr.wellFormed, scopeOk]
theorem amoswp (d a b : BitVec 5) (c : BitVec 3) : Statement (.amoswp d a b c) := by
  refine of32 rfl (fKind_vWord ..) fun hw => (decSat _ (fMaj_vWord ..)).trans ?_
  simp_all [Sys2Proof.decSat, Instr.wellFormed, scopeOk]
theorem amocas (d a b : BitVec 5) (c : BitVec 3) : Statement (.amocas d a b c) := by
  refine of32 rfl (fKind_vWord ..) fun hw => (decSat _ (fMaj_vWord ..)).trans ?_
  simp_all [Sys2Proof.decSat, Instr.wellFormed, scopeOk]
theorem amomax (d a b : BitVec 5) (c : BitVec 3) : Statement (.amomax d a b c) := by
  refine of32 rfl (fKind_vWord ..) fun hw => (decSat _ (fMaj_vWord ..)).trans ?_
  simp_all [Sys2Proof.decSat, Instr.wellFormed, scopeOk]
theorem ldacq (d a : BitVec 5) (c : BitVec 3) : Statement (.ldacq d a c) := by
  refine of32 rfl (fKind_vWord ..) fun hw => (decSat _ (fMaj_vWord ..)).trans ?_
  simp_all [Sys2Proof.decSat, Instr.wellFormed, scopeOk]
theorem strel (a b : BitVec 5) (c : BitVec 3) : Statement (.strel a b c) := by
  refine of32 rfl (fKind_vWord ..) fun hw => (decSat _ (fMaj_vWord ..)).trans ?_
  simp_all [Sys2Proof.decSat, Instr.wellFormed, scopeOk]
theorem fence (c : BitVec 3) : Statement (.fence c) := by
  refine of32 rfl (fKind_vWord ..) fun hw => (decSat _ (fMaj_vWord ..)).trans ?_
  simp_all [Sys2Proof.decSat, Instr.wellFormed, scopeOk]
theorem sbar (k : BitVec 4) (c : BitVec 3) : Statement (.sbar k c) := by
  refine of32 rfl (fKind_vWord ..) fun hw => (decSat _ (fMaj_vWord ..)).trans ?_
  simp_all [Sys2Proof.decSat, Instr.wellFormed, scopeOk]
theorem vldc (s : BitVec 2) (d a : BitVec 5) (b : BitVec 2) (m : BitVec 3) : Statement (.vldc s d a b m) := by
  refine of32 rfl (fKind_vWord ..) fun hw => (decVco _ (fMaj_vWord ..)).trans ?_
  simp_all [Sys2Proof.decVco, Instr.wellFormed, scopeOk]
theorem vstc (s : BitVec 2) (d a : BitVec 5) (b : BitVec 2) (m : BitVec 3) : Statement (.vstc s d a b m) := by
  refine of32 rfl (fKind_vWord ..) fun hw => (decVco _ (fMaj_vWord ..)).trans ?_
  simp_all [Sys2Proof.decVco, Instr.wellFormed, scopeOk]
theorem vacadO (s : BitVec 2) (d a : BitVec 5) (b : BitVec 2) (m : BitVec 3) : Statement (.vacadO s d a b m) := by
  refine of32 rfl (fKind_vWord ..) fun hw => (decVco _ (fMaj_vWord ..)).trans ?_
  simp_all [Sys2Proof.decVco, Instr.wellFormed, scopeOk]
theorem vacadU (s : BitVec 2) (d a : BitVec 5) (b : BitVec 2) (m : BitVec 3) : Statement (.vacadU s d a b m) := by
  refine of32 rfl (fKind_vWord ..) fun hw => (decVco _ (fMaj_vWord ..)).trans ?_
  simp_all [Sys2Proof.decVco, Instr.wellFormed, scopeOk]
theorem vprbc (s : BitVec 2) (d a : BitVec 5) (b : BitVec 2) (m : BitVec 3) : Statement (.vprbc s d a b m) := by
  refine of32 rfl (fKind_vWord ..) fun hw => (decVco _ (fMaj_vWord ..)).trans ?_
  simp_all [Sys2Proof.decVco, Instr.wellFormed, scopeOk]
theorem vclbinv (s : BitVec 2) (a : BitVec 5) (b : BitVec 2) : Statement (.vclbinv s a b) := by
  refine of32 rfl (fKind_vWord ..) fun hw => (decVco _ (fMaj_vWord ..)).trans ?_
  simp_all [Sys2Proof.decVco, Instr.wellFormed, scopeOk]
theorem vsetvol (s : BitVec 2) (a : BitVec 5) (b : BitVec 2) : Statement (.vsetvol s a b) := by
  refine of32 rfl (fKind_vWord ..) fun hw => (decVco _ (fMaj_vWord ..)).trans ?_
  simp_all [Sys2Proof.decVco, Instr.wellFormed, scopeOk]
theorem tlblock (d a b : BitVec 5) : Statement (.tlblock d a b) := by
  refine of32 rfl (fKind_vWord ..) fun hw => (decTlb _ (fMaj_vWord ..)).trans ?_
  simp_all [Sys2Proof.decTlb, Instr.wellFormed, scopeOk]
theorem tlbunlk (a : BitVec 5) : Statement (.tlbunlk a) := by
  refine of32 rfl (fKind_vWord ..) fun hw => (decTlb _ (fMaj_vWord ..)).trans ?_
  simp_all [Sys2Proof.decTlb, Instr.wellFormed, scopeOk]
theorem tlbprb (d a : BitVec 5) : Statement (.tlbprb d a) := by
  refine of32 rfl (fKind_vWord ..) fun hw => (decTlb _ (fMaj_vWord ..)).trans ?_
  simp_all [Sys2Proof.decTlb, Instr.wellFormed, scopeOk]
theorem mattach (d a : BitVec 5) : Statement (.mattach d a) := by
  refine of32 rfl (fKind_vWord ..) fun hw => (decMst _ (fMaj_vWord ..)).trans ?_
  simp_all [Sys2Proof.decMst, Instr.wellFormed, scopeOk]
theorem msetvl (d a : BitVec 5) : Statement (.msetvl d a) := by
  refine of32 rfl (fKind_vWord ..) fun hw => (decMst _ (fMaj_vWord ..)).trans ?_
  simp_all [Sys2Proof.decMst, Instr.wellFormed, scopeOk]
theorem mzero (d : BitVec 5) : Statement (.mzero d) := by
  refine of32 rfl (fKind_vWord ..) fun hw => (decMst _ (fMaj_vWord ..)).trans ?_
  simp_all [Sys2Proof.decMst, Instr.wellFormed, scopeOk]
theorem mknot (d a b : BitVec 5) : Statement (.mknot d a b) := by
  refine of32 rfl (fKind_vWord ..) fun hw => (decMst _ (fMaj_vWord ..)).trans ?_
  simp_all [Sys2Proof.decMst, Instr.wellFormed, scopeOk]
theorem mgsel (d a b : BitVec 5) : Statement (.mgsel d a b) := by
  refine of32 rfl (fKind_vWord ..) fun hw => (decMst _ (fMaj_vWord ..)).trans ?_
  simp_all [Sys2Proof.decMst, Instr.wellFormed, scopeOk]
theorem mresc (d : BitVec 5) (b : BOp) : Statement (.mresc d b) := by
  refine of32 rfl (fKind_vWord ..) fun hw => (decMst _ (fMaj_vWord ..)).trans ?_
  cases b <;> first
    | simp [Sys2Proof.decMst, bopAll, bopSI, BOp.form, BOp.field]; done
    | exact nomatch hw
theorem troww (d a : BitVec 5) (b : BOp) : Statement (.troww d a b) := by
  refine of32 rfl (fKind_vWord ..) fun hw => (decMmv _ (fMaj_vWord ..)).trans ?_
  cases b <;> first
    | simp [Sys2Proof.decMmv, bopAll, bopSI, BOp.form, BOp.field]; done
    | exact nomatch hw
theorem trowr (d a : BitVec 5) (b : BOp) : Statement (.trowr d a b) := by
  refine of32 rfl (fKind_vWord ..) fun hw => (decMmv _ (fMaj_vWord ..)).trans ?_
  cases b <;> first
    | simp [Sys2Proof.decMmv, bopAll, bopSI, BOp.form, BOp.field]; done
    | exact nomatch hw
theorem tcolw (d a : BitVec 5) (b : BOp) : Statement (.tcolw d a b) := by
  refine of32 rfl (fKind_vWord ..) fun hw => (decMmv _ (fMaj_vWord ..)).trans ?_
  cases b <;> first
    | simp [Sys2Proof.decMmv, bopAll, bopSI, BOp.form, BOp.field]; done
    | exact nomatch hw
theorem tcolr (d a : BitVec 5) (b : BOp) : Statement (.tcolr d a b) := by
  refine of32 rfl (fKind_vWord ..) fun hw => (decMmv _ (fMaj_vWord ..)).trans ?_
  cases b <;> first
    | simp [Sys2Proof.decMmv, bopAll, bopSI, BOp.form, BOp.field]; done
    | exact nomatch hw
theorem aextr (d a : BitVec 5) (b : BOp) : Statement (.aextr d a b) := by
  refine of32 rfl (fKind_vWord ..) fun hw => (decMmv _ (fMaj_vWord ..)).trans ?_
  cases b <;> first
    | simp [Sys2Proof.decMmv, bopAll, bopSI, BOp.form, BOp.field]; done
    | exact nomatch hw
theorem aextc (d a : BitVec 5) (b : BOp) : Statement (.aextc d a b) := by
  refine of32 rfl (fKind_vWord ..) fun hw => (decMmv _ (fMaj_vWord ..)).trans ?_
  cases b <;> first
    | simp [Sys2Proof.decMmv, bopAll, bopSI, BOp.form, BOp.field]; done
    | exact nomatch hw
theorem ainsr (d a : BitVec 5) (b : BOp) : Statement (.ainsr d a b) := by
  refine of32 rfl (fKind_vWord ..) fun hw => (decMmv _ (fMaj_vWord ..)).trans ?_
  cases b <;> first
    | simp [Sys2Proof.decMmv, bopAll, bopSI, BOp.form, BOp.field]; done
    | exact nomatch hw
theorem tzero (d : BitVec 5) : Statement (.tzero d) := by
  refine of32 rfl (fKind_vWord ..) fun hw => (decMmv _ (fMaj_vWord ..)).trans ?_
  simp_all [Sys2Proof.decMmv, Instr.wellFormed, scopeOk]
theorem mldc (d a b : BitVec 5) : Statement (.mldc d a b) := by
  refine of32 rfl (fKind_vWord ..) fun hw => (decMop _ (fMaj_vWord ..)).trans ?_
  simp_all [Sys2Proof.decMop, Instr.wellFormed, scopeOk]
theorem mstc (d a b : BitVec 5) : Statement (.mstc d a b) := by
  refine of32 rfl (fKind_vWord ..) fun hw => (decMop _ (fMaj_vWord ..)).trans ?_
  simp_all [Sys2Proof.decMop, Instr.wellFormed, scopeOk]
theorem mrefn (d : BitVec 5) : Statement (.mrefn d) := by
  refine of32 rfl (fKind_vWord ..) fun hw => (decMop _ (fMaj_vWord ..)).trans ?_
  simp_all [Sys2Proof.decMop, Instr.wellFormed, scopeOk]
theorem mma (d a : BitVec 5) (m : BitVec 3) : Statement (.mma d a m) := by
  refine of32 rfl (fKind_vWord ..) fun hw => (decMop _ (fMaj_vWord ..)).trans ?_
  simp_all [Sys2Proof.decMop, Instr.wellFormed, scopeOk]
theorem mspld (d a b : BitVec 5) : Statement (.mspld d a b) := by
  refine of32 rfl (fKind_vWord ..) fun hw => (decMop _ (fMaj_vWord ..)).trans ?_
  simp_all [Sys2Proof.decMop, Instr.wellFormed, scopeOk]
theorem mopa (d a b : BitVec 5) : Statement (.mopa d a b) := by
  refine of32 rfl (fKind_vWord ..) fun hw => (decMop _ (fMaj_vWord ..)).trans ?_
  simp_all [Sys2Proof.decMop, Instr.wellFormed, scopeOk]
theorem msplg (d a b : BitVec 5) : Statement (.msplg d a b) := by
  refine of32 rfl (fKind_vWord ..) fun hw => (decMop _ (fMaj_vWord ..)).trans ?_
  simp_all [Sys2Proof.decMop, Instr.wellFormed, scopeOk]
theorem tmma (d a : BitVec 5) (m : BitVec 3) (pair : BitVec 5) (chunks : BitVec 10) (clr : Bool) : Statement (.tmma d a m pair chunks clr) := by
  refine of64 rfl (fKind_xWord ..) fun _ => ?_
  simp [decode64]
theorem tsplf (d a : BitVec 5) (m : BitVec 3) (pair : BitVec 5) (chunks : BitVec 10) (clr : Bool) : Statement (.tsplf d a m pair chunks clr) := by
  refine of64 rfl (fKind_xWord ..) fun _ => ?_
  simp [decode64]
theorem tspld (d a : BitVec 5) (pair : BitVec 5) (chunks : BitVec 10) (clr : Bool) : Statement (.tspld d a pair chunks clr) := by
  refine of64 rfl (fKind_xWord ..) fun _ => ?_
  simp [decode64]
theorem topa (d a : BitVec 5) (pair : BitVec 5) (chunks : BitVec 10) (kbase : BitVec 8) (clr : Bool) : Statement (.topa d a pair chunks kbase clr) := by
  refine of64 rfl (fKind_xWord ..) fun _ => ?_
  simp [decode64]
theorem tsplg (d a : BitVec 5) (pair : BitVec 5) (chunks : BitVec 10) (kbase : BitVec 8) (clr : Bool) : Statement (.tsplg d a pair chunks kbase clr) := by
  refine of64 rfl (fKind_xWord ..) fun _ => ?_
  simp [decode64]
theorem tldc (d a : BitVec 5) (chunks : BitVec 10) (knot : BitVec 2) (kbase : BitVec 8) : Statement (.tldc d a chunks knot kbase) := by
  refine of64 rfl (fKind_xWord ..) fun _ => ?_
  simp [decode64]
theorem tstc (d a : BitVec 5) (chunks : BitVec 10) (kbase : BitVec 8) : Statement (.tstc d a chunks kbase) := by
  refine of64 rfl (fKind_xWord ..) fun _ => ?_
  simp [decode64]
theorem ecopy (q : BitVec 2) (d a : BitVec 5) (u k : BitVec 1) (p : BitVec 2) : Statement (.ecopy q d a u k p) := by
  refine of32 rfl (fKind_vWord ..) fun hw => (decEng _ (fMaj_vWord ..)).trans ?_
  simp_all [Sys2Proof.decEng, Instr.wellFormed, scopeOk]
theorem ecoll (q : BitVec 2) (d a : BitVec 5) (p : BitVec 2) : Statement (.ecoll q d a p) := by
  refine of32 rfl (fKind_vWord ..) fun hw => (decEng _ (fMaj_vWord ..)).trans ?_
  simp_all [Sys2Proof.decEng, Instr.wellFormed, scopeOk]
theorem epub (a : BitVec 5) (c : BitVec 3) : Statement (.epub a c) := by
  refine of32 rfl (fKind_vWord ..) fun hw => (decEng _ (fMaj_vWord ..)).trans ?_
  simp_all [Sys2Proof.decEng, Instr.wellFormed, scopeOk]
theorem ewait (a : BitVec 5) : Statement (.ewait a) := by
  refine of32 rfl (fKind_vWord ..) fun hw => (decEng _ (fMaj_vWord ..)).trans ?_
  simp_all [Sys2Proof.decEng, Instr.wellFormed, scopeOk]
theorem epoll (d a : BitVec 5) : Statement (.epoll d a) := by
  refine of32 rfl (fKind_vWord ..) fun hw => (decEng _ (fMaj_vWord ..)).trans ?_
  simp_all [Sys2Proof.decEng, Instr.wellFormed, scopeOk]
theorem esig (d a b : BitVec 5) : Statement (.esig d a b) := by
  refine of32 rfl (fKind_vWord ..) fun hw => (decEng _ (fMaj_vWord ..)).trans ?_
  simp_all [Sys2Proof.decEng, Instr.wellFormed, scopeOk]
theorem uimask (d a : BitVec 5) : Statement (.uimask d a) := by
  refine of32 rfl (fKind_vWord ..) fun hw => (decUint _ (fMaj_vWord ..)).trans ?_
  simp_all [Sys2Proof.decUint, Instr.wellFormed, scopeOk]
theorem uiraise (a : BitVec 5) : Statement (.uiraise a) := by
  refine of32 rfl (fKind_vWord ..) fun hw => (decUint _ (fMaj_vWord ..)).trans ?_
  simp_all [Sys2Proof.decUint, Instr.wellFormed, scopeOk]
theorem cAddi (d : BitVec 5) (i : BitVec 6) : Statement (.cAddi d i) := by
  refine of16 rfl (by decide) ?_
  simp [decode16, cD_rest, cImm_rest, cD_pair, cA_pair, cLow_pair]
theorem cLi (d : BitVec 5) (i : BitVec 6) : Statement (.cLi d i) := by
  refine of16 rfl (by decide) ?_
  simp [decode16, cD_rest, cImm_rest, cD_pair, cA_pair, cLow_pair]
theorem cLd (d : BitVec 5) (i : BitVec 6) : Statement (.cLd d i) := by
  refine of16 rfl (by decide) ?_
  simp [decode16, cD_rest, cImm_rest, cD_pair, cA_pair, cLow_pair]
theorem cSd (d : BitVec 5) (i : BitVec 6) : Statement (.cSd d i) := by
  refine of16 rfl (by decide) ?_
  simp [decode16, cD_rest, cImm_rest, cD_pair, cA_pair, cLow_pair]
theorem cLw (d : BitVec 5) (i : BitVec 6) : Statement (.cLw d i) := by
  refine of16 rfl (by decide) ?_
  simp [decode16, cD_rest, cImm_rest, cD_pair, cA_pair, cLow_pair]
theorem cSw (d : BitVec 5) (i : BitVec 6) : Statement (.cSw d i) := by
  refine of16 rfl (by decide) ?_
  simp [decode16, cD_rest, cImm_rest, cD_pair, cA_pair, cLow_pair]
theorem cMv (d a : BitVec 5) : Statement (.cMv d a) := by
  refine of16 rfl (by decide) ?_
  simp [decode16, cD_rest, cImm_rest, cD_pair, cA_pair, cLow_pair]
theorem cAdd (d a : BitVec 5) : Statement (.cAdd d a) := by
  refine of16 rfl (by decide) ?_
  simp [decode16, cD_rest, cImm_rest, cD_pair, cA_pair, cLow_pair]
theorem cSub (d a : BitVec 5) : Statement (.cSub d a) := by
  refine of16 rfl (by decide) ?_
  simp [decode16, cD_rest, cImm_rest, cD_pair, cA_pair, cLow_pair]
theorem cGrant (d a : BitVec 5) : Statement (.cGrant d a) := by
  refine of16 rfl (by decide) ?_
  simp [decode16, cD_rest, cImm_rest, cD_pair, cA_pair, cLow_pair]
theorem cJ (o : BitVec 11) : Statement (.cJ o) := by
  refine of16 rfl (by decide) ?_
  simp [decode16, cD_rest, cImm_rest, cD_pair, cA_pair, cLow_pair]
theorem cBeqz (a : BitVec 5) (o : BitVec 6) : Statement (.cBeqz a o) := by
  refine of16 rfl (by decide) ?_
  simp [decode16, cD_rest, cImm_rest, cD_pair, cA_pair, cLow_pair]
theorem cBnez (a : BitVec 5) (o : BitVec 6) : Statement (.cBnez a o) := by
  refine of16 rfl (by decide) ?_
  simp [decode16, cD_rest, cImm_rest, cD_pair, cA_pair, cLow_pair]
theorem nop : Statement .nop := by
  refine of32 rfl (fKind_srWord ..) fun hw => (decSys _ (fMaj_srWord ..)).trans ?_
  simp_all [Sys2Proof.decSys, Instr.wellFormed, scopeOk]
theorem ecall : Statement .ecall := by
  refine of32 rfl (fKind_srWord ..) fun hw => (decSys _ (fMaj_srWord ..)).trans ?_
  simp_all [Sys2Proof.decSys, Instr.wellFormed, scopeOk]
theorem ebreak : Statement .ebreak := by
  refine of32 rfl (fKind_srWord ..) fun hw => (decSys _ (fMaj_srWord ..)).trans ?_
  simp_all [Sys2Proof.decSys, Instr.wellFormed, scopeOk]
theorem tret : Statement .tret := by
  refine of32 rfl (fKind_srWord ..) fun hw => (decSys _ (fMaj_srWord ..)).trans ?_
  simp_all [Sys2Proof.decSys, Instr.wellFormed, scopeOk]
theorem wfi : Statement .wfi := by
  refine of32 rfl (fKind_srWord ..) fun hw => (decSys _ (fMaj_srWord ..)).trans ?_
  simp_all [Sys2Proof.decSys, Instr.wellFormed, scopeOk]
theorem cvy : Statement .cvy := by
  refine of32 rfl (fKind_srWord ..) fun hw => (decSys _ (fMaj_srWord ..)).trans ?_
  simp_all [Sys2Proof.decSys, Instr.wellFormed, scopeOk]
theorem fencei : Statement .fencei := by
  refine of32 rfl (fKind_srWord ..) fun hw => (decSys _ (fMaj_srWord ..)).trans ?_
  simp_all [Sys2Proof.decSys, Instr.wellFormed, scopeOk]
theorem lexit : Statement .lexit := by
  refine of32 rfl (fKind_siWord ..) fun hw => (decHloop _ (fMaj_siWord ..)).trans ?_
  simp_all [Sys2Proof.decHloop, Instr.wellFormed, scopeOk]
theorem sclose : Statement .sclose := by
  refine of32 rfl (fKind_vWord ..) fun hw => (decVgr _ (fMaj_vWord ..)).trans ?_
  simp_all [Sys2Proof.decVgr, Instr.wellFormed, scopeOk]
theorem mdetach : Statement .mdetach := by
  refine of32 rfl (fKind_vWord ..) fun hw => (decMst _ (fMaj_vWord ..)).trans ?_
  simp_all [Sys2Proof.decMst, Instr.wellFormed, scopeOk]
theorem uiret : Statement .uiret := by
  refine of32 rfl (fKind_vWord ..) fun hw => (decUint _ (fMaj_vWord ..)).trans ?_
  simp_all [Sys2Proof.decUint, Instr.wellFormed, scopeOk]
theorem uiwait : Statement .uiwait := by
  refine of32 rfl (fKind_vWord ..) fun hw => (decUint _ (fMaj_vWord ..)).trans ?_
  simp_all [Sys2Proof.decUint, Instr.wellFormed, scopeOk]
theorem cNop : Statement .cNop := by
  refine of16 rfl (by decide) ?_
  simp [decode16, cD_rest, cImm_rest, cD_pair, cA_pair, cLow_pair]
theorem cSclose : Statement .cSclose := by
  refine of16 rfl (by decide) ?_
  simp [decode16, cD_rest, cImm_rest, cD_pair, cA_pair, cLow_pair]
theorem cCvy : Statement .cCvy := by
  refine of16 rfl (by decide) ?_
  simp [decode16, cD_rest, cImm_rest, cD_pair, cA_pair, cLow_pair]
theorem govctlWrite (core : Nat) (value : Word) : Statement (.govctlWrite core value) :=
  ofEvent rfl
theorem knotRegisterWrite (reg : BitVec 3) (value : Word) : Statement (.knotRegisterWrite reg value) :=
  ofEvent rfl
theorem rgntabWrite (part : Nat) (value : Word) : Statement (.rgntabWrite part value) :=
  ofEvent rfl
theorem xlat2Write (value : Word) : Statement (.xlat2Write value) :=
  ofEvent rfl
theorem illegalEncoding : Statement .illegalEncoding :=
  ofEvent rfl
theorem codeArrivalTimeout (hart : Nat) : Statement (.codeArrivalTimeout hart) :=
  ofEvent rfl
theorem grantRevocation (victim : Nat) (left : Nat) : Statement (.grantRevocation victim left) :=
  ofEvent rfl
theorem grantWaitEnd (hart : Nat) : Statement (.grantWaitEnd hart) :=
  ofEvent rfl
theorem governorRevision (allocation : List (Nat × Nat)) : Statement (.governorRevision allocation) :=
  ofEvent rfl
theorem revocationProtectionExpiry (hart : Nat) : Statement (.revocationProtectionExpiry hart) :=
  ofEvent rfl
theorem preemptionRequest (hart : Nat) : Statement (.preemptionRequest hart) :=
  ofEvent rfl
theorem preemptionExpiry (hart : Nat) : Statement (.preemptionExpiry hart) :=
  ofEvent rfl
theorem contextRestore (hart : Nat) : Statement (.contextRestore hart) :=
  ofEvent rfl
theorem userInterruptEntry (hart : Nat) : Statement (.userInterruptEntry hart) :=
  ofEvent rfl
theorem wfiWake (hart : Nat) : Statement (.wfiWake hart) :=
  ofEvent rfl
theorem engineQueueStallEnd (hart : Nat) : Statement (.engineQueueStallEnd hart) :=
  ofEvent rfl
theorem ewaitResume (hart : Nat) : Statement (.ewaitResume hart) :=
  ofEvent rfl
theorem ecopyCompletion (hart queue : Nat) : Statement (.ecopyCompletion hart queue) :=
  ofEvent rfl
theorem collectiveFormation (hart queue : Nat) (members : List Member) : Statement (.collectiveFormation hart queue members) :=
  ofEvent rfl
theorem ecollCompletion (hart queue : Nat) : Statement (.ecollCompletion hart queue) :=
  ofEvent rfl
theorem collectiveFailureReport (hart queue : Nat) (cause : BitVec 8) : Statement (.collectiveFailureReport hart queue cause) :=
  ofEvent rfl
theorem esigWrite (hart queue : Nat) : Statement (.esigWrite hart queue) :=
  ofEvent rfl
theorem engineErrorCompletion (hart queue : Nat) (cause : BitVec 8) (va : Word) : Statement (.engineErrorCompletion hart queue cause va) :=
  ofEvent rfl
theorem engineSourceTranslationFault (hart queue : Nat) (va : Word) : Statement (.engineSourceTranslationFault hart queue va) :=
  ofEvent rfl
theorem engineTranslationResolved (hart queue : Nat) (refused : Bool) : Statement (.engineTranslationResolved hart queue refused) :=
  ofEvent rfl
theorem firstStageInvalidation (part : Nat) (root lo hi : Word) : Statement (.firstStageInvalidation part root lo hi) :=
  ofEvent rfl
theorem secondStageInvalidation (part : Nat) (lo hi : Word) : Statement (.secondStageInvalidation part lo hi) :=
  ofEvent rfl
theorem remoteRequestArrival (request : RemoteRequest) : Statement (.remoteRequestArrival request) :=
  ofEvent rfl
theorem remoteEcopyArrival (copy : RemoteCopy) : Statement (.remoteEcopyArrival copy) :=
  ofEvent rfl
theorem remoteRejectionArrival (rejection : Rejection) : Statement (.remoteRejectionArrival rejection) :=
  ofEvent rfl
theorem fabricGrantInstall (grant : FabricGrant) : Statement (.fabricGrantInstall grant) :=
  ofEvent rfl
theorem fabricGrantWithdraw (grant : FabricGrant) : Statement (.fabricGrantWithdraw grant) :=
  ofEvent rfl
theorem flitCrcFailure (link : Nat) : Statement (.flitCrcFailure link) :=
  ofEvent rfl
theorem linkDown (link : Nat) : Statement (.linkDown link) :=
  ofEvent rfl
theorem linkLaneRetrain (link : Nat) : Statement (.linkLaneRetrain link) :=
  ofEvent rfl
theorem pathLoss (node : Nat) : Statement (.pathLoss node) :=
  ofEvent rfl
theorem pathRestored (node : Nat) (links : BitVec 24) : Statement (.pathRestored node links) :=
  ofEvent rfl
theorem strtailWrite (fn stream : Nat) (value : Word) : Statement (.strtailWrite fn stream value) :=
  ofEvent rfl
theorem strctlWrite (fn stream : Nat) (value : Word) : Statement (.strctlWrite fn stream value) :=
  ofEvent rfl
theorem strstatStoppedClear (fn stream : Nat) (value : Word) : Statement (.strstatStoppedClear fn stream value) :=
  ofEvent rfl
theorem streamRegisterWrite (fn stream : Nat) (offset : Nat) (value : Word) : Statement (.streamRegisterWrite fn stream offset value) :=
  ofEvent rfl
theorem ringSlotFetch (fn stream : Nat) : Statement (.ringSlotFetch fn stream) :=
  ofEvent rfl
theorem launch (fn stream : Nat) : Statement (.launch fn stream) :=
  ofEvent rfl
theorem launchDeferredBegin (launch : Nat) : Statement (.launchDeferredBegin launch) :=
  ofEvent rfl
theorem workgroupHandoff (launch hart : Nat) : Statement (.workgroupHandoff launch hart) :=
  ofEvent rfl
theorem launchCompletion (launch : Nat) : Statement (.launchCompletion launch) :=
  ofEvent rfl
theorem launchFaultedEnd (launch hart : Nat) : Statement (.launchFaultedEnd launch hart) :=
  ofEvent rfl
theorem waitv (fn stream : Nat) : Statement (.waitv fn stream) :=
  ofEvent rfl
theorem waitvPoll (fn stream : Nat) : Statement (.waitvPoll fn stream) :=
  ofEvent rfl
theorem waitvTimeout (fn stream : Nat) : Statement (.waitvTimeout fn stream) :=
  ofEvent rfl
theorem signal (fn stream : Nat) : Statement (.signal fn stream) :=
  ofEvent rfl
theorem copyData (fn stream : Nat) : Statement (.copyData fn stream) :=
  ofEvent rfl
theorem copyObjectLoad (fn stream : Nat) : Statement (.copyObjectLoad fn stream) :=
  ofEvent rfl
theorem segmentRecordArrival (object : Nat) (frame : Word) : Statement (.segmentRecordArrival object frame) :=
  ofEvent rfl
theorem copyObjectRelease (fn stream : Nat) : Statement (.copyObjectRelease fn stream) :=
  ofEvent rfl
theorem objectReleaseCompletion (fn stream : Nat) : Statement (.objectReleaseCompletion fn stream) :=
  ofEvent rfl
theorem commandFence (fn stream : Nat) : Statement (.commandFence fn stream) :=
  ofEvent rfl
theorem serviceWindowExpiry (donor recipient core : Nat) : Statement (.serviceWindowExpiry donor recipient core) :=
  ofEvent rfl
theorem vaultZeroCompletion (core : Nat) : Statement (.vaultZeroCompletion core) :=
  ofEvent rfl
theorem partitionCreate (request : PartitionRequest) : Statement (.partitionCreate request) :=
  ofEvent rfl
theorem partitionDestroy (part : Nat) : Statement (.partitionDestroy part) :=
  ofEvent rfl
theorem partitionResize (part : Nat) (cores : List Nat) : Statement (.partitionResize part cores) :=
  ofEvent rfl
theorem timeShareSwitch (part : Nat) : Statement (.timeShareSwitch part) :=
  ofEvent rfl
theorem partitionTeardown (part : Nat) : Statement (.partitionTeardown part) :=
  ofEvent rfl
theorem functionLevelReset (fn : Nat) : Statement (.functionLevelReset fn) :=
  ofEvent rfl
theorem hbmPatrolScrub (stack : Nat) : Statement (.hbmPatrolScrub stack) :=
  ofEvent rfl
theorem vaultPatrolScrub (core : Nat) : Statement (.vaultPatrolScrub core) :=
  ofEvent rfl
theorem rowRemap (unit : RowUnit) (bank row : Nat) : Statement (.rowRemap unit bank row) :=
  ofEvent rfl
theorem laneSliceRetire (core slice : Nat) : Statement (.laneSliceRetire core slice) :=
  ofEvent rfl
theorem arrayTileRowRetire (cluster row : Nat) : Statement (.arrayTileRowRetire cluster row) :=
  ofEvent rfl
theorem coreRetire (core : Nat) : Statement (.coreRetire core) :=
  ofEvent rfl
theorem boot (die : Nat) : Statement (.boot die) :=
  ofEvent rfl
theorem firmwareUpdate (die : Nat) (husk : Bool) (image signature : List Byte) : Statement (.firmwareUpdate die husk image signature) :=
  ofEvent rfl
theorem attestationQuote (nonce : List Byte) : Statement (.attestationQuote nonce) :=
  ofEvent rfl
theorem envelopeChange (part watts : Nat) : Statement (.envelopeChange part watts) :=
  ofEvent rfl
theorem engineQueueFreeze (hart queue : Nat) (va : Word) : Statement (.engineQueueFreeze hart queue va) :=
  ofEvent rfl

end Sys2Proof.Laws.Encoding
end

