-- ==== Sys2Proof/Safety.lean ====
section
/-! DEFINITION. What counts as a safe run, in the terms the claims use. -/

namespace Sys2Proof.Machine

/-- The agenda names harts the device has (R3). -/
def State.agendaOk (s : State) : Prop := ∀ h, Turn.hart h ∈ s.agenda → h < Config.harts

/-- A state from which the next step answers a next state. -/
def State.safe (s : State) : Prop := ∃ t, step s = .next t

/-- A run of n steps that meets neither a fault nor a refusal. -/
def State.safeFor : Nat → State → Prop
  | 0, _ => True
  | n + 1, s => ∃ t, step s = .next t ∧ t.safeFor n

end Sys2Proof.Machine
end

