-- ==== Sys2Proof/Certificates/Slice0/Obligations.lean ====
section
/-! DEFINITION. The statements for the provers, one definition each. -/

open Sys2Proof Sys2Proof.Machine

/-! ### Scalar instructions (spec/05) -/

/-- R83: what the SALU instructions write to s[D]; nothing else changes but the pc. -/
def Obligations.ScalarArithmetic : Prop :=
  ∀ (s : State) (d a b : BitVec 5),
    let x := s.x a
    let y := s.x b
    let n := y.toNat % 64
    Gives (.add d a b) s d (x + y) 4 ∧
    Gives (.sub d a b) s d (x - y) 4 ∧
    Gives (.and d a b) s d (x &&& y) 4 ∧
    Gives (.or d a b) s d (x ||| y) 4 ∧
    Gives (.xor d a b) s d (x ^^^ y) 4 ∧
    Gives (.sll d a b) s d (BitVec.ofNat 64 (x.toNat * 2 ^ n)) 4 ∧
    Gives (.srl d a b) s d (BitVec.ofNat 64 (x.toNat / 2 ^ n)) 4 ∧
    Gives (.sra d a b) s d (BitVec.ofInt 64 (x.toInt / 2 ^ n)) 4 ∧
    Gives (.slt d a b) s d (if x.toInt < y.toInt then 1 else 0) 4 ∧
    Gives (.sltu d a b) s d (if x.toNat < y.toNat then 1 else 0) 4 ∧
    Gives (.mul d a b) s d (BitVec.ofNat 64 (x.toNat * y.toNat)) 4 ∧
    Gives (.mulh d a b) s d (BitVec.ofInt 64 (x.toInt * y.toInt / 2 ^ 64)) 4 ∧
    Gives (.mulhu d a b) s d (BitVec.ofNat 64 (x.toNat * y.toNat / 2 ^ 64)) 4 ∧
    Gives (.div d a b) s d (if y = 0 then BitVec.ofInt 64 (-1) else BitVec.ofInt 64 (x.toInt.tdiv y.toInt)) 4 ∧
    Gives (.divu d a b) s d (if y = 0 then BitVec.ofNat 64 (2 ^ 64 - 1) else BitVec.ofNat 64 (x.toNat / y.toNat)) 4 ∧
    Gives (.rem d a b) s d (if y = 0 then x else BitVec.ofInt 64 (x.toInt.tmod y.toInt)) 4 ∧
    Gives (.remu d a b) s d (if y = 0 then x else BitVec.ofNat 64 (x.toNat % y.toNat)) 4 ∧
    Gives (.min d a b) s d (BitVec.ofInt 64 (min x.toInt y.toInt)) 4 ∧
    Gives (.max d a b) s d (BitVec.ofInt 64 (max x.toInt y.toInt)) 4 ∧
    Gives (.minu d a b) s d (BitVec.ofNat 64 (min x.toNat y.toNat)) 4 ∧
    Gives (.maxu d a b) s d (BitVec.ofNat 64 (max x.toNat y.toNat)) 4 ∧
    (∃ k, LeadingZeros x k ∧ Gives (.clz d a) s d (BitVec.ofNat 64 k) 4) ∧
    (∃ k, TrailingZeros x k ∧ Gives (.ctz d a) s d (BitVec.ofNat 64 k) 4) ∧
    Gives (.popc d a) s d (BitVec.ofNat 64 ((List.range 64).countP x.getLsbD)) 4

/-- R84, R85, and the compressed forms of R69 that compute: immediate operands. -/
def Obligations.ScalarImmediates : Prop :=
  ∀ (s : State) (d a : BitVec 5) (i : BitVec 11) (n : BitVec 6) (k : BitVec 16),
    let x := s.x a
    let v := BitVec.ofInt 64 i.toInt
    Gives (.addi d a i) s d (x + v) 4 ∧
    Gives (.andi d a i) s d (x &&& v) 4 ∧
    Gives (.ori d a i) s d (x ||| v) 4 ∧
    Gives (.xori d a i) s d (x ^^^ v) 4 ∧
    Gives (.slli d a n) s d (BitVec.ofNat 64 (x.toNat * 2 ^ n.toNat)) 4 ∧
    Gives (.srli d a n) s d (BitVec.ofNat 64 (x.toNat / 2 ^ n.toNat)) 4 ∧
    Gives (.srai d a n) s d (BitVec.ofInt 64 (x.toInt / 2 ^ n.toNat)) 4 ∧
    Gives (.slti d a i) s d (if x.toInt < i.toInt then 1 else 0) 4 ∧
    Gives (.lil d k) s d (BitVec.ofInt 64 k.toInt) 4 ∧
    Gives (.lih d k) s d ((s.x d).extractLsb' 32 32 ++ k ++ (s.x d).extractLsb' 0 16) 4 ∧
    Gives (.lix d k) s d ((s.x d).extractLsb' 48 16 ++ k ++ (s.x d).extractLsb' 0 32) 4 ∧
    Gives (.liy d k) s d (k ++ (s.x d).extractLsb' 0 48) 4 ∧
    Gives (.cAddi d n) s d (s.x d + BitVec.ofInt 64 n.toInt) 2 ∧
    Gives (.cLi d n) s d (BitVec.ofInt 64 n.toInt) 2 ∧
    Gives (.cMv d a) s d x 2 ∧
    Gives (.cAdd d a) s d (s.x d + x) 2 ∧
    Gives (.cSub d a) s d (s.x d - x) 2

/-- R86, R87: scalar loads, and C.LD and C.LW. The model's readings and choices in it: logs 16, 25. -/
def Obligations.ScalarLoads : Prop :=
  ∀ (s : State) (d a : BitVec 5) (i : BitVec 11) (n : BitVec 6),
    let va := s.x a + BitVec.ofInt 64 i.toInt
    Loads (.lb d a i) s d va 1 (fun v => BitVec.ofInt 64 (lowSigned 1 v)) 4 ∧
    Loads (.lh d a i) s d va 2 (fun v => BitVec.ofInt 64 (lowSigned 2 v)) 4 ∧
    Loads (.lw d a i) s d va 4 (fun v => BitVec.ofInt 64 (lowSigned 4 v)) 4 ∧
    Loads (.ld d a i) s d va 8 (fun v => BitVec.ofInt 64 (lowSigned 8 v)) 4 ∧
    Loads (.lbu d a i) s d va 1 (fun v => BitVec.ofNat 64 v) 4 ∧
    Loads (.lhu d a i) s d va 2 (fun v => BitVec.ofNat 64 v) 4 ∧
    Loads (.lwu d a i) s d va 4 (fun v => BitVec.ofNat 64 v) 4 ∧
    Loads (.cLd d n) s d (s.x 30 + BitVec.ofNat 64 (8 * n.toNat)) 8 (fun v => BitVec.ofInt 64 (lowSigned 8 v)) 2 ∧
    Loads (.cLw d n) s d (s.x 30 + BitVec.ofNat 64 (4 * n.toNat)) 4 (fun v => BitVec.ofInt 64 (lowSigned 4 v)) 2

/-- R86, R87: scalar stores, and C.SD and C.SW. The model's readings and choices in it: log 30. -/
def Obligations.ScalarStores : Prop :=
  ∀ (s : State) (d a : BitVec 5) (i : BitVec 11) (n : BitVec 6),
    let va := s.x a + BitVec.ofInt 64 i.toInt
    Stores (.sb d a i) s d va 1 (s.x d) 4 ∧
    Stores (.sh d a i) s d va 2 (s.x d) 4 ∧
    Stores (.sw d a i) s d va 4 (s.x d) 4 ∧
    Stores (.sd d a i) s d va 8 (s.x d) 4 ∧
    Stores (.cSd d n) s d (s.x 30 + BitVec.ofNat 64 (8 * n.toNat)) 8 (s.x d) 2 ∧
    Stores (.cSw d n) s d (s.x 30 + BitVec.ofNat 64 (4 * n.toNat)) 4 (s.x d) 2

/-- R88, R89, R94 and the compressed forms of R69: where branches and jumps go, the links they write, and the loops they
end. At privilege U a JALR or JR to 0 is not covered here (WorkgroupEnd). -/
def Obligations.BranchesAndJumps : Prop :=
  ∀ (s : State) (d a : BitVec 5) (o : BitVec 15) (j : BitVec 23) (i : BitVec 11) (c : BitVec 6),
    let x := (s.x a).toInt
    let q := s.hart.pc + BitVec.ofInt 64 (2 * o.toInt)
    let qj := s.hart.pc + BitVec.ofInt 64 (2 * j.toInt)
    let qc := s.hart.pc + BitVec.ofInt 64 (2 * c.toInt)
    let r := (s.x a + BitVec.ofInt 64 i.toInt) &&& ~~~1#64
    Branches (.beqz a o) s (x = 0) q 4 ∧
    Branches (.bnez a o) s (x ≠ 0) q 4 ∧
    Branches (.bltz a o) s (x < 0) q 4 ∧
    Branches (.bgez a o) s (0 ≤ x) q 4 ∧
    Branches (.bgtz a o) s (0 < x) q 4 ∧
    Branches (.blez a o) s (x ≤ 0) q 4 ∧
    Branches (.bbs a o) s (x % 2 = 1) q 4 ∧
    Branches (.bbc a o) s (x % 2 = 0) q 4 ∧
    Branches (.cBeqz a c) s (x = 0) qc 2 ∧
    Branches (.cBnez a c) s (x ≠ 0) qc 2 ∧
    Jumps (.j j) s qj ∧
    Jumps (.cJ i) s (s.hart.pc + BitVec.ofInt 64 (2 * i.toInt)) ∧
    JumpsAndLinks (.jal j) s qj 31 (s.hart.pc + 4) ∧
    (s.hart.priv = .supervisor ∨ r ≠ 0 →
      Jumps (.jr a i) s r ∧ JumpsAndLinks (.jalr d a i) s r d (s.hart.pc + 4))

/-- R98: mask-to-scalar moves in an open strip. A bit e is read below RC × GVL, as 0 from there on. -/
def Obligations.MaskToScalar : Prop :=
  ∀ (s : State) (d a b : BitVec 5), a.toNat < 8 → Ready s (mUse a 1) [] →
    let bit (e : Nat) : Bool := decide (e < s.span) && (s.mreg a.toNat).bit e
    let w := (s.x b).toNat
    WritesScalar (.mpopc d a) s (mUse a 1) d (BitVec.ofNat 64 ((List.range s.vl).countP bit)) (Unflagged s) ∧
    (∀ e, e < s.vl → bit e = true → (∀ k, k < e → bit k = false) →
      WritesScalar (.mfirst d a) s (mUse a 1) d (BitVec.ofNat 64 e) (Unflagged s)) ∧
    ((∀ e, e < s.vl → bit e = false) →
      WritesScalar (.mfirst d a) s (mUse a 1) d (BitVec.ofInt 64 (-1)) (Unflagged s)) ∧
    ((∃ e, e < s.vl ∧ bit e = true) → WritesScalar (.many d a) s (mUse a 1) d 1 (Unflagged s)) ∧
    ((∀ e, e < s.vl → bit e = false) → WritesScalar (.many d a) s (mUse a 1) d 0 (Unflagged s)) ∧
    ((∀ e, e < s.vl → bit e = true) → WritesScalar (.mall d a) s (mUse a 1) d 1 (Unflagged s)) ∧
    ((∃ e, e < s.vl ∧ bit e = false) → WritesScalar (.mall d a) s (mUse a 1) d 0 (Unflagged s)) ∧
    (128 ≤ w → WritesScalar (.mtos d a b) s (mUse a 1) d 0 (Unflagged s)) ∧
    (w < 128 → ∀ v : Word, (∀ i, i < 64 → v.getLsbD i = bit (64 * w + i)) →
      WritesScalar (.mtos d a b) s (mUse a 1) d v (Unflagged s))

/-! ### System instructions, loops, the end of a workgroup (spec/05 R90 to R95, R99) -/

/-- R99, R86 and R32: NOP, PREF and FENCEI only go on, CVY begins a convoy in an open strip and only goes on outside
one, and WFI waits at its first turn and goes on at a later one (that it does so unprompted is the model's choice among
those R99 allows). That FENCEI discards no fetched parcel, because the model keeps none, is a reading too. The model's readings
and choices in it: logs 13, 14, 28. -/
def Obligations.HintsAndWaits : Prop :=
  ∀ (s : State) (a : BitVec 5) (i : BitVec 11),
    NoEffect .nop s 4 ∧ NoEffect .cNop s 2 ∧ NoEffect (.pref a i) s 4 ∧ NoEffect .fencei s 4 ∧
    (s.stripOpen = false → NoEffect .cvy s 4 ∧ NoEffect .cCvy s 2) ∧
    (s.stripOpen = true → ∀ j n, (j = .cvy ∧ n = 4 ∨ j = .cCvy ∧ n = 2) →
      ∃ t, exec j s = .next t ∧ GoesOn s t n ∧ SameBytes s t ∧
        t = { s with hart := { s.hart with
          pc := t.hart.pc, loops := t.hart.loops,
          strip := { s.hart.strip with convoy := s.hart.strip.convoy + 1 } } }) ∧
    (s.hart.run ≠ .waiting .wfi → exec .wfi s = .next { s with hart := { s.hart with run := .waiting .wfi } }) ∧
    (s.hart.run = .waiting .wfi →
      ∃ t, exec .wfi s = .next t ∧ GoesOn s t 4 ∧ SameBytes s t ∧
        t = { s with hart := { s.hart with run := .running, pc := t.hart.pc, loops := t.hart.loops } })

/-- R91, R92, R94: LOOP and LEXIT, and what happens when control reaches the end of a loop (seen through NOP). -/
def Obligations.HardwareLoops : Prop :=
  ∀ (s : State) (a : BitVec 5) (i : BitVec 11),
    let start := s.hart.pc + 4
    let stop := start + BitVec.ofNat 64 (2 * i.toNat)
    let fits := s.hart.loops.length < 3 ∧ i ≠ 0 ∧ ∀ l, s.hart.loops.head? = some l → stop.toNat ≤ l.stop.toNat
    (fits → s.x a ≠ 0 → exec (.loop a i) s =
      .next { s with hart := { s.hart with pc := start, loops := ⟨start, stop, s.x a⟩ :: s.hart.loops } }) ∧
    (fits → s.x a = 0 →
      ∃ t, exec (.loop a i) s = .next t ∧ (t.hart.pc, t.hart.loops) = loopBack s.hart.loops stop ∧ OnlyControl s t ∧
        SameBytes s t) ∧
    (3 ≤ s.hart.loops.length → Raises (.loop a i) s (operandFault 0x02 a 1)) ∧
    (∃ t, exec .lexit s = .next t ∧ OnlyControl s t ∧ SameBytes s t ∧
      (t.hart.pc, t.hart.loops) = loopBack (s.hart.loops.drop 1) start) ∧
    ∃ t, exec .nop s = .next t ∧
      ∃ n, (∀ l ∈ s.hart.loops.take n, l.stop = start ∧ l.count = 1) ∧
        ((s.hart.loops.drop n = [] ∧ t.hart.pc = start ∧ t.hart.loops = []) ∨
         ∃ l r, s.hart.loops.drop n = l :: r ∧
           ((l.stop ≠ start ∧ t.hart.pc = start ∧ t.hart.loops = l :: r) ∨
            (l.stop = start ∧ l.count ≠ 1 ∧ t.hart.pc = l.start ∧ t.hart.loops = { l with count := l.count - 1 } :: r)))

/-- R90: at U a JALR or JR to 0 closes an open strip, writes its link and ends the workgroup; the hart is free for the
walker at once when none of its engine operations is outstanding, and issues nothing in either case. The hart's locked
ranges, descriptor slots and matrix state are given up (R133, R142, R160), and the slices of the entry of a governor override
that names the hart (R183). -/
def Obligations.WorkgroupEnd : Prop :=
  ∀ (s u : State) (d a : BitVec 5) (i : BitVec 11),
    s.hart.priv = .user → (s.x a + BitVec.ofInt 64 i.toInt) &&& ~~~1#64 = 0 → s.close = .ok u →
    ∀ j (link : Bool), (j = .jr a i ∧ link = false ∨ j = .jalr d a i ∧ link = true) →
      ∃ t, exec j s = .next t ∧ (∀ k, t.byte k = u.byte k) ∧
        (link = true → Reads t d (s.hart.pc + 4) ∧ ∀ r, r ≠ d → t.x r = u.x r) ∧
        (link = false → ∀ r, t.x r = u.x r) ∧
        t.hart.csr = u.hart.csr ∧ (s.stripOpen = true → t.hart.csr.so = false ∧ t.hart.csr.vl = 0) ∧
        (s.stripOpen = false → u = s) ∧
        ((∃ q, q ∈ u.hart.queues.toList ∧ q.ops ≠ []) → t.hart.run = .ending ∧ t.core = u.core) ∧
        ((∀ q, q ∈ u.hart.queues.toList → q.ops = []) →
          t.hart.run = .absent ∧ t.hart.locks = [] ∧ (∀ k, t.hart.vdesc[k]? = some none ∨ 4 ≤ k) ∧ t.hart.ctl.launch = none ∧
          (∀ m, t.core.matrix = some m → u.core.matrix = some m ∧ m.owner ≠ u.cur) ∧
          t.core.gov = { u.core.gov with
            latest := if u.core.gov.hart = true ↔ u.cur % 2 = 1 then none else u.core.gov.latest })

/-! ### Faults, calls, returns (spec/01 R25 to R28; spec/05 R95, R99) -/

/-- R25, R26, R178: a fault that goes to S while a trap entry is set. Stated of every fault that is not 0x12, not delegated
and no call (0x15 and 0x16 close the strip instead: Calls), and of the event by which an illegal encoding at the pc raises
0x01. What R306 has in place of a fault for an uncorrectable scalar register or buffer entry of an open strip aborts the
strip, to begin again at its GRANT, with no record and no trap. That fstrip is 0 for a fault with no strip open is the model's
reading: log 22. -/
def Obligations.FaultTaken : Prop :=
  ∀ (s : State) (f : FaultInfo),
    let t := s.takeFault f
    (f.replay = false → f.cause ≠ 0x12 → f.cause ≠ 0x15 → f.cause ≠ 0x16 →
      (f.deleg = false ∨ f.cause ≠ 0x0A ∨ s.hart.ui.uivec = 0) → s.hart.sup.tvec ≠ 0 →
      Recorded s t f false ∧ Unwound s t ∧ FaultFrame s t ∧ EntersTrap s t f.cause s.stripOpen (resumeOf s) (loopsOf s)) ∧
    (f.replay = true → s.stripOpen = true → Replays s t) ∧
    Raises .illegalEncoding s (plainFault 0x01)

/-- R25, R27: a fault that goes to S while tvec is 0 stops the hart, and Husk is told. Cause 0x12 freezes the hart at
the faulting instruction, enters no handler, and is reported. Both abort an open strip. The calls (0x15 and 0x16) are not
meant here (Calls). The model's readings and choices in it: log 22 (fstrip is 0 with no strip open), log 46. -/
def Obligations.FaultsThatStop : Prop :=
  ∀ (s : State) (f : FaultInfo),
    let t := s.takeFault f
    f.replay = false →
    (f.cause ≠ 0x12 → f.cause ≠ 0x15 → f.cause ≠ 0x16 → (f.deleg = false ∨ f.cause ≠ 0x0A ∨ s.hart.ui.uivec = 0) → s.hart.sup.tvec = 0 →
      Recorded s t f false ∧ Unwound s t ∧ FaultFrame s t ∧ t.hart.run = .stopped f.cause ∧ t.hart.priv = s.hart.priv ∧
      t.hart.pc = resumeOf s ∧ t.hart.loops = loopsOf s ∧ t.hart.trapLoops = s.hart.trapLoops ∧
      t.hart.sup = { s.hart.sup with tcause := f.cause, tepc := resumeOf s, pp := s.hart.priv, so := s.stripOpen } ∧
      t.reports = s.reports ++ [.trapUnset s.cur f.cause]) ∧
    (f.cause = 0x12 →
      Recorded s t f false ∧ Unwound s t ∧ FaultFrame s t ∧ t.hart.run = .frozen ∧ t.hart.priv = s.hart.priv ∧
      t.hart.pc = s.hart.pc ∧ t.hart.sup = s.hart.sup ∧ t.reports = s.reports ++ [.violation s.cur f.addr])

/-- R25, R172: cause 0x0A of a descriptor with its delegate bit while a user handler is set: the handler is entered with
the resume address, at the privilege the hart has, and tcause, tepc and tstatus stay. The model's readings and choices in
it: log 22 (fstrip is 0 with no strip open). -/
def Obligations.FaultDelegated : Prop :=
  ∀ (s : State) (f : FaultInfo), f.replay = false → f.cause = 0x0A → f.deleg = true → s.hart.ui.uivec ≠ 0 →
    let t := s.takeFault f
    Recorded s t f true ∧ SameBytes s t ∧ t.hart.pc = s.hart.ui.uivec ∧ t.hart.priv = s.hart.priv ∧
    t.hart.sup = s.hart.sup ∧ t.hart.ui.uiepc = resumeOf s ∧ t.hart.ui.inHandler = true ∧ t.hart.ui.kind = 2 ∧
    t.hart.ui.queue = 0 ∧ t.hart.ui.value = 0 ∧ t.hart.loops = [] ∧ t.hart.ui.loops = loopsOf s ∧
    t.x 30 = s.hart.ui.uistk ∧ (∀ r : BitVec 5, 24 ≤ r.toNat → r ≠ 30 → t.x r = 0) ∧
    (∀ r : BitVec 5, r.toNat < 24 → t.x r = if s.stripOpen then (if r = 0 then 0 else s.hart.strip.cp.regs[r.toNat]) else s.x r) ∧
    t.hart.csr.so = false ∧ t.reports = s.reports

/-- R25, R99: ECALL and EBREAK close an open strip and trap with causes 0x15 and 0x16, to resume behind them. Said of a hart
with a trap entry whose strip closes: what they do while tvec is 0, and where the close fails, is not stated here. The model's
readings and choices in it: log 22 (fstrip is 0 with no strip open). -/
def Obligations.Calls : Prop :=
  ∀ (s u : State), s.close = .ok u → s.hart.sup.tvec ≠ 0 →
    ∀ i c, (i = .ecall ∧ c = 0x15#8 ∨ i = .ebreak ∧ c = 0x16#8) →
      ∃ t, exec i s = .next t ∧ Recorded s t (plainFault c) false ∧ (∀ k, t.byte k = u.byte k) ∧ (∀ r, t.x r = u.x r) ∧
        t.hart.csr = u.hart.csr ∧ (s.stripOpen = false → u = s) ∧
        (s.stripOpen = true → t.hart.csr.so = false ∧ t.hart.csr.vl = 0 ∧ t.hart.strip.buf = []) ∧
        t.hart.sup = { u.hart.sup with tcause := c, tepc := s.hart.pc + 4, pp := u.hart.priv, so := s.stripOpen } ∧
        t.hart.priv = .supervisor ∧ t.hart.pc = s.hart.sup.tvec ∧ t.hart.run = .running ∧ t.hart.loops = [] ∧
        t.hart.trapLoops = (if s.hart.priv = .user then s.hart.loops else s.hart.trapLoops) ∧
        t = { u with hart := { u.hart with
          run := .running, priv := .supervisor, pc := t.hart.pc, loops := [], trapLoops := t.hart.trapLoops,
          sup := t.hart.sup, record := t.hart.record } }

/-- R99, R95: TRET at S returns to tepc at the privilege of tstatus.PP; a return to U takes up the loops set aside, a return
to S restores none and keeps them. At U it raises 0x01. -/
def Obligations.TrapReturn : Prop :=
  ∀ (s : State),
    (s.hart.priv = .user → Raises .tret s (plainFault 0x01)) ∧
    (s.hart.priv = .supervisor → s.hart.sup.pp = .user → exec .tret s =
      .next { s with hart := { s.hart with priv := .user, pc := s.hart.sup.tepc, loops := s.hart.trapLoops, trapLoops := [] } }) ∧
    (s.hart.priv = .supervisor → s.hart.sup.pp = .supervisor → exec .tret s =
      .next { s with hart := { s.hart with pc := s.hart.sup.tepc, loops := [] } })

/-! ### Control and status registers -/

/-- R20, R21, R96: reads and writes of every CSR. A CSR with behaviour of its own on a write (govctl, xlat2, the knot
registers) is written as its own rule says (R24, R300, R54); a write to rgntab waits for what is under way in the partition:
engine operations, held writes, an instruction that goes on over its turns (R200); and a knot register that holds an
uncorrectable code word raises 0x11 instead (R306). The model's readings and choices in it: logs 3, 83, 85. -/
def Obligations.CsrAccess : Prop :=
  ∀ (s : State) (d a : BitVec 5) (c : BitVec 11) (old : Word), Permitted s c → s.csr c = some old →
    let inUse : Prop := (∃ w ∈ s.fabric.held, w.part = s.hart.ctl.part) ∨
      ∃ h, (h = s.cur ∨ ∃ p ∈ s.harts, p.1 = h) ∧ (s.hartAt h).ctl.part = s.hart.ctl.part ∧
        ((s.hartAt h).claim ≠ none ∨ ∃ q : Fin 4, ((s.hartAt h).queues.get q).ops ≠ [])
    let spoilt : Prop := ∃ n : BitVec 3, c.toNat = 0x020 + n.toNat ∧ Spoilt s (73 + n.toNat)
    let stops (i : Instr) : Prop := ∃ v e,
      exec i s = .next (v.takeFault (operandFault 0x11 (c.setWidth 5) 7)) ∧ Logs s v e ∧ e.kind = 2 ∧ e.unit = 4 ∧
      v = { s with
        free := v.free, reports := v.reports,
        repair := { s.repair with rowErrors := v.repair.rowErrors, log := v.repair.log } }
    (∀ i ∈ [Instr.csrr d c, .csrs d 0 c, .csrc d 0 c], (¬ spoilt → CsrReads i s d old) ∧ (spoilt → stops i)) ∧
    ∀ i v, (i = .csrw d a c ∧ v = s.x a ∨ a ≠ 0 ∧ i = .csrs d a c ∧ v = old ||| s.x a ∨
        a ≠ 0 ∧ i = .csrc d a c ∧ v = old &&& ~~~s.x a) →
      (¬ (0x020 ≤ c.toNat ∧ c.toNat ≤ 0x027) → c.toNat ≠ 0x210 → c.toNat ≠ 0x221 →
        (c.toNat = 0x230 → (tget s.parts s.hart.ctl.part).isSome = true ∧ ¬ inUse) → CsrWrites i s d c old v) ∧
      (c.toNat = 0x230 → inUse → exec i s = .next { s with hart := { s.hart with run := .waiting .publish } }) ∧
      (c.toNat = 0x210 → ∃ t, exec i s = .next t ∧ CsrFrame s t d old ∧ t.csr c = some (v &&& bits 6 0) ∧
        ∀ k, k ≠ c → t.csr k = s.csr k) ∧
      (c.toNat = 0x221 → ∃ t, exec i s = .next t ∧ CsrFrame s t d old ∧ (∀ k, k ≠ c → t.csr k = s.csr k) ∧
        (v.getLsbD 63 = true ∧ (∃ r, r ∈ (s.partAt s.hart.ctl.part).roots ∧ r &&& bits 51 12 = v &&& bits 51 12) →
          t.csr c = some (v &&& (bits 63 63 ||| bits 51 12)) ∧ t.reports = s.reports) ∧
        (¬ (v.getLsbD 63 = true ∧ ∃ r, r ∈ (s.partAt s.hart.ctl.part).roots ∧ r &&& bits 51 12 = v &&& bits 51 12) →
          t.csr c = some old ∧ t.reports = s.reports ++ [.rootRefused s.cur v])) ∧
      (∀ n : BitVec 3, c.toNat = 0x020 + n.toNat → knotValid n v = true → s.ownMatrix ≠ none →
          s.contractCheck [] (bandUse (c.setWidth 5) 5) = none → (spoilt → stops i) ∧ (¬ spoilt →
        ∃ t, exec i s = .next t ∧ Reads t d old ∧ RegistersBut s t d ∧ GoesOn s t 4 ∧ SameBytes s t ∧
          t.knotReg n = (if n.getLsbD 0 then v &&& knotBMask else v) ∧ (∀ k, k ≠ n → t.knotReg k = s.knotReg k) ∧
          t = { s with
            hart := { s.hart with
              regs := t.hart.regs, pc := t.hart.pc, loops := t.hart.loops, upsets := sameUpsets s t,
              strip := { s.hart.strip with written := t.hart.strip.written } },
            core := { s.core with matrix := s.core.matrix.map fun m =>
              { m with
                knots := (t.core.matrix.map Matrix.knots).getD m.knots,
                damaged := m.damaged &&& ~~~(1#41 <<< (32 + n.toNat)),
                weak := m.weak &&& ~~~(1#41 <<< (32 + n.toNat)) } } }))

/-- R20, R28: a CSR instruction at U that names a supervisor number raises 0x01, one that names an unassigned number 0x02
with REG and OPD; the assigned numbers are those of R21. -/
def Obligations.CsrPrivilege : Prop :=
  ∀ (s : State) (d a : BitVec 5) (c : BitVec 11),
    (s.csr c).isSome = assigned c.toNat ∧
    ∀ i, i ∈ [Instr.csrr d c, .csrw d a c, .csrs d a c, .csrc d a c] →
      (s.hart.priv = .user → 0x200 ≤ c.toNat → c.toNat < 0x400 → Raises i s (plainFault 0x01)) ∧
      (assigned c.toNat = false → (s.hart.priv = .supervisor ∨ ¬ (0x200 ≤ c.toNat ∧ c.toNat < 0x400)) →
        Raises i s (operandFault 0x02 (c.setWidth 5) 5))

/-! ### Vector instructions (spec/06) -/

/-- R106, R107: floating-point arithmetic, each result rounded once by RNE32 (`rounded`), minima and maxima, and the bit
operations, which set no flag. -/
def Obligations.VectorFloat : Prop :=
  ∀ (s : State) (d a : BitVec 5) (b : BOp) (m : BitVec 3),
    (Operable s d a b m →
      ComputesF (.vaddF d a b m) s d a b m (fun x y => rounded ((val32 x).add (val32 y))) ∧
      ComputesF (.vsubF d a b m) s d a b m (fun x y => rounded ((val32 x).add (val32 y).neg)) ∧
      ComputesF (.vmulF d a b m) s d a b m (fun x y => rounded ((val32 x).mul (val32 y))) ∧
      ComputesF (.vdivF d a b m) s d a b m (fun x y => rounded ((val32 x).div (val32 y))) ∧
      (∃ op : Elem → Elem → Elem, (∀ x y, Extreme (fun u v => u.lt v) or x y (op x y)) ∧
        ComputesF (.vminF d a b m) s d a b m (fun x y => unflagged (op x y))) ∧
      (∃ op : Elem → Elem → Elem, (∀ x y, Extreme (fun u v => v.lt u) and x y (op x y)) ∧
        ComputesF (.vmaxF d a b m) s d a b m (fun x y => unflagged (op x y))) ∧
      ComputesF (.vsgnjF d a b m) s d a b m (fun x y => unflagged (y.extractLsb' 31 1 ++ x.extractLsb' 0 31))) ∧
    (OperableFused s d a b m →
      ComputesFused (.vfma d a b m) s d a b m (fun x y z => rounded ((val32 x).fma (val32 y) (val32 z))) ∧
      ComputesFused (.vfms d a b m) s d a b m (fun x y z => rounded ((val32 x).fma (val32 y) (val32 z).neg)) ∧
      ComputesFused (.vfnma d a b m) s d a b m (fun x y z => rounded ((val32 x).neg.fma (val32 y) (val32 z).neg)) ∧
      ComputesFused (.vfnms d a b m) s d a b m (fun x y z => rounded ((val32 x).neg.fma (val32 y) (val32 z)))) ∧
    (OperableUnary s d a m →
      ComputesUnary (.vsqrt d a m) s d a m (fun x => rounded (val32 x).sqrt) ∧
      ComputesUnary (.vrsq d a m) s d a m (fun x => rounded (val32 x).rsqrt) ∧
      ComputesUnary (.vrcp d a m) s d a m (fun x => rounded (Num.one.div (val32 x))) ∧
      ComputesUnary (.vabsF d a m) s d a m (fun x => unflagged (0#1 ++ x.extractLsb' 0 31)) ∧
      ComputesUnary (.vnegF d a m) s d a m (fun x => unflagged (~~~x.extractLsb' 31 1 ++ x.extractLsb' 0 31)))

/-- R109: integer arithmetic on INT32 elements. -/
def Obligations.VectorInteger : Prop :=
  ∀ (s : State) (d a : BitVec 5) (b : BOp) (m : BitVec 3), Operable s d a b m →
    let sat (v : Int) : Elem := BitVec.ofInt 32 (if v < -2147483648 then -2147483648 else if 2147483647 < v then 2147483647 else v)
    let sh (e : Nat) : Nat := match b with
      | .vv n => (s.elem n e).toNat % 32
      | .vs n => (s.x n).toNat % 32
      | .vi n => n.toNat
    let shifts (i : Instr) (op : Elem → Nat → Elem) : Prop :=
      WritesGroup i s (s.vUse a 1 ++ s.bUse b ++ pUse m) d (onActive s m fun e => op (s.elem a e) (sh e)) (Unflagged s)
    ComputesI (.vadd d a b m) s d a b m (fun x y => x + y) ∧
    ComputesI (.vsub d a b m) s d a b m (fun x y => x - y) ∧
    ComputesI (.vmul d a b m) s d a b m (fun x y => BitVec.ofInt 32 (x.toInt * y.toInt)) ∧
    ComputesI (.vmulh d a b m) s d a b m (fun x y => BitVec.ofInt 32 (x.toInt * y.toInt / 2 ^ 32)) ∧
    ComputesI (.vmin d a b m) s d a b m (fun x y => BitVec.ofInt 32 (min x.toInt y.toInt)) ∧
    ComputesI (.vmax d a b m) s d a b m (fun x y => BitVec.ofInt 32 (max x.toInt y.toInt)) ∧
    ComputesI (.vminu d a b m) s d a b m (fun x y => BitVec.ofNat 32 (min x.toNat y.toNat)) ∧
    ComputesI (.vmaxu d a b m) s d a b m (fun x y => BitVec.ofNat 32 (max x.toNat y.toNat)) ∧
    ComputesI (.vand d a b m) s d a b m (fun x y => x &&& y) ∧
    ComputesI (.vor d a b m) s d a b m (fun x y => x ||| y) ∧
    ComputesI (.vxor d a b m) s d a b m (fun x y => x ^^^ y) ∧
    ComputesI (.vsadd d a b m) s d a b m (fun x y => sat (x.toInt + y.toInt)) ∧
    ComputesI (.vssub d a b m) s d a b m (fun x y => sat (x.toInt - y.toInt)) ∧
    shifts (.vsll d a b m) (fun x n => BitVec.ofNat 32 (x.toNat * 2 ^ n)) ∧
    shifts (.vsrl d a b m) (fun x n => BitVec.ofNat 32 (x.toNat / 2 ^ n)) ∧
    shifts (.vsra d a b m) (fun x n => BitVec.ofInt 32 (x.toInt / 2 ^ n))

/-- R108: compares write a mask and set no flag. -/
def Obligations.VectorCompares : Prop :=
  ∀ (s : State) (d a : BitVec 5) (b : BOp) (m : BitVec 3), d.toNat < 8 → Aligned s a → AlignedB s b →
    Ready s (s.vUse a 1 ++ s.bUse b ++ pUse m) (mUse d 0) →
    let x (e : Nat) := val32 (s.elem a e)
    let y (e : Nat) := val32 (s.bFloat b e)
    let u (e : Nat) := s.elem a e
    let v (e : Nat) := s.bInt b e
    Compares (.vfeq d a b m) s d a b m (fun e => (x e).eqv (y e)) ∧
    Compares (.vfne d a b m) s d a b m (fun e => !(x e).eqv (y e)) ∧
    Compares (.vflt d a b m) s d a b m (fun e => (x e).lt (y e)) ∧
    Compares (.vfle d a b m) s d a b m (fun e => (x e).lt (y e) || (x e).eqv (y e)) ∧
    Compares (.vfgt d a b m) s d a b m (fun e => (y e).lt (x e)) ∧
    Compares (.vfge d a b m) s d a b m (fun e => (y e).lt (x e) || (x e).eqv (y e)) ∧
    Compares (.vfuo d a b m) s d a b m (fun e => (x e).isNan || (y e).isNan) ∧
    Compares (.veq d a b m) s d a b m (fun e => decide (u e = v e)) ∧
    Compares (.vne d a b m) s d a b m (fun e => decide (u e ≠ v e)) ∧
    Compares (.vlt d a b m) s d a b m (fun e => decide ((u e).toInt < (v e).toInt)) ∧
    Compares (.vltu d a b m) s d a b m (fun e => decide ((u e).toNat < (v e).toNat)) ∧
    Compares (.vle d a b m) s d a b m (fun e => decide ((u e).toInt ≤ (v e).toInt)) ∧
    Compares (.vleu d a b m) s d a b m (fun e => decide ((u e).toNat ≤ (v e).toNat)) ∧
    Compares (.vgt d a b m) s d a b m (fun e => decide ((v e).toInt < (u e).toInt)) ∧
    Compares (.vgtu d a b m) s d a b m (fun e => decide ((v e).toNat < (u e).toNat))

/-- R108, R110, R111, R256: classification, the conversions by the value each gives, and VRNDB, whose active elements go
through the narrowing chain of ncarry in ascending order. -/
def Obligations.VectorConversions : Prop :=
  ∀ (s : State) (d a : BitVec 5) (b : BOp) (m : BitVec 3),
    (OperableUnary s d a m →
      ComputesUnary (.vfcls d a m) s d a m (fun x => unflagged (BitVec.ofNat 32 (2 ^ fpClass x))) ∧
      ComputesUnary (.vcvfI d a m) s d a m (fun x => rounded ⟨.fin (decide (x.toInt < 0)) x.toInt.natAbs 0, 0⟩) ∧
      ConvertsBy (.vcviF d a m) s d a m (ToInt NearestInt) ∧
      ConvertsBy (.vcviFz d a m) s d a m (ToInt TruncatedInt) ∧
      ConvertsBy (.vflr d a m) s d a m (fun x r => Floors x r.1 ∧ r.2 = 0) ∧
      ConvertsBy (.vfrac d a m) s d a m Fractions ∧
      ConvertsBy (.vexpn d a m) s d a m (fun x r => Exponents (s.hart.ctl.errata.getLsbD 2) x r.1 ∧ r.2 = 0) ∧
      ∃ (q : List (Nat × Nat)) (fl : FFlags) (c : Chain),
        Chained (fun x => Narrows rowBf16 rowF32 s.hart.csr.rmode (s.hart.csr.step.extractLsb' 0 16) (val32 x))
          (((List.range s.vl).filter (s.active m)).map fun e => (e, s.elem a e)) s.hart.csr.ncarry q fl c ∧
        ∃ t, exec (.vrndb d a m) s = .next t ∧
          WroteGroup s t d (fun e => (q.lookup e).map fun p => BitVec.ofNat 32 (p * 65536)) ∧ Ored s t fl ∧
          t.hart.csr.ncarry = c ∧ t.hart.regs = s.hart.regs ∧ t.hart.mregs = s.hart.mregs ∧
          t.hart.upsets = { s.hart.upsets with vector := t.hart.upsets.vector, weak := weakBut vectorCells s t } ∧
          VectorStep s t (s.vUse a 1 ++ pUse m) (s.vUse d 0)) ∧
    (Operable s d a b m →
      let n (e : Nat) : Int := match b with
        | .vv n => (s.elem n e).toInt
        | .vs n => (s.x n).toInt
        | .vi n => n.toInt
      ∃ op : Elem → Int → Elem × FFlags, (∀ x k, Scales x k (op x k)) ∧
        let f (e : Nat) := op (s.elem a e) (n e)
        WritesGroup (.vldexp d a b m) s (s.vUse a 1 ++ s.bUse b ++ pUse m) d (onActive s m fun e => (f e).1) (Flagged s · m f))

/-- R112, R113, R50, R51: reductions into a scalar, scans into a group. The unordered forms complete while det.DET is 0. -/
def Obligations.ReductionsAndScans : Prop :=
  ∀ (s : State) (d a b : BitVec 5) (m : BitVec 3), Aligned s a →
    let es := (List.range s.vl).filter (s.active m)
    let l := es.map (s.elem a)
    let init : Elem := (s.x d).setWidth 32
    let c : Elem := (s.x b).setWidth 32
    let reads := s.vUse a 1 ++ pUse m
    let dots := dotOrdered init (es.map fun e => (s.elem a e, s.elem b e))
    (Ready s reads [] →
      WritesScalar (.vsumO d a m) s reads d ((sumOrdered init l).1.setWidth 64) (Ored s · (sumOrdered init l).2) ∧
      (s.hart.csr.det = false →
        ∃ r f, TreeSums init l r f ∧ WritesScalar (.vsumU d a m) s reads d (r.setWidth 64) (Ored s · f)) ∧
      (∃ r, ExtremeOf (fun u v => v.lt u) and init l r ∧ WritesScalar (.vmaxr d a m) s reads d (r.setWidth 64) (Unflagged s)) ∧
      (∃ r, ExtremeOf (fun u v => u.lt v) or init l r ∧ WritesScalar (.vminr d a m) s reads d (r.setWidth 64) (Unflagged s)) ∧
      WritesScalar (.visum d a m) s reads d
        ((BitVec.ofInt 32 (init.toInt + (l.map BitVec.toInt).sum)).signExtend 64) (Unflagged s)) ∧
    (Aligned s b → Ready s (s.vUse a 1 ++ s.vUse b 2 ++ pUse m) [] →
      WritesScalar (.vdotO d a b m) s (s.vUse a 1 ++ s.vUse b 2 ++ pUse m) d (dots.1.setWidth 64) (Ored s · dots.2)) ∧
    (Aligned s d → Ready s reads (s.vUse d 0) →
      WritesGroup (.vscanO d a b m) s reads d
        (onActive s m fun e => (sumOrdered c (((List.range (e + 1)).filter (s.active m)).map (s.elem a))).1)
        (Ored s · (sumOrdered c l).2) ∧
      (s.hart.csr.det = false → ∃ r f, Scans c l r f ∧
        WritesGroup (.vscanU d a b m) s reads d (fun e => (es.zip r).lookup e) (Ored s · f)))

/-- R114: permutations and moves. -/
def Obligations.Permutations : Prop :=
  ∀ (s : State) (d a : BitVec 5) (b : BOp) (n : BitVec 5) (m : BitVec 3),
    let k := match b with
      | .vv _ => 0
      | .vs r => (s.x r).toNat
      | .vi r => r.toNat
    let maskOf (r : BitVec 5) (e : Nat) : Bool := decide (e < s.span) && (s.mreg r.toNat).bit e
    (OperableUnary s d a m → (∀ r, b ≠ .vv r) → d ≠ a →
      WritesGroup (.vslup d a b m) s (s.vUse a 1 ++ pUse m) d
        (fun e => if s.active m e ∧ k ≤ e then some (s.elem a (e - k)) else none) (Unflagged s) ∧
      WritesGroup (.vsldn d a b m) s (s.vUse a 1 ++ pUse m) d
        (onActive s m fun e => if e + k < s.vl then s.elem a (e + k) else 0) (Unflagged s)) ∧
    (Operable s d a (.vv n) m → d ≠ a → d ≠ n →
      WritesGroup (.vperm d a n m) s (s.vUse a 1 ++ s.vUse n 2 ++ pUse m) d
        (onActive s m fun e => if (s.elem n e).toNat < s.vl then s.elem a (s.elem n e).toNat else 0) (Unflagged s)) ∧
    (Aligned s d → Aligned s a → d ≠ a → n.toNat < 8 → Ready s (s.vUse a 1 ++ mUse n 2) (s.vUse d 0) →
      let picked := (List.range s.vl).filter (maskOf n)
      WritesGroup (.vcomp d a n) s (s.vUse a 1 ++ mUse n 2) d
        (fun e => match picked[e]? with
          | some i => some (s.elem a i)
          | none => if s.hart.csr.tp then some 0 else none) (Unflagged s)) ∧
    (Aligned s d → n.toNat < 8 → Ready s (mUse n 1 ++ pUse m) (s.vUse d 0) →
      WritesGroup (.viota d n m) s (mUse n 1 ++ pUse m) d
        (onActive s m fun e => BitVec.ofNat 32 ((List.range e).countP fun i => s.active m i && maskOf n i)) (Unflagged s)) ∧
    (Operable s d a b m →
      WritesGroup (.vmerge d a b m) s (s.vUse a 1 ++ s.bUse b ++ pUse m) d
        (fun e => some (if m ≠ 0 ∧ maskOf (m.setWidth 5) e = false then s.elem a e else s.bInt b e)) (Unflagged s)) ∧
    (OperableUnary s d a m →
      WritesGroup (.vmvVv d a m) s (s.vUse a 1 ++ pUse m) d (onActive s m fun e => s.elem a e) (Unflagged s)) ∧
    (Aligned s d → (∀ r, b ≠ .vv r) → Ready s (pUse m) (s.vUse d 0) →
      WritesGroup (.vmvVsVi d b m) s (pUse m) d (onActive s m fun _ => s.bInt b 0) (Unflagged s)) ∧
    (Aligned s a → Ready s (s.vUse a 1) [] →
      WritesScalar (.vext d a n) s (s.vUse a 1) d
        (if (s.x n).toNat < s.span then (s.elem a (s.x n).toNat).setWidth 64 else 0) (Unflagged s))

/-- R115: mask instructions. -/
def Obligations.MaskInstructions : Prop :=
  ∀ (s : State) (d a b : BitVec 5) (m : BitVec 3), d.toNat < 8 →
    let bit (r : BitVec 5) (e : Nat) : Bool := decide (e < s.span) && (s.mreg r.toNat).bit e
    let reads := mUse a 1 ++ mUse b 2 ++ pUse m
    (a.toNat < 8 → b.toNat < 8 → Ready s reads (mUse d 0) →
      WritesMask (.mand d a b m) s reads d (onActive s m fun e => bit a e && bit b e) ∧
      WritesMask (.mor d a b m) s reads d (onActive s m fun e => bit a e || bit b e) ∧
      WritesMask (.mxor d a b m) s reads d (onActive s m fun e => bit a e ^^ bit b e) ∧
      WritesMask (.mandn d a b m) s reads d (onActive s m fun e => bit a e && !bit b e)) ∧
    (a.toNat < 8 → Ready s (mUse a 1 ++ pUse m) (mUse d 0) →
      WritesMask (.mnot d a m) s (mUse a 1 ++ pUse m) d (onActive s m fun e => !bit a e)) ∧
    (Ready s (pUse m) (mUse d 0) →
      WritesMask (.mset d m) s (pUse m) d (onActive s m fun _ => true) ∧
      WritesMask (.mclr d m) s (pUse m) d (onActive s m fun _ => false)) ∧
    (Aligned s a → Ready s (s.vUse a 1 ++ pUse m) (mUse d 0) →
      WritesMask (.mfromv d a m) s (s.vUse a 1 ++ pUse m) d (onActive s m fun e => decide (s.elem a e ≠ 0)))

/-- The elementwise instructions of majors 0x10 to 0x14 with three operands. -/
def elementwiseInstrs (d a : BitVec 5) (b : BOp) (m : BitVec 3) : List Instr :=
  [.vaddF d a b m, .vsubF d a b m, .vmulF d a b m, .vdivF d a b m, .vminF d a b m, .vmaxF d a b m, .vsgnjF d a b m,
   .vadd d a b m, .vsub d a b m, .vmul d a b m, .vmulh d a b m, .vmin d a b m, .vmax d a b m, .vminu d a b m,
   .vmaxu d a b m, .vand d a b m, .vor d a b m, .vxor d a b m, .vsll d a b m, .vsrl d a b m, .vsra d a b m,
   .vsadd d a b m, .vssub d a b m, .vldexp d a b m]

/-- R19, R28, R30, R104: what an elementwise instruction raises at issue, in the order of R28: a misaligned group 0x02,
no open strip 0x05, a stale source 0x04, a destination read before its first write 0x03; then a source that holds an
uncorrectable code word 0x11 (R306), which is counted and recorded; and an unordered form while det.DET is 1 raises 0x06. The
model's readings and choices in it: logs 18, 19, 47, 83. -/
def Obligations.VectorIssueFaults : Prop :=
  ∀ (s : State) (d a n : BitVec 5) (b : BOp) (m : BitVec 3) (i : Instr), i ∈ elementwiseInstrs d a b m →
    let reads := s.vUse a 1 ++ s.bUse b ++ pUse m
    (s.stripOpen = false → Raises i s (plainFault 0x05)) ∧
    (s.stripOpen = true →
      (¬ Aligned s d → Raises i s (operandFault 0x02 d 0)) ∧
      (Aligned s d → ¬ Aligned s a → Raises i s (operandFault 0x02 a 1)) ∧
      (Aligned s d → Aligned s a → b = .vv n → ¬ Aligned s n → Raises i s (operandFault 0x02 n 2)) ∧
      (Aligned s d → Aligned s a → AlignedB s b →
        (∀ pre u post, reads = pre ++ u :: post → (∀ v ∈ pre, s.unitStale v.unit = false) → s.unitStale u.unit = true →
          Raises i s (operandFault 0x04 u.reg u.opd)) ∧
        ((∀ u ∈ reads, s.unitStale u.unit = false) →
          ∀ pre w post, s.vUse d 0 = pre ++ w :: post → Ready s reads pre →
            (s.hart.strip.readFirst.getLsbD w.unit = true ∨
              (∃ u ∈ reads, u.unit = w.unit) ∧ s.hart.strip.written.getLsbD w.unit = false) →
            Raises i s (operandFault 0x03 w.reg 0)) ∧
        ((∀ u ∈ reads, s.unitStale u.unit = false) →
          (∀ w ∈ s.vUse d 0, s.hart.strip.readFirst.getLsbD w.unit = false ∧
            ((∃ u ∈ reads, u.unit = w.unit) → s.hart.strip.written.getLsbD w.unit = true)) →
          ∀ pre u post, reads = pre ++ u :: post → (∀ v ∈ pre, ¬ Spoilt s v.unit) → Spoilt s u.unit →
            ∃ v e, exec i s = .next (v.takeFault (operandFault 0x11 u.reg 7)) ∧ Logs s v e ∧ e.kind = 2 ∧ e.unit = 3 ∧
              v = { s with
                free := v.free, reports := v.reports,
                repair := { s.repair with sliceErrors := v.repair.sliceErrors, log := v.repair.log } })) ∧
      (s.hart.csr.det = true → Aligned s a →
        Raises (.vsumU d a m) s (plainFault 0x06) ∧ (Aligned s d → Raises (.vscanU d a n m) s (plainFault 0x06))))

/-! ### Encoding, fetch and issue (spec/03; spec/01 R28; spec/05 R93) -/

/-- R59, R61, R64, R69: words written out from the encoding tables and the instructions they stand for. -/
def Obligations.DecodesSpecWords : Prop :=
  let base (maj : BitVec 6) (rest : BitVec 23) : BitVec 32 := 0b110#3 ++ maj ++ rest
  let reads (w : BitVec 32) (i : Instr) : Prop := decodeParcels [w.extractLsb' 16 16, w.extractLsb' 0 16] = .ok (i, 4)
  reads (base 0x01 (0b00#2 ++ 3#5 ++ 1#5 ++ 2#5 ++ 0b000000#6)) (.add 3 1 2) ∧
  reads (base 0x02 (0b00#2 ++ 5#5 ++ 5#5 ++ 0b11111111000#11)) (.addi 5 5 (-8)) ∧
  reads (base 0x08 (0b001#3 ++ 7#5 ++ 0b111111111111110#15)) (.bnez 7 (-2)) ∧
  reads (base 0x09 0b00000000000000000000011#23) (.j 3) ∧
  reads (base 0x10 (0b00#2 ++ 4#5 ++ 8#5 ++ 12#5 ++ 1#3 ++ 0#3)) (.vaddF 4 8 (.vv 12) 1) ∧
  reads (base 0x11 (0b01#2 ++ 0#5 ++ 16#5 ++ 5#5 ++ 0#3 ++ 0#3)) (.vfma 0 16 (.vs 5) 0) ∧
  decodeParcels [0x0978#16] = .ok (.cAddi 5 (-8), 2) ∧
  decodeParcels [0xEC01#16, 0x0008#16, 0xD800#16, 0x5000#16] = .ok (.tmma 0 10 0 12 4 true, 8) ∧
  decodeParcels [0xEC01#16, 0x0001#16, 0xD800#16, 0x5000#16] = .error .reservedFlags

/-- R59 to R72: decode and encode agree. The bytes of every well-formed instruction that has a word, whatever follows
them, decode to it with its length of 2, 4 or 8. -/
def Obligations.RoundTrip : Prop :=
  ∀ (i : Instr), i.wellFormed = true → i.hasWord = true → ∀ rest,
    decode (encodeBytes i ++ rest) = .ok (i, (encodeBytes i).length) ∧
    ((encodeBytes i).length = 2 ∨ (encodeBytes i).length = 4 ∨ (encodeBytes i).length = 8)

/-- R59 to R72, the other direction: parcels that decode are the encoding of the instruction they decode to, which is
well-formed; no bit of an instruction's parcels is ignored. -/
def Obligations.DecodeExact : Prop :=
  ∀ (ps : List Half) (i : Instr) (n : Nat), decodeParcels ps = .ok (i, n) →
    i.wellFormed = true ∧ i.hasWord = true ∧ n = 2 * (encode i).length ∧ encode i ++ ps.drop (encode i).length = ps

/-- R59, R60, R211: what is fetched. A parcel is the two bytes at its location, the low one first; it is translated as any
access is; one in vault space, in a skim region, on a page that gives no fetch, or untranslatable raises 0x07 with its
address, one outside the partition 0x12, an uncorrectable one 0x11, and the hart waits for one that has not arrived. The first
parcel's top bits say how many follow, and the lowest-addressed parcel that cannot be fetched decides. The model's readings
and choices in it: logs 13, 28. -/
def Obligations.FetchReads : Prop :=
  ∀ (s : State),
    (∀ va,
      let outside : Prop := inVaultSpace va = true ∨ (s.regionAt s.hart.ctl.part s.hart.sup.xlat2 va).isSome = true
      let stops (u : State) (c : BitVec 8) : Prop := s.fetchParcel va = (u, .error (.fault (accessFault c va false)))
      (outside → stops s 0x07) ∧
      (¬ outside → ∀ t p, s.reachAddr s.fetcher va .fetch = (t, p) →
        (∀ h, p = .hit h →
          (s.unreadable h.loc 2 = false → s.fetchParcel va =
            (t.noteRead h.loc 2, .ok (BitVec.ofNat 16 ((s.byte h.loc).toNat + 256 * (s.byte (h.loc + 1)).toNat)))) ∧
          (s.unreadable h.loc 2 = true → stops (t.noteRead h.loc 2) 0x11)) ∧
        (∀ c, p = .fault c → stops t 0x07) ∧ (p = .outside → stops t 0x12) ∧
        (p = .held → s.fetchParcel va = (t, .error (.held va))))) ∧
    ∀ ps t, Parcels s s.hart.pc ps t →
      (∀ p, ps.head? = some p → ps.length = parcelsOf p → s.fetch = (drew t, .ok ps)) ∧
      ((∀ p, ps.head? = some p → ps.length < parcelsOf p) →
        ∀ u e, t.fetchParcel (s.hart.pc + BitVec.ofNat 64 (2 * ps.length)) = (u, .error e) →
          let v := drew u
          s.fetch = (v, .error e) ∧ (∀ f, e = .fault f → s.issueNext = .next (s.walkNotes (v.takeFault f))) ∧
          ∀ va, e = .held va →
            s.issueNext = .next (s.walkNotes { v with hart := { v.hart with run := .waiting (.held va) } }))

/-- R28 items 2 and 3, R70, R93, R306: once its parcels are fetched, an instruction that does not decode raises 0x01; one that
spans the end of an active loop, or is a control transfer at its end, 0x0E; one outside the declared feature set 0x17. One that
reads an uncorrectable scalar register raises what is judged before any operand is read, where that does not hang on the value:
where it raises a cause of item 3 with each of three values there, the last of those in the order of item 3; else it aborts the
open strip, to be replayed, or raises 0x11 outside one, with a record. Any other is executed. What its walks leave in the
counts and the log of errors is noted with each (StepRunsDecoded says how). The model's readings and choices in it: logs 83,
85. -/
def Obligations.IssueOrder : Prop :=
  ∀ (s t : State) (ps : List Half), s.fetch = (t, .ok ps) →
    let ends (u : State) : Prop := s.issueNext = .next (s.walkNotes u)
    (∀ e, decodeParcels ps = .error e → ends (t.takeFault (plainFault 0x01))) ∧
    ∀ i n, decodeParcels ps = .ok (i, n) →
      let p := t.hart.pc.toNat
      let cut : Prop := ∃ l ∈ t.hart.loops, (p < l.stop.toNat ∧ l.stop.toNat < p + n) ∨ (Machine.Instr.transfers i = true ∧ p + n = l.stop.toNat)
      let spoilt (r : BitVec 5) : Prop := r ≠ 0 ∧ t.hart.upsets.scalar.getLsbD r.toNat = true
      let order : List (BitVec 8) := [0x01, 0x02, 0x05, 0x06, 0x0F, 0x04, 0x03, 0x0B, 0x0C, 0x0D]
      let values : List Word := [0, 1, 0x1000000000]
      let tried (v : Word) : State := { t with hart := { t.hart with
        regs := Vector.ofFn fun k => if t.hart.upsets.scalar.getLsbD k.val then v else t.hart.regs[k],
        upsets := { t.hart.upsets with scalar := 0 }, record := { t.hart.record with fcause := BitVec.allOnes 64 } } }
      let raises (v : Word) (k : Nat) (r : FaultRecord) : Prop :=
        ∃ u, exec i (tried v) = .next u ∧ u.hart.record = r ∧ order[k]? = some (r.fcause.extractLsb' 0 8)
      (cut → ends (t.takeFault (plainFault 0x0E))) ∧
      (¬ cut → t.featured ps = false → ends (t.takeFault (plainFault 0x17))) ∧
      (¬ cut → t.featured ps = true →
        (∀ pre r post, Machine.Instr.scalarReads i = pre ++ r :: post → (∀ q ∈ pre, ¬ spoilt q) → spoilt r →
          ((∀ v ∈ values, ∃ k g, raises v k g) → ∃ v ∈ values, ∃ k g, raises v k g ∧
            (∀ v' ∈ values, ∀ k' g', raises v' k' g' → k' ≤ k) ∧
            ends (t.takeFault { cause := g.fcause.extractLsb' 0 8, elem := g.felem.toNat, idx0 := g.fidx0, idx1 := g.fidx1,
                                idx2 := g.fidx2, addr := g.faddr, coord := g.fcoord, info := g.finfo, deleg := false,
                                replay := false })) ∧
          (¬ (∀ v ∈ values, ∃ k g, raises v k g) →
            (t.stripOpen = true → ends (t.takeFault replayFault)) ∧
            (t.stripOpen = false → ∃ e : ErrorRecord, e.kind = 2 ∧ e.unit = 3 ∧ e.part = t.hart.ctl.part ∧ e.die = coreOf t.cur / 48 ∧
              ends (({ t with
                repair := { t.repair with log := t.repair.log ++ [e] },
                reports := t.reports ++ [.errorRecord e] } : State).takeFault (operandFault 0x11 r 7))))) ∧
        ((∀ r ∈ Machine.Instr.scalarReads i, ¬ spoilt r) →
          ∀ u, exec i (t.corrected i) = .next u → ends u))

/-- A step runs the decoded instruction: when the bytes at the pc of a hart that issues decode to i, the step is exec of
i at the state that the fetch left, on an empty agenda or when the agenda names the hart in front. Around it stands what its
reads leave in the counts and the log of errors (R305): before it, for each register, knot or tile it reads that has an error
which the read corrects, one count and one record; behind it, the notes of the tables' entries that its walks read. With no
such error, and no walk that filled the TLB or failed, both are nothing. The model's readings and choices in it: logs 69, 85. -/
def Obligations.StepRunsDecoded : Prop :=
  ∀ (s t : State) (ps : List Half) (i : Instr) (n : Nat), s.hart.run = .running → s.hart.claim = none → s.haltDue = none →
    s.interrupt = none → s.fetch = (t, .ok ps) → decodeParcels ps = .ok (i, n) → t.loopEnd i n = false → t.featured ps = true →
    t.spoiltRegister i = none →
    OnlyCaches { s with repair := t.repair, reports := t.reports } t ∧
    (∃ l : List ErrorRecord, (∀ e ∈ l, e.kind = 1) ∧
      (l.length = ((t.cellsRead i).eraseDups.filter t.cellWeak).length) ∧
      t.corrected i = { t with
        repair := { t.repair with corrected := (t.corrected i).repair.corrected, log := t.repair.log ++ l },
        reports := t.reports ++ l.map .errorRecord } ∧ (l = [] → t.corrected i = t)) ∧
    (∀ u v, exec i (t.corrected i) = .next u → v = s.walkNotes u →
      (s.agenda = [] → step s = .next v) ∧
      (∀ w r, w = { s with agenda := .hart s.cur :: r } → r = s.agenda → s.cur < 384 → step w = .next v) ∧
      v = { u with
        repair := { u.repair with corrected := v.repair.corrected, recent := v.repair.recent, log := v.repair.log },
        reports := v.reports } ∧
      ((∀ e ∈ u.core.tlb, e ∈ s.core.tlb) → (u.hart.record = s.hart.record ∨ u.hart.record.fcause.extractLsb' 0 8 ≠ 0x07) →
        v = u))

/-- A step stops only where the agenda names a hart the device does not have (R3). The model's readings and choices in
it: log 69. -/
def Obligations.StepStopsOnly : Prop :=
  ∀ (s : State),
    (∃ t, step s = .next t) ∨ ∃ h r, s.agenda = .hart h :: r ∧ 384 ≤ h ∧ step s = .fault (.noSuchHart h)

/-! ### Reset and invariants -/

/-- Cells of every vector register, and of every matrix state, are in canonical form: one value, one representation. -/
def cellsCanonical (s : State) : Prop :=
  let hart (h : Hart) : Prop := ∀ v ∈ h.vregs.toList, cwf v.cells = true
  let matrix (m : Matrix) : Prop :=
    cwf m.tiles = true ∧ cwf m.acc = true ∧ cwf m.pend = true ∧ cwf m.slots = true ∧ cwf m.sel = true
  hart s.hart ∧ (∀ h ∈ s.harts, hart h.2) ∧ (∀ m ∈ s.core.matrix, matrix m) ∧
  (∀ c ∈ s.cores, ∀ m ∈ c.2.matrix, matrix m) ∧ ∀ c ∈ s.saved, ∀ m ∈ c.2.matrix, matrix m

/-- The tables of harts, cores, locked ranges, saved contexts, partitions, launches, objects, streams, functions, caches, free
vault halves, links, errors and images in flash have rising keys, and the hart and core in front are not in them. -/
def keysCanonical (s : State) : Prop :=
  s.harts.Pairwise (fun x y => x.1 < y.1) ∧ s.cores.Pairwise (fun x y => x.1 < y.1) ∧ (∀ p ∈ s.harts, p.1 ≠ s.cur) ∧
  (∀ p ∈ s.cores, p.1 ≠ coreOf s.cur) ∧ s.hart.locks.Pairwise (fun x y => x.1 < y.1) ∧
  (∀ p ∈ s.harts, p.2.locks.Pairwise fun x y => x.1 < y.1) ∧ s.saved.Pairwise (fun x y => x.1 < y.1) ∧
  s.parts.Pairwise (fun x y => x.1 < y.1) ∧ s.launches.Pairwise (fun x y => x.1 < y.1) ∧
  s.objects.Pairwise (fun x y => x.1 < y.1) ∧ s.streams.Pairwise (fun x y => x.1 < y.1) ∧
  s.tlb2.Pairwise (fun x y => x.1 < y.1) ∧ s.vaults.Pairwise (fun x y => x.1 < y.1) ∧
  s.fabric.replays.Pairwise (fun x y => x.1 < y.1) ∧ s.fabric.laneFailures.Pairwise (fun x y => x.1 < y.1) ∧
  s.fabric.common.Pairwise (fun x y => x.1 < y.1) ∧ s.repair.corrected.Pairwise (fun x y => x.1 < y.1) ∧
  s.repair.moved.Pairwise (fun x y => x.1 < y.1) ∧ s.boot.flash.Pairwise (fun x y => x.1 < y.1) ∧
  s.boot.signatures.Pairwise (fun x y => x.1 < y.1) ∧ s.functions.Pairwise fun x y => x.1 < y.1

/-- R14, R15, R21: a workgroup start. Every vector register and mask is stale and reads 0, scalars and every CSR the
table gives a value hold that value (det, partid, rgntab and the capability registers are set per launch or partition),
no loop is active, no range locked, no descriptor loaded, and the hart has no matrix state; and the invariants that the
statements below keep hold. The model's readings and choices in it: logs 1, 2, 6, 75. -/
def Obligations.ResetState : Prop :=
  let s := State.reset
  (∀ n, n < 32 → (s.vreg n).stale = true ∧ ∀ e, (s.vreg n).elem e = 0) ∧
  (∀ n, n < 8 → (s.mreg n).stale = true ∧ ∀ e, (s.mreg n).bit e = false) ∧ (∀ r, s.x r = 0) ∧
  (∀ c : BitVec 11, assigned c.toNat = true → c.toNat ≠ 0x008 → c.toNat ≠ 0x222 → c.toNat ≠ 0x230 →
    ¬ (0x400 ≤ c.toNat ∧ c.toNat < 0x500) → s.csr c = some (if c = 0x009 then 2 else 0)) ∧
  s.hart.loops = [] ∧ s.hart.locks = [] ∧ s.hart.vdesc = Vector.replicate 4 none ∧ s.ownMatrix = none ∧
  s.hart.ui.bank = Vector.replicate 8 0 ∧ s.stripOpen = false ∧
  s.mem.wf = true ∧ cellsCanonical s ∧ keysCanonical s ∧ s.agendaOk ∧ ∀ h r, s.agenda = .hart h :: r → h < 384

/-- Memory keeps its canonical form through every step, an instruction's or an event's. -/
def Obligations.MemoryCanonical : Prop := ∀ (s t : State), s.mem.wf = true → step s = .next t → t.mem.wf = true

/-- So do vector registers, matrix state and every table: keys rise, and the hart and the core in front are in none. -/
def Obligations.StateCanonical : Prop :=
  ∀ (s t : State), step s = .next t → (cellsCanonical s → cellsCanonical t) ∧ (keysCanonical s → keysCanonical t)

/-- R20, R25, R300: what code at U cannot do with any instruction. It cannot change the trap and translation registers,
the priority, the determinism of its launch, the partition it belongs to, or anything that the machine holds of any partition
(its region table base, translation roots, memory, links, functions and capabilities), but that the last workgroup on a
retired core takes the core out of the partition's ordinals (R309); nor a stream, nor what Pip holds; and it reaches S only at
tvec, with tstatus.PP naming U. -/
def Obligations.UserModePrivilege : Prop :=
  ∀ (i : Instr) (s t : State), i.hasWord = true → s.hart.priv = .user → exec i s = .next t →
    t.hart.sup.tvec = s.hart.sup.tvec ∧ t.hart.sup.xlat1 = s.hart.sup.xlat1 ∧ t.hart.sup.xlat2 = s.hart.sup.xlat2 ∧
    t.hart.sup.hpri = s.hart.sup.hpri ∧ t.hart.csr.det = s.hart.csr.det ∧ t.hart.csr.mmrev = s.hart.csr.mmrev ∧
    t.hart.ctl.part = s.hart.ctl.part ∧ t.hart.ctl.errata = s.hart.ctl.errata ∧ t.cur = s.cur ∧
    t.streams = s.streams ∧ t.boot = s.boot ∧ (s.core.retired = false → t.parts = s.parts) ∧
    (∀ k, ∃ o, tget t.parts k = (tget s.parts k).map fun p => { p with ordinals := o }) ∧
    (t.hart.priv = .user ∨
      t.hart.pc = s.hart.sup.tvec ∧ s.hart.sup.tvec ≠ 0 ∧ t.hart.sup.pp = .user ∧ t.hart.trapLoops = s.hart.loops ∨
      s.stripOpen = true ∧ t.hart.pc = s.hart.sup.tvec ∧ s.hart.sup.tvec ≠ 0 ∧ t.hart.sup.pp = .user)

/-! ### Accesses and numbers (spec/07 R125 to R127; spec/10 R177; spec/11 R202; spec/02) -/

/-- Scalar loads and stores of D, A and an offset, with the bytes each accesses. -/
def scalarAccesses (d a : BitVec 5) (i : BitVec 11) : List (Instr × Nat × Bool) :=
  [(.lb d a i, 1, false), (.lh d a i, 2, false), (.lw d a i, 4, false), (.ld d a i, 8, false), (.lbu d a i, 1, false),
   (.lhu d a i, 2, false), (.lwu d a i, 4, false), (.sb d a i, 1, true), (.sh d a i, 2, true), (.sw d a i, 4, true),
   (.sd d a i, 8, true)]

/-- R28, R86, R125, R135, R177, R202, R252: the faults of a scalar access, in their order: no room in the store buffer 0x03;
outside the partition 0x12; misaligned 0x14; then what the address meets; then uncorrectable data 0x11; and the wait for
a segment. And what an address meets: a vault by its slot, 0x09 beyond the last, at a vacant ordinal and in the other half;
0x12 where the region table lies outside the partition; a store to a skim region 0x10; an address that is not canonical 0x07;
in a locked range whose translation of the page was removed 0x08. The model's readings and choices in it: logs 13, 20, 24. -/
def Obligations.AccessFaults : Prop :=
  ∀ (s : State) (d a : BitVec 5) (i : BitVec 11),
    let va := s.x a + BitVec.ofInt 64 i.toInt
    (∀ j n wr, (j, n, wr) ∈ scalarAccesses d a i →
      let r := ((drew (s.reachAddr s.self va (if wr then .write else .read)).1), (s.reachAddr s.self va (if wr then .write else .read)).2)
      let full : Prop := wr = true ∧ s.stripOpen = true ∧ 16384 < s.hart.strip.used + 1
      (full → Raises j s (operandFault 0x03 0 6)) ∧
      (¬ full →
        (r.2 = .outside → exec j s = .next (r.1.takeFault (accessFault 0x12 va wr))) ∧
        (∀ h, r.2 = .hit h → va.toNat % n = 0 → nodeOf h.loc ≠ 0 → s.fabric.granted s.hart.ctl.part h.loc n wr = false →
          exec j s = .next (r.1.takeFault (accessFault 0x12 va wr))) ∧
        (r.2 ≠ .outside → va.toNat % n ≠ 0 → exec j s = .next (r.1.takeFault (accessFault 0x14 va wr))) ∧
        (va.toNat % n = 0 → (∀ c, r.2 = .fault c → exec j s = .next (r.1.takeFault (accessFault c va wr))) ∧
          (r.2 = .held → exec j s = .next { r.1 with hart := { r.1.hart with run := .waiting (.held va) } }) ∧
          (wr = false → ∀ h s2 bs, r.2 = .hit h → (nodeOf h.loc = 0 ∨ s.fabric.granted s.hart.ctl.part h.loc n wr = true) →
            r.1.loadBytes (r.1.view 0) h.loc n = (s2, bs, true) →
            exec j s = .next (s2.takeFault (accessFault 0x11 va false)))))) ∧
    ∀ (w : Word) (need : Need),
      let o := w.toNat - 0xFFF0000000000000
      let p := s.partAt s.hart.ctl.part
      (0xFFF0000000000000 ≤ w.toNat → w.toNat ≤ 0xFFF0FFFFFFFFFFFF →
        (HalfHolds p (o % 8388608) → o / 8388608 = 0 →
          s.reachAddr s.self w need = (s, .hit ⟨2 ^ 52 + coreOf s.cur * 8388608 + o % 8388608, none⟩)) ∧
        (∀ k c, HalfHolds p (o % 8388608) → o / 8388608 = k + 1 → p.ordinals[k]? = some (some c) →
          s.reachAddr s.self w need = (s, .hit ⟨2 ^ 52 + c * 8388608 + o % 8388608, none⟩)) ∧
        (∀ k, o / 8388608 = k + 1 → p.ordinals[k]? = some none → s.reachAddr s.self w need = (s, .fault 0x09)) ∧
        (¬ HalfHolds p (o % 8388608) ∨ p.ordinals.length < o / 8388608 → s.reachAddr s.self w need = (s, .fault 0x09))) ∧
      (¬ (0xFFF0000000000000 ≤ w.toNat ∧ w.toNat ≤ 0xFFF0FFFFFFFFFFFF) →
        let region := s.regionAt s.hart.ctl.part s.hart.sup.xlat2 w
        let outside := s.tableOutside s.hart.ctl.part s.hart.sup.xlat2
        (outside = true → s.reachAddr s.self w need = (s, .outside)) ∧
        (region.isSome = true → need = .write → s.reachAddr s.self w need = (s, .fault 0x10)) ∧
        (outside = false → region = none → w ≠ (w.extractLsb' 0 57).signExtend 64 →
          s.reachAddr s.self w need = (s, .fault 0x07)) ∧
        let here (l : Nat × LockRange) (e : TlbEntry × Bool) : Prop := l ∈ s.hart.locks ∧ e ∈ l.2.trans ∧
          e.1.part = s.hart.ctl.part ∧ e.1.root1 = s.hart.sup.xlat1 ∧ e.1.root2 = s.hart.sup.xlat2 ∧
          w.toNat / 2 ^ e.1.bits * 2 ^ e.1.bits = e.1.vbase
        (outside = false → region = none → w = (w.extractLsb' 0 57).signExtend 64 → s.free.pages = [] →
          (∃ l e, here l e ∧ l.2.base.toNat ≤ w.toNat ∧ (w - l.2.base).toNat < l.2.len.toNat) →
          (∀ l e, here l e → e.2 = false) → s.reachAddr s.self w need = (s, .fault 0x08)))

/-- R10, R33 to R39, R43, R47, R48: what each pattern of a format stands for; that it rounds back to itself; what a value is
rounded to, to nearest with ties to even and toward zero, with saturation and flags; what one element is narrowed to under each
rmode, with the residual and the discarded bits left behind; and the exact sums and products that are rounded. That rounding
toward zero sets OF for every value above the largest finite one, also below the next step of the format, is the model's reading
(log 45). -/
def Obligations.NumberFormats : Prop :=
  (∀ w ∈ formatRows,
    (∀ p, p < 2 ^ w.width → Stands w p (w.fmt.decode p) ∧
      ∀ r, w.fmt.round r (w.fmt.decode p) = ⟨if w.fmt.decode p = .nan then w.nanPat else p, 0⟩) ∧
    (∀ x, Rounds w x (w.fmt.round .rne x) ∧ Truncates w x (w.fmt.round .rtz x)) ∧
    ∀ src ∈ [rowF32, rowA48], ∀ mode step x c, Narrows w src mode step x c (w.fmt.narrow src.fmt mode step x c)) ∧
  (∀ x y : Machine.Num, SumOf x y (x.add y).val ∧
    (x.isFinite = true → y.isFinite = true → (x.mul y).val.isFinite = true ∧ (x.mul y).val.mag = x.mag * y.mag ∧
      (x.mul y).val.isNeg = (x.isNeg ^^ y.isNeg))) ∧
  ∀ n, isqrt n * isqrt n ≤ n ∧ n < (isqrt n + 1) * (isqrt n + 1)

/-! ### Strips (spec/07 R117 to R119; spec/01 R24; spec/10 R180) -/

/-- R117, R118, R24, R31, R180 to R183, R185, R186, R297: GRANT, GRANTX and C.GRANT. They are refused at S (0x01), with a bad
configuration (0x02) and in a user-interrupt handler (0x05), in this order; else they close an open strip, which lets a pending
pre-emption act, and open one with the width that the governor or the override gives, or wait. A hart beside another workgroup
holds at most 15 slices and one less than the core has; one at a higher priority than an open strip beside it revokes what it
needs, or waits for a protected strip; else it takes what is free, or by revocation one slice. That a revoked strip is aborted
at once, within the requester's GRANT, is the model's choice: log 71. Its other readings and choices: logs 13, 72. -/
def Obligations.Grants : Prop :=
  ∀ (s : State) (d a b : BitVec 5) (c : BitVec 3),
    let v := s.x b
    let cap := (v.extractLsb' 16 11).toNat
    let q := if v.extractLsb' 3 2 = 0 then 1 else if v.extractLsb' 3 2 = 1 then 8 else if v.extractLsb' 3 2 = 2 then 32 else 64
    let good : Prop := v.extractLsb' 5 11 = 0 ∧ v.extractLsb' 27 37 = 0 ∧ cap ≤ 1024
    let shaped (g : Nat) : Nat := let h := if cap = 0 then g else min g cap; if h / q = 0 then q else q * (h / q)
    (∀ i ∈ [Instr.grant d a c, .cGrant d a],
      (s.hart.priv = .supervisor → Raises i s (plainFault 0x01)) ∧
      (s.hart.priv = .user → s.hart.ui.inHandler = true → Raises i s (plainFault 0x05))) ∧
    (s.hart.priv = .supervisor → Raises (.grantx d a b) s (plainFault 0x01)) ∧
    (s.hart.priv = .user → ¬ good → Raises (.grantx d a b) s (operandFault 0x02 b 2)) ∧
    (s.hart.priv = .user → good → s.hart.ui.inHandler = true → Raises (.grantx d a b) s (plainFault 0x05)) ∧
    (s.hart.priv = .user → s.hart.ui.inHandler = false → ∀ u, s.close = .ok u → s.stripOpen = true →
      s.hart.ctl.preempt = true →
        exec (.grant d a c) s = .next u ∧ exec (.cGrant d a) s = .next u ∧ (good → exec (.grantx d a b) s = .next u)) ∧
    (s.hart.priv = .user → s.hart.ui.inHandler = false → ∀ u, s.close = .ok u →
      (s.stripOpen = true → s.hart.ctl.preempt = false) →
      (∀ g u2, u.answer = .width g u2 →
        Opens (.grant d a c) s u2 d (u2.x a).toNat g (c.extractLsb' 0 2) (c.getLsbD 2) 4 ∧
        Opens (.cGrant d a) s u2 d (u2.x a).toNat g 0 false 2 ∧
        (good → Opens (.grantx d a b) s u2 d (u2.x a).toNat (shaped g) (v.extractLsb' 0 2) (v.getLsbD 2) 4)) ∧
      (u.answer = .wait → ∀ i, i ∈ [Instr.grant d a c, .cGrant d a] ∨ good ∧ i = .grantx d a b →
        exec i s = .next { u with hart := { u.hart with run := .waiting .grant } })) ∧
    let x := s.core.gov
    let you := sibling s.cur
    let other := s.hartAt you
    let placed (h : Hart) : Prop := h.run ≠ .absent ∧ h.run ≠ .halted
    let works (i : Nat) : Bool :=
      !s.boot.unitMap.slicesAbsent.contains (16 * coreOf s.cur + i) && !s.core.slicesLost.contains i
    let total := min ((List.range 16).countP works) ((s.partAt s.hart.ctl.part).caps.slice.toNat % 32)
    let starved : Prop := ∃ h, (h = s.cur ∨ ∃ p ∈ s.harts, p.1 = h) ∧ placed (s.hartAt h) ∧
      (s.hartAt h).ctl.part = s.hart.ctl.part ∧ (s.hartAt h).ctl.slices = 0
    ∀ n theirs, (placed other → n = min s.hart.ctl.slices (min 15 (total - 1)) ∧ theirs = other.ctl.holds) →
      (¬ placed other → n = min s.hart.ctl.slices total ∧ theirs = 0) →
      let named : Prop := x.hart = true ↔ s.cur % 2 = 1
      let pos := x.pos.toNat
      let word := if pos < 4 then x.seq0 else if pos < 8 then x.seq1 else if pos < 12 then x.seq2 else x.seq3
      let width := min (max (word.extractLsb' (12 * (pos % 4)) 12).toNat 1) 1024
      let rest := min n (total - match x.latest with | some g => (g + 63) / 64 | none => theirs)
      let free := total - theirs
      let above : Prop := other.sup.hpri.toNat < s.hart.sup.hpri.toNat ∧ other.csr.so = true
      let shielded : Prop := other.csr.so = true ∧ other.ctl.protectedStrip = true
      let revokes (m left : Nat) : Prop := ∃ u, RevokedFrom s u you left ∧ s.answer = .width (64 * m) u
      (x.en = true → named → s.answer = .width width { s with core := { s.core with gov :=
        if pos < x.len.toNat then { x with pos := x.pos + 1, latest := some width }
        else if x.hold then { x with latest := some width } else { x with en := false, pos := 0, latest := none } } }) ∧
      (x.en = true → ¬ named →
        (other.csr.so = true ∨ starved ∨ rest = 0 → s.answer = .wait) ∧
        (other.csr.so = false → ¬ starved → rest ≠ 0 → s.answer = .width (64 * rest) s)) ∧
      (x.en = false →
        (n = 0 ∨ starved → s.answer = .wait) ∧
        (n ≠ 0 → ¬ starved →
          (n ≤ free → s.answer = .width (64 * n) s) ∧
          (free < n → above → (¬ shielded → revokes n (max 1 (total - n))) ∧ (shielded → s.answer = .wait)) ∧
          (free < n → ¬ above → free ≠ 0 → s.answer = .width (64 * free) s) ∧
          (free = 0 → ¬ above → (¬ shielded → revokes 1 (max 1 (total - 1))) ∧ (shielded → s.answer = .wait))) ∧
        ∀ g u, s.answer = .width g u → g % 64 = 0 ∧ 64 ≤ g ∧ g ≤ 1024 ∧
          (placed other → g / 64 ≤ 15 ∧ g / 64 + (u.hartAt you).ctl.holds ≤ total))

/-- R119, R192, R287, R306: the close of a strip, and SCLOSE and C.SCLOSE, which perform it. Stores go to memory in the order
of the buffer, those without a path and those of their streams behind them being held; an uncorrectable entry makes the strip
begin again, and an atomic that cannot read its word aborts it. The model's readings and choices in it: logs 16, 17, 41. -/
def Obligations.Close : Prop :=
  ∀ (s : State),
    (s.stripOpen = false → s.close = .ok s) ∧
    (∀ u, s.close = .ok u → PassesTo .sclose s u 4 ∧ PassesTo .cSclose s u 2) ∧
    (∀ f, s.close = .error f → Raises .sclose s f ∧ Raises .cSclose s f) ∧
    (s.stripOpen = true →
      let buf := s.hart.strip.buf
      ((∃ e ∈ buf, e.bad = true) → s.close = .error replayFault) ∧
      ((∀ e ∈ buf, e.bad = false) → ∀ e op x, e ∈ buf → e.op = .atomic op x → s.poisoned e.loc op.size = true →
        (∀ f ∈ buf, ∀ op' y, f.op = .atomic op' y → s.poisoned f.loc op'.size = true → f = e ∨
          e.instr < f.instr ∨ e.instr = f.instr ∧ e.elem < f.elem) →
        s.close = .error { plainFault 0x11 with
          elem := e.elem, idx0 := BitVec.ofNat 64 e.elem, addr := e.va,
          info := BitVec.ofNat 64 (e.stream.toNat + 32 + 64 + 256 * e.reg.toNat) }) ∧
      ((∀ e ∈ buf, e.bad = false ∧ ∀ op x, e.op = .atomic op x → s.poisoned e.loc op.size = false) → ∃ u, s.close = .ok u) ∧
      ∀ u, s.close = .ok u →
        (∀ w ∈ u.poison, w ∈ s.poison) ∧ (∀ w ∈ u.repair.weak, w ∈ s.repair.weak) ∧
        (∃ l, u.fabric.sent = s.fabric.sent ++ l ∧ ∀ w ∈ l, w.agent = s.cur ∧ w.ended = 0 ∧ nodeOf w.loc ≠ 0 ∧
          ∃ e ∈ buf, e.loc = w.loc ∧ e.size = w.old.length) ∧
        u = { s with
          hart := { s.hart with
            csr := { s.hart.csr with fflags := u.hart.csr.fflags, so := false, vl := 0 },
            strip := { s.hart.strip with buf := [], used := 0, readFirst := 0, written := 0 },
            ctl := { s.hart.ctl with protectedStrip := false }, unordered := u.hart.unordered },
          core := { s.core with matrix := s.core.matrix.map fun m =>
            if m.owner = s.cur then
              { m with acc := m.pend, tags := m.pendTags, damaged := commitMarks m.damaged, weak := commitMarks m.weak }
            else m },
          mem := u.mem, poison := u.poison, free := u.free,
          fabric := { s.fabric with held := u.fabric.held, sent := u.fabric.sent },
          repair := { s.repair with
            weak := u.repair.weak, corrected := u.repair.corrected, recent := u.repair.recent, log := u.repair.log },
          reports := u.reports } ∧
        (s.mem.wf = true → (∀ e ∈ buf, ∃ bs, e.op = .store bs) →
          DrainsInOrder s u buf ∧ u.hart.csr.fflags = s.hart.csr.fflags ∧
          u.repair = { s.repair with weak := u.repair.weak } ∧ u.reports = s.reports) ∧
        ∀ e op x, s.mem.wf = true → buf = [e] → e.op = .atomic op x →
          let r := op.apply (BitVec.ofNat 32 (leNat (s.bytes e.loc op.size))) x
          (GoesOut s e.stream e.loc → Stored s u e.loc (leBytes op.size r.1.toNat) ∧
            u.hart.csr.fflags = s.hart.csr.fflags ||| r.2 ∧ u.hart.unordered = keptFor s e.loc op.size ∧
            u.fabric = sentTo s s.cur 0 e.loc op.size) ∧
          (¬ GoesOut s e.stream e.loc → SameBytes s u ∧ u.hart.csr.fflags = s.hart.csr.fflags ∧
            u.fabric = { s.fabric with held := s.fabric.held ++ [heldWrite s e] }))

/-! ### Scalar atomics and translation control (spec/07 R130 to R134) -/

/-- R130, R131, R170, R198: the SAT instructions, each after the close of an open strip. STREL and FENCE wait for held writes;
SBAR makes the streams it names wait, and the hart goes on; LDACQ and FENCE order the hart's writes before the engine
operations it issues from then on. Of the access faults of the SAT forms only LDACQ's in a skim region is stated here. The
model's readings and choices in it: logs 20 (finfo with its SCOPE), 30, 31. -/
def Obligations.ScalarAtomics : Prop :=
  ∀ (s u : State) (d a b : BitVec 5) (c : BitVec 3) (k : BitVec 4), c.toNat < 3 → s.close = .ok u →
    let va := u.x a
    let skim : Prop := inVaultSpace va = false ∧ (u.regionAt u.hart.ctl.part u.hart.sup.xlat2 va).isSome = true
    Exchanges (.amoadd d a b c) s u d va (fun old => some (old + u.x b)) ∧
    Exchanges (.amoswp d a b c) s u d va (fun _ => some (u.x b)) ∧
    Exchanges (.amocas d a b c) s u d va (fun old => if old = u.x d then some (u.x b) else none) ∧
    Exchanges (.amomax d a b c) s u d va (fun old => some (BitVec.ofInt 64 (max old.toInt (u.x b).toInt))) ∧
    (¬ skim → ∀ u1 h bs, Reaches u va 8 .read u1 h → Finds u1 h.loc 8 bs →
      ∃ t, exec (.ldacq d a c) s = .next t ∧ Reads t d (BitVec.ofNat 64 (leNat (u.bytes h.loc 8))) ∧
        RegistersBut u t d ∧ GoesOn u t 4 ∧ SameBytes u t ∧ ErrorsNoted u t [(h.loc, 8)] ∧
        t = { u1 with
          hart := { u1.hart with
            regs := t.hart.regs, pc := t.hart.pc, loops := t.hart.loops, upsets := sameUpsets u t, unordered := [] },
          repair := { u.repair with
            corrected := t.repair.corrected, recent := t.repair.recent, log := t.repair.log },
          reports := t.reports }) ∧
    (skim → va.toNat % 8 = 0 →
      exec (.ldacq d a c) s = .next ((drew u).takeFault { accessFault 0x10 va false with info := BitVec.ofNat 64 (64 * c.toNat) })) ∧
    (¬ Behind u 0xF → ∀ u1 h, Reaches u va 8 .write u1 h → u.mem.wf = true →
      let bs := leBytes 8 (u.x b).toNat
      (u.noPath h.loc = false → ∃ t, exec (.strel a b c) s = .next t ∧ GoesOn u t 4 ∧ Stored u t h.loc bs ∧
        Corrected u t h.loc 8 ∧
        t = { u1 with
          hart := { u1.hart with pc := t.hart.pc, loops := t.hart.loops, unordered := keptFor u h.loc 8 },
          fabric := sentTo u u.cur 0 h.loc 8, mem := t.mem, poison := t.poison, repair := t.repair }) ∧
      (u.noPath h.loc = true → ∃ t, exec (.strel a b c) s = .next t ∧ GoesOn u t 4 ∧ SameBytes u t ∧
        t = { u1 with
          hart := { u1.hart with pc := t.hart.pc, loops := t.hart.loops },
          fabric := { u.fabric with held := u.fabric.held ++ [heldWrite u (newEntry u 0 0 b va h (.store bs))] } })) ∧
    (Behind u 0xF → ∀ i ∈ [Instr.strel a b c, .fence c],
      exec i s = .next { u with hart := { u.hart with run := .waiting .path } }) ∧
    (¬ Behind u 0xF → PassesTo (.fence c) s { u with hart := { u.hart with unordered := [] } } 4) ∧
    Bars (.sbar k c) s u (if u.hart.csr.mmrev = 1 ∧ k ≠ 0 then 0xF else k)

/-- R132, R134: locked ranges and the translation probe. TLBLOCK's faults in their order, the range left unlocked: a length of
0 or more than 64 translations (0x02), a page outside the partition (0x12), the first that does not translate (0x07). The
model's readings and choices in it: logs 32, 78. -/
def Obligations.LockedRanges : Prop :=
  ∀ (s : State) (d a b : BitVec 5),
    let r := (s.x d).toNat
    let base := s.x a
    let len := s.x b
    let n := (s.x a).toNat
    (31 < r → Raises (.tlblock d a b) s (operandFault 0x02 d 0)) ∧
    let unlocked (f : FaultInfo) : Prop := ∃ locks,
      (s.hart.locks.Pairwise (fun x y => x.1 < y.1) →
        tget locks r = none ∧ ∀ k, k ≠ r → tget locks k = tget s.hart.locks k) ∧
      exec (.tlblock d a b) s = .next (({ s with hart := { s.hart with locks := locks } } : State).takeFault f)
    let spans := Pages s (base.toNat + len.toNat) base.toNat
    (r ≤ 31 → len = 0 ∨ (∃ l, spans l ∧ 64 < l.length) → unlocked (operandFault 0x02 b 2)) ∧
    (r ≤ 31 → len ≠ 0 → ∀ l, spans l → l.length ≤ 64 →
      (∀ pre p post, l = pre ++ (p, .outside) :: post → (∀ q ∈ pre, q.2 ≠ .outside) →
        unlocked (accessFault 0x12 (BitVec.ofNat 64 p) false)) ∧
      (∀ pre p post, l = pre ++ (p, .invalid) :: post → (∀ q ∈ pre, q.2 ≠ .invalid) → (∀ q ∈ l, q.2 ≠ .outside) →
        unlocked (accessFault 0x07 (BitVec.ofNat 64 p) false)) ∧
      ∀ es : List TlbEntry, l.map Prod.snd = es.map Xlat.ok →
        ∃ t, exec (.tlblock d a b) s = .next t ∧ GoesOn s t 4 ∧ SameBytes s t ∧
          tget t.hart.locks r = some ⟨base, len, es.map fun e => (e, true)⟩ ∧
          (∀ k, k ≠ r → s.hart.locks.Pairwise (fun x y => x.1 < y.1) → tget t.hart.locks k = tget s.hart.locks k) ∧
          t = { s with hart := { s.hart with pc := t.hart.pc, loops := t.hart.loops, locks := t.hart.locks } }) ∧
    (31 < n → Raises (.tlbunlk a) s (operandFault 0x02 a 1)) ∧
    (n ≤ 31 → ∃ t, exec (.tlbunlk a) s = .next t ∧ GoesOn s t 4 ∧ SameBytes s t ∧
      (s.hart.locks.Pairwise (fun x y => x.1 < y.1) → tget t.hart.locks n = none ∧
        ∀ k, k ≠ n → tget t.hart.locks k = tget s.hart.locks k) ∧
      t = { s with hart := { s.hart with pc := t.hart.pc, loops := t.hart.loops, locks := t.hart.locks } }) ∧
    ∃ t v, exec (.tlbprb d a) s = .next t ∧ Reads t d v ∧ RegistersBut s t d ∧ GoesOn s t 4 ∧ OnlyLoaded s t ∧
      SameBytes s t ∧
      (inVaultSpace base = true →
        v = if ((s.partAt s.hart.ctl.part).vaultAt (some (coreOf s.cur)) base).isSome then 0x20 else 0) ∧
      (inVaultSpace base = false →
        (v.getLsbD 4 = true ↔ ∃ e ∈ lockedAt s.self base, e.2 = true) ∧
        (v.getLsbD 6 = true ↔ (s.regionAt s.hart.ctl.part s.hart.sup.xlat2 base).isSome = true) ∧ v.getLsbD 5 = false ∧
        v.toNat < 128 ∧
        (canonical base = true → ∀ e, (s.translate s.self base false).2 = .ok e →
          v.getLsbD 0 = true ∧ v.getLsbD 3 = e.w ∧
          (e.bits = 16 → v.extractLsb' 1 2 = 0) ∧ (e.bits = 21 → v.extractLsb' 1 2 = 1) ∧
          (e.bits = 30 → v.extractLsb' 1 2 = 2) ∧ (e.bits = 36 → v.extractLsb' 1 2 = 3)) ∧
        (canonical base = false ∨ (∀ e, (s.translate s.self base false).2 ≠ .ok e) → v.extractLsb' 0 4 = 0))

/-! ### Vector memory (spec/07 R121 to R129) -/

/-- R35, R37, R40, R121 to R125: vector loads in their four addressing modes, what each format widens to, and the loads
of MXFP4 blocks. The model's readings and choices in it: logs 16, 21, 48. -/
def Obligations.VectorLoads : Prop :=
  ∀ (s : State) (st : BitVec 2) (d a b : BitVec 5) (ff : BitVec 1) (n : BitVec 2) (m t : BitVec 3), Aligned s d →
    let f := MemFmt.ofCode t
    let one (e : Nat) : List Nat := [e]
    (∀ raw, raw < 256 ^ f.size → Widens f raw (f.widen raw)) ∧
    (t ≠ 5 → Ready s (pUse m) (s.vUse d 0) →
      VectorLoad (.vldu st d a ff m t) s st t m d (pUse m) (ff == 1) s.vl (fun e => s.x a + BitVec.ofNat 64 (e * f.size)) one ∧
      VectorLoad (.vlds st d a b m t) s st t m d (pUse m) false s.vl (fun e => s.x a + BitVec.ofNat 64 e * s.x b) one) ∧
    (t ≠ 5 → Aligned s b → Ready s (s.vUse b 2 ++ pUse m) (s.vUse d 0) →
      VectorLoad (.vldx st d a b m t) s st t m d (s.vUse b 2 ++ pUse m) false s.vl
        (fun e => s.x a + (s.elem b e).signExtend 64) one) ∧
    (t ≠ 5 → n ≠ 0 → (∀ k, k < n.toNat → dimLength s k ≠ 0) → Ready s (pUse m) (s.vUse d 0) →
      ∀ n0, TensorEnd s m n.toNat n0 →
        VectorLoad (.vldm st d a n m t) s st t m d (pUse m) false n0
          (fun e => s.x a + BitVec.ofInt 64 (tensorOffset s n.toNat e)) (tensorIndices s n.toNat)) ∧
    (t = 5 → Ready s (pUse m) (s.vUse d 0) →
      let u := s.mark (pUse m) (s.vUse d 0)
      let bytes := (List.range (17 * ((s.vl + 31) / 32))).map fun k => (s.x a + BitVec.ofNat 64 k, 1)
      ∀ (hs : List Hit) v bss w, Probes u.self .read u bytes (hs.map Probe.hit) v →
        ReadsAll (v.view st) v (hs.map fun h => (h.loc, 1)) bss w →
        (∀ (k : Nat) (h : Hit), hs[k]? = some h → LoadSource s st h.loc ((bss.getD k []).getD 0 0)) ∧
        (Unhindered s st (hs.map fun h => (h.loc, 1)) → ∃ res, (∀ e, BlockElem ((bss.drop (17 * (e / 32))).take 17).flatten (e % 32) (res e)) ∧
          LoadsGroup (.vldu st d a ff m t) s w d s.vl (onActive s m res))) ∧
    (t = 5 → s.stripOpen = true → Raises (.vlds st d a b m t) s (operandFault 0x02 b 2) ∧
      (Aligned s b → Raises (.vldx st d a b m t) s (operandFault 0x02 b 2)) ∧
      (n ≠ 0 → Raises (.vldm st d a n m t) s (operandFault 0x02 (n.setWidth 5) 2))) ∧
    (t ≠ 5 → s.stripOpen = true → n ≠ 0 → ∀ k, k < n.toNat → dimLength s k = 0 → (∀ j, j < k → dimLength s j ≠ 0) →
      Raises (.vldm st d a n m t) s (operandFault 0x02 (BitVec.ofNat 5 k) 5))

/-- R41, R47, R121 to R125, R177: vector stores in their four addressing modes, and the stores of MXFP4 blocks. The
model's readings and choices in it: logs 20, 48, 76 (under EF, RES in the unit of the element, and a chain that a block with
X = 0xFF leaves alone). -/
def Obligations.VectorStores : Prop :=
  ∀ (s : State) (st : BitVec 2) (d a b : BitVec 5) (n : BitVec 2) (m t : BitVec 3), Aligned s d →
    let f := MemFmt.ofCode t
    let one (e : Nat) : List Nat := [e]
    let reads := s.vUse d 0 ++ pUse m
    (t ≠ 5 → Ready s reads [] →
      VectorStore (.vstu st d a m t) s st t m d reads s.vl (fun e => s.x a + BitVec.ofNat 64 (e * f.size)) one ∧
      VectorStore (.vsts st d a b m t) s st t m d reads s.vl (fun e => s.x a + BitVec.ofNat 64 e * s.x b) one) ∧
    (t ≠ 5 → Aligned s b → Ready s (s.vUse d 0 ++ s.vUse b 2 ++ pUse m) [] →
      VectorStore (.vstx st d a b m t) s st t m d (s.vUse d 0 ++ s.vUse b 2 ++ pUse m) s.vl
        (fun e => s.x a + (s.elem b e).signExtend 64) one) ∧
    (t ≠ 5 → n ≠ 0 → (∀ k, k < n.toNat → dimLength s k ≠ 0) → Ready s reads [] →
      ∀ n0, TensorEnd s m n.toNat n0 →
        VectorStore (.vstm st d a n m t) s st t m d reads n0
          (fun e => s.x a + BitVec.ofInt 64 (tensorOffset s n.toNat e)) (tensorIndices s n.toNat)) ∧
    (t = 5 → s.stripOpen = true → m ≠ 0 → Raises (.vstu st d a m t) s (operandFault 0x02 (m.setWidth 5) 3)) ∧
    (t = 5 → m = 0 → Ready s reads [] →
      let u := s.mark reads []
      let nb := (s.vl + 31) / 32
      let addr (k : Nat) : Word := s.x a + BitVec.ofNat 64 k
      ∀ (hs : List Hit) v, s.hart.strip.used + 32 * nb ≤ 16384 →
        Probes u.self .write u ((List.range (17 * nb)).map fun k => (addr k, 1)) (hs.map Probe.hit) v →
        ∃ (bss : List (List Byte)) (fl : FFlags) (c : Chain),
          EncodesBlocks s.hart.csr.rmode (s.hart.csr.step.extractLsb' 0 16)
            ((List.range nb).map fun k => ((List.range (min 32 (s.vl - 32 * k))).map fun j => s.elem d (32 * k + j)))
            s.hart.csr.ncarry bss fl c ∧
          BuffersAll (.vstu st d a m t) s v s.vl
            ((hs.zipIdx.zip bss.flatten).map fun p =>
              newEntry s st (32 * (p.1.2 / 17)) d (addr p.1.2) p.1.1 (.store [p.2]))
            (32 * nb) fl c) ∧
    (t = 5 → s.stripOpen = true → Raises (.vsts st d a b m t) s (operandFault 0x02 b 2) ∧
      (Aligned s b → Raises (.vstx st d a b m t) s (operandFault 0x02 b 2)) ∧
      (n ≠ 0 → Raises (.vstm st d a n m t) s (operandFault 0x02 (n.setWidth 5) 2)))

/-- R129: vector atomics go into the store buffer, and what each makes of its word. VAADD.U raises 0x06 while det.DET is
1. The model's readings and choices in it: log 41. -/
def Obligations.VectorAtomics : Prop :=
  (∀ (s : State) (st : BitVec 2) (d a b : BitVec 5) (m : BitVec 3), Aligned s d → Aligned s b →
    let reads := s.vUse d 0 ++ s.vUse b 2 ++ pUse m
    let addr (e : Nat) : Word := s.x a + (s.elem b e).signExtend 64
    (s.stripOpen = true → s.hart.csr.det = true → Raises (.vaaddU st d a b m) s (plainFault 0x06)) ∧
    (Ready s reads [] →
      VectorAtomic (.vaaddO st d a b m) s st m d reads .addF32 addr ∧
      (s.hart.csr.det = false → VectorAtomic (.vaaddU st d a b m) s st m d reads .addF32U addr) ∧
      VectorAtomic (.vaaddi st d a b m) s st m d reads .addI addr ∧
      VectorAtomic (.vamaxi st d a b m) s st m d reads .maxI addr ∧
      VectorAtomic (.vamini st d a b m) s st m d reads .minI addr ∧
      VectorAtomic (.vaswp st d a b m) s st m d reads .swap addr ∧
      VectorAtomic (.vaor st d a b m) s st m d reads .or addr ∧
      VectorAtomic (.vaand st d a b m) s st m d reads .and addr)) ∧
  ∀ x y : Elem,
    AtomicOp.addF32.apply x y = rounded ((val32 x).add (val32 y)) ∧ AtomicOp.addF32U.apply x y = rounded ((val32 x).add (val32 y)) ∧
    AtomicOp.addI.apply x y = (x + y, 0) ∧ AtomicOp.maxI.apply x y = (BitVec.ofInt 32 (max x.toInt y.toInt), 0) ∧
    AtomicOp.minI.apply x y = (BitVec.ofInt 32 (min x.toInt y.toInt), 0) ∧ AtomicOp.swap.apply x y = (y, 0) ∧
    AtomicOp.or.apply x y = (x ||| y, 0) ∧ AtomicOp.and.apply x y = (x &&& y, 0)

/-! ### Matrix state (spec/08) -/

/-- R140 to R142: MATTACH, MDETACH, MSETVL, MZERO, MKNOT and MGSEL. What one of them writes whole has no error any more
(R305; `rewrote` clears its marks). The model's readings and choices in it: logs 49, 83, 85. -/
def Obligations.MatrixConfig : Prop :=
  ∀ (s : State) (d a b : BitVec 5),
    let n := (s.x a).toNat
    let k := (s.x b).toNat
    let elsewhere : Prop := ∃ m, s.core.matrix = some m ∧ m.owner ≠ s.cur
    (n < 1 ∨ 16 < n → Raises (.mattach d a) s (operandFault 0x02 a 1)) ∧
    (1 ≤ n → n ≤ 16 → elsewhere → Raises (.mattach d a) s (plainFault 0x0F)) ∧
    (elsewhere → Raises .mdetach s (plainFault 0x0F)) ∧
    (s.core.matrix = none → NoEffect .mdetach s 4) ∧
    (¬ elsewhere → ∀ u, s.close = .ok u →
      (1 ≤ n → n ≤ 16 →
        let free := (List.range 16).filter fun r =>
          !(((List.range 4).flatMap fun i => (u.coreAt (coreOf u.cur / 4 * 4 + i)).rowsHeld).contains r) &&
          !u.repair.tileRowsLost.contains (coreOf u.cur / 4, r) &&
          !u.boot.unitMap.rowsAbsent.contains (16 * (coreOf u.cur / 4) + r)
        let g := (free.take n).length
        (∀ m, u.core.matrix = some m → ∃ t, exec (.mattach d a) s = .next t ∧ Reads t d (BitVec.ofNat 64 m.rows.length) ∧
          RegistersBut u t d ∧ GoesOn u t 4 ∧ OnlyRegisters u t ∧ SameBytes u t) ∧
        (u.core.matrix = none → ∃ t, exec (.mattach d a) s = .next t ∧ Reads t d (BitVec.ofNat 64 g) ∧ RegistersBut u t d ∧
          GoesOn u t 4 ∧ SameBytes u t ∧ (g = 0 → OnlyRegisters u t) ∧
          (g ≠ 0 → ∃ m, t.core.matrix = some m ∧ m.owner = u.cur ∧ m.rows = free.take n ∧ m.mvl = 256 ∧ m.tiles = [] ∧
            m.acc = [] ∧ m.pend = [] ∧ m.slots = [] ∧ m.sel = [] ∧ m.knots = Vector.replicate 4 ⟨0, 0⟩ ∧
            m.tags = Vector.replicate 4 u.hart.csr.lse ∧ m.pendTags = m.tags ∧ m.damaged = 0 ∧ m.weak = 0 ∧
            t = { u with
              hart := { u.hart with
                regs := t.hart.regs, pc := t.hart.pc, loops := t.hart.loops,
                csr := { u.hart.csr with mseqStep := 0, mseqAct := false } },
              core := { u.core with matrix := some m } }))) ∧
      (s.core.matrix ≠ none → ∃ t, exec .mdetach s = .next t ∧ GoesOn u t 4 ∧ SameBytes u t ∧
        t = { u with
          hart := { u.hart with
            pc := t.hart.pc, loops := t.hart.loops, csr := { u.hart.csr with mseqStep := 0, mseqAct := false } },
          core := { u.core with matrix := none } })) ∧
    (n < 1 ∨ 256 < n → Raises (.msetvl d a) s (operandFault 0x02 a 1)) ∧
    ∀ m, s.ownMatrix = some m →
      (1 ≤ n → n ≤ 256 → Unread s (bandUse 0 0) →
        ActsOnMatrix (.msetvl d a) s [] (bandUse 0 0) (fun m' => m' = { m with mvl := n })
          fun t => Reads t d (s.x a) ∧ RegistersBut s t d ∧ t.hart.vregs = s.hart.vregs ∧ t.hart.csr = s.hart.csr) ∧
      (d.toNat < 4 → cwf m.acc = true → cwf m.pend = true →
        ActsOnMatrix (.mzero d) s [] []
          (fun m' =>
            (s.stripOpen = true → m' = { m.rewrote (1#41 <<< (12 + d.toNat)) with
                pend := m'.pend, pendTags := m.pendTags.setIfInBounds d.toNat s.hart.csr.lse } ∧
              Grid48 m.pend m'.pend fun j _ _ v => if j = d.toNat then 0 else v) ∧
            (s.stripOpen = false → m' = { m.rewrote (1#41 <<< (8 + d.toNat)) with
                acc := m'.acc, tags := m.tags.setIfInBounds d.toNat s.hart.csr.lse } ∧
              Grid48 m.acc m'.acc fun j _ _ v => if j = d.toNat then 0 else v))
          (SameRegisters s)) ∧
      (d.toNat < 4 → knotAValid (s.x a) = false → Raises (.mknot d a b) s (operandFault 0x02 a 1)) ∧
      (d.toNat < 4 → knotAValid (s.x a) = true → knotBValid (s.x b &&& 0x1FF) = false →
        Raises (.mknot d a b) s (operandFault 0x02 b 2)) ∧
      (d.toNat < 4 → knotAValid (s.x a) = true → knotBValid (s.x b &&& 0x1FF) = true → Unread s (bandUse d 0) →
        ActsOnMatrix (.mknot d a b) s [] (bandUse d 0)
          (fun m' => m' = { m.rewrote (3#41 <<< (32 + 2 * d.toNat)) with
            knots := m.knots.setIfInBounds d.toNat ⟨s.x a, s.x b &&& 0x1FF⟩ }) (SameRegisters s)) ∧
      (d.toNat < 4 → 16 * m.rows.length ≤ n → Raises (.mgsel d a b) s (operandFault 0x02 a 1)) ∧
      (d.toNat < 4 → n < 16 * m.rows.length → k = 0 ∨ 16 * m.rows.length < n + k →
        Raises (.mgsel d a b) s (operandFault 0x02 b 2)) ∧
      (d.toNat < 4 → k ≠ 0 → n + k ≤ 16 * m.rows.length → Unread s (bandUse d 0) → cwf m.sel = true →
        ActsOnMatrix (.mgsel d a b) s [] (bandUse d 0)
          (fun m' =>
            m' = { (if n = 0 ∧ 16 * m.rows.length ≤ k then m.rewrote (1#41 <<< 40) else m) with sel := m'.sel } ∧
            ∀ r, cget m'.sel r = if n ≤ r ∧ r < n + k then d.setWidth 2 else cget m.sel r) (SameRegisters s))

/-- R143, R152: MRESC rescales an accumulator and its tag; MREFN closes the strip and refines the grid of a knot pair.
The model's readings and choices in it: log 34. -/
def Obligations.MatrixScale : Prop :=
  ∀ (s : State) (d : BitVec 5) (b : BOp) (m : Matrix), s.ownMatrix = some m → d.toNat < 4 → (∀ r, b ≠ .vv r) →
    let k : Int := match b with
      | .vi n => n.toInt
      | .vs n => (s.x n).toInt
      | .vv _ => 0
    let tags := if s.stripOpen then m.pendTags else m.tags
    let old := if s.stripOpen then m.pend else m.acc
    let tag : Int := (tags[d.toNat]?.getD 0).toInt
    let scaled (v : A48) := a48.round .rne ((val48 v).scale k)
    (tag + k < -128 ∨ 127 < tag + k → Raises (.mresc d b) s (operandFault 0x02 (BOp.reg b) 2)) ∧
    (-128 ≤ tag + k → tag + k ≤ 127 → cwf m.acc = true → cwf m.pend = true → ¬ Spoilt s (53 + d.toNat) →
      ActsOnMatrix (.mresc d b) s [] []
        (fun m' =>
          let new := if s.stripOpen then m'.pend else m'.acc
          Grid48 old new (fun j _ _ v => if j = d.toNat then BitVec.ofNat 48 (scaled v).pat else v) ∧
          (s.stripOpen = true → m' = { m with
            pend := m'.pend, pendTags := m.pendTags.setIfInBounds d.toNat (BitVec.ofInt 8 (tag + k)) }) ∧
          (s.stripOpen = false → m' = { m with
            acc := m'.acc, tags := m.tags.setIfInBounds d.toNat (BitVec.ofInt 8 (tag + k)) }))
        fun t => FlaggedGrid s t fun r c => (scaled (cget old (tileKey d.toNat r c))).flags) ∧
    let p := m.knots[d.toNat]?.getD ⟨0, 0⟩
    let twice := fp32.round .rne ((val32 p.invh).mul (.fin false 2 0)).val
    (p.g = 0 → Raises (.mrefn d) s (operandFault 0x02 d 0)) ∧
    (p.g ≠ 0 → (12 < 2 * p.g ∨ 15 < 2 * p.g + p.ord ∨ (val32 (BitVec.ofNat 32 twice.pat)).isFinite = false) →
      Raises (.mrefn d) s { plainFault 0x0D with info := operandInfo d 0 }) ∧
    (p.g ≠ 0 → 2 * p.g ≤ 12 → 2 * p.g + p.ord ≤ 15 → (val32 (BitVec.ofNat 32 twice.pat)).isFinite = true → cwf m.slots = true →
      m.rows.length ≤ 16 → (∀ c ∈ cellsUse d 0, ¬ Spoilt s c.unit) → ∀ u, s.close = .ok u →
        let refined (r c n : Nat) : Rounded :=
          bf16.round .rne (refinedAt p.ord (fun i => val16 (cget m.slots (slotKey r c i))) n)
        let selects (r : Nat) : Prop := r < 16 * m.rows.length ∧ (cget m.sel r).toNat = d.toNat
        ∃ t m', exec (.mrefn d) s = .next t ∧ GoesOn u t 4 ∧ SameBytes u t ∧
          m'.knots[d.toNat]? = some ⟨p.lo ++ BitVec.ofNat 32 twice.pat,
            (p.b &&& 0x1F0) ||| BitVec.ofNat 64 (2 * p.g)⟩ ∧
          (∀ j, j ≠ d.toNat → m'.knots[j]? = m.knots[j]?) ∧
          Slots16 m.slots m'.slots (fun r c n v =>
            if selects r ∧ n < 15 then (if n < 2 * p.g + p.ord then BitVec.ofNat 16 (refined r c n).pat else 0) else v) ∧
          (∀ k, t.hart.csr.fflags.getLsbD k = true ↔ u.hart.csr.fflags.getLsbD k = true ∨
            ∃ r c n, selects r ∧ c < 256 ∧ n < 2 * p.g + p.ord ∧ (refined r c n).flags.getLsbD k = true) ∧
          (∃ um, u.core.matrix = some um ∧ m' = { um with slots := m'.slots, knots := m'.knots }) ∧
          t = { u with
            hart := { u.hart with
              pc := t.hart.pc, loops := t.hart.loops, csr := { u.hart.csr with fflags := t.hart.csr.fflags } },
            core := { u.core with matrix := some m' } })

/-- R144, R145, R147: moves between vector registers, tiles, accumulators and coefficient slots. A tile or slot written whole
has no error any more (R305; `rewrote` clears its marks). That MSTC too faults on a first row beyond the band is the model's
choice: log 82; what holds an error of matrix state: log 83. -/
def Obligations.MatrixMoves : Prop :=
  ∀ (s : State) (d a : BitVec 5) (b : BOp) (r5 : BitVec 5) (x : Nat) (m : Matrix), s.ownMatrix = some m →
    cwf m.tiles = true → cwf m.pend = true → cwf m.slots = true →
    let nr := 16 * m.rows.length
    let mr := min s.vl 256
    let mc := min s.vl 64
    let rb := (s.x r5).toNat
    let tilesFrom (m0 : Matrix) (f : Nat → Nat → Nat → Half → Half) (m' : Matrix) : Prop :=
      m' = { m0 with tiles := m'.tiles } ∧ Grid16 m.tiles m'.tiles f
    let tilesAre := tilesFrom m
    let tileWhole := tilesFrom (m.rewrote (1#41 <<< d.toNat))
    let high (e : Nat) : Half := (s.elem a e).extractLsb' 16 16
    let toGroup (n : Nat) (f : Nat → Elem) (t : State) : Prop :=
      WroteGroup (s.withVl n) t d (fun e => some (f e)) ∧ t.hart.regs = s.hart.regs ∧ t.hart.csr = s.hart.csr
    let scalar : Prop := ∀ n, b ≠ .vv n
    let offEnd (i : Instr) (w top : Nat) : Prop :=
      scalar → (∀ y, ¬ MoveIndex s b w top y) → Raises i s (operandFault 0x02 (BOp.reg b) 2)
    (Aligned s a →
      (d.toNat < 8 → offEnd (.troww d a b) 8 63 ∧ offEnd (.tcolw d a b) 8 255) ∧ (d.toNat < 4 → offEnd (.ainsr d a b) 8 63)) ∧
    (Aligned s d →
      (a.toNat < 8 → offEnd (.trowr d a b) 8 63 ∧ offEnd (.tcolr d a b) 8 255) ∧
      (a.toNat < 4 → offEnd (.aextr d a b) 9 63 ∧ offEnd (.aextc d a b) 9 255)) ∧
    (d.toNat < 8 → Aligned s a → Ready s (s.vUse a 1) (tUse d 0) →
      (MoveIndex s b 8 63 x → ActsOnMatrix (.troww d a b) s (s.vUse a 1) (tUse d 0)
        (tilesAre fun j r c v => if j = d.toNat ∧ r = x ∧ c < mr then high c else v) (SameRegisters s)) ∧
      (MoveIndex s b 8 255 x → ActsOnMatrix (.tcolw d a b) s (s.vUse a 1) (tUse d 0)
        (tilesAre fun j r c v => if j = d.toNat ∧ c = x ∧ r < mc then high r else v) (SameRegisters s))) ∧
    (a.toNat < 8 → Aligned s d → Ready s (tUse a 1) (s.vUse d 0) →
      (MoveIndex s b 8 63 x → ActsOnMatrix (.trowr d a b) s (tUse a 1) (s.vUse d 0) (fun m' => m' = m)
        (toGroup mr fun e => cget m.tiles (tileKey a.toNat x e) ++ (0#16))) ∧
      (MoveIndex s b 8 255 x → ActsOnMatrix (.tcolr d a b) s (tUse a 1) (s.vUse d 0) (fun m' => m' = m)
        (toGroup mc fun e => cget m.tiles (tileKey a.toNat e x) ++ (0#16)))) ∧
    (a.toNat < 4 → Aligned s d → Ready s (accUse a 1) (s.vUse d 0) →
      let tag : Int := (m.pendTags[a.toNat]?.getD 0).toInt
      let bf := narrowTarget s b
      let one (v : A48) (c : Chain) (n : Narrowed) : Prop := Narrows (if bf then rowBf16 else rowF32) rowA48 s.hart.csr.rmode
        (s.hart.csr.step.extractLsb' 0 16) ((val48 v).scale (-tag)) c n
      let extracts (i : Instr) (n : Nat) (src : Nat → A48) : Prop :=
        ActsOnMatrix i s (accUse a 1) (s.vUse d 0) (fun m' => m' = m) fun t =>
          ∃ (q : List (Nat × Nat)) (fl : FFlags) (c : Chain),
            Chained one ((List.range n).map fun e => (e, src e)) s.hart.csr.ncarry q fl c ∧
            WroteGroup (s.withVl n) t d
              (fun e => some (BitVec.ofNat 32 ((q.lookup e).getD 0 * (if bf then 65536 else 1)))) ∧
            t.hart.regs = s.hart.regs ∧ t.hart.csr.ncarry = c ∧ t.hart.csr.fflags = s.hart.csr.fflags ||| fl
      (MoveIndex s b 9 63 x → extracts (.aextr d a b) mr fun e => cget m.pend (tileKey a.toNat x e)) ∧
      (MoveIndex s b 9 255 x → extracts (.aextc d a b) mc fun e => cget m.pend (tileKey a.toNat e x))) ∧
    (d.toNat < 4 → Aligned s a → Ready s (s.vUse a 1) [] → MoveIndex s b 8 63 x →
      ActsOnMatrix (.ainsr d a b) s (s.vUse a 1) []
        (fun m' => m' = { m with pend := m'.pend } ∧ Grid48 m.pend m'.pend fun j r c v =>
          if j = d.toNat ∧ r = x ∧ c < mr then
            BitVec.ofNat 48 (a48.round .rne ((val32 (s.elem a c)).scale (m.pendTags[d.toNat]?.getD 0).toInt)).pat
          else v) (SameRegisters s)) ∧
    (d.toNat < 8 → Ready s [] (tUse d 0) → ActsOnMatrix (.tzero d) s [] (tUse d 0)
      (tileWhole fun j _ _ v => if j = d.toNat then 0 else v) (SameRegisters s)) ∧
    (d.toNat < 16 → a.toNat < 8 → rb < nr → Ready s (tUse a 1) (bandUse d 0) →
      ActsOnMatrix (.mldc d a r5) s (tUse a 1) (bandUse d 0)
        (fun m' =>
          m' = { (if rb = 0 ∧ nr ≤ 64 then m.rewrote (1#41 <<< (16 + d.toNat)) else m) with slots := m'.slots } ∧
          Slots16 m.slots m'.slots fun k c n v =>
          if n = d.toNat ∧ rb ≤ k ∧ k < rb + 64 ∧ k < nr then cget m.tiles (tileKey a.toNat (k - rb) c) else v) (SameRegisters s)) ∧
    (d.toNat < 8 → a.toNat < 16 → rb < nr → Ready s (bandUse a 1 ++ slotPlaneUse a.toNat a 1) (tUse d 0) →
      ActsOnMatrix (.mstc d a r5) s (bandUse a 1 ++ slotPlaneUse a.toNat a 1) (tUse d 0)
        (tileWhole fun j r c v => if j = d.toNat then (if rb + r < nr then cget m.slots (slotKey (rb + r) c a.toNat) else 0) else v)
        (SameRegisters s)) ∧
    (d.toNat < 16 → a.toNat < 8 → nr ≤ rb → Raises (.mldc d a r5) s (operandFault 0x02 r5 2)) ∧
    (d.toNat < 8 → a.toNat < 16 → nr ≤ rb → Raises (.mstc d a r5) s (operandFault 0x02 r5 2))

/-- R143, R146, R148 to R151: the array passes, with the cells of R55 to R58 and R137, their order of accumulation, their
flags, the tag they check. The model's readings and choices in it: logs 33, 82. -/
def Obligations.MatrixPasses : Prop :=
  ∀ (s : State) (d a b : BitVec 5) (p : BitVec 3) (m : Matrix), s.ownMatrix = some m → d.toNat < 4 → a.toNat < 8 → b.toNat < 8 →
    cwf m.tiles = true → cwf m.pend = true →
    let nr := 16 * m.rows.length
    let X (r k : Nat) : Machine.Num := val16 (cget m.tiles (tileKey a.toNat r k))
    let D (r n : Nat) : Machine.Num := val16 (cget m.tiles (tileKey b.toNat r n))
    let old (r c : Nat) : A48 := cget m.pend (tileKey d.toNat r c)
    let mask : Option (Nat → Bool) := if p = 0 then none else some (s.mreg p.toNat).bit
    let adds (i : Instr) (reads : List Use) (used : Nat → Nat → Bool) (f : Nat → Nat → A48 × FFlags) : Prop :=
      ActsOnMatrix i s reads []
        (fun m' => m' = { m with pend := m'.pend } ∧
          Grid48 m.pend m'.pend fun j r c v => if j = d.toNat ∧ used r c = true then (f r c).1 else v)
        fun t => FlaggedGrid s t fun r c => if used r c then (f r c).2 else 0
    let cell (k n i : Nat) : Machine.Num := val16 (cget m.slots (slotKey k n i))
    let one := tUse a 1 ++ pUse p ++ bandUse d 0 ++ cellsUse d 0 ++ accUse d 0
    let two := tUse a 1 ++ tUse b 2 ++ bandUse d 0 ++ cellsUse d 0 ++ accUse d 0
    let plain := tUse a 1 ++ tUse b 2 ++ bandUse d 0 ++ accUse d 0
    let tagged : Prop := m.pendTags[d.toNat]? = some s.hart.csr.lse
    ((p = 0 ∨ nr ≤ s.span) → Ready s one [] →
      (tagged → adds (.mma d a p) one (fun _ n => decide (n < m.mvl)) fun r n =>
        forwardOf (fun k x => phiOf (m.pairOf k) (cell k n) x) (old r n) ((bandColumns nr mask).map fun k => (k.1, X r k.2))) ∧
      (¬ tagged → Raises (.mma d a p) s { plainFault 0x0C with info := operandInfo d 0 })) ∧
    (tagged → Ready s two [] →
      adds (.mspld d a b) two (fun _ k => decide (k < nr)) (fun r k =>
        backwardOf (fun n => dphiOf (m.pairOf k) (cell k n) (X r k)) (D r) (old r k) (List.range m.mvl))) ∧
    (tagged → Ready s plain [] →
      adds (.mopa d a b) plain (fun r n => decide (64 * d.toNat + r < nr) && decide (n < m.mvl)) fun r n =>
        productOf (old r n) ((List.range 64).map fun j => (X j (64 * d.toNat + r), D j n))) ∧
    (¬ tagged → Ready s plain [] → ∀ i ∈ [Instr.mspld d a b, .mopa d a b],
      Raises i s { plainFault 0x0C with info := operandInfo d 0 }) ∧
    (p ≠ 0 → s.stripOpen = true → s.span < nr → Raises (.mma d a p) s (operandFault 0x02 (p.setWidth 5) 3)) ∧
    ∀ (e g h : BitVec 5),
      let low (n : BitVec 5) : BitVec 5 := BitVec.ofNat 5 (n.toNat % 8)
      let kb := 4 * (e.toNat / 8 * 16 + g.toNat / 8 * 4 + h.toNat / 8)
      let reads := tUse (low e) 0 ++ tUse (low g) 1 ++ tUse (low h) 2 ++ bandUse (low e) 0 ++ knotsUse (low e) 0
      let used (r n : Nat) : Bool := decide (kb + r / 16 < nr) && decide (n < m.mvl)
      let f (r n : Nat) : Half × FFlags :=
        let k := kb + r / 16
        let acc := gradientsAdded (m.pairOf k) (r % 16) (List.range 64)
          (fun j => val16 (cget m.tiles (tileKey (g.toNat % 8) j k))) (fun j => val16 (cget m.tiles (tileKey (h.toNat % 8) j n)))
          (BitVec.ofNat 48 (a48.round .rne (val16 (cget m.tiles (tileKey (e.toNat % 8) r n)))).pat, 0)
        let q := bf16.round .rne (val48 acc.1)
        (BitVec.ofNat 16 q.pat, acc.2 ||| q.flags)
      Ready s reads (tUse (low e) 0) →
        ActsOnMatrix (.msplg e g h) s reads (tUse (low e) 0)
          (fun m' => m' = { m with tiles := m'.tiles } ∧
            Grid16 m.tiles m'.tiles fun j r c v => if j = e.toNat % 8 ∧ used r c = true then (f r c).1 else v)
          fun t => FlaggedGrid s t fun r c => if used r c then (f r c).2 else 0

/-- R64, R153 to R156: the macro-operations. Each passes its checks, clears what FL.CLR asks before its first step, and does
its next step; and what each step does with a chunk of the vault while nothing is buffered there and no code word has an
error; a slot or the selectors written whole by it have no error any more (R305). The model's readings and choices in it: logs
35, 36, 82, 83. -/
def Obligations.MacroOperations : Prop :=
  (∀ (s : State) (d a y : BitVec 5) (p : BitVec 3) (n : BitVec 10) (kb : BitVec 8) (kn : BitVec 2) (clr : Bool) (m : Matrix),
    s.ownMatrix = some m → s.stripOpen = true → n ≠ 0 →
    let q := n.toNat
    let nr := 16 * m.rows.length
    let band := bandUse d 0
    let op (hasY : Bool) (knot : BitVec 2) (kbase : Nat) (pr : BitVec 3) : MacroOp :=
      ⟨d.toNat, s.vaultOp a, s.vaultOp (if hasY then y else a), q, knot, kbase, if pr = 0 then none else some (s.mreg pr.toNat).bit⟩
    let clears := clr && decide (stepNow s = 0)
    let own (l : List Nat) : List Use := if clears then [] else l.flatMap fun j => accUse (BitVec.ofNat 5 j) 0
    let start (reads writes : List Use) (cleared : List Nat) : State :=
      let t := s.mark reads writes
      if clears then { t with core := { t.core with matrix := some (m.clearAll s.hart.csr.lse cleared) } } else t
    let tagged (l : List Nat) : Prop := clears = true ∨ ∀ j ∈ l, m.pendTags[j]? = some s.hart.csr.lse
    let one := [d.toNat]
    let forward (cells : List Use) : List Use := pUse p ++ [] ++ cells ++ own one
    let pairs (cells : List Use) (l : List Nat) : List Use := band ++ cells ++ own l
    let planes := (List.range q).flatMap fun j => slotPlaneUse (d.toNat + j) d 0
    (d.toNat < 4 → VaultOk s a q m.mvl → 4 ≤ m.rows.length → (p = 0 ∨ q ≤ 128 ∧ 64 * q ≤ s.span) →
      tagged one →
      (Ready s (forward []) band → VaultOk s y q m.mvl →
        RunsSteps (.tmma d a p y n clr) s (start (forward []) band one) true (2 * q)
          fun t x i => tmmaStep t x (op true 0 0 p) i) ∧
      (Ready s (forward (knotsUse d 0)) band → VaultOk s y (16 * q) m.mvl →
        RunsSteps (.tsplf d a p y n clr) s (start (forward (knotsUse d 0)) band one) true (17 * q)
          fun t x i => tsplfStep t x (op true 0 0 p) i)) ∧
    (VaultOk s a q m.mvl → VaultOk s y q m.mvl → d.toNat + q ≤ 4 →
      let accs := (List.range q).map fun j => d.toNat + j
      Ready s (pairs (cellsUse d 0) accs) [] → tagged accs →
        RunsSteps (.tspld d a y n clr) s (start (pairs (cellsUse d 0) accs) [] accs) true q
          fun t x i => tspldStep t x (op true 0 0 0) i) ∧
    (d.toNat < 4 → VaultOk s a q m.mvl → VaultOk s y q m.mvl → kb.toNat < nr → tagged one →
      (Ready s (pairs [] one) [] → RunsSteps (.topa d a y n kb clr) s (start (pairs [] one) [] one) true q
        fun t x i => topaStep t x (op true 0 kb.toNat 0) i) ∧
      (Ready s (pairs (knotsUse d 0) one) [] →
        RunsSteps (.tsplg d a y n kb clr) s (start (pairs (knotsUse d 0) one) [] one) true q
          fun t x i => tsplgStep t x (op true 0 kb.toNat 0) i)) ∧
    (VaultOk s a q m.mvl → d.toNat + q ≤ 16 → kb.toNat < nr →
      (Ready s [] band →
        RunsSteps (.tldc d a n kn kb) s (s.mark [] band) true q fun t x i => tldcStep t x (op false kn kb.toNat 0) i) ∧
      (Ready s (band ++ planes) [] → s.hart.strip.used + (q - stepNow s) * ((s.vaultOp a).rows * ((m.mvl + 3) / 4)) ≤ 16384 →
        RunsSteps (.tstc d a n kb) s (s.mark (band ++ planes) []) false q fun t x i => tstcStep t x (op false 0 kb.toNat 0) i))) ∧
  ∀ (s : State) (m : Matrix) (o : MacroOp) (i : Nat), s.ownMatrix = some m →
    m.mvl ≤ 256 → m.rows.length ≤ 16 → cwf m.slots = true → cwf m.sel = true → cwf m.pend = true →
    o.x.rows ≤ 64 → o.y.rows ≤ 64 →
    let fits (v : VaultOp) (q : Nat) (ks : List Nat) : Prop := ∀ h c, h < v.rows → c ∈ ks → InOwnVault s (v.offset q h c)
    let nr := 16 * m.rows.length
    let cols := List.range m.mvl
    let x (q rows : Nat) (ks : List Nat) := vaultChunk s o.x q rows ks
    let y (q rows : Nat) := vaultChunk s o.y q rows cols
    let ks (q : Nat) : List Nat := match o.mask with
      | none => List.range 64
      | some f => (List.range 64).filter fun h => f (64 * q + h)
    let kbs (n : Nat) : List Nat := ((List.range n).map fun j => o.kbase + j).filter fun k => decide (k < nr)
    let batch := min o.x.rows o.y.rows
    let cell (k n i : Nat) : Machine.Num := val16 (cget m.slots (slotKey k n i))
    let old (a r c : Nat) : A48 := cget m.pend (tileKey a r c)
    let loads (r : Except (State × FaultInfo) State) (n pl : Nat) : Prop :=
      ∃ m', r = .ok { s with core := { s.core with matrix := some m' } } ∧
        m' = { (if nr ≤ 64 ∧ m.mvl = 256 then m.rewrote (1#41 <<< (16 + n)) else m) with slots := m'.slots } ∧
        ∀ k c j, k < 256 → c < 256 → j < 16 →
          val16 (cget m'.slots (slotKey k c j)) = if j = n ∧ k < 64 ∧ c < m.mvl then y pl o.y.rows k c else cell k c j
    let passes (r : Except (State × FaultInfo) State) (a : Nat) (used : Nat → Nat → Bool) (f : Nat → Nat → A48 × FFlags) : Prop :=
      ∃ t m', r = .ok t ∧ t.core.matrix = some m' ∧ m' = { m with pend := m'.pend } ∧
        (Grid48 m.pend m'.pend fun j r c v => if j = a ∧ used r c = true then (f r c).1 else v) ∧
        FlaggedGrid s t (fun r c => if used r c then (f r c).2 else 0) ∧
        t = { s with
          hart := { s.hart with csr := { s.hart.csr with fflags := t.hart.csr.fflags } },
          core := { s.core with matrix := some m' } }
    (s.hart.strip.buf = [] → s.poison = [] → s.repair.weak = [] →
      (fits o.y i cols → loads (tmmaStep s m o (2 * i)) 15 i) ∧
      (∀ j, j < 16 → fits o.y (16 * i + j) cols → loads (tsplfStep s m o (17 * i + j)) j (16 * i + j)) ∧
      (fits o.x i (ks i) →
        let rows (b : Nat) : List (Nat × Machine.Num) := (ks i).map fun k => (k, x i o.x.rows (ks i) b k)
        passes (tmmaStep s m o (2 * i + 1)) o.d (fun _ n => decide (n < m.mvl)) (fun b n =>
          forwardOf (fun k v => phiOf ⟨0, 0⟩ (cell k n) v) (old o.d b n) (rows b)) ∧
        passes (tsplfStep s m o (17 * i + 16)) o.d (fun _ n => decide (n < m.mvl)) (fun b n =>
          forwardOf (fun k v => phiOf (m.pairOf k) (cell k n) v) (old o.d b n) (rows b))) ∧
      (fits o.x i (List.range nr) → fits o.y i cols →
        let x := x i o.x.rows (List.range nr)
        passes (tspldStep s m o i) (o.d + i) (fun _ k => decide (k < nr)) fun b k =>
          backwardOf (fun n => dphiOf (m.pairOf k) (cell k n) (x b k)) (y i o.y.rows b) (old (o.d + i) b k) cols) ∧
      (fits o.x i (kbs 64) → fits o.y i cols →
        let x := x i batch (kbs 64)
        passes (topaStep s m o i) o.d (fun r n => decide (o.kbase + r < nr) && decide (n < m.mvl)) fun r n =>
          productOf (old o.d r n) ((List.range batch).map fun b => (x b (o.kbase + r), y i batch b n))) ∧
      (fits o.x i (kbs 4) → fits o.y i cols →
        let x := x i batch (kbs 4)
        passes (tsplgStep s m o i) o.d (fun r n => decide (o.kbase + r / 16 < nr) && decide (n < m.mvl)) fun r n =>
          let k := o.kbase + r / 16
          gradientsAdded (m.pairOf k) (r % 16) (List.range batch) (fun b => x b k) (fun b => y i batch b n) (old o.d r n, 0)) ∧
      let m1 := if (nr ≤ if o.kbase = 0 then o.x.rows else 0) ∧ m.mvl = 256 then m.rewrote (1#41 <<< (16 + (o.d + i))) else m
      (fits o.x i cols → ∃ m', tldcStep s m o i = .ok { s with core := { s.core with matrix := some m' } } ∧
        m' = { (if i = 0 ∧ o.kbase = 0 ∧ nr ≤ o.x.rows then m1.rewrote (1#41 <<< 40) else m1) with
          slots := m'.slots, sel := m'.sel } ∧
        (∀ k, cget m'.sel k = if i = 0 ∧ o.kbase ≤ k ∧ k < o.kbase + o.x.rows ∧ k < nr then o.knot else cget m.sel k) ∧
        ∀ k c j, k < 256 → c < 256 → j < 16 → o.d + i < 16 →
          val16 (cget m'.slots (slotKey k c j)) =
            if j = o.d + i ∧ o.kbase ≤ k ∧ k < o.kbase + o.x.rows ∧ k < nr ∧ c < m.mvl then
              vaultChunk s o.x i o.x.rows cols (k - o.kbase) c
            else cell k c j)) ∧
    (fits o.x i cols → ∃ t, tstcStep s m o i = .ok t ∧
      BufferedIn s t ((List.range (o.x.rows * m.mvl)).map fun z =>
        let h := z / m.mvl
        let c := z % m.mvl
        newEntry s 0 0 0 (0xFFF0000000000000#64 + BitVec.ofNat 64 (o.x.offset i h c))
          ⟨2 ^ 52 + coreOf s.cur * 8388608 + o.x.offset i h c, none⟩
          (.store (leBytes 2 (if o.kbase + h < nr then cget m.slots (slotKey (o.kbase + h) c (o.d + i)) else 0).toNat))) ∧
      t = { s with
        hart := { s.hart with strip := { s.hart.strip with
          buf := t.hart.strip.buf, used := s.hart.strip.used + o.x.rows * ((m.mvl + 3) / 4),
          instrs := s.hart.strip.instrs + 1 } },
        free := t.free })

/-! ### Sparse volumes (spec/09 R159 to R163; spec/14 R223 to R230) -/

/-- R159 to R163, R225 to R230: VLDC, VSTC, VACAD.O, VACAD.U, VPRBC, VSETVOL and VCLBINV; the budget, the walk, a claim,
and what an element is found to be. VCLBINV waits for another hart that stands between a claim and its install (R163). The
model's readings and choices in it: logs 16, 25, 37, 41, 89. -/
def Obligations.Volumes : Prop :=
  (∀ (s : State) (st b : BitVec 2) (d a : BitVec 5) (m : BitVec 3) (v : VDesc), s.slot b = some v →
    a.toNat % s.rows = 0 → a.toNat + 3 * s.rows ≤ 32 →
    let coords := s.vUse a 1 ++ s.vUse (a + BitVec.ofNat 5 s.rows) 1 ++ s.vUse (a + BitVec.ofNat 5 (2 * s.rows)) 1
    let at' (k e : Nat) : Int := (s.elem (a + BitVec.ofNat 5 (k * s.rows)) e).toInt
    let vs : List Voxel := (activeBelow s m s.vl).map fun e => ⟨e, at' 0 e, at' 1 e, at' 2 e⟩
    let reads := coords ++ slotUse b 2 ++ pUse m
    let mk (writer : Bool) (scope : BitVec 2) (p : Voxel) : Lath := ⟨v, p, writer, a, ⟨st, 0, writer, scope, 0, 0⟩⟩
    let half : Int := 2 ^ (v.rbits + 4 * v.levels + 2)
    let outside : Prop := ∃ p ∈ vs, ∃ c ∈ [p.x, p.y, p.z], ¬ (-half ≤ c ∧ c ≤ half - 1)
    let room := s.hart.strip.used + vs.length ≤ 16384
    let u := s.mark (s.vUse d 0 ++ reads) []
    let stores (l : List Found) (op : Found → Nat → BufOp) (q : List Nat) : List BufEntry :=
      (l.zip q).filterMap fun p => p.1.hit.map fun h =>
        { newEntry s st p.1.elem d p.1.va h (op p.1 p.2) with leaf := some p.1.key }
    let readable (l : List Found) : Prop := Unhindered s st (l.filterMap fun f => f.hit.map fun h => (h.loc, v.esize))
    (Aligned s d → Ready s reads (s.vUse d 0) →
      VoxelWalk (.vldc st d a b m) s (mk false 0) st true (s.mark reads (s.vUse d 0)) vs fun w l => readable l →
        LoadsGroup (.vldc st d a b m) s w d s.vl fun e => (l.find? fun f => f.elem == e).map fun f => v.widen (leNat f.bytes)) ∧
    (d.toNat < 8 → Ready s reads (mUse d 0) →
      VoxelWalk (.vprbc st d a b m) s (mk false 0) st true (s.mark reads (mUse d 0)) vs fun w l => readable l →
        ∃ t, exec (.vprbc st d a b m) s = .next t ∧ GoesOn s t 4 ∧ SameBytes s t ∧
          WroteMask s t d (fun e => (l.find? fun f => f.elem == e).map fun f => f.hit.isSome) ∧
          t = { w with hart := { w.hart with
            mregs := t.hart.mregs, pc := t.hart.pc, loops := t.hart.loops,
            upsets := { w.hart.upsets with mask := t.hart.upsets.mask, weak := weakBut maskCells w t } } }) ∧
    (Aligned s d → Ready s (s.vUse d 0 ++ reads) [] → room → ¬ outside →
      VoxelWalk (.vstc st d a b m) s (mk true 0) st false u vs (fun w l =>
        (v.esize = 4 → BuffersVoxels (.vstc st d a b m) s w
          (stores l (fun _ x => .store (leBytes 4 x)) (l.map fun f => (s.elem d f.elem).toNat)) 0 s.hart.csr.ncarry) ∧
        (v.esize = 2 →
          ∃ (q : List (Nat × Nat)) (fl : FFlags) (ch : Chain),
            Chained (StoredAs .fmtBf16 s.hart.csr.rmode (s.hart.csr.step.extractLsb' 0 16))
              (l.map fun f => (f.elem, s.elem d f.elem)) s.hart.csr.ncarry q fl ch ∧
            BuffersVoxels (.vstc st d a b m) s w (stores l (fun _ x => .store (leBytes 2 x)) (q.map Prod.snd)) fl ch)) ∧
      let adds (i : Instr) (four two : AtomicOp) : Prop := VoxelWalk i s (mk true 1) st false u vs fun w l =>
        BuffersVoxels i s w (stores l (fun f _ => .atomic (if v.esize = 2 then two else four) (s.elem d f.elem)) (l.map fun _ => 0))
          0 s.hart.csr.ncarry
      adds (.vacadO st d a b m) .addF32 .addBf16 ∧
      (s.hart.csr.det = false → adds (.vacadU st d a b m) .addF32U .addBf16U)) ∧
    (Aligned s d → s.stripOpen = true → s.hart.csr.det = true → Raises (.vacadU st d a b m) s (plainFault 0x06)) ∧
    (Aligned s d → Ready s (s.vUse d 0 ++ reads) [] → room → outside →
      ∀ i ∈ [Instr.vstc st d a b m, .vacadO st d a b m],
        exec i s = .next (u.takeFault { plainFault 0x0B with addr := v.addr, info := operandInfo a 0 }))) ∧
  (∀ (s : State) (st b : BitVec 2) (d a : BitVec 5) (m : BitVec 3), Aligned s d → s.stripOpen = true → 32 < a.toNat + 3 * s.rows →
    ∀ i ∈ [Instr.vldc st d a b m, .vstc st d a b m, .vacadO st d a b m, .vacadU st d a b m], Raises i s (operandFault 0x02 a 1)) ∧
  (∀ (s : State) (c : Lath) (st : BitVec 2) (data : Bool),
    let v := c.desc
    let half : Int := 2 ^ (v.rbits + 4 * v.levels + 2)
    let inside : Prop := ∀ x ∈ [c.vox.x, c.vox.y, c.vox.z], -half ≤ x ∧ x ≤ half - 1
    let none' : Found := ⟨c.vox.elem, 0, none, s.leafKey v c.vox, leBytes v.esize v.bg.toNat⟩
    let element (leaf : Word) : Word := leaf + BitVec.ofNat 64 (v.esize * v.leafElem c.vox)
    let need : Need := if c.writer then .write else .read
    let reaches (u : State) (leaf : Word) : Prop := ∀ x h, u.probe u.self (element leaf) v.esize need = (x, .hit h) →
      (nodeOf h.loc ≠ 0 → s.findVoxel c st data =
        (x, .error (.fault { plainFault 0x0B with addr := element leaf, info := operandInfo c.reg 0 }))) ∧
      (nodeOf h.loc = 0 → data = false → s.findVoxel c st data = (x, .ok ⟨c.vox.elem, element leaf, some h, none'.key, none'.bytes⟩)) ∧
      (nodeOf h.loc = 0 → data = true → ∀ y bs, x.loadBytes (x.view st) h.loc v.esize = (y, bs, false) →
        s.findVoxel c st data = (y, .ok ⟨c.vox.elem, element leaf, some h, none'.key, bs⟩))
    (¬ inside → s.findVoxel c st data = (s, .ok none')) ∧
    (inside → (∀ e ∈ s.core.clb, e.key ≠ s.leafKey v c.vox) →
      (∀ u va last, Walks c v.levels 0 v.root s (.zero va last) u →
        (c.writer = false → s.findVoxel c st data = (u, .ok none')) ∧
        (c.writer = true → ∀ t, Claims c va last u t → s.findVoxel c st data = (t, .error .claimed))) ∧
      ∀ u leaf, Walks c v.levels 0 v.root s (.leaf leaf) u → u.core.clb.length < Config.clbEntries →
        reaches { u with core := { u.core with clb := u.core.clb ++ [⟨s.leafKey v c.vox, leaf⟩] } } leaf) ∧
    (inside → ∀ e u, (s.core.clb.find? fun e => e.key == s.leafKey v c.vox) = some e →
      Walks { c with writer := false } v.levels 0 v.root s (.leaf e.leaf) u → reaches s e.leaf) ∧
    ∀ (va : Word) (leaf : Bool),
      let triple : Word := ((BitVec.ofInt 21 c.vox.z ++ BitVec.ofInt 21 c.vox.y) ++ BitVec.ofInt 21 c.vox.x).setWidth 64
      let full : FaultInfo := { plainFault 0x0A with
        elem := c.vox.elem, idx0 := BitVec.ofNat 64 c.vox.elem, addr := v.addr + 32, coord := triple, deleg := v.deleg }
      (v.walloc = false → s.allocate c va leaf = (s, .fault full)) ∧
      (v.walloc = true → ∀ y cause, s.probe s.self va 8 .write = (y, .fault cause) → s.allocate c va leaf = (y, .fault
        { plainFault cause with
          elem := c.vox.elem, idx0 := BitVec.ofNat 64 c.vox.elem, addr := va, info := c.info.word })) ∧
      (v.walloc = true → ∀ y g x h, s.probe s.self va 8 .write = (y, .hit g) → y.probe y.self (v.addr + 32) 16 .write = (x, .hit h) →
        nodeOf h.loc = 0 → x.poisoned h.loc 16 = false →
        x.readNat (h.loc + 8) 8 < x.readNat h.loc 8 + (if leaf then 512 * v.esize else 32768) →
        s.allocate c va leaf = (x, .fault full))) ∧
  (∀ (s : State) (k : Claim), s.hart.claim = some k → s.hart.run = .running → s.agenda = [] → Installs s k) ∧
  (∀ (v : VDesc) (p : Voxel),
    let b := v.rbits + 4 * v.levels + 3
    let i (c : Int) : Nat := (c + 2 ^ (b - 1)).toNat
    v.entryAt p 0 = (i p.z / 2 ^ (b - v.rbits) * 2 ^ v.rbits + i p.y / 2 ^ (b - v.rbits)) * 2 ^ v.rbits + i p.x / 2 ^ (b - v.rbits) ∧
    (∀ l, 0 < l → l ≤ v.levels →
      let digit (c : Int) : Nat := i c / 2 ^ (3 + 4 * (v.levels - l)) % 16
      v.entryAt p l = digit p.z * 256 + digit p.y * 16 + digit p.x) ∧
    v.leafElem p = i p.z % 8 * 64 + i p.y % 8 * 8 + i p.x % 8) ∧
  ∀ (s : State) (st b : BitVec 2) (a : BitVec 5),
    let va := s.x a
    (s.stripOpen = true → s.slot b = none → Ready s (slotUse b 2) [] →
      Raises (.vclbinv st a b) s { plainFault 0x0B with info := operandInfo (b.setWidth 5) 0 }) ∧
    (Ready s [] (slotUse b 2) →
      let u := s.mark [] (slotUse b 2)
      let bad : FaultInfo := { plainFault 0x0B with addr := va, info := operandInfo (b.setWidth 5) 0 }
      (va.toNat % 64 ≠ 0 → exec (.vsetvol st a b) s = .next (u.takeFault (elemFault 0x14 0 [0] va st.toNat))) ∧
      (va.toNat % 64 = 0 → RecordRead (.vsetvol st a b) s u st va 1 ((List.range 64).map fun k => (va + BitVec.ofNat 64 (1 * k), 1))
        (fun hs => ∃ h ∈ hs, nodeOf h.loc ≠ 0) bad fun x bs =>
        let q (i : Nat) : Word := BitVec.ofNat 64 (leNat ((bs.drop (8 * i)).take 8))
        let g := q 1
        let good : Prop := (g.extractLsb' 0 3).toNat ≤ 6 ∧ g.extractLsb' 5 3 = 3 ∧ (g.extractLsb' 8 3 = 2 ∨ g.extractLsb' 8 3 = 4) ∧
          g.extractLsb' 13 51 = 0 ∧ q 7 = 0 ∧ (q 5).toNat ≥ (q 3).toNat ∧
          ∀ w ∈ [q 0, q 3], w.toNat % 64 = 0 ∧ canonical w = true ∧ inVaultSpace w = false
        (good → ∃ t, exec (.vsetvol st a b) s = .next t ∧ GoesOn s t 4 ∧ SameBytes s t ∧
          t.slot b = some ⟨va, q 0, (g.extractLsb' 0 3).toNat, (g.extractLsb' 3 2).toNat, (g.extractLsb' 8 3).toNat, g.getLsbD 11,
            g.getLsbD 12, q 2⟩ ∧
          (∀ c, c ≠ b → t.slot c = s.slot c) ∧
          t = { x with hart := { x.hart with vdesc := t.hart.vdesc, pc := t.hart.pc, loops := t.hart.loops } }) ∧
        (¬ good → exec (.vsetvol st a b) s = .next (x.takeFault bad)))) ∧
    ∀ v, s.slot b = some v → Ready s (slotUse b 2) [] →
      RecordRead (.vclbinv st a b) s (s.mark (slotUse b 2) []) st va 8 ((List.range 16).map fun k => (va + BitVec.ofNat 64 (1 * k), 1))
        (fun _ => False) (plainFault 0x0B) fun u4 bs =>
        let lo := bs.take 8
        let hi := bs.drop 8
        let w (bs : List Byte) : Word := BitVec.ofNat 64 (leNat (bs.take 8))
        let empty : Prop := ∃ k, k < 3 ∧ ((w hi).extractLsb' (21 * k) 21).toInt < ((w lo).extractLsb' (21 * k) 21).toInt
        let walking : Prop := ∃ n, (∃ p ∈ s.harts, p.1 = n) ∧ n ≠ s.cur ∧ (s.hartAt n).ctl.part = s.hart.ctl.part ∧
          (s.hartAt n).live = true ∧ (s.hartAt n).claim ≠ none
        (walking → WaitsIn (.vclbinv st a b) s u4 .walk) ∧
        (¬ walking → empty → ∃ t, exec (.vclbinv st a b) s = .next t ∧ GoesOn s t 4 ∧ OnlyControl u4 t ∧ SameBytes s t) ∧
        (¬ walking → ¬ empty → s.harts.Pairwise (fun x y => x.1 < y.1) →
          ∃ t, exec (.vclbinv st a b) s = .next t ∧ GoesOn s t 4 ∧ SameBytes s t ∧
            (∀ c k, k ∈ (t.coreAt c).clb ↔ k ∈ (u4.coreAt c).clb ∧ ¬ MeetsBox s v (w lo) (w hi) k.key) ∧
            t.hart = { u4.hart with pc := t.hart.pc, loops := t.hart.loops } ∧
            ∀ n, n ≠ s.cur →
              let x := s.hartAt n
              let wrote : Prop := (n ∈ s.harts.map Prod.fst) ∧ x.csr.so = true ∧ ∃ e ∈ x.strip.buf, ∃ k, e.leaf = some k ∧
                MeetsBox s v (w lo) (w hi) k
              (wrote → t.hartAt n = x.aborted) ∧ (¬ wrote → t.hartAt n = x))

/-! ### Engines and user interrupts (spec/09 R164 to R174) -/

/-- R164 to R166, R168 to R170: the instructions of major 0x2A: what they check before and after the close, how long they
wait, what they queue, and what EPUB, EWAIT and EPOLL do. That finfo of EPUB's and ESIG's records holds WR and SCOPE (ESIG's is
SYSTEM) is the model's reading: log 20. Its other readings and choices: logs 13, 30, 38, 39, 80, 81. -/
def Obligations.EngineIssue : Prop :=
  (∀ (s : State) (q p : BitVec 2) (d a b : BitVec 5) (ui ap : BitVec 1) (c : BitVec 3),
    let va := s.x a
    let tag := s.x a
    let late (r : BitVec 5) : Prop := (s.queue ((s.x r).extractLsb' 62 2)).issued < ((s.x r).extractLsb' 0 62).toNat
    (va.toNat % 8 ≠ 0 → Raises (.ecopy q d a ui ap p) s (accessFault 0x14 va false)) ∧
    (va.toNat % 64 ≠ 0 → Raises (.ecoll q d a p) s (accessFault 0x14 va false)) ∧
    (c.toNat ≤ 2 → 255 < va.toNat → Raises (.epub a c) s (operandFault 0x02 a 1)) ∧
    (late a → Raises (.ewait a) s (operandFault 0x02 a 1)) ∧
    (late a → Raises (.epoll d a) s (operandFault 0x02 a 1)) ∧
    (¬ late a → s.hart.csr.det = true → Raises (.epoll d a) s (plainFault 0x06)) ∧
    (late d → Raises (.esig d a b) s (operandFault 0x02 d 0)) ∧
    (¬ late d → va.toNat % 8 ≠ 0 → Raises (.esig d a b) s { accessFault 0x14 va true with info := 0xA0 }) ∧
    ∀ u, s.close = .ok u →
      (va.toNat % 8 = 0 → 64 ≤ (u.queue q).ops.length → WaitsIn (.ecopy q d a ui ap p) s u .queue) ∧
      (va.toNat % 64 = 0 → 64 ≤ (u.queue q).ops.length → WaitsIn (.ecoll q d a p) s u .queue) ∧
      let record (n : Nat) : List (Word × Nat) := (List.range n).map fun k => (va + BitVec.ofNat 64 (8 * k), 8)
      let dw (bs : List Byte) (i : Nat) : Nat := leNat ((bs.drop (8 * i)).take 8)
      (va.toNat % 8 = 0 → (u.queue q).ops.length < 64 →
        RecordRead (.ecopy q d a ui ap p) s u 0 va 8 (record 3) (fun _ => False) (plainFault 0x0B) fun w bs =>
        let src : Word := BitVec.ofNat 64 (dw bs 0)
        let dst : Word := BitVec.ofNat 64 (dw bs 1)
        let len := dw bs 2 % 2 ^ 40
        let region := dw bs 2 / 2 ^ 40 % 256
        let good : Prop := dw bs 2 / 2 ^ 48 = 0
        let inside : Prop := ∃ r, w.myRegion region = some r ∧ r.base ≤ dst.toNat ∧ dst.toNat + len ≤ r.base + r.len
        let copy (x : State) (into : CopyDest) : Prop :=
          Commands (.ecopy q d a ui ap p) s x q d (.copy src dst len region into (ap == 1) (ui == 1))
        (¬ good → exec (.ecopy q d a ui ap p) s = .next (w.takeFault (operandFault 0x02 a 1))) ∧
        let takes (x : State) (c : BitVec 8) : Prop := exec (.ecopy q d a ui ap p) s = .next (x.takeFault (accessFault c dst true))
        (good → len = 0 → copy w (.region region)) ∧
        (good → len ≠ 0 → inside → copy (drew w) (.region region)) ∧
        (good → len ≠ 0 → ¬ inside →
          (inVaultSpace dst = true ∨ canonical dst = false → takes w 0x07) ∧
          (inVaultSpace dst = false → canonical dst = true →
            let found := w.translate { w.self with locks := [] } dst true
            let x := found.1
            (∀ e, found.2 = .ok e →
              let pa := e.pa + dst.toNat % 2 ^ e.bits
              (nodeOf pa = 0 → takes x 0x10) ∧
              (nodeOf pa ≠ 0 → e.w = false → takes x 0x07) ∧
              (nodeOf pa ≠ 0 → e.w = true → copy (drew x) (.remote pa))) ∧
            (found.2 = .invalid → takes x 0x07) ∧ (found.2 = .outside → takes x 0x12) ∧
            (found.2 = .awaited → WaitsIn (.ecopy q d a ui ap p) s x (.held dst))))) ∧
      (va.toNat % 64 = 0 → (u.queue q).ops.length < 64 →
        RecordRead (.ecoll q d a p) s u 0 va 64 (record 8) (fun _ => False) (plainFault 0x0B) fun w bs =>
        let dw := dw bs
        let nmem := dw 0 / 16 % 256
        let root := dw 0 / 2 ^ 12 % 256
        let good : Prop := 1 ≤ nmem ∧ nmem ≤ 192 ∧ root < nmem ∧ dw 0 / 2 ^ 20 = 0 ∧ dw 5 / 256 = 0 ∧ dw 6 = 0
        (¬ good → exec (.ecoll q d a p) s = .next (w.takeFault (operandFault 0x02 a 1))) ∧
        (good → Commands (.ecoll q d a p) s w q d (.coll
          { op := BitVec.ofNat 2 (dw 0), itype := dw 0 / 4 % 2 == 1, otype := dw 0 / 8 % 2 == 1, nmem := nmem, root := root,
            list := BitVec.ofNat 64 (dw 1), src := BitVec.ofNat 64 (dw 2), dst := BitVec.ofNat 64 (dw 3), count := dw 4,
            region := dw 5, status := BitVec.ofNat 64 (dw 7) } none))) ∧
      (c.toNat ≤ 2 → va.toNat ≤ 255 →
        let fault (base : Word) : FaultInfo :=
          { plainFault 0x10 with addr := base, info := BitVec.ofNat 64 (0x20 + 64 * c.toNat) }
        (u.myRegion va.toNat = none → exec (.epub a c) s = .next (u.takeFault (fault 0))) ∧
        ∀ r, u.myRegion va.toNat = some r →
          let others (which : EngineOp → Prop) : Prop := ∃ p ∈ u.harts, p.1 ≠ u.cur ∧ (u.hartAt p.1).ctl.part = u.hart.ctl.part ∧
            ∃ k : Fin 4, ∃ o, ((u.hartAt p.1).queues.get k).ops.head? = some o ∧ WritesRegion o.kind va.toNat ∧ which o
          let begun : Prop := others fun o => o.stalled ≠ none ∨ ∃ b ms, o.kind = .coll b (some ms)
          let queued : Prop := others fun _ => True
          let mine : Prop := ∃ k, ∃ o ∈ (u.queue k).ops, WritesRegion o.kind va.toNat
          let next : State := { u with free := { u.free with count := u.free.count + 1 } }
          (begun → exec (.epub a c) s = .next (u.takeFault (fault (BitVec.ofNat 64 r.base)))) ∧
          (¬ begun → queued → Config.freeBit u.free.count = true →
            exec (.epub a c) s = .next (next.takeFault (fault (BitVec.ofNat 64 r.base)))) ∧
          ∀ x, (¬ begun ∧ queued ∧ Config.freeBit u.free.count = false ∧ x = next) ∨ (¬ queued ∧ x = u) →
            (mine → WaitsIn (.epub a c) s x .publish) ∧
            (¬ mine → Behind u 0xF → WaitsIn (.epub a c) s x .path) ∧
            (¬ mine → ¬ Behind u 0xF → u.mem.wf = true → ∀ l, u.regionTable u.hart.ctl.part u.hart.sup.xlat2 = some l →
              ∃ t, exec (.epub a c) s = .next t ∧ GoesOn x t 4 ∧
                Stored x t (l + 64 * va.toNat + 32) (leBytes 8 (r.gen + 1)) ∧ Corrected x t (l + 64 * va.toNat + 32) 8 ∧
                t = { x with
                  hart := { x.hart with
                    pc := t.hart.pc, loops := t.hart.loops, unordered := keptFor x (l + 64 * va.toNat + 32) 8 },
                  fabric := sentTo x x.cur 0 (l + 64 * va.toNat + 32) 8, mem := t.mem, poison := t.poison,
                  repair := t.repair })) ∧
      (let k := u.queue (tag.extractLsb' 62 2)
       let seq := (tag.extractLsb' 0 62).toNat
       let ordered : State := { u with hart := { u.hart with unordered := [] } }
       ¬ late a →
        (s.hart.csr.det = false →
          ∃ t, exec (.epoll d a) s = .next t ∧ Reads t d (if seq ≤ k.done then 1 else 0) ∧ RegistersBut u t d ∧ GoesOn u t 4 ∧
            (seq ≤ k.done → OnlyRegisters ordered t) ∧ (k.done < seq → OnlyRegisters u t) ∧ SameBytes u t) ∧
        (seq ≠ 0 → k.frozen = true → exec (.ewait a) s = .next (u.takeFault (plainFault 0x12))) ∧
        (seq = 0 ∨ k.frozen = false →
          (k.done < seq → WaitsIn (.ewait a) s u .ewait) ∧
          (seq ≤ k.done →
            (∀ e r, k.errors = e :: r → e.seq ≤ seq →
              exec (.ewait a) s = .next ((u.withQueue (tag.extractLsb' 62 2) { k with errors := r }).takeFault
                { plainFault e.cause with addr := e.va })) ∧
            ((∀ e r, k.errors = e :: r → seq < e.seq) → s.hart.csr.det = false →
              PassesTo (.ewait a) s ordered 4)))) ∧
      (let tag0 := s.x d
       let k := u.queue (tag0.extractLsb' 62 2)
       let seq := (tag0.extractLsb' 0 62).toNat
       let bytes := leBytes 8 (s.x b).toNat
       ¬ late d → va.toNat % 8 = 0 →
        (seq ≠ 0 → k.frozen = true → exec (.esig d a b) s = .next (u.takeFault (plainFault 0x12))) ∧
        (seq = 0 ∨ k.frozen = false →
          (tag0 ≠ 0 → 64 ≤ k.ops.length → WaitsIn (.esig d a b) s u .queue) ∧
          (tag0 ≠ 0 → k.ops.length < 64 → ∀ w h, Reaches u va 8 .write w h →
            ∃ t, exec (.esig d a b) s = .next t ∧ GoesOn w t 4 ∧ SameBytes w t ∧
              Enqueued w t (tag0.extractLsb' 62 2) (.sig seq va h.loc h.page (s.x b)) ∧
              t = { w with hart := { w.hart with pc := t.hart.pc, loops := t.hart.loops, queues := t.hart.queues } }) ∧
          (tag0 = 0 → Behind u 0xF → WaitsIn (.esig d a b) s u .path) ∧
          (tag0 = 0 → ¬ Behind u 0xF → ∀ w h, Reaches u va 8 .write w h →
            (GoesOut w 0 h.loc → u.mem.wf = true →
              ∃ t, exec (.esig d a b) s = .next t ∧ GoesOn w t 4 ∧ Stored w t h.loc bytes ∧ Corrected w t h.loc 8 ∧
                t = { w with
                  hart := { w.hart with pc := t.hart.pc, loops := t.hart.loops, unordered := keptFor w h.loc 8 },
                  fabric := sentTo w w.cur 0 h.loc 8, mem := t.mem, poison := t.poison, repair := t.repair }) ∧
            (¬ GoesOut w 0 h.loc →
              ∃ t, exec (.esig d a b) s = .next t ∧ GoesOn w t 4 ∧ SameBytes w t ∧
                t = { w with
                  hart := { w.hart with pc := t.hart.pc, loops := t.hart.loops },
                  fabric := { w.fabric with held := w.fabric.held ++ [heldWrite w (newEntry w 0 0 b va h (.store bytes))] } }))))) ∧
  ∀ r : Region,
    let next : Region := { r with gen := r.gen + 1 }
    next.front = r.back ∧ next.back = r.front

/-- R171 to R174: UIRET, UIWAIT, UIMASK and UIRAISE; where a pending source is taken, which one, and what the entry to
the handler leaves; and what EWAIT and UIWAIT alone take in a deterministic launch. The model's readings and
choices in it: logs 23, 79. -/
def Obligations.UserInterrupts : Prop :=
  ∀ (s : State) (d a : BitVec 5) (hart : Nat),
    let v := s.x a
    let i := s.hart.ui
    (i.inHandler = false → Raises .uiret s (plainFault 0x01)) ∧
    (i.inHandler = true → ∃ t, exec .uiret s = .next t ∧ SameBytes s t ∧
      (∀ n, t.x n = if h : 24 ≤ n.toNat then i.bank[n.toNat - 24]'(by omega) else s.x n) ∧
      (∀ k : Fin 8, t.hart.ui.bank[k] = s.x (BitVec.ofNat 5 (24 + k.val))) ∧
      (∀ n, n < 32 → t.hart.upsets.scalar.getLsbD n =
        if n < 24 then s.hart.upsets.scalar.getLsbD n else s.hart.upsets.bank.getLsbD (n - 24)) ∧
      (∀ k, k < 8 → t.hart.upsets.bank.getLsbD k = s.hart.upsets.scalar.getLsbD (24 + k)) ∧
      (∀ n, n < 112 → t.hart.upsets.weak.getLsbD n = s.hart.upsets.weak.getLsbD
        (if 24 ≤ n ∧ n < 32 then n + 8 else if 32 ≤ n ∧ n < 40 then n - 8 else n)) ∧
      t = { s with hart := { s.hart with
        pc := i.uiepc, loops := i.loops, regs := t.hart.regs,
        ui := { i with inHandler := false, loops := [], bank := t.hart.ui.bank },
        upsets := { s.hart.upsets with
          scalar := t.hart.upsets.scalar, bank := t.hart.upsets.bank, weak := t.hart.upsets.weak } } }) ∧
    (32 ≤ v.toNat → Raises (.uimask d a) s (operandFault 0x02 a 1)) ∧
    (v.toNat < 32 → ∃ t, exec (.uimask d a) s = .next t ∧
      Reads t d (BitVec.ofNat 64 (i.maskEq.toNat + (if i.maskRaise then 16 else 0) + (if i.inHandler then 256 else 0))) ∧
      RegistersBut s t d ∧ GoesOn s t 4 ∧ SameBytes s t ∧
      t = { s with hart := { s.hart with
        regs := t.hart.regs, pc := t.hart.pc, loops := t.hart.loops,
        ui := { i with maskEq := v.extractLsb' 0 4, maskRaise := v.getLsbD 4 } } }) ∧
    (∃ t, exec (.uiraise a) s = .next t ∧ GoesOn s t 4 ∧ SameBytes s t ∧
      t = { s with hart := { s.hart with
        pc := t.hart.pc, loops := t.hart.loops, ui := { i with pendRaise := true, raised := v.extractLsb' 0 56 } } }) ∧
    (∀ u, s.close = .ok u →
      let blocked : Prop := i.maskEq = 0xF ∧ i.maskRaise = true
      let goesOn : Prop := s.hart.priv = .supervisor ∨ i.inHandler = true ∨ blocked
      let outstanding : Prop := ∃ q, ∃ o ∈ (u.queue q).ops, ∃ src dst len region into ap, o.kind = .copy src dst len region into ap true
      (goesOn → ∃ t, exec .uiwait s = .next t ∧ GoesOn u t 4 ∧ SameBytes u t ∧
        t = { u with hart := { u.hart with run := .running, pc := t.hart.pc, loops := t.hart.loops } }) ∧
      (¬ goesOn → s.hart.csr.det = true → outstanding → WaitsIn .uiwait s u .uiwait) ∧
      (¬ goesOn → s.hart.csr.det = false ∨ ¬ outstanding →
        (∀ src, FirstSource u.hart.ui 0xF src → TakesSource .uiwait s
          { u with hart := { u.hart with ui := { u.hart.ui with
            owed := if s.hart.csr.det then u.hart.ui.pendEq &&& ~~~u.hart.ui.maskEq else 0 } } } src [] (u.hart.pc + 4)) ∧
        ((∀ src, ¬ FirstSource u.hart.ui 0xF src) → WaitsIn .uiwait s u .uiwait)) ∧
      let tag := s.x a
      let q := tag.extractLsb' 62 2
      let k := u.queue q
      let seq := (tag.extractLsb' 0 62).toNat
      (seq ≤ k.done → seq ≤ k.issued → k.frozen = false → s.hart.csr.det = true → s.hart.priv = .user → i.inHandler = false →
        (∀ e r, k.errors = e :: r → seq < e.seq) → (∃ n ∈ k.uiDone, n ≤ seq) →
        (∀ src, FirstSource u.hart.ui (1#4 <<< q.toNat) src →
          TakesSource (.ewait a) s u src (match src with
            | .queue _ => k.uiDone.filter fun n => decide (seq < n)
            | .raise => []) u.hart.pc) ∧
        ((∀ src, ¬ FirstSource u.hart.ui (1#4 <<< q.toNat) src) →
          PassesTo (.ewait a) s { u with hart := { u.hart with unordered := [] } } 4))) ∧
    let u := s.focus hart
    let stands : Prop := u.hart.priv = .user ∧ u.stripOpen = false ∧ u.hart.ui.inHandler = false ∧
      (u.hart.run = .running ∨ u.hart.run = .waiting .ewait ∨ u.hart.run = .waiting .wfi ∨
        ∃ va, u.hart.run = .waiting (.held va) ∧ (va - u.hart.pc).toNat < 8)
    let allowed : BitVec 4 := if u.hart.csr.det then u.hart.ui.owed else 0xF
    (stands → ∀ src, FirstSource u.hart.ui allowed src → TakesSource (.userInterruptEntry hart) s u src [] u.hart.pc) ∧
    ((s.hartAt hart).run ≠ .waiting .uiwait →
      u.hart.priv = .supervisor ∨ u.stripOpen = true ∨ u.hart.ui.inHandler = true ∨ (∀ src, ¬ FirstSource u.hart.ui allowed src) →
      exec (.userInterruptEntry hart) s = .next s)

/-- R164 to R170, R287, R290, R291: the events of engine queues. A copy places its bytes in the back backing and may
publish; a collective forms, writes its output and STATUS; a signal is written unless an operation at or before its tag ended in
error; and how an operation stalls, ends in error, or freezes its queue. The model's readings and choices in it: logs 10, 40,
64, 85, 86, 91. -/
def Obligations.EngineEvents : Prop :=
  (∀ (s : State) (hart queue : Nat) (o : EngineOp) (rest : List EngineOp), hart < 384 → queue < 4 →
    let q := BitVec.ofNat 2 queue
    let u := s.focus hart
    let old := o.unordered
    let part := u.hart.ctl.part
    let self := u.fabric.domain
    let becomes (i : Instr) (x : State) (k : EngQueue) (rep : List Report) : Prop := ∃ t, exec i s = .next t ∧
      t.queue q = k ∧ (∀ j, j ≠ q → t.queue j = x.queue j) ∧
      t = { x with hart := { x.hart with queues := t.hart.queues }, reports := x.reports ++ rep }
    let freezes (i : Instr) (x : State) (va : Word) : Prop :=
      becomes i x { x.queue q with frozen := true } [.queueViolation hart queue va]
    let stalls (i : Instr) (x : State) (va : Word) : Prop :=
      becomes i x { x.queue q with ops := { o with stalled := some va } :: rest } [.sourceFault hart queue va]
    let source (va : Word) : Probe := ((u.sampled old).reachAddr u.engine va .read).2
    (u.queue q).frozen = false → (u.queue q).ops = o :: rest → u.mem.wf = true →
    SampledFrom u old ∧
    (∀ src dst len region dest ap ui, o.kind = .copy src dst len region dest ap ui → o.stalled = none →
      let failsAt (cause : BitVec 8) (va : Word) : Prop := ∃ p t, exec (.engineErrorCompletion hart queue cause va) s = .next t ∧
        PartlyCopied u p dest region dst len ∧ Done p t q o (some (cause, va))
      (len = 0 → ∃ t, exec (.ecopyCompletion hart queue) s = .next t ∧ Done u t q o none) ∧
      (SourceOpen u old src len → len ≠ 0 →
        (∀ n, dest = .region n →
          let busy : Prop := ap = true ∧ RegionBusy u part n fun h i => h = u.cur ∧ i = queue
          (∀ loc, BackAt u region dst len loc → n = region →
            (busy → NoEvent (.ecopyCompletion hart queue) s) ∧
            (¬ busy →
              ∃ bs c t, exec (.ecopyCompletion hart queue) s = .next t ∧ bs.length = len ∧ SourceRead u old src bs ∧
                Placed u c loc bs ∧ Done (if ap then c.publish part u.hart.sup.xlat2 region else c) t q o none)) ∧
          ((∀ r, u.myRegion region = some r → ¬ (r.base ≤ dst.toNat ∧ dst.toNat + len ≤ r.base + r.len)) → failsAt 0x07 dst) ∧
          ∀ r off, u.myRegion region = some r → r.base ≤ dst.toNat → dst.toNat + len ≤ r.base + r.len →
            BackStops u r (dst.toNat - r.base) len off failsAt fun va => freezes (.engineQueueFreeze hart queue va) u va) ∧
        (∀ pa, dest = .remote pa →
          let nth (k : Nat) : Word := dst + BitVec.ofNat 64 k
          let apart (k : Nat) : Prop := inVaultSpace (nth k) = true ∨ canonical (nth k) = false
          let walked (k : Nat) := u.walk u.engine (nth k).toNat true
          let arrives (k : Nat) : Prop := ¬ apart k ∧ ∃ x, walked k = .ok x ∧ nodeOf (x.at (nth k).toNat) ≠ 0 ∧ x.w = true ∧
            u.noPath (x.at (nth k).toNat) = false
          ((∀ k, k < len → arrives k) →
            ∃ c t, exec (.ecopyCompletion hart queue) s = .next t ∧ Touched u c ∧ SameBytes u c ∧ Done c t q o none) ∧
          ∀ k, k < len → (∀ j, j < k → arrives j) →
            (apart k → failsAt 0x07 (nth k)) ∧
            (¬ apart k →
              (∀ x, walked k = .ok x →
                let place := x.at (nth k).toNat
                (nodeOf place = 0 → failsAt 0x10 dst) ∧ (nodeOf place ≠ 0 → x.w = false → failsAt 0x07 (nth k)) ∧
                (nodeOf place ≠ 0 → x.w = true → u.noPath place = true → failsAt 0x11 (nth k))) ∧
              (walked k = .outside → freezes (.engineQueueFreeze hart queue (nth k)) u (nth k)) ∧
              (walked k ≠ .outside → (∀ x, walked k ≠ .ok x) → failsAt 0x07 (nth k))))) ∧
      (∀ pa, dest = .remote pa → len ≠ 0 → failsAt 0x10 dst) ∧
      ∀ i, i < len → SourceOpen u old src i →
        let va := src + BitVec.ofNat 64 i
        (∀ h, source va = .hit h → u.unreadable h.loc 1 = true → failsAt 0x11 va) ∧
        (source va = .outside → freezes (.engineQueueFreeze hart queue va) u va) ∧
        (source va ≠ .outside → (∀ h, source va ≠ .hit h) → stalls (.engineSourceTranslationFault hart queue va) u va)) ∧
    (∀ tag va loc page v, o.kind = .sig tag va loc page v →
      let erred : Prop := ∃ n, (u.queue q).firstError = some n ∧ n ≤ tag
      (erred → ∃ t, exec (.esigWrite hart queue) s = .next t ∧ Done u t q o none) ∧
      (¬ erred → u.noPath loc = true → ∃ t, exec (.esigWrite hart queue) s = .next t ∧ Done u t q o (some (0x11, va))) ∧
      (¬ erred → u.noPath loc = false → ∃ c t, exec (.esigWrite hart queue) s = .next t ∧
        EngineWrites u c q old loc v.toNat ∧ Done c t q o none)) ∧
    ∀ b : CollBlock,
      let status (x : State) : Probe := (x.probe x.engine b.status 8 .write).2
      let ends (i : Instr) (cause : BitVec 8) (va : Word) (x : State) : Prop :=
        (∀ h, status x = .hit h → x.noPath h.loc = false →
          ∃ c t, exec i s = .next t ∧ EngineWrites x c q old h.loc (5 + 256 * cause.toNat) ∧ Done c t q o (some (cause, va))) ∧
        (status x = .outside → freezes i x b.status) ∧
        (status x ≠ .outside → (∀ h, status x = .hit h → x.noPath h.loc = true) →
          ∃ t, exec i s = .next t ∧ Done x t q o (some (cause, va)))
      let ungranted (ids : List Nat) : Prop := ∃ i ∈ ids, i ≠ self ∧
        ∀ g ∈ u.fabric.grants, ¬ (g.srcNode = self ∧ g.srcPart = part ∧ g.dstNode = i)
      let loses (ids : List Nat) : Prop := ∃ i ∈ ids, i ≠ self ∧ i ∈ u.fabric.lost
      let sources (rank : Nat) : Nat :=
        (if b.itype then 4 else 2) * if b.op = 1 then b.nmem * b.count else if b.op = 3 ∧ rank ≠ b.root then 0 else b.count
      let fails (i : Instr) (cause : BitVec 8) (va : Word) : Prop := ends i cause va u
      let noted (x : State) : Prop := Touched u x ∧ SameBytes u x
      (o.kind = .coll b none →
        ((SourceOpen u old b.list (2 * b.nmem) → ∃ bs : List Byte, bs.length = 2 * b.nmem ∧
          SourceRead u old b.list bs ∧
          let ids := (List.range b.nmem).map fun i => leNat ((bs.drop (2 * i)).take 2)
          let counts (i : Instr) (cause : BitVec 8) (va : Word) : Prop := ∃ x, Counted u x ids ∧ ends i cause va x
          (∀ c, counts (.collectiveFailureReport hart queue c) c 0) ∧
          (loses ids → ∀ va, counts (.engineErrorCompletion hart queue 0x11 va) 0x11 va) ∧
          (ungranted ids → ∀ va, counts (.engineErrorCompletion hart queue 0x12 va) 0x12 va) ∧
          (o.stalled = none →
            (loses ids → counts (.ecollCompletion hart queue) 0x11 0) ∧
            (¬ loses ids → NoEvent (.ecollCompletion hart queue) s) ∧
            ∀ ms : List Member,
              let good : Prop := (∀ i ∈ ids, 1 ≤ i ∧ i ≤ 192) ∧ ids.Nodup ∧ self ∈ ids ∧ ms.map Member.id = ids ∧
                ∀ m ∈ ms, m.id ≠ self → m.ids = ids ∧ m.op = b.op ∧ m.itype = b.itype ∧ m.otype = b.otype ∧ m.nmem = b.nmem ∧
                  m.root = b.root ∧ m.count = b.count
              let closed : Prop := ∃ m ∈ ms, m.id ≠ self ∧ u.fabric.granted part (m.id * 2 ^ 44 + m.base) m.len false = false
              let another : Prop := ∃ m ∈ ms, m.id ≠ self ∧ m.ids = ids ∧ m.turn ≠ countedOf u ids + 1
              (another → NoEvent (.collectiveFormation hart queue ms) s) ∧
              (¬ another → ∃ y x, noted y ∧ Counted y x ids ∧
                (¬ good → ends (.collectiveFormation hart queue ms) 0x02 0 x) ∧
                (good → closed → ends (.collectiveFormation hart queue ms) 0x12 0 x) ∧
                (good → ¬ closed → loses ids → ends (.collectiveFormation hart queue ms) 0x11 0 x) ∧
                (good → ¬ closed → ¬ loses ids →
                  becomes (.collectiveFormation hart queue ms) x
                    { u.queue q with ops := { o with kind := .coll b (some ms) } :: rest } [])))) ∧
        (¬ SourceOpen u old b.list (2 * b.nmem) → ∀ c, fails (.collectiveFailureReport hart queue c) c 0) ∧
        ∀ i ms, i < 2 * b.nmem → SourceOpen u old b.list i → o.stalled = none → ∃ x, noted x ∧
          let va := b.list + BitVec.ofNat 64 i
          let event : Instr := .collectiveFormation hart queue ms
          (∀ h, source va = .hit h → u.unreadable h.loc 1 = true → ends event 0x11 va x) ∧
          (source va = .outside → freezes event x va) ∧
          (source va ≠ .outside → (∀ h, source va ≠ .hit h) → stalls event x va))) ∧
      ∀ ms : List Member, o.kind = .coll b (some ms) →
        let ids := ms.map Member.id
        (∀ c, fails (.collectiveFailureReport hart queue c) c 0) ∧
        (loses ids → ∀ va, fails (.engineErrorCompletion hart queue 0x11 va) 0x11 va) ∧
        (ungranted ids → ∀ va, fails (.engineErrorCompletion hart queue 0x12 va) 0x12 va) ∧
        (∀ va, o.stalled = some va → fails (.engineTranslationResolved hart queue true) 0x07 va) ∧
        (o.stalled = none → loses ids → fails (.ecollCompletion hart queue) 0x11 0) ∧
        ∀ rank, ms[rank]?.map Member.id = some self → (∀ r, r < rank → ms[r]?.map Member.id ≠ some self) → o.stalled = none →
          (∀ i, i < sources rank → SourceOpen u old b.src i →
            let va := b.src + BitVec.ofNat 64 i
            (∀ h, source va = .hit h → u.unreadable h.loc 1 = true → ¬ loses ids →
              ∃ x, noted x ∧ ends (.ecollCompletion hart queue) 0x11 va x) ∧
            (source va = .outside → freezes (.engineQueueFreeze hart queue va) u va) ∧
            (source va ≠ .outside → (∀ h, source va ≠ .hit h) → stalls (.engineSourceTranslationFault hart queue va) u va)) ∧
          (SourceOpen u old b.src (sources rank) → ¬ loses ids → ∃ own : List Byte, own.length = sources rank ∧
            SourceRead u old b.src own ∧
            ∀ inputs : List (List Elem), inputs.length = ms.length →
              (∀ r, r < ms.length → inputs[r]? = if r = rank then
                  some ((List.range (sources rank / if b.itype then 4 else 2)).map fun i =>
                    collWiden b.itype (leNat ((own.drop ((if b.itype then 4 else 2) * i)).take (if b.itype then 4 else 2))))
                else ms[r]?.map Member.input) →
              let out := b.output rank inputs
              let bytes := out.flatMap fun x => leBytes (if b.otype then 4 else 2) (collNarrow b.otype x)
              let lost (c : BitVec 8) : Prop :=
                ∃ t, exec (.ecollCompletion hart queue) s = .next t ∧ Done u t q o (some (c, b.status))
              (bytes ≠ [] →
                (∀ r, u.myRegion b.region = some r → ¬ (r.base ≤ b.dst.toNat ∧ b.dst.toNat + bytes.length ≤ r.base + r.len)) →
                fails (.ecollCompletion hart queue) 0x10 b.dst) ∧
              (∀ r off, u.myRegion b.region = some r → r.base ≤ b.dst.toNat → b.dst.toNat + bytes.length ≤ r.base + r.len →
                BackStops u r (b.dst.toNat - r.base) bytes.length off (fails (.ecollCompletion hart queue))
                  (freezes (.ecollCompletion hart queue) u)) ∧
              ∀ loc, bytes = [] ∨ BackAt u b.region b.dst bytes.length loc →
                (∀ h, status u = .hit h → u.noPath h.loc = true → lost 0x11) ∧
                (status u = .outside → freezes (.ecollCompletion hart queue) u b.status) ∧
                (status u ≠ .outside → (∀ h, status u ≠ .hit h) → lost 0x07) ∧
                ∀ h, status u = .hit h → u.noPath h.loc = false → ∃ c, Placed u c loc bytes ∧
                  let p := c.publish part u.hart.sup.xlat2 b.region
                  ∀ g, status p = .hit g → p.noPath g.loc = false → ∃ d t, exec (.ecollCompletion hart queue) s = .next t ∧
                    EngineWrites p d q old g.loc (if b.nonFinite inputs then 3 else 1) ∧ Done d t q o none)) ∧
  (∀ (s : State) (hart queue : Nat) (o : EngineOp) (rest : List EngineOp) (va : Word), hart < 384 → queue < 4 →
    let q := BitVec.ofNat 2 queue
    let u := s.focus hart
    (u.queue q).frozen = false → (u.queue q).ops = o :: rest → o.stalled = some va →
    (∃ t, exec (.engineTranslationResolved hart queue false) s = .next t ∧
      t.queue q = { u.queue q with ops := { o with stalled := none } :: rest } ∧ (∀ k, k ≠ q → t.queue k = u.queue k) ∧
      t = { u with hart := { u.hart with queues := t.hart.queues } }) ∧
    ∀ src dst len region dest ap ui, o.kind = .copy src dst len region dest ap ui →
      NoEvent (.ecopyCompletion hart queue) s ∧
      ∃ p t, exec (.engineTranslationResolved hart queue true) s = .next t ∧ PartlyCopied u p dest region dst len ∧
        Done p t q o (some (0x07, va))) ∧
  (∀ (b : CollBlock) (rank i : Nat) (x : List Elem) (l : List (List Elem)),
    let sum (j : Nat) : Elem := l.foldl (fun acc y => (rounded ((val32 acc).add (val32 (y.getD j 0)))).1) (x.getD j 0)
    (b.op = 0 → (b.output rank (x :: l)).length = b.count ∧ (i < b.count → (b.output rank (x :: l))[i]? = some (sum i))) ∧
    (b.op = 1 → (b.output rank (x :: l)).length = b.count ∧
      (i < b.count → (b.output rank (x :: l))[i]? = some (sum (rank * b.count + i)))) ∧
    (b.op = 2 → (∀ y ∈ x :: l, y.length = b.count) → b.output rank (x :: l) = (x :: l).flatten) ∧
    (b.op = 3 → ∀ y, (x :: l)[b.root]? = some y → y.length = b.count → b.output rank (x :: l) = y)) ∧
  (∀ y : Elem, collNarrow true y = y.toNat ∧ collNarrow false y = (bf16.round .rne (val32 y)).pat % 65536) ∧
  ∀ (s : State) (hart queue : Nat) (ms : List Member) (c : BitVec 8) (va : Word) (refused : Bool),
    let u := s.focus hart
    (4 ≤ queue ∨ (u.queue (BitVec.ofNat 2 queue)).frozen = true ∨ (u.queue (BitVec.ofNat 2 queue)).ops = [] →
      ∀ i ∈ [Instr.ecopyCompletion hart queue, .collectiveFormation hart queue ms, .ecollCompletion hart queue,
        .collectiveFailureReport hart queue c, .esigWrite hart queue, .engineErrorCompletion hart queue c va,
        .engineSourceTranslationFault hart queue va, .engineTranslationResolved hart queue refused,
        .engineQueueFreeze hart queue va], exec i s = .next s) ∧
    ∀ p ∈ [(Instr.engineQueueStallEnd hart, Wait.queue), (.ewaitResume hart, .ewait)],
      ((s.hartAt hart).run = .waiting p.2 →
        exec p.1 s = .next (s.setHartAt hart { s.hartAt hart with run := .running })) ∧
      ((s.hartAt hart).run ≠ .waiting p.2 → exec p.1 s = .next s)

/-! ### Events at harts (spec/01 R24; spec/02 R54; spec/03 R60, R70; spec/05 R99; spec/10 R180 to R186; spec/11 R200) -/

/-- R24, R54, R60, R70, R99, R180, R182, R186, R200, R300: the register writes from outside an instruction, that of rgntab
once no operation or walk of the partition is under way against its table; the arrival time limit; the end of a wait; and what the
governor does to harts: a waiting GRANT of a higher priority takes the slices it asks for from an open strip, another one slice when none
is free. The model's readings and choices in it: logs 13, 14, 71, 72, 85. -/
def Obligations.HartEvents : Prop :=
  ∀ (s : State) (hart core part left : Nat) (reg : BitVec 3) (v : Word),
    (192 ≤ core → exec (.govctlWrite core v) s = .next s) ∧
    (core < 192 → ∃ t, exec (.govctlWrite core v) s = .next t ∧ SameBytes s t ∧
      (let c := s.coreAt core
       t.coreAt core = { c with gov := { c.gov with
         en := v.getLsbD 0, hart := v.getLsbD 1, len := v.extractLsb' 2 4, hold := v.getLsbD 6, pos := 0, latest := none } }) ∧
      (∀ k, k ≠ core → t.coreAt k = s.coreAt k) ∧ t = { s with core := t.core, cores := t.cores }) ∧
    (let valid : Prop := (if reg.getLsbD 0 then knotBValid v else knotAValid v) = true
     let seen : Prop := s.stripOpen = true ∧ s.hart.strip.readFirst.getLsbD 48 = true
     (¬ valid → Raises (.knotRegisterWrite reg v) s (operandFault 0x02 (reg.setWidth 5) 5)) ∧
     (valid → s.ownMatrix = none → Raises (.knotRegisterWrite reg v) s (plainFault 0x0F)) ∧
     (valid → s.ownMatrix ≠ none → seen → Raises (.knotRegisterWrite reg v) s (operandFault 0x03 (reg.setWidth 5) 5)) ∧
     ∀ m, valid → s.ownMatrix = some m → ¬ seen →
       ∃ t m', exec (.knotRegisterWrite reg v) s = .next t ∧ SameBytes s t ∧ t.core.matrix = some m' ∧
         (∀ k, m'.knots[k]? = if k = reg.toNat / 2 then
             (m.knots[k]?).map fun p => if reg.getLsbD 0 then { p with b := v &&& 0x1FF } else { p with a := v }
           else m.knots[k]?) ∧
         m' = { m with knots := m'.knots } ∧ (s.stripOpen = true → Marked s t [] (bandUse 0 0)) ∧
         (s.stripOpen = false → t.hart.strip = s.hart.strip) ∧
         t = { s with
           hart := { s.hart with strip := { s.hart.strip with
             readFirst := t.hart.strip.readFirst, written := t.hart.strip.written } },
           core := { s.core with matrix := some m' } }) ∧
    (tget s.parts part = none → exec (.rgntabWrite part v) s = .next s) ∧
    (∀ p, tget s.parts part = some p →
      let inUse : Prop := (∃ w ∈ s.fabric.held, w.part = part) ∨
        ∃ h, (h = s.cur ∨ ∃ p ∈ s.harts, p.1 = h) ∧ (s.hartAt h).ctl.part = part ∧
          ((s.hartAt h).claim ≠ none ∨ ∃ q : Fin 4, ((s.hartAt h).queues.get q).ops ≠ [])
      (inUse → NoEvent (.rgntabWrite part v) s) ∧
      (¬ inUse → ∃ t, exec (.rgntabWrite part v) s = .next t ∧ SameBytes s t ∧
        tget t.parts part = some { p with rgntab := v &&& bits 51 14 } ∧ (∀ k, k ≠ part → tget t.parts k = tget s.parts k) ∧
        t = { s with parts := t.parts })) ∧
    (let named : Prop := v.getLsbD 63 = true ∧
       ∃ r ∈ (s.partAt s.hart.ctl.part).roots, r.extractLsb' 12 40 = v.extractLsb' 12 40
     (named → exec (.xlat2Write v) s = .next
       { s with hart := { s.hart with sup := { s.hart.sup with xlat2 := v &&& (bits 51 12 ||| bits 63 63) } } }) ∧
     (¬ named → exec (.xlat2Write v) s = .next { s with reports := s.reports ++ [.rootRefused s.cur v] })) ∧
    Raises .illegalEncoding s (plainFault 0x01) ∧
    (let x := s.hartAt hart
     let u := s.focus hart
     (∀ va, x.run = .waiting (.held va) → exec (.codeArrivalTimeout hart) s =
       .next (({ u with hart := { u.hart with run := .running } } : State).takeFault { plainFault 0x13 with addr := va })) ∧
     ((∀ va, x.run ≠ .waiting (.held va)) → exec (.codeArrivalTimeout hart) s = .next s) ∧
     (x.run = .waiting .wfi → ∃ t, exec (.wfiWake hart) s = .next t ∧ GoesOn u t 4 ∧ SameBytes s t ∧
       t = { u with hart := { u.hart with run := .running, pc := t.hart.pc, loops := t.hart.loops } }) ∧
     (x.run ≠ .waiting .wfi → exec (.wfiWake hart) s = .next s) ∧
     (x.run = .waiting .grant → exec (.grantWaitEnd hart) s = .next { u with hart := { u.hart with run := .waiting .granted } }) ∧
     (x.run ≠ .waiting .grant → exec (.grantWaitEnd hart) s = .next s) ∧
     (∃ t, exec (.revocationProtectionExpiry hart) s = .next t ∧ SameBytes s t ∧
       t.hartAt hart = { x with ctl := { x.ctl with protectedStrip := false } } ∧
       ∀ k, k ≠ hart → t.hartAt k = s.hartAt k) ∧
     let c := s.coreAt (coreOf hart)
     let other := s.hartAt (sibling hart)
     let works (i : Nat) : Bool := !s.boot.unitMap.slicesAbsent.contains (16 * coreOf hart + i) && !c.slicesLost.contains i
     let total := min ((List.range 16).countP works) ((s.partAt other.ctl.part).caps.slice.toNat % 32)
     let n := min other.ctl.slices (min 15 (total - 1))
     let starved : Prop := ∃ h, (h = s.cur ∨ ∃ p ∈ s.harts, p.1 = h) ∧ (s.hartAt h).run ≠ .absent ∧ (s.hartAt h).run ≠ .halted ∧
       (s.hartAt h).ctl.part = other.ctl.part ∧ (s.hartAt h).ctl.slices = 0
     let above : Prop := x.sup.hpri.toNat < other.sup.hpri.toNat ∧ x.csr.so = true
     let may : Prop := other.run = .waiting .grant ∧ hart < 384 ∧ x.run ≠ .absent ∧ x.run ≠ .halted ∧
       ¬ (x.csr.so = true ∧ x.ctl.protectedStrip = true) ∧ ¬ (c.gov.en = true ∧ (c.gov.hart = true ↔ hart % 2 = 1)) ∧
       1 ≤ left ∧ left < x.ctl.holds ∧ 1 ≤ n ∧ ¬ starved ∧ total < x.ctl.holds + n ∧
       (above → total ≤ left + n) ∧ (¬ above → total ≤ x.ctl.holds ∧ x.ctl.holds = left + 1)
     (¬ may → NoEvent (.grantRevocation hart left) s) ∧
     (may → ∃ t, exec (.grantRevocation hart left) s = .next t ∧ SameBytes s t ∧ RevokedFrom s t hart left)) ∧
    ∀ l : List (Nat × Nat), ∃ t, exec (.governorRevision l) s = .next t ∧ SameBytes s t ∧
      t = { s with hart := t.hart, harts := t.harts } ∧
      ∀ h, t.hartAt h = { s.hartAt h with ctl := { (s.hartAt h).ctl with slices := (t.hartAt h).ctl.slices } } ∧
        ((∀ p ∈ l, p.1 ≠ h) → t.hartAt h = s.hartAt h) ∧
        ∀ pre n post, l = pre ++ (h, n) :: post → (∀ p ∈ post, p.1 ≠ h) → h < 384 → n ≤ 16 →
          (s.hartAt h).run ≠ .absent → (s.hartAt h).run ≠ .halted → (t.hartAt h).ctl.slices = n

/-- R120, R185, R215, R292 to R295, R302, R303, R306: halting at a boundary, the image in shadow SRAM or the save area, the
restore of a context, before which Husk may move its ordinal to another core, and invalidations, which take the translations
derived from a leaf or a table page in their range. The model's readings and choices in it: logs 61, 62, 86, 87, 88, 90. -/
def Obligations.ContextsAndInvalidations : Prop :=
  ∀ (s : State) (hart part : Nat) (root lo hi : Word), keysCanonical s →
    let x := s.hartAt hart
    let c := s.coreAt (coreOf hart)
    let asked : Hart := { x with ctl := { x.ctl with preempt := true } }
    let m := ownedBy c hart
    let m' := pendingDropped m hart
    let live : Prop := x.run = .running ∨ ∃ w, x.run = .waiting w
    let boundary : Prop := x.csr.so = false ∨ x.csr.mseqAct = true
    (¬ live → exec (.preemptionRequest hart) s = .next s) ∧
    (live → x.priv = .user → x.claim = none → boundary → HaltsAs (.preemptionRequest hart) s hart asked m) ∧
    (live → x.priv = .user → x.claim = none → ¬ boundary → x.run = .waiting .wfi →
      HaltsAs (.preemptionRequest hart) s hart asked.aborted m') ∧
    (live → x.priv = .supervisor ∨ x.claim ≠ none ∨ ¬ boundary ∧ x.run ≠ .waiting .wfi →
      ∃ t, exec (.preemptionRequest hart) s = .next t ∧ SameBytes s t ∧ t.hartAt hart = asked ∧
        (∀ k, k ≠ hart → t.hartAt k = s.hartAt k) ∧ (∀ k, t.coreAt k = s.coreAt k) ∧
        t = { s with hart := t.hart, core := t.core, harts := t.harts, cores := t.cores }) ∧
    (x.ctl.preempt = true → live → x.priv = .user → x.claim = none → ¬ boundary →
      HaltsAs (.preemptionExpiry hart) s hart x.aborted m') ∧
    (x.ctl.preempt = false ∨ ¬ live ∨ x.priv = .supervisor ∨ x.claim ≠ none ∨ boundary → exec (.preemptionExpiry hart) s = .next s) ∧
    (384 ≤ hart ∨ x.run ≠ .halted → exec (.contextRestore hart) s = .next s) ∧
    (hart < 384 → x.run = .halted →
      let core := coreOf hart
      ∃ u, ((∀ new, ¬ OrdinalTarget s x.ctl.part core new) → u = s) ∧
        (u = s ∨ u = drew s ∨
          ∃ new, OrdinalTarget s x.ctl.part core new ∧ MovesOrdinal (drew s) u x.ctl.part core new) ∧
        RestoresFrom (.contextRestore hart) s u hart) ∧
    (let meets (base n : Nat) : Prop := base < hi.toNat ∧ lo.toNat < base + n
     Invalidates (.firstStageInvalidation part root lo hi) s
       (fun e => e.part = part ∧ e.root1.extractLsb' 12 40 = root.extractLsb' 12 40 ∧
         meets (e.vbase / 2 ^ e.first * 2 ^ e.first) (2 ^ e.first)) ∧
     Invalidates (.secondStageInvalidation part lo hi) s
       (fun e => e.part = part ∧ (meets (e.ppa / 2 ^ e.second * 2 ^ e.second) (2 ^ e.second) ∨
         ∃ p ∈ e.tables, meets p.1 (2 ^ p.2))))

/-! ### Fabric, repairs, boot (spec/18 R281 to R288; spec/20 R305 to R313) -/

/-- R119, R281 to R284, R287, R288, R305, R308, R309: fabric grants, what arrives from peers (reads, writes and
read-modify-writes at their home memory), rejections, which undo the write they name, links and paths. The model's readings and
choices in it: logs 20, 27, 30, 41, 63, 64, 85, 86, 88. -/
def Obligations.FabricEvents : Prop :=
  (∀ (s : State) (g : FabricGrant),
    let mine : Prop := (g.srcNode = s.fabric.domain ∨ g.dstNode = s.fabric.domain) ∧ g.srcNode ≠ g.dstNode ∧
      g.base + g.len ≤ 2 ^ 39 ∧ g ∉ s.fabric.grants
    (mine → exec (.fabricGrantInstall g) s = .next { s with fabric := { s.fabric with grants := s.fabric.grants ++ [g] } }) ∧
    (¬ mine → NoEvent (.fabricGrantInstall g) s) ∧
    ∃ t, exec (.fabricGrantWithdraw g) s = .next t ∧ (∀ h, h ∈ t.fabric.grants ↔ h ∈ s.fabric.grants ∧ h ≠ g) ∧
      t = { s with fabric := { s.fabric with grants := t.fabric.grants } }) ∧
  (∀ (s : State) (r : RemoteRequest),
    let i := Instr.remoteRequestArrival r
    let admitted (n : Nat) (wr : Bool) : Prop := r.addr + n ≤ 2 ^ 39 ∧
      ∃ g ∈ s.fabric.grants, g.dstNode = s.fabric.domain ∧ g.srcNode = r.srcNode ∧ g.srcPart = r.srcPart ∧
        g.base ≤ r.addr ∧ r.addr + n ≤ g.base + g.len ∧ (wr = true → g.write = true)
    let refused : Prop := exec i s = .next { s with reports := s.reports ++ [.requestRefused r.srcNode r.srcPart r.addr] }
    let bad (n : Nat) : Prop := ∃ w ∈ s.poison, wordMeets r.addr n w = true
    let updates (n : Nat) (new : Option (List Byte)) : Prop := ∃ u, Noted s u r.addr n ∧
      (bad n ∨ new = none → exec i s = .next u) ∧
      (¬ bad n → ∀ bs, new = some bs → ∃ t, exec i s = .next t ∧ WritesOnly u t r.addr bs)
    (∀ n, r.op = .read n →
      (admitted n false → ∃ t, exec i s = .next t ∧ Noted s t r.addr n) ∧ (¬ admitted n false → refused)) ∧
    (∀ bs, r.op = .write bs →
      (admitted bs.length true → ∃ t, exec i s = .next t ∧ WritesOnly s t r.addr bs) ∧
      (¬ admitted bs.length true → refused)) ∧
    (∀ minor x y, r.op = .amo minor x y →
      let old := BitVec.ofNat 64 (leNat (s.bytes r.addr 8))
      let new : Option Word := match minor.toNat with
        | 0 => some (old + x)
        | 1 => some x
        | 2 => if old = y then some x else none
        | _ => some (if old.toInt < x.toInt then x else old)
      (admitted 8 true → updates 8 (new.map fun v => leBytes 8 v.toNat)) ∧ (¬ admitted 8 true → refused)) ∧
    ∀ minor x, r.op = .vat minor x →
      let old := BitVec.ofNat 32 (leNat (s.bytes r.addr 4))
      let new : Elem := match minor.toNat with
        | 0 => (rounded ((val32 old).add (val32 x))).1
        | 1 => (rounded ((val32 old).add (val32 x))).1
        | 2 => old + x
        | 3 => if old.toInt < x.toInt then x else old
        | 4 => if x.toInt < old.toInt then x else old
        | 5 => x
        | 6 => old ||| x
        | _ => old &&& x
      (admitted 4 true → updates 4 (some (leBytes 4 new.toNat))) ∧ (¬ admitted 4 true → refused)) ∧
  (∀ (s : State) (c : RemoteCopy),
    let n := c.bytes.length
    let root := (s.partAt c.part).root2
    let admits (g : FabricGrant) : Prop := g.dstNode = s.fabric.domain ∧ g.srcNode = c.srcNode ∧ g.srcPart = c.srcPart ∧
      g.base ≤ c.addr ∧ c.addr + n ≤ g.base + g.len ∧ g.write = true
    let admitted : Prop := c.addr + n ≤ 2 ^ 39 ∧ ∃ g ∈ s.fabric.grants, admits g
    (¬ admitted → exec (.remoteEcopyArrival c) s =
      .next { s with reports := s.reports ++ [.requestRefused c.srcNode c.srcPart c.addr] }) ∧
    (admitted → s.regionNumbered c.part root c.region = none ∨ (∀ g ∈ s.fabric.grants, admits g → g.dstPart ≠ c.part) →
      NoEvent (.remoteEcopyArrival c) s) ∧
    ∀ r l, admitted → s.regionNumbered c.part root c.region = some r →
      s.stage2In c.part root r.bk0 false = .ok l →
      let b := s.fabric.normal (l.base + r.bk0 % 2 ^ l.bits)
      (¬ (b ≤ c.addr ∧ c.addr + n ≤ b + r.len) → NoEvent (.remoteEcopyArrival c) s) ∧
      (b ≤ c.addr → c.addr + n ≤ b + r.len →
        let first := c.addr - b
        let takes (off : Nat) : Prop := BlockOpen s c.part root r off (blockLength first n off)
        let publishes : Prop := c.publish = true ∧ n ≠ 0
        let busy : Prop := RegionBusy s c.part c.region fun _ _ => False
        ((∃ off, BlockStart first n off ∧ ¬ takes off) → NoEvent (.remoteEcopyArrival c) s) ∧
        (publishes → busy → NoEvent (.remoteEcopyArrival c) s) ∧
        ∀ loc : Nat → Nat, (∀ g ∈ s.fabric.grants, admits g → g.dstPart = c.part) → (∀ off, BlockStart first n off → takes off) →
          (∀ i, i < n → ∃ k, backWalk s c.part root r (first + i) = .ok k ∧ loc i = backLoc s r (first + i) k) →
          ¬ (publishes ∧ busy) → s.mem.wf = true →
          ∃ t, Placed s t loc c.bytes ∧
            exec (.remoteEcopyArrival c) s = .next (if c.publish = true ∧ n ≠ 0 then t.publish c.part root c.region else t))) ∧
  (∀ (s : State) (r : Rejection), ∃ y, Undone s y r ∧
    let i := Instr.remoteRejectionArrival r
    let u := y.focus r.hart
    let word := r.st.toNat + 4 * r.fmt.toNat + (if r.write then 32 else 0) + 64 * r.scope.toNat
    (¬ StillRuns s r → exec i s = .next y) ∧
    (StillRuns s r →
      (∀ k, r.queue = some k →
        let q := BitVec.ofNat 2 k
        ((y.hartAt r.hart).run = .absent ∨ 4 ≤ k → exec i s = .next y) ∧
        ((y.hartAt r.hart).run ≠ .absent → k < 4 → ∃ t, exec i s = .next t ∧
          t.queue q = { u.queue q with frozen := true } ∧ (∀ j, j ≠ q → t.queue j = u.queue j) ∧
          t = { u with
            hart := { u.hart with queues := t.hart.queues }, reports := u.reports ++ [.queueViolation r.hart k r.va] })) ∧
      (r.queue = none →
        let runs : Prop := (y.hartAt r.hart).run ≠ .absent ∧ (y.hartAt r.hart).run ≠ .frozen
        let v : State := { u with hart := { u.hart with ctl := { u.hart.ctl with rejected := true } } }
        (¬ runs → exec i s = .next y) ∧
        (runs → r.inFlight = true → exec i s = .next (v.takeFault (elemFault 0x12 0 [] r.va word))) ∧
        (runs → r.inFlight = false → ∃ t, exec i s = .next t ∧ SameBytes y t ∧ t.hart.run = .frozen ∧
          t.hart.record = {
            fcause := 0x12, fpc := r.fpc, fstrip := r.fstrip, felem := BitVec.ofNat 64 (r.elem % 8192),
            fidx0 := BitVec.ofNat 64 r.elem, fidx1 := 0, fidx2 := 0, faddr := r.va, fcoord := 0, finfo := BitVec.ofNat 64 word } ∧
          Unwound v t ∧ t.hart.priv = u.hart.priv ∧ t.hart.sup = u.hart.sup ∧
          t.reports = u.reports ++ [.violation r.hart r.va] ∧
          t = { u with hart := t.hart, core := t.core, saved := t.saved, reports := t.reports })))) ∧
  ∀ (s : State) (link node : Nat) (links : BitVec 24), keysCanonical s →
    let f := s.fabric
    let count := (tget f.replays link).getD 0
    let lanes := (tget f.laneFailures link).getD 0
    let up : Prop := f.linksUp.getLsbD link = true
    let spent : Prop := f.spareUsed.getLsbD link = true ∨ s.boot.unitMap.spareLanes.getLsbD link = false
    let fails : Prop := 16 ≤ count ∨ 16 ≤ lanes
    let common := (tget f.common node).getD 0
    let fresh (t : State) : Prop := tget t.fabric.replays link = none ∧ tget t.fabric.laneFailures link = none ∧
      ∀ k, k ≠ link → tget t.fabric.replays k = tget f.replays k ∧ tget t.fabric.laneFailures k = tget f.laneFailures k
    let record (kind : Nat) : ErrorRecord := { die := link / 6, kind := kind, unit := 5, part := 15, count := 0, location := link }
    (up → ∃ t, exec (.flitCrcFailure link) s = .next t ∧
      (tget t.fabric.replays link = some (count + 1) ∨ tget t.fabric.replays link = some 1) ∧
      tget t.fabric.laneFailures link = some (lanes + 1) ∧
      (∀ k, k ≠ link → tget t.fabric.replays k = tget f.replays k ∧ tget t.fabric.laneFailures k = tget f.laneFailures k) ∧
      t = { s with
        fabric := { f with replays := t.fabric.replays, laneFailures := t.fabric.laneFailures },
        free := { s.free with count := s.free.count + 1 } }) ∧
    (¬ up → NoEvent (.flitCrcFailure link) s) ∧
    (¬ (up ∧ spent ∧ fails) → NoEvent (.linkDown link) s) ∧
    (up → spent → fails → ∃ t, exec (.linkDown link) s = .next t ∧ SameBytes s t ∧ fresh t ∧
      (∀ k, t.fabric.linksUp.getLsbD k = (f.linksUp.getLsbD k && decide (k ≠ link))) ∧
      (∀ d m, tget t.fabric.common d = some m ↔ ∃ m', tget f.common d = some m' ∧
        ∀ k, m.getLsbD k = (m'.getLsbD k && decide (k ≠ link))) ∧ Logs s t (record 7) ∧
      t = { s with
        fabric := { f with
          linksUp := t.fabric.linksUp, replays := t.fabric.replays, laneFailures := t.fabric.laneFailures,
          common := t.fabric.common },
        repair := { s.repair with log := t.repair.log }, reports := t.reports }) ∧
    (¬ (up ∧ ¬ spent ∧ 16 ≤ lanes) → NoEvent (.linkLaneRetrain link) s) ∧
    (up → ¬ spent → 16 ≤ lanes → ∃ t, exec (.linkLaneRetrain link) s = .next t ∧ SameBytes s t ∧ fresh t ∧
      (∀ k, t.fabric.spareUsed.getLsbD k = (f.spareUsed.getLsbD k || decide (k = link))) ∧ Repairs s t (record 5) ∧
      t = { s with
        fabric := { f with
          spareUsed := t.fabric.spareUsed, replays := t.fabric.replays, laneFailures := t.fabric.laneFailures },
        repair := { s.repair with log := t.repair.log }, reports := t.reports, boot := t.boot }) ∧
    (let gone : Prop := 1 ≤ node ∧ node ≤ 192 ∧ node ≠ f.domain ∧ node ∉ f.lost ∧ common &&& f.linksUp = 0
     (gone → exec (.pathLoss node) s = .next { s with
       fabric := { f with lost := f.lost ++ [node] }, reports := s.reports ++ [.pathLost node] }) ∧
     (¬ gone → NoEvent (.pathLoss node) s)) ∧
    (node ∉ f.lost ∨ links = 0 → NoEvent (.pathRestored node links) s) ∧
    (node ∈ f.lost → links ≠ 0 →
      let u : State := { s with fabric := { f with
        lost := f.lost.filter fun k => k != node, linksUp := f.linksUp ||| links, common := tput f.common node links } }
      ∃ t, exec (.pathRestored node links) s = .next t ∧ ReleasedFrom [] u f.held t)

/-- R305, R307 to R309, R311 to R313: patrol scrubbing, repairs in service, boot of a die, firmware updates and quotes.
A repair changes no byte, and each record of the log has copies for Husk and the hypervisor. The model's readings and choices
in it: logs 43, 65, 67, 68, 83, 85 (the record of an error in HBM is kept by die stack/2), 88, 92. -/
def Obligations.RepairAndBoot : Prop :=
  (∀ (s : State) (unit : Nat), s.repair.weak.Nodup →
    let pass (i : Instr) (lo n die kind part : Nat) (place : Nat → Nat) : Prop :=
      let within (w : Nat) : Bool := decide (lo ≤ w) && decide (w < lo + n)
      let found := s.repair.weak.filter within
      let before (w : Nat) : Nat := (tget s.repair.corrected w).getD 0
      ∃ t records, exec i s = .next t ∧
        (∀ w, tget t.repair.corrected w = if w ∈ found then some (before w + 1) else tget s.repair.corrected w) ∧
        t.repair = { s.repair with
          weak := s.repair.weak.filter fun w => !within w, corrected := t.repair.corrected,
          recent := (s.repair.recent.filter fun w => !within w) ++ found, log := s.repair.log ++ records } ∧
        records = (found.map fun w => (⟨die, 1, kind, part, before w + 1, place w⟩ : ErrorRecord)) ++
          (s.poison.filter within).map (fun w => ⟨die, 3, kind, part, (tget t.repair.corrected w).getD 0, place w⟩) ∧
        t = { s with repair := t.repair, reports := s.reports ++ records.map Report.errorRecord }
    (8 ≤ unit → NoEvent (.hbmPatrolScrub unit) s) ∧
    (unit < 8 → pass (.hbmPatrolScrub unit) (unit * 2 ^ 36) (2 ^ 36) (unit / 2) 0 (s.partOfStack unit) id) ∧
    (192 ≤ unit → NoEvent (.vaultPatrolScrub unit) s) ∧
    (unit < 192 → pass (.vaultPatrolScrub unit) (2 ^ 52 + unit * 8388608) 8388608 (unit / 48) 1 (s.partOfCore unit)
      fun _ => unit / 48 + 256 * (unit / 4) + 65536 * unit)) ∧
  (∀ (s : State) (u : RowUnit) (bank row : Nat),
    let here (w : Nat) : Bool := rowOf u w == some (bank, row)
    let bad := s.poison.filter here
    let weak := s.repair.recent.filter here
    let used := (tget s.repair.moved (bankKey u bank)).getD []
    let spares := match u with
      | .hbm _ => 4
      | .vault _ => 2
    let spent := used.length + (tget s.boot.unitMap.spareRowsUsed (bankKey u bank)).getD 0
    let fails : Prop := bad ≠ [] ∨ 3 ≤ weak.length
    (¬ fails → NoEvent (.rowRemap u bank row) s) ∧
    let named (e : ErrorRecord) (kind : Nat) : Prop := ∃ w, (w ∈ bad ∨ bad = [] ∧ w ∈ weak) ∧ RecordOf s e kind w
    (fails → spent < spares → ∃ t e, exec (.rowRemap u bank row) s = .next t ∧ named e 4 ∧ Repairs s t e ∧
      tget t.repair.moved (bankKey u bank) = some (used ++ [row]) ∧
      (∀ k, k ≠ bankKey u bank → tget t.repair.moved k = tget s.repair.moved k) ∧
      t = { s with
        repair := { s.repair with
          moved := t.repair.moved, recent := s.repair.recent.filter fun w => !here w, log := t.repair.log },
        reports := t.reports, boot := t.boot }) ∧
    (fails → spares ≤ spent → ∃ t e, exec (.rowRemap u bank row) s = .next t ∧ named e (if bad = [] then 1 else 2) ∧
      Logs s t e ∧ t = { s with repair := { s.repair with log := t.repair.log }, reports := t.reports })) ∧
  (∀ (core w : Nat), core < 192 → 2 ^ 52 + core * 8388608 ≤ w → w < 2 ^ 52 + (core + 1) * 8388608 →
    let o := w - 2 ^ 52 - core * 8388608
    rowOf (.vault core) w = some (o / 8 % 64, o / 512)) ∧
  (∀ (s : State) (core slice cluster row : Nat), keysCanonical s →
    let c := s.coreAt core
    let lose : Prop := core < 192 ∧ slice < 16 ∧ slice ∉ c.slicesLost ∧
      2 ≤ (tget s.repair.sliceErrors (16 * core + slice)).getD 0
    let withhold : Prop := cluster < 48 ∧ row < 16 ∧ (cluster, row) ∉ s.repair.tileRowsLost ∧
      2 ≤ (tget s.repair.rowErrors (16 * cluster + row)).getD 0
    let fail : Prop := core < 192 ∧ c.retired = false
    let place := core / 48 + 256 * (core / 4) + 65536 * core
    let vacant (t : State) : Prop := t.parts = tmap (fun _ p =>
      { p with ordinals := p.ordinals.map fun o => if o == some core then none else o }) s.parts
    (¬ lose → NoEvent (.laneSliceRetire core slice) s) ∧
    (lose → ∃ t, exec (.laneSliceRetire core slice) s = .next t ∧
      t.coreAt core = { c with slicesLost := c.slicesLost ++ [slice] } ∧ (∀ k, k ≠ core → t.coreAt k = s.coreAt k) ∧
      Repairs s t ⟨core / 48, 6, 3, s.partOfCore core, 0, place + 16777216 * slice⟩ ∧
      t = { s with core := t.core, cores := t.cores, repair := { s.repair with log := t.repair.log }, reports := t.reports,
                   boot := t.boot }) ∧
    (¬ withhold → NoEvent (.arrayTileRowRetire cluster row) s) ∧
    (withhold → ∃ t, exec (.arrayTileRowRetire cluster row) s = .next t ∧
      Repairs s t ⟨cluster / 12, 6, 4, s.partOfCore (4 * cluster), 0, cluster / 12 + 256 * cluster⟩ ∧
      t = { s with
        repair := { s.repair with tileRowsLost := s.repair.tileRowsLost ++ [(cluster, row)], log := t.repair.log },
        reports := t.reports, boot := t.boot }) ∧
    (¬ fail → NoEvent (.coreRetire core) s) ∧
    (fail →
      let gone (h : Nat) : Prop := (s.hartAt h).run = .absent ∨ (s.hartAt h).run = .halted
      ∃ t, exec (.coreRetire core) s = .next t ∧ SameBytes s t ∧ (t.coreAt core).retired = true ∧
        (∃ u, Repairs s u ⟨core / 48, 6, 3, s.partOfCore core, 0, place⟩ ∧ t.repair = u.repair ∧ t.boot = u.boot ∧
          u.reports <+: t.reports ∧
          ((s.hartAt (2 * core)).sup.tvec ≠ 0 → (s.hartAt (2 * core + 1)).sup.tvec ≠ 0 → t.reports = u.reports)) ∧
        (∀ h, h ≠ 2 * core → h ≠ 2 * core + 1 → t.hartAt h = s.hartAt h) ∧
        (gone (2 * core) ∧ gone (2 * core + 1) → vacant t ∧ ∀ h, t.hartAt h = s.hartAt h) ∧
        (¬ (gone (2 * core) ∧ gone (2 * core + 1)) →
          (Config.freeBit s.free.count = false → t.parts = s.parts ∧ ∀ h, t.hartAt h = s.hartAt h) ∧
          (Config.freeBit s.free.count = true → vacant t ∧ ∀ h, h = 2 * core ∨ h = 2 * core + 1 →
            ((s.hartAt h).run = .running ∨ ∃ w, (s.hartAt h).run = .waiting w) → (t.hartAt h).sup.tcause = 0x11)))) ∧
  (∀ (s : State) (die : Nat),
    let u := (s.partsOnDie die).foldl (fun t p => t.teardown p 0) s
    let b := s.boot
    let image (k : Nat) : List Byte := (tget b.flash k).getD []
    let signed (key : List Byte) (k : Nat) : Prop :=
      Config.mldsaVerify key (shake256 (image k)) ((tget b.signatures k).getD []) = true
    let m0 := shake256 (image (2 * die))
    let m1 := shake256 (leBytes 32 m0.toNat ++ leBytes 32 (shake256 (image (2 * die + 1))).toNat)
    let map : Prop := Config.mldsaVerify Config.manufacturingKey (shake256 (Config.unitMapBytes b.unitMap)) b.unitMapSig = true ∧
      ∀ a ∈ b.amendments, Config.mldsaVerify Config.identityKey (shake256 a.1) a.2 = true
    (4 ≤ die → NoEvent (.boot die) s) ∧
    (die < 4 → ∃ t, exec (.boot die) s = .next t ∧
      t.boot = { b with
        count := if die = 0 then b.count + 1 else b.count, diesUp := t.boot.diesUp, huskUp := t.boot.huskUp,
        measures := t.boot.measures } ∧
      t.fabric.domain = (if die = 0 then b.domainConfig else s.fabric.domain) ∧
      (let v : State := { u with
         boot := t.boot, fabric := { u.fabric with domain := t.fabric.domain },
         repair := { u.repair with corrected := if die = 0 then [] else u.repair.corrected } }
       let off (c : Nat) : Bool := !(t.boot.diesUp.getLsbD (c / 48) && t.boot.huskUp.getLsbD (c / 48))
       let more := (v.parts.filter fun p => !(s.partsOnDie die).contains p.1 && p.2.ordinals.any fun o => o.any off).map Prod.fst
       let w := more.foldl (fun t p => t.teardown p 0) v
       (∀ k, tget t.parts k = (tget w.parts k).map fun p => { p with
         ordinals := p.ordinals.map fun o => o.bind fun c => if c < 192 ∧ off c = true then none else some c }) ∧
       t = { w with parts := t.parts }) ∧
      (∀ k, k ≠ die → t.boot.measures[k]? = b.measures[k]?) ∧
      (¬ signed Config.rootKey (2 * die) → t.boot.measures[die]? = some m0 ∧
        (∀ k, t.boot.diesUp.getLsbD k = (b.diesUp.getLsbD k && decide (k ≠ die))) ∧
        ∀ k, t.boot.huskUp.getLsbD k = (b.huskUp.getLsbD k && decide (k ≠ die))) ∧
      (signed Config.rootKey (2 * die) → ¬ map → t.boot.measures[die]? = some m0 ∧ t.boot.diesUp = 0 ∧ t.boot.huskUp = 0) ∧
      (signed Config.rootKey (2 * die) → map → t.boot.measures[die]? = some m1 ∧
        (∀ k, k < 4 → t.boot.diesUp.getLsbD k = (b.diesUp.getLsbD k || decide (k = die))) ∧
        (∀ k, k ≠ die → t.boot.huskUp.getLsbD k = b.huskUp.getLsbD k) ∧
        (t.boot.huskUp.getLsbD die = true ↔ signed Config.rootKey (2 * die + 1))))) ∧
  ∀ (s : State) (die : Nat) (husk : Bool) (image signature nonce : List Byte),
    let key := 2 * die + if husk then 1 else 0
    (4 ≤ die → NoEvent (.firmwareUpdate die husk image signature) s) ∧
    (die < 4 → ∃ t, exec (.firmwareUpdate die husk image signature) s = .next t ∧ tget t.boot.flash key = some image ∧
      tget t.boot.signatures key = some signature ∧
      (∀ k, k ≠ key → tget t.boot.flash k = tget s.boot.flash k ∧ tget t.boot.signatures k = tget s.boot.signatures k) ∧
      t = { s with boot := { s.boot with flash := t.boot.flash, signatures := t.boot.signatures } }) ∧
    (nonce.length ≠ 32 → NoEvent (.attestationQuote nonce) s) ∧
    (nonce.length = 32 → ∃ body sig, body.length = 208 ∧ body.take 32 = nonce ∧
      (∀ k m, s.boot.measures[k]? = some m → (body.drop (32 + 32 * k)).take 32 = leBytes 32 m.toNat) ∧
      (body.drop 160).take 32 = leBytes 32
        (shake256 (Config.unitMapBytes s.boot.unitMap ++ s.boot.amendments.flatMap fun a => a.1 ++ a.2)).toNat ∧
      (body.drop 192).take 8 = leBytes 8 s.boot.count ∧ ((body.drop 200).getD 0 0).toNat = s.fabric.domain % 256 ∧
      (s.parts.Pairwise (fun x y => x.1 < y.1) → ∀ p, p < 16 →
        (leNat (body.drop 200) / 2 ^ (16 + p) % 2 = 1 ↔ ∃ x ∈ s.parts, x.1 = p)) ∧
      sig.length = 3309 ∧ (∀ k, k < 3309 → sig.getD k 0 = (Config.mldsaSign body).getD k 0) ∧
      exec (.attestationQuote nonce) s = .next { s with boot := { s.boot with
        quotes := s.boot.quotes ++ [body ++ sig ++ [0, 0, 0]] } })

/-! ### Command streams (spec/17 R262 to R268, R314) -/

/-- R262 to R268, R287, R299, R314: the stream registers and the MSI-X table as the host writes and reads them, the ring, and
the commands WAITV, SIGNAL, COPY of data and FENCE. The order in which the pending copies of a stream are performed is a free value. The model's
readings and choices in it: logs 50, 51, 52, 53, 54, 74, 85. -/
def Obligations.StreamEvents : Prop :=
  ∀ (s : State) (fn n offset : Nat) (v : Word),
    let key := 16 * fn + n
    let x := s.streamAt key
    let becomes (i : Instr) (y : Stream) : Prop := ∃ t, exec i s = .next t ∧ StreamAs s t key y
    (192 < fn ∨ 16 ≤ n ∨ (∀ p ∈ s.parts, fn ∉ p.2.functions) →
        ∀ i ∈ [Instr.strtailWrite fn n v, .strctlWrite fn n v, .strstatStoppedClear fn n v, .streamRegisterWrite fn n offset v,
          .ringSlotFetch fn n, .waitv fn n, .waitvPoll fn n, .waitvTimeout fn n, .signal fn n, .copyData fn n,
          .commandFence fn n], NoEvent i s) ∧
    (1 ≤ fn → (∀ p ∈ s.parts, fn ∉ p.2.functions) → s.readBar0 fn offset = 0 ∧ s.writeBar0 fn offset v = s) ∧
    (let t := s.writeBar0 fn offset v
     let table : Prop := 0x1000 ≤ offset ∧ offset < 0x1200
     t = { s with functions := t.functions } ∧ (¬ table → t = s) ∧
     (table → fn = 0 ∨ (∃ p ∈ s.parts, fn ∈ p.2.functions) → t.readBar0 fn offset = v) ∧
     ∀ f o, f ≠ fn ∨ o / 8 ≠ offset / 8 → t.readBar0 f o = s.readBar0 f o) ∧
    (n < 16 → offset < 0x40 → (∃ p ∈ s.parts, fn ∈ p.2.functions) →
      let r := s.readBar0 fn (0x10000 + 0x40 * n + offset)
      let idle : Prop := x.head = x.tail ∧ x.cmd = none ∧ x.launches = [] ∧ x.releases = [] ∧ x.copies = []
      (offset = 0x00 → r = x.base) ∧ (offset = 0x08 → r.toNat = x.log2n.toNat) ∧ (offset = 0x10 → r.toNat = x.head.toNat) ∧
      (offset = 0x18 → r.toNat = x.tail.toNat) ∧ (offset = 0x20 → r = x.xlat) ∧
      (offset = 0x28 → r.toNat = (if x.en then 1 else 0) + if x.det then 2 else 0) ∧
      (offset = 0x30 → (r.getLsbD 0 = true ↔ idle) ∧ r.getLsbD 1 = x.stopped ∧ r.extractLsb' 8 8 = x.cause ∧
        r.extractLsb' 2 6 = 0 ∧ r.extractLsb' 16 48 = 0) ∧
      (offset ∉ [0x00, 0x08, 0x10, 0x18, 0x20, 0x28, 0x30] → r = 0)) ∧
    ∀ part, fn ≤ 192 → n < 16 → s.partOfFn fn = some part → s.mem.wf = true →
      let miss (va : Word) (len : Nat) (need : Need) (rep : List Report) : Prop := ProcMiss s fn part x.xlat va len need rep
      let hit (va : Word) (len : Nat) (need : Need) (loc : Nat) : Prop := ProcHit s part x.xlat va len need loc
      let size := 2 ^ x.log2n.toNat
      (let y := { x with tail := v.setWidth 32 }
       ((y.tail - x.head).toNat ≤ size → becomes (.strtailWrite fn n v) y) ∧
       (size < (y.tail - x.head).toNat → becomes (.strtailWrite fn n v) { y with stopped := true, cause := 1 })) ∧
      (let y := { x with en := v.getLsbD 0, det := if x.en then x.det else v.getLsbD 1 }
       let wrong : Prop := x.en = false ∧ (x.log2n.toNat < 4 ∨ 16 < x.log2n.toNat)
       let dropped : Prop := ∃ c, x.cmd = some c ∧ c.kind = 2 ∧ x.begun = true ∧ (c.dw 4).toNat / 2 ^ 32 = 0
       (v.getLsbD 0 = true → ¬ wrong → becomes (.strctlWrite fn n v) y) ∧
       (v.getLsbD 0 = true → wrong → becomes (.strctlWrite fn n v) { y with stopped := true, cause := 1 }) ∧
       (v.getLsbD 0 = false → ¬ dropped → becomes (.strctlWrite fn n v) y) ∧
       (v.getLsbD 0 = false → dropped →
         becomes (.strctlWrite fn n v) { y with cmd := none, begun := false, polled := 0 })) ∧
      becomes (.strstatStoppedClear fn n v) { x with stopped := x.stopped && !v.getLsbD 1 } ∧
      (x.en = true ∨ (offset ≠ 0 ∧ offset ≠ 8 ∧ offset ≠ 0x20) → NoEvent (.streamRegisterWrite fn n offset v) s) ∧
      (x.en = false → becomes (.streamRegisterWrite fn n 0x00 v) { x with base := v &&& bits 63 6 } ∧
        becomes (.streamRegisterWrite fn n 0x08 v) { x with log2n := v.setWidth 5 } ∧
        becomes (.streamRegisterWrite fn n 0x20 v) { x with xlat := v }) ∧
      (let ready : Prop := x.en = true ∧ x.stopped = false ∧ x.cmd = none ∧ x.head ≠ x.tail
       let slot := x.base + BitVec.ofNat 64 (64 * (x.head.toNat % size))
       (¬ ready → NoEvent (.ringSlotFetch fn n) s) ∧
       (ready →
         ∃ v, ProcNotes s v part x.xlat slot 64 ∧
         (∀ rep, miss slot 64 .read rep → ∃ t, exec (.ringSlotFetch fn n) s = .next { t with reports := t.reports ++ rep } ∧
           StreamAs v t key { x with stopped := true, cause := 4 }) ∧
         ∀ loc, hit slot 64 .read loc →
           let becomes (y : Stream) : Prop := ∃ t, exec (.ringSlotFetch fn n) s = .next t ∧ StreamAs v t key y
           (s.unreadable loc 64 = true → becomes { x with stopped := true, cause := 4 }) ∧
           (s.unreadable loc 64 = false → ∀ c : Cmd,
             (∀ k : Fin 8, c.dw k = BitVec.ofNat 64 (leNat (s.bytes (loc + 8 * k.val) 8))) →
             let op := (c.dw 0).toNat % 256
             let known : Prop := 1 ≤ op ∧ op ≤ 5
             let y := { x with head := x.head + 1 }
             (known → WellFormedCommand c → becomes { y with cmd := some c, begun := false }) ∧
             (¬ (known ∧ WellFormedCommand c) →
               let d : Nat := if 1 ≤ op ∧ op ≤ 5 then 3 else 2
               let compl := if (c.dw 1).toNat % 16 = 0 then c.dw 1 else 0
               ∃ u t, exec (.ringSlotFetch fn n) s = .next t ∧
                 StreamAs v u key { y with stopped := true, cause := BitVec.ofNat 8 d } ∧
                 Completes u t part key x.xlat compl ((c.dw 0).getLsbD 9) (finalRecord 1 d 0) 0)))) ∧
      (∀ p ∈ [(Instr.waitv fn n, 2#8, false), (.waitvPoll fn n, 2#8, true), (.waitvTimeout fn n, 2#8, true),
          (.signal fn n, 3#8, false), (.commandFence fn n, 5#8, false)],
        (x.cmd = none ∨ x.begun ≠ p.2.2 → NoEvent p.1 s) ∧ ∀ c, x.cmd = some c → c.kind ≠ p.2.1 → NoEvent p.1 s) ∧
      (∀ c, x.cmd = some c →
        (c.kind = 2 →
          (∀ i, (i = .waitv fn n ∧ x.begun = false) ∨ (i = .waitvPoll fn n ∧ x.begun = true) →
            ∃ v, ProcNotes s v part x.xlat (c.dw 2) 8 ∧
            (∀ rep, miss (c.dw 2) 8 .read rep → Ends i s v part key x c (finalRecord 6 0 0) (c.dw 2).toNat rep) ∧
            ∀ loc, hit (c.dw 2) 8 .read loc →
              let value := leNat (s.bytes loc 8)
              let waits (y : Stream) : Prop := ∃ t, exec i s = .next t ∧ StreamAs v t key y
              let forever : Prop := (c.dw 4).toNat / 2 ^ 32 = 0
              (s.unreadable loc 8 = true → Ends i s v part key x c (finalRecord 6 0 0) (c.dw 2).toNat []) ∧
              (s.unreadable loc 8 = false → WaitHolds c value → Ends i s v part key x c (finalRecord 0 0 0) 0 []) ∧
              (s.unreadable loc 8 = false → ¬ WaitHolds c value → x.en = true ∨ ¬ forever →
                waits { x with begun := true, polled := BitVec.ofNat 64 value }) ∧
              (s.unreadable loc 8 = false → ¬ WaitHolds c value → x.en = false → forever →
                waits { x with cmd := none, begun := false, polled := 0 })) ∧
          (x.begun = true →
            ((c.dw 4).toNat / 2 ^ 32 = 0 → NoEvent (.waitvTimeout fn n) s) ∧
            ((c.dw 4).toNat / 2 ^ 32 ≠ 0 →
              Ends (.waitvTimeout fn n) s s part key x c (finalRecord 5 0 0) x.polled.toNat []))) ∧
        (c.kind = 3 → x.begun = false →
          let add := (c.dw 4).getLsbD 0
          let i := Instr.signal fn n
          (∀ rep, miss (c.dw 2) 8 .write rep → Ends i s s part key x c (finalRecord 6 0 0) (c.dw 2).toNat rep) ∧
          ∀ h, ProcReach s part x.xlat (c.dw 2) 8 .write h →
            let loc := h.loc
            let value := ((if add then leNat (s.bytes loc 8) else 0) + (c.dw 3).toNat) % 2 ^ 64
            (s.poisoned loc 8 = true ∨ add = true ∧ s.noPath loc = true → ∃ v, Noted s v loc 8 ∧
              Ends i s v part key x c (finalRecord 6 0 0) (c.dw 2).toNat []) ∧
            (s.poisoned loc 8 = false → add = false ∨ s.noPath loc = false → ∃ v w,
              (add = true → Noted s v loc 8) ∧ (add = false → v = s) ∧ ProcWrites v w key h (leBytes 8 value) ∧
              Ends i s w part key x c (finalRecord 0 0 0) 0 [])) ∧
        (c.kind = 5 → x.begun = false →
          let drained : Prop := x.launches = [] ∧ x.loads = [] ∧ x.releases = [] ∧ x.copies = []
          (drained → Ends (.commandFence fn n) s s part key x c (finalRecord 0 0 0) 0 []) ∧
          (¬ drained → NoEvent (.commandFence fn n) s))) ∧
      (let starts (c : Cmd) : Prop := x.cmd = some c ∧ c.kind = 4 ∧ (c.dw 4).toNat / 2 ^ 40 % 4 = 0 ∧ x.begun = false
       let i := Instr.copyData fn n
       (∀ c, starts c →
         ((c.dw 0).getLsbD 8 = true →
           becomes i { x with cmd := none, begun := false, polled := 0, copies := x.copies ++ [c] }) ∧
         ((c.dw 0).getLsbD 8 = false → ∃ w cls info, CopyOutcome s w key part x.xlat c cls info ∧
           Ends i s w part key x c (finalRecord cls 0 0) info.toNat [])) ∧
       ((∀ c, ¬ starts c) → (x.copies = [] → NoEvent i s) ∧
         (x.copies ≠ [] → ∃ k c w cls info, x.copies[k]? = some c ∧
           CopyOutcome { s with free := { s.free with count := s.free.count + 1 } } w key part x.xlat c cls info ∧
           ∃ u t, exec i s = .next t ∧ StreamAs w u key { x with copies := x.copies.eraseIdx k } ∧
             Completes u t part key x.xlat (c.dw 1) ((c.dw 0).getLsbD 9) (finalRecord cls 0 0) info.toNat)))

/-! ### Launches and code objects (spec/15 R241; spec/16 R246 to R257; spec/17 R265 to R276) -/

/-- R5, R14, R15, R241, R246 to R257, R265 to R276: LAUNCH and its tests, made again when it begins late; the hand-out of
workgroups, beside `.pin` launches too; the end of a launch; and the load and release of a code object, each limit of its
header, prefix and segments. The bytes a segment places are stated for one that lies in a page. The model's readings and
choices in it: logs 43, 53, 55, 56, 57, 58, 59, 60, 73, 84, 92. -/
def Obligations.LaunchAndLoad : Prop :=
  (∀ (s : State) (fn n : Nat),
    let key := 16 * fn + n
    let x := s.streamAt key
    (192 < fn ∨ 16 ≤ n ∨ (∀ p ∈ s.parts, fn ∉ p.2.functions) → ∀ i ∈ [Instr.launch fn n, .copyObjectLoad fn n,
      .copyObjectRelease fn n, .objectReleaseCompletion fn n], NoEvent i s) ∧
    ∀ part, fn ≤ 192 → n < 16 → s.partOfFn fn = some part → s.mem.wf = true →
      let p := s.partAt part
      (x.cmd = none ∨ x.begun = true → ∀ i ∈ [Instr.launch fn n, .copyObjectLoad fn n, .copyObjectRelease fn n], NoEvent i s) ∧
      (∀ c, x.cmd = some c →
        let mode := (c.dw 4).toNat / 2 ^ 40 % 4
        (c.kind ≠ 1 → NoEvent (.launch fn n) s) ∧ (c.kind ≠ 4 ∨ mode ≠ 1 → NoEvent (.copyObjectLoad fn n) s) ∧
        (c.kind ≠ 4 ∨ mode ≠ 2 → NoEvent (.copyObjectRelease fn n) s) ∧
        (c.kind = 1 → x.begun = false →
          LaunchTested s part key x.xlat x.det c
            (fun detail => Ends (.launch fn n) s s part key x c (finalRecord 2 detail 0) 0 [])
            (fun l => ∃ u t, exec (.launch fn n) s = .next t ∧ tget u.launches s.nextLaunch = some l ∧
              (∀ k, k ≠ s.nextLaunch → tget u.launches k = tget s.launches k) ∧
              u.streamAt key = { x with begun := true } ∧ (∀ k, k ≠ key → u.streamAt k = s.streamAt k) ∧
              u = { s with launches := u.launches, streams := u.streams, nextLaunch := s.nextLaunch + 1 } ∧
              (MayBegin s part x.det → Begins u t s.nextLaunch l) ∧ (¬ MayBegin s part x.det → t = u))) ∧
        (c.kind = 4 → mode = 1 → x.begun = false →
          let i := Instr.copyObjectLoad fn n
          let src := c.dw 2
          let len := (c.dw 4).toNat % 2 ^ 40
          let ends (m : Nat) (w0 info : Nat) (rep : List Report) : Prop :=
            ∃ v, ProcNotes s v part x.xlat src m ∧ Ends i s v part key x c w0 info rep
          let refused (m status : Nat) : Prop := ends m (finalRecord 3 status 0) 0 []
          let legal (h : List Byte) : Prop := HeaderLegal h ∧ (x.det = true → OrderedObject h)
          let unread (m : Nat) : Prop := ∀ stop rep, StreamStops s fn part x.xlat src m stop rep →
            ends ((stop - src).toNat + 1) (finalRecord 6 0 0) stop.toNat rep
          (unread (min 128 len)) ∧
          (∀ h, h.length = len → len < 128 → StreamBytes s part x.xlat src h → refused len 1) ∧
          (∀ h, h.length = 128 → 128 ≤ len → StreamBytes s part x.xlat src h →
            (¬ legal h ∨ len < prefixLength h → refused 128 1) ∧
            (legal h → prefixLength h ≤ len → unread (prefixLength h))) ∧
          (∀ b, b.length = prefixLength (b.take 128) → b.length ≤ len → legal (b.take 128) →
            StreamBytes s part x.xlat src b →
            let subset (off : Nat) (w : Word) : Prop := BitVec.ofNat 64 (bytesAt b off 8) &&& ~~~w = 0
            let features : Prop := subset 128 p.caps.feat0 ∧ subset 136 p.caps.feat1 ∧ subset 144 p.caps.feat2 ∧
              subset 152 p.caps.feat3
            let mm := bytesAt b 7 1
            let revision : Prop := (mm = 1 ∧ p.caps.mm.getLsbD 0 = true) ∨ (mm = 2 ∧ p.caps.mm.getLsbD 1 = true)
            let refused := refused b.length
            (¬ PrefixZero b → refused 1) ∧
            (PrefixZero b → ¬ SignatureGood p b → refused 2) ∧
            (PrefixZero b → SignatureGood p b →
              (¬ features → refused 3) ∧ (features → ¬ revision → refused 4) ∧
              (features → revision → ¬ subset 24 p.caps.errata → refused 5) ∧
              (features → revision → subset 24 p.caps.errata →
                let status : Nat := if bytesAt b 6 1 ≤ p.caps.mm.toNat / 256 % 256 then 0 else 9
                ∃ w v o, ProcNotes s w part x.xlat src b.length ∧ tget v.objects s.nextObject = some o ∧
                  (∀ k, k ≠ s.nextObject → tget v.objects k = tget s.objects k) ∧
                  v = { w with objects := v.objects, nextObject := s.nextObject + 1 } ∧
                  (∀ h, h.length = 64 → b.length + 64 ≤ len →
                    StreamBytes s part x.xlat (src + BitVec.ofNat 64 b.length) h → o.segments.head? = some (announcedBy h)) ∧
                  Ends i s v part key { x with loads := if (c.dw 0).getLsbD 8 then x.loads ++ [s.nextObject] else x.loads } c
                    (1 + 65536 * status) 0 [] ∧
                  o = { o with
                    handle := src, len := len, part := part, root := x.xlat, stream := key,
                    entry := BitVec.ofNat 64 (bytesAt b 16 8), mmrev := BitVec.ofNat 2 mm,
                    errata := BitVec.ofNat 64 (bytesAt b 24 8), pin := decide (bytesAt b 15 1 % 2 = 1),
                    ordered := decide (bytesAt b 8 4 % 32 = 0), ncores := p.ordinals.length,
                    status := BitVec.ofNat 8 status, nseg := bytesAt b 12 2, arrived := 0, nextAt := b.length,
                    expect := BitVec.ofNat 256 (bytesAt b 48 32), complete := false, failed := false, released := false,
                    compl := c.dw 1, irq := (c.dw 0).getLsbD 9, nowait := (c.dw 0).getLsbD 8 } ∧
                  (∀ k : Fin 4, o.req.get k = BitVec.ofNat 64 (bytesAt b (128 + 8 * k.val) 8)) ∧
                  o.nests.length = bytesAt b 14 1 ∧
                  (∀ (m : Nat) (r : Vector Word 8), o.nests[m]? = some r →
                    ∀ k : Fin 8, r.get k = BitVec.ofNat 64 (bytesAt b (160 + 64 * m + 8 * k.val) 8)) ∧
                  o.relocs = (List.range (bytesAt b 32 4)).map fun m =>
                    let off := 160 + 64 * bytesAt b 14 1 + 16 * m
                    (BitVec.ofNat 64 (bytesAt b off 8), BitVec.ofNat 64 (bytesAt b (off + 8) 8)))))) ∧
        (c.kind = 4 → mode = 2 → x.begun = false →
          let i := Instr.copyObjectRelease fn n
          ((∀ id o, ¬ Named s part (c.dw 2) id o) → Ends i s s part key x c (finalRecord 2 2 0) 0 []) ∧
          ∀ id o, Named s part (c.dw 2) id o →
            let y := { x with releases := x.releases ++ [(⟨id, c.dw 1, (c.dw 0).getLsbD 9⟩ : Pending)] }
            ∃ v t, exec i s = .next t ∧ ObjectAs s v id { o with released := true } ∧
              StreamAs v t key (if (c.dw 0).getLsbD 8 then { y with cmd := none, begun := false, polled := 0 }
                else { y with begun := true }))) ∧
      (let may (r : Pending) : Prop := (∀ q ∈ s.launches, q.2.begun.isSome = true → q.2.object ≠ r.object) ∧
         ∀ o, tget s.objects r.object = some o → o.complete = true ∨ o.failed = true
       ((∀ r ∈ x.releases, ¬ may r) → NoEvent (.objectReleaseCompletion fn n) s) ∧
       (keysCanonical s → ∀ (k : Nat) (r : Pending), x.releases[k]? = some r → may r →
         (∀ (j : Nat) (q : Pending), j < k → x.releases[j]? = some q → ¬ may q) →
         let y := { x with releases := x.releases.eraseIdx k }
         let last : Prop := k + 1 = x.releases.length ∧ x.begun = true ∧
           ∃ c, x.cmd = some c ∧ c.kind = 4 ∧ (c.dw 4).toNat / 2 ^ 40 % 4 = 2
         ∃ v u t, exec (.objectReleaseCompletion fn n) s = .next t ∧ tget v.objects r.object = none ∧
           (∀ j, j ≠ r.object → tget v.objects j = tget s.objects j) ∧ v = { s with objects := v.objects } ∧
           (last → StreamAs v u key { y with cmd := none, begun := false, polled := 0 }) ∧ (¬ last → StreamAs v u key y) ∧
           Completes u t part key x.xlat r.compl r.irq (finalRecord 0 0 0) 0))) ∧
  (∀ (s : State) (id hart : Nat),
    (tget s.launches id = none → ∀ i ∈ [Instr.launchDeferredBegin id, .workgroupHandoff id hart, .launchCompletion id,
      .launchFaultedEnd id hart], NoEvent i s) ∧
    ∀ l, tget s.launches id = some l →
      let p := s.partAt l.part
      let core := coreOf hart
      (l.begun = none → MayBegin s l.part l.det →
        let x := s.streamAt l.stream
        let begins (q : Launch) : Prop := ∃ t, exec (.launchDeferredBegin id) s = .next t ∧ Begins s t id q
        (x.cmd = none → begins l) ∧
        (keysCanonical s → ∀ c, x.cmd = some c → LaunchTested s l.part l.stream l.root l.det c
          (fun detail => ∃ v, tget v.launches id = none ∧ (∀ k, k ≠ id → tget v.launches k = tget s.launches k) ∧
            v = { s with launches := v.launches } ∧
            Ends (.launchDeferredBegin id) s v l.part l.stream x c (finalRecord 2 detail 0) 0 [])
          begins)) ∧
      (l.begun.isSome = true ∨ ¬ MayBegin s l.part l.det → NoEvent (.launchDeferredBegin id) s) ∧
      ((∀ lane i k, ¬ Offers s l hart lane i k) ∨ tget s.objects l.object = none → NoEvent (.workgroupHandoff id hart) s) ∧
      ((∃ q ∈ s.launches, ∃ a b lane i k, q.2.part = l.part ∧ q.2.begun = some a ∧ l.begun = some b ∧ a < b ∧
        Offers s q.2 hart lane i k) → NoEvent (.workgroupHandoff id hart) s) ∧
      (∀ lane i k o, Offers s l hart lane i k → tget s.objects l.object = some o →
        (∀ q ∈ s.launches, ∀ a b lane i k, q.2.part = l.part → q.2.begun = some a → l.begun = some b → a < b →
          ¬ Offers s q.2 hart lane i k) →
        ∃ t js, exec (.workgroupHandoff id hart) s = .next t ∧
          (let x := s.hartAt hart
           let y := t.hartAt hart
           y = { Hart.reset with
             run := .running, pc := o.entry, regs := y.regs, csr := { UserCsr.reset with det := l.det, mmrev := o.mmrev },
             sup := { x.sup with tcause := 0, hpri := l.pri, xlat1 := l.root &&& 0x800FFFFFFFFFF000, xlat2 := p.root2 },
             ctl := { HartCtl.reset with errata := o.errata, req := o.req, part := l.part, launch := some id, index := i } } ∧
           IndicesOf (l.spatial.map Prod.fst) js i ∧
           (∀ (r : BitVec 5) (w : Nat), (r.toNat, w) ∈ [(0, 0), (1, i), (2, js.getD 0 0), (3, js.getD 1 0), (4, js.getD 2 0),
             (6, k), (7, p.ordinals.length), (8, l.temporal.getD 0 0), (9, l.temporal.getD 1 0), (10, l.temporal.getD 2 0)] →
             y.x r = BitVec.ofNat 64 w) ∧ y.x 5 = l.args ∧ ∀ r : BitVec 5, 10 < r.toNat → y.x r = 0) ∧
          (∀ h, h ≠ hart → t.hartAt h = s.hartAt h) ∧
          tget t.launches id = some { l with
            handed := l.handed.set lane (l.handed.getD lane 0 + 1), running := l.running ++ [hart] } ∧
          (∀ h, h ≠ id → tget t.launches h = tget s.launches h) ∧
          (let c := s.coreAt core
           t.coreAt core = { c with pinned := (t.coreAt core).pinned } ∧
           ∀ k, k ∈ (t.coreAt core).pinned ↔
             k ∈ c.pinned ∧ (tget s.launches k).isSome = true ∧ k ≠ id ∨ l.pin = true ∧ k = id) ∧
          (∀ h, h ≠ core → t.coreAt h = s.coreAt h) ∧
          t = { s with hart := t.hart, core := t.core, harts := t.harts, cores := t.cores, launches := t.launches,
                       vaults := t.vaults, free := t.free } ∧
          let keeps : Prop := VaultKept s core l.part ∨ (s.hartAt (sibling hart)).run ≠ .absent
          let halves := match p.pair with
            | none => [2 * core, 2 * core + 1]
            | some _ => [2 * core + if p.half then 1 else 0]
          (keeps → t.vaults = s.vaults ∧ t.free = s.free) ∧
          (¬ keeps → t.free = { s.free with count := s.free.count + halves.length } ∧
            (∀ (j h : Nat), halves[j]? = some h → tget t.vaults h = some (s.free.count + j)) ∧
            ∀ h, h ∉ halves → tget t.vaults h = tget s.vaults h)) ∧
      (l.begun = none ∨ l.running ≠ [] ∨ (l.ended = none ∧ l.handed.sum ≠ l.total) → NoEvent (.launchCompletion id) s) ∧
      (keysCanonical s → s.mem.wf = true → l.begun.isSome = true → l.running = [] →
        (∀ c i, l.ended = some (c, i) →
          LaunchEnds (.launchCompletion id) s id l (finalRecord 4 0 c.toNat) (i % 2 ^ 64)) ∧
        (l.ended = none → l.handed.sum = l.total → LaunchEnds (.launchCompletion id) s id l (finalRecord 0 0 0) 0)) ∧
      let x := s.hartAt hart
      let trapped : Prop := x.priv = .supervisor ∨ ∃ c, x.run = .stopped c
      (hart ∉ l.running ∨ l.ended.isSome = true ∨ ¬ trapped → NoEvent (.launchFaultedEnd id hart) s) ∧
      (keysCanonical s → hart ∈ l.running → l.ended = none → trapped → l.running.Nodup →
        ∃ v t, exec (.launchFaultedEnd id hart) s = .next t ∧
          tget v.launches id = some { l with ended := some (x.sup.tcause, x.ctl.index) } ∧
          (∀ k, k ≠ id → tget v.launches k = tget s.launches k) ∧ v = { s with launches := v.launches } ∧
          CutsOff v t l.running)) ∧
  (∀ (l : Launch) (p : Partition) (lane : Nat), l.det = false → (l.spatial.filter Prod.snd).length = 1 → lane < p.dies.length →
    let d := p.dies.length
    (∀ i, (∃ k, l.nth p lane k = some i) ↔ ∃ js, IndicesOf (l.spatial.map Prod.fst) js i ∧
      ∀ (k j c : Nat), js[k]? = some j → l.spatial[k]? = some (c, true) → c * lane / d ≤ j ∧ j < c * (lane + 1) / d) ∧
    ∀ k k' i', k < k' → l.nth p lane k' = some i' → ∃ i, l.nth p lane k = some i ∧ i < i') ∧
  (∀ (s : State) (id : Nat) (frame : Word),
    let i := Instr.segmentRecordArrival id frame
    (tget s.objects id = none → NoEvent i s) ∧
    ∀ o, tget s.objects id = some o →
      let at0 := o.handle + BitVec.ofNat 64 o.nextAt
      let reads (va : Word) (bs : List Byte) : Prop := StreamBytes s o.part o.root va bs
      let failsFrom (v : State) (w0 info : Nat) (rep : List Report) : Prop :=
        LoadEnds i s v id { o with failed := true } w0 info rep
      let fails := failsFrom s
      let unread (va : Word) (m : Nat) : Prop := ∀ stop rep, StreamStops s (o.stream / 16) o.part o.root va m stop rep →
        ∃ x, ProcNotes s x o.part o.root at0 ((stop - at0).toNat + 1) ∧ failsFrom x (finalRecord 6 0 0) stop.toNat rep
      (o.complete = true ∨ o.failed = true → NoEvent i s) ∧
      (o.complete = false → o.failed = false → s.mem.wf = true →
        (o.len < o.nextAt + 64 → fails (finalRecord 3 8 0) 0 []) ∧
        (o.nextAt + 64 ≤ o.len → unread at0 64 ∧
          ∀ h, h.length = 64 → reads at0 h →
            let size := bytesAt h 8 4
            (o.len < o.nextAt + 64 + size → fails (finalRecord 3 8 0) 0 []) ∧
            (o.nextAt + 64 + size ≤ o.len → unread (at0 + 64) size ∧
              ∀ content, content.length = size → reads (at0 + 64) content →
                let g := announcedBy h
                let fits : Prop := SegmentLegal h ∧ (o.arrived + 1 = o.nseg → ZeroBytes h 32 64) ∧ ∀ page, OnPage g page → PageOpen s id o g.kind page
                ∃ x, ProcNotes s x o.part o.root at0 (64 + size) ∧
                (shake256 (h ++ content) ≠ o.expect → failsFrom x (finalRecord 3 8 0) 0 []) ∧
                (shake256 (h ++ content) = o.expect →
                  (¬ fits → failsFrom x (finalRecord 3 6 0) 0 []) ∧
                  (fits → o.relocated o.arrived o.relocs content = none → failsFrom x (finalRecord 3 7 0) 0 []) ∧
                  ∀ placed, fits → o.relocated o.arrived o.relocs content = some placed →
                    (¬ FrameHolds s o.part frame (pageCount g) → NoEvent i s) ∧
                    (FrameHolds s o.part frame (pageCount g) →
                      let o1 := { o with
                        segments := o.segments.take o.arrived ++ { g with frame := some frame } ::
                          o.segments.drop (o.arrived + 1),
                        arrived := o.arrived + 1, nextAt := o.nextAt + 64 + size,
                        expect := BitVec.ofNat 256 (bytesAt h 32 32), complete := decide (o.arrived + 1 = o.nseg) }
                      ∃ v u, ObjectAs x v id o1 ∧
                        u = { v with mem := u.mem, poison := u.poison, repair := { v.repair with weak := u.repair.weak } } ∧
                        (g.memsz = 0 → SameBytes s u) ∧
                        (∀ t, g.va.toNat % 65536 + g.memsz ≤ 65536 →
                          v.walk (v.processor o.part o.root) g.va.toNat false = .ok t →
                          t.at g.va.toNat + g.memsz ≤ 2 ^ 52 → ∀ a, u.byte a =
                            if t.at g.va.toNat ≤ a ∧ a < t.at g.va.toNat + g.memsz then placed.getD (a - t.at g.va.toNat) 0
                            else s.byte a) ∧
                        (o1.complete = false → exec i s = .next u) ∧
                        (o1.complete = true →
                          LoadEnds i s u id o1 (finalRecord 0 o.status.toNat 0) 0 []))))))) ∧
  ∀ (o : CodeObject) (content : List Byte) (w0 w1 : Word), w0.toNat % 65536 = o.arrived → o.arrived < o.nseg →
    let kind := w0.toNat / 65536 % 256
    let off := w0.toNat / 2 ^ 32
    let v : Int := (w1.setWidth 32).toInt * o.ncores + (w1.extractLsb' 32 32).toInt
    let result := o.relocated o.arrived [(w0, w1)] content
    let w := wordAt content off
    (∀ n, (kind = 2 ∧ n = 4 ∧ -(2 ^ 31) ≤ v ∧ v < 2 ^ 32) ∨ (kind = 3 ∧ n = 8) → off + n ≤ content.length →
      result = some (content.take off ++ leBytes n (v % 2 ^ 64).toNat ++ content.drop (off + n))) ∧
    (∀ n : Nat, (kind = 0 ∧ n = 16 ∧ w.toNat / 2 ^ 23 = 0x184 ∧ -(2 ^ 15) ≤ v ∧ v < 2 ^ 15) ∨
        (kind = 1 ∧ n = 11 ∧ isSI w = true ∧ imm11Fits w v = true) → off % 2 = 0 → off + 4 ≤ content.length →
      ∃ out, result = some out ∧ out.length = content.length ∧ (∀ k, k < off ∨ off + 4 ≤ k → out[k]? = content[k]?) ∧
        (wordAt out off).toNat = w.toNat / 2 ^ n * 2 ^ n + (v % 2 ^ n).toNat) ∧
    ((kind = 0 ∧ (w.toNat / 2 ^ 23 ≠ 0x184 ∨ v < -(2 ^ 15) ∨ 2 ^ 15 ≤ v)) ∨
        (kind = 1 ∧ (isSI w = false ∨ imm11Fits w v = false)) ∨ (kind < 2 ∧ off % 2 ≠ 0) ∨
        (kind = 2 ∧ (v < -(2 ^ 31) ∨ 2 ^ 32 ≤ v)) ∨ 3 < kind ∨ content.length < off + 4 ∨
        (kind = 3 ∧ content.length < off + 8) → result = none)

/-! ### Partitions (spec/12 R208, R209; spec/16 R258; spec/17 R278 to R280; spec/19 R296 to R299, R304) -/

/-- R5, R208, R209, R258, R259, R278, R279, R296 to R299, R304: the movement of a core, creation, resizing and destruction
of a partition, its capabilities, its envelope, a switch between the members of a pair, teardown and function-level
reset. That a request that breaks a limit is reported, and that a resize keeps the cores of the ordinals it keeps, are the
model's. The model's readings and choices in it: logs 59, 61, 65, 66, 83, 85 to 88. -/
def Obligations.PartitionEvents : Prop :=
  ∀ (s : State), keysCanonical s → s.mem.wf = true →
    let rejected (i : Instr) (part : Nat) : Prop := exec i s = .next { s with reports := s.reports ++ [.requestRejected part] }
    let workgroup (part h : Nat) : Prop := (s.hartAt h).ctl.part = part ∧ (s.hartAt h).run ≠ .absent
    let shadowLeft (t : State) (cores : List Nat) (pair : Option Nat) : Prop := ∀ k, k ∈ t.saved ↔ k ∈ s.saved ∧
      ¬ (k.2.area = none ∧ coreOf k.1 ∈ cores ∧ some (s.hartAt k.1).ctl.part ≠ pair)
    let units (n : Nat) (gone : Nat → Prop) (w : Nat) : Prop :=
      ∃ l : List Nat, l.Nodup ∧ (∀ i, i ∈ l ↔ i < n ∧ ¬ gone i) ∧ l.length = w
    (∀ donor recipient core : Nat,
      let d := s.partAt donor
      let r := s.partAt recipient
      let may : Prop := donor ≠ recipient ∧ some core ∈ d.ordinals ∧ d.pair = none ∧ r.pair = none ∧
        (s.hartAt (2 * core)).run = .absent ∧ (s.hartAt (2 * core + 1)).run = .absent ∧
        (∀ l ∈ s.launches, l.2.part = donor → l.2.begun.isSome = true → l.2.det = false ∧ l.2.pin = false) ∧
        d.minCores + 1 ≤ (d.ordinals.filter Option.isSome).length ∧ r.target ≠ 0 ∧
        (s.repair.vaultZeroing.filter fun v => v.2 == recipient).length < (r.ordinals.filter Option.isNone).length
      let i := Instr.serviceWindowExpiry donor recipient core
      (¬ may → NoEvent i s) ∧
      (may → ∃ t, exec i s = .next t ∧
        tget t.parts donor = some { d with ordinals := d.ordinals.map fun o => if o = some core then none else o } ∧
        (∀ k, k ≠ donor → tget t.parts k = tget s.parts k) ∧
        t = { s with
          parts := t.parts,
          repair := { s.repair with vaultZeroing := s.repair.vaultZeroing ++ [(core, recipient)] } })) ∧
    (∀ core : Nat, let i := Instr.vaultZeroCompletion core
      ((∀ v ∈ s.repair.vaultZeroing, v.1 ≠ core) ∨ VaultInFlight s core none [] → NoEvent i s) ∧
      ∀ r pre post, s.repair.vaultZeroing = pre ++ (core, r) :: post → (∀ v ∈ pre, v.1 ≠ core) → ¬ VaultInFlight s core none [] →
        ∃ t, exec i s = .next t ∧ Zeroed s t [vaultRange core none] ∧
          t = { s with
            mem := t.mem, poison := t.poison, vaults := t.vaults, parts := t.parts, core := t.core, cores := t.cores,
            repair := { s.repair with
              weak := t.repair.weak, vaultZeroing := s.repair.vaultZeroing.filter fun v => v.1 != core } } ∧
          (∀ k, k ≠ r → tget t.parts k = tget s.parts k) ∧ (∀ c, c ≠ core → t.coreAt c = s.coreAt c) ∧
          (tget s.parts r = none ∨ ¬ Up s core → tget t.parts r = tget s.parts r ∧ t.coreAt core = s.coreAt core) ∧
          ∀ p, tget s.parts r = some p → Up s core →
            t.coreAt core = { s.coreAt core with
              pinned := (s.launches.filter fun l => l.2.part == r && l.2.pin && l.2.begun.isSome).map Prod.fst } ∧
            (none ∉ p.ordinals → tget t.parts r = some p) ∧
            ∀ a b, p.ordinals = a ++ none :: b → none ∉ a → tget t.parts r = some { p with ordinals := a ++ some core :: b }) ∧
    (∀ r : PartitionRequest,
      (¬ Creatable s r → rejected (.partitionCreate r) r.part) ∧
      (Creatable s r →
        let partner := r.pair.bind fun q => tget s.parts q
        let half := r.pair.map fun _ => partner.isSome
        let shared (k : Nat) : Bool := match partner with
          | some p => p.hbm.getLsbD k
          | none => false
        let cores := (List.range 192).filter fun c => r.cores.contains c
        let stackList := (List.range 8).filter fun k => r.hbm.getLsbD k && !shared k
        let busy : Prop := ∃ c ∈ r.cores, VaultInFlight s c half []
        (busy → NoEvent (.partitionCreate r) s) ∧
        (¬ busy → ∃ t p, exec (.partitionCreate r) s = .next t ∧
          Zeroed s t (cores.map (vaultRange · half) ++ stackList.map fun k => (k * 2 ^ 36, 2 ^ 36)) ∧
          shadowLeft t r.cores r.pair ∧
          t = { s with mem := t.mem, poison := t.poison, vaults := t.vaults, parts := t.parts, saved := t.saved,
                       repair := { s.repair with weak := t.repair.weak } } ∧
          tget t.parts r.part = some p ∧ (∀ k, k ≠ r.part → tget t.parts k = tget s.parts k) ∧
          p = {
            ordinals := cores.map some, minCores := r.minCores, hbm := r.hbm, links := r.links, envelope := r.envelope,
            pair := r.pair, half := partner.isSome, active := !partner.isSome, switching := false, functions := r.functions, roots := r.roots,
            saveBase := r.saveBase, signed := r.signed, keys := r.keys, target := r.target, rgntab := 0, caps := p.caps } ∧
          let slicesGone (c i : Nat) : Prop := 16 * c + i ∈ s.boot.unitMap.slicesAbsent ∨ i ∈ (s.coreAt c).slicesLost
          let rowsGone (k i : Nat) : Prop := 16 * k + i ∈ s.boot.unitMap.rowsAbsent ∨ (k, i) ∈ s.repair.tileRowsLost
          (∃ dies, (∀ d, dies.testBit d = true ↔ d < 4 ∧ ∃ c ∈ r.cores, dieOf c = d) ∧
            p.caps.core = BitVec.ofNat 64 (r.cores.length + 2 * 2 ^ 8 + dies * 2 ^ 12)) ∧
          (∃ n, (∃ c ∈ r.cores, units 16 (slicesGone c) n) ∧ (∀ c ∈ r.cores, ∀ m, units 16 (slicesGone c) m → n ≤ m) ∧
            p.caps.slice = BitVec.ofNat 64 (n + 64 * n * 2 ^ 16)) ∧
          (∃ arrays n, units 48 (fun k => ∀ c ∈ r.cores, clusterOf c ≠ k) arrays ∧
            (∃ c ∈ r.cores, units 16 (rowsGone (clusterOf c)) n) ∧
            (∀ c ∈ r.cores, ∀ m, units 16 (rowsGone (clusterOf c)) m → n ≤ m) ∧
            p.caps.arr = BitVec.ofNat 64 (arrays + n * 2 ^ 8 + 256 * 2 ^ 16)) ∧
          (∃ rest, units 8 (fun k => r.hbm.getLsbD k = false) rest ∧
            p.caps.hbm = BitVec.ofNat 64 (r.hbm.toNat + 64 * rest * 2 ^ 16)) ∧
          p.caps = { p.caps with
            vault := if r.pair = none then 8192 else 4096 + 2 ^ 16, link := r.links.setWidth 64,
            eng := BitVec.ofNat 64 (4 + 64 * 2 ^ 8), feat0 := 0x00010FFFFFFF7FFF, feat1 := if r.links = 0 then 0x2F else 0x3F,
            feat2 := 0, feat3 := 0, mm := BitVec.ofNat 64 (3 + 2 * 2 ^ 8), errata := 4 }))) ∧
    (∀ part : Nat, let i := Instr.partitionDestroy part
      (tget s.parts part = none → NoEvent i s) ∧
      ∀ p, tget s.parts part = some p →
        let d := s.fabric.domain
        (∀ q, p.pair = some q → q ≠ part → ∃ t, exec i s = .next t ∧ tget t.parts part = none ∧
          (∀ l ∈ t.launches, l.2.part ≠ part) ∧ (∀ o ∈ t.objects, o.2.part ≠ part) ∧
          Zeroed s t (p.ordinals.filterMap fun o => o.map (vaultRange · (some p.half))) ∧
          ∀ b, p.active = true → tget s.parts q = some b → ∃ b', tget t.parts q = some b' ∧ b'.active = true) ∧
        (p.pair = none → ∃ k t, exec i s = .next t ∧ Kills s k (workgroup part) ∧
          Zeroed s t (p.ordinals.filterMap fun o => o.map (vaultRange · none)) ∧
          tget t.parts part = none ∧ (∀ j, j ≠ part → tget t.parts j = tget k.parts j) ∧
          (∀ h, t.hartAt h = k.hartAt h) ∧
          (∀ c, t.coreAt c = { k.coreAt c with tlb := (t.coreAt c).tlb } ∧
            ∀ e, e ∈ (t.coreAt c).tlb ↔ e ∈ (k.coreAt c).tlb ∧ e.part ≠ part) ∧
          (∀ die e, e ∈ (tget t.tlb2 die).getD [] ↔ e ∈ (tget k.tlb2 die).getD [] ∧ e.part ≠ part) ∧
          (∀ w, w ∈ t.fabric.held ↔ w ∈ k.fabric.held ∧ w.part ≠ part) ∧
          t = { k with
            core := t.core, cores := t.cores, tlb2 := t.tlb2, mem := t.mem, poison := t.poison, vaults := t.vaults,
            parts := t.parts, launches := k.launches.filter fun l => l.2.part != part,
            objects := s.objects.filter fun o => o.2.part != part,
            streams := s.streams.filter fun x => !p.functions.contains (x.1 / 16),
            fabric := { k.fabric with
              held := t.fabric.held,
              grants := s.fabric.grants.filter fun g =>
                !(g.srcNode == d && g.srcPart == part) && !(g.dstNode == d && g.dstPart == part),
              collectives := s.fabric.collectives.filter fun c => c.1 != part },
            repair := { s.repair with
              weak := t.repair.weak,
              vaultZeroing := s.repair.vaultZeroing.map fun v => if v.2 = part then (v.1, 16) else v } })) ∧
    (∀ (part : Nat) (cores : List Nat), let i := Instr.partitionResize part cores
      (tget s.parts part = none → rejected i part) ∧
      ∀ p, tget s.parts part = some p →
        let n := p.ordinals.length
        let result := p.ordinals.take cores.length ++ (cores.drop n).map some
        let added := cores.drop n
        let busy : Prop := ∃ c ∈ added, VaultInFlight s c (halfOf p) []
        let may : Prop := (∀ l ∈ s.launches, l.2.part = part → l.2.begun = none) ∧ p.minCores ≤ (result.filter Option.isSome).length ∧
          cores ≠ [] ∧ cores.Nodup ∧ (∀ c ∈ cores, c < 192) ∧ SaveArea p.saveBase cores.length p.hbm ∧ Powers s part cores.length p.envelope ∧
          (∀ (k : Nat) (o : Option Nat), k < cores.length → p.ordinals[k]? = some o → o = none ∨ o = cores[k]?) ∧
          ∀ c ∈ added, Up s c ∧ (∀ v ∈ s.repair.vaultZeroing, v.1 ≠ c) ∧ ¬ HeldBy s part c ∧
            ∀ q ∈ s.parts, q.1 ≠ part → some q.1 ≠ p.pair → ¬ HeldBy s q.1 c
        (¬ may → rejected i part) ∧
        (may → busy → NoEvent i s) ∧
        (may → ¬ busy → ∃ t, exec i s = .next t ∧
          Zeroed s t ((added ++ if p.pair = none then [] else (p.ordinals.drop cores.length).filterMap id).map
            (vaultRange · (halfOf p))) ∧
          shadowLeft t added p.pair ∧ tget t.parts part = some { p with ordinals := result } ∧
          (∀ k, k ≠ part → tget t.parts k = tget s.parts k) ∧
          t = { s with mem := t.mem, poison := t.poison, vaults := t.vaults, parts := t.parts, saved := t.saved,
                       repair := { s.repair with weak := t.repair.weak } })) ∧
    (∀ part watts : Nat, let i := Instr.envelopeChange part watts
      (tget s.parts part = none → NoEvent i s) ∧
      ∀ p, tget s.parts part = some p →
        (¬ Powers s part p.ordinals.length watts → rejected i part) ∧
        (Powers s part p.ordinals.length watts → ∃ t, exec i s = .next t ∧
          tget t.parts part = some { p with envelope := watts } ∧ (∀ k, k ≠ part → tget t.parts k = tget s.parts k) ∧
          t = { s with parts := t.parts })) ∧
    (∀ part : Nat, let i := Instr.timeShareSwitch part
      let p := s.partAt part
      (p.pair = none ∨ p.active = false → NoEvent i s) ∧
      ∀ q, p.pair = some q → p.active = true →
        let cores := (List.range 192).filter fun c =>
          p.ordinals.contains (some c) || (s.partAt q).ordinals.contains (some c)
        let harts := cores.flatMap fun c => [2 * c, 2 * c + 1]
        let live (h : Nat) : Prop := (s.hartAt h).run = .running ∨ ∃ w, (s.hartAt h).run = .waiting w
        let stays (h : Nat) : Prop := live h ∧ ((s.hartAt h).priv = .supervisor ∨ (s.hartAt h).claim ≠ none ∨
          (s.hartAt h).csr.so = true ∧ (s.hartAt h).csr.mseqAct = false ∧ (s.hartAt h).run ≠ .waiting .wfi)
        let area (h : Nat) : Nat :=
          let own := s.partAt (s.hartAt h).ctl.part
          own.saveBase.toNat + 4194304 * (own.ordinals.findIdx? fun o => o == some (coreOf h)).getD 0
        let halts (v : State) : Prop :=
          (∀ h, h ∉ harts ∨ ¬ live h → v.hartAt h = s.hartAt h ∧ tget v.saved h = tget s.saved h) ∧
          (∀ h ∈ harts, stays h → tget v.saved h = tget s.saved h ∧
            v.hartAt h = { s.hartAt h with ctl := { (s.hartAt h).ctl with preempt := true } }) ∧
          (∀ h ∈ harts, live h → ¬ stays h → (v.hartAt h).run = .halted ∧ (tget v.saved h).isSome = true) ∧
          ((∀ h ∈ harts, (s.hartAt h).strip.used ≤ 16384) →
            ∀ a, (∀ h ∈ harts, stays h ∨ ¬ live h ∨ a < area h ∨ area h + 4194304 ≤ a) → v.byte a = s.byte a) ∧
          tget v.parts part = some { p with switching := true } ∧ (∀ k, k ≠ part → tget v.parts k = tget s.parts k) ∧
          v = { s with
            hart := v.hart, core := v.core, harts := v.harts, cores := v.cores, saved := v.saved, mem := v.mem,
            poison := v.poison, parts := v.parts, reports := v.reports, free := v.free,
            repair := { s.repair with weak := v.repair.weak, corrected := v.repair.corrected, log := v.repair.log } }
        ((∃ h ∈ harts, stays h) → ∃ t, halts t ∧ exec i s = .next t) ∧
        ((∀ h ∈ harts, ¬ stays h) → part ≠ q → s.cur < 384 →
          (∀ h ∈ harts, (¬ live h → ownedBy (s.coreAt (coreOf h)) h = none) ∧
            tget s.harts (h + 384 * (part + 1)) = none ∧ tget s.saved (h + 384 * (part + 1)) = none ∧
            (let x := s.hartAt (h + 384 * (q + 1))
             ((tget s.saved (h + 384 * (q + 1))).isSome = true → x.run = .halted) ∧
             (x.run = .halted → (s.partAt x.ctl.part).pair ≠ none))) →
          ∃ v u t, halts v ∧ Exchanged v u part q harts ∧ exec i s = .next t ∧ RestoresAll harts u t)) ∧
    (∀ part : Nat, let i := Instr.partitionTeardown part
      let fns := (s.partAt part).functions
      let frozen (h : Nat) : Prop := workgroup part h ∧
        ((s.hartAt h).run = .frozen ∨ ∃ q : Fin 4, ((s.hartAt h).queues.get q).frozen = true)
      let named (h : Nat) : Prop := workgroup part h ∧ (s.hartAt h).run = .frozen ∧ (s.hartAt h).ctl.rejected = false
      ((∀ h, ¬ frozen h) → NoEvent i s) ∧
      ((∃ h, frozen h) → ∃ k d w t info, exec i s = .next t ∧ Kills s k (workgroup part) ∧
        ((∃ h, named h ∧ info = (s.hartAt h).ctl.index) ∨ (∀ h, ¬ named h) ∧ info = 0) ∧
        (∀ x, x ∈ d.fabric.held ↔ x ∈ k.fabric.held ∧ x.part ≠ part) ∧
        d = { k with reports := s.reports ++ [.frozen part], fabric := { k.fabric with held := d.fabric.held } } ∧
        AllGone (finalRecord 4 0 0x12) (info % 2 ^ 64) d
          (s.launches.filter fun l => l.2.part == part && l.2.begun.isSome) w ∧
        (∀ key,
          let x := w.streamAt key
          let dropped : Prop := ∃ c, x.cmd = some c ∧ c.kind = 2 ∧ x.begun = true ∧ (c.dw 4).toNat / 2 ^ 32 = 0
          (key / 16 ∉ fns → t.streamAt key = x) ∧ (key / 16 ∈ fns → ¬ dropped → t.streamAt key = { x with en := false }) ∧
          (key / 16 ∈ fns → dropped → t.streamAt key = { x with en := false, cmd := none, begun := false, polled := 0 })) ∧
        t = { w with streams := t.streams, reports := w.reports ++ [.teardown part] })) ∧
    ∀ fn : Nat, let i := Instr.functionLevelReset fn
      (fn = 0 ∨ 192 < fn → NoEvent i s) ∧
      (1 ≤ fn → fn ≤ 192 →
        let gone (h : Nat) : Prop := ∃ l ∈ s.launches, l.2.stream / 16 = fn ∧ h ∈ l.2.running
        ∃ v k t, exec i s = .next t ∧
        (∀ w, w ∈ v.fabric.held ↔ w ∈ s.fabric.held ∧ ¬ (w.ended = 0 ∧ gone w.hart)) ∧
        v = { s with fabric := { s.fabric with held := v.fabric.held } } ∧ Kills v k gone ∧
        (∀ id l, tget k.launches id = some l → tget t.launches id = if l.stream / 16 = fn then none else some l) ∧
        (∀ id, tget k.launches id = none → tget t.launches id = none) ∧
        (∀ key, let w := k.streamAt key
          t.streamAt key = if key / 16 = fn then { w with
            cmd := none, begun := false, polled := 0, en := false, launches := [], copies := [] } else w) ∧
        tget t.functions fn = some { s.fnRegs fn with status := (s.fnRegs fn).status + 1 } ∧
        (∀ f, f ≠ fn → tget t.functions f = tget s.functions f) ∧
        t = { k with launches := t.launches, streams := t.streams, functions := t.functions })
end

