-- ==== Sys2Proof/Laws/Sparse.lean ====
section
/-! SUPPORT. Sparse data: what reading gives after each update, and that every update keeps the canonical form. -/

set_option Elab.async false

namespace Sys2Proof.Machine

/-! ### Canonical lists of cells -/

/-- Lower bounds of the keys may be weakened. -/
theorem cwfFrom_mono {w : Nat} {b b' : Nat} (h : b' ≤ b) : ∀ {c : Cells w}, cwfFrom b c = true → cwfFrom b' c = true
  | [], _ => rfl
  | (k, v) :: r, hc => by
    simp only [cwfFrom, Bool.and_eq_true, decide_eq_true_eq] at hc ⊢
    exact ⟨⟨by omega, hc.1.2⟩, hc.2⟩

theorem cwfFrom_cons {w : Nat} {b k : Nat} {v : BitVec w} {r : Cells w} :
    cwfFrom b ((k, v) :: r) = true ↔ b ≤ k ∧ v ≠ 0 ∧ cwfFrom (k + 1) r = true := by
  simp [cwfFrom, and_assoc]

/-- Nothing is listed below the bound. -/
theorem cget_below {w : Nat} {b a : Nat} (h : a < b) : ∀ {c : Cells w}, cwfFrom b c = true → cget c a = 0
  | [], _ => rfl
  | (k, v) :: r, hc => by
    have hk := (cwfFrom_cons.mp hc).1
    rw [cget, if_neg (by omega), if_pos (by omega)]

/-! ### One word replaced -/

theorem cget_cset_same_from {w : Nat} (a : Nat) (v : BitVec w) :
    ∀ {b : Nat} {c : Cells w}, cwfFrom b c = true → cget (cset c a v) a = v
  | _, [], _ => by
    by_cases hv : v = 0
    · rw [cset, if_pos hv, cget, hv]
    · rw [cset, if_neg hv, cget, if_pos rfl]
  | b, (k, x) :: r, hc => by
    obtain ⟨hk, hx, hr⟩ := cwfFrom_cons.mp hc
    by_cases h1 : a < k
    · by_cases hv : v = 0
      · rw [cset, if_pos h1, if_pos hv, cget, if_neg (by omega), if_pos h1, hv]
      · rw [cset, if_pos h1, if_neg hv, cget, if_pos rfl]
    · by_cases h2 : a = k
      · by_cases hv : v = 0
        · rw [cset, if_neg h1, if_pos h2, if_pos hv, hv]
          exact cget_below (by omega) hr
        · rw [cset, if_neg h1, if_pos h2, if_neg hv, cget, if_pos h2]
      · rw [cset, if_neg h1, if_neg h2, cget, if_neg h2, if_neg h1]
        exact cget_cset_same_from a v hr

theorem cget_cset_other_from {w : Nat} (a a' : Nat) (v : BitVec w) (h : a' ≠ a) :
    ∀ {b : Nat} {c : Cells w}, cwfFrom b c = true → cget (cset c a v) a' = cget c a'
  | _, [], _ => by
    by_cases hv : v = 0
    · rw [cset, if_pos hv]
    · rw [cset, if_neg hv]
      show (if a' = a then v else if a' < a then 0 else 0) = 0
      rw [if_neg h]; split <;> rfl
  | b, (k, x) :: r, hc => by
    obtain ⟨hk, hx, hr⟩ := cwfFrom_cons.mp hc
    by_cases h1 : a < k
    · by_cases hv : v = 0
      · rw [cset, if_pos h1, if_pos hv]
      · rw [cset, if_pos h1, if_neg hv, cget, if_neg h]
        by_cases h3 : a' < a
        · rw [if_pos h3, cget, if_neg (by omega), if_pos (by omega)]
        · rw [if_neg h3]
    · by_cases h2 : a = k
      · by_cases hv : v = 0
        · rw [cset, if_neg h1, if_pos h2, if_pos hv, cget, if_neg (show ¬ a' = k by omega)]
          by_cases h3 : a' < k
          · rw [if_pos h3]
            exact cget_below (by omega) hr
          · rw [if_neg h3]
        · rw [cset, if_neg h1, if_pos h2, if_neg hv, cget, cget, if_neg (show ¬ a' = k by omega),
            if_neg (show ¬ a' = k by omega)]
      · rw [cset, if_neg h1, if_neg h2, cget, cget]
        by_cases h3 : a' = k
        · rw [if_pos h3, if_pos h3]
        · rw [if_neg h3, if_neg h3]
          by_cases h4 : a' < k
          · rw [if_pos h4, if_pos h4]
          · rw [if_neg h4, if_neg h4]
            exact cget_cset_other_from a a' v h hr

theorem cwfFrom_cset {w : Nat} (a : Nat) (v : BitVec w) :
    ∀ {b : Nat} {c : Cells w}, b ≤ a → cwfFrom b c = true → cwfFrom b (cset c a v) = true
  | b, [], hb, _ => by
    by_cases hv : v = 0
    · rw [cset, if_pos hv]; rfl
    · rw [cset, if_neg hv]; exact cwfFrom_cons.mpr ⟨hb, hv, rfl⟩
  | b, (k, x) :: r, hb, hc => by
    obtain ⟨hk, hx, hr⟩ := cwfFrom_cons.mp hc
    by_cases h1 : a < k
    · by_cases hv : v = 0
      · rw [cset, if_pos h1, if_pos hv]; exact hc
      · rw [cset, if_pos h1, if_neg hv]
        exact cwfFrom_cons.mpr ⟨hb, hv, cwfFrom_cons.mpr ⟨by omega, hx, hr⟩⟩
    · by_cases h2 : a = k
      · by_cases hv : v = 0
        · rw [cset, if_neg h1, if_pos h2, if_pos hv]; exact cwfFrom_mono (by omega) hr
        · rw [cset, if_neg h1, if_pos h2, if_neg hv]; exact cwfFrom_cons.mpr ⟨hk, hv, hr⟩
      · rw [cset, if_neg h1, if_neg h2]
        exact cwfFrom_cons.mpr ⟨hk, hx, cwfFrom_cset a v (by omega) hr⟩

/-- A word written reads back. -/
theorem cget_cset_same {w : Nat} {c : Cells w} (h : cwf c = true) (a : Nat) (v : BitVec w) :
    cget (cset c a v) a = v := cget_cset_same_from a v h
/-- Other words read as before. -/
theorem cget_cset_other {w : Nat} {c : Cells w} (h : cwf c = true) {a a' : Nat} (v : BitVec w) (n : a' ≠ a) :
    cget (cset c a v) a' = cget c a' := cget_cset_other_from a a' v n h
theorem cget_cset {w : Nat} {c : Cells w} (h : cwf c = true) (a a' : Nat) (v : BitVec w) :
    cget (cset c a v) a' = if a' = a then v else cget c a' := by
  by_cases e : a' = a
  · subst e; rw [if_pos rfl, cget_cset_same h]
  · rw [if_neg e, cget_cset_other h v e]
theorem cwf_cset {w : Nat} {c : Cells w} (h : cwf c = true) (a : Nat) (v : BitVec w) : cwf (cset c a v) = true :=
  cwfFrom_cset a v (Nat.zero_le a) h

/-! ### Cells kept by a test -/

theorem cwfFrom_ckeep {w : Nat} (p : Nat → Bool) :
    ∀ {b : Nat} {c : Cells w}, cwfFrom b c = true → cwfFrom b (ckeep p c) = true
  | _, [], _ => rfl
  | b, (k, x) :: r, hc => by
    obtain ⟨hk, hx, hr⟩ := cwfFrom_cons.mp hc
    have hr' := cwfFrom_ckeep p hr
    rw [ckeep]
    split
    · exact cwfFrom_cons.mpr ⟨hk, hx, hr'⟩
    · exact cwfFrom_mono (by omega) hr'

theorem cwf_ckeep {w : Nat} (p : Nat → Bool) {c : Cells w} (h : cwf c = true) : cwf (ckeep p c) = true :=
  cwfFrom_ckeep p h

theorem cget_ckeep_from {w : Nat} (p : Nat → Bool) (a : Nat) :
    ∀ {b : Nat} {c : Cells w}, cwfFrom b c = true → cget (ckeep p c) a = if p a then cget c a else 0
  | _, [], _ => by simp [ckeep, cget]
  | b, (k, x) :: r, hc => by
    obtain ⟨hk, hx, hr⟩ := cwfFrom_cons.mp hc
    have ih := cget_ckeep_from p a hr
    by_cases hp : p k = true
    · rw [ckeep, if_pos hp, cget, cget]
      by_cases e : a = k
      · rw [if_pos e, if_pos e, e, if_pos hp]
      · rw [if_neg e, if_neg e]
        by_cases l : a < k
        · rw [if_pos l, if_pos l]; split <;> rfl
        · rw [if_neg l, if_neg l, ih]
    · rw [ckeep, if_neg hp, ih, cget]
      by_cases e : a = k
      · rw [e, if_neg hp, if_neg hp]
      · rw [if_neg e]
        by_cases l : a < k
        · rw [if_pos l, cget_below (by omega) hr]
        · rw [if_neg l]

/-- What a kept list reads: the old word where the test holds, zero elsewhere. -/
theorem cget_ckeep {w : Nat} (p : Nat → Bool) {c : Cells w} (h : cwf c = true) (a : Nat) :
    cget (ckeep p c) a = if p a then cget c a else 0 := cget_ckeep_from p a h

/-! ### Lists of words from a key on -/

theorem cwfFrom_clist {w : Nat} : ∀ (k : Nat) (vs : List (BitVec w)), cwfFrom k (clist k vs) = true
  | _, [] => rfl
  | k, v :: r => by
    rw [clist]
    split
    · exact cwfFrom_mono (by omega) (cwfFrom_clist (k + 1) r)
    · exact cwfFrom_cons.mpr ⟨Nat.le_refl k, by assumption, cwfFrom_clist (k + 1) r⟩

theorem cget_clist {w : Nat} : ∀ (k a : Nat) (vs : List (BitVec w)), k ≤ a → cget (clist k vs) a = vs.getD (a - k) 0
  | _, _, [], _ => rfl
  | k, a, v :: r, h => by
    by_cases e : a = k
    · subst e
      rw [clist]
      split
      · rw [cget_below (by omega) (cwfFrom_clist (a + 1) r)]
        simp only [Nat.sub_self, List.getD_cons_zero]
        symm; assumption
      · rw [cget, if_pos rfl]; simp
    · have hs : a - k = (a - (k + 1)) + 1 := by omega
      rw [clist]
      split
      · rw [cget_clist (k + 1) a r (by omega), hs]; rfl
      · rw [cget, if_neg e, if_neg (by omega), cget_clist (k + 1) a r (by omega), hs]; rfl

/-- Reading through cells that all lie below a key. -/
theorem cget_append_below {w : Nat} {lo a : Nat} (h : lo ≤ a) (d : Cells w) :
    ∀ {c : Cells w}, (∀ e ∈ c, e.1 < lo) → cget (c ++ d) a = cget d a
  | [], _ => rfl
  | (k, v) :: r, hc => by
    have hk : k < lo := hc (k, v) (by simp)
    rw [List.cons_append, cget, if_neg (by omega), if_neg (by omega)]
    exact cget_append_below h d fun e he => hc e (by simp [he])

/-- Reading beside cells that all lie at or above a key. -/
theorem cget_append_above {w : Nat} {hi a : Nat} (h : a < hi) (d : Cells w) (hd : ∀ e ∈ d, hi ≤ e.1) :
    ∀ {c : Cells w}, cget (c ++ d) a = cget c a
  | [] => by
    cases d with
    | nil => rfl
    | cons e r =>
      obtain ⟨k, v⟩ := e
      have hk : hi ≤ k := hd (k, v) (by simp)
      show (if a = k then v else if a < k then 0 else cget r a) = 0
      rw [if_neg (by omega), if_pos (by omega)]
  | (k, v) :: r => by
    rw [List.cons_append, cget, cget]
    by_cases e : a = k
    · rw [if_pos e, if_pos e]
    · rw [if_neg e, if_neg e]
      by_cases l : a < k
      · rw [if_pos l, if_pos l]
      · rw [if_neg l, if_neg l]; exact cget_append_above h d hd

theorem ckeep_mem {w : Nat} (p : Nat → Bool) : ∀ {c : Cells w} {e : Nat × BitVec w}, e ∈ ckeep p c → p e.1 = true
  | [], _, h => by cases h
  | (k, x) :: r, e, h => by
    rw [ckeep] at h
    split at h
    · rcases List.mem_cons.mp h with rfl | h
      · assumption
      · exact ckeep_mem p h
    · exact ckeep_mem p h

theorem clist_mem {w : Nat} : ∀ {k : Nat} {vs : List (BitVec w)} {e : Nat × BitVec w}, e ∈ clist k vs →
    k ≤ e.1 ∧ e.1 < k + vs.length
  | _, [], _, h => by cases h
  | k, v :: r, e, h => by
    rw [clist] at h
    split at h
    · have := clist_mem h; rw [List.length_cons]; omega
    · rcases List.mem_cons.mp h with rfl | h
      · simp
      · have := clist_mem h; rw [List.length_cons]; omega

/-- Words spliced in read back. -/
theorem cget_csplice_in {w : Nat} (c : Cells w) (lo : Nat) (vs : List (BitVec w)) {a : Nat} (h1 : lo ≤ a)
    (h2 : a < lo + vs.length) : cget (csplice c lo vs) a = vs.getD (a - lo) 0 := by
  rw [csplice, List.append_assoc,
    cget_append_below h1 _ fun e he => of_decide_eq_true (ckeep_mem _ he),
    cget_append_above h2 _ fun e he => of_decide_eq_true (ckeep_mem _ he), cget_clist lo a vs h1]

/-- Words outside a splice read as before. -/
theorem cget_csplice_out {w : Nat} {c : Cells w} (hc : cwf c = true) (lo : Nat) (vs : List (BitVec w)) {a : Nat}
    (h : a < lo ∨ lo + vs.length ≤ a) : cget (csplice c lo vs) a = cget c a := by
  rw [csplice]
  rcases h with h | h
  · rw [List.append_assoc, cget_append_above (hi := lo) h, cget_ckeep _ hc, if_pos (by simpa using h)]
    intro e he
    rcases List.mem_append.mp he with he | he
    · exact (clist_mem he).1
    · have := of_decide_eq_true (ckeep_mem _ he); omega
  · rw [cget_append_below (lo := lo + vs.length) h, cget_ckeep _ hc, if_pos (by simpa using h)]
    intro e he
    rcases List.mem_append.mp he with he | he
    · have := of_decide_eq_true (ckeep_mem _ he); omega
    · exact (clist_mem he).2

theorem cwfFrom_append {w : Nat} {hi : Nat} {d : Cells w} (hd : cwfFrom hi d = true) :
    ∀ {b : Nat} {c : Cells w}, b ≤ hi → cwfFrom b c = true → (∀ e ∈ c, e.1 < hi) → cwfFrom b (c ++ d) = true
  | b, [], hb, _, _ => cwfFrom_mono hb hd
  | b, (k, v) :: r, hb, hc, hm => by
    obtain ⟨hk, hx, hr⟩ := cwfFrom_cons.mp hc
    have hk' : k < hi := hm (k, v) (by simp)
    exact cwfFrom_cons.mpr ⟨hk, hx, cwfFrom_append hd (by omega) hr fun e he => hm e (by simp [he])⟩

theorem cwfFrom_keepAbove {w : Nat} (hi : Nat) :
    ∀ {b : Nat} {c : Cells w}, cwfFrom b c = true → cwfFrom hi (ckeep (fun k => decide (hi ≤ k)) c) = true
  | _, [], _ => rfl
  | b, (k, x) :: r, hc => by
    obtain ⟨hk, hx, hr⟩ := cwfFrom_cons.mp hc
    rw [ckeep]
    split
    · rename_i h
      have h := of_decide_eq_true h
      exact cwfFrom_cons.mpr ⟨h, hx, cwfFrom_ckeep _ hr⟩
    · exact cwfFrom_keepAbove hi hr

theorem cwf_csplice {w : Nat} {c : Cells w} (hc : cwf c = true) (lo : Nat) (vs : List (BitVec w)) :
    cwf (csplice c lo vs) = true := by
  unfold cwf csplice
  refine cwfFrom_append (hi := lo + vs.length) (cwfFrom_keepAbove _ hc) (Nat.zero_le _) ?_ ?_
  · exact cwfFrom_append (cwfFrom_clist lo vs) (Nat.zero_le _) (cwfFrom_ckeep _ hc)
      fun e he => of_decide_eq_true (ckeep_mem _ he)
  · intro e he
    rcases List.mem_append.mp he with he | he
    · have := of_decide_eq_true (ckeep_mem _ he); omega
    · exact (clist_mem he).2

/-! ### Cells given by a function -/

theorem cget_table {w : Nat} (f : Nat → BitVec w) (a : Nat) : ∀ (l : List Nat), l.Pairwise (· < ·) →
    cget (l.filterMap fun i => if f i = 0 then none else some (i, f i)) a = if a ∈ l then f a else 0
  | [], _ => by simp [cget]
  | i :: r, h => by
    have hr := cget_table f a r (List.Pairwise.of_cons h)
    have hi : ∀ j ∈ r, i < j := fun j hj => List.rel_of_pairwise_cons h hj
    by_cases hz : f i = 0
    · rw [List.filterMap_cons_none (f := fun i => if f i = 0 then none else some (i, f i)) (if_pos hz), hr]
      by_cases e : a = i
      · subst e
        rw [if_neg (fun q => Nat.lt_irrefl _ (hi a q)), if_pos (by simp), hz]
      · simp [e]
    · rw [List.filterMap_cons_some (f := fun i => if f i = 0 then none else some (i, f i)) (b := (i, f i)) (if_neg hz), cget]
      by_cases e : a = i
      · subst e; simp
      · rw [if_neg e]
        by_cases l : a < i
        · rw [if_pos l, if_neg]
          intro q
          rcases List.mem_cons.mp q with q | q
          · exact e q
          · exact absurd (hi a q) (by omega)
        · rw [if_neg l, hr]; simp [e]

/-- A tabulated list reads as the function below n. -/
theorem cget_tabulate {w : Nat} (n : Nat) (f : Nat → BitVec w) (old : Cells w) {a : Nat} (h : a < n) :
    cget (tabulate n f old) a = f a := by
  rw [tabulate, cget_append_above (hi := n) h _ (fun e he => of_decide_eq_true (ckeep_mem _ he)),
    cget_table f a _ List.pairwise_lt_range, if_pos (List.mem_range.mpr h)]

/-- Dropping keys below a key leaves what is read from it on. -/
theorem cget_ckeep_above {w : Nat} {n a : Nat} (h : n ≤ a) : ∀ c : Cells w,
    cget (ckeep (fun k => decide (n ≤ k)) c) a = cget c a
  | [] => rfl
  | (k, v) :: r => by
    rw [ckeep]
    by_cases hk : n ≤ k
    · rw [if_pos (decide_eq_true hk), cget, cget, cget_ckeep_above h r]
    · rw [if_neg (by simpa using hk), cget_ckeep_above h r, cget, if_neg (by omega), if_neg (by omega)]

/-- A tabulated list reads as the old cells from n on. -/
theorem cget_tabulate_above {w : Nat} (n : Nat) (f : Nat → BitVec w) (old : Cells w) {a : Nat} (h : n ≤ a) :
    cget (tabulate n f old) a = cget old a := by
  rw [tabulate, cget_append_below h, cget_ckeep_above h]
  intro e he
  obtain ⟨i, hi, hf⟩ := List.mem_filterMap.mp he
  split at hf
  · cases hf
  · cases hf; exact List.mem_range.mp hi

/-! ### Tables of records -/

theorem tget_tput_same {α : Type} (a : Nat) (v : α) : ∀ l : List (Nat × α), tget (tput l a v) a = some v
  | [] => by simp [tput, tget]
  | (k, x) :: r => by
    by_cases h1 : a < k
    · rw [tput, if_pos h1, tget, if_pos rfl]
    · by_cases h2 : a = k
      · rw [tput, if_neg h1, if_pos h2, tget, if_pos rfl]
      · rw [tput, if_neg h1, if_neg h2, tget, if_neg h2, if_neg h1]; exact tget_tput_same a v r

theorem tget_tput_other {α : Type} {a b : Nat} (v : α) (h : b ≠ a) : ∀ l : List (Nat × α),
    tget (tput l a v) b = tget l b
  | [] => by simp [tput, tget, h]
  | (k, x) :: r => by
    by_cases h1 : a < k
    · rw [tput, if_pos h1, tget, if_neg h]
      by_cases h3 : b < a
      · rw [if_pos h3, tget, if_neg (by omega), if_pos (by omega)]
      · rw [if_neg h3]
    · by_cases h2 : a = k
      · rw [tput, if_neg h1, if_pos h2, tget, tget, ← h2, if_neg h, if_neg h]
      · rw [tput, if_neg h1, if_neg h2, tget, tget, tget_tput_other v h r]

theorem tget_tput {α : Type} (a b : Nat) (v : α) (l : List (Nat × α)) :
    tget (tput l a v) b = if b = a then some v else tget l b := by
  by_cases e : b = a
  · subst e; rw [if_pos rfl, tget_tput_same]
  · rw [if_neg e, tget_tput_other v e]

theorem tget_tmap {α : Type} (f : Nat → α → α) (a : Nat) : ∀ l : List (Nat × α), tget (tmap f l) a = (tget l a).map (f a)
  | [] => rfl
  | (k, x) :: r => by
    rw [tmap, tget, tget]
    by_cases e : a = k
    · rw [if_pos e, if_pos e, e]; rfl
    · rw [if_neg e, if_neg e]
      by_cases l : a < k
      · rw [if_pos l, if_pos l]; rfl
      · rw [if_neg l, if_neg l]; exact tget_tmap f a r

end Sys2Proof.Machine
end

