-- ==== Sys2Proof/Laws/Memory.lean ====
section
/-! SUPPORT. Memory: what a byte reads as after a write, and that writes keep the canonical form (spec/00 R6). -/

set_option Elab.async false

namespace Sys2Proof.Machine

/-! ### Numbers as bytes -/

@[simp] theorem leBytes_length : ∀ n v : Nat, (leBytes n v).length = n
  | 0, _ => rfl
  | n + 1, v => by rw [leBytes, List.length_cons, leBytes_length n]

/-- The bytes of a number read back modulo 256 to their count. -/
theorem leNat_leBytes : ∀ n v : Nat, leNat (leBytes n v) = v % 256 ^ n
  | 0, v => by rw [leBytes, leNat, Nat.pow_zero, Nat.mod_one]
  | n + 1, v => by
    have p : (256 : Nat) ^ (n + 1) = 256 * 256 ^ n := by rw [Nat.pow_succ, Nat.mul_comm]
    rw [leBytes, leNat, leNat_leBytes n, BitVec.toNat_ofNat, p, Nat.mod_mul]

/-! ### Cells written -/

theorem cwf_writeCells : ∀ (bs : List Byte) {m : Memory} (loc : Nat), cwf m = true → cwf (writeCells m loc bs) = true
  | [], _, _, h => h
  | b :: r, _, loc, h => cwf_writeCells r (loc + 1) (cwf_cset h loc b)

theorem cget_writeCells : ∀ (bs : List Byte) {m : Memory} (loc a : Nat), cwf m = true →
    cget (writeCells m loc bs) a = if loc ≤ a ∧ a < loc + bs.length then bs.getD (a - loc) 0 else cget m a
  | [], m, loc, a, _ => by
    have : ¬(loc ≤ a ∧ a < loc + ([] : List Byte).length) := by simp only [List.length_nil]; omega
    rw [if_neg this]; rfl
  | b :: r, m, loc, a, h => by
    rw [writeCells, cget_writeCells r (loc + 1) a (cwf_cset h loc b), cget_cset h, List.length_cons]
    by_cases e : a = loc
    · subst e
      rw [if_neg (by omega), if_pos rfl, if_pos (by omega), Nat.sub_self]; rfl
    · by_cases l : loc + 1 ≤ a ∧ a < loc + 1 + r.length
      · have : a - loc = (a - (loc + 1)) + 1 := by omega
        rw [if_pos l, if_pos (by omega), this]; rfl
      · rw [if_neg l, if_neg e, if_neg (by omega)]

theorem asCells_getD (s : State) : ∀ (bs : List Byte) (loc i : Nat), i < bs.length →
    (s.asCells loc bs).getD i 0 = bs.getD i 0 ^^^ s.vaultMask (loc + i)
  | [], _, _, h => absurd h (Nat.not_lt_zero _)
  | b :: r, loc, 0, _ => rfl
  | b :: r, loc, i + 1, h => by
    have := asCells_getD s r (loc + 1) i (by simpa using h)
    rw [State.asCells, List.getD_cons_succ, List.getD_cons_succ, this]
    congr 2
    omega

theorem asCells_length (s : State) : ∀ (bs : List Byte) (loc : Nat), (s.asCells loc bs).length = bs.length
  | [], _ => rfl
  | b :: r, loc => by rw [State.asCells, List.length_cons, List.length_cons, asCells_length s r]

/-! ### The state's memory -/

/-- A write keeps the canonical form. -/
theorem write_wf {s : State} (h : s.mem.wf = true) (loc : Nat) (bs : List Byte) : (s.write loc bs).mem.wf = true :=
  cwf_writeCells _ loc h

theorem write_vaultMask (s : State) (loc a : Nat) (bs : List Byte) : (s.write loc bs).vaultMask a = s.vaultMask a := rfl

/-- A byte after a write: the written one inside the range, the old one outside it. -/
theorem byte_write {s : State} (h : s.mem.wf = true) (loc a : Nat) (bs : List Byte) :
    (s.write loc bs).byte a = if loc ≤ a ∧ a < loc + bs.length then bs.getD (a - loc) 0 else s.byte a := by
  unfold State.byte
  rw [write_vaultMask]
  show cget (writeCells s.mem loc (s.asCells loc bs)) a ^^^ _ = _
  rw [cget_writeCells _ _ _ h, asCells_length]
  by_cases e : loc ≤ a ∧ a < loc + bs.length
  · rw [if_pos e, if_pos e, asCells_getD s bs loc (a - loc) (by omega), show loc + (a - loc) = a by omega,
      BitVec.xor_assoc, BitVec.xor_self, BitVec.xor_zero]
  · rw [if_neg e, if_neg e]

/-- A byte outside a write reads as before. -/
theorem byte_write_out {s : State} (h : s.mem.wf = true) {loc a : Nat} {bs : List Byte}
    (n : a < loc ∨ loc + bs.length ≤ a) : (s.write loc bs).byte a = s.byte a := by
  rw [byte_write h, if_neg (by omega)]

/-- The bytes written read back. -/
theorem bytes_write {s : State} (h : s.mem.wf = true) (loc : Nat) (bs : List Byte) :
    (s.write loc bs).bytes loc bs.length = bs := by
  apply List.ext_getElem
  · simp [State.bytes]
  · intro i h1 h2
    simp only [State.bytes, List.getElem_map, List.getElem_range, byte_write h]
    rw [if_pos (by omega), show loc + i - loc = i by omega]
    simp [h2]

/-- Memory is canonical at reset. -/
theorem reset_wf : State.reset.mem.wf = true := rfl

end Sys2Proof.Machine
end

