-- ==== Sys2Proof/Laws/State.lean ====
section
/-! SUPPORT. What each small update of the state leaves and sets, field by field. -/

set_option Elab.async false

namespace Sys2Proof.Machine

/-- What each step of a fold keeps the fold keeps. -/
theorem foldl_keep {α β : Type} (f : State → β) (g : State → α → State) (h : ∀ s a, f (g s a) = f s) (l : List α) (s : State) :
    f (l.foldl g s) = f s := by
  induction l generalizing s with
  | nil => rfl
  | cons a r ih => rw [List.foldl_cons, ih, h]

/-! ### setX -/

@[simp] theorem setX_cur (s : State) (n : BitVec 5) (v : Word) : (s.setX n v).cur = s.cur := rfl
@[simp] theorem setX_core (s : State) (n : BitVec 5) (v : Word) : (s.setX n v).core = s.core := rfl
@[simp] theorem setX_harts (s : State) (n : BitVec 5) (v : Word) : (s.setX n v).harts = s.harts := rfl
@[simp] theorem setX_cores (s : State) (n : BitVec 5) (v : Word) : (s.setX n v).cores = s.cores := rfl
@[simp] theorem setX_mem (s : State) (n : BitVec 5) (v : Word) : (s.setX n v).mem = s.mem := rfl
@[simp] theorem setX_poison (s : State) (n : BitVec 5) (v : Word) : (s.setX n v).poison = s.poison := rfl
@[simp] theorem setX_vaults (s : State) (n : BitVec 5) (v : Word) : (s.setX n v).vaults = s.vaults := rfl
@[simp] theorem setX_tlb2 (s : State) (n : BitVec 5) (v : Word) : (s.setX n v).tlb2 = s.tlb2 := rfl
@[simp] theorem setX_parts (s : State) (n : BitVec 5) (v : Word) : (s.setX n v).parts = s.parts := rfl
@[simp] theorem setX_streams (s : State) (n : BitVec 5) (v : Word) : (s.setX n v).streams = s.streams := rfl
@[simp] theorem setX_functions (s : State) (n : BitVec 5) (v : Word) : (s.setX n v).functions = s.functions := rfl
@[simp] theorem setX_launches (s : State) (n : BitVec 5) (v : Word) : (s.setX n v).launches = s.launches := rfl
@[simp] theorem setX_nextLaunch (s : State) (n : BitVec 5) (v : Word) : (s.setX n v).nextLaunch = s.nextLaunch := rfl
@[simp] theorem setX_objects (s : State) (n : BitVec 5) (v : Word) : (s.setX n v).objects = s.objects := rfl
@[simp] theorem setX_nextObject (s : State) (n : BitVec 5) (v : Word) : (s.setX n v).nextObject = s.nextObject := rfl
@[simp] theorem setX_saved (s : State) (n : BitVec 5) (v : Word) : (s.setX n v).saved = s.saved := rfl
@[simp] theorem setX_fabric (s : State) (n : BitVec 5) (v : Word) : (s.setX n v).fabric = s.fabric := rfl
@[simp] theorem setX_repair (s : State) (n : BitVec 5) (v : Word) : (s.setX n v).repair = s.repair := rfl
@[simp] theorem setX_boot (s : State) (n : BitVec 5) (v : Word) : (s.setX n v).boot = s.boot := rfl
@[simp] theorem setX_msix (s : State) (n : BitVec 5) (v : Word) : (s.setX n v).msix = s.msix := rfl
@[simp] theorem setX_reports (s : State) (n : BitVec 5) (v : Word) : (s.setX n v).reports = s.reports := rfl
@[simp] theorem setX_agenda (s : State) (n : BitVec 5) (v : Word) : (s.setX n v).agenda = s.agenda := rfl
@[simp] theorem setX_free (s : State) (n : BitVec 5) (v : Word) : (s.setX n v).free = s.free := rfl
@[simp] theorem setX_hart_run (s : State) (n : BitVec 5) (v : Word) : (s.setX n v).hart.run = s.hart.run := by
  unfold State.setX Hart.setX; dsimp only; split <;> rfl
@[simp] theorem setX_hart_priv (s : State) (n : BitVec 5) (v : Word) : (s.setX n v).hart.priv = s.hart.priv := by
  unfold State.setX Hart.setX; dsimp only; split <;> rfl
@[simp] theorem setX_hart_pc (s : State) (n : BitVec 5) (v : Word) : (s.setX n v).hart.pc = s.hart.pc := by
  unfold State.setX Hart.setX; dsimp only; split <;> rfl
@[simp] theorem setX_hart_vregs (s : State) (n : BitVec 5) (v : Word) : (s.setX n v).hart.vregs = s.hart.vregs := by
  unfold State.setX Hart.setX; dsimp only; split <;> rfl
@[simp] theorem setX_hart_mregs (s : State) (n : BitVec 5) (v : Word) : (s.setX n v).hart.mregs = s.hart.mregs := by
  unfold State.setX Hart.setX; dsimp only; split <;> rfl
@[simp] theorem setX_hart_csr (s : State) (n : BitVec 5) (v : Word) : (s.setX n v).hart.csr = s.hart.csr := by
  unfold State.setX Hart.setX; dsimp only; split <;> rfl
@[simp] theorem setX_hart_sup (s : State) (n : BitVec 5) (v : Word) : (s.setX n v).hart.sup = s.hart.sup := by
  unfold State.setX Hart.setX; dsimp only; split <;> rfl
@[simp] theorem setX_hart_record (s : State) (n : BitVec 5) (v : Word) : (s.setX n v).hart.record = s.hart.record := by
  unfold State.setX Hart.setX; dsimp only; split <;> rfl
@[simp] theorem setX_hart_loops (s : State) (n : BitVec 5) (v : Word) : (s.setX n v).hart.loops = s.hart.loops := by
  unfold State.setX Hart.setX; dsimp only; split <;> rfl
@[simp] theorem setX_hart_trapLoops (s : State) (n : BitVec 5) (v : Word) : (s.setX n v).hart.trapLoops = s.hart.trapLoops := by
  unfold State.setX Hart.setX; dsimp only; split <;> rfl
@[simp] theorem setX_hart_strip (s : State) (n : BitVec 5) (v : Word) : (s.setX n v).hart.strip = s.hart.strip := by
  unfold State.setX Hart.setX; dsimp only; split <;> rfl
@[simp] theorem setX_hart_ui (s : State) (n : BitVec 5) (v : Word) : (s.setX n v).hart.ui = s.hart.ui := by
  unfold State.setX Hart.setX; dsimp only; split <;> rfl
@[simp] theorem setX_hart_queues (s : State) (n : BitVec 5) (v : Word) : (s.setX n v).hart.queues = s.hart.queues := by
  unfold State.setX Hart.setX; dsimp only; split <;> rfl
@[simp] theorem setX_hart_locks (s : State) (n : BitVec 5) (v : Word) : (s.setX n v).hart.locks = s.hart.locks := by
  unfold State.setX Hart.setX; dsimp only; split <;> rfl
@[simp] theorem setX_hart_vdesc (s : State) (n : BitVec 5) (v : Word) : (s.setX n v).hart.vdesc = s.hart.vdesc := by
  unfold State.setX Hart.setX; dsimp only; split <;> rfl
@[simp] theorem setX_hart_claim (s : State) (n : BitVec 5) (v : Word) : (s.setX n v).hart.claim = s.hart.claim := by
  unfold State.setX Hart.setX; dsimp only; split <;> rfl
@[simp] theorem setX_hart_unordered (s : State) (n : BitVec 5) (v : Word) : (s.setX n v).hart.unordered = s.hart.unordered := by
  unfold State.setX Hart.setX; dsimp only; split <;> rfl
@[simp] theorem setX_hart_ctl (s : State) (n : BitVec 5) (v : Word) : (s.setX n v).hart.ctl = s.hart.ctl := by
  unfold State.setX Hart.setX; dsimp only; split <;> rfl

/-! ### reach -/

@[simp] theorem reach_cur (s : State) (q : Word) : (s.reach q).cur = s.cur := rfl
@[simp] theorem reach_core (s : State) (q : Word) : (s.reach q).core = s.core := rfl
@[simp] theorem reach_harts (s : State) (q : Word) : (s.reach q).harts = s.harts := rfl
@[simp] theorem reach_cores (s : State) (q : Word) : (s.reach q).cores = s.cores := rfl
@[simp] theorem reach_mem (s : State) (q : Word) : (s.reach q).mem = s.mem := rfl
@[simp] theorem reach_poison (s : State) (q : Word) : (s.reach q).poison = s.poison := rfl
@[simp] theorem reach_vaults (s : State) (q : Word) : (s.reach q).vaults = s.vaults := rfl
@[simp] theorem reach_tlb2 (s : State) (q : Word) : (s.reach q).tlb2 = s.tlb2 := rfl
@[simp] theorem reach_parts (s : State) (q : Word) : (s.reach q).parts = s.parts := rfl
@[simp] theorem reach_streams (s : State) (q : Word) : (s.reach q).streams = s.streams := rfl
@[simp] theorem reach_functions (s : State) (q : Word) : (s.reach q).functions = s.functions := rfl
@[simp] theorem reach_launches (s : State) (q : Word) : (s.reach q).launches = s.launches := rfl
@[simp] theorem reach_nextLaunch (s : State) (q : Word) : (s.reach q).nextLaunch = s.nextLaunch := rfl
@[simp] theorem reach_objects (s : State) (q : Word) : (s.reach q).objects = s.objects := rfl
@[simp] theorem reach_nextObject (s : State) (q : Word) : (s.reach q).nextObject = s.nextObject := rfl
@[simp] theorem reach_saved (s : State) (q : Word) : (s.reach q).saved = s.saved := rfl
@[simp] theorem reach_fabric (s : State) (q : Word) : (s.reach q).fabric = s.fabric := rfl
@[simp] theorem reach_repair (s : State) (q : Word) : (s.reach q).repair = s.repair := rfl
@[simp] theorem reach_boot (s : State) (q : Word) : (s.reach q).boot = s.boot := rfl
@[simp] theorem reach_msix (s : State) (q : Word) : (s.reach q).msix = s.msix := rfl
@[simp] theorem reach_reports (s : State) (q : Word) : (s.reach q).reports = s.reports := rfl
@[simp] theorem reach_agenda (s : State) (q : Word) : (s.reach q).agenda = s.agenda := rfl
@[simp] theorem reach_free (s : State) (q : Word) : (s.reach q).free = s.free := rfl
@[simp] theorem reach_hart_run (s : State) (q : Word) : (s.reach q).hart.run = s.hart.run := rfl
@[simp] theorem reach_hart_priv (s : State) (q : Word) : (s.reach q).hart.priv = s.hart.priv := rfl
@[simp] theorem reach_hart_regs (s : State) (q : Word) : (s.reach q).hart.regs = s.hart.regs := rfl
@[simp] theorem reach_hart_vregs (s : State) (q : Word) : (s.reach q).hart.vregs = s.hart.vregs := rfl
@[simp] theorem reach_hart_mregs (s : State) (q : Word) : (s.reach q).hart.mregs = s.hart.mregs := rfl
@[simp] theorem reach_hart_csr (s : State) (q : Word) : (s.reach q).hart.csr = s.hart.csr := rfl
@[simp] theorem reach_hart_sup (s : State) (q : Word) : (s.reach q).hart.sup = s.hart.sup := rfl
@[simp] theorem reach_hart_record (s : State) (q : Word) : (s.reach q).hart.record = s.hart.record := rfl
@[simp] theorem reach_hart_trapLoops (s : State) (q : Word) : (s.reach q).hart.trapLoops = s.hart.trapLoops := rfl
@[simp] theorem reach_hart_strip (s : State) (q : Word) : (s.reach q).hart.strip = s.hart.strip := rfl
@[simp] theorem reach_hart_ui (s : State) (q : Word) : (s.reach q).hart.ui = s.hart.ui := rfl
@[simp] theorem reach_hart_queues (s : State) (q : Word) : (s.reach q).hart.queues = s.hart.queues := rfl
@[simp] theorem reach_hart_locks (s : State) (q : Word) : (s.reach q).hart.locks = s.hart.locks := rfl
@[simp] theorem reach_hart_vdesc (s : State) (q : Word) : (s.reach q).hart.vdesc = s.hart.vdesc := rfl
@[simp] theorem reach_hart_claim (s : State) (q : Word) : (s.reach q).hart.claim = s.hart.claim := rfl
@[simp] theorem reach_hart_unordered (s : State) (q : Word) : (s.reach q).hart.unordered = s.hart.unordered := rfl
@[simp] theorem reach_hart_upsets (s : State) (q : Word) : (s.reach q).hart.upsets = s.hart.upsets := rfl
@[simp] theorem reach_hart_ctl (s : State) (q : Word) : (s.reach q).hart.ctl = s.hart.ctl := rfl

/-! ### advance -/

@[simp] theorem advance_cur (s : State) (n : Nat) : (s.advance n).cur = s.cur := rfl
@[simp] theorem advance_core (s : State) (n : Nat) : (s.advance n).core = s.core := rfl
@[simp] theorem advance_harts (s : State) (n : Nat) : (s.advance n).harts = s.harts := rfl
@[simp] theorem advance_cores (s : State) (n : Nat) : (s.advance n).cores = s.cores := rfl
@[simp] theorem advance_mem (s : State) (n : Nat) : (s.advance n).mem = s.mem := rfl
@[simp] theorem advance_poison (s : State) (n : Nat) : (s.advance n).poison = s.poison := rfl
@[simp] theorem advance_vaults (s : State) (n : Nat) : (s.advance n).vaults = s.vaults := rfl
@[simp] theorem advance_tlb2 (s : State) (n : Nat) : (s.advance n).tlb2 = s.tlb2 := rfl
@[simp] theorem advance_parts (s : State) (n : Nat) : (s.advance n).parts = s.parts := rfl
@[simp] theorem advance_streams (s : State) (n : Nat) : (s.advance n).streams = s.streams := rfl
@[simp] theorem advance_functions (s : State) (n : Nat) : (s.advance n).functions = s.functions := rfl
@[simp] theorem advance_launches (s : State) (n : Nat) : (s.advance n).launches = s.launches := rfl
@[simp] theorem advance_nextLaunch (s : State) (n : Nat) : (s.advance n).nextLaunch = s.nextLaunch := rfl
@[simp] theorem advance_objects (s : State) (n : Nat) : (s.advance n).objects = s.objects := rfl
@[simp] theorem advance_nextObject (s : State) (n : Nat) : (s.advance n).nextObject = s.nextObject := rfl
@[simp] theorem advance_saved (s : State) (n : Nat) : (s.advance n).saved = s.saved := rfl
@[simp] theorem advance_fabric (s : State) (n : Nat) : (s.advance n).fabric = s.fabric := rfl
@[simp] theorem advance_repair (s : State) (n : Nat) : (s.advance n).repair = s.repair := rfl
@[simp] theorem advance_boot (s : State) (n : Nat) : (s.advance n).boot = s.boot := rfl
@[simp] theorem advance_msix (s : State) (n : Nat) : (s.advance n).msix = s.msix := rfl
@[simp] theorem advance_reports (s : State) (n : Nat) : (s.advance n).reports = s.reports := rfl
@[simp] theorem advance_agenda (s : State) (n : Nat) : (s.advance n).agenda = s.agenda := rfl
@[simp] theorem advance_free (s : State) (n : Nat) : (s.advance n).free = s.free := rfl
@[simp] theorem advance_hart_run (s : State) (n : Nat) : (s.advance n).hart.run = s.hart.run := rfl
@[simp] theorem advance_hart_priv (s : State) (n : Nat) : (s.advance n).hart.priv = s.hart.priv := rfl
@[simp] theorem advance_hart_regs (s : State) (n : Nat) : (s.advance n).hart.regs = s.hart.regs := rfl
@[simp] theorem advance_hart_vregs (s : State) (n : Nat) : (s.advance n).hart.vregs = s.hart.vregs := rfl
@[simp] theorem advance_hart_mregs (s : State) (n : Nat) : (s.advance n).hart.mregs = s.hart.mregs := rfl
@[simp] theorem advance_hart_csr (s : State) (n : Nat) : (s.advance n).hart.csr = s.hart.csr := rfl
@[simp] theorem advance_hart_sup (s : State) (n : Nat) : (s.advance n).hart.sup = s.hart.sup := rfl
@[simp] theorem advance_hart_record (s : State) (n : Nat) : (s.advance n).hart.record = s.hart.record := rfl
@[simp] theorem advance_hart_trapLoops (s : State) (n : Nat) : (s.advance n).hart.trapLoops = s.hart.trapLoops := rfl
@[simp] theorem advance_hart_strip (s : State) (n : Nat) : (s.advance n).hart.strip = s.hart.strip := rfl
@[simp] theorem advance_hart_ui (s : State) (n : Nat) : (s.advance n).hart.ui = s.hart.ui := rfl
@[simp] theorem advance_hart_queues (s : State) (n : Nat) : (s.advance n).hart.queues = s.hart.queues := rfl
@[simp] theorem advance_hart_locks (s : State) (n : Nat) : (s.advance n).hart.locks = s.hart.locks := rfl
@[simp] theorem advance_hart_vdesc (s : State) (n : Nat) : (s.advance n).hart.vdesc = s.hart.vdesc := rfl
@[simp] theorem advance_hart_claim (s : State) (n : Nat) : (s.advance n).hart.claim = s.hart.claim := rfl
@[simp] theorem advance_hart_unordered (s : State) (n : Nat) : (s.advance n).hart.unordered = s.hart.unordered := rfl
@[simp] theorem advance_hart_upsets (s : State) (n : Nat) : (s.advance n).hart.upsets = s.hart.upsets := rfl
@[simp] theorem advance_hart_ctl (s : State) (n : Nat) : (s.advance n).hart.ctl = s.hart.ctl := rfl

/-! ### jump -/

@[simp] theorem jump_cur (s : State) (t : Word) : (s.jump t).cur = s.cur := rfl
@[simp] theorem jump_core (s : State) (t : Word) : (s.jump t).core = s.core := rfl
@[simp] theorem jump_harts (s : State) (t : Word) : (s.jump t).harts = s.harts := rfl
@[simp] theorem jump_cores (s : State) (t : Word) : (s.jump t).cores = s.cores := rfl
@[simp] theorem jump_mem (s : State) (t : Word) : (s.jump t).mem = s.mem := rfl
@[simp] theorem jump_poison (s : State) (t : Word) : (s.jump t).poison = s.poison := rfl
@[simp] theorem jump_vaults (s : State) (t : Word) : (s.jump t).vaults = s.vaults := rfl
@[simp] theorem jump_tlb2 (s : State) (t : Word) : (s.jump t).tlb2 = s.tlb2 := rfl
@[simp] theorem jump_parts (s : State) (t : Word) : (s.jump t).parts = s.parts := rfl
@[simp] theorem jump_streams (s : State) (t : Word) : (s.jump t).streams = s.streams := rfl
@[simp] theorem jump_functions (s : State) (t : Word) : (s.jump t).functions = s.functions := rfl
@[simp] theorem jump_launches (s : State) (t : Word) : (s.jump t).launches = s.launches := rfl
@[simp] theorem jump_nextLaunch (s : State) (t : Word) : (s.jump t).nextLaunch = s.nextLaunch := rfl
@[simp] theorem jump_objects (s : State) (t : Word) : (s.jump t).objects = s.objects := rfl
@[simp] theorem jump_nextObject (s : State) (t : Word) : (s.jump t).nextObject = s.nextObject := rfl
@[simp] theorem jump_saved (s : State) (t : Word) : (s.jump t).saved = s.saved := rfl
@[simp] theorem jump_fabric (s : State) (t : Word) : (s.jump t).fabric = s.fabric := rfl
@[simp] theorem jump_repair (s : State) (t : Word) : (s.jump t).repair = s.repair := rfl
@[simp] theorem jump_boot (s : State) (t : Word) : (s.jump t).boot = s.boot := rfl
@[simp] theorem jump_msix (s : State) (t : Word) : (s.jump t).msix = s.msix := rfl
@[simp] theorem jump_reports (s : State) (t : Word) : (s.jump t).reports = s.reports := rfl
@[simp] theorem jump_agenda (s : State) (t : Word) : (s.jump t).agenda = s.agenda := rfl
@[simp] theorem jump_free (s : State) (t : Word) : (s.jump t).free = s.free := rfl
@[simp] theorem jump_hart_run (s : State) (t : Word) : (s.jump t).hart.run = s.hart.run := rfl
@[simp] theorem jump_hart_priv (s : State) (t : Word) : (s.jump t).hart.priv = s.hart.priv := rfl
@[simp] theorem jump_hart_regs (s : State) (t : Word) : (s.jump t).hart.regs = s.hart.regs := rfl
@[simp] theorem jump_hart_vregs (s : State) (t : Word) : (s.jump t).hart.vregs = s.hart.vregs := rfl
@[simp] theorem jump_hart_mregs (s : State) (t : Word) : (s.jump t).hart.mregs = s.hart.mregs := rfl
@[simp] theorem jump_hart_csr (s : State) (t : Word) : (s.jump t).hart.csr = s.hart.csr := rfl
@[simp] theorem jump_hart_sup (s : State) (t : Word) : (s.jump t).hart.sup = s.hart.sup := rfl
@[simp] theorem jump_hart_record (s : State) (t : Word) : (s.jump t).hart.record = s.hart.record := rfl
@[simp] theorem jump_hart_trapLoops (s : State) (t : Word) : (s.jump t).hart.trapLoops = s.hart.trapLoops := rfl
@[simp] theorem jump_hart_strip (s : State) (t : Word) : (s.jump t).hart.strip = s.hart.strip := rfl
@[simp] theorem jump_hart_ui (s : State) (t : Word) : (s.jump t).hart.ui = s.hart.ui := rfl
@[simp] theorem jump_hart_queues (s : State) (t : Word) : (s.jump t).hart.queues = s.hart.queues := rfl
@[simp] theorem jump_hart_locks (s : State) (t : Word) : (s.jump t).hart.locks = s.hart.locks := rfl
@[simp] theorem jump_hart_vdesc (s : State) (t : Word) : (s.jump t).hart.vdesc = s.hart.vdesc := rfl
@[simp] theorem jump_hart_claim (s : State) (t : Word) : (s.jump t).hart.claim = s.hart.claim := rfl
@[simp] theorem jump_hart_unordered (s : State) (t : Word) : (s.jump t).hart.unordered = s.hart.unordered := rfl
@[simp] theorem jump_hart_upsets (s : State) (t : Word) : (s.jump t).hart.upsets = s.hart.upsets := rfl
@[simp] theorem jump_hart_ctl (s : State) (t : Word) : (s.jump t).hart.ctl = s.hart.ctl := rfl

/-! ### withCsr -/

@[simp] theorem withCsr_cur (s : State) (c : UserCsr) : (s.withCsr c).cur = s.cur := rfl
@[simp] theorem withCsr_core (s : State) (c : UserCsr) : (s.withCsr c).core = s.core := rfl
@[simp] theorem withCsr_harts (s : State) (c : UserCsr) : (s.withCsr c).harts = s.harts := rfl
@[simp] theorem withCsr_cores (s : State) (c : UserCsr) : (s.withCsr c).cores = s.cores := rfl
@[simp] theorem withCsr_mem (s : State) (c : UserCsr) : (s.withCsr c).mem = s.mem := rfl
@[simp] theorem withCsr_poison (s : State) (c : UserCsr) : (s.withCsr c).poison = s.poison := rfl
@[simp] theorem withCsr_vaults (s : State) (c : UserCsr) : (s.withCsr c).vaults = s.vaults := rfl
@[simp] theorem withCsr_tlb2 (s : State) (c : UserCsr) : (s.withCsr c).tlb2 = s.tlb2 := rfl
@[simp] theorem withCsr_parts (s : State) (c : UserCsr) : (s.withCsr c).parts = s.parts := rfl
@[simp] theorem withCsr_streams (s : State) (c : UserCsr) : (s.withCsr c).streams = s.streams := rfl
@[simp] theorem withCsr_functions (s : State) (c : UserCsr) : (s.withCsr c).functions = s.functions := rfl
@[simp] theorem withCsr_launches (s : State) (c : UserCsr) : (s.withCsr c).launches = s.launches := rfl
@[simp] theorem withCsr_nextLaunch (s : State) (c : UserCsr) : (s.withCsr c).nextLaunch = s.nextLaunch := rfl
@[simp] theorem withCsr_objects (s : State) (c : UserCsr) : (s.withCsr c).objects = s.objects := rfl
@[simp] theorem withCsr_nextObject (s : State) (c : UserCsr) : (s.withCsr c).nextObject = s.nextObject := rfl
@[simp] theorem withCsr_saved (s : State) (c : UserCsr) : (s.withCsr c).saved = s.saved := rfl
@[simp] theorem withCsr_fabric (s : State) (c : UserCsr) : (s.withCsr c).fabric = s.fabric := rfl
@[simp] theorem withCsr_repair (s : State) (c : UserCsr) : (s.withCsr c).repair = s.repair := rfl
@[simp] theorem withCsr_boot (s : State) (c : UserCsr) : (s.withCsr c).boot = s.boot := rfl
@[simp] theorem withCsr_msix (s : State) (c : UserCsr) : (s.withCsr c).msix = s.msix := rfl
@[simp] theorem withCsr_reports (s : State) (c : UserCsr) : (s.withCsr c).reports = s.reports := rfl
@[simp] theorem withCsr_agenda (s : State) (c : UserCsr) : (s.withCsr c).agenda = s.agenda := rfl
@[simp] theorem withCsr_free (s : State) (c : UserCsr) : (s.withCsr c).free = s.free := rfl
@[simp] theorem withCsr_hart_run (s : State) (c : UserCsr) : (s.withCsr c).hart.run = s.hart.run := rfl
@[simp] theorem withCsr_hart_priv (s : State) (c : UserCsr) : (s.withCsr c).hart.priv = s.hart.priv := rfl
@[simp] theorem withCsr_hart_pc (s : State) (c : UserCsr) : (s.withCsr c).hart.pc = s.hart.pc := rfl
@[simp] theorem withCsr_hart_regs (s : State) (c : UserCsr) : (s.withCsr c).hart.regs = s.hart.regs := rfl
@[simp] theorem withCsr_hart_vregs (s : State) (c : UserCsr) : (s.withCsr c).hart.vregs = s.hart.vregs := rfl
@[simp] theorem withCsr_hart_mregs (s : State) (c : UserCsr) : (s.withCsr c).hart.mregs = s.hart.mregs := rfl
@[simp] theorem withCsr_hart_sup (s : State) (c : UserCsr) : (s.withCsr c).hart.sup = s.hart.sup := rfl
@[simp] theorem withCsr_hart_record (s : State) (c : UserCsr) : (s.withCsr c).hart.record = s.hart.record := rfl
@[simp] theorem withCsr_hart_loops (s : State) (c : UserCsr) : (s.withCsr c).hart.loops = s.hart.loops := rfl
@[simp] theorem withCsr_hart_trapLoops (s : State) (c : UserCsr) : (s.withCsr c).hart.trapLoops = s.hart.trapLoops := rfl
@[simp] theorem withCsr_hart_strip (s : State) (c : UserCsr) : (s.withCsr c).hart.strip = s.hart.strip := rfl
@[simp] theorem withCsr_hart_ui (s : State) (c : UserCsr) : (s.withCsr c).hart.ui = s.hart.ui := rfl
@[simp] theorem withCsr_hart_queues (s : State) (c : UserCsr) : (s.withCsr c).hart.queues = s.hart.queues := rfl
@[simp] theorem withCsr_hart_locks (s : State) (c : UserCsr) : (s.withCsr c).hart.locks = s.hart.locks := rfl
@[simp] theorem withCsr_hart_vdesc (s : State) (c : UserCsr) : (s.withCsr c).hart.vdesc = s.hart.vdesc := rfl
@[simp] theorem withCsr_hart_claim (s : State) (c : UserCsr) : (s.withCsr c).hart.claim = s.hart.claim := rfl
@[simp] theorem withCsr_hart_unordered (s : State) (c : UserCsr) : (s.withCsr c).hart.unordered = s.hart.unordered := rfl
@[simp] theorem withCsr_hart_upsets (s : State) (c : UserCsr) : (s.withCsr c).hart.upsets = s.hart.upsets := rfl
@[simp] theorem withCsr_hart_ctl (s : State) (c : UserCsr) : (s.withCsr c).hart.ctl = s.hart.ctl := rfl

/-! ### withSup -/

@[simp] theorem withSup_cur (s : State) (c : SupCsr) : (s.withSup c).cur = s.cur := rfl
@[simp] theorem withSup_core (s : State) (c : SupCsr) : (s.withSup c).core = s.core := rfl
@[simp] theorem withSup_harts (s : State) (c : SupCsr) : (s.withSup c).harts = s.harts := rfl
@[simp] theorem withSup_cores (s : State) (c : SupCsr) : (s.withSup c).cores = s.cores := rfl
@[simp] theorem withSup_mem (s : State) (c : SupCsr) : (s.withSup c).mem = s.mem := rfl
@[simp] theorem withSup_poison (s : State) (c : SupCsr) : (s.withSup c).poison = s.poison := rfl
@[simp] theorem withSup_vaults (s : State) (c : SupCsr) : (s.withSup c).vaults = s.vaults := rfl
@[simp] theorem withSup_tlb2 (s : State) (c : SupCsr) : (s.withSup c).tlb2 = s.tlb2 := rfl
@[simp] theorem withSup_parts (s : State) (c : SupCsr) : (s.withSup c).parts = s.parts := rfl
@[simp] theorem withSup_streams (s : State) (c : SupCsr) : (s.withSup c).streams = s.streams := rfl
@[simp] theorem withSup_functions (s : State) (c : SupCsr) : (s.withSup c).functions = s.functions := rfl
@[simp] theorem withSup_launches (s : State) (c : SupCsr) : (s.withSup c).launches = s.launches := rfl
@[simp] theorem withSup_nextLaunch (s : State) (c : SupCsr) : (s.withSup c).nextLaunch = s.nextLaunch := rfl
@[simp] theorem withSup_objects (s : State) (c : SupCsr) : (s.withSup c).objects = s.objects := rfl
@[simp] theorem withSup_nextObject (s : State) (c : SupCsr) : (s.withSup c).nextObject = s.nextObject := rfl
@[simp] theorem withSup_saved (s : State) (c : SupCsr) : (s.withSup c).saved = s.saved := rfl
@[simp] theorem withSup_fabric (s : State) (c : SupCsr) : (s.withSup c).fabric = s.fabric := rfl
@[simp] theorem withSup_repair (s : State) (c : SupCsr) : (s.withSup c).repair = s.repair := rfl
@[simp] theorem withSup_boot (s : State) (c : SupCsr) : (s.withSup c).boot = s.boot := rfl
@[simp] theorem withSup_msix (s : State) (c : SupCsr) : (s.withSup c).msix = s.msix := rfl
@[simp] theorem withSup_reports (s : State) (c : SupCsr) : (s.withSup c).reports = s.reports := rfl
@[simp] theorem withSup_agenda (s : State) (c : SupCsr) : (s.withSup c).agenda = s.agenda := rfl
@[simp] theorem withSup_free (s : State) (c : SupCsr) : (s.withSup c).free = s.free := rfl
@[simp] theorem withSup_hart_run (s : State) (c : SupCsr) : (s.withSup c).hart.run = s.hart.run := rfl
@[simp] theorem withSup_hart_priv (s : State) (c : SupCsr) : (s.withSup c).hart.priv = s.hart.priv := rfl
@[simp] theorem withSup_hart_pc (s : State) (c : SupCsr) : (s.withSup c).hart.pc = s.hart.pc := rfl
@[simp] theorem withSup_hart_regs (s : State) (c : SupCsr) : (s.withSup c).hart.regs = s.hart.regs := rfl
@[simp] theorem withSup_hart_vregs (s : State) (c : SupCsr) : (s.withSup c).hart.vregs = s.hart.vregs := rfl
@[simp] theorem withSup_hart_mregs (s : State) (c : SupCsr) : (s.withSup c).hart.mregs = s.hart.mregs := rfl
@[simp] theorem withSup_hart_csr (s : State) (c : SupCsr) : (s.withSup c).hart.csr = s.hart.csr := rfl
@[simp] theorem withSup_hart_record (s : State) (c : SupCsr) : (s.withSup c).hart.record = s.hart.record := rfl
@[simp] theorem withSup_hart_loops (s : State) (c : SupCsr) : (s.withSup c).hart.loops = s.hart.loops := rfl
@[simp] theorem withSup_hart_trapLoops (s : State) (c : SupCsr) : (s.withSup c).hart.trapLoops = s.hart.trapLoops := rfl
@[simp] theorem withSup_hart_strip (s : State) (c : SupCsr) : (s.withSup c).hart.strip = s.hart.strip := rfl
@[simp] theorem withSup_hart_ui (s : State) (c : SupCsr) : (s.withSup c).hart.ui = s.hart.ui := rfl
@[simp] theorem withSup_hart_queues (s : State) (c : SupCsr) : (s.withSup c).hart.queues = s.hart.queues := rfl
@[simp] theorem withSup_hart_locks (s : State) (c : SupCsr) : (s.withSup c).hart.locks = s.hart.locks := rfl
@[simp] theorem withSup_hart_vdesc (s : State) (c : SupCsr) : (s.withSup c).hart.vdesc = s.hart.vdesc := rfl
@[simp] theorem withSup_hart_claim (s : State) (c : SupCsr) : (s.withSup c).hart.claim = s.hart.claim := rfl
@[simp] theorem withSup_hart_unordered (s : State) (c : SupCsr) : (s.withSup c).hart.unordered = s.hart.unordered := rfl
@[simp] theorem withSup_hart_upsets (s : State) (c : SupCsr) : (s.withSup c).hart.upsets = s.hart.upsets := rfl
@[simp] theorem withSup_hart_ctl (s : State) (c : SupCsr) : (s.withSup c).hart.ctl = s.hart.ctl := rfl

/-! ### withStrip -/

@[simp] theorem withStrip_cur (s : State) (c : Strip) : (s.withStrip c).cur = s.cur := rfl
@[simp] theorem withStrip_core (s : State) (c : Strip) : (s.withStrip c).core = s.core := rfl
@[simp] theorem withStrip_harts (s : State) (c : Strip) : (s.withStrip c).harts = s.harts := rfl
@[simp] theorem withStrip_cores (s : State) (c : Strip) : (s.withStrip c).cores = s.cores := rfl
@[simp] theorem withStrip_mem (s : State) (c : Strip) : (s.withStrip c).mem = s.mem := rfl
@[simp] theorem withStrip_poison (s : State) (c : Strip) : (s.withStrip c).poison = s.poison := rfl
@[simp] theorem withStrip_vaults (s : State) (c : Strip) : (s.withStrip c).vaults = s.vaults := rfl
@[simp] theorem withStrip_tlb2 (s : State) (c : Strip) : (s.withStrip c).tlb2 = s.tlb2 := rfl
@[simp] theorem withStrip_parts (s : State) (c : Strip) : (s.withStrip c).parts = s.parts := rfl
@[simp] theorem withStrip_streams (s : State) (c : Strip) : (s.withStrip c).streams = s.streams := rfl
@[simp] theorem withStrip_functions (s : State) (c : Strip) : (s.withStrip c).functions = s.functions := rfl
@[simp] theorem withStrip_launches (s : State) (c : Strip) : (s.withStrip c).launches = s.launches := rfl
@[simp] theorem withStrip_nextLaunch (s : State) (c : Strip) : (s.withStrip c).nextLaunch = s.nextLaunch := rfl
@[simp] theorem withStrip_objects (s : State) (c : Strip) : (s.withStrip c).objects = s.objects := rfl
@[simp] theorem withStrip_nextObject (s : State) (c : Strip) : (s.withStrip c).nextObject = s.nextObject := rfl
@[simp] theorem withStrip_saved (s : State) (c : Strip) : (s.withStrip c).saved = s.saved := rfl
@[simp] theorem withStrip_fabric (s : State) (c : Strip) : (s.withStrip c).fabric = s.fabric := rfl
@[simp] theorem withStrip_repair (s : State) (c : Strip) : (s.withStrip c).repair = s.repair := rfl
@[simp] theorem withStrip_boot (s : State) (c : Strip) : (s.withStrip c).boot = s.boot := rfl
@[simp] theorem withStrip_msix (s : State) (c : Strip) : (s.withStrip c).msix = s.msix := rfl
@[simp] theorem withStrip_reports (s : State) (c : Strip) : (s.withStrip c).reports = s.reports := rfl
@[simp] theorem withStrip_agenda (s : State) (c : Strip) : (s.withStrip c).agenda = s.agenda := rfl
@[simp] theorem withStrip_free (s : State) (c : Strip) : (s.withStrip c).free = s.free := rfl
@[simp] theorem withStrip_hart_run (s : State) (c : Strip) : (s.withStrip c).hart.run = s.hart.run := rfl
@[simp] theorem withStrip_hart_priv (s : State) (c : Strip) : (s.withStrip c).hart.priv = s.hart.priv := rfl
@[simp] theorem withStrip_hart_pc (s : State) (c : Strip) : (s.withStrip c).hart.pc = s.hart.pc := rfl
@[simp] theorem withStrip_hart_regs (s : State) (c : Strip) : (s.withStrip c).hart.regs = s.hart.regs := rfl
@[simp] theorem withStrip_hart_vregs (s : State) (c : Strip) : (s.withStrip c).hart.vregs = s.hart.vregs := rfl
@[simp] theorem withStrip_hart_mregs (s : State) (c : Strip) : (s.withStrip c).hart.mregs = s.hart.mregs := rfl
@[simp] theorem withStrip_hart_csr (s : State) (c : Strip) : (s.withStrip c).hart.csr = s.hart.csr := rfl
@[simp] theorem withStrip_hart_sup (s : State) (c : Strip) : (s.withStrip c).hart.sup = s.hart.sup := rfl
@[simp] theorem withStrip_hart_record (s : State) (c : Strip) : (s.withStrip c).hart.record = s.hart.record := rfl
@[simp] theorem withStrip_hart_loops (s : State) (c : Strip) : (s.withStrip c).hart.loops = s.hart.loops := rfl
@[simp] theorem withStrip_hart_trapLoops (s : State) (c : Strip) : (s.withStrip c).hart.trapLoops = s.hart.trapLoops := rfl
@[simp] theorem withStrip_hart_ui (s : State) (c : Strip) : (s.withStrip c).hart.ui = s.hart.ui := rfl
@[simp] theorem withStrip_hart_queues (s : State) (c : Strip) : (s.withStrip c).hart.queues = s.hart.queues := rfl
@[simp] theorem withStrip_hart_locks (s : State) (c : Strip) : (s.withStrip c).hart.locks = s.hart.locks := rfl
@[simp] theorem withStrip_hart_vdesc (s : State) (c : Strip) : (s.withStrip c).hart.vdesc = s.hart.vdesc := rfl
@[simp] theorem withStrip_hart_claim (s : State) (c : Strip) : (s.withStrip c).hart.claim = s.hart.claim := rfl
@[simp] theorem withStrip_hart_unordered (s : State) (c : Strip) : (s.withStrip c).hart.unordered = s.hart.unordered := rfl
@[simp] theorem withStrip_hart_upsets (s : State) (c : Strip) : (s.withStrip c).hart.upsets = s.hart.upsets := rfl
@[simp] theorem withStrip_hart_ctl (s : State) (c : Strip) : (s.withStrip c).hart.ctl = s.hart.ctl := rfl

/-! ### withUi -/

@[simp] theorem withUi_cur (s : State) (c : UserInt) : (s.withUi c).cur = s.cur := rfl
@[simp] theorem withUi_core (s : State) (c : UserInt) : (s.withUi c).core = s.core := rfl
@[simp] theorem withUi_harts (s : State) (c : UserInt) : (s.withUi c).harts = s.harts := rfl
@[simp] theorem withUi_cores (s : State) (c : UserInt) : (s.withUi c).cores = s.cores := rfl
@[simp] theorem withUi_mem (s : State) (c : UserInt) : (s.withUi c).mem = s.mem := rfl
@[simp] theorem withUi_poison (s : State) (c : UserInt) : (s.withUi c).poison = s.poison := rfl
@[simp] theorem withUi_vaults (s : State) (c : UserInt) : (s.withUi c).vaults = s.vaults := rfl
@[simp] theorem withUi_tlb2 (s : State) (c : UserInt) : (s.withUi c).tlb2 = s.tlb2 := rfl
@[simp] theorem withUi_parts (s : State) (c : UserInt) : (s.withUi c).parts = s.parts := rfl
@[simp] theorem withUi_streams (s : State) (c : UserInt) : (s.withUi c).streams = s.streams := rfl
@[simp] theorem withUi_functions (s : State) (c : UserInt) : (s.withUi c).functions = s.functions := rfl
@[simp] theorem withUi_launches (s : State) (c : UserInt) : (s.withUi c).launches = s.launches := rfl
@[simp] theorem withUi_nextLaunch (s : State) (c : UserInt) : (s.withUi c).nextLaunch = s.nextLaunch := rfl
@[simp] theorem withUi_objects (s : State) (c : UserInt) : (s.withUi c).objects = s.objects := rfl
@[simp] theorem withUi_nextObject (s : State) (c : UserInt) : (s.withUi c).nextObject = s.nextObject := rfl
@[simp] theorem withUi_saved (s : State) (c : UserInt) : (s.withUi c).saved = s.saved := rfl
@[simp] theorem withUi_fabric (s : State) (c : UserInt) : (s.withUi c).fabric = s.fabric := rfl
@[simp] theorem withUi_repair (s : State) (c : UserInt) : (s.withUi c).repair = s.repair := rfl
@[simp] theorem withUi_boot (s : State) (c : UserInt) : (s.withUi c).boot = s.boot := rfl
@[simp] theorem withUi_msix (s : State) (c : UserInt) : (s.withUi c).msix = s.msix := rfl
@[simp] theorem withUi_reports (s : State) (c : UserInt) : (s.withUi c).reports = s.reports := rfl
@[simp] theorem withUi_agenda (s : State) (c : UserInt) : (s.withUi c).agenda = s.agenda := rfl
@[simp] theorem withUi_free (s : State) (c : UserInt) : (s.withUi c).free = s.free := rfl
@[simp] theorem withUi_hart_run (s : State) (c : UserInt) : (s.withUi c).hart.run = s.hart.run := rfl
@[simp] theorem withUi_hart_priv (s : State) (c : UserInt) : (s.withUi c).hart.priv = s.hart.priv := rfl
@[simp] theorem withUi_hart_pc (s : State) (c : UserInt) : (s.withUi c).hart.pc = s.hart.pc := rfl
@[simp] theorem withUi_hart_regs (s : State) (c : UserInt) : (s.withUi c).hart.regs = s.hart.regs := rfl
@[simp] theorem withUi_hart_vregs (s : State) (c : UserInt) : (s.withUi c).hart.vregs = s.hart.vregs := rfl
@[simp] theorem withUi_hart_mregs (s : State) (c : UserInt) : (s.withUi c).hart.mregs = s.hart.mregs := rfl
@[simp] theorem withUi_hart_csr (s : State) (c : UserInt) : (s.withUi c).hart.csr = s.hart.csr := rfl
@[simp] theorem withUi_hart_sup (s : State) (c : UserInt) : (s.withUi c).hart.sup = s.hart.sup := rfl
@[simp] theorem withUi_hart_record (s : State) (c : UserInt) : (s.withUi c).hart.record = s.hart.record := rfl
@[simp] theorem withUi_hart_loops (s : State) (c : UserInt) : (s.withUi c).hart.loops = s.hart.loops := rfl
@[simp] theorem withUi_hart_trapLoops (s : State) (c : UserInt) : (s.withUi c).hart.trapLoops = s.hart.trapLoops := rfl
@[simp] theorem withUi_hart_strip (s : State) (c : UserInt) : (s.withUi c).hart.strip = s.hart.strip := rfl
@[simp] theorem withUi_hart_queues (s : State) (c : UserInt) : (s.withUi c).hart.queues = s.hart.queues := rfl
@[simp] theorem withUi_hart_locks (s : State) (c : UserInt) : (s.withUi c).hart.locks = s.hart.locks := rfl
@[simp] theorem withUi_hart_vdesc (s : State) (c : UserInt) : (s.withUi c).hart.vdesc = s.hart.vdesc := rfl
@[simp] theorem withUi_hart_claim (s : State) (c : UserInt) : (s.withUi c).hart.claim = s.hart.claim := rfl
@[simp] theorem withUi_hart_unordered (s : State) (c : UserInt) : (s.withUi c).hart.unordered = s.hart.unordered := rfl
@[simp] theorem withUi_hart_upsets (s : State) (c : UserInt) : (s.withUi c).hart.upsets = s.hart.upsets := rfl
@[simp] theorem withUi_hart_ctl (s : State) (c : UserInt) : (s.withUi c).hart.ctl = s.hart.ctl := rfl

/-! ### withRun -/

@[simp] theorem withRun_cur (s : State) (r : RunState) : (s.withRun r).cur = s.cur := rfl
@[simp] theorem withRun_core (s : State) (r : RunState) : (s.withRun r).core = s.core := rfl
@[simp] theorem withRun_harts (s : State) (r : RunState) : (s.withRun r).harts = s.harts := rfl
@[simp] theorem withRun_cores (s : State) (r : RunState) : (s.withRun r).cores = s.cores := rfl
@[simp] theorem withRun_mem (s : State) (r : RunState) : (s.withRun r).mem = s.mem := rfl
@[simp] theorem withRun_poison (s : State) (r : RunState) : (s.withRun r).poison = s.poison := rfl
@[simp] theorem withRun_vaults (s : State) (r : RunState) : (s.withRun r).vaults = s.vaults := rfl
@[simp] theorem withRun_tlb2 (s : State) (r : RunState) : (s.withRun r).tlb2 = s.tlb2 := rfl
@[simp] theorem withRun_parts (s : State) (r : RunState) : (s.withRun r).parts = s.parts := rfl
@[simp] theorem withRun_streams (s : State) (r : RunState) : (s.withRun r).streams = s.streams := rfl
@[simp] theorem withRun_functions (s : State) (r : RunState) : (s.withRun r).functions = s.functions := rfl
@[simp] theorem withRun_launches (s : State) (r : RunState) : (s.withRun r).launches = s.launches := rfl
@[simp] theorem withRun_nextLaunch (s : State) (r : RunState) : (s.withRun r).nextLaunch = s.nextLaunch := rfl
@[simp] theorem withRun_objects (s : State) (r : RunState) : (s.withRun r).objects = s.objects := rfl
@[simp] theorem withRun_nextObject (s : State) (r : RunState) : (s.withRun r).nextObject = s.nextObject := rfl
@[simp] theorem withRun_saved (s : State) (r : RunState) : (s.withRun r).saved = s.saved := rfl
@[simp] theorem withRun_fabric (s : State) (r : RunState) : (s.withRun r).fabric = s.fabric := rfl
@[simp] theorem withRun_repair (s : State) (r : RunState) : (s.withRun r).repair = s.repair := rfl
@[simp] theorem withRun_boot (s : State) (r : RunState) : (s.withRun r).boot = s.boot := rfl
@[simp] theorem withRun_msix (s : State) (r : RunState) : (s.withRun r).msix = s.msix := rfl
@[simp] theorem withRun_reports (s : State) (r : RunState) : (s.withRun r).reports = s.reports := rfl
@[simp] theorem withRun_agenda (s : State) (r : RunState) : (s.withRun r).agenda = s.agenda := rfl
@[simp] theorem withRun_free (s : State) (r : RunState) : (s.withRun r).free = s.free := rfl
@[simp] theorem withRun_hart_priv (s : State) (r : RunState) : (s.withRun r).hart.priv = s.hart.priv := rfl
@[simp] theorem withRun_hart_pc (s : State) (r : RunState) : (s.withRun r).hart.pc = s.hart.pc := rfl
@[simp] theorem withRun_hart_regs (s : State) (r : RunState) : (s.withRun r).hart.regs = s.hart.regs := rfl
@[simp] theorem withRun_hart_vregs (s : State) (r : RunState) : (s.withRun r).hart.vregs = s.hart.vregs := rfl
@[simp] theorem withRun_hart_mregs (s : State) (r : RunState) : (s.withRun r).hart.mregs = s.hart.mregs := rfl
@[simp] theorem withRun_hart_csr (s : State) (r : RunState) : (s.withRun r).hart.csr = s.hart.csr := rfl
@[simp] theorem withRun_hart_sup (s : State) (r : RunState) : (s.withRun r).hart.sup = s.hart.sup := rfl
@[simp] theorem withRun_hart_record (s : State) (r : RunState) : (s.withRun r).hart.record = s.hart.record := rfl
@[simp] theorem withRun_hart_loops (s : State) (r : RunState) : (s.withRun r).hart.loops = s.hart.loops := rfl
@[simp] theorem withRun_hart_trapLoops (s : State) (r : RunState) : (s.withRun r).hart.trapLoops = s.hart.trapLoops := rfl
@[simp] theorem withRun_hart_strip (s : State) (r : RunState) : (s.withRun r).hart.strip = s.hart.strip := rfl
@[simp] theorem withRun_hart_ui (s : State) (r : RunState) : (s.withRun r).hart.ui = s.hart.ui := rfl
@[simp] theorem withRun_hart_queues (s : State) (r : RunState) : (s.withRun r).hart.queues = s.hart.queues := rfl
@[simp] theorem withRun_hart_locks (s : State) (r : RunState) : (s.withRun r).hart.locks = s.hart.locks := rfl
@[simp] theorem withRun_hart_vdesc (s : State) (r : RunState) : (s.withRun r).hart.vdesc = s.hart.vdesc := rfl
@[simp] theorem withRun_hart_claim (s : State) (r : RunState) : (s.withRun r).hart.claim = s.hart.claim := rfl
@[simp] theorem withRun_hart_unordered (s : State) (r : RunState) : (s.withRun r).hart.unordered = s.hart.unordered := rfl
@[simp] theorem withRun_hart_upsets (s : State) (r : RunState) : (s.withRun r).hart.upsets = s.hart.upsets := rfl
@[simp] theorem withRun_hart_ctl (s : State) (r : RunState) : (s.withRun r).hart.ctl = s.hart.ctl := rfl

/-! ### withRecord -/

@[simp] theorem withRecord_cur (s : State) (r : FaultRecord) : (s.withRecord r).cur = s.cur := rfl
@[simp] theorem withRecord_core (s : State) (r : FaultRecord) : (s.withRecord r).core = s.core := rfl
@[simp] theorem withRecord_harts (s : State) (r : FaultRecord) : (s.withRecord r).harts = s.harts := rfl
@[simp] theorem withRecord_cores (s : State) (r : FaultRecord) : (s.withRecord r).cores = s.cores := rfl
@[simp] theorem withRecord_mem (s : State) (r : FaultRecord) : (s.withRecord r).mem = s.mem := rfl
@[simp] theorem withRecord_poison (s : State) (r : FaultRecord) : (s.withRecord r).poison = s.poison := rfl
@[simp] theorem withRecord_vaults (s : State) (r : FaultRecord) : (s.withRecord r).vaults = s.vaults := rfl
@[simp] theorem withRecord_tlb2 (s : State) (r : FaultRecord) : (s.withRecord r).tlb2 = s.tlb2 := rfl
@[simp] theorem withRecord_parts (s : State) (r : FaultRecord) : (s.withRecord r).parts = s.parts := rfl
@[simp] theorem withRecord_streams (s : State) (r : FaultRecord) : (s.withRecord r).streams = s.streams := rfl
@[simp] theorem withRecord_functions (s : State) (r : FaultRecord) : (s.withRecord r).functions = s.functions := rfl
@[simp] theorem withRecord_launches (s : State) (r : FaultRecord) : (s.withRecord r).launches = s.launches := rfl
@[simp] theorem withRecord_nextLaunch (s : State) (r : FaultRecord) : (s.withRecord r).nextLaunch = s.nextLaunch := rfl
@[simp] theorem withRecord_objects (s : State) (r : FaultRecord) : (s.withRecord r).objects = s.objects := rfl
@[simp] theorem withRecord_nextObject (s : State) (r : FaultRecord) : (s.withRecord r).nextObject = s.nextObject := rfl
@[simp] theorem withRecord_saved (s : State) (r : FaultRecord) : (s.withRecord r).saved = s.saved := rfl
@[simp] theorem withRecord_fabric (s : State) (r : FaultRecord) : (s.withRecord r).fabric = s.fabric := rfl
@[simp] theorem withRecord_repair (s : State) (r : FaultRecord) : (s.withRecord r).repair = s.repair := rfl
@[simp] theorem withRecord_boot (s : State) (r : FaultRecord) : (s.withRecord r).boot = s.boot := rfl
@[simp] theorem withRecord_msix (s : State) (r : FaultRecord) : (s.withRecord r).msix = s.msix := rfl
@[simp] theorem withRecord_reports (s : State) (r : FaultRecord) : (s.withRecord r).reports = s.reports := rfl
@[simp] theorem withRecord_agenda (s : State) (r : FaultRecord) : (s.withRecord r).agenda = s.agenda := rfl
@[simp] theorem withRecord_free (s : State) (r : FaultRecord) : (s.withRecord r).free = s.free := rfl
@[simp] theorem withRecord_hart_run (s : State) (r : FaultRecord) : (s.withRecord r).hart.run = s.hart.run := rfl
@[simp] theorem withRecord_hart_priv (s : State) (r : FaultRecord) : (s.withRecord r).hart.priv = s.hart.priv := rfl
@[simp] theorem withRecord_hart_pc (s : State) (r : FaultRecord) : (s.withRecord r).hart.pc = s.hart.pc := rfl
@[simp] theorem withRecord_hart_regs (s : State) (r : FaultRecord) : (s.withRecord r).hart.regs = s.hart.regs := rfl
@[simp] theorem withRecord_hart_vregs (s : State) (r : FaultRecord) : (s.withRecord r).hart.vregs = s.hart.vregs := rfl
@[simp] theorem withRecord_hart_mregs (s : State) (r : FaultRecord) : (s.withRecord r).hart.mregs = s.hart.mregs := rfl
@[simp] theorem withRecord_hart_csr (s : State) (r : FaultRecord) : (s.withRecord r).hart.csr = s.hart.csr := rfl
@[simp] theorem withRecord_hart_sup (s : State) (r : FaultRecord) : (s.withRecord r).hart.sup = s.hart.sup := rfl
@[simp] theorem withRecord_hart_loops (s : State) (r : FaultRecord) : (s.withRecord r).hart.loops = s.hart.loops := rfl
@[simp] theorem withRecord_hart_trapLoops (s : State) (r : FaultRecord) : (s.withRecord r).hart.trapLoops = s.hart.trapLoops := rfl
@[simp] theorem withRecord_hart_strip (s : State) (r : FaultRecord) : (s.withRecord r).hart.strip = s.hart.strip := rfl
@[simp] theorem withRecord_hart_ui (s : State) (r : FaultRecord) : (s.withRecord r).hart.ui = s.hart.ui := rfl
@[simp] theorem withRecord_hart_queues (s : State) (r : FaultRecord) : (s.withRecord r).hart.queues = s.hart.queues := rfl
@[simp] theorem withRecord_hart_locks (s : State) (r : FaultRecord) : (s.withRecord r).hart.locks = s.hart.locks := rfl
@[simp] theorem withRecord_hart_vdesc (s : State) (r : FaultRecord) : (s.withRecord r).hart.vdesc = s.hart.vdesc := rfl
@[simp] theorem withRecord_hart_claim (s : State) (r : FaultRecord) : (s.withRecord r).hart.claim = s.hart.claim := rfl
@[simp] theorem withRecord_hart_unordered (s : State) (r : FaultRecord) : (s.withRecord r).hart.unordered = s.hart.unordered := rfl
@[simp] theorem withRecord_hart_upsets (s : State) (r : FaultRecord) : (s.withRecord r).hart.upsets = s.hart.upsets := rfl
@[simp] theorem withRecord_hart_ctl (s : State) (r : FaultRecord) : (s.withRecord r).hart.ctl = s.hart.ctl := rfl

/-! ### orFlags -/

@[simp] theorem orFlags_cur (s : State) (f : FFlags) : (s.orFlags f).cur = s.cur := rfl
@[simp] theorem orFlags_core (s : State) (f : FFlags) : (s.orFlags f).core = s.core := rfl
@[simp] theorem orFlags_harts (s : State) (f : FFlags) : (s.orFlags f).harts = s.harts := rfl
@[simp] theorem orFlags_cores (s : State) (f : FFlags) : (s.orFlags f).cores = s.cores := rfl
@[simp] theorem orFlags_mem (s : State) (f : FFlags) : (s.orFlags f).mem = s.mem := rfl
@[simp] theorem orFlags_poison (s : State) (f : FFlags) : (s.orFlags f).poison = s.poison := rfl
@[simp] theorem orFlags_vaults (s : State) (f : FFlags) : (s.orFlags f).vaults = s.vaults := rfl
@[simp] theorem orFlags_tlb2 (s : State) (f : FFlags) : (s.orFlags f).tlb2 = s.tlb2 := rfl
@[simp] theorem orFlags_parts (s : State) (f : FFlags) : (s.orFlags f).parts = s.parts := rfl
@[simp] theorem orFlags_streams (s : State) (f : FFlags) : (s.orFlags f).streams = s.streams := rfl
@[simp] theorem orFlags_functions (s : State) (f : FFlags) : (s.orFlags f).functions = s.functions := rfl
@[simp] theorem orFlags_launches (s : State) (f : FFlags) : (s.orFlags f).launches = s.launches := rfl
@[simp] theorem orFlags_nextLaunch (s : State) (f : FFlags) : (s.orFlags f).nextLaunch = s.nextLaunch := rfl
@[simp] theorem orFlags_objects (s : State) (f : FFlags) : (s.orFlags f).objects = s.objects := rfl
@[simp] theorem orFlags_nextObject (s : State) (f : FFlags) : (s.orFlags f).nextObject = s.nextObject := rfl
@[simp] theorem orFlags_saved (s : State) (f : FFlags) : (s.orFlags f).saved = s.saved := rfl
@[simp] theorem orFlags_fabric (s : State) (f : FFlags) : (s.orFlags f).fabric = s.fabric := rfl
@[simp] theorem orFlags_repair (s : State) (f : FFlags) : (s.orFlags f).repair = s.repair := rfl
@[simp] theorem orFlags_boot (s : State) (f : FFlags) : (s.orFlags f).boot = s.boot := rfl
@[simp] theorem orFlags_msix (s : State) (f : FFlags) : (s.orFlags f).msix = s.msix := rfl
@[simp] theorem orFlags_reports (s : State) (f : FFlags) : (s.orFlags f).reports = s.reports := rfl
@[simp] theorem orFlags_agenda (s : State) (f : FFlags) : (s.orFlags f).agenda = s.agenda := rfl
@[simp] theorem orFlags_free (s : State) (f : FFlags) : (s.orFlags f).free = s.free := rfl
@[simp] theorem orFlags_hart_run (s : State) (f : FFlags) : (s.orFlags f).hart.run = s.hart.run := rfl
@[simp] theorem orFlags_hart_priv (s : State) (f : FFlags) : (s.orFlags f).hart.priv = s.hart.priv := rfl
@[simp] theorem orFlags_hart_pc (s : State) (f : FFlags) : (s.orFlags f).hart.pc = s.hart.pc := rfl
@[simp] theorem orFlags_hart_regs (s : State) (f : FFlags) : (s.orFlags f).hart.regs = s.hart.regs := rfl
@[simp] theorem orFlags_hart_vregs (s : State) (f : FFlags) : (s.orFlags f).hart.vregs = s.hart.vregs := rfl
@[simp] theorem orFlags_hart_mregs (s : State) (f : FFlags) : (s.orFlags f).hart.mregs = s.hart.mregs := rfl
@[simp] theorem orFlags_hart_sup (s : State) (f : FFlags) : (s.orFlags f).hart.sup = s.hart.sup := rfl
@[simp] theorem orFlags_hart_record (s : State) (f : FFlags) : (s.orFlags f).hart.record = s.hart.record := rfl
@[simp] theorem orFlags_hart_loops (s : State) (f : FFlags) : (s.orFlags f).hart.loops = s.hart.loops := rfl
@[simp] theorem orFlags_hart_trapLoops (s : State) (f : FFlags) : (s.orFlags f).hart.trapLoops = s.hart.trapLoops := rfl
@[simp] theorem orFlags_hart_strip (s : State) (f : FFlags) : (s.orFlags f).hart.strip = s.hart.strip := rfl
@[simp] theorem orFlags_hart_ui (s : State) (f : FFlags) : (s.orFlags f).hart.ui = s.hart.ui := rfl
@[simp] theorem orFlags_hart_queues (s : State) (f : FFlags) : (s.orFlags f).hart.queues = s.hart.queues := rfl
@[simp] theorem orFlags_hart_locks (s : State) (f : FFlags) : (s.orFlags f).hart.locks = s.hart.locks := rfl
@[simp] theorem orFlags_hart_vdesc (s : State) (f : FFlags) : (s.orFlags f).hart.vdesc = s.hart.vdesc := rfl
@[simp] theorem orFlags_hart_claim (s : State) (f : FFlags) : (s.orFlags f).hart.claim = s.hart.claim := rfl
@[simp] theorem orFlags_hart_unordered (s : State) (f : FFlags) : (s.orFlags f).hart.unordered = s.hart.unordered := rfl
@[simp] theorem orFlags_hart_upsets (s : State) (f : FFlags) : (s.orFlags f).hart.upsets = s.hart.upsets := rfl
@[simp] theorem orFlags_hart_ctl (s : State) (f : FFlags) : (s.orFlags f).hart.ctl = s.hart.ctl := rfl

/-! ### withVl -/

@[simp] theorem withVl_cur (s : State) (n : Nat) : (s.withVl n).cur = s.cur := rfl
@[simp] theorem withVl_core (s : State) (n : Nat) : (s.withVl n).core = s.core := rfl
@[simp] theorem withVl_harts (s : State) (n : Nat) : (s.withVl n).harts = s.harts := rfl
@[simp] theorem withVl_cores (s : State) (n : Nat) : (s.withVl n).cores = s.cores := rfl
@[simp] theorem withVl_mem (s : State) (n : Nat) : (s.withVl n).mem = s.mem := rfl
@[simp] theorem withVl_poison (s : State) (n : Nat) : (s.withVl n).poison = s.poison := rfl
@[simp] theorem withVl_vaults (s : State) (n : Nat) : (s.withVl n).vaults = s.vaults := rfl
@[simp] theorem withVl_tlb2 (s : State) (n : Nat) : (s.withVl n).tlb2 = s.tlb2 := rfl
@[simp] theorem withVl_parts (s : State) (n : Nat) : (s.withVl n).parts = s.parts := rfl
@[simp] theorem withVl_streams (s : State) (n : Nat) : (s.withVl n).streams = s.streams := rfl
@[simp] theorem withVl_functions (s : State) (n : Nat) : (s.withVl n).functions = s.functions := rfl
@[simp] theorem withVl_launches (s : State) (n : Nat) : (s.withVl n).launches = s.launches := rfl
@[simp] theorem withVl_nextLaunch (s : State) (n : Nat) : (s.withVl n).nextLaunch = s.nextLaunch := rfl
@[simp] theorem withVl_objects (s : State) (n : Nat) : (s.withVl n).objects = s.objects := rfl
@[simp] theorem withVl_nextObject (s : State) (n : Nat) : (s.withVl n).nextObject = s.nextObject := rfl
@[simp] theorem withVl_saved (s : State) (n : Nat) : (s.withVl n).saved = s.saved := rfl
@[simp] theorem withVl_fabric (s : State) (n : Nat) : (s.withVl n).fabric = s.fabric := rfl
@[simp] theorem withVl_repair (s : State) (n : Nat) : (s.withVl n).repair = s.repair := rfl
@[simp] theorem withVl_boot (s : State) (n : Nat) : (s.withVl n).boot = s.boot := rfl
@[simp] theorem withVl_msix (s : State) (n : Nat) : (s.withVl n).msix = s.msix := rfl
@[simp] theorem withVl_reports (s : State) (n : Nat) : (s.withVl n).reports = s.reports := rfl
@[simp] theorem withVl_agenda (s : State) (n : Nat) : (s.withVl n).agenda = s.agenda := rfl
@[simp] theorem withVl_free (s : State) (n : Nat) : (s.withVl n).free = s.free := rfl
@[simp] theorem withVl_hart_run (s : State) (n : Nat) : (s.withVl n).hart.run = s.hart.run := rfl
@[simp] theorem withVl_hart_priv (s : State) (n : Nat) : (s.withVl n).hart.priv = s.hart.priv := rfl
@[simp] theorem withVl_hart_pc (s : State) (n : Nat) : (s.withVl n).hart.pc = s.hart.pc := rfl
@[simp] theorem withVl_hart_regs (s : State) (n : Nat) : (s.withVl n).hart.regs = s.hart.regs := rfl
@[simp] theorem withVl_hart_vregs (s : State) (n : Nat) : (s.withVl n).hart.vregs = s.hart.vregs := rfl
@[simp] theorem withVl_hart_mregs (s : State) (n : Nat) : (s.withVl n).hart.mregs = s.hart.mregs := rfl
@[simp] theorem withVl_hart_sup (s : State) (n : Nat) : (s.withVl n).hart.sup = s.hart.sup := rfl
@[simp] theorem withVl_hart_record (s : State) (n : Nat) : (s.withVl n).hart.record = s.hart.record := rfl
@[simp] theorem withVl_hart_loops (s : State) (n : Nat) : (s.withVl n).hart.loops = s.hart.loops := rfl
@[simp] theorem withVl_hart_trapLoops (s : State) (n : Nat) : (s.withVl n).hart.trapLoops = s.hart.trapLoops := rfl
@[simp] theorem withVl_hart_strip (s : State) (n : Nat) : (s.withVl n).hart.strip = s.hart.strip := rfl
@[simp] theorem withVl_hart_ui (s : State) (n : Nat) : (s.withVl n).hart.ui = s.hart.ui := rfl
@[simp] theorem withVl_hart_queues (s : State) (n : Nat) : (s.withVl n).hart.queues = s.hart.queues := rfl
@[simp] theorem withVl_hart_locks (s : State) (n : Nat) : (s.withVl n).hart.locks = s.hart.locks := rfl
@[simp] theorem withVl_hart_vdesc (s : State) (n : Nat) : (s.withVl n).hart.vdesc = s.hart.vdesc := rfl
@[simp] theorem withVl_hart_claim (s : State) (n : Nat) : (s.withVl n).hart.claim = s.hart.claim := rfl
@[simp] theorem withVl_hart_unordered (s : State) (n : Nat) : (s.withVl n).hart.unordered = s.hart.unordered := rfl
@[simp] theorem withVl_hart_upsets (s : State) (n : Nat) : (s.withVl n).hart.upsets = s.hart.upsets := rfl
@[simp] theorem withVl_hart_ctl (s : State) (n : Nat) : (s.withVl n).hart.ctl = s.hart.ctl := rfl

/-! ### withChain -/

@[simp] theorem withChain_cur (s : State) (c : Chain) : (s.withChain c).cur = s.cur := rfl
@[simp] theorem withChain_core (s : State) (c : Chain) : (s.withChain c).core = s.core := rfl
@[simp] theorem withChain_harts (s : State) (c : Chain) : (s.withChain c).harts = s.harts := rfl
@[simp] theorem withChain_cores (s : State) (c : Chain) : (s.withChain c).cores = s.cores := rfl
@[simp] theorem withChain_mem (s : State) (c : Chain) : (s.withChain c).mem = s.mem := rfl
@[simp] theorem withChain_poison (s : State) (c : Chain) : (s.withChain c).poison = s.poison := rfl
@[simp] theorem withChain_vaults (s : State) (c : Chain) : (s.withChain c).vaults = s.vaults := rfl
@[simp] theorem withChain_tlb2 (s : State) (c : Chain) : (s.withChain c).tlb2 = s.tlb2 := rfl
@[simp] theorem withChain_parts (s : State) (c : Chain) : (s.withChain c).parts = s.parts := rfl
@[simp] theorem withChain_streams (s : State) (c : Chain) : (s.withChain c).streams = s.streams := rfl
@[simp] theorem withChain_functions (s : State) (c : Chain) : (s.withChain c).functions = s.functions := rfl
@[simp] theorem withChain_launches (s : State) (c : Chain) : (s.withChain c).launches = s.launches := rfl
@[simp] theorem withChain_nextLaunch (s : State) (c : Chain) : (s.withChain c).nextLaunch = s.nextLaunch := rfl
@[simp] theorem withChain_objects (s : State) (c : Chain) : (s.withChain c).objects = s.objects := rfl
@[simp] theorem withChain_nextObject (s : State) (c : Chain) : (s.withChain c).nextObject = s.nextObject := rfl
@[simp] theorem withChain_saved (s : State) (c : Chain) : (s.withChain c).saved = s.saved := rfl
@[simp] theorem withChain_fabric (s : State) (c : Chain) : (s.withChain c).fabric = s.fabric := rfl
@[simp] theorem withChain_repair (s : State) (c : Chain) : (s.withChain c).repair = s.repair := rfl
@[simp] theorem withChain_boot (s : State) (c : Chain) : (s.withChain c).boot = s.boot := rfl
@[simp] theorem withChain_msix (s : State) (c : Chain) : (s.withChain c).msix = s.msix := rfl
@[simp] theorem withChain_reports (s : State) (c : Chain) : (s.withChain c).reports = s.reports := rfl
@[simp] theorem withChain_agenda (s : State) (c : Chain) : (s.withChain c).agenda = s.agenda := rfl
@[simp] theorem withChain_free (s : State) (c : Chain) : (s.withChain c).free = s.free := rfl
@[simp] theorem withChain_hart_run (s : State) (c : Chain) : (s.withChain c).hart.run = s.hart.run := rfl
@[simp] theorem withChain_hart_priv (s : State) (c : Chain) : (s.withChain c).hart.priv = s.hart.priv := rfl
@[simp] theorem withChain_hart_pc (s : State) (c : Chain) : (s.withChain c).hart.pc = s.hart.pc := rfl
@[simp] theorem withChain_hart_regs (s : State) (c : Chain) : (s.withChain c).hart.regs = s.hart.regs := rfl
@[simp] theorem withChain_hart_vregs (s : State) (c : Chain) : (s.withChain c).hart.vregs = s.hart.vregs := rfl
@[simp] theorem withChain_hart_mregs (s : State) (c : Chain) : (s.withChain c).hart.mregs = s.hart.mregs := rfl
@[simp] theorem withChain_hart_sup (s : State) (c : Chain) : (s.withChain c).hart.sup = s.hart.sup := rfl
@[simp] theorem withChain_hart_record (s : State) (c : Chain) : (s.withChain c).hart.record = s.hart.record := rfl
@[simp] theorem withChain_hart_loops (s : State) (c : Chain) : (s.withChain c).hart.loops = s.hart.loops := rfl
@[simp] theorem withChain_hart_trapLoops (s : State) (c : Chain) : (s.withChain c).hart.trapLoops = s.hart.trapLoops := rfl
@[simp] theorem withChain_hart_strip (s : State) (c : Chain) : (s.withChain c).hart.strip = s.hart.strip := rfl
@[simp] theorem withChain_hart_ui (s : State) (c : Chain) : (s.withChain c).hart.ui = s.hart.ui := rfl
@[simp] theorem withChain_hart_queues (s : State) (c : Chain) : (s.withChain c).hart.queues = s.hart.queues := rfl
@[simp] theorem withChain_hart_locks (s : State) (c : Chain) : (s.withChain c).hart.locks = s.hart.locks := rfl
@[simp] theorem withChain_hart_vdesc (s : State) (c : Chain) : (s.withChain c).hart.vdesc = s.hart.vdesc := rfl
@[simp] theorem withChain_hart_claim (s : State) (c : Chain) : (s.withChain c).hart.claim = s.hart.claim := rfl
@[simp] theorem withChain_hart_unordered (s : State) (c : Chain) : (s.withChain c).hart.unordered = s.hart.unordered := rfl
@[simp] theorem withChain_hart_upsets (s : State) (c : Chain) : (s.withChain c).hart.upsets = s.hart.upsets := rfl
@[simp] theorem withChain_hart_ctl (s : State) (c : Chain) : (s.withChain c).hart.ctl = s.hart.ctl := rfl

/-! ### setGroup -/

@[simp] theorem setGroup_cur (s : State) (d : BitVec 5) (res : Nat → Option Elem) : (s.setGroup d res).cur = s.cur := by
  unfold State.setGroup; with_reducible rfl
@[simp] theorem setGroup_core (s : State) (d : BitVec 5) (res : Nat → Option Elem) : (s.setGroup d res).core = s.core := by
  unfold State.setGroup; with_reducible rfl
@[simp] theorem setGroup_harts (s : State) (d : BitVec 5) (res : Nat → Option Elem) : (s.setGroup d res).harts = s.harts := by
  unfold State.setGroup; with_reducible rfl
@[simp] theorem setGroup_cores (s : State) (d : BitVec 5) (res : Nat → Option Elem) : (s.setGroup d res).cores = s.cores := by
  unfold State.setGroup; with_reducible rfl
@[simp] theorem setGroup_mem (s : State) (d : BitVec 5) (res : Nat → Option Elem) : (s.setGroup d res).mem = s.mem := by
  unfold State.setGroup; with_reducible rfl
@[simp] theorem setGroup_poison (s : State) (d : BitVec 5) (res : Nat → Option Elem) : (s.setGroup d res).poison = s.poison := by
  unfold State.setGroup; with_reducible rfl
@[simp] theorem setGroup_vaults (s : State) (d : BitVec 5) (res : Nat → Option Elem) : (s.setGroup d res).vaults = s.vaults := by
  unfold State.setGroup; with_reducible rfl
@[simp] theorem setGroup_tlb2 (s : State) (d : BitVec 5) (res : Nat → Option Elem) : (s.setGroup d res).tlb2 = s.tlb2 := by
  unfold State.setGroup; with_reducible rfl
@[simp] theorem setGroup_parts (s : State) (d : BitVec 5) (res : Nat → Option Elem) : (s.setGroup d res).parts = s.parts := by
  unfold State.setGroup; with_reducible rfl
@[simp] theorem setGroup_streams (s : State) (d : BitVec 5) (res : Nat → Option Elem) : (s.setGroup d res).streams = s.streams := by
  unfold State.setGroup; with_reducible rfl
@[simp] theorem setGroup_functions (s : State) (d : BitVec 5) (res : Nat → Option Elem) : (s.setGroup d res).functions = s.functions := by
  unfold State.setGroup; with_reducible rfl
@[simp] theorem setGroup_launches (s : State) (d : BitVec 5) (res : Nat → Option Elem) : (s.setGroup d res).launches = s.launches := by
  unfold State.setGroup; with_reducible rfl
@[simp] theorem setGroup_nextLaunch (s : State) (d : BitVec 5) (res : Nat → Option Elem) : (s.setGroup d res).nextLaunch = s.nextLaunch := by
  unfold State.setGroup; with_reducible rfl
@[simp] theorem setGroup_objects (s : State) (d : BitVec 5) (res : Nat → Option Elem) : (s.setGroup d res).objects = s.objects := by
  unfold State.setGroup; with_reducible rfl
@[simp] theorem setGroup_nextObject (s : State) (d : BitVec 5) (res : Nat → Option Elem) : (s.setGroup d res).nextObject = s.nextObject := by
  unfold State.setGroup; with_reducible rfl
@[simp] theorem setGroup_saved (s : State) (d : BitVec 5) (res : Nat → Option Elem) : (s.setGroup d res).saved = s.saved := by
  unfold State.setGroup; with_reducible rfl
@[simp] theorem setGroup_fabric (s : State) (d : BitVec 5) (res : Nat → Option Elem) : (s.setGroup d res).fabric = s.fabric := by
  unfold State.setGroup; with_reducible rfl
@[simp] theorem setGroup_repair (s : State) (d : BitVec 5) (res : Nat → Option Elem) : (s.setGroup d res).repair = s.repair := by
  unfold State.setGroup; with_reducible rfl
@[simp] theorem setGroup_boot (s : State) (d : BitVec 5) (res : Nat → Option Elem) : (s.setGroup d res).boot = s.boot := by
  unfold State.setGroup; with_reducible rfl
@[simp] theorem setGroup_msix (s : State) (d : BitVec 5) (res : Nat → Option Elem) : (s.setGroup d res).msix = s.msix := by
  unfold State.setGroup; with_reducible rfl
@[simp] theorem setGroup_reports (s : State) (d : BitVec 5) (res : Nat → Option Elem) : (s.setGroup d res).reports = s.reports := by
  unfold State.setGroup; with_reducible rfl
@[simp] theorem setGroup_agenda (s : State) (d : BitVec 5) (res : Nat → Option Elem) : (s.setGroup d res).agenda = s.agenda := by
  unfold State.setGroup; with_reducible rfl
@[simp] theorem setGroup_free (s : State) (d : BitVec 5) (res : Nat → Option Elem) : (s.setGroup d res).free = s.free := by
  unfold State.setGroup; with_reducible rfl
@[simp] theorem setGroup_hart_run (s : State) (d : BitVec 5) (res : Nat → Option Elem) : (s.setGroup d res).hart.run = s.hart.run := by
  unfold State.setGroup; with_reducible rfl
@[simp] theorem setGroup_hart_priv (s : State) (d : BitVec 5) (res : Nat → Option Elem) : (s.setGroup d res).hart.priv = s.hart.priv := by
  unfold State.setGroup; with_reducible rfl
@[simp] theorem setGroup_hart_pc (s : State) (d : BitVec 5) (res : Nat → Option Elem) : (s.setGroup d res).hart.pc = s.hart.pc := by
  unfold State.setGroup; with_reducible rfl
@[simp] theorem setGroup_hart_regs (s : State) (d : BitVec 5) (res : Nat → Option Elem) : (s.setGroup d res).hart.regs = s.hart.regs := by
  unfold State.setGroup; with_reducible rfl
@[simp] theorem setGroup_hart_mregs (s : State) (d : BitVec 5) (res : Nat → Option Elem) : (s.setGroup d res).hart.mregs = s.hart.mregs := by
  unfold State.setGroup; with_reducible rfl
@[simp] theorem setGroup_hart_csr (s : State) (d : BitVec 5) (res : Nat → Option Elem) : (s.setGroup d res).hart.csr = s.hart.csr := by
  unfold State.setGroup; with_reducible rfl
@[simp] theorem setGroup_hart_sup (s : State) (d : BitVec 5) (res : Nat → Option Elem) : (s.setGroup d res).hart.sup = s.hart.sup := by
  unfold State.setGroup; with_reducible rfl
@[simp] theorem setGroup_hart_record (s : State) (d : BitVec 5) (res : Nat → Option Elem) : (s.setGroup d res).hart.record = s.hart.record := by
  unfold State.setGroup; with_reducible rfl
@[simp] theorem setGroup_hart_loops (s : State) (d : BitVec 5) (res : Nat → Option Elem) : (s.setGroup d res).hart.loops = s.hart.loops := by
  unfold State.setGroup; with_reducible rfl
@[simp] theorem setGroup_hart_trapLoops (s : State) (d : BitVec 5) (res : Nat → Option Elem) : (s.setGroup d res).hart.trapLoops = s.hart.trapLoops := by
  unfold State.setGroup; with_reducible rfl
@[simp] theorem setGroup_hart_strip (s : State) (d : BitVec 5) (res : Nat → Option Elem) : (s.setGroup d res).hart.strip = s.hart.strip := by
  unfold State.setGroup; with_reducible rfl
@[simp] theorem setGroup_hart_ui (s : State) (d : BitVec 5) (res : Nat → Option Elem) : (s.setGroup d res).hart.ui = s.hart.ui := by
  unfold State.setGroup; with_reducible rfl
@[simp] theorem setGroup_hart_queues (s : State) (d : BitVec 5) (res : Nat → Option Elem) : (s.setGroup d res).hart.queues = s.hart.queues := by
  unfold State.setGroup; with_reducible rfl
@[simp] theorem setGroup_hart_locks (s : State) (d : BitVec 5) (res : Nat → Option Elem) : (s.setGroup d res).hart.locks = s.hart.locks := by
  unfold State.setGroup; with_reducible rfl
@[simp] theorem setGroup_hart_vdesc (s : State) (d : BitVec 5) (res : Nat → Option Elem) : (s.setGroup d res).hart.vdesc = s.hart.vdesc := by
  unfold State.setGroup; with_reducible rfl
@[simp] theorem setGroup_hart_claim (s : State) (d : BitVec 5) (res : Nat → Option Elem) : (s.setGroup d res).hart.claim = s.hart.claim := by
  unfold State.setGroup; with_reducible rfl
@[simp] theorem setGroup_hart_unordered (s : State) (d : BitVec 5) (res : Nat → Option Elem) : (s.setGroup d res).hart.unordered = s.hart.unordered := by
  unfold State.setGroup; with_reducible rfl
@[simp] theorem setGroup_hart_ctl (s : State) (d : BitVec 5) (res : Nat → Option Elem) : (s.setGroup d res).hart.ctl = s.hart.ctl := by
  unfold State.setGroup; with_reducible rfl

/-! ### setMask -/

@[simp] theorem setMask_cur (s : State) (d : Nat) (res : Nat → Option Bool) : (s.setMask d res).cur = s.cur := rfl
@[simp] theorem setMask_core (s : State) (d : Nat) (res : Nat → Option Bool) : (s.setMask d res).core = s.core := rfl
@[simp] theorem setMask_harts (s : State) (d : Nat) (res : Nat → Option Bool) : (s.setMask d res).harts = s.harts := rfl
@[simp] theorem setMask_cores (s : State) (d : Nat) (res : Nat → Option Bool) : (s.setMask d res).cores = s.cores := rfl
@[simp] theorem setMask_mem (s : State) (d : Nat) (res : Nat → Option Bool) : (s.setMask d res).mem = s.mem := rfl
@[simp] theorem setMask_poison (s : State) (d : Nat) (res : Nat → Option Bool) : (s.setMask d res).poison = s.poison := rfl
@[simp] theorem setMask_vaults (s : State) (d : Nat) (res : Nat → Option Bool) : (s.setMask d res).vaults = s.vaults := rfl
@[simp] theorem setMask_tlb2 (s : State) (d : Nat) (res : Nat → Option Bool) : (s.setMask d res).tlb2 = s.tlb2 := rfl
@[simp] theorem setMask_parts (s : State) (d : Nat) (res : Nat → Option Bool) : (s.setMask d res).parts = s.parts := rfl
@[simp] theorem setMask_streams (s : State) (d : Nat) (res : Nat → Option Bool) : (s.setMask d res).streams = s.streams := rfl
@[simp] theorem setMask_functions (s : State) (d : Nat) (res : Nat → Option Bool) : (s.setMask d res).functions = s.functions := rfl
@[simp] theorem setMask_launches (s : State) (d : Nat) (res : Nat → Option Bool) : (s.setMask d res).launches = s.launches := rfl
@[simp] theorem setMask_nextLaunch (s : State) (d : Nat) (res : Nat → Option Bool) : (s.setMask d res).nextLaunch = s.nextLaunch := rfl
@[simp] theorem setMask_objects (s : State) (d : Nat) (res : Nat → Option Bool) : (s.setMask d res).objects = s.objects := rfl
@[simp] theorem setMask_nextObject (s : State) (d : Nat) (res : Nat → Option Bool) : (s.setMask d res).nextObject = s.nextObject := rfl
@[simp] theorem setMask_saved (s : State) (d : Nat) (res : Nat → Option Bool) : (s.setMask d res).saved = s.saved := rfl
@[simp] theorem setMask_fabric (s : State) (d : Nat) (res : Nat → Option Bool) : (s.setMask d res).fabric = s.fabric := rfl
@[simp] theorem setMask_repair (s : State) (d : Nat) (res : Nat → Option Bool) : (s.setMask d res).repair = s.repair := rfl
@[simp] theorem setMask_boot (s : State) (d : Nat) (res : Nat → Option Bool) : (s.setMask d res).boot = s.boot := rfl
@[simp] theorem setMask_msix (s : State) (d : Nat) (res : Nat → Option Bool) : (s.setMask d res).msix = s.msix := rfl
@[simp] theorem setMask_reports (s : State) (d : Nat) (res : Nat → Option Bool) : (s.setMask d res).reports = s.reports := rfl
@[simp] theorem setMask_agenda (s : State) (d : Nat) (res : Nat → Option Bool) : (s.setMask d res).agenda = s.agenda := rfl
@[simp] theorem setMask_free (s : State) (d : Nat) (res : Nat → Option Bool) : (s.setMask d res).free = s.free := rfl
@[simp] theorem setMask_hart_run (s : State) (d : Nat) (res : Nat → Option Bool) : (s.setMask d res).hart.run = s.hart.run := rfl
@[simp] theorem setMask_hart_priv (s : State) (d : Nat) (res : Nat → Option Bool) : (s.setMask d res).hart.priv = s.hart.priv := rfl
@[simp] theorem setMask_hart_pc (s : State) (d : Nat) (res : Nat → Option Bool) : (s.setMask d res).hart.pc = s.hart.pc := rfl
@[simp] theorem setMask_hart_regs (s : State) (d : Nat) (res : Nat → Option Bool) : (s.setMask d res).hart.regs = s.hart.regs := rfl
@[simp] theorem setMask_hart_vregs (s : State) (d : Nat) (res : Nat → Option Bool) : (s.setMask d res).hart.vregs = s.hart.vregs := rfl
@[simp] theorem setMask_hart_csr (s : State) (d : Nat) (res : Nat → Option Bool) : (s.setMask d res).hart.csr = s.hart.csr := rfl
@[simp] theorem setMask_hart_sup (s : State) (d : Nat) (res : Nat → Option Bool) : (s.setMask d res).hart.sup = s.hart.sup := rfl
@[simp] theorem setMask_hart_record (s : State) (d : Nat) (res : Nat → Option Bool) : (s.setMask d res).hart.record = s.hart.record := rfl
@[simp] theorem setMask_hart_loops (s : State) (d : Nat) (res : Nat → Option Bool) : (s.setMask d res).hart.loops = s.hart.loops := rfl
@[simp] theorem setMask_hart_trapLoops (s : State) (d : Nat) (res : Nat → Option Bool) : (s.setMask d res).hart.trapLoops = s.hart.trapLoops := rfl
@[simp] theorem setMask_hart_strip (s : State) (d : Nat) (res : Nat → Option Bool) : (s.setMask d res).hart.strip = s.hart.strip := rfl
@[simp] theorem setMask_hart_ui (s : State) (d : Nat) (res : Nat → Option Bool) : (s.setMask d res).hart.ui = s.hart.ui := rfl
@[simp] theorem setMask_hart_queues (s : State) (d : Nat) (res : Nat → Option Bool) : (s.setMask d res).hart.queues = s.hart.queues := rfl
@[simp] theorem setMask_hart_locks (s : State) (d : Nat) (res : Nat → Option Bool) : (s.setMask d res).hart.locks = s.hart.locks := rfl
@[simp] theorem setMask_hart_vdesc (s : State) (d : Nat) (res : Nat → Option Bool) : (s.setMask d res).hart.vdesc = s.hart.vdesc := rfl
@[simp] theorem setMask_hart_claim (s : State) (d : Nat) (res : Nat → Option Bool) : (s.setMask d res).hart.claim = s.hart.claim := rfl
@[simp] theorem setMask_hart_unordered (s : State) (d : Nat) (res : Nat → Option Bool) : (s.setMask d res).hart.unordered = s.hart.unordered := rfl
@[simp] theorem setMask_hart_ctl (s : State) (d : Nat) (res : Nat → Option Bool) : (s.setMask d res).hart.ctl = s.hart.ctl := rfl

/-! ### elementwise -/

@[simp] theorem elementwise_cur (s : State) (d : BitVec 5) (m : BitVec 3) (op : Nat → Elem × FFlags) : (s.elementwise d m op).cur = s.cur := by
  simp only [State.elementwise, orFlags_cur, setGroup_cur]
@[simp] theorem elementwise_core (s : State) (d : BitVec 5) (m : BitVec 3) (op : Nat → Elem × FFlags) : (s.elementwise d m op).core = s.core := by
  simp only [State.elementwise, orFlags_core, setGroup_core]
@[simp] theorem elementwise_harts (s : State) (d : BitVec 5) (m : BitVec 3) (op : Nat → Elem × FFlags) : (s.elementwise d m op).harts = s.harts := by
  simp only [State.elementwise, orFlags_harts, setGroup_harts]
@[simp] theorem elementwise_cores (s : State) (d : BitVec 5) (m : BitVec 3) (op : Nat → Elem × FFlags) : (s.elementwise d m op).cores = s.cores := by
  simp only [State.elementwise, orFlags_cores, setGroup_cores]
@[simp] theorem elementwise_mem (s : State) (d : BitVec 5) (m : BitVec 3) (op : Nat → Elem × FFlags) : (s.elementwise d m op).mem = s.mem := by
  simp only [State.elementwise, orFlags_mem, setGroup_mem]
@[simp] theorem elementwise_poison (s : State) (d : BitVec 5) (m : BitVec 3) (op : Nat → Elem × FFlags) : (s.elementwise d m op).poison = s.poison := by
  simp only [State.elementwise, orFlags_poison, setGroup_poison]
@[simp] theorem elementwise_vaults (s : State) (d : BitVec 5) (m : BitVec 3) (op : Nat → Elem × FFlags) : (s.elementwise d m op).vaults = s.vaults := by
  simp only [State.elementwise, orFlags_vaults, setGroup_vaults]
@[simp] theorem elementwise_tlb2 (s : State) (d : BitVec 5) (m : BitVec 3) (op : Nat → Elem × FFlags) : (s.elementwise d m op).tlb2 = s.tlb2 := by
  simp only [State.elementwise, orFlags_tlb2, setGroup_tlb2]
@[simp] theorem elementwise_parts (s : State) (d : BitVec 5) (m : BitVec 3) (op : Nat → Elem × FFlags) : (s.elementwise d m op).parts = s.parts := by
  simp only [State.elementwise, orFlags_parts, setGroup_parts]
@[simp] theorem elementwise_streams (s : State) (d : BitVec 5) (m : BitVec 3) (op : Nat → Elem × FFlags) : (s.elementwise d m op).streams = s.streams := by
  simp only [State.elementwise, orFlags_streams, setGroup_streams]
@[simp] theorem elementwise_functions (s : State) (d : BitVec 5) (m : BitVec 3) (op : Nat → Elem × FFlags) : (s.elementwise d m op).functions = s.functions := by
  simp only [State.elementwise, orFlags_functions, setGroup_functions]
@[simp] theorem elementwise_launches (s : State) (d : BitVec 5) (m : BitVec 3) (op : Nat → Elem × FFlags) : (s.elementwise d m op).launches = s.launches := by
  simp only [State.elementwise, orFlags_launches, setGroup_launches]
@[simp] theorem elementwise_nextLaunch (s : State) (d : BitVec 5) (m : BitVec 3) (op : Nat → Elem × FFlags) : (s.elementwise d m op).nextLaunch = s.nextLaunch := by
  simp only [State.elementwise, orFlags_nextLaunch, setGroup_nextLaunch]
@[simp] theorem elementwise_objects (s : State) (d : BitVec 5) (m : BitVec 3) (op : Nat → Elem × FFlags) : (s.elementwise d m op).objects = s.objects := by
  simp only [State.elementwise, orFlags_objects, setGroup_objects]
@[simp] theorem elementwise_nextObject (s : State) (d : BitVec 5) (m : BitVec 3) (op : Nat → Elem × FFlags) : (s.elementwise d m op).nextObject = s.nextObject := by
  simp only [State.elementwise, orFlags_nextObject, setGroup_nextObject]
@[simp] theorem elementwise_saved (s : State) (d : BitVec 5) (m : BitVec 3) (op : Nat → Elem × FFlags) : (s.elementwise d m op).saved = s.saved := by
  simp only [State.elementwise, orFlags_saved, setGroup_saved]
@[simp] theorem elementwise_fabric (s : State) (d : BitVec 5) (m : BitVec 3) (op : Nat → Elem × FFlags) : (s.elementwise d m op).fabric = s.fabric := by
  simp only [State.elementwise, orFlags_fabric, setGroup_fabric]
@[simp] theorem elementwise_repair (s : State) (d : BitVec 5) (m : BitVec 3) (op : Nat → Elem × FFlags) : (s.elementwise d m op).repair = s.repair := by
  simp only [State.elementwise, orFlags_repair, setGroup_repair]
@[simp] theorem elementwise_boot (s : State) (d : BitVec 5) (m : BitVec 3) (op : Nat → Elem × FFlags) : (s.elementwise d m op).boot = s.boot := by
  simp only [State.elementwise, orFlags_boot, setGroup_boot]
@[simp] theorem elementwise_msix (s : State) (d : BitVec 5) (m : BitVec 3) (op : Nat → Elem × FFlags) : (s.elementwise d m op).msix = s.msix := by
  simp only [State.elementwise, orFlags_msix, setGroup_msix]
@[simp] theorem elementwise_reports (s : State) (d : BitVec 5) (m : BitVec 3) (op : Nat → Elem × FFlags) : (s.elementwise d m op).reports = s.reports := by
  simp only [State.elementwise, orFlags_reports, setGroup_reports]
@[simp] theorem elementwise_agenda (s : State) (d : BitVec 5) (m : BitVec 3) (op : Nat → Elem × FFlags) : (s.elementwise d m op).agenda = s.agenda := by
  simp only [State.elementwise, orFlags_agenda, setGroup_agenda]
@[simp] theorem elementwise_free (s : State) (d : BitVec 5) (m : BitVec 3) (op : Nat → Elem × FFlags) : (s.elementwise d m op).free = s.free := by
  simp only [State.elementwise, orFlags_free, setGroup_free]
@[simp] theorem elementwise_hart_run (s : State) (d : BitVec 5) (m : BitVec 3) (op : Nat → Elem × FFlags) : (s.elementwise d m op).hart.run = s.hart.run := by
  simp only [State.elementwise, orFlags_hart_run, setGroup_hart_run]
@[simp] theorem elementwise_hart_priv (s : State) (d : BitVec 5) (m : BitVec 3) (op : Nat → Elem × FFlags) : (s.elementwise d m op).hart.priv = s.hart.priv := by
  simp only [State.elementwise, orFlags_hart_priv, setGroup_hart_priv]
@[simp] theorem elementwise_hart_pc (s : State) (d : BitVec 5) (m : BitVec 3) (op : Nat → Elem × FFlags) : (s.elementwise d m op).hart.pc = s.hart.pc := by
  simp only [State.elementwise, orFlags_hart_pc, setGroup_hart_pc]
@[simp] theorem elementwise_hart_regs (s : State) (d : BitVec 5) (m : BitVec 3) (op : Nat → Elem × FFlags) : (s.elementwise d m op).hart.regs = s.hart.regs := by
  simp only [State.elementwise, orFlags_hart_regs, setGroup_hart_regs]
@[simp] theorem elementwise_hart_mregs (s : State) (d : BitVec 5) (m : BitVec 3) (op : Nat → Elem × FFlags) : (s.elementwise d m op).hart.mregs = s.hart.mregs := by
  simp only [State.elementwise, orFlags_hart_mregs, setGroup_hart_mregs]
@[simp] theorem elementwise_hart_sup (s : State) (d : BitVec 5) (m : BitVec 3) (op : Nat → Elem × FFlags) : (s.elementwise d m op).hart.sup = s.hart.sup := by
  simp only [State.elementwise, orFlags_hart_sup, setGroup_hart_sup]
@[simp] theorem elementwise_hart_record (s : State) (d : BitVec 5) (m : BitVec 3) (op : Nat → Elem × FFlags) : (s.elementwise d m op).hart.record = s.hart.record := by
  simp only [State.elementwise, orFlags_hart_record, setGroup_hart_record]
@[simp] theorem elementwise_hart_loops (s : State) (d : BitVec 5) (m : BitVec 3) (op : Nat → Elem × FFlags) : (s.elementwise d m op).hart.loops = s.hart.loops := by
  simp only [State.elementwise, orFlags_hart_loops, setGroup_hart_loops]
@[simp] theorem elementwise_hart_trapLoops (s : State) (d : BitVec 5) (m : BitVec 3) (op : Nat → Elem × FFlags) : (s.elementwise d m op).hart.trapLoops = s.hart.trapLoops := by
  simp only [State.elementwise, orFlags_hart_trapLoops, setGroup_hart_trapLoops]
@[simp] theorem elementwise_hart_strip (s : State) (d : BitVec 5) (m : BitVec 3) (op : Nat → Elem × FFlags) : (s.elementwise d m op).hart.strip = s.hart.strip := by
  simp only [State.elementwise, orFlags_hart_strip, setGroup_hart_strip]
@[simp] theorem elementwise_hart_ui (s : State) (d : BitVec 5) (m : BitVec 3) (op : Nat → Elem × FFlags) : (s.elementwise d m op).hart.ui = s.hart.ui := by
  simp only [State.elementwise, orFlags_hart_ui, setGroup_hart_ui]
@[simp] theorem elementwise_hart_queues (s : State) (d : BitVec 5) (m : BitVec 3) (op : Nat → Elem × FFlags) : (s.elementwise d m op).hart.queues = s.hart.queues := by
  simp only [State.elementwise, orFlags_hart_queues, setGroup_hart_queues]
@[simp] theorem elementwise_hart_locks (s : State) (d : BitVec 5) (m : BitVec 3) (op : Nat → Elem × FFlags) : (s.elementwise d m op).hart.locks = s.hart.locks := by
  simp only [State.elementwise, orFlags_hart_locks, setGroup_hart_locks]
@[simp] theorem elementwise_hart_vdesc (s : State) (d : BitVec 5) (m : BitVec 3) (op : Nat → Elem × FFlags) : (s.elementwise d m op).hart.vdesc = s.hart.vdesc := by
  simp only [State.elementwise, orFlags_hart_vdesc, setGroup_hart_vdesc]
@[simp] theorem elementwise_hart_claim (s : State) (d : BitVec 5) (m : BitVec 3) (op : Nat → Elem × FFlags) : (s.elementwise d m op).hart.claim = s.hart.claim := by
  simp only [State.elementwise, orFlags_hart_claim, setGroup_hart_claim]
@[simp] theorem elementwise_hart_unordered (s : State) (d : BitVec 5) (m : BitVec 3) (op : Nat → Elem × FFlags) : (s.elementwise d m op).hart.unordered = s.hart.unordered := by
  simp only [State.elementwise, orFlags_hart_unordered, setGroup_hart_unordered]
@[simp] theorem elementwise_hart_ctl (s : State) (d : BitVec 5) (m : BitVec 3) (op : Nat → Elem × FFlags) : (s.elementwise d m op).hart.ctl = s.hart.ctl := by
  simp only [State.elementwise, orFlags_hart_ctl, setGroup_hart_ctl]

/-! ### maskwise -/

@[simp] theorem maskwise_cur (s : State) (d : Nat) (m : BitVec 3) (op : Nat → Bool) : (s.maskwise d m op).cur = s.cur := rfl
@[simp] theorem maskwise_core (s : State) (d : Nat) (m : BitVec 3) (op : Nat → Bool) : (s.maskwise d m op).core = s.core := rfl
@[simp] theorem maskwise_harts (s : State) (d : Nat) (m : BitVec 3) (op : Nat → Bool) : (s.maskwise d m op).harts = s.harts := rfl
@[simp] theorem maskwise_cores (s : State) (d : Nat) (m : BitVec 3) (op : Nat → Bool) : (s.maskwise d m op).cores = s.cores := rfl
@[simp] theorem maskwise_mem (s : State) (d : Nat) (m : BitVec 3) (op : Nat → Bool) : (s.maskwise d m op).mem = s.mem := rfl
@[simp] theorem maskwise_poison (s : State) (d : Nat) (m : BitVec 3) (op : Nat → Bool) : (s.maskwise d m op).poison = s.poison := rfl
@[simp] theorem maskwise_vaults (s : State) (d : Nat) (m : BitVec 3) (op : Nat → Bool) : (s.maskwise d m op).vaults = s.vaults := rfl
@[simp] theorem maskwise_tlb2 (s : State) (d : Nat) (m : BitVec 3) (op : Nat → Bool) : (s.maskwise d m op).tlb2 = s.tlb2 := rfl
@[simp] theorem maskwise_parts (s : State) (d : Nat) (m : BitVec 3) (op : Nat → Bool) : (s.maskwise d m op).parts = s.parts := rfl
@[simp] theorem maskwise_streams (s : State) (d : Nat) (m : BitVec 3) (op : Nat → Bool) : (s.maskwise d m op).streams = s.streams := rfl
@[simp] theorem maskwise_functions (s : State) (d : Nat) (m : BitVec 3) (op : Nat → Bool) : (s.maskwise d m op).functions = s.functions := rfl
@[simp] theorem maskwise_launches (s : State) (d : Nat) (m : BitVec 3) (op : Nat → Bool) : (s.maskwise d m op).launches = s.launches := rfl
@[simp] theorem maskwise_nextLaunch (s : State) (d : Nat) (m : BitVec 3) (op : Nat → Bool) : (s.maskwise d m op).nextLaunch = s.nextLaunch := rfl
@[simp] theorem maskwise_objects (s : State) (d : Nat) (m : BitVec 3) (op : Nat → Bool) : (s.maskwise d m op).objects = s.objects := rfl
@[simp] theorem maskwise_nextObject (s : State) (d : Nat) (m : BitVec 3) (op : Nat → Bool) : (s.maskwise d m op).nextObject = s.nextObject := rfl
@[simp] theorem maskwise_saved (s : State) (d : Nat) (m : BitVec 3) (op : Nat → Bool) : (s.maskwise d m op).saved = s.saved := rfl
@[simp] theorem maskwise_fabric (s : State) (d : Nat) (m : BitVec 3) (op : Nat → Bool) : (s.maskwise d m op).fabric = s.fabric := rfl
@[simp] theorem maskwise_repair (s : State) (d : Nat) (m : BitVec 3) (op : Nat → Bool) : (s.maskwise d m op).repair = s.repair := rfl
@[simp] theorem maskwise_boot (s : State) (d : Nat) (m : BitVec 3) (op : Nat → Bool) : (s.maskwise d m op).boot = s.boot := rfl
@[simp] theorem maskwise_msix (s : State) (d : Nat) (m : BitVec 3) (op : Nat → Bool) : (s.maskwise d m op).msix = s.msix := rfl
@[simp] theorem maskwise_reports (s : State) (d : Nat) (m : BitVec 3) (op : Nat → Bool) : (s.maskwise d m op).reports = s.reports := rfl
@[simp] theorem maskwise_agenda (s : State) (d : Nat) (m : BitVec 3) (op : Nat → Bool) : (s.maskwise d m op).agenda = s.agenda := rfl
@[simp] theorem maskwise_free (s : State) (d : Nat) (m : BitVec 3) (op : Nat → Bool) : (s.maskwise d m op).free = s.free := rfl
@[simp] theorem maskwise_hart_run (s : State) (d : Nat) (m : BitVec 3) (op : Nat → Bool) : (s.maskwise d m op).hart.run = s.hart.run := rfl
@[simp] theorem maskwise_hart_priv (s : State) (d : Nat) (m : BitVec 3) (op : Nat → Bool) : (s.maskwise d m op).hart.priv = s.hart.priv := rfl
@[simp] theorem maskwise_hart_pc (s : State) (d : Nat) (m : BitVec 3) (op : Nat → Bool) : (s.maskwise d m op).hart.pc = s.hart.pc := rfl
@[simp] theorem maskwise_hart_regs (s : State) (d : Nat) (m : BitVec 3) (op : Nat → Bool) : (s.maskwise d m op).hart.regs = s.hart.regs := rfl
@[simp] theorem maskwise_hart_vregs (s : State) (d : Nat) (m : BitVec 3) (op : Nat → Bool) : (s.maskwise d m op).hart.vregs = s.hart.vregs := rfl
@[simp] theorem maskwise_hart_csr (s : State) (d : Nat) (m : BitVec 3) (op : Nat → Bool) : (s.maskwise d m op).hart.csr = s.hart.csr := rfl
@[simp] theorem maskwise_hart_sup (s : State) (d : Nat) (m : BitVec 3) (op : Nat → Bool) : (s.maskwise d m op).hart.sup = s.hart.sup := rfl
@[simp] theorem maskwise_hart_record (s : State) (d : Nat) (m : BitVec 3) (op : Nat → Bool) : (s.maskwise d m op).hart.record = s.hart.record := rfl
@[simp] theorem maskwise_hart_loops (s : State) (d : Nat) (m : BitVec 3) (op : Nat → Bool) : (s.maskwise d m op).hart.loops = s.hart.loops := rfl
@[simp] theorem maskwise_hart_trapLoops (s : State) (d : Nat) (m : BitVec 3) (op : Nat → Bool) : (s.maskwise d m op).hart.trapLoops = s.hart.trapLoops := rfl
@[simp] theorem maskwise_hart_strip (s : State) (d : Nat) (m : BitVec 3) (op : Nat → Bool) : (s.maskwise d m op).hart.strip = s.hart.strip := rfl
@[simp] theorem maskwise_hart_ui (s : State) (d : Nat) (m : BitVec 3) (op : Nat → Bool) : (s.maskwise d m op).hart.ui = s.hart.ui := rfl
@[simp] theorem maskwise_hart_queues (s : State) (d : Nat) (m : BitVec 3) (op : Nat → Bool) : (s.maskwise d m op).hart.queues = s.hart.queues := rfl
@[simp] theorem maskwise_hart_locks (s : State) (d : Nat) (m : BitVec 3) (op : Nat → Bool) : (s.maskwise d m op).hart.locks = s.hart.locks := rfl
@[simp] theorem maskwise_hart_vdesc (s : State) (d : Nat) (m : BitVec 3) (op : Nat → Bool) : (s.maskwise d m op).hart.vdesc = s.hart.vdesc := rfl
@[simp] theorem maskwise_hart_claim (s : State) (d : Nat) (m : BitVec 3) (op : Nat → Bool) : (s.maskwise d m op).hart.claim = s.hart.claim := rfl
@[simp] theorem maskwise_hart_unordered (s : State) (d : Nat) (m : BitVec 3) (op : Nat → Bool) : (s.maskwise d m op).hart.unordered = s.hart.unordered := rfl
@[simp] theorem maskwise_hart_ctl (s : State) (d : Nat) (m : BitVec 3) (op : Nat → Bool) : (s.maskwise d m op).hart.ctl = s.hart.ctl := rfl

/-! ### mark -/

@[simp] theorem mark_cur (s : State) (reads writes : List Use) : (s.mark reads writes).cur = s.cur := by
  unfold State.mark; split <;> rfl
@[simp] theorem mark_core (s : State) (reads writes : List Use) : (s.mark reads writes).core = s.core := by
  unfold State.mark; split <;> rfl
@[simp] theorem mark_harts (s : State) (reads writes : List Use) : (s.mark reads writes).harts = s.harts := by
  unfold State.mark; split <;> rfl
@[simp] theorem mark_cores (s : State) (reads writes : List Use) : (s.mark reads writes).cores = s.cores := by
  unfold State.mark; split <;> rfl
@[simp] theorem mark_mem (s : State) (reads writes : List Use) : (s.mark reads writes).mem = s.mem := by
  unfold State.mark; split <;> rfl
@[simp] theorem mark_poison (s : State) (reads writes : List Use) : (s.mark reads writes).poison = s.poison := by
  unfold State.mark; split <;> rfl
@[simp] theorem mark_vaults (s : State) (reads writes : List Use) : (s.mark reads writes).vaults = s.vaults := by
  unfold State.mark; split <;> rfl
@[simp] theorem mark_tlb2 (s : State) (reads writes : List Use) : (s.mark reads writes).tlb2 = s.tlb2 := by
  unfold State.mark; split <;> rfl
@[simp] theorem mark_parts (s : State) (reads writes : List Use) : (s.mark reads writes).parts = s.parts := by
  unfold State.mark; split <;> rfl
@[simp] theorem mark_streams (s : State) (reads writes : List Use) : (s.mark reads writes).streams = s.streams := by
  unfold State.mark; split <;> rfl
@[simp] theorem mark_functions (s : State) (reads writes : List Use) : (s.mark reads writes).functions = s.functions := by
  unfold State.mark; split <;> rfl
@[simp] theorem mark_launches (s : State) (reads writes : List Use) : (s.mark reads writes).launches = s.launches := by
  unfold State.mark; split <;> rfl
@[simp] theorem mark_nextLaunch (s : State) (reads writes : List Use) : (s.mark reads writes).nextLaunch = s.nextLaunch := by
  unfold State.mark; split <;> rfl
@[simp] theorem mark_objects (s : State) (reads writes : List Use) : (s.mark reads writes).objects = s.objects := by
  unfold State.mark; split <;> rfl
@[simp] theorem mark_nextObject (s : State) (reads writes : List Use) : (s.mark reads writes).nextObject = s.nextObject := by
  unfold State.mark; split <;> rfl
@[simp] theorem mark_saved (s : State) (reads writes : List Use) : (s.mark reads writes).saved = s.saved := by
  unfold State.mark; split <;> rfl
@[simp] theorem mark_fabric (s : State) (reads writes : List Use) : (s.mark reads writes).fabric = s.fabric := by
  unfold State.mark; split <;> rfl
@[simp] theorem mark_repair (s : State) (reads writes : List Use) : (s.mark reads writes).repair = s.repair := by
  unfold State.mark; split <;> rfl
@[simp] theorem mark_boot (s : State) (reads writes : List Use) : (s.mark reads writes).boot = s.boot := by
  unfold State.mark; split <;> rfl
@[simp] theorem mark_msix (s : State) (reads writes : List Use) : (s.mark reads writes).msix = s.msix := by
  unfold State.mark; split <;> rfl
@[simp] theorem mark_reports (s : State) (reads writes : List Use) : (s.mark reads writes).reports = s.reports := by
  unfold State.mark; split <;> rfl
@[simp] theorem mark_agenda (s : State) (reads writes : List Use) : (s.mark reads writes).agenda = s.agenda := by
  unfold State.mark; split <;> rfl
@[simp] theorem mark_free (s : State) (reads writes : List Use) : (s.mark reads writes).free = s.free := by
  unfold State.mark; split <;> rfl
@[simp] theorem mark_hart_run (s : State) (reads writes : List Use) : (s.mark reads writes).hart.run = s.hart.run := by
  unfold State.mark; split <;> rfl
@[simp] theorem mark_hart_priv (s : State) (reads writes : List Use) : (s.mark reads writes).hart.priv = s.hart.priv := by
  unfold State.mark; split <;> rfl
@[simp] theorem mark_hart_pc (s : State) (reads writes : List Use) : (s.mark reads writes).hart.pc = s.hart.pc := by
  unfold State.mark; split <;> rfl
@[simp] theorem mark_hart_regs (s : State) (reads writes : List Use) : (s.mark reads writes).hart.regs = s.hart.regs := by
  unfold State.mark; split <;> rfl
@[simp] theorem mark_hart_vregs (s : State) (reads writes : List Use) : (s.mark reads writes).hart.vregs = s.hart.vregs := by
  unfold State.mark; split <;> rfl
@[simp] theorem mark_hart_mregs (s : State) (reads writes : List Use) : (s.mark reads writes).hart.mregs = s.hart.mregs := by
  unfold State.mark; split <;> rfl
@[simp] theorem mark_hart_csr (s : State) (reads writes : List Use) : (s.mark reads writes).hart.csr = s.hart.csr := by
  unfold State.mark; split <;> rfl
@[simp] theorem mark_hart_sup (s : State) (reads writes : List Use) : (s.mark reads writes).hart.sup = s.hart.sup := by
  unfold State.mark; split <;> rfl
@[simp] theorem mark_hart_record (s : State) (reads writes : List Use) : (s.mark reads writes).hart.record = s.hart.record := by
  unfold State.mark; split <;> rfl
@[simp] theorem mark_hart_loops (s : State) (reads writes : List Use) : (s.mark reads writes).hart.loops = s.hart.loops := by
  unfold State.mark; split <;> rfl
@[simp] theorem mark_hart_trapLoops (s : State) (reads writes : List Use) : (s.mark reads writes).hart.trapLoops = s.hart.trapLoops := by
  unfold State.mark; split <;> rfl
@[simp] theorem mark_hart_ui (s : State) (reads writes : List Use) : (s.mark reads writes).hart.ui = s.hart.ui := by
  unfold State.mark; split <;> rfl
@[simp] theorem mark_hart_queues (s : State) (reads writes : List Use) : (s.mark reads writes).hart.queues = s.hart.queues := by
  unfold State.mark; split <;> rfl
@[simp] theorem mark_hart_locks (s : State) (reads writes : List Use) : (s.mark reads writes).hart.locks = s.hart.locks := by
  unfold State.mark; split <;> rfl
@[simp] theorem mark_hart_vdesc (s : State) (reads writes : List Use) : (s.mark reads writes).hart.vdesc = s.hart.vdesc := by
  unfold State.mark; split <;> rfl
@[simp] theorem mark_hart_claim (s : State) (reads writes : List Use) : (s.mark reads writes).hart.claim = s.hart.claim := by
  unfold State.mark; split <;> rfl
@[simp] theorem mark_hart_unordered (s : State) (reads writes : List Use) : (s.mark reads writes).hart.unordered = s.hart.unordered := by
  unfold State.mark; split <;> rfl
@[simp] theorem mark_hart_upsets (s : State) (reads writes : List Use) : (s.mark reads writes).hart.upsets = s.hart.upsets := by
  unfold State.mark; split <;> rfl
@[simp] theorem mark_hart_ctl (s : State) (reads writes : List Use) : (s.mark reads writes).hart.ctl = s.hart.ctl := by
  unfold State.mark; split <;> rfl

/-! ### place -/

@[simp] theorem place_cur (s : State) (e : BufEntry) : (s.place e).cur = s.cur := by
  unfold State.place; dsimp only; split <;> rfl
@[simp] theorem place_core (s : State) (e : BufEntry) : (s.place e).core = s.core := by
  unfold State.place; dsimp only; split <;> rfl
@[simp] theorem place_harts (s : State) (e : BufEntry) : (s.place e).harts = s.harts := by
  unfold State.place; dsimp only; split <;> rfl
@[simp] theorem place_cores (s : State) (e : BufEntry) : (s.place e).cores = s.cores := by
  unfold State.place; dsimp only; split <;> rfl
@[simp] theorem place_mem (s : State) (e : BufEntry) : (s.place e).mem = s.mem := by
  unfold State.place; dsimp only; split <;> rfl
@[simp] theorem place_poison (s : State) (e : BufEntry) : (s.place e).poison = s.poison := by
  unfold State.place; dsimp only; split <;> rfl
@[simp] theorem place_vaults (s : State) (e : BufEntry) : (s.place e).vaults = s.vaults := by
  unfold State.place; dsimp only; split <;> rfl
@[simp] theorem place_tlb2 (s : State) (e : BufEntry) : (s.place e).tlb2 = s.tlb2 := by
  unfold State.place; dsimp only; split <;> rfl
@[simp] theorem place_parts (s : State) (e : BufEntry) : (s.place e).parts = s.parts := by
  unfold State.place; dsimp only; split <;> rfl
@[simp] theorem place_streams (s : State) (e : BufEntry) : (s.place e).streams = s.streams := by
  unfold State.place; dsimp only; split <;> rfl
@[simp] theorem place_functions (s : State) (e : BufEntry) : (s.place e).functions = s.functions := by
  unfold State.place; dsimp only; split <;> rfl
@[simp] theorem place_launches (s : State) (e : BufEntry) : (s.place e).launches = s.launches := by
  unfold State.place; dsimp only; split <;> rfl
@[simp] theorem place_nextLaunch (s : State) (e : BufEntry) : (s.place e).nextLaunch = s.nextLaunch := by
  unfold State.place; dsimp only; split <;> rfl
@[simp] theorem place_objects (s : State) (e : BufEntry) : (s.place e).objects = s.objects := by
  unfold State.place; dsimp only; split <;> rfl
@[simp] theorem place_nextObject (s : State) (e : BufEntry) : (s.place e).nextObject = s.nextObject := by
  unfold State.place; dsimp only; split <;> rfl
@[simp] theorem place_saved (s : State) (e : BufEntry) : (s.place e).saved = s.saved := by
  unfold State.place; dsimp only; split <;> rfl
@[simp] theorem place_fabric (s : State) (e : BufEntry) : (s.place e).fabric = s.fabric := by
  unfold State.place; dsimp only; split <;> rfl
@[simp] theorem place_repair (s : State) (e : BufEntry) : (s.place e).repair = s.repair := by
  unfold State.place; dsimp only; split <;> rfl
@[simp] theorem place_boot (s : State) (e : BufEntry) : (s.place e).boot = s.boot := by
  unfold State.place; dsimp only; split <;> rfl
@[simp] theorem place_msix (s : State) (e : BufEntry) : (s.place e).msix = s.msix := by
  unfold State.place; dsimp only; split <;> rfl
@[simp] theorem place_reports (s : State) (e : BufEntry) : (s.place e).reports = s.reports := by
  unfold State.place; dsimp only; split <;> rfl
@[simp] theorem place_agenda (s : State) (e : BufEntry) : (s.place e).agenda = s.agenda := by
  unfold State.place; dsimp only; split <;> rfl
@[simp] theorem place_hart_run (s : State) (e : BufEntry) : (s.place e).hart.run = s.hart.run := by
  unfold State.place; dsimp only; split <;> rfl
@[simp] theorem place_hart_priv (s : State) (e : BufEntry) : (s.place e).hart.priv = s.hart.priv := by
  unfold State.place; dsimp only; split <;> rfl
@[simp] theorem place_hart_pc (s : State) (e : BufEntry) : (s.place e).hart.pc = s.hart.pc := by
  unfold State.place; dsimp only; split <;> rfl
@[simp] theorem place_hart_regs (s : State) (e : BufEntry) : (s.place e).hart.regs = s.hart.regs := by
  unfold State.place; dsimp only; split <;> rfl
@[simp] theorem place_hart_vregs (s : State) (e : BufEntry) : (s.place e).hart.vregs = s.hart.vregs := by
  unfold State.place; dsimp only; split <;> rfl
@[simp] theorem place_hart_mregs (s : State) (e : BufEntry) : (s.place e).hart.mregs = s.hart.mregs := by
  unfold State.place; dsimp only; split <;> rfl
@[simp] theorem place_hart_csr (s : State) (e : BufEntry) : (s.place e).hart.csr = s.hart.csr := by
  unfold State.place; dsimp only; split <;> rfl
@[simp] theorem place_hart_sup (s : State) (e : BufEntry) : (s.place e).hart.sup = s.hart.sup := by
  unfold State.place; dsimp only; split <;> rfl
@[simp] theorem place_hart_record (s : State) (e : BufEntry) : (s.place e).hart.record = s.hart.record := by
  unfold State.place; dsimp only; split <;> rfl
@[simp] theorem place_hart_loops (s : State) (e : BufEntry) : (s.place e).hart.loops = s.hart.loops := by
  unfold State.place; dsimp only; split <;> rfl
@[simp] theorem place_hart_trapLoops (s : State) (e : BufEntry) : (s.place e).hart.trapLoops = s.hart.trapLoops := by
  unfold State.place; dsimp only; split <;> rfl
@[simp] theorem place_hart_ui (s : State) (e : BufEntry) : (s.place e).hart.ui = s.hart.ui := by
  unfold State.place; dsimp only; split <;> rfl
@[simp] theorem place_hart_queues (s : State) (e : BufEntry) : (s.place e).hart.queues = s.hart.queues := by
  unfold State.place; dsimp only; split <;> rfl
@[simp] theorem place_hart_locks (s : State) (e : BufEntry) : (s.place e).hart.locks = s.hart.locks := by
  unfold State.place; dsimp only; split <;> rfl
@[simp] theorem place_hart_vdesc (s : State) (e : BufEntry) : (s.place e).hart.vdesc = s.hart.vdesc := by
  unfold State.place; dsimp only; split <;> rfl
@[simp] theorem place_hart_claim (s : State) (e : BufEntry) : (s.place e).hart.claim = s.hart.claim := by
  unfold State.place; dsimp only; split <;> rfl
@[simp] theorem place_hart_unordered (s : State) (e : BufEntry) : (s.place e).hart.unordered = s.hart.unordered := by
  unfold State.place; dsimp only; split <;> rfl
@[simp] theorem place_hart_upsets (s : State) (e : BufEntry) : (s.place e).hart.upsets = s.hart.upsets := by
  unfold State.place; dsimp only; split <;> rfl
@[simp] theorem place_hart_ctl (s : State) (e : BufEntry) : (s.place e).hart.ctl = s.hart.ctl := by
  unfold State.place; dsimp only; split <;> rfl

/-! ### buffer -/

@[simp] theorem buffer_cur (s : State) (l : List BufEntry) (n : Nat) : (s.buffer l n).cur = s.cur := by
  exact foldl_keep State.cur State.place place_cur l s
@[simp] theorem buffer_core (s : State) (l : List BufEntry) (n : Nat) : (s.buffer l n).core = s.core := by
  exact foldl_keep State.core State.place place_core l s
@[simp] theorem buffer_harts (s : State) (l : List BufEntry) (n : Nat) : (s.buffer l n).harts = s.harts := by
  exact foldl_keep State.harts State.place place_harts l s
@[simp] theorem buffer_cores (s : State) (l : List BufEntry) (n : Nat) : (s.buffer l n).cores = s.cores := by
  exact foldl_keep State.cores State.place place_cores l s
@[simp] theorem buffer_mem (s : State) (l : List BufEntry) (n : Nat) : (s.buffer l n).mem = s.mem := by
  exact foldl_keep State.mem State.place place_mem l s
@[simp] theorem buffer_poison (s : State) (l : List BufEntry) (n : Nat) : (s.buffer l n).poison = s.poison := by
  exact foldl_keep State.poison State.place place_poison l s
@[simp] theorem buffer_vaults (s : State) (l : List BufEntry) (n : Nat) : (s.buffer l n).vaults = s.vaults := by
  exact foldl_keep State.vaults State.place place_vaults l s
@[simp] theorem buffer_tlb2 (s : State) (l : List BufEntry) (n : Nat) : (s.buffer l n).tlb2 = s.tlb2 := by
  exact foldl_keep State.tlb2 State.place place_tlb2 l s
@[simp] theorem buffer_parts (s : State) (l : List BufEntry) (n : Nat) : (s.buffer l n).parts = s.parts := by
  exact foldl_keep State.parts State.place place_parts l s
@[simp] theorem buffer_streams (s : State) (l : List BufEntry) (n : Nat) : (s.buffer l n).streams = s.streams := by
  exact foldl_keep State.streams State.place place_streams l s
@[simp] theorem buffer_functions (s : State) (l : List BufEntry) (n : Nat) : (s.buffer l n).functions = s.functions := by
  exact foldl_keep State.functions State.place place_functions l s
@[simp] theorem buffer_launches (s : State) (l : List BufEntry) (n : Nat) : (s.buffer l n).launches = s.launches := by
  exact foldl_keep State.launches State.place place_launches l s
@[simp] theorem buffer_nextLaunch (s : State) (l : List BufEntry) (n : Nat) : (s.buffer l n).nextLaunch = s.nextLaunch := by
  exact foldl_keep State.nextLaunch State.place place_nextLaunch l s
@[simp] theorem buffer_objects (s : State) (l : List BufEntry) (n : Nat) : (s.buffer l n).objects = s.objects := by
  exact foldl_keep State.objects State.place place_objects l s
@[simp] theorem buffer_nextObject (s : State) (l : List BufEntry) (n : Nat) : (s.buffer l n).nextObject = s.nextObject := by
  exact foldl_keep State.nextObject State.place place_nextObject l s
@[simp] theorem buffer_saved (s : State) (l : List BufEntry) (n : Nat) : (s.buffer l n).saved = s.saved := by
  exact foldl_keep State.saved State.place place_saved l s
@[simp] theorem buffer_fabric (s : State) (l : List BufEntry) (n : Nat) : (s.buffer l n).fabric = s.fabric := by
  exact foldl_keep State.fabric State.place place_fabric l s
@[simp] theorem buffer_repair (s : State) (l : List BufEntry) (n : Nat) : (s.buffer l n).repair = s.repair := by
  exact foldl_keep State.repair State.place place_repair l s
@[simp] theorem buffer_boot (s : State) (l : List BufEntry) (n : Nat) : (s.buffer l n).boot = s.boot := by
  exact foldl_keep State.boot State.place place_boot l s
@[simp] theorem buffer_msix (s : State) (l : List BufEntry) (n : Nat) : (s.buffer l n).msix = s.msix := by
  exact foldl_keep State.msix State.place place_msix l s
@[simp] theorem buffer_reports (s : State) (l : List BufEntry) (n : Nat) : (s.buffer l n).reports = s.reports := by
  exact foldl_keep State.reports State.place place_reports l s
@[simp] theorem buffer_agenda (s : State) (l : List BufEntry) (n : Nat) : (s.buffer l n).agenda = s.agenda := by
  exact foldl_keep State.agenda State.place place_agenda l s
@[simp] theorem buffer_hart_run (s : State) (l : List BufEntry) (n : Nat) : (s.buffer l n).hart.run = s.hart.run := by
  exact foldl_keep (fun t => t.hart.run) State.place place_hart_run l s
@[simp] theorem buffer_hart_priv (s : State) (l : List BufEntry) (n : Nat) : (s.buffer l n).hart.priv = s.hart.priv := by
  exact foldl_keep (fun t => t.hart.priv) State.place place_hart_priv l s
@[simp] theorem buffer_hart_pc (s : State) (l : List BufEntry) (n : Nat) : (s.buffer l n).hart.pc = s.hart.pc := by
  exact foldl_keep (fun t => t.hart.pc) State.place place_hart_pc l s
@[simp] theorem buffer_hart_regs (s : State) (l : List BufEntry) (n : Nat) : (s.buffer l n).hart.regs = s.hart.regs := by
  exact foldl_keep (fun t => t.hart.regs) State.place place_hart_regs l s
@[simp] theorem buffer_hart_vregs (s : State) (l : List BufEntry) (n : Nat) : (s.buffer l n).hart.vregs = s.hart.vregs := by
  exact foldl_keep (fun t => t.hart.vregs) State.place place_hart_vregs l s
@[simp] theorem buffer_hart_mregs (s : State) (l : List BufEntry) (n : Nat) : (s.buffer l n).hart.mregs = s.hart.mregs := by
  exact foldl_keep (fun t => t.hart.mregs) State.place place_hart_mregs l s
@[simp] theorem buffer_hart_csr (s : State) (l : List BufEntry) (n : Nat) : (s.buffer l n).hart.csr = s.hart.csr := by
  exact foldl_keep (fun t => t.hart.csr) State.place place_hart_csr l s
@[simp] theorem buffer_hart_sup (s : State) (l : List BufEntry) (n : Nat) : (s.buffer l n).hart.sup = s.hart.sup := by
  exact foldl_keep (fun t => t.hart.sup) State.place place_hart_sup l s
@[simp] theorem buffer_hart_record (s : State) (l : List BufEntry) (n : Nat) : (s.buffer l n).hart.record = s.hart.record := by
  exact foldl_keep (fun t => t.hart.record) State.place place_hart_record l s
@[simp] theorem buffer_hart_loops (s : State) (l : List BufEntry) (n : Nat) : (s.buffer l n).hart.loops = s.hart.loops := by
  exact foldl_keep (fun t => t.hart.loops) State.place place_hart_loops l s
@[simp] theorem buffer_hart_trapLoops (s : State) (l : List BufEntry) (n : Nat) : (s.buffer l n).hart.trapLoops = s.hart.trapLoops := by
  exact foldl_keep (fun t => t.hart.trapLoops) State.place place_hart_trapLoops l s
@[simp] theorem buffer_hart_ui (s : State) (l : List BufEntry) (n : Nat) : (s.buffer l n).hart.ui = s.hart.ui := by
  exact foldl_keep (fun t => t.hart.ui) State.place place_hart_ui l s
@[simp] theorem buffer_hart_queues (s : State) (l : List BufEntry) (n : Nat) : (s.buffer l n).hart.queues = s.hart.queues := by
  exact foldl_keep (fun t => t.hart.queues) State.place place_hart_queues l s
@[simp] theorem buffer_hart_locks (s : State) (l : List BufEntry) (n : Nat) : (s.buffer l n).hart.locks = s.hart.locks := by
  exact foldl_keep (fun t => t.hart.locks) State.place place_hart_locks l s
@[simp] theorem buffer_hart_vdesc (s : State) (l : List BufEntry) (n : Nat) : (s.buffer l n).hart.vdesc = s.hart.vdesc := by
  exact foldl_keep (fun t => t.hart.vdesc) State.place place_hart_vdesc l s
@[simp] theorem buffer_hart_claim (s : State) (l : List BufEntry) (n : Nat) : (s.buffer l n).hart.claim = s.hart.claim := by
  exact foldl_keep (fun t => t.hart.claim) State.place place_hart_claim l s
@[simp] theorem buffer_hart_unordered (s : State) (l : List BufEntry) (n : Nat) : (s.buffer l n).hart.unordered = s.hart.unordered := by
  exact foldl_keep (fun t => t.hart.unordered) State.place place_hart_unordered l s
@[simp] theorem buffer_hart_upsets (s : State) (l : List BufEntry) (n : Nat) : (s.buffer l n).hart.upsets = s.hart.upsets := by
  exact foldl_keep (fun t => t.hart.upsets) State.place place_hart_upsets l s
@[simp] theorem buffer_hart_ctl (s : State) (l : List BufEntry) (n : Nat) : (s.buffer l n).hart.ctl = s.hart.ctl := by
  exact foldl_keep (fun t => t.hart.ctl) State.place place_hart_ctl l s

/-! ### withQueue -/

@[simp] theorem withQueue_cur (s : State) (q : BitVec 2) (k : EngQueue) : (s.withQueue q k).cur = s.cur := rfl
@[simp] theorem withQueue_core (s : State) (q : BitVec 2) (k : EngQueue) : (s.withQueue q k).core = s.core := rfl
@[simp] theorem withQueue_harts (s : State) (q : BitVec 2) (k : EngQueue) : (s.withQueue q k).harts = s.harts := rfl
@[simp] theorem withQueue_cores (s : State) (q : BitVec 2) (k : EngQueue) : (s.withQueue q k).cores = s.cores := rfl
@[simp] theorem withQueue_mem (s : State) (q : BitVec 2) (k : EngQueue) : (s.withQueue q k).mem = s.mem := rfl
@[simp] theorem withQueue_poison (s : State) (q : BitVec 2) (k : EngQueue) : (s.withQueue q k).poison = s.poison := rfl
@[simp] theorem withQueue_vaults (s : State) (q : BitVec 2) (k : EngQueue) : (s.withQueue q k).vaults = s.vaults := rfl
@[simp] theorem withQueue_tlb2 (s : State) (q : BitVec 2) (k : EngQueue) : (s.withQueue q k).tlb2 = s.tlb2 := rfl
@[simp] theorem withQueue_parts (s : State) (q : BitVec 2) (k : EngQueue) : (s.withQueue q k).parts = s.parts := rfl
@[simp] theorem withQueue_streams (s : State) (q : BitVec 2) (k : EngQueue) : (s.withQueue q k).streams = s.streams := rfl
@[simp] theorem withQueue_functions (s : State) (q : BitVec 2) (k : EngQueue) : (s.withQueue q k).functions = s.functions := rfl
@[simp] theorem withQueue_launches (s : State) (q : BitVec 2) (k : EngQueue) : (s.withQueue q k).launches = s.launches := rfl
@[simp] theorem withQueue_nextLaunch (s : State) (q : BitVec 2) (k : EngQueue) : (s.withQueue q k).nextLaunch = s.nextLaunch := rfl
@[simp] theorem withQueue_objects (s : State) (q : BitVec 2) (k : EngQueue) : (s.withQueue q k).objects = s.objects := rfl
@[simp] theorem withQueue_nextObject (s : State) (q : BitVec 2) (k : EngQueue) : (s.withQueue q k).nextObject = s.nextObject := rfl
@[simp] theorem withQueue_saved (s : State) (q : BitVec 2) (k : EngQueue) : (s.withQueue q k).saved = s.saved := rfl
@[simp] theorem withQueue_fabric (s : State) (q : BitVec 2) (k : EngQueue) : (s.withQueue q k).fabric = s.fabric := rfl
@[simp] theorem withQueue_repair (s : State) (q : BitVec 2) (k : EngQueue) : (s.withQueue q k).repair = s.repair := rfl
@[simp] theorem withQueue_boot (s : State) (q : BitVec 2) (k : EngQueue) : (s.withQueue q k).boot = s.boot := rfl
@[simp] theorem withQueue_msix (s : State) (q : BitVec 2) (k : EngQueue) : (s.withQueue q k).msix = s.msix := rfl
@[simp] theorem withQueue_reports (s : State) (q : BitVec 2) (k : EngQueue) : (s.withQueue q k).reports = s.reports := rfl
@[simp] theorem withQueue_agenda (s : State) (q : BitVec 2) (k : EngQueue) : (s.withQueue q k).agenda = s.agenda := rfl
@[simp] theorem withQueue_free (s : State) (q : BitVec 2) (k : EngQueue) : (s.withQueue q k).free = s.free := rfl
@[simp] theorem withQueue_hart_run (s : State) (q : BitVec 2) (k : EngQueue) : (s.withQueue q k).hart.run = s.hart.run := rfl
@[simp] theorem withQueue_hart_priv (s : State) (q : BitVec 2) (k : EngQueue) : (s.withQueue q k).hart.priv = s.hart.priv := rfl
@[simp] theorem withQueue_hart_pc (s : State) (q : BitVec 2) (k : EngQueue) : (s.withQueue q k).hart.pc = s.hart.pc := rfl
@[simp] theorem withQueue_hart_regs (s : State) (q : BitVec 2) (k : EngQueue) : (s.withQueue q k).hart.regs = s.hart.regs := rfl
@[simp] theorem withQueue_hart_vregs (s : State) (q : BitVec 2) (k : EngQueue) : (s.withQueue q k).hart.vregs = s.hart.vregs := rfl
@[simp] theorem withQueue_hart_mregs (s : State) (q : BitVec 2) (k : EngQueue) : (s.withQueue q k).hart.mregs = s.hart.mregs := rfl
@[simp] theorem withQueue_hart_csr (s : State) (q : BitVec 2) (k : EngQueue) : (s.withQueue q k).hart.csr = s.hart.csr := rfl
@[simp] theorem withQueue_hart_sup (s : State) (q : BitVec 2) (k : EngQueue) : (s.withQueue q k).hart.sup = s.hart.sup := rfl
@[simp] theorem withQueue_hart_record (s : State) (q : BitVec 2) (k : EngQueue) : (s.withQueue q k).hart.record = s.hart.record := rfl
@[simp] theorem withQueue_hart_loops (s : State) (q : BitVec 2) (k : EngQueue) : (s.withQueue q k).hart.loops = s.hart.loops := rfl
@[simp] theorem withQueue_hart_trapLoops (s : State) (q : BitVec 2) (k : EngQueue) : (s.withQueue q k).hart.trapLoops = s.hart.trapLoops := rfl
@[simp] theorem withQueue_hart_strip (s : State) (q : BitVec 2) (k : EngQueue) : (s.withQueue q k).hart.strip = s.hart.strip := rfl
@[simp] theorem withQueue_hart_ui (s : State) (q : BitVec 2) (k : EngQueue) : (s.withQueue q k).hart.ui = s.hart.ui := rfl
@[simp] theorem withQueue_hart_locks (s : State) (q : BitVec 2) (k : EngQueue) : (s.withQueue q k).hart.locks = s.hart.locks := rfl
@[simp] theorem withQueue_hart_vdesc (s : State) (q : BitVec 2) (k : EngQueue) : (s.withQueue q k).hart.vdesc = s.hart.vdesc := rfl
@[simp] theorem withQueue_hart_claim (s : State) (q : BitVec 2) (k : EngQueue) : (s.withQueue q k).hart.claim = s.hart.claim := rfl
@[simp] theorem withQueue_hart_unordered (s : State) (q : BitVec 2) (k : EngQueue) : (s.withQueue q k).hart.unordered = s.hart.unordered := rfl
@[simp] theorem withQueue_hart_upsets (s : State) (q : BitVec 2) (k : EngQueue) : (s.withQueue q k).hart.upsets = s.hart.upsets := rfl
@[simp] theorem withQueue_hart_ctl (s : State) (q : BitVec 2) (k : EngQueue) : (s.withQueue q k).hart.ctl = s.hart.ctl := rfl

/-! ### unlock -/

@[simp] theorem unlock_cur (s : State) (r : Nat) : (s.unlock r).cur = s.cur := rfl
@[simp] theorem unlock_core (s : State) (r : Nat) : (s.unlock r).core = s.core := rfl
@[simp] theorem unlock_harts (s : State) (r : Nat) : (s.unlock r).harts = s.harts := rfl
@[simp] theorem unlock_cores (s : State) (r : Nat) : (s.unlock r).cores = s.cores := rfl
@[simp] theorem unlock_mem (s : State) (r : Nat) : (s.unlock r).mem = s.mem := rfl
@[simp] theorem unlock_poison (s : State) (r : Nat) : (s.unlock r).poison = s.poison := rfl
@[simp] theorem unlock_vaults (s : State) (r : Nat) : (s.unlock r).vaults = s.vaults := rfl
@[simp] theorem unlock_tlb2 (s : State) (r : Nat) : (s.unlock r).tlb2 = s.tlb2 := rfl
@[simp] theorem unlock_parts (s : State) (r : Nat) : (s.unlock r).parts = s.parts := rfl
@[simp] theorem unlock_streams (s : State) (r : Nat) : (s.unlock r).streams = s.streams := rfl
@[simp] theorem unlock_functions (s : State) (r : Nat) : (s.unlock r).functions = s.functions := rfl
@[simp] theorem unlock_launches (s : State) (r : Nat) : (s.unlock r).launches = s.launches := rfl
@[simp] theorem unlock_nextLaunch (s : State) (r : Nat) : (s.unlock r).nextLaunch = s.nextLaunch := rfl
@[simp] theorem unlock_objects (s : State) (r : Nat) : (s.unlock r).objects = s.objects := rfl
@[simp] theorem unlock_nextObject (s : State) (r : Nat) : (s.unlock r).nextObject = s.nextObject := rfl
@[simp] theorem unlock_saved (s : State) (r : Nat) : (s.unlock r).saved = s.saved := rfl
@[simp] theorem unlock_fabric (s : State) (r : Nat) : (s.unlock r).fabric = s.fabric := rfl
@[simp] theorem unlock_repair (s : State) (r : Nat) : (s.unlock r).repair = s.repair := rfl
@[simp] theorem unlock_boot (s : State) (r : Nat) : (s.unlock r).boot = s.boot := rfl
@[simp] theorem unlock_msix (s : State) (r : Nat) : (s.unlock r).msix = s.msix := rfl
@[simp] theorem unlock_reports (s : State) (r : Nat) : (s.unlock r).reports = s.reports := rfl
@[simp] theorem unlock_agenda (s : State) (r : Nat) : (s.unlock r).agenda = s.agenda := rfl
@[simp] theorem unlock_free (s : State) (r : Nat) : (s.unlock r).free = s.free := rfl
@[simp] theorem unlock_hart_run (s : State) (r : Nat) : (s.unlock r).hart.run = s.hart.run := rfl
@[simp] theorem unlock_hart_priv (s : State) (r : Nat) : (s.unlock r).hart.priv = s.hart.priv := rfl
@[simp] theorem unlock_hart_pc (s : State) (r : Nat) : (s.unlock r).hart.pc = s.hart.pc := rfl
@[simp] theorem unlock_hart_regs (s : State) (r : Nat) : (s.unlock r).hart.regs = s.hart.regs := rfl
@[simp] theorem unlock_hart_vregs (s : State) (r : Nat) : (s.unlock r).hart.vregs = s.hart.vregs := rfl
@[simp] theorem unlock_hart_mregs (s : State) (r : Nat) : (s.unlock r).hart.mregs = s.hart.mregs := rfl
@[simp] theorem unlock_hart_csr (s : State) (r : Nat) : (s.unlock r).hart.csr = s.hart.csr := rfl
@[simp] theorem unlock_hart_sup (s : State) (r : Nat) : (s.unlock r).hart.sup = s.hart.sup := rfl
@[simp] theorem unlock_hart_record (s : State) (r : Nat) : (s.unlock r).hart.record = s.hart.record := rfl
@[simp] theorem unlock_hart_loops (s : State) (r : Nat) : (s.unlock r).hart.loops = s.hart.loops := rfl
@[simp] theorem unlock_hart_trapLoops (s : State) (r : Nat) : (s.unlock r).hart.trapLoops = s.hart.trapLoops := rfl
@[simp] theorem unlock_hart_strip (s : State) (r : Nat) : (s.unlock r).hart.strip = s.hart.strip := rfl
@[simp] theorem unlock_hart_ui (s : State) (r : Nat) : (s.unlock r).hart.ui = s.hart.ui := rfl
@[simp] theorem unlock_hart_queues (s : State) (r : Nat) : (s.unlock r).hart.queues = s.hart.queues := rfl
@[simp] theorem unlock_hart_vdesc (s : State) (r : Nat) : (s.unlock r).hart.vdesc = s.hart.vdesc := rfl
@[simp] theorem unlock_hart_claim (s : State) (r : Nat) : (s.unlock r).hart.claim = s.hart.claim := rfl
@[simp] theorem unlock_hart_unordered (s : State) (r : Nat) : (s.unlock r).hart.unordered = s.hart.unordered := rfl
@[simp] theorem unlock_hart_upsets (s : State) (r : Nat) : (s.unlock r).hart.upsets = s.hart.upsets := rfl
@[simp] theorem unlock_hart_ctl (s : State) (r : Nat) : (s.unlock r).hart.ctl = s.hart.ctl := rfl

/-! ### withMatrix -/

@[simp] theorem withMatrix_cur (s : State) (m : Option Matrix) : (s.withMatrix m).cur = s.cur := rfl
@[simp] theorem withMatrix_hart (s : State) (m : Option Matrix) : (s.withMatrix m).hart = s.hart := rfl
@[simp] theorem withMatrix_harts (s : State) (m : Option Matrix) : (s.withMatrix m).harts = s.harts := rfl
@[simp] theorem withMatrix_cores (s : State) (m : Option Matrix) : (s.withMatrix m).cores = s.cores := rfl
@[simp] theorem withMatrix_mem (s : State) (m : Option Matrix) : (s.withMatrix m).mem = s.mem := rfl
@[simp] theorem withMatrix_poison (s : State) (m : Option Matrix) : (s.withMatrix m).poison = s.poison := rfl
@[simp] theorem withMatrix_vaults (s : State) (m : Option Matrix) : (s.withMatrix m).vaults = s.vaults := rfl
@[simp] theorem withMatrix_tlb2 (s : State) (m : Option Matrix) : (s.withMatrix m).tlb2 = s.tlb2 := rfl
@[simp] theorem withMatrix_parts (s : State) (m : Option Matrix) : (s.withMatrix m).parts = s.parts := rfl
@[simp] theorem withMatrix_streams (s : State) (m : Option Matrix) : (s.withMatrix m).streams = s.streams := rfl
@[simp] theorem withMatrix_functions (s : State) (m : Option Matrix) : (s.withMatrix m).functions = s.functions := rfl
@[simp] theorem withMatrix_launches (s : State) (m : Option Matrix) : (s.withMatrix m).launches = s.launches := rfl
@[simp] theorem withMatrix_nextLaunch (s : State) (m : Option Matrix) : (s.withMatrix m).nextLaunch = s.nextLaunch := rfl
@[simp] theorem withMatrix_objects (s : State) (m : Option Matrix) : (s.withMatrix m).objects = s.objects := rfl
@[simp] theorem withMatrix_nextObject (s : State) (m : Option Matrix) : (s.withMatrix m).nextObject = s.nextObject := rfl
@[simp] theorem withMatrix_saved (s : State) (m : Option Matrix) : (s.withMatrix m).saved = s.saved := rfl
@[simp] theorem withMatrix_fabric (s : State) (m : Option Matrix) : (s.withMatrix m).fabric = s.fabric := rfl
@[simp] theorem withMatrix_repair (s : State) (m : Option Matrix) : (s.withMatrix m).repair = s.repair := rfl
@[simp] theorem withMatrix_boot (s : State) (m : Option Matrix) : (s.withMatrix m).boot = s.boot := rfl
@[simp] theorem withMatrix_msix (s : State) (m : Option Matrix) : (s.withMatrix m).msix = s.msix := rfl
@[simp] theorem withMatrix_reports (s : State) (m : Option Matrix) : (s.withMatrix m).reports = s.reports := rfl
@[simp] theorem withMatrix_agenda (s : State) (m : Option Matrix) : (s.withMatrix m).agenda = s.agenda := rfl
@[simp] theorem withMatrix_free (s : State) (m : Option Matrix) : (s.withMatrix m).free = s.free := rfl

/-! ### report -/

@[simp] theorem report_cur (s : State) (r : Report) : (s.report r).cur = s.cur := rfl
@[simp] theorem report_hart (s : State) (r : Report) : (s.report r).hart = s.hart := rfl
@[simp] theorem report_core (s : State) (r : Report) : (s.report r).core = s.core := rfl
@[simp] theorem report_harts (s : State) (r : Report) : (s.report r).harts = s.harts := rfl
@[simp] theorem report_cores (s : State) (r : Report) : (s.report r).cores = s.cores := rfl
@[simp] theorem report_mem (s : State) (r : Report) : (s.report r).mem = s.mem := rfl
@[simp] theorem report_poison (s : State) (r : Report) : (s.report r).poison = s.poison := rfl
@[simp] theorem report_vaults (s : State) (r : Report) : (s.report r).vaults = s.vaults := rfl
@[simp] theorem report_tlb2 (s : State) (r : Report) : (s.report r).tlb2 = s.tlb2 := rfl
@[simp] theorem report_parts (s : State) (r : Report) : (s.report r).parts = s.parts := rfl
@[simp] theorem report_streams (s : State) (r : Report) : (s.report r).streams = s.streams := rfl
@[simp] theorem report_functions (s : State) (r : Report) : (s.report r).functions = s.functions := rfl
@[simp] theorem report_launches (s : State) (r : Report) : (s.report r).launches = s.launches := rfl
@[simp] theorem report_nextLaunch (s : State) (r : Report) : (s.report r).nextLaunch = s.nextLaunch := rfl
@[simp] theorem report_objects (s : State) (r : Report) : (s.report r).objects = s.objects := rfl
@[simp] theorem report_nextObject (s : State) (r : Report) : (s.report r).nextObject = s.nextObject := rfl
@[simp] theorem report_saved (s : State) (r : Report) : (s.report r).saved = s.saved := rfl
@[simp] theorem report_fabric (s : State) (r : Report) : (s.report r).fabric = s.fabric := rfl
@[simp] theorem report_repair (s : State) (r : Report) : (s.report r).repair = s.repair := rfl
@[simp] theorem report_boot (s : State) (r : Report) : (s.report r).boot = s.boot := rfl
@[simp] theorem report_msix (s : State) (r : Report) : (s.report r).msix = s.msix := rfl
@[simp] theorem report_agenda (s : State) (r : Report) : (s.report r).agenda = s.agenda := rfl
@[simp] theorem report_free (s : State) (r : Report) : (s.report r).free = s.free := rfl

/-! ### withHart -/

@[simp] theorem withHart_cur (s : State) (x : Hart) : (s.withHart x).cur = s.cur := rfl
@[simp] theorem withHart_core (s : State) (x : Hart) : (s.withHart x).core = s.core := rfl
@[simp] theorem withHart_harts (s : State) (x : Hart) : (s.withHart x).harts = s.harts := rfl
@[simp] theorem withHart_cores (s : State) (x : Hart) : (s.withHart x).cores = s.cores := rfl
@[simp] theorem withHart_mem (s : State) (x : Hart) : (s.withHart x).mem = s.mem := rfl
@[simp] theorem withHart_poison (s : State) (x : Hart) : (s.withHart x).poison = s.poison := rfl
@[simp] theorem withHart_vaults (s : State) (x : Hart) : (s.withHart x).vaults = s.vaults := rfl
@[simp] theorem withHart_tlb2 (s : State) (x : Hart) : (s.withHart x).tlb2 = s.tlb2 := rfl
@[simp] theorem withHart_parts (s : State) (x : Hart) : (s.withHart x).parts = s.parts := rfl
@[simp] theorem withHart_streams (s : State) (x : Hart) : (s.withHart x).streams = s.streams := rfl
@[simp] theorem withHart_functions (s : State) (x : Hart) : (s.withHart x).functions = s.functions := rfl
@[simp] theorem withHart_launches (s : State) (x : Hart) : (s.withHart x).launches = s.launches := rfl
@[simp] theorem withHart_nextLaunch (s : State) (x : Hart) : (s.withHart x).nextLaunch = s.nextLaunch := rfl
@[simp] theorem withHart_objects (s : State) (x : Hart) : (s.withHart x).objects = s.objects := rfl
@[simp] theorem withHart_nextObject (s : State) (x : Hart) : (s.withHart x).nextObject = s.nextObject := rfl
@[simp] theorem withHart_saved (s : State) (x : Hart) : (s.withHart x).saved = s.saved := rfl
@[simp] theorem withHart_fabric (s : State) (x : Hart) : (s.withHart x).fabric = s.fabric := rfl
@[simp] theorem withHart_repair (s : State) (x : Hart) : (s.withHart x).repair = s.repair := rfl
@[simp] theorem withHart_boot (s : State) (x : Hart) : (s.withHart x).boot = s.boot := rfl
@[simp] theorem withHart_msix (s : State) (x : Hart) : (s.withHart x).msix = s.msix := rfl
@[simp] theorem withHart_reports (s : State) (x : Hart) : (s.withHart x).reports = s.reports := rfl
@[simp] theorem withHart_agenda (s : State) (x : Hart) : (s.withHart x).agenda = s.agenda := rfl
@[simp] theorem withHart_free (s : State) (x : Hart) : (s.withHart x).free = s.free := rfl

/-! ### write -/

@[simp] theorem write_cur (s : State) (loc : Nat) (bs : List Byte) : (s.write loc bs).cur = s.cur := rfl
@[simp] theorem write_hart (s : State) (loc : Nat) (bs : List Byte) : (s.write loc bs).hart = s.hart := rfl
@[simp] theorem write_core (s : State) (loc : Nat) (bs : List Byte) : (s.write loc bs).core = s.core := rfl
@[simp] theorem write_harts (s : State) (loc : Nat) (bs : List Byte) : (s.write loc bs).harts = s.harts := rfl
@[simp] theorem write_cores (s : State) (loc : Nat) (bs : List Byte) : (s.write loc bs).cores = s.cores := rfl
@[simp] theorem write_vaults (s : State) (loc : Nat) (bs : List Byte) : (s.write loc bs).vaults = s.vaults := rfl
@[simp] theorem write_tlb2 (s : State) (loc : Nat) (bs : List Byte) : (s.write loc bs).tlb2 = s.tlb2 := rfl
@[simp] theorem write_parts (s : State) (loc : Nat) (bs : List Byte) : (s.write loc bs).parts = s.parts := rfl
@[simp] theorem write_streams (s : State) (loc : Nat) (bs : List Byte) : (s.write loc bs).streams = s.streams := rfl
@[simp] theorem write_functions (s : State) (loc : Nat) (bs : List Byte) : (s.write loc bs).functions = s.functions := rfl
@[simp] theorem write_launches (s : State) (loc : Nat) (bs : List Byte) : (s.write loc bs).launches = s.launches := rfl
@[simp] theorem write_nextLaunch (s : State) (loc : Nat) (bs : List Byte) : (s.write loc bs).nextLaunch = s.nextLaunch := rfl
@[simp] theorem write_objects (s : State) (loc : Nat) (bs : List Byte) : (s.write loc bs).objects = s.objects := rfl
@[simp] theorem write_nextObject (s : State) (loc : Nat) (bs : List Byte) : (s.write loc bs).nextObject = s.nextObject := rfl
@[simp] theorem write_saved (s : State) (loc : Nat) (bs : List Byte) : (s.write loc bs).saved = s.saved := rfl
@[simp] theorem write_fabric (s : State) (loc : Nat) (bs : List Byte) : (s.write loc bs).fabric = s.fabric := rfl
@[simp] theorem write_boot (s : State) (loc : Nat) (bs : List Byte) : (s.write loc bs).boot = s.boot := rfl
@[simp] theorem write_msix (s : State) (loc : Nat) (bs : List Byte) : (s.write loc bs).msix = s.msix := rfl
@[simp] theorem write_reports (s : State) (loc : Nat) (bs : List Byte) : (s.write loc bs).reports = s.reports := rfl
@[simp] theorem write_agenda (s : State) (loc : Nat) (bs : List Byte) : (s.write loc bs).agenda = s.agenda := rfl
@[simp] theorem write_free (s : State) (loc : Nat) (bs : List Byte) : (s.write loc bs).free = s.free := rfl

/-! ### What is set -/

@[simp] theorem withCsr_csr (s : State) (c : UserCsr) : (s.withCsr c).hart.csr = c := rfl
@[simp] theorem withSup_sup (s : State) (c : SupCsr) : (s.withSup c).hart.sup = c := rfl
@[simp] theorem withStrip_strip (s : State) (c : Strip) : (s.withStrip c).hart.strip = c := rfl
@[simp] theorem withUi_ui (s : State) (u : UserInt) : (s.withUi u).hart.ui = u := rfl
@[simp] theorem withRun_run (s : State) (r : RunState) : (s.withRun r).hart.run = r := rfl
@[simp] theorem withRecord_record (s : State) (r : FaultRecord) : (s.withRecord r).hart.record = r := rfl
@[simp] theorem withMatrix_matrix (s : State) (m : Option Matrix) : (s.withMatrix m).core.matrix = m := rfl
@[simp] theorem withHart_hart (s : State) (x : Hart) : (s.withHart x).hart = x := rfl
@[simp] theorem report_reports (s : State) (r : Report) : (s.report r).reports = s.reports ++ [r] := rfl
@[simp] theorem orFlags_fflags (s : State) (f : FFlags) :
    (s.orFlags f).hart.csr = { s.hart.csr with fflags := s.hart.csr.fflags ||| f } := rfl
@[simp] theorem advance_pc (s : State) (n : Nat) :
    (s.advance n).hart.pc = (loopBack s.hart.loops (s.hart.pc + BitVec.ofNat 64 n)).1 := rfl
@[simp] theorem advance_loops (s : State) (n : Nat) :
    (s.advance n).hart.loops = (loopBack s.hart.loops (s.hart.pc + BitVec.ofNat 64 n)).2 := rfl
@[simp] theorem jump_pc (s : State) (t : Word) : (s.jump t).hart.pc = t := rfl

/-! ### General registers (R14) -/

/-- s0 reads 0. -/
@[simp] theorem x_zero (s : State) : s.x 0 = 0 := rfl

/-- A register written reads the value; s0 discards it. -/
theorem setX_same (s : State) (d : BitVec 5) (v : Word) : (s.setX d v).x d = if d = 0 then 0 else v := by
  unfold State.x State.setX Hart.x Hart.setX
  by_cases h : d = 0
  · simp only [if_pos h]
  · simp only [if_neg h, Vector.getElem_set_self]

/-- Every other register reads as before. -/
theorem setX_other (s : State) (d r : BitVec 5) (v : Word) (h : r ≠ d) : (s.setX d v).x r = s.x r := by
  unfold State.x State.setX Hart.x Hart.setX
  by_cases g : d = 0
  · simp only [if_pos g]
  · have e : d.toNat ≠ r.toNat := fun q => h (BitVec.eq_of_toNat_eq q.symm)
    simp only [if_neg g, Vector.getElem_set_ne _ _ e]

/-- One bit cleared. -/
theorem clear_bit {w : Nat} (b : BitVec w) (k : Nat) {n : Nat} (h : n < w) :
    (b &&& ~~~(BitVec.ofNat w 1 <<< k)).getLsbD n = true ↔ b.getLsbD n = true ∧ n ≠ k := by
  rw [BitVec.getLsbD_and, BitVec.getLsbD_not, BitVec.getLsbD_shiftLeft, BitVec.getLsbD_ofNat]
  have one (m : Nat) : (1 : Nat).testBit m = decide (m = 0) := by
    rw [show (1 : Nat) = 2 ^ 0 from rfl, Nat.testBit_two_pow]
    simp [eq_comm]
  rw [one]
  by_cases l : n < k
  · simp [l, h]; omega
  · have : n - k < w := by omega
    simp [l, h, this]; omega

/-- A register written has no error any more, and no other one changes (R305). -/
theorem setX_upset_same (s : State) {d : BitVec 5} (v : Word) (h : d ≠ 0) :
    (s.setX d v).hart.upsets.scalar.getLsbD d.toNat = false ∧ (s.setX d v).hart.upsets.weak.getLsbD d.toNat = false := by
  have := d.isLt
  unfold State.setX Hart.setX
  rw [if_neg h]
  dsimp only
  constructor
  · exact Bool.eq_false_iff.mpr fun q => ((clear_bit _ _ (by omega)).mp q).2 rfl
  · exact Bool.eq_false_iff.mpr fun q => ((clear_bit _ _ (by omega)).mp q).2 rfl

theorem setX_upset_other (s : State) (d : BitVec 5) {r : BitVec 5} (v : Word) (h : r ≠ d) :
    (s.setX d v).hart.upsets.scalar.getLsbD r.toNat = s.hart.upsets.scalar.getLsbD r.toNat ∧
      (s.setX d v).hart.upsets.weak.getLsbD r.toNat = s.hart.upsets.weak.getLsbD r.toNat := by
  have hr := r.isLt
  have e : r.toNat ≠ d.toNat := fun q => h (BitVec.eq_of_toNat_eq q)
  unfold State.setX Hart.setX
  dsimp only
  split
  · exact ⟨rfl, rfl⟩
  · exact ⟨Bool.eq_iff_iff.mpr ((clear_bit _ _ (by omega)).trans (and_iff_left e)),
      Bool.eq_iff_iff.mpr ((clear_bit _ _ (by omega)).trans (and_iff_left e))⟩

theorem setX_upsets (s : State) (d : BitVec 5) (v : Word) :
    (s.setX d v).hart.upsets = { s.hart.upsets with
      scalar := (s.setX d v).hart.upsets.scalar, weak := (s.setX d v).hart.upsets.weak } := by
  unfold State.setX Hart.setX; dsimp only; split <;> rfl

@[simp] theorem advance_x (s : State) (n : Nat) (r : BitVec 5) : (s.advance n).x r = s.x r := rfl
@[simp] theorem jump_x (s : State) (t : Word) (r : BitVec 5) : (s.jump t).x r = s.x r := rfl
@[simp] theorem withCsr_x (s : State) (c : UserCsr) (r : BitVec 5) : (s.withCsr c).x r = s.x r := rfl
@[simp] theorem orFlags_x (s : State) (f : FFlags) (r : BitVec 5) : (s.orFlags f).x r = s.x r := rfl
@[simp] theorem withStrip_x (s : State) (c : Strip) (r : BitVec 5) : (s.withStrip c).x r = s.x r := rfl
@[simp] theorem withMatrix_x (s : State) (m : Option Matrix) (r : BitVec 5) : (s.withMatrix m).x r = s.x r := rfl
@[simp] theorem mark_x (s : State) (a b : List Use) (r : BitVec 5) : (s.mark a b).x r = s.x r := by
  unfold State.x Hart.x
  simp only [mark_hart_regs]

/-! ### Bytes -/

@[simp] theorem setX_byte (s : State) (d : BitVec 5) (v : Word) (a : Nat) : (s.setX d v).byte a = s.byte a := rfl
@[simp] theorem advance_byte (s : State) (n a : Nat) : (s.advance n).byte a = s.byte a := rfl
@[simp] theorem jump_byte (s : State) (t : Word) (a : Nat) : (s.jump t).byte a = s.byte a := rfl

end Sys2Proof.Machine
end

