-- ==== Sys2Proof/Laws/Close.lean ====
section
/-! SUPPORT. What the close of a strip and the drain of its store buffer leave as it was. -/

set_option Elab.async false

namespace Sys2Proof.Machine

/-! ### Reading (R305, R308) -/

/-- A read leaves its notes in the counts and the log of errors, and their copies in the reports. -/
def NotesOnly (s t : State) : Prop :=
  t = { s with
    repair := { s.repair with corrected := t.repair.corrected, recent := t.repair.recent, log := t.repair.log },
    reports := t.reports }

theorem NotesOnly.trans {s t u : State} (h : NotesOnly s t) (k : NotesOnly t u) : NotesOnly s u := by
  unfold NotesOnly at *
  rw [h] at k
  exact k

theorem notesOnly_foldl {α : Type} {f : State → α → State} (h : ∀ s a, NotesOnly s (f s a)) : ∀ (l : List α) (s : State),
    NotesOnly s (l.foldl f s)
  | [], _ => rfl
  | a :: r, s => (h s a).trans (notesOnly_foldl h r _)

theorem noteRead_only (s : State) (loc n : Nat) : NotesOnly s (s.noteRead loc n) :=
  (notesOnly_foldl (fun _ _ => by unfold State.correct; rfl) _ _).trans (notesOnly_foldl (fun _ _ => by unfold State.logError; rfl) _ _)

/-! ### Draining (R119) -/

/-- Draining changes memory, the code words that are uncorrectable or correctable, the counts and the log of errors, the
writes held and sent to peers, the bytes kept for the engines and the free values drawn, nothing else. -/
def Drained (s t : State) : Prop :=
  t = { s with
    hart := { s.hart with unordered := t.hart.unordered }, mem := t.mem, poison := t.poison, free := t.free,
    repair := { s.repair with
      corrected := t.repair.corrected, weak := t.repair.weak, recent := t.repair.recent, log := t.repair.log },
    reports := t.reports, fabric := { s.fabric with held := t.fabric.held, sent := t.fabric.sent } }

theorem Drained.refl (s : State) : Drained s s := rfl

theorem Drained.trans {s t u : State} (h : Drained s t) (k : Drained t u) : Drained s u := by
  unfold Drained at *
  rw [h] at k
  exact k

theorem NotesOnly.drained {s t : State} (h : NotesOnly s t) : Drained s t := by
  unfold NotesOnly at h
  rw [h]
  rfl

/-- The bytes about to be replaced, kept for the engines and for a peer's rejection. -/
theorem replacing_eq (s : State) (loc n : Nat) : s.replacing loc n = { s with
    hart := { s.hart with unordered := keptFor s loc n }, fabric := sentTo s s.cur 0 loc n } := by
  unfold State.replacing State.sending State.sendingOf sentTo
  split <;> rfl

theorem drained_free (s : State) (n : Draws) : Drained s { s with free := n } := rfl
theorem drained_write (s : State) (loc : Nat) (bs : List Byte) : Drained s (s.write loc bs) := rfl
theorem drained_hold (s : State) (e : BufEntry) : Drained s (s.hold e) := rfl
theorem drained_replacing (s : State) (loc n : Nat) : Drained s (s.replacing loc n) := by
  unfold State.replacing State.sending State.sendingOf
  split <;> rfl
theorem drained_drawNat (s : State) (n : Nat) : Drained s (s.drawNat n).2 := rfl

theorem drained_applyAt (s : State) (op : AtomicOp) (loc : Nat) (x : Elem) : Drained s (s.applyAt op loc x).1 :=
  ((drained_replacing s loc op.size).trans (noteRead_only _ loc op.size).drained).trans (drained_write _ loc _)

theorem drained_combine : ∀ (n : Nat) (s : State) (pool : List Elem), Drained s (s.combine n pool).1
  | 0, s, _ => .refl s
  | n + 1, s, pool => by
    rw [State.combine]
    split
    · exact .refl s
    · dsimp only [State.drawBit, State.drawNat]
      split
      · exact drained_free s _
      · exact (drained_free s _).trans (drained_combine n _ _)

theorem drained_applyAll (op : AtomicOp) (loc : Nat) : ∀ (n : Nat) (s : State) (l : List Elem), Drained s (s.applyAll op loc n l).1
  | 0, s, _ => .refl s
  | _ + 1, s, [] => .refl s
  | n + 1, s, x :: r => by
    rw [State.applyAll]
    dsimp only
    have h : Drained s (if r.isEmpty = true then (0, s) else s.drawNat (r.length + 1)).2 := by
      split
      · exact .refl s
      · exact drained_drawNat s _
    exact (h.trans (drained_applyAt _ op loc _)).trans (drained_applyAll op loc n _ _)

theorem drained_drain : ∀ (n : Nat) (s : State) (buf : List BufEntry), Drained s (s.drain n buf).1
  | 0, s, _ => .refl s
  | _ + 1, s, [] => .refl s
  | n + 1, s, e :: r => by
    rw [State.drain]
    split
    · exact (drained_hold s e).trans (drained_drain n _ r)
    · split
      · exact ((drained_replacing s _ _).trans (drained_write _ _ _)).trans (drained_drain n _ r)
      · split
        · exact ((drained_combine _ s _).trans (drained_applyAll _ _ _ _ _)).trans (drained_drain n _ _)
        · exact (drained_applyAt s _ _ _).trans (drained_drain n _ _)

/-- The whole buffer drained: besides what draining changes, only flags are ORed in. -/
theorem drainAll_frame (s : State) : ∃ u, Drained s u ∧ ∃ f, s.drainAll = u.orFlags f := by
  exact ⟨_, drained_drain _ s _, _, rfl⟩

/-- What a close leaves: what draining changes aside, the strip is closed, its buffer empty, flags are ORed
in, and the hart's own pending bank is committed. -/
def ClosedTo (s u : State) : Prop :=
  u = { s with
    hart := { s.hart with
      csr := { s.hart.csr with fflags := u.hart.csr.fflags, so := false, vl := 0 },
      strip := { s.hart.strip with buf := [], used := 0, readFirst := 0, written := 0 },
      unordered := u.hart.unordered, ctl := { s.hart.ctl with protectedStrip := false } },
    core := { s.core with matrix := commitPending s.core.matrix s.cur },
    mem := u.mem, poison := u.poison, free := u.free,
    repair := { s.repair with
      corrected := u.repair.corrected, weak := u.repair.weak, recent := u.repair.recent, log := u.repair.log },
    reports := u.reports, fabric := { s.fabric with held := u.fabric.held, sent := u.fabric.sent } }

theorem close_open {s u : State} (h : s.close = .ok u) (ho : s.stripOpen = true) : ClosedTo s u := by
  unfold State.close at h
  rw [if_pos ho] at h
  split at h
  · cases h
  split at h
  · cases h
  · cases h
    obtain ⟨v, hv, f, e⟩ := drainAll_frame s
    rw [e]
    unfold Drained at hv
    generalize v.hart.unordered = x at hv
    generalize v.mem = a at hv
    generalize v.poison = b at hv
    generalize v.free = c at hv
    generalize v.repair.corrected = k at hv
    generalize v.repair.weak = w at hv
    generalize v.repair.recent = q at hv
    generalize v.repair.log = l at hv
    generalize v.reports = z at hv
    generalize v.fabric.held = g at hv
    generalize v.fabric.sent = e at hv
    subst hv
    rfl

theorem close_closed {s u : State} (h : s.close = .ok u) (ho : s.stripOpen = false) : u = s := by
  unfold State.close at h
  rw [if_neg (by simp [ho])] at h
  cases h; rfl

theorem closing_ok {s u : State} (h : s.close = .ok u) (k : State → Out) : closing s k = k u := by
  unfold closing; rw [h]

end Sys2Proof.Machine
end

