-- ==== Sys2Proof/Laws/Operands.lean ====
section
/-! SUPPORT. What vector operands, the strip contract and the issue checks of a vector instruction do. -/

set_option Elab.async false

namespace Sys2Proof.Machine

/-! ### Groups -/

theorem vreg_eq (s : State) {n : Nat} (h : n < 32) : s.vreg n = s.hart.vregs[n] := by
  unfold State.vreg; rw [Vector.getElem?_eq_getElem h]; rfl

theorem mreg_eq (s : State) {n : Nat} (h : n < 8) : s.mreg n = s.hart.mregs[n] := by
  unfold State.mreg; rw [Vector.getElem?_eq_getElem h]; rfl

theorem rows_cases (s : State) : s.rows = 1 ∨ s.rows = 2 ∨ s.rows = 4 ∨ s.rows = 8 := by
  unfold State.rows
  have : s.hart.csr.rc.toNat = 0 ∨ s.hart.csr.rc.toNat = 1 ∨ s.hart.csr.rc.toNat = 2 ∨ s.hart.csr.rc.toNat = 3 := by
    have := s.hart.csr.rc.isLt; omega
  rcases this with h | h | h | h <;> simp [h]

/-- An aligned group ends at or below register 31. -/
theorem aligned_end {s : State} {d : BitVec 5} (h : Aligned s d) : d.toNat + s.rows ≤ 32 := by
  have := d.isLt
  unfold Aligned at h
  rcases rows_cases s with r | r | r | r <;> rw [r] at h ⊢ <;> omega

/-- The registers of a group written. -/
theorem setGroup_vreg {s : State} {d : BitVec 5} (res : Nat → Option Elem) {n : Nat} (h : n < 32) :
    (s.setGroup d res).vreg n =
      if d.toNat ≤ n ∧ n < d.toNat + s.rows then
        ⟨false, tabulate s.gvl (fun i => s.resultAt res ((s.vreg n).elem i) ((n - d.toNat) * s.gvl + i))
          (if (s.vreg n).stale then [] else (s.vreg n).cells)⟩
      else s.vreg n := by
  rw [vreg_eq _ h, vreg_eq _ h]
  unfold State.setGroup
  dsimp only
  rw [Vector.getElem_ofFn]
  rfl

/-- An element of a group written. -/
theorem setGroup_elem {s : State} {d : BitVec 5} (res : Nat → Option Elem) (ha : Aligned s d) {e : Nat} (h : e < s.span) :
    (s.setGroup d res).elem d e = s.resultAt res (s.elem d e) e := by
  have g : (s.setGroup d res).gvl = s.gvl := by unfold State.gvl; rw [setGroup_hart_csr]
  unfold State.span at h
  have hg : 0 < s.gvl := Nat.pos_of_ne_zero fun z => by simp [z] at h
  have hr : e / s.gvl < s.rows := Nat.div_lt_of_lt_mul (by rwa [Nat.mul_comm] at h)
  have hm : e % s.gvl < s.gvl := Nat.mod_lt _ hg
  have he := aligned_end ha
  unfold State.elem
  rw [g]
  have hd : e / s.gvl * s.gvl + e % s.gvl = e := by rw [Nat.mul_comm]; exact Nat.div_add_mod e s.gvl
  generalize e / s.gvl = q at hr hd ⊢
  rw [setGroup_vreg res (by omega), if_pos (by omega)]
  unfold VReg.elem
  simp only [Bool.false_eq_true, if_false]
  rw [cget_tabulate _ _ _ hm, Nat.add_sub_cancel_left, hd]

theorem writesElem_iff (s : State) {α : Type} (res : Nat → Option α) (e : Nat) : s.writesElem res e = true ↔ Written s res e := by
  unfold State.writesElem Written
  by_cases h : e < s.vl
  · simp [h, Nat.not_le.mpr h]
  · simp [h, Nat.le_of_not_lt h]

/-- The bits set by a loop over some positions. -/
theorem foldl_bits (p : Nat → Bool) (d n : Nat) : ∀ (l : List Nat) (b : BitVec 32), n < 32 →
    ((l.foldl (fun b r => if p r then b ||| (1#32 <<< (d + r)) else b) b).getLsbD n = true ↔
      b.getLsbD n = true ∨ ∃ r ∈ l, p r = true ∧ n = d + r)
  | [], b, _ => by simp
  | r :: l, b, h => by
    rw [List.foldl_cons, foldl_bits p d n l _ h]
    simp only [List.mem_cons, exists_eq_or_imp]
    by_cases q : p r = true
    · have one : (1#32 <<< (d + r)).getLsbD n = true ↔ n = d + r := by
        rw [BitVec.getLsbD_shiftLeft]
        by_cases e : n < d + r
        · simp [e]; omega
        · simp [e, h]; omega
      rw [if_pos q, BitVec.getLsbD_or, Bool.or_eq_true, one]
      simp only [q, true_and]
      exact or_assoc
    · rw [if_neg q]; simp [q]

theorem rewritten_bit (s : State) (d : BitVec 5) (res : Nat → Option Elem) {n : Nat} (h : n < 32) :
    (s.rewritten d res).getLsbD n = true ↔ ∃ r, r < s.rows ∧ n = d.toNat + r ∧
      ((s.vreg n).stale = true ∨ ∀ i, i < s.gvl → Written s res (r * s.gvl + i)) := by
  unfold State.rewritten
  rw [foldl_bits _ _ _ _ _ h]
  simp only [BitVec.ofNat_eq_ofNat, BitVec.getLsbD_zero, Bool.false_eq_true, false_or, List.mem_range, Bool.or_eq_true,
    List.all_eq_true, writesElem_iff]
  constructor
  · rintro ⟨r, a, b, rfl⟩; exact ⟨r, a, rfl, b⟩
  · rintro ⟨r, a, rfl, b⟩; exact ⟨r, a, b, rfl⟩

/-- A group written, as the statements say it. -/
theorem setGroup_wrote {s : State} {d : BitVec 5} (res : Nat → Option Elem) (ha : Aligned s d) :
    WroteGroup s (s.setGroup d res) d res := by
  have he := aligned_end ha
  refine ⟨fun e h => setGroup_elem res ha h, fun r hr => ?_, fun n hn => ?_, fun n hn => ?_⟩
  · rw [setGroup_vreg res (by omega), if_pos (by omega)]
    refine ⟨rfl, fun i hi => ?_⟩
    unfold VReg.elem
    rw [if_neg (by simp), cget_tabulate_above _ _ _ hi]
    split <;> rfl
  · by_cases h : n < 32
    · rw [setGroup_vreg res h, if_neg (by omega)]
    · unfold State.vreg
      rw [Vector.getElem?_eq_none (by omega), Vector.getElem?_eq_none (by omega)]
  · dsimp only
    rw [← rewritten_bit s d res hn]
    constructor
    · show (s.hart.upsets.vector &&& ~~~(s.rewritten d res)).getLsbD n = true ↔ _
      rw [BitVec.getLsbD_and, BitVec.getLsbD_not]
      simp [hn]
    · show (s.hart.upsets.weak &&& ~~~((s.rewritten d res).setWidth 112 <<< 72)).getLsbD (72 + n) = true ↔ _
      have : 72 + n < 112 := by omega
      have l : ¬ 72 + n < 72 := by omega
      rw [BitVec.getLsbD_and, BitVec.getLsbD_not, BitVec.getLsbD_shiftLeft, Nat.add_sub_cancel_left, BitVec.getLsbD_setWidth]
      simp [this, l, show n < 112 by omega]

/-! ### Masks -/

theorem bitsOf_lt (f : Nat → Bool) : ∀ n, bitsOf f n < 2 ^ n
  | 0 => by simp [bitsOf]
  | n + 1 => by
    have := bitsOf_lt f n
    rw [bitsOf, Nat.pow_succ]; split <;> omega

theorem bitsOf_testBit (f : Nat → Bool) : ∀ n i, (bitsOf f n).testBit i = (decide (i < n) && f i)
  | 0, i => by simp [bitsOf]
  | n + 1, i => by
    have hlt := bitsOf_lt f n
    rw [bitsOf]
    split
    · rename_i h
      rw [Nat.add_comm, ← Nat.mul_one (2 ^ n), Nat.testBit_two_pow_mul_add _ hlt]
      by_cases e : i < n
      · rw [if_pos e, bitsOf_testBit f n i]; simp [e, Nat.lt_succ_of_lt e]
      · rw [if_neg e]
        by_cases e' : i = n
        · subst e'; simp [h]
        · have z : (1 : Nat).testBit (i - n) = false := by
            rw [show (1 : Nat) = 2 ^ 0 from rfl, Nat.testBit_two_pow]; simp; omega
          have z' : ¬ i < n + 1 := by omega
          simp [z, z']
    · rename_i h
      rw [Nat.add_zero, bitsOf_testBit f n i]
      by_cases e : i = n
      · subst e; simp [h]
      · by_cases l : i < n
        · simp [l, Nat.lt_succ_of_lt l]
        · have : ¬ i < n + 1 := by omega
          simp [l, this]

/-- A mask written, as the statements say it. -/
theorem setMask_wrote {s : State} {d : BitVec 5} (res : Nat → Option Bool) (hd : d.toNat < 8) :
    WroteMask s (s.setMask d.toNat res) d res := by
  have key : (s.setMask d.toNat res).mreg d.toNat = ⟨false, BitVec.ofNat 8192 (bitsOf (fun e =>
      if e < s.vl then (res e).getD ((s.mreg d.toNat).bit e) else if s.hart.csr.tp then false else (s.mreg d.toNat).bit e)
      s.span) ||| (if (s.mreg d.toNat).stale then 0 else (s.mreg d.toNat).bits >>> s.span <<< s.span)⟩ := by
    rw [mreg_eq _ hd]
    unfold State.setMask
    dsimp only
    rw [Vector.getElem_setIfInBounds]
    simp
  refine ⟨fun e he => ?_, by rw [key], fun n hn => ?_, fun n hn => ?_⟩
  · rw [key]
    unfold MReg.bit
    simp only [Bool.not_false, Bool.true_and, BitVec.getLsbD_or, BitVec.getLsbD_ofNat, bitsOf_testBit, he, decide_true]
    by_cases h : s.span ≤ e
    · rw [if_pos h]
      have : ¬ e < s.span := by omega
      simp only [this, decide_false, Bool.false_and, Bool.false_or]
      by_cases st : (s.mreg d.toNat).stale
      · simp [st]
      · simp [st, he, this, Nat.add_sub_cancel' h]
    · rw [if_neg h]
      have h' : e < s.span := by omega
      simp only [h', decide_true, Bool.true_and]
      have z : (if (s.mreg d.toNat).stale = true then (0 : MaskBits) else (s.mreg d.toNat).bits >>> s.span <<< s.span).getLsbD e = false := by
        split <;> simp [h']
      rw [z, Bool.or_false]
  · unfold State.mreg State.setMask
    dsimp only
    rw [Vector.getElem?_setIfInBounds_ne (by omega)]
  · dsimp only
    have w : ((s.mreg d.toNat).stale || (List.range s.span).all fun e => s.writesElem res e) = true ↔
        (s.mreg d.toNat).stale = true ∨ ∀ e, e < s.span → Written s res e := by
      simp only [Bool.or_eq_true, List.all_eq_true, List.mem_range, writesElem_iff]
    have turn {b k : Prop} (hk : k ↔ b ∧ n ≠ d.toNat) (q : (s.mreg d.toNat).stale = true ∨ ∀ e, e < s.span → Written s res e) :
        k ↔ b ∧ ¬ (n = d.toNat ∧ ((s.mreg n).stale = true ∨ ∀ e, e < s.span → Written s res e)) := by
      rw [hk]
      refine and_congr_right fun _ => ⟨fun a c => a c.1, fun a c => a ⟨c, ?_⟩⟩
      rw [c]; exact q
    unfold State.setMask
    dsimp only
    split
    · rename_i q
      exact ⟨turn (clear_bit _ _ (by omega)) (w.mp q),
        turn ((clear_bit _ _ (by omega)).trans (and_congr_right fun _ => by omega)) (w.mp q)⟩
    · rename_i q
      have z : ¬ (n = d.toNat ∧ ((s.mreg n).stale = true ∨ ∀ e, e < s.span → Written s res e)) :=
        fun c => q (w.mpr (by rw [← c.1]; exact c.2))
      exact ⟨(and_iff_left z).symm, (and_iff_left z).symm⟩

/-! ### Marks of correctable cells (R305) -/

/-- Marks are cleared only where a part of them lies. -/
theorem weak_within {w x p : BitVec 112} (h : x &&& ~~~p = 0) : w &&& ~~~x = (w &&& ~~~p) ||| ((w &&& ~~~x) &&& p) := by
  have key : ∀ a b c : Bool, (b && !c) = false → (a && !b) = (a && !c || (a && !b) && c) := by decide
  apply BitVec.eq_of_getLsbD_eq
  intro k hk
  have b := congrArg (fun y : BitVec 112 => y.getLsbD k) h
  simp only [BitVec.getLsbD_and, BitVec.getLsbD_not, BitVec.getLsbD_or, hk, decide_true, Bool.true_and,
    BitVec.ofNat_eq_ofNat, BitVec.getLsbD_zero] at b ⊢
  exact key _ _ _ b

/-- What differs within a part differs within a larger one. -/
theorem weakBut_mono {s t : State} {q p : BitVec 112} (h : t.hart.upsets.weak = weakBut q s t) (i : q &&& ~~~p = 0) :
    t.hart.upsets.weak = weakBut p s t := by
  have key : ∀ a b c d : Bool, b = (a && !d || b && d) → (d && !c) = false → b = (a && !c || b && c) := by decide
  unfold weakBut at *
  apply BitVec.eq_of_getLsbD_eq
  intro k hk
  have a := congrArg (fun y : BitVec 112 => y.getLsbD k) h
  have b := congrArg (fun y : BitVec 112 => y.getLsbD k) i
  simp only [BitVec.getLsbD_and, BitVec.getLsbD_not, BitVec.getLsbD_or, hk, decide_true, Bool.true_and,
    BitVec.ofNat_eq_ofNat, BitVec.getLsbD_zero] at a b ⊢
  exact key _ _ _ _ a b

theorem setX_weak (s : State) (d : BitVec 5) (v : Word) :
    (s.setX d v).hart.upsets.weak = weakBut scalarCells s (s.setX d v) := by
  have h := d.isLt
  unfold State.setX Hart.setX weakBut
  dsimp only
  split
  · simp only [← BitVec.and_or_distrib_left]
    have : ~~~scalarCells ||| scalarCells = BitVec.allOnes 112 := by decide
    rw [this, BitVec.and_allOnes]
  · refine weak_within ?_
    have key : ∀ d : Fin 32, (1#112 <<< d.val) &&& ~~~scalarCells = 0 := by decide
    exact key ⟨d.toNat, h⟩

theorem setGroup_weak (s : State) (d : BitVec 5) (res : Nat → Option Elem) :
    (s.setGroup d res).hart.upsets.weak = weakBut vectorCells s (s.setGroup d res) := by
  unfold weakBut
  refine weak_within (w := s.hart.upsets.weak) (x := (s.rewritten d res).setWidth 112 <<< 72) ?_
  apply BitVec.eq_of_getLsbD_eq
  intro k hk
  simp only [vectorCells, BitVec.getLsbD_and, BitVec.getLsbD_not, BitVec.getLsbD_shiftLeft, hk, decide_true, Bool.true_and,
    BitVec.ofNat_eq_ofNat, BitVec.getLsbD_setWidth, BitVec.getLsbD_ofNat]
  by_cases l : k < 72
  · simp [l]
  · by_cases m : k - 72 < 32
    · have key : ∀ j : Fin 32, (0xFFFFFFFF : Nat).testBit j.val = true := by decide
      have := key ⟨k - 72, m⟩
      simp [l, show k - 72 < 112 by omega]
      intro _; simpa using this
    · rw [BitVec.getLsbD_of_ge _ _ (by omega : 32 ≤ k - 72)]
      simp

theorem setMask_weak (s : State) {d : Nat} (res : Nat → Option Bool) (h : d < 8) :
    (s.setMask d res).hart.upsets.weak = weakBut maskCells s (s.setMask d res) := by
  unfold State.setMask weakBut
  dsimp only
  split
  · refine weak_within ?_
    have key : ∀ d : Fin 8, (1#112 <<< (104 + d.val)) &&& ~~~maskCells = 0 := by decide
    exact key ⟨d, h⟩
  · simp only [← BitVec.and_or_distrib_left]
    have : ~~~maskCells ||| maskCells = BitVec.allOnes 112 := by decide
    rw [this, BitVec.and_allOnes]

/-! ### The strip contract (R104) -/

theorem markUnit_bit (b : BitVec 53) (u k : Nat) (h : k < 53) :
    (markUnit b u).getLsbD k = (b.getLsbD k || decide (u = k)) := by
  unfold markUnit
  rw [BitVec.getLsbD_or, BitVec.getLsbD_shiftLeft]
  by_cases e : u = k
  · subst e; simp [h]
  · by_cases l : k < u
    · simp [l, e]
    · have : k - u ≠ 0 := by omega
      simp [e, this]

theorem readMarks_bit (s : State) (reads : List Use) (k : Nat) (h : k < 53) :
    (s.readMarks reads).getLsbD k = true ↔
      s.hart.strip.readFirst.getLsbD k = true ∨ (∃ u ∈ reads, u.unit = k) ∧ s.hart.strip.written.getLsbD k = false := by
  unfold State.readMarks
  generalize s.hart.strip.readFirst = b
  induction reads generalizing b with
  | nil => simp
  | cons u r ih =>
    rw [List.foldl_cons, ih]
    by_cases w : s.hart.strip.written.getLsbD u.unit = true
    · rw [if_pos w]
      constructor
      · rintro (q | ⟨⟨v, hv, e⟩, q⟩)
        · exact .inl q
        · exact .inr ⟨⟨v, List.mem_cons_of_mem _ hv, e⟩, q⟩
      · rintro (q | ⟨⟨v, hv, e⟩, q⟩)
        · exact .inl q
        · rcases List.mem_cons.mp hv with rfl | hv
          · rw [e, q] at w; cases w
          · exact .inr ⟨⟨v, hv, e⟩, q⟩
    · rw [if_neg w, markUnit_bit _ _ _ h, Bool.or_eq_true, decide_eq_true_iff]
      constructor
      · rintro ((q | q) | ⟨⟨v, hv, e⟩, q⟩)
        · exact .inl q
        · subst q; exact .inr ⟨⟨u, List.mem_cons_self, rfl⟩, by simpa using w⟩
        · exact .inr ⟨⟨v, List.mem_cons_of_mem _ hv, e⟩, q⟩
      · rintro (q | ⟨⟨v, hv, e⟩, q⟩)
        · exact .inl (.inl q)
        · rcases List.mem_cons.mp hv with rfl | hv
          · exact .inl (.inr e)
          · exact .inr ⟨⟨v, hv, e⟩, q⟩

theorem writeMarks_bit (writes : List Use) (b : BitVec 53) (k : Nat) (h : k < 53) :
    (writes.foldl (fun b u => markUnit b u.unit) b).getLsbD k = true ↔
      b.getLsbD k = true ∨ ∃ w ∈ writes, w.unit = k := by
  induction writes generalizing b with
  | nil => simp
  | cons u r ih =>
    rw [List.foldl_cons, ih, markUnit_bit _ _ _ h, Bool.or_eq_true, decide_eq_true_iff]
    simp only [List.mem_cons, exists_eq_or_imp]
    exact or_assoc

/-- The state with other marks. -/
theorem mark_open {s : State} (h : s.stripOpen = true) (reads writes : List Use) :
    s.mark reads writes = s.withStrip { s.hart.strip with
      readFirst := s.readMarks reads,
      written := writes.foldl (fun b u => markUnit b u.unit) s.hart.strip.written } := by
  unfold State.mark; rw [if_pos h]

theorem mark_marked {s t : State} (h : s.stripOpen = true) {reads writes : List Use}
    (ht : t.hart.strip = (s.mark reads writes).hart.strip) : Marked s t reads writes := by
  rw [mark_open h] at ht
  intro k hk
  rw [ht]
  exact ⟨readMarks_bit s reads k hk, writeMarks_bit writes _ k hk⟩

/-! ### Issue -/

theorem firstFault_none : ∀ {cs : List (Unit → Option FaultInfo)}, (∀ c ∈ cs, c () = none) → firstFault cs = none
  | [], _ => rfl
  | c :: r, h => by
    rw [firstFault, h c List.mem_cons_self]
    exact firstFault_none fun c hc => h c (List.mem_cons_of_mem _ hc)

/-- The first check that holds decides. -/
theorem firstFault_some {pre post : List (Unit → Option FaultInfo)} {c : Unit → Option FaultInfo} {f : FaultInfo}
    (h : ∀ c ∈ pre, c () = none) (hc : c () = some f) : firstFault (pre ++ c :: post) = some f := by
  induction pre with
  | nil => rw [List.nil_append, firstFault, hc]
  | cons p r ih =>
    rw [List.cons_append, firstFault, h p List.mem_cons_self]
    exact ih fun c hc => h c (List.mem_cons_of_mem _ hc)

theorem guarded_pass {s : State} {cs : List (Unit → Option FaultInfo)} {k : Unit → Out} (h : ∀ c ∈ cs, c () = none) :
    guarded s cs k = k () := by
  unfold guarded; rw [firstFault_none h]

theorem staleCheck_none {s : State} {reads : List Use} (h : ∀ u ∈ reads, s.unitStale u.unit = false) :
    s.staleCheck reads = none := by
  unfold State.staleCheck
  rw [List.find?_eq_none.mpr fun u hu => by simp [h u hu]]
  rfl

/-- The mark of a unit above the masks, case by case. -/
theorem matrixMark_cases (s : State) {u k : Nat} (h : s.matrixMark u = some k) :
    (u < 48 ∧ k = u - 40) ∨ (53 ≤ u ∧ u < 57 ∧ k = u - 45 + if s.stripOpen then 4 else 0) ∨
      (57 ≤ u ∧ u < 82 ∧ k = u - 41) := by
  unfold State.matrixMark at h
  split at h
  · cases h; exact .inl ⟨‹_›, rfl⟩
  split at h
  · cases h
  split at h
  · cases h; exact .inr (.inl ⟨by omega, ‹_›, rfl⟩)
  split at h
  · cases h; exact .inr (.inr ⟨by omega, ‹_›, rfl⟩)
  · cases h

theorem unitDamaged_of {s : State} {u : Nat} (h : ¬ Spoilt s u) : s.unitDamaged u = false := by
  unfold Spoilt at h
  unfold State.unitDamaged
  simp only [not_or, not_and, not_exists, Bool.not_eq_true] at h
  obtain ⟨h1, h2, h3, h4, h5⟩ := h
  split
  · exact h1 ‹_›
  split
  · exact h2 (by omega) ‹_›
  cases e : s.matrixMark u with
  | none => rfl
  | some k =>
    cases o : s.ownMatrix with
    | none => rfl
    | some m =>
      rw [Option.any_some, Option.any_some]
      rcases matrixMark_cases s e with ⟨l, rfl⟩ | ⟨l, r, rfl⟩ | ⟨l, r, rfl⟩
      · exact h3 (by omega) l m o
      · exact h4 l r m o
      · exact h5 l r m o

/-- Operands that are all correctable can be read. -/
theorem readable_pass {s : State} {reads : List Use} {k : Unit → Out} (h : ∀ u ∈ reads, ¬ Spoilt s u.unit) :
    readable s reads k = k () := by
  unfold readable State.damagedUse
  rw [List.find?_eq_none.mpr fun u hu => by simp [unitDamaged_of (h u hu)]]

theorem contractCheck_none {s : State} {reads writes : List Use} (h : Ready s reads writes) :
    s.contractCheck reads writes = none := by
  unfold State.contractCheck
  split
  · dsimp only
    rw [List.find?_eq_none.mpr]
    · rfl
    · intro w hw q
      obtain ⟨hf, hr⟩ := h.2.2 w hw
      by_cases l : w.unit < 53
      · rcases (readMarks_bit s reads w.unit l).mp q with q | ⟨e, q⟩
        · rw [hf] at q; cases q
        · rw [hr e] at q; cases q
      · rw [BitVec.getLsbD_of_ge _ _ (by omega)] at q; cases q
  · rfl

/-- A vector instruction whose operands pass goes on with its marks. -/
theorem vectorIssue_pass {s : State} {fields : List (Unit → Option FaultInfo)} {unordered : Bool} {reads writes : List Use}
    {k : State → Out} (hf : ∀ c ∈ fields, c () = none) (hu : (unordered && s.hart.csr.det) = false)
    (h : Ready s reads writes) : vectorIssue s fields unordered reads writes k = k (s.mark reads writes) := by
  unfold vectorIssue vectorIssueWith
  rw [guarded_pass, readable_pass fun u hu => (h.2.1 u hu).2]
  intro c hc
  rcases List.mem_append.mp hc with hc | hc
  · exact hf c hc
  · simp only [List.mem_cons, List.not_mem_nil, or_false] at hc
    rcases hc with rfl | rfl | rfl | rfl
    · simp [State.stripCheck, faultIf, h.1]
    · simp [State.detCheck, faultIf, hu]
    · exact staleCheck_none fun u hu => (h.2.1 u hu).1
    · exact contractCheck_none h

theorem alignCheck_none {s : State} {n : BitVec 5} (h : Aligned s n) (opd : Nat) : s.alignCheck n opd = none := by
  have h' : n.toNat % s.rows = 0 := h
  unfold State.alignCheck faultIf
  simp [h']

theorem bAlign_none {s : State} {b : BOp} (h : AlignedB s b) : s.bAlign b = none := by
  cases b with
  | vv n => exact alignCheck_none (h n rfl) 2
  | vs n => rfl
  | vi n => rfl

theorem maskCheck_none {n : BitVec 5} (h : n.toNat < 8) (opd : Nat) : maskCheck n opd = none := by
  unfold maskCheck faultIf
  have : ¬ 7 < n.toNat := by omega
  simp [this]

theorem unitMask (m : BitVec 3) : 32 + m.toNat < 40 := by have := m.isLt; omega

/-! ### Flags -/

theorem flagsFold_bit (p : Nat → Bool) (op : Nat → Elem × FFlags) (k : Nat) : ∀ (l : List Nat) (f : FFlags),
    (l.foldl (fun f e => if p e then f ||| (op e).2 else f) f).getLsbD k = true ↔
      f.getLsbD k = true ∨ ∃ e ∈ l, p e = true ∧ (op e).2.getLsbD k = true
  | [], f => by simp
  | e :: r, f => by
    rw [List.foldl_cons, flagsFold_bit p op k r]
    simp only [List.mem_cons, exists_eq_or_imp]
    by_cases h : p e = true
    · rw [if_pos h, BitVec.getLsbD_or, Bool.or_eq_true]; simp only [h, true_and]; exact or_assoc
    · rw [if_neg h]; simp only [h, Bool.false_eq_true, false_and, false_or]

theorem flagsOf_bit (s : State) (m : BitVec 3) (op : Nat → Elem × FFlags) (k : Nat) :
    (s.flagsOf m op).getLsbD k = true ↔ ∃ e, s.active m e = true ∧ (op e).2.getLsbD k = true := by
  unfold State.flagsOf
  rw [flagsFold_bit (s.active m)]
  simp only [BitVec.ofNat_eq_ofNat, BitVec.getLsbD_zero, Bool.false_eq_true, false_or, List.mem_range]
  constructor
  · rintro ⟨e, -, h⟩; exact ⟨e, h⟩
  · rintro ⟨e, h, k⟩
    refine ⟨e, ?_, h, k⟩
    unfold State.active at h
    simp only [Bool.and_eq_true, decide_eq_true_eq] at h
    exact h.1

/-- Operations that raise nothing leave the flags. -/
theorem flagsOf_none (s : State) (m : BitVec 3) (op : Nat → Elem × FFlags) (h : ∀ e, (op e).2 = 0) : s.flagsOf m op = 0 := by
  apply BitVec.eq_of_getLsbD_eq
  intro k _
  have : ¬ (s.flagsOf m op).getLsbD k = true := by
    rw [flagsOf_bit]
    rintro ⟨e, -, q⟩
    rw [h e] at q
    simp at q
  simpa using this

/-! ### Shapes of vector instructions -/

/-- A state that differs from s in its vector registers, what spoils them, and the marks of its strip. -/
structure GroupStep (s u : State) (d : BitVec 5) (res : Nat → Option Elem) (reads : List Use) : Prop where
  wrote : WroteGroup s u d res
  frame : u = { s with hart := { s.hart with
    vregs := u.hart.vregs,
    upsets := { s.hart.upsets with vector := u.hart.upsets.vector, weak := u.hart.upsets.weak },
    strip := { s.hart.strip with
      readFirst := s.readMarks reads,
      written := (s.vUse d 0).foldl (fun b u => markUnit b u.unit) s.hart.strip.written } } }
  weak : u.hart.upsets.weak = weakBut vectorCells s u

/-- What vector instructions write, with the marks of correctable cells said apart. -/
theorem onlyVector_of {s t : State} (w : t.hart.upsets.weak = weakBut (scalarCells ||| vectorCells ||| maskCells) s t)
    (h : t = { s with hart := { s.hart with
      regs := t.hart.regs, vregs := t.hart.vregs, mregs := t.hart.mregs, pc := t.hart.pc, loops := t.hart.loops,
      csr := { s.hart.csr with fflags := t.hart.csr.fflags, ncarry := t.hart.csr.ncarry },
      upsets := { s.hart.upsets with
        scalar := t.hart.upsets.scalar, vector := t.hart.upsets.vector, mask := t.hart.upsets.mask,
        weak := t.hart.upsets.weak },
      strip := { s.hart.strip with readFirst := t.hart.strip.readFirst, written := t.hart.strip.written } } }) :
    OnlyVector s t := by
  unfold OnlyVector
  rw [← w]
  exact h

theorem upsets_vector {s t : State} (w : t.hart.upsets.weak = weakBut vectorCells s t)
    (h : t.hart.upsets = { s.hart.upsets with vector := t.hart.upsets.vector, weak := t.hart.upsets.weak }) :
    t.hart.upsets = { s.hart.upsets with vector := t.hart.upsets.vector, weak := weakBut vectorCells s t } := by
  rw [← w]
  exact h

theorem upsets_mask {s t : State} (w : t.hart.upsets.weak = weakBut maskCells s t)
    (h : t.hart.upsets = { s.hart.upsets with mask := t.hart.upsets.mask, weak := t.hart.upsets.weak }) :
    t.hart.upsets = { s.hart.upsets with mask := t.hart.upsets.mask, weak := weakBut maskCells s t } := by
  rw [← w]
  exact h

theorem setGroup_frame (s : State) (d : BitVec 5) (res : Nat → Option Elem) :
    s.setGroup d res = { s with hart := { s.hart with
      vregs := (s.setGroup d res).hart.vregs,
      upsets := { s.hart.upsets with
        vector := (s.setGroup d res).hart.upsets.vector, weak := (s.setGroup d res).hart.upsets.weak } } } := by
  unfold State.setGroup
  with_reducible rfl

theorem groupStep {s : State} {d : BitVec 5} (res : Nat → Option Elem) {reads : List Use} (h : s.stripOpen = true)
    (ha : Aligned s d) : GroupStep s ((s.mark reads (s.vUse d 0)).setGroup d res) d res reads := by
  rw [mark_open h]
  refine ⟨setGroup_wrote (s := s.withStrip _) res ha, ?_, setGroup_weak (s.withStrip _) d res⟩
  generalize ({ s.hart.strip with
    readFirst := s.readMarks reads, written := _ } : Strip) = c
  have e := setGroup_frame (s.withStrip c) d res
  generalize (s.withStrip c).setGroup d res = u at e ⊢
  rw [e]
  rfl

/-- A group written, with some flags and a chain. -/
theorem writesGroup_intro {i : Instr} {s u : State} {d : BitVec 5} {res : Nat → Option Elem} {reads : List Use}
    {f : FFlags} {flags : State → Prop} (g : GroupStep s u d res reads) (h : s.stripOpen = true)
    (he : exec i s = finish (u.orFlags f) 4)
    (hf : ∀ t : State, t.hart.csr.fflags = s.hart.csr.fflags ||| f → flags t) : WritesGroup i s reads d res flags := by
  obtain ⟨w, e, k⟩ := g
  have l := weakBut_mono (p := scalarCells ||| vectorCells ||| maskCells) k (by decide)
  unfold weakBut at k l
  generalize u.hart.vregs = v at e
  generalize u.hart.upsets.vector = z at e
  generalize u.hart.upsets.weak = y at e k l
  subst e
  refine ⟨_, he, w, hf _ rfl, rfl, rfl, rfl, upsets_vector k rfl, mark_marked h ?_, rfl, onlyVector_of l rfl, fun _ => rfl⟩
  rw [mark_open h]
  rfl

theorem orFlags_zero (s : State) : s.orFlags 0 = s := by
  unfold State.orFlags State.withCsr
  simp

theorem flagged_of {s t : State} {m : BitVec 3} {op : Nat → Elem × FFlags}
    (h : t.hart.csr.fflags = s.hart.csr.fflags ||| s.flagsOf m op) : Flagged s t m op := by
  intro k
  rw [h, BitVec.getLsbD_or, Bool.or_eq_true, flagsOf_bit]

theorem unflagged_of {s t : State} {m : BitVec 3} {op : Nat → Elem × FFlags} (z : ∀ e, (op e).2 = 0)
    (h : t.hart.csr.fflags = s.hart.csr.fflags ||| s.flagsOf m op) : Unflagged s t := by
  rw [flagsOf_none s m op z] at h
  rw [Unflagged, h]; simp

/-- An elementwise instruction with its flags. -/
theorem elementwise_gives {i : Instr} {s : State} {d : BitVec 5} {m : BitVec 3} {op : Nat → Elem × FFlags}
    {reads : List Use} (h : s.stripOpen = true) (ha : Aligned s d)
    (he : exec i s = finish ((s.mark reads (s.vUse d 0)).elementwise d m op) 4) :
    WritesGroup i s reads d (onActive s m fun e => (op e).1) (Flagged s · m op) := by
  refine writesGroup_intro (groupStep _ h ha) h (f := s.flagsOf m op) ?_ fun t ht => flagged_of ht
  rw [he, mark_open h]
  rfl

theorem vectorOp_gives {i : Instr} {s : State} {d a : BitVec 5} {b : BOp} {m : BitVec 3} {addend : Bool}
    {op : State → Nat → Elem × FFlags} (he : exec i s = vectorOp s d a b m addend op)
    (hd : Aligned s d) (ha : Aligned s a) (hb : AlignedB s b)
    (hr : Ready s ((if addend then s.vUse d 0 else []) ++ s.vUse a 1 ++ s.bUse b ++ pUse m) (s.vUse d 0))
    (hop : ∀ c, op (s.withStrip c) = op s) :
    WritesGroup i s ((if addend then s.vUse d 0 else []) ++ s.vUse a 1 ++ s.bUse b ++ pUse m) d
      (onActive s m fun e => (op s e).1) (Flagged s · m (op s)) := by
  refine elementwise_gives hr.1 hd ?_
  rw [he, vectorOp, vectorIssue_pass _ rfl hr]
  · rw [mark_open hr.1, hop]
  · intro c hc
    simp only [List.mem_cons, List.not_mem_nil, or_false] at hc
    rcases hc with rfl | rfl | rfl
    · exact alignCheck_none hd 0
    · exact alignCheck_none ha 1
    · exact bAlign_none hb

theorem vectorOp1_gives {i : Instr} {s : State} {d a : BitVec 5} {m : BitVec 3}
    {op : State → Nat → Elem × FFlags} (he : exec i s = vectorOp1 s d a m op)
    (hd : Aligned s d) (ha : Aligned s a) (hr : Ready s (s.vUse a 1 ++ pUse m) (s.vUse d 0))
    (hop : ∀ c, op (s.withStrip c) = op s) :
    WritesGroup i s (s.vUse a 1 ++ pUse m) d (onActive s m fun e => (op s e).1) (Flagged s · m (op s)) := by
  refine elementwise_gives hr.1 hd ?_
  rw [he, vectorOp1, vectorIssue_pass _ rfl hr]
  · rw [mark_open hr.1, hop]
  · intro c hc
    simp only [List.mem_cons, List.not_mem_nil, or_false] at hc
    rcases hc with rfl | rfl
    · exact alignCheck_none hd 0
    · exact alignCheck_none ha 1

/-- An instruction whose operation raises nothing. -/
theorem WritesGroup.quiet {i : Instr} {s : State} {reads : List Use} {d : BitVec 5} {res : Nat → Option Elem} {m : BitVec 3}
    {op : Nat → Elem × FFlags} (h : WritesGroup i s reads d res (Flagged s · m op)) (z : ∀ e, (op e).2 = 0) :
    WritesGroup i s reads d res (Unflagged s ·) := by
  obtain ⟨t, h1, h2, h3, h4⟩ := h
  refine ⟨t, h1, h2, ?_, h4⟩
  apply BitVec.eq_of_getLsbD_eq
  intro k _
  have := h3 k
  simp only [z, BitVec.ofNat_eq_ofNat, BitVec.getLsbD_zero, Bool.false_eq_true, and_false, exists_const, or_false] at this
  exact Bool.eq_iff_iff.mpr this

theorem setMask_frame (s : State) (d : Nat) (res : Nat → Option Bool) :
    s.setMask d res = { s with hart := { s.hart with
      mregs := (s.setMask d res).hart.mregs,
      upsets := { s.hart.upsets with
        mask := (s.setMask d res).hart.upsets.mask, weak := (s.setMask d res).hart.upsets.weak } } } := by
  have e : (s.setMask d res).hart.upsets = { s.hart.upsets with
      mask := (s.setMask d res).hart.upsets.mask, weak := (s.setMask d res).hart.upsets.weak } := by
    unfold State.setMask; dsimp only; split <;> rfl
  rw [← e]
  rfl

/-- A mask written. -/
theorem writesMask_intro {i : Instr} {s : State} {d : BitVec 5} {reads : List Use} {res : Nat → Option Bool}
    (h : s.stripOpen = true) (hd : d.toNat < 8)
    (he : exec i s = finish ((s.mark reads (mUse d 0)).setMask d.toNat res) 4) : WritesMask i s reads d res := by
  rw [mark_open h] at he
  generalize hc : ({ s.hart.strip with
    readFirst := s.readMarks reads,
    written := (mUse d 0).foldl (fun b u => markUnit b u.unit) s.hart.strip.written } : Strip) = c at he
  have w := setMask_wrote (s := s.withStrip c) res hd
  have k := setMask_weak (s.withStrip c) res hd
  have e := setMask_frame (s.withStrip c) d.toNat res
  generalize (s.withStrip c).setMask d.toNat res = u at he w k e
  have l := weakBut_mono (p := scalarCells ||| vectorCells ||| maskCells) k (by decide)
  unfold weakBut at k l
  generalize u.hart.mregs = v at e
  generalize u.hart.upsets.mask = z at e
  generalize u.hart.upsets.weak = y at e k l
  subst e
  refine ⟨_, he, w, rfl, rfl, rfl, rfl, upsets_mask k rfl, mark_marked h ?_, rfl, onlyVector_of l ?_, fun _ => rfl⟩
  · rw [mark_open h, ← hc]; rfl
  · rw [← hc]; rfl

theorem compareOp_gives {i : Instr} {s : State} {d a : BitVec 5} {b : BOp} {m : BitVec 3} {op : State → Nat → Bool}
    (he : exec i s = compareOp s d a b m op) (hd : d.toNat < 8) (ha : Aligned s a) (hb : AlignedB s b)
    (hr : Ready s (s.vUse a 1 ++ s.bUse b ++ pUse m) (mUse d 0)) (hop : ∀ c, op (s.withStrip c) = op s) :
    WritesMask i s (s.vUse a 1 ++ s.bUse b ++ pUse m) d (onActive s m (op s)) := by
  refine writesMask_intro hr.1 hd ?_
  rw [he, compareOp, vectorIssue_pass _ rfl hr]
  · rw [mark_open hr.1, hop]
    rfl
  · intro c hc
    simp only [List.mem_cons, List.not_mem_nil, or_false] at hc
    rcases hc with rfl | rfl | rfl
    · exact maskCheck_none hd 0
    · exact alignCheck_none ha 1
    · exact bAlign_none hb

/-- A register written, as the statements say it. -/
theorem setX_reads (s : State) (d : BitVec 5) (v : Word) : Reads (s.setX d v) d v :=
  ⟨setX_same s d v, fun h => setX_upset_same s v h⟩

theorem setX_but (s : State) (d : BitVec 5) (v : Word) : RegistersBut s (s.setX d v) d :=
  fun r h => ⟨setX_other s d r v h, setX_upset_other s d v h⟩

theorem setX_sameUpsets (s : State) (d : BitVec 5) (v : Word) : (s.setX d v).hart.upsets = sameUpsets s (s.setX d v) := by
  unfold sameUpsets
  rw [← setX_weak]
  exact setX_upsets s d v

/-- A scalar written, with some flags. -/
theorem writesScalar_intro {i : Instr} {s : State} {d : BitVec 5} {reads : List Use} {v : Word} {f : FFlags}
    {flags : State → Prop} (h : s.stripOpen = true)
    (he : exec i s = finish (((s.mark reads []).orFlags f).setX d v) 4)
    (hf : ∀ t : State, t.hart.csr.fflags = s.hart.csr.fflags ||| f → flags t) : WritesScalar i s reads d v flags := by
  rw [mark_open h] at he
  have k := setX_weak ((s.withStrip ({ s.hart.strip with
    readFirst := s.readMarks reads, written := s.hart.strip.written } : Strip)).orFlags f) d v
  have l := weakBut_mono (p := scalarCells ||| vectorCells ||| maskCells) k (by decide)
  refine ⟨_, he, setX_reads _ d v, setX_but _ d v, hf _ ?_, ?_, ?_, ?_, ?_, mark_marked h ?_, ?_, onlyVector_of l ?_,
    fun _ => rfl⟩
  · rw [advance_hart_csr, setX_hart_csr]; rfl
  · rw [advance_hart_vregs, setX_hart_vregs]; rfl
  · rw [advance_hart_mregs, setX_hart_mregs]; rfl
  · rw [advance_hart_csr, setX_hart_csr]; rfl
  · exact setX_sameUpsets _ d v
  · rw [advance_hart_strip, setX_hart_strip, mark_open h]; rfl
  · unfold GoesOn; simp
  · unfold State.setX Hart.setX State.advance State.reach
    dsimp only
    split <;> rfl

end Sys2Proof.Machine
end

