-- ==== Sys2Proof/Laws/Access.lean ====
section
/-! SUPPORT. What translation, probing and the loads and stores of scalar form leave as it was. -/

set_option Elab.async false

namespace Sys2Proof.Machine

theorem OnlyCaches.refl (s : State) : OnlyCaches s s := rfl

theorem OnlyCaches.trans {s t u : State} (h : OnlyCaches s t) (k : OnlyCaches t u) : OnlyCaches s u := by
  unfold OnlyCaches at *
  rw [h] at k
  exact k

theorem onlyCaches_free (s : State) (n : Draws) : OnlyCaches s { s with free := n } := rfl

theorem drawBit_caches (s : State) : OnlyCaches s s.drawBit.2 := rfl
theorem drawNat_caches (s : State) (n : Nat) : OnlyCaches s (s.drawNat n).2 := rfl

theorem drawn_caches (s : State) : OnlyCaches s s.drawn := rfl
theorem fill_caches (s : State) (t : TlbEntry) : OnlyCaches s (s.fill t) := rfl

theorem keepPage_caches (s : State) (a : Agent) (x : Xlat) : OnlyCaches s (s.keepPage a x) := by
  unfold State.keepPage
  split
  · split
    · exact onlyCaches_free s _
    · exact .refl s
  · exact .refl s

theorem walked_caches (s : State) (a : Agent) (va : Nat) (w : Bool) : OnlyCaches s (s.walked a va w).1 := by
  unfold State.walked
  dsimp only
  split
  · split
    · exact fill_caches s _
    · exact .refl s
  · exact .refl s

theorem translatePage_caches (s : State) (a : Agent) (va : Word) (w : Bool) : OnlyCaches s (s.translatePage a va w).1 := by
  unfold State.translatePage
  split
  · exact .refl s
  split
  · exact .refl s
  split
  · dsimp only
    split
    · exact walked_caches s a _ w
    · split
      · exact .refl s
      · split
        · exact .refl s
        · exact walked_caches s a _ w
  · exact .refl s

theorem translate_caches (s : State) (a : Agent) (va : Word) (w : Bool) : OnlyCaches s (s.translate a va w).1 := by
  unfold State.translate
  split
  · exact .refl s
  · exact (translatePage_caches s a va w).trans (keepPage_caches _ a _)

theorem reachAddr_caches (s : State) (a : Agent) (va : Word) (need : Need) : OnlyCaches s (s.reachAddr a va need).1 := by
  unfold State.reachAddr
  split
  · split <;> rfl
  split
  · rfl
  split
  · split
    · rfl
    · dsimp only; split <;> rfl
  split
  · have h := translate_caches s a va need.isWrite
    dsimp only
    split
    · have k (c : Bool) (p q : Probe) :
          OnlyCaches s (if c then ((s.translate a va need.isWrite).1, p) else ((s.translate a va need.isWrite).1, q)).1 := by
        split <;> exact h
      exact k _ _ _
    all_goals exact h
  · rfl

theorem probeAt_caches (s : State) (a : Agent) (va : Word) (n : Nat) (need : Need) : OnlyCaches s (s.probeAt a va n need).1 := by
  have h := reachAddr_caches s a va need
  unfold State.probeAt
  dsimp only
  split
  · exact h
  · split
    · exact h
    · split <;> exact h
  · split <;> exact h

theorem probe_caches (s : State) (a : Agent) (va : Word) (n : Nat) (need : Need) : OnlyCaches s (s.probe a va n need).1 :=
  (probeAt_caches s a va n need).trans (drawn_caches _)

theorem Reaches.caches {s s1 : State} {va : Word} {n : Nat} {need : Need} {h : Hit} (r : Reaches s va n need s1 h) :
    OnlyCaches s s1 := by
  have := probe_caches s s.self va n need
  rw [r] at this
  exact this

/-! ### Loads (R87, R123) -/

/-- A load that looks at the store buffer changes the buffer and the number of free values drawn, nothing else. -/
def Looked (s t : State) : Prop :=
  t = { s with hart := { s.hart with strip := { s.hart.strip with buf := t.hart.strip.buf } }, free := t.free }

theorem sight_free (v : LoadView) (loc n : Nat) : ∀ (l barred : List BufEntry) (s : State),
    (s.sight v loc n barred l).1 = { s with free := (s.sight v loc n barred l).1.free }
  | [], _, _ => rfl
  | e :: r, barred, s => by
    rw [State.sight]
    dsimp only
    have h := sight_free v loc n r (if v.bars loc n barred e then e :: barred else barred) s
    generalize s.sight v loc n (if v.bars loc n barred e then e :: barred else barred) r = x at h ⊢
    obtain ⟨u, k⟩ := x
    dsimp only at h ⊢
    split
    · rw [h]; rfl
    · exact h

theorem look_looked (s : State) (v : LoadView) (loc n : Nat) : Looked s (s.look v loc n) := by
  unfold State.look
  split
  · dsimp only
    generalize v.raised loc n s.hart.strip.buf = buf
    have h := sight_free v loc n buf [] s
    generalize s.sight v loc n [] buf = x at h ⊢
    obtain ⟨t, l⟩ := x
    dsimp only at h ⊢
    rw [h]
    rfl
  · rfl

/-- Outside a strip a load reads memory, and leaves no more than the notes of its reads. -/
theorem loadBytes_closed {s : State} (h : s.stripOpen = false) (v : LoadView) (loc n : Nat) :
    NotesOnly s (s.loadBytes v loc n).1 ∧ (s.loadBytes v loc n).2.1 = s.bytes loc n := by
  have e (i : Nat) : s.loadByte v i = (s.byte i, true) := by unfold State.loadByte; rw [if_neg (by simp [h])]
  have k : s.look v loc n = s := by unfold State.look; rw [if_neg (by simp [h])]
  unfold State.loadBytes
  simp only [k, e, List.map_map]
  refine ⟨?_, rfl⟩
  split
  · exact noteRead_only s loc n
  · rfl

/-- A load completes once it reaches its bytes and finds them. -/
theorem loadTo_finish {i : Instr} {s s1 : State} {d : BitVec 5} {va : Word} {n size : Nat} {ext : Nat → Word} {h : Hit}
    {bs : List Byte} (he : exec i s = loadTo s d va n ext size) (hr : Reaches s va n .read s1 h) (hf : Finds s1 h.loc n bs) :
    exec i s = finish ((s1.loadBytes (s1.view 0) h.loc n).1.setX d (ext (leNat bs))) size := by
  obtain ⟨⟨hh, hb⟩, s2, e⟩ := hf
  have w : s1.loadWaits 0 [(h.loc, n)] = false := by
    unfold State.loadWaits State.behind
    simp only [Bool.or_eq_false_iff, List.any_eq_false, Bool.and_eq_true, not_and, Bool.not_eq_true]
    refine ⟨fun w hw k => ?_, fun w hw k => ?_⟩ <;>
    · unfold HeldWrite.of at k
      simp only [Bool.and_eq_true, decide_eq_true_eq, beq_iff_eq] at k
      have := hh w hw k.1 k.2
      first | exact this.1 | simpa using this.2
  have q : s1.loadSpoilt 0 [(h.loc, n)] = false := by
    unfold State.loadSpoilt
    by_cases o : s1.stripOpen = true
    · have : s1.hart.strip.buf.any BufEntry.bad = false := by
        rw [List.any_eq_false]; intro x hx; simp [hb o x hx]
      simp [this]
    · simp [o]
  unfold Reaches at hr
  rw [he, loadTo, scalarLoad, scalarAccess]
  simp only [Bool.false_eq_true, if_false, hr, e, loading, w, q]

/-! ### Stores -/

theorem write_stored {s : State} (h : s.mem.wf = true) (loc : Nat) (bs : List Byte) : Stored s (s.write loc bs) loc bs :=
  fun a => byte_write h loc a bs

theorem write_corrected (s : State) (loc : Nat) (bs : List Byte) : Corrected s (s.write loc bs) loc bs.length := by
  refine ⟨⟨fun w => ?_, fun w => ?_⟩, rfl⟩ <;>
  · unfold State.write clearPoison
    simp only [List.mem_filter, Bool.not_eq_true', Bool.and_eq_false_iff, decide_eq_false_iff_not]
    constructor
    · rintro ⟨h, k⟩; exact ⟨h, by omega⟩
    · rintro ⟨h, k⟩; exact ⟨h, by omega⟩

theorem heldBack_of {s : State} {e : BufEntry} (h : GoesOut s e.stream e.loc) : s.heldBack e = false := by
  obtain ⟨p, q⟩ := h
  unfold State.heldBack State.behind
  rw [p, Bool.false_or, List.any_eq_false]
  intro w hw k
  unfold HeldWrite.of at k
  simp only [Bool.and_eq_true, decide_eq_true_eq, beq_iff_eq] at k
  rw [q w hw k.1.1 k.1.2] at k
  exact absurd k.2 (by simp)

theorem heldBack_not {s : State} {e : BufEntry} (h : ¬ GoesOut s e.stream e.loc) : s.heldBack e = true := by
  cases k : s.heldBack e with
  | true => rfl
  | false =>
    refine absurd ?_ h
    unfold State.heldBack State.behind at k
    rw [Bool.or_eq_false_iff, List.any_eq_false] at k
    refine ⟨k.1, fun w hw a b => ?_⟩
    have := k.2 w hw
    unfold HeldWrite.of at this
    simpa [a, b] using this

/-- What the store of one value does at the location it reaches. -/
theorem storeFrom_reaches {i : Instr} {s s1 : State} {d : BitVec 5} {va : Word} {n size : Nat} {h : Hit}
    (he : exec i s = storeFrom s d va n size) (hr : Reaches s va n .write s1 h) (k : s.roomCheck 1 = none) :
    exec i s =
      (if s1.stripOpen then finish (s1.buffer [newEntry s1 0 0 d va h (.store (leBytes n (s.x d).toNat))] 1) size
        else finish (s1.perform (newEntry s1 0 0 d va h (.store (leBytes n (s.x d).toNat))) (leBytes n (s.x d).toNat)) size) := by
  unfold Reaches at hr
  rw [he, storeFrom, scalarStore, guarded_pass fun c hc => by rw [List.mem_singleton] at hc; subst hc; exact k, scalarAccess]
  simp only [if_true, hr]
  rfl

/-- Outside a strip a store is performed, or held (R87, R287). -/
theorem stores_closed {i : Instr} {s : State} {d : BitVec 5} {va : Word} {n size : Nat}
    (he : exec i s = storeFrom s d va n size) {s1 : State} {h : Hit} (hr : Reaches s va n .write s1 h)
    (ho : s.stripOpen = false) :
    (GoesOut s 0 h.loc → s.mem.wf = true →
      ∃ t, exec i s = .next t ∧ GoesOn s t size ∧ Stored s t h.loc (leBytes n (s.x d).toNat) ∧ Corrected s t h.loc n ∧
        t = { s1 with
          hart := { s.hart with pc := t.hart.pc, loops := t.hart.loops, unordered := keptFor s h.loc n },
          mem := t.mem, poison := t.poison, repair := t.repair, fabric := sentTo s s.cur 0 h.loc n }) ∧
    (¬ GoesOut s 0 h.loc →
      ∃ t, exec i s = .next t ∧ GoesOn s t size ∧ SameBytes s t ∧
        t = { s1 with
          hart := { s.hart with pc := t.hart.pc, loops := t.hart.loops },
          fabric := { s.fabric with
            held := s.fabric.held ++ [heldWrite s (newEntry s 0 0 d va h (.store (leBytes n (s.x d).toNat)))] } }) := by
  obtain ⟨x, y, z, e1⟩ : ∃ x y z, s1 = { s with core := { s.core with tlb := x }, tlb2 := y, free := z } :=
    ⟨_, _, _, hr.caches⟩
  have k : s.roomCheck 1 = none := by unfold State.roomCheck faultIf; simp [ho]
  have room := storeFrom_reaches he hr k
  have ho1 : s1.stripOpen = false := by rw [e1]; exact ho
  rw [if_neg (by simp [ho1]), State.perform] at room
  refine ⟨fun hp hw => ?_, fun hp => ?_⟩
  · have hb1 : s1.heldBack (newEntry s1 0 0 d va h (.store (leBytes n (s.x d).toNat))) = false := by
      refine heldBack_of ?_
      rw [e1]; exact hp
    have hw1 : s1.mem.wf = true := by rw [e1]; exact hw
    rw [if_neg (fun q => by rw [hb1] at q; cases q), replacing_eq, leBytes_length] at room
    have w := write_stored (s := { s1 with
      hart := { s1.hart with unordered := keptFor s1 h.loc n }, fabric := sentTo s1 s1.cur 0 h.loc n }) hw1 h.loc
        (leBytes n (s.x d).toNat)
    have c := write_corrected { s1 with
      hart := { s1.hart with unordered := keptFor s1 h.loc n }, fabric := sentTo s1 s1.cur 0 h.loc n } h.loc
        (leBytes n (s.x d).toNat)
    rw [leBytes_length] at c
    subst e1
    exact ⟨_, room, rfl, w, c, rfl⟩
  · have hb1 : s1.heldBack (newEntry s1 0 0 d va h (.store (leBytes n (s.x d).toNat))) = true := by
      refine heldBack_not ?_
      rw [e1]; exact hp
    rw [if_pos hb1] at room
    subst e1
    refine ⟨_, room, rfl, fun _ => rfl, ?_⟩
    unfold State.hold heldWrite
    rfl

end Sys2Proof.Machine
end

