-- ==== Sys2Proof/Laws/Buffer.lean ====
section
/-! SUPPORT. What the store buffer takes up (R119, R123), and what the install of a claimed chunk meets (R231). -/

set_option Elab.async false

namespace Sys2Proof.Machine

/-- The last k elements of a list, of which at least k at the end satisfy p. -/
theorem drop_of_reverse_takeWhile {α : Type} {p : α → Bool} {l : List α} {k : Nat} (h : k ≤ (l.reverse.takeWhile p).length)
    {x : α} (m : x ∈ l.drop (l.length - k)) : p x = true := by
  have e : l.drop (l.length - k) = (l.reverse.take k).reverse := by rw [List.take_reverse, List.reverse_reverse]
  rw [e, List.mem_reverse] at m
  have t : l.reverse.take k = (l.reverse.takeWhile p).take k := by
    conv => lhs; rw [← List.takeWhile_append_dropWhile (p := p) (l := l.reverse), List.take_append_of_le_length h]
  rw [t] at m
  exact List.all_eq_true.1 (List.all_takeWhile (p := p) (l := l.reverse)) x (List.mem_of_mem_take m)

/-- An entry stands somewhere behind all that it must follow; nothing else of the state changes but the number of free
values drawn. -/
theorem place_inserts (s : State) (e : BufEntry) : ∃ (i : Nat) (n : Draws),
    (∀ f ∈ s.hart.strip.buf.drop i, f.precedes e = false) ∧
    s.place e = { s with
      free := n,
      hart := { s.hart with strip := { s.hart.strip with
        buf := s.hart.strip.buf.take i ++ e :: s.hart.strip.buf.drop i } } } := by
  have slot {x : Nat} (h : x ≤ (s.hart.strip.buf.reverse.takeWhile fun f => !f.precedes e).length) :
      ∀ f ∈ s.hart.strip.buf.drop (s.hart.strip.buf.length - x), f.precedes e = false := fun f hf => by
    simpa using drop_of_reverse_takeWhile h hf
  unfold State.place
  dsimp only
  split
  · refine ⟨_, _, slot ?_, rfl⟩
    rw [List.getD_eq_getElem?_getD]
    cases q : (placesFor s.hart.strip.buf e _)[(s.drawNat _).1]? with
    | none => exact Nat.zero_le _
    | some k =>
      have m := List.mem_of_getElem? q
      unfold placesFor at m
      exact Nat.le_of_lt_succ (List.mem_range.mp (List.mem_filter.mp m).1)
  · exact ⟨_, _, slot (Nat.zero_le _), rfl⟩

/-- The entries of one instruction change the buffer, what it takes, the count of instructions and the free values drawn. -/
theorem buffer_only (entries : List BufEntry) (n : Nat) (s : State) : ∃ buf k,
    s.buffer entries n = { s with
      free := k,
      hart := { s.hart with strip := { s.hart.strip with
        buf := buf, used := s.hart.strip.used + n, instrs := s.hart.strip.instrs + 1 } } } := by
  have h : ∀ (l : List BufEntry) (s : State), ∃ buf k, l.foldl State.place s = { s with
      free := k, hart := { s.hart with strip := { s.hart.strip with buf := buf } } } := by
    intro l
    induction l with
    | nil => exact fun s => ⟨_, _, rfl⟩
    | cons e r ih =>
      intro s
      obtain ⟨i, k, -, h⟩ := place_inserts s e
      obtain ⟨b, j, g⟩ := ih (s.place e)
      exact ⟨b, j, by rw [List.foldl_cons, g, h]⟩
  obtain ⟨b, k, h⟩ := h entries s
  exact ⟨b, k, by unfold State.buffer; rw [h]; rfl⟩

/-- A write of a hart outside a strip is performed, or held. -/
theorem perform_cases (s : State) (e : BufEntry) (bytes : List Byte) :
    s.perform e bytes = s.hold e ∧ s.heldBack e = true ∨
    s.perform e bytes = (s.replacing e.loc bytes.length).write e.loc bytes ∧ s.heldBack e = false := by
  unfold State.perform
  cases h : s.heldBack e <;> simp

/-- A doubleword that an install updates: the update where it is reached, its fault, or the wait for its segment. -/
theorem claimWord_cases (s : State) (k : Claim) (va : Word) (f : State → Nat → State) : ∃ t, OnlyCaches s t ∧
    ((∃ loc, s.claimWord k va f = f (t.noteRead loc 8) loc) ∨
      (∃ loc, s.claimWord k va f = (t.noteRead loc 8).claimFault k 0x11 va) ∨
      (∃ c, s.claimWord k va f = t.claimFault k c va) ∨
      s.claimWord k va f = ({ t with hart := { t.hart with claim := some k } } : State).withRun (.waiting (.held va))) := by
  have c := probe_caches s s.self va 8 .write
  unfold State.claimWord
  generalize s.probe s.self va 8 .write = r at c ⊢
  obtain ⟨t, p⟩ := r
  dsimp only at c ⊢
  refine ⟨t, c, ?_⟩
  split
  · split
    · exact .inr (.inl ⟨_, rfl⟩)
    · exact .inl ⟨_, rfl⟩
  · exact .inr (.inr (.inl ⟨_, rfl⟩))
  · exact .inr (.inr (.inl ⟨_, rfl⟩))
  · exact .inr (.inr (.inr rfl))

end Sys2Proof.Machine
end

