-- ==== Sys2Proof/Laws/Scalar.lean ====
section
/-! SUPPORT. What the shared operations of scalar instructions do. -/

set_option Elab.async false

namespace Sys2Proof.Machine

/-- What scalar instructions write, with the marks of uncorrectable registers said apart. -/
theorem onlyRegisters_of {s t : State} (w : t.hart.upsets = sameUpsets s t)
    (h : t = { s with hart := { s.hart with
      regs := t.hart.regs, pc := t.hart.pc, loops := t.hart.loops, upsets := t.hart.upsets } }) : OnlyRegisters s t := by
  unfold OnlyRegisters
  rw [← w]
  exact h

/-- A register written and control passed on. -/
theorem finish_gives {i : Instr} {s : State} {d : BitVec 5} {v : Word} {n : Nat}
    (h : exec i s = finish (s.setX d v) n) : Gives i s d v n := by
  refine ⟨_, h, setX_reads s d v, setX_but s d v, ?_, ?_, fun a => rfl⟩
  · unfold GoesOn; simp
  · refine onlyRegisters_of (setX_sameUpsets s d v) ?_
    unfold State.setX Hart.setX State.advance State.reach
    dsimp only
    split <;> rfl

/-- A scalar result with the value a statement gives it. -/
theorem scalarResult_gives {i : Instr} {s : State} {d : BitVec 5} {v w : Word} (h : exec i s = scalarResult s d v)
    (e : v = w) : Gives i s d w 4 := by
  subst e; exact finish_gives h

theorem noEffect_of {i : Instr} {s : State} {n : Nat} (h : exec i s = finish s n) : NoEffect i s n :=
  ⟨_, h, fun _ => rfl, rfl, fun _ => rfl, rfl⟩

theorem dropWhile_split {α : Type} (p : α → Bool) : ∀ l : List α, ∃ n, l.dropWhile p = l.drop n ∧
    (∀ x ∈ l.take n, p x = true) ∧ ∀ x, (l.dropWhile p).head? = some x → p x = false
  | [] => ⟨0, rfl, by simp, by simp⟩
  | x :: r => by
    rw [List.dropWhile_cons]
    by_cases h : p x = true
    · obtain ⟨n, h1, h2, h3⟩ := dropWhile_split p r
      rw [if_pos h]
      refine ⟨n + 1, h1, fun y hy => ?_, h3⟩
      rw [List.take_succ_cons, List.mem_cons] at hy
      rcases hy with rfl | hy
      · exact h
      · exact h2 y hy
    · rw [if_neg h]
      refine ⟨0, rfl, by simp, fun y hy => ?_⟩
      simp only [List.head?_cons, Option.some.injEq] at hy
      subst hy; simpa using h

theorem holds_iff (l : Loop) (t : Word) : l.holds t = true ↔ l.start.toNat ≤ t.toNat ∧ t.toNat < l.stop.toNat := by
  unfold Loop.holds
  simp [BitVec.ule, BitVec.ult]

theorem jump_lands (s : State) (q : Word) : LandsAt s (s.jump q) q := by
  obtain ⟨n, h1, h2, h3⟩ := dropWhile_split (fun l : Loop => !l.holds q) s.hart.loops
  refine ⟨rfl, n, h1, fun l hl k => ?_, fun l hl => ?_⟩
  · have := h2 l hl
    rw [(holds_iff l q).mpr k] at this
    cases this
  · have := h3 l hl
    exact (holds_iff l q).mp (by simpa using this)

theorem jumps_of {i : Instr} {s : State} {q : Word} (h : exec i s = .next (s.jump q)) : Jumps i s q :=
  ⟨_, h, jump_lands s q, rfl, fun _ => rfl⟩

theorem jumpsAndLinks_of {i : Instr} {s : State} {q v : Word} {d : BitVec 5}
    (h : exec i s = .next ((s.setX d v).jump q)) : JumpsAndLinks i s q d v := by
  refine ⟨_, h, ?_, setX_reads s d v, setX_but s d v, ?_, fun _ => rfl⟩
  · have := jump_lands (s.setX d v) q
    unfold LandsAt at this ⊢
    rwa [setX_hart_loops] at this
  · refine onlyRegisters_of (setX_sameUpsets s d v) ?_
    unfold State.setX Hart.setX State.jump
    dsimp only
    split <;> rfl

theorem branches_of {i : Instr} {s : State} {c : Bool} {p : Prop} {off q : Word} {n : Nat}
    (h : exec i s = branch s c off n) (hp : c = true ↔ p) (hq : s.hart.pc + off = q) : Branches i s p q n := by
  subst hq
  unfold branch at h
  refine ⟨fun k => ?_, fun k => ?_⟩
  · rw [if_pos (hp.mpr k)] at h; exact jumps_of h
  · rw [if_neg (fun z => k (hp.mp z))] at h; exact noEffect_of h

/-- A mask moved to a scalar, as the statements say it. -/
theorem maskToScalar_gives {i : Instr} {s : State} {d a : BitVec 5} {value : State → Word} {v : Word}
    (he : exec i s = maskToScalar s d a value) (ha : a.toNat < 8) (hr : Ready s (mUse a 1) [])
    (hv : ∀ c, value (s.withStrip c) = v) : WritesScalar i s (mUse a 1) d v (Unflagged s) := by
  refine writesScalar_intro (f := 0) hr.1 ?_ fun t ht => by rw [Unflagged, ht]; simp
  rw [he, maskToScalar, vectorIssue_pass _ rfl hr]
  · rw [mark_open hr.1, hv]
    rw [orFlags_zero]
    rfl
  · intro c hc
    rw [List.mem_singleton] at hc
    subst hc
    exact maskCheck_none ha 1

/-! ### Immediates -/

theorem signExtend_ofInt {w : Nat} (i : BitVec w) : i.signExtend 64 = BitVec.ofInt 64 i.toInt := by
  rw [BitVec.signExtend]

theorem shiftLeft_one_ofInt {w : Nat} (i : BitVec w) :
    i.signExtend 64 <<< 1 = BitVec.ofInt 64 (2 * i.toInt) := by
  rw [BitVec.signExtend]
  apply BitVec.eq_of_toNat_eq
  simp only [BitVec.toNat_shiftLeft, BitVec.toNat_ofInt]
  omega

theorem signed_eq (n v : Nat) : signed n v = BitVec.ofInt 64 (lowSigned n v) := by
  unfold signed lowSigned
  rw [BitVec.signExtend]
  congr 1
  have e : (2 : Nat) ^ (8 * n) = 256 ^ n := by rw [Nat.pow_mul]
  rw [BitVec.toInt_eq_toNat_cond, BitVec.toNat_ofNat, e]
  dsimp only
  split <;> simp

end Sys2Proof.Machine
end

