-- ==== Sys2Proof/Laws/Faults.lean ====
section
/-! SUPPORT. What taking a fault does, case by case. -/

set_option Elab.async false

namespace Sys2Proof.Machine

/-- Record written, strip aborted: what every fault does first. -/
def State.unwound (s : State) (f : FaultInfo) (dlg : Bool) : State :=
  if s.stripOpen then (s.withRecord (s.recordOf f dlg)).abort else s.withRecord (s.recordOf f dlg)

/-- The abort that R306 has in place of a fault. -/
theorem takeFault_replay {s : State} {f : FaultInfo} (h : f.replay = true) : s.takeFault f = s.replayed := if_pos h

/-- A fault that goes to S. -/
theorem takeFault_trap {s : State} {f : FaultInfo} (hr : f.replay = false) (h1 : f.cause ≠ 0x12)
    (h2 : f.deleg = false ∨ f.cause ≠ 0x0A ∨ s.hart.ui.uivec = 0) :
    s.takeFault f = (s.unwound f false).trap f.cause s.stripOpen (s.unwound f false).hart.pc := by
  have hd : (f.cause == 0x0A#8 && f.deleg && s.hart.ui.uivec != 0) = false := by
    rcases h2 with h | h | h
    · rw [h]; simp
    · rw [show (f.cause == 0x0A#8) = false from beq_false_of_ne h]; simp
    · rw [h]; simp
  unfold State.takeFault
  rw [if_neg (by simp [hr])]
  dsimp only
  rw [hd]
  exact (if_neg h1).trans (if_neg (by simp))

/-- A fault that freezes the hart. -/
theorem takeFault_freeze {s : State} {f : FaultInfo} (hr : f.replay = false) (h : f.cause = 0x12) :
    s.takeFault f = ((s.unwound f false).withHart { (s.unwound f false).hart with pc := s.hart.pc }).freeze f.addr := by
  have hd : (f.cause == 0x0A#8 && f.deleg && s.hart.ui.uivec != 0) = false := by rw [h]; rfl
  unfold State.takeFault
  rw [if_neg (by simp [hr])]
  dsimp only
  rw [hd]
  exact if_pos h

/-- A fault delivered to the user handler. -/
theorem takeFault_delegated {s : State} {f : FaultInfo} (hr : f.replay = false) (h1 : f.cause = 0x0A) (h2 : f.deleg = true)
    (h3 : s.hart.ui.uivec ≠ 0) :
    s.takeFault f = (s.unwound f true).enterHandler 2 0 0 (s.unwound f true).hart.pc := by
  have hd : (f.cause == 0x0A#8 && f.deleg && s.hart.ui.uivec != 0) = true := by
    rw [h1, h2]; simpa using h3
  unfold State.takeFault
  rw [if_neg (by simp [hr])]
  dsimp only
  rw [hd]
  exact (if_neg (by rw [h1]; decide)).trans (if_pos rfl)

/-- A trap to S with an entry set. -/
theorem trap_entry {s : State} (h : s.hart.sup.tvec ≠ 0) (c : BitVec 8) (so : Bool) (p : Word) :
    s.trap c so p = { s with hart := { s.hart with
      sup := { s.hart.sup with tcause := c, tepc := p, pp := s.hart.priv, so := so },
      trapLoops := s.hart.trapLoopsAfter, loops := [], priv := .supervisor, pc := s.hart.sup.tvec, run := .running } } :=
  if_neg h

/-- A trap to S without one. -/
theorem trap_unset {s : State} (h : s.hart.sup.tvec = 0) (c : BitVec 8) (so : Bool) (p : Word) :
    s.trap c so p = ({ s with hart := { s.hart with
      sup := { s.hart.sup with tcause := c, tepc := p, pp := s.hart.priv, so := so }, run := .stopped c, pc := p } } :
      State).report (.trapUnset s.cur c) :=
  if_pos h

theorem fcause_eq (c : BitVec 8) (so dlg : Bool) :
    (c.setWidth 64 ||| (if so then 0x100#64 else 0) ||| (if dlg then 0x200#64 else 0)) =
      BitVec.ofNat 64 (c.toNat + (if so then 256 else 0) + (if dlg then 512 else 0)) := by
  revert c so dlg; decide

/-- The fault record in the terms of the statements. -/
theorem recordOf_eq (s : State) (f : FaultInfo) (dlg : Bool) : s.recordOf f dlg =
    { fcause := BitVec.ofNat 64 (f.cause.toNat + (if s.stripOpen then 256 else 0) + (if dlg then 512 else 0)),
      fpc := s.hart.pc, fstrip := if s.stripOpen then s.hart.strip.cp.pc else 0,
      felem := BitVec.ofNat 64 (f.elem % 8192), fidx0 := f.idx0, fidx1 := f.idx1, fidx2 := f.idx2, faddr := f.addr,
      fcoord := f.coord, finfo := f.info } := by
  unfold State.recordOf
  rw [← fcause_eq]

end Sys2Proof.Machine
end

