-- ==== Sys2Proof/Laws/Notes.lean ====
section
/-! SUPPORT. What reads of tables, registers and images leave in the counts and the log of errors, and what a write that a
peer refuses leaves. -/

namespace Sys2Proof.Machine

/-! ### Notes of reads (R305, R308) -/

theorem logError_only (s : State) (e : ErrorRecord) : NotesOnly s (s.logError e) := by unfold State.logError; rfl

theorem noteWalk_only (s : State) (a : Agent) (va : Word) : NotesOnly s (s.noteWalk a va) :=
  (notesOnly_foldl (fun _ _ => noteRead_only ..) _ _).trans (notesOnly_foldl (fun _ _ => noteRead_only ..) _ _)

theorem noteRange_only (s : State) (a : Agent) (va : Word) : ∀ n, NotesOnly s (s.noteRange a va n)
  | 0 => rfl
  | n + 1 => by
    refine (noteRange_only s a va n).trans ?_
    have walk : ∀ t : State, NotesOnly t (if (n = 0 || (va + BitVec.ofNat 64 n).toNat % 65536 = 0) &&
        !inVaultSpace (va + BitVec.ofNat 64 n) then t.noteWalk a (va + BitVec.ofNat 64 n) else t) := by
      intro t; split
      · exact noteWalk_only ..
      · rfl
    simp only [State.noteRange]
    split
    · split
      · exact (walk _).trans (noteRead_only ..)
      · exact walk _
    · exact walk _

theorem correctCell_only (s : State) (i : Nat) : NotesOnly s (s.correctCell i) := by
  unfold State.correctCell State.logError; rfl

theorem corrected_only (s : State) (i : Instr) : NotesOnly s (s.corrected i) :=
  notesOnly_foldl correctCell_only _ _

/-- Where nothing that an instruction reads holds an error, nothing is corrected. -/
theorem corrected_none {s : State} {i : Instr} (h : ∀ c ∈ s.cellsRead i, s.cellWeak c = false) : s.corrected i = s := by
  have : (s.cellsRead i).eraseDups.filter s.cellWeak = [] := by
    rw [List.filter_eq_nil_iff]
    intro c hc
    rw [h c (by simpa using hc)]
    simp
  rw [State.corrected, State.correctCells, this, List.foldl_nil]

theorem walkNotes_only (s t : State) : NotesOnly t (s.walkNotes t) := notesOnly_foldl (fun _ _ => noteWalk_only ..) _ _

theorem imageNoted_only (s : State) (hart : Nat) (c : SavedContext) (x : Hart) : NotesOnly s (s.imageNoted hart c x) := by
  have reads : NotesOnly s ((s.imageRanges hart c x).foldl (fun u p => u.noteRead p.1 p.2) s) :=
    notesOnly_foldl (fun _ _ => noteRead_only ..) _ _
  have shadow : ∀ (t : State) (r : ErrorRecord), NotesOnly t (if c.weak then t.correctShadow hart r else t) := by
    intro t r; split
    · unfold State.correctShadow State.logError; rfl
    · rfl
  unfold State.imageNoted
  dsimp only
  split
  · exact reads
  · split
    · exact (reads.trans (shadow _ _)).trans (logError_only ..)
    · exact reads.trans (shadow _ _)

/-! ### Marks of matrix state (R305) -/

@[simp] theorem rewrote_owner (m : Matrix) (k : BitVec 41) : (m.rewrote k).owner = m.owner := rfl
@[simp] theorem rewrote_rows (m : Matrix) (k : BitVec 41) : (m.rewrote k).rows = m.rows := rfl
@[simp] theorem rewrote_mvl (m : Matrix) (k : BitVec 41) : (m.rewrote k).mvl = m.mvl := rfl
@[simp] theorem rewrote_tiles (m : Matrix) (k : BitVec 41) : (m.rewrote k).tiles = m.tiles := rfl
@[simp] theorem rewrote_acc (m : Matrix) (k : BitVec 41) : (m.rewrote k).acc = m.acc := rfl
@[simp] theorem rewrote_pend (m : Matrix) (k : BitVec 41) : (m.rewrote k).pend = m.pend := rfl
@[simp] theorem rewrote_tags (m : Matrix) (k : BitVec 41) : (m.rewrote k).tags = m.tags := rfl
@[simp] theorem rewrote_pendTags (m : Matrix) (k : BitVec 41) : (m.rewrote k).pendTags = m.pendTags := rfl
@[simp] theorem rewrote_slots (m : Matrix) (k : BitVec 41) : (m.rewrote k).slots = m.slots := rfl
@[simp] theorem rewrote_knots (m : Matrix) (k : BitVec 41) : (m.rewrote k).knots = m.knots := rfl
@[simp] theorem rewrote_sel (m : Matrix) (k : BitVec 41) : (m.rewrote k).sel = m.sel := rfl

/-- Parts written whole hold no error any more; the others keep theirs. -/
theorem rewrote_damaged (m : Matrix) (k : BitVec 41) (i : Nat) :
    (m.rewrote k).damaged.getLsbD i = (m.damaged.getLsbD i && !k.getLsbD i) := by
  unfold Matrix.rewrote
  by_cases h : i < 41
  · simp [h]
  · simp [h, BitVec.getLsbD_of_ge _ _ (Nat.le_of_not_lt h)]

/-! ### Writes that a peer refuses (R119, R282) -/

/-- Giving back what a refused write replaced changes memory, its code words, and the writes that may still be refused. -/
def GivesBack (s t : State) : Prop :=
  t = { s with mem := t.mem, poison := t.poison, repair := { s.repair with weak := t.repair.weak },
               fabric := { s.fabric with sent := t.fabric.sent } }

theorem GivesBack.trans {s t u : State} (h : GivesBack s t) (k : GivesBack t u) : GivesBack s u := by
  unfold GivesBack at *
  rw [h] at k
  exact k

theorem giveBack_only (s : State) (mine later : List SentWrite) (loc : Nat) (b : Byte) :
    GivesBack s (s.giveBack mine later loc b) := by
  unfold State.giveBack
  split <;> rfl

theorem undone_only (s : State) (r : Rejection) : GivesBack s (s.undone r) := by
  have fold : ∀ (mine : List SentWrite) (i : Nat) (l : List (Byte × Nat)) (u : State), GivesBack u
      (l.foldl (fun t p => t.giveBack mine (t.fabric.sent.drop i) (r.loc + p.2) p.1) u) := by
    intro mine i l
    induction l with
    | nil => exact fun u => rfl
    | cons p l ih => exact fun u => (giveBack_only ..).trans (ih _)
  unfold State.undone
  split
  · rfl
  · exact GivesBack.trans (t := s.withFabric _) rfl (fold ..)

end Sys2Proof.Machine
end

