-- ==== Sys2Proof/Tests/Slice0.lean ====
section
/-! SUPPORT. Tests: words of the opcode table and what they decode to, ill-formed terms, single steps with results worked out
from the spec, and, for the statements' hypotheses, states and operands that meet them. -/

set_option Elab.async false

namespace Sys2Proof.Machine

/-! ### Decoding: words put together from the match value and the field places of the opcode table's row. The fields are
D 4, A 9, B 18, M 5 and the like; FORM is VS where the row leaves it open. -/

def parcels (w : BitVec 32) : List Half := [w.extractLsb' 16 16, w.extractLsb' 0 16]

/-- Each word decodes to its instruction, and that instruction encodes to it. -/
def reads (l : List (BitVec 32 × Instr)) : Bool :=
  l.all fun p => (decodeParcels (parcels p.1)).toOption == some (p.2, 4) && encode p.2 == parcels p.1

def reads16 (l : List (BitVec 16 × Instr)) : Bool :=
  l.all fun p => (decodeParcels [p.1]).toOption == some (p.2, 2) && encode p.2 == [p.1]

/-- Prefix word X and base word W (R64). -/
def reads64 (l : List (BitVec 32 × BitVec 32 × Instr)) : Bool :=
  l.all fun p => (decodeParcels (parcels p.1 ++ parcels p.2.1)).toOption == some (p.2.2, 8) &&
    encode p.2.2 == parcels p.1 ++ parcels p.2.1

theorem test_decode_R83 : reads [
    (0xC0844C80, .add 4 9 18), (0xC0844C81, .sub 4 9 18), (0xC0844C82, .and 4 9 18), (0xC0844C83, .or 4 9 18),
    (0xC0844C84, .xor 4 9 18), (0xC0844C85, .sll 4 9 18), (0xC0844C86, .srl 4 9 18), (0xC0844C87, .sra 4 9 18),
    (0xC0844C88, .slt 4 9 18), (0xC0844C89, .sltu 4 9 18), (0xC0844C8A, .mul 4 9 18), (0xC0844C8B, .mulh 4 9 18),
    (0xC0844C8C, .mulhu 4 9 18), (0xC0844C8D, .div 4 9 18), (0xC0844C8E, .divu 4 9 18), (0xC0844C8F, .rem 4 9 18),
    (0xC0844C90, .remu 4 9 18), (0xC0844C91, .min 4 9 18), (0xC0844C92, .max 4 9 18), (0xC0844C93, .minu 4 9 18),
    (0xC0844C94, .maxu 4 9 18), (0xC0844815, .clz 4 9), (0xC0844816, .ctz 4 9), (0xC0844817, .popc 4 9)] = true := by decide
theorem test_decode_R84 : reads [
    (0xC1044D65, .addi 4 9 1381), (0xC1244D65, .andi 4 9 1381), (0xC1444D65, .ori 4 9 1381),
    (0xC1644D65, .xori 4 9 1381), (0xC184482B, .slli 4 9 43), (0xC1A4482B, .srli 4 9 43),
    (0xC1C4482B, .srai 4 9 43), (0xC1E44D65, .slti 4 9 1381)] = true := by decide
theorem test_decode_R85 : reads [
    (0xC204ACBA, .lil 4 44218), (0xC224ACBA, .lih 4 44218), (0xC244ACBA, .lix 4 44218), (0xC264ACBA, .liy 4 44218)] = true := by decide
theorem test_decode_R86 : reads [
    (0xC2844D65, .lb 4 9 1381), (0xC2A44D65, .lh 4 9 1381), (0xC2C44D65, .lw 4 9 1381), (0xC2E44D65, .ld 4 9 1381),
    (0xC3044D65, .lbu 4 9 1381), (0xC3244D65, .lhu 4 9 1381), (0xC3444D65, .lwu 4 9 1381),
    (0xC3604D65, .pref 9 1381), (0xC3844D65, .sb 4 9 1381), (0xC3A44D65, .sh 4 9 1381), (0xC3C44D65, .sw 4 9 1381),
    (0xC3E44D65, .sd 4 9 1381)] = true := by decide
theorem test_decode_R88 : reads [
    (0xC404D65D, .beqz 9 22109), (0xC414D65D, .bnez 9 22109), (0xC424D65D, .bltz 9 22109),
    (0xC434D65D, .bgez 9 22109), (0xC444D65D, .bgtz 9 22109), (0xC454D65D, .blez 9 22109),
    (0xC464D65D, .bbs 9 22109), (0xC474D65D, .bbc 9 22109)] = true := by decide
theorem test_decode_R89 : reads [
    (0xC4D65D6B, .j 5660011), (0xC5565D6B, .jal 5660011), (0xC5844D65, .jalr 4 9 1381), (0xC5A04D65, .jr 9 1381)] = true := by decide
theorem test_decode_R91 : reads [
    (0xC6004D65, .loop 9 1381)] = true := by decide
theorem test_decode_R96 : reads [
    (0xC6840565, .csrr 4 1381), (0xC6A44D65, .csrw 4 9 1381), (0xC6C44D65, .csrs 4 9 1381),
    (0xC6E44D65, .csrc 4 9 1381)] = true := by decide
theorem test_decode_R98 : reads [
    (0xC7044800, .mpopc 4 9), (0xC7044801, .mfirst 4 9), (0xC7044802, .many 4 9), (0xC7044803, .mall 4 9),
    (0xC7044C84, .mtos 4 9 18)] = true := by decide
theorem test_decode_R106 : reads [
    (0xC8244CA8, .vaddF 4 9 (.vs 18) 5), (0xC8244CA9, .vsubF 4 9 (.vs 18) 5), (0xC8244CAA, .vmulF 4 9 (.vs 18) 5),
    (0xC8244CAB, .vdivF 4 9 (.vs 18) 5), (0xC8244CAC, .vminF 4 9 (.vs 18) 5), (0xC8244CAD, .vmaxF 4 9 (.vs 18) 5),
    (0xC8244CAE, .vsgnjF 4 9 (.vs 18) 5), (0xC804482F, .vabsF 4 9 5)] = true := by decide
theorem test_decode_R107 : reads [
    (0xC8A44CA8, .vfma 4 9 (.vs 18) 5), (0xC8A44CA9, .vfms 4 9 (.vs 18) 5), (0xC8A44CAA, .vfnma 4 9 (.vs 18) 5),
    (0xC8A44CAB, .vfnms 4 9 (.vs 18) 5), (0xC884482C, .vsqrt 4 9 5), (0xC884482D, .vrsq 4 9 5),
    (0xC884482E, .vrcp 4 9 5), (0xC884482F, .vnegF 4 9 5)] = true := by decide
theorem test_decode_R108 : reads [
    (0xC9244CA8, .vfeq 4 9 (.vs 18) 5), (0xC9244CA9, .vfne 4 9 (.vs 18) 5), (0xC9244CAA, .vflt 4 9 (.vs 18) 5),
    (0xC9244CAB, .vfle 4 9 (.vs 18) 5), (0xC9244CAC, .vfgt 4 9 (.vs 18) 5), (0xC9244CAD, .vfge 4 9 (.vs 18) 5),
    (0xC9244CAE, .vfuo 4 9 (.vs 18) 5), (0xC904482F, .vfcls 4 9 5), (0xCAA44CA8, .veq 4 9 (.vs 18) 5),
    (0xCAA44CA9, .vne 4 9 (.vs 18) 5), (0xCAA44CAA, .vlt 4 9 (.vs 18) 5), (0xCAA44CAB, .vltu 4 9 (.vs 18) 5),
    (0xCAA44CAC, .vle 4 9 (.vs 18) 5), (0xCAA44CAD, .vleu 4 9 (.vs 18) 5), (0xCAA44CAE, .vgt 4 9 (.vs 18) 5),
    (0xCAA44CAF, .vgtu 4 9 (.vs 18) 5)] = true := by decide
theorem test_decode_R109 : reads [
    (0xC9A44CA8, .vadd 4 9 (.vs 18) 5), (0xC9A44CA9, .vsub 4 9 (.vs 18) 5), (0xC9A44CAA, .vmul 4 9 (.vs 18) 5),
    (0xC9A44CAB, .vmulh 4 9 (.vs 18) 5), (0xC9A44CAC, .vmin 4 9 (.vs 18) 5), (0xC9A44CAD, .vmax 4 9 (.vs 18) 5),
    (0xC9A44CAE, .vminu 4 9 (.vs 18) 5), (0xC9A44CAF, .vmaxu 4 9 (.vs 18) 5), (0xCA244CA8, .vand 4 9 (.vs 18) 5),
    (0xCA244CA9, .vor 4 9 (.vs 18) 5), (0xCA244CAA, .vxor 4 9 (.vs 18) 5), (0xCA244CAB, .vsll 4 9 (.vs 18) 5),
    (0xCA244CAC, .vsrl 4 9 (.vs 18) 5), (0xCA244CAD, .vsra 4 9 (.vs 18) 5), (0xCA244CAE, .vsadd 4 9 (.vs 18) 5),
    (0xCA244CAF, .vssub 4 9 (.vs 18) 5)] = true := by decide
theorem test_decode_R110 : reads [
    (0xCB044828, .vcvfI 4 9 5), (0xCB044829, .vcviF 4 9 5), (0xCB04482A, .vcviFz 4 9 5), (0xCB04482C, .vflr 4 9 5),
    (0xCB04482D, .vfrac 4 9 5), (0xCB04482E, .vexpn 4 9 5), (0xCB244CAF, .vldexp 4 9 (.vs 18) 5)] = true := by decide
theorem test_decode_R111 : reads [
    (0xCB04482B, .vrndb 4 9 5)] = true := by decide
theorem test_decode_R112 : reads [
    (0xCB844828, .vsumO 4 9 5), (0xCB844829, .vsumU 4 9 5), (0xCB844CAA, .vdotO 4 9 18 5),
    (0xCB84482B, .vmaxr 4 9 5), (0xCB84482C, .vminr 4 9 5), (0xCB84482D, .visum 4 9 5)] = true := by decide
theorem test_decode_R113 : reads [
    (0xCBA44CAE, .vscanO 4 9 18 5), (0xCBA44CAF, .vscanU 4 9 18 5)] = true := by decide
theorem test_decode_R114 : reads [
    (0xCC244CA8, .vslup 4 9 (.vs 18) 5), (0xCC244CA9, .vsldn 4 9 (.vs 18) 5), (0xCC044CAA, .vperm 4 9 18 5),
    (0xCC044C83, .vcomp 4 9 18), (0xCC04482C, .viota 4 9 5), (0xCC244CAD, .vmerge 4 9 (.vs 18) 5),
    (0xCC04482E, .vmvVv 4 9 5), (0xCC2404AE, .vmvVsVi 4 (.vs 18) 5), (0xCC244C87, .vext 4 9 18)] = true := by decide
theorem test_decode_R115 : reads [
    (0xCC844CA8, .mand 4 9 18 5), (0xCC844CA9, .mor 4 9 18 5), (0xCC844CAA, .mxor 4 9 18 5),
    (0xCC844CAB, .mandn 4 9 18 5), (0xCC84482C, .mnot 4 9 5), (0xCC84002D, .mset 4 5), (0xCC84002E, .mclr 4 5),
    (0xCC84482F, .mfromv 4 9 5)] = true := by decide
theorem test_decode_R117 : reads [
    (0xCD444840, .grant 4 9 1)] = true := by decide
theorem test_decode_R118 : reads [
    (0xCD244C81, .grantx 4 9 18)] = true := by decide
theorem test_decode_R123 : reads [
    (0xCDC4486B, .vldu 2 4 9 1 5 3), (0xCE444CAB, .vlds 2 4 9 18 5 3), (0xCEC44CAB, .vldx 2 4 9 18 5 3)] = true := by decide
theorem test_decode_R122 : reads [
    (0xCF4448AB, .vldm 2 4 9 2 5 3), (0xD14448AB, .vstm 2 4 9 2 5 3)] = true := by decide
theorem test_decode_R124 : reads [
    (0xCFC4482B, .vstu 2 4 9 5 3), (0xD0444CAB, .vsts 2 4 9 18 5 3), (0xD0C44CAB, .vstx 2 4 9 18 5 3)] = true := by decide
theorem test_decode_R129 : reads [
    (0xD1C44CA8, .vaaddO 2 4 9 18 5), (0xD1C44CA9, .vaaddU 2 4 9 18 5), (0xD1C44CAA, .vaaddi 2 4 9 18 5),
    (0xD1C44CAB, .vamaxi 2 4 9 18 5), (0xD1C44CAC, .vamini 2 4 9 18 5), (0xD1C44CAD, .vaswp 2 4 9 18 5),
    (0xD1C44CAE, .vaor 2 4 9 18 5), (0xD1C44CAF, .vaand 2 4 9 18 5)] = true := by decide
theorem test_decode_R130 : reads [
    (0xD2044C88, .amoadd 4 9 18 1), (0xD2044C89, .amoswp 4 9 18 1), (0xD2044C8A, .amocas 4 9 18 1),
    (0xD2044C8B, .amomax 4 9 18 1), (0xD204480C, .ldacq 4 9 1), (0xD2004C8D, .strel 9 18 1)] = true := by decide
theorem test_decode_R131 : reads [
    (0xD200000E, .fence 1), (0xD200004F, .sbar 1 1)] = true := by decide
theorem test_decode_R161 : reads [
    (0xD2C448A8, .vldc 2 4 9 2 5), (0xD2C448A9, .vstc 2 4 9 2 5), (0xD2C448AA, .vacadO 2 4 9 2 5),
    (0xD2C448AB, .vacadU 2 4 9 2 5), (0xD2C448AC, .vprbc 2 4 9 2 5)] = true := by decide
theorem test_decode_R163 : reads [
    (0xD2C04885, .vclbinv 2 9 2)] = true := by decide
theorem test_decode_R160 : reads [
    (0xD2C04886, .vsetvol 2 9 2)] = true := by decide
theorem test_decode_R132 : reads [
    (0xD3044C80, .tlblock 4 9 18), (0xD3004801, .tlbunlk 9)] = true := by decide
theorem test_decode_R134 : reads [
    (0xD3044802, .tlbprb 4 9)] = true := by decide
theorem test_decode_R141 : reads [
    (0xD3844800, .mattach 4 9)] = true := by decide
theorem test_decode_R140 : reads [
    (0xD3844802, .msetvl 4 9), (0xD3840003, .mzero 4), (0xD3844C84, .mknot 4 9 18), (0xD3844C85, .mgsel 4 9 18)] = true := by decide
theorem test_decode_R143 : reads [
    (0xD3A40486, .mresc 4 (.vs 18))] = true := by decide
theorem test_decode_R144 : reads [
    (0xD4244C80, .troww 4 9 (.vs 18)), (0xD4244C81, .trowr 4 9 (.vs 18)), (0xD4244C82, .tcolw 4 9 (.vs 18)),
    (0xD4244C83, .tcolr 4 9 (.vs 18)), (0xD4244C86, .ainsr 4 9 (.vs 18)), (0xD4040007, .tzero 4)] = true := by decide
theorem test_decode_R145 : reads [
    (0xD4244C84, .aextr 4 9 (.vs 18)), (0xD4244C85, .aextc 4 9 (.vs 18))] = true := by decide
theorem test_decode_R147 : reads [
    (0xD4844C80, .mldc 4 9 18), (0xD4844C81, .mstc 4 9 18)] = true := by decide
theorem test_decode_R152 : reads [
    (0xD4840002, .mrefn 4)] = true := by decide
theorem test_decode_R148 : reads [
    (0xD484482B, .mma 4 9 5)] = true := by decide
theorem test_decode_R149 : reads [
    (0xD4844C84, .mspld 4 9 18)] = true := by decide
theorem test_decode_R150 : reads [
    (0xD4844C85, .mopa 4 9 18)] = true := by decide
theorem test_decode_R151 : reads [
    (0xD4844C86, .msplg 4 9 18)] = true := by decide
theorem test_decode_R165 : reads [
    (0xD5644870, .ecopy 3 4 9 1 1 2)] = true := by decide
theorem test_decode_R166 : reads [
    (0xD5644811, .ecoll 3 4 9 2)] = true := by decide
theorem test_decode_R168 : reads [
    (0xD500480A, .epub 9 1), (0xD5004803, .ewait 9), (0xD5044804, .epoll 4 9), (0xD5044C85, .esig 4 9 18)] = true := by decide
theorem test_decode_R173 : reads [
    (0xD5844802, .uimask 4 9), (0xD5804803, .uiraise 9), (0xD5800000, .uiret), (0xD5800001, .uiwait)] = true := by decide
theorem test_decode_R68_16 : reads16 [
    (0x092B, .cAddi 4 43), (0x112B, .cLi 4 43), (0x192B, .cLd 4 43), (0x212B, .cSd 4 43), (0x292B, .cLw 4 43),
    (0x312B, .cSw 4 43), (0x4112, .cMv 4 9), (0x4912, .cAdd 4 9), (0x5112, .cSub 4 9), (0x5912, .cGrant 4 9),
    (0x6565, .cJ 1381), (0x6A6B, .cBeqz 9 43), (0x726B, .cBnez 9 43), (0x8000, .cNop), (0x8800, .cSclose),
    (0x9000, .cCvy)] = true := by decide
theorem test_decode_R99 : reads [
    (0xC0000000, .nop), (0xC0000001, .ecall), (0xC0000002, .ebreak), (0xC0000003, .tret), (0xC0000004, .wfi),
    (0xC0000006, .fencei)] = true := by decide
theorem test_decode_R32 : reads [
    (0xC0000005, .cvy)] = true := by decide
theorem test_decode_R94 : reads [
    (0xC6200000, .lexit)] = true := by decide
theorem test_decode_R119 : reads [
    (0xCD000002, .sclose)] = true := by decide
theorem test_decode_R142 : reads [
    (0xD3800001, .mdetach)] = true := by decide
/-- R64 and its table: X is 111, PAIR, CHUNKS, KNOT, KBASE, FL; W is major 0x30 with D, A, M and the minor. -/
theorem test_decode_R64 : reads64 [
    (0b111_01100_0000000100_00_00000000_1000, 0b110_110000_00_00010_01010_00000_101_000, .tmma 2 10 5 12 4 true),
    (0b111_01110_1111111111_00_00000000_0000, 0b110_110000_00_00001_01000_00000_001_001, .tsplf 1 8 1 14 1023 false),
    (0b111_00110_0000000010_00_00000000_1000, 0b110_110000_00_00000_00100_00000_000_010, .tspld 0 4 6 2 true),
    (0b111_00110_0000000011_00_01000000_0000, 0b110_110000_00_00011_00100_00000_000_011, .topa 3 4 6 3 64 false),
    (0b111_00110_0000000011_00_10000001_1000, 0b110_110000_00_00011_00100_00000_000_100, .tsplg 3 4 6 3 129 true),
    (0b111_00000_0000000111_10_00000011_0000, 0b110_110000_00_01111_10100_00000_000_101, .tldc 15 20 7 2 3),
    (0b111_00000_0000000001_00_11111111_0000, 0b110_110000_00_01000_10100_00000_000_110, .tstc 8 20 1 255)] = true := by decide

/-- Words the spec writes out: 05 Example 1; 06 Examples 1 and 3; 13's TLDC; 03's TMMA and its reserved flag. -/
theorem test_decode_examples : reads [(0xC264FFF0, .liy 4 0xFFF0), (0xC8C8879B, .vfnms 8 16 (.vi 0b11110) 3),
    (0xCB834010, .vsumO 3 8 2), (0xCBA44187, .vscanU 4 8 6 0), (0xCA4217C3, .vsll 2 2 (.vi 31) 0),
    (0xCC0C2143, .vcomp 12 4 5), (0xCC830883, .mandn 3 1 2 0)] = true := by decide
theorem test_decode_examples64 : reads64 [(0xE001C000, 0xD800A005, .tldc 0 20 7 0 0),
    (0xEC010008, 0xD8005000, .tmma 0 10 0 12 4 true)] = true := by decide

/-- R70: a reserved form, minor, scope, count or flag, and a major that has no instruction, decode to nothing. -/
theorem test_decode_reserved : [parcels 0xCC000000, parcels 0xC080003F, parcels 0xD2044C9C, parcels 0xCF404800,
    parcels 0xDF800000, parcels 0xEC010001 ++ parcels 0xD8005000, [0xC000#16], []].all
    (fun p => (decodeParcels p).toOption.isNone) = true := by decide

/-! ### Ill-formed terms, each refused by its check; and a well-formed one of each shape -/

theorem test_wf_form : [Instr.vslup 1 2 (.vv 3) 0, .vsldn 1 2 (.vv 3) 0, .vmvVsVi 1 (.vv 3) 0, .mresc 1 (.vv 3), .troww 1 2 (.vv 3),
    .trowr 1 2 (.vv 3), .tcolw 1 2 (.vv 3), .tcolr 1 2 (.vv 3), .aextr 1 2 (.vv 3), .aextc 1 2 (.vv 3),
    .ainsr 1 2 (.vv 3)].all (fun i => !i.wellFormed) = true := by decide
theorem test_wf_count : [Instr.vldm 0 1 2 0 0 0, .vstm 0 1 2 0 0 0].all (fun i => !i.wellFormed) = true := by decide
theorem test_wf_scope : [Instr.amoadd 1 2 3 3, .amoswp 1 2 3 3, .amocas 1 2 3 3, .amomax 1 2 3 3, .ldacq 1 2 3, .strel 1 2 3,
    .fence 3, .sbar 1 3, .epub 1 3].all (fun i => !i.wellFormed) = true := by decide
theorem test_wf_hart : [Instr.codeArrivalTimeout 384, .grantRevocation 384 1, .grantWaitEnd 384, .revocationProtectionExpiry 384,
    .preemptionRequest 384, .preemptionExpiry 384, .contextRestore 384, .userInterruptEntry 384, .wfiWake 384,
    .engineQueueStallEnd 384, .ewaitResume 384, .workgroupHandoff 0 384, .launchFaultedEnd 0 384].all
    (fun i => !i.wellFormed) = true := by decide
theorem test_wf_queue : [Instr.ecopyCompletion 0 4, .collectiveFormation 0 4 [], .ecollCompletion 0 4, .esigWrite 0 4,
    .collectiveFailureReport 0 4 0, .engineErrorCompletion 0 4 0 0, .engineSourceTranslationFault 0 4 0,
    .engineTranslationResolved 0 4 true, .engineQueueFreeze 0 4 0].all (fun i => !i.wellFormed) = true := by decide
theorem test_wf_stream : [Instr.strtailWrite 0 16 0, .strctlWrite 193 0 0, .strstatStoppedClear 0 16 0, .streamRegisterWrite 193 0 0 0,
    .ringSlotFetch 0 16, .launch 193 0, .waitv 0 16, .waitvPoll 193 0, .waitvTimeout 0 16, .signal 193 0, .copyData 0 16,
    .copyObjectLoad 193 0, .copyObjectRelease 0 16, .objectReleaseCompletion 193 0, .commandFence 0 16,
    .functionLevelReset 193].all (fun i => !i.wellFormed) = true := by decide
theorem test_wf_part : [Instr.rgntabWrite 16 0, .firstStageInvalidation 16 0 0 0, .secondStageInvalidation 16 0 0,
    .partitionDestroy 16, .partitionResize 16 [], .timeShareSwitch 16, .partitionTeardown 16, .envelopeChange 16 0,
    .serviceWindowExpiry 16 0 0].all (fun i => !i.wellFormed) = true := by decide
theorem test_wf_device : [Instr.govctlWrite 192 0, .vaultZeroCompletion 192, .vaultPatrolScrub 192, .coreRetire 192,
    .laneSliceRetire 0 16, .arrayTileRowRetire 48 0, .arrayTileRowRetire 0 16, .hbmPatrolScrub 8, .boot 4,
    .firmwareUpdate 4 true [] [], .flitCrcFailure 24, .linkDown 24, .linkLaneRetrain 24, .pathLoss 0, .pathLoss 193,
    .pathRestored 193 1, .attestationQuote []].all (fun i => !i.wellFormed) = true := by decide
theorem test_wf_partition_request : (Instr.partitionCreate ⟨16, [0], 1, 1, 0, 5, none, [], [0], 0, false, [], 0⟩).wellFormed = false := by
  decide
theorem test_wf_rejection : (Instr.remoteRejectionArrival ⟨384, none, true, 0, 0, 0, 0, 0, 0, 0, 0, false, 0⟩).wellFormed = false := by decide
theorem test_wf_accepted : [Instr.vslup 1 2 (.vi 3) 0, .vldm 0 1 2 1 0 0, .amoadd 1 2 3 2, .epub 1 2, .wfiWake 383,
    .esigWrite 383 3, .launch 192 15, .envelopeChange 15 0, .govctlWrite 191 0, .arrayTileRowRetire 47 15,
    .pathLoss 192].all Instr.wellFormed = true := by decide

/-! ### Single steps. Results are worked out by hand from the rule named, or are the spec's own examples. -/

def after (o : Out) : State :=
  match o with
  | .next t => t
  | _ => State.reset

def nexts (o : Out) : Bool :=
  match o with
  | .next _ => true
  | _ => false

theorem next_of_nexts {o : Out} (h : nexts o = true) : o = .next (after o) := by
  cases o <;> simp_all [nexts, after]

def regs (l : List (BitVec 5 × Word)) (s : State) : State := l.foldl (fun s p => s.setX p.1 p.2) s

/-- Fresh vector registers with their elements, keys rising. -/
def vecs (l : List (Nat × List Elem)) (s : State) : State :=
  l.foldl (fun s p => { s with hart := { s.hart with vregs := s.hart.vregs.setIfInBounds p.1 ⟨false, clist 0 p.2⟩ } }) s

def masks (l : List (Nat × MaskBits)) (s : State) : State :=
  l.foldl (fun s p => { s with hart := { s.hart with mregs := s.hart.mregs.setIfInBounds p.1 ⟨false, p.2⟩ } }) s

/-- Memory is mapped: virtual addresses are physical ones. -/
def mapped : State := State.reset.withFetchWord 32 0xC0000000

/-- An open strip of four elements, one row (a GRANTX with a quantum of 1 gives such a width). -/
def strip : State := mapped.withCsr { mapped.hart.csr with so := true, gvl := 4, vl := 4 }

def kernel (s : State) : State := { s with hart := { s.hart with priv := .supervisor } }
def trapTo (v : Word) (s : State) : State := s.withSup { s.hart.sup with tvec := v }

/-- What an instruction leaves in s3. -/
def x3 (s : State) (i : Instr) : Word := (after (exec i s)).x 3
/-- The first four elements it leaves in v4. -/
def v4 (s : State) (i : Instr) : List Elem := (List.range 4).map ((after (exec i s)).elem 4)
/-- The first four bits it leaves in m3. -/
def m3 (s : State) (i : Instr) : List Bool := (List.range 4).map ((after (exec i s)).mreg 3).bit

/-! s1 = -7, s2 = 3 (R83 to R85). -/

def two : State := regs [(1, 0xFFFFFFFFFFFFFFF9), (2, 3)] State.reset

theorem test_add_sub : [Instr.add 3 1 2, .sub 3 1 2].map (x3 two) = [0xFFFFFFFFFFFFFFFC, 0xFFFFFFFFFFFFFFF6] := by decide
theorem test_logic : [Instr.and 3 1 2, .or 3 1 2, .xor 3 1 2].map (x3 two) =
    [1, 0xFFFFFFFFFFFFFFFB, 0xFFFFFFFFFFFFFFFA] := by decide
theorem test_shifts : [Instr.sll 3 1 2, .srl 3 1 2, .sra 3 1 2].map (x3 two) =
    [0xFFFFFFFFFFFFFFC8, 0x1FFFFFFFFFFFFFFF, 0xFFFFFFFFFFFFFFFF] := by decide
theorem test_shift_count_mod_64 : x3 (regs [(1, 1), (2, 65)] State.reset) (.sll 3 1 2) = 2 := by decide
theorem test_compare : [Instr.slt 3 1 2, .sltu 3 1 2, .min 3 1 2, .max 3 1 2, .minu 3 1 2, .maxu 3 1 2].map (x3 two) =
    [1, 0, 0xFFFFFFFFFFFFFFF9, 3, 3, 0xFFFFFFFFFFFFFFF9] := by decide
theorem test_multiply : [Instr.mul 3 1 2, .mulh 3 1 2, .mulhu 3 1 2].map (x3 two) =
    [0xFFFFFFFFFFFFFFEB, 0xFFFFFFFFFFFFFFFF, 2] := by decide
theorem test_divide : [Instr.div 3 1 2, .divu 3 1 2, .rem 3 1 2, .remu 3 1 2].map (x3 two) =
    [0xFFFFFFFFFFFFFFFE, 0x5555555555555553, 0xFFFFFFFFFFFFFFFF, 0] := by decide
theorem test_divide_by_zero : [Instr.div 3 1 0, .divu 3 1 0, .rem 3 1 0, .remu 3 1 0].map (x3 two) =
    [0xFFFFFFFFFFFFFFFF, 0xFFFFFFFFFFFFFFFF, 0xFFFFFFFFFFFFFFF9, 0xFFFFFFFFFFFFFFF9] := by decide
theorem test_divide_overflow : [Instr.div 3 1 2, .rem 3 1 2].map
    (x3 (regs [(1, 0x8000000000000000), (2, 0xFFFFFFFFFFFFFFFF)] State.reset)) = [0x8000000000000000, 0] := by decide
theorem test_bit_counts : [Instr.clz 3 2, .ctz 3 2, .popc 3 1, .clz 3 0, .ctz 3 0].map (x3 two) = [62, 0, 62, 64, 64] := by decide
theorem test_zero_register : (after (exec (.add 0 1 2) two)).x 0 = 0 := by decide
theorem test_immediates : [Instr.addi 3 2 (-8), .andi 3 1 0x00C, .ori 3 2 0x7F0, .xori 3 2 (-1), .slli 3 2 63, .srli 3 1 60,
    .srai 3 1 1, .slti 3 1 (-6)].map (x3 two) =
    [0xFFFFFFFFFFFFFFFB, 8, 0xFFFFFFFFFFFFFFF3, 0xFFFFFFFFFFFFFFFC, 0x8000000000000000, 15, 0xFFFFFFFFFFFFFFFC, 1] := by decide
theorem test_load_immediates : [Instr.lil 1 0x8000, .lih 1 0x1234, .lix 1 0x1234, .liy 1 0x1234].map
    (fun i => (after (exec i two)).x 1) =
    [0xFFFFFFFFFFFF8000, 0xFFFFFFFF1234FFF9, 0xFFFF1234FFFFFFF9, 0x1234FFFFFFFFFFF9] := by decide
theorem test_compressed : [Instr.cAddi 1 (-1), .cLi 1 (-32), .cMv 1 2, .cAdd 1 2, .cSub 1 2].map
    (fun i => ((after (exec i two)).x 1, (after (exec i two)).hart.pc)) =
    [(0xFFFFFFFFFFFFFFF8, 0x400002), (0xFFFFFFFFFFFFFFE0, 0x400002), (3, 0x400002), (0xFFFFFFFFFFFFFFFC, 0x400002),
     (0xFFFFFFFFFFFFFFF6, 0x400002)] := by decide

/-! Accesses at 0x1000, which holds FE FF FF FF 7F in its lowest bytes; s30 is the compressed base (R69, R86, R87). -/

def data : State :=
  let s := regs [(1, 0x1000), (2, 0x8899AABBCCDDEEFF), (30, 0x0FF8)] mapped
  { s with mem := writeCells s.mem 0x1000 [0xFE, 0xFF, 0xFF, 0xFF, 0x7F] }

theorem test_loads : [Instr.lb 3 1 0, .lh 3 1 0, .lw 3 1 0, .ld 3 1 0, .lbu 3 1 0, .lhu 3 1 0, .lwu 3 1 0].map (x3 data) =
    [0xFFFFFFFFFFFFFFFE, 0xFFFFFFFFFFFFFFFE, 0xFFFFFFFFFFFFFFFE, 0x7FFFFFFFFE, 0xFE, 0xFFFE, 0xFFFFFFFE] := by decide
theorem test_compressed_loads : [Instr.cLd 3 1, .cLw 3 2].map (x3 data) = [0x7FFFFFFFFE, 0xFFFFFFFFFFFFFFFE] := by decide
theorem test_stores : [Instr.sb 2 1 0, .sh 2 1 0, .sw 2 1 0, .sd 2 1 0, .cSd 2 1, .cSw 2 2].map
    (fun i => leNat ((after (exec i data)).bytes 0x1000 8)) =
    [0x7FFFFFFFFF, 0x7FFFFFEEFF, 0x7FCCDDEEFF, 0x8899AABBCCDDEEFF, 0x8899AABBCCDDEEFF, 0x7FCCDDEEFF] := by decide
theorem test_store_buffered : (after (exec (.sd 2 1 0) (data.withCsr strip.hart.csr))).bytes 0x1000 1 = [0xFE] := by decide
theorem test_misaligned : (after (exec (.lw 3 1 1) (trapTo 0x9000 data))).hart.record.fcause = 0x14 := by decide

/-! Control (R88 to R95). The pc is 0x400000; s1 = -7, s2 = 3. -/

theorem test_branches : [Instr.beqz 1 8, .bnez 1 8, .bltz 1 8, .bgez 1 8, .bgtz 2 8, .blez 2 8, .bbs 2 8, .bbc 2 (-8), .beqz 0 (-8),
    .cBeqz 0 (-4), .cBnez 0 (-4)].map (fun i => (after (exec i two)).hart.pc) =
    [0x400004, 0x400010, 0x400010, 0x400004, 0x400010, 0x400004, 0x400010, 0x400004, 0x3FFFF0, 0x3FFFF8, 0x400002] := by decide
theorem test_jumps : [Instr.j 3, .cJ (-1), .jal (-2), .jr 2 6, .jalr 3 2 8].map (fun i =>
    ((after (exec i two)).hart.pc, (after (exec i two)).x 31, (after (exec i two)).x 3)) =
    [(0x400006, 0, 0), (0x3FFFFE, 0, 0), (0x3FFFFC, 0x400004, 0), (8, 0, 0), (10, 0, 0x400004)] := by decide
theorem test_loop : ((after (exec (.loop 2 4) two)).hart.loops, (after (exec .nop { two with hart := { two.hart with
    loops := [⟨0x3FFFF8, 0x400004, 2⟩] } })).hart.pc) = ([⟨0x400004, 0x40000C, 3⟩], 0x3FFFF8) := by decide
theorem test_lexit : ((after (exec .lexit { two with hart := { two.hart with loops := [⟨0x3FFFF8, 0x400100, 2⟩] } })).hart.loops,
    (after (exec .lexit two)).hart.pc) = ([], 0x400004) := by decide
theorem test_only_goes_on : [Instr.nop, .cNop, .pref 1 0, .fencei, .cvy, .cCvy].map (fun i => (after (exec i two)).hart.pc) =
    [0x400004, 0x400002, 0x400004, 0x400004, 0x400004, 0x400002] := by decide
theorem test_ecall : (let t := after (exec .ecall (trapTo 0x9000 two))
    (t.hart.priv, t.hart.pc, t.hart.sup.tcause, t.hart.sup.tepc)) = (.supervisor, 0x9000, 0x15, 0x400004) := by decide
theorem test_ebreak : (let t := after (exec .ebreak (trapTo 0x9000 two)); (t.hart.sup.tcause, t.hart.sup.pp)) =
    (0x16, .user) := by decide
theorem test_tret : (let t := after (exec .tret (kernel (two.withSup { two.hart.sup with tepc := 0x1234 })))
    (t.hart.priv, t.hart.pc)) = (.user, 0x1234) := by decide
theorem test_tret_at_user : (after (exec .tret (trapTo 0x9000 two))).hart.sup.tcause = 0x01 := by decide
theorem test_wfi : (after (exec .wfi two)).hart.run = .waiting .wfi := by decide
theorem test_no_trap_entry : (after (exec .illegalEncoding two)).hart.run = .stopped 0x01 := by decide

/-! CSRs (R20, R21). -/

theorem test_csr_write_and_read : (let t := after (exec (.csrw 3 1 0x003) two); (t.hart.csr.rmode, t.x 3)) = (1, 0) := by decide
theorem test_csr_set_and_clear : (let s := two.withCsr { two.hart.csr with fflags := 0x18 }
    ((after (exec (.csrs 3 2 0x006) s)).hart.csr.fflags, (after (exec (.csrc 3 1 0x006) s)).hart.csr.fflags, x3 s (.csrr 3 0x006))) =
    (0x1B, 0x00, 0x18) := by decide
theorem test_csr_supervisor_only : (after (exec (.csrr 3 0x200) (trapTo 0x9000 two))).hart.sup.tcause = 0x01 := by decide
theorem test_csr_unassigned : (after (exec (.csrr 3 0x7FF) (trapTo 0x9000 two))).hart.sup.tcause = 0x02 := by decide
theorem test_govctl : (let t := after (exec (.govctlWrite 0 0x47) two); (t.core.gov.en, t.core.gov.hart, t.core.gov.len, t.core.gov.hold)) =
    (true, true, 1, true) := by decide

/-! Vector arithmetic. v8 = 1.5, -2.0, NaN, 0.5 and v12 = 2.25, 3.0, 1.0, -0.5 as FP32 (R106 to R108). -/

def floats : State := vecs [(8, [0x3FC00000, 0xC0000000, 0x7FC00000, 0x3F000000]),
  (12, [0x40100000, 0x40400000, 0x3F800000, 0xBF000000])] strip

theorem test_vadd_f : v4 floats (.vaddF 4 8 (.vv 12) 0) = [0x40700000, 0x3F800000, 0x7FC00000, 0] := by decide
theorem test_vsub_f : v4 floats (.vsubF 4 8 (.vv 12) 0) = [0xBF400000, 0xC0A00000, 0x7FC00000, 0x3F800000] := by decide
theorem test_vmul_f : v4 floats (.vmulF 4 8 (.vv 12) 0) = [0x40580000, 0xC0C00000, 0x7FC00000, 0xBE800000] := by decide
theorem test_vdiv_f : (v4 floats (.vdivF 4 8 (.vi 0) 0), (after (exec (.vdivF 4 8 (.vi 0) 0) floats)).hart.csr.fflags) =
    ([0x7F800000, 0xFF800000, 0x7FC00000, 0x7F800000], 0x08) := by decide
theorem test_vmin_vmax_f : (v4 floats (.vminF 4 8 (.vv 12) 0), v4 floats (.vmaxF 4 8 (.vv 12) 0)) =
    ([0x3FC00000, 0xC0000000, 0x7FC00000, 0xBF000000], [0x40100000, 0x40400000, 0x7FC00000, 0x3F000000]) := by decide
theorem test_signs : (v4 floats (.vsgnjF 4 8 (.vv 12) 0), v4 floats (.vabsF 4 8 0), v4 floats (.vnegF 4 8 0)) =
    ([0x3FC00000, 0x40000000, 0x7FC00000, 0xBF000000], [0x3FC00000, 0x40000000, 0x7FC00000, 0x3F000000],
     [0xBFC00000, 0x40000000, 0xFFC00000, 0xBF000000]) := by decide
/-- v4 starts as 1.0, 1.0, 1.0, 1.0: 1.5 × 2.25 = 3.375, and ±1. -/
theorem test_fused : (let s := vecs [(4, [0x3F800000, 0x3F800000, 0x3F800000, 0x3F800000])] floats
    let s := { s with hart := { s.hart with strip := { s.hart.strip with written := 0x10 } } }
    [Instr.vfma 4 8 (.vv 12) 0, .vfms 4 8 (.vv 12) 0, .vfnma 4 8 (.vv 12) 0, .vfnms 4 8 (.vv 12) 0].map fun i =>
      (v4 s i).getD 0 0) = [0x408C0000, 0x40180000, 0xC08C0000, 0xC0180000] := by decide
theorem test_roots : (let s := vecs [(8, [0x40800000, 0xBF800000, 0x40000000, 0])] strip
    (v4 s (.vsqrt 4 8 0), v4 s (.vrsq 4 8 0), v4 s (.vrcp 4 8 0))) =
    ([0x40000000, 0x7FC00000, 0x3FB504F3, 0], [0x3F000000, 0x7FC00000, 0x3F3504F3, 0x7F800000],
     [0x3E800000, 0xBF800000, 0x3F000000, 0x7F800000]) := by decide +kernel
theorem test_vf_compares : [Instr.vfeq 3 8 (.vv 12) 0, .vfne 3 8 (.vv 12) 0, .vflt 3 8 (.vv 12) 0, .vfle 3 8 (.vv 12) 0,
    .vfgt 3 8 (.vv 12) 0, .vfge 3 8 (.vv 12) 0, .vfuo 3 8 (.vv 12) 0].map (m3 floats) =
    [[false, false, false, false], [true, true, true, true], [true, true, false, false], [true, true, false, false],
     [false, false, false, true], [false, false, false, true], [false, false, true, false]] := by decide +kernel
theorem test_vfcls : v4 floats (.vfcls 4 8 0) = [0x40, 0x02, 0x100, 0x40] := by decide

/-! v8 = 5, -1, 2^31 - 1, 7 and v12 = 3, 1, 1, -7 as INT32 (R109). -/

def ints : State := vecs [(8, [5, 0xFFFFFFFF, 0x7FFFFFFF, 7]), (12, [3, 1, 1, 0xFFFFFFF9])] strip

theorem test_vadd_vsub : (v4 ints (.vadd 4 8 (.vv 12) 0), v4 ints (.vsub 4 8 (.vv 12) 0)) =
    ([8, 0, 0x80000000, 0], [2, 0xFFFFFFFE, 0x7FFFFFFE, 14]) := by decide
theorem test_vmul_vmulh : (v4 ints (.vmul 4 8 (.vv 12) 0), v4 ints (.vmulh 4 8 (.vv 12) 0)) =
    ([15, 0xFFFFFFFF, 0x7FFFFFFF, 0xFFFFFFCF], [0, 0xFFFFFFFF, 0, 0xFFFFFFFF]) := by decide
theorem test_vmin_vmax : [Instr.vmin 4 8 (.vv 12) 0, .vmax 4 8 (.vv 12) 0, .vminu 4 8 (.vv 12) 0, .vmaxu 4 8 (.vv 12) 0].map (v4 ints) =
    [[3, 0xFFFFFFFF, 1, 0xFFFFFFF9], [5, 1, 0x7FFFFFFF, 7], [3, 1, 1, 7], [5, 0xFFFFFFFF, 0x7FFFFFFF, 0xFFFFFFF9]] := by decide
theorem test_vlogic : [Instr.vand 4 8 (.vv 12) 0, .vor 4 8 (.vv 12) 0, .vxor 4 8 (.vv 12) 0].map (v4 ints) =
    [[1, 1, 1, 1], [7, 0xFFFFFFFF, 0x7FFFFFFF, 0xFFFFFFFF], [6, 0xFFFFFFFE, 0x7FFFFFFE, 0xFFFFFFFE]] := by decide
theorem test_vshifts : [Instr.vsll 4 8 (.vi 31) 0, .vsrl 4 8 (.vi 4) 0, .vsra 4 8 (.vi 31) 0].map (v4 ints) =
    [[0x80000000, 0x80000000, 0x80000000, 0x80000000], [0, 0x0FFFFFFF, 0x07FFFFFF, 0], [0, 0xFFFFFFFF, 0, 0]] := by decide
theorem test_vsaturate : (v4 ints (.vsadd 4 8 (.vv 12) 0), v4 ints (.vssub 4 8 (.vi (-1)) 0)) =
    ([8, 0, 0x7FFFFFFF, 0], [6, 0, 0x7FFFFFFF, 8]) := by decide
theorem test_vcompares : [Instr.veq 3 8 (.vi 5) 0, .vne 3 8 (.vi 5) 0, .vlt 3 8 (.vi 5) 0, .vltu 3 8 (.vi 6) 0, .vle 3 8 (.vi 5) 0,
    .vleu 3 8 (.vi 5) 0, .vgt 3 8 (.vi 5) 0, .vgtu 3 8 (.vi 5) 0].map (m3 ints) =
    [[true, false, false, false], [false, true, true, true], [false, true, false, false], [true, false, false, false],
     [true, true, false, false], [true, false, false, false], [false, false, true, true], [false, true, true, true]] := by decide +kernel
/-- A masked-off element keeps its value, a tail element follows TP (R18, R103). -/
theorem test_masked_and_tail : (let s := masks [(1, 0b0101)] (vecs [(4, [9, 9, 9, 9])] ints)
    let s := s.withCsr { s.hart.csr with vl := 3 }
    let z := s.withCsr { s.hart.csr with tp := true }
    (v4 s (.vadd 4 8 (.vv 12) 1), v4 z (.vadd 4 8 (.vv 12) 1))) = ([8, 9, 0x80000000, 9], [8, 9, 0x80000000, 0]) := by decide +kernel

/-! Conversions (R110, R111). v8 = 2.5, -2.5, 3e9, NaN. -/

def mixedFloats : State := vecs [(8, [0x40200000, 0xC0200000, 0x4F32D05E, 0x7FC00000]), (12, [0xFFFFFFFD, 16777217, 0, 1])] strip

theorem test_conversions : (v4 mixedFloats (.vcvfI 4 12 0), v4 mixedFloats (.vcviF 4 8 0), v4 mixedFloats (.vcviFz 4 8 0)) =
    ([0xC0400000, 0x4B800000, 0, 0x3F800000], [2, 0xFFFFFFFE, 0x7FFFFFFF, 0], [2, 0xFFFFFFFE, 0x7FFFFFFF, 0]) := by decide
theorem test_floor_fraction : ((v4 mixedFloats (.vflr 4 8 0)).take 2, (v4 mixedFloats (.vfrac 4 8 0)).take 2) =
    ([0x40000000, 0xC0400000], [0x3F000000, 0x3F000000]) := by decide
theorem test_exponent_scale : ((v4 mixedFloats (.vexpn 4 8 0)).take 2, (v4 mixedFloats (.vldexp 4 8 (.vi 3) 0)).take 2) =
    ([1, 1], [0x41A00000, 0xC1A00000]) := by decide
theorem test_vrndb : v4 (vecs [(8, [0x3F808000, 0x3F818000, 0x3F808001, 0])] strip) (.vrndb 4 8 0) =
    [0x3F800000, 0x3F820000, 0x3F810000, 0] := by decide

/-! Reductions, scans, permutations, masks (R112 to R115). v8 = 1, 2, 3, 4 as FP32 or as integers. -/

def oneToFour : State := regs [(3, 0x41200000), (2, 0)] (vecs [(8, [0x3F800000, 0x40000000, 0x40400000, 0x40800000])] strip)
def counted : State := regs [(3, 10), (2, 2)] (masks [(1, 0b1010), (2, 0b0110)] (vecs [(8, [1, 2, 3, 4]), (12, [3, 0, 9, 1])] strip))

theorem test_reductions : [Instr.vsumO 3 8 0, .vsumU 3 8 0, .vdotO 3 8 8 0, .vmaxr 3 8 0, .vminr 3 8 0].map (x3 oneToFour) =
    [0x41A00000, 0x41A00000, 0x42200000, 0x41200000, 0x3F800000] := by decide
theorem test_visum : x3 counted (.visum 3 8 0) = 20 := by decide
theorem test_scans : (v4 oneToFour (.vscanO 4 8 2 0), v4 oneToFour (.vscanU 4 8 2 0)) =
    ([0x3F800000, 0x40400000, 0x40C00000, 0x41200000], [0x3F800000, 0x40400000, 0x40C00000, 0x41200000]) := by decide
theorem test_slides : (v4 (vecs [(4, [9, 9, 9, 9])] counted) (.vslup 4 8 (.vs 2) 0), v4 counted (.vsldn 4 8 (.vi 3) 0)) =
    ([9, 9, 1, 2], [4, 0, 0, 0]) := by decide +kernel
theorem test_vperm : v4 counted (.vperm 4 8 12 0) = [4, 1, 0, 2] := by decide +kernel
theorem test_vcomp_viota : (v4 (vecs [(4, [9, 9, 9, 9])] counted) (.vcomp 4 8 1), v4 counted (.viota 4 1 0)) =
    ([2, 4, 9, 9], [0, 0, 1, 1]) := by decide +kernel
theorem test_moves : (v4 counted (.vmerge 4 8 (.vi (-1)) 1), v4 counted (.vmvVv 4 8 0), v4 counted (.vmvVsVi 4 (.vs 3) 0), x3 counted (.vext 3 8 2)) =
    ([1, 0xFFFFFFFF, 3, 0xFFFFFFFF], [1, 2, 3, 4], [10, 10, 10, 10], 3) := by decide +kernel
theorem test_mask_logic : [Instr.mand 3 1 2 0, .mor 3 1 2 0, .mxor 3 1 2 0, .mandn 3 1 2 0, .mnot 3 1 0, .mset 3 0, .mclr 3 0,
    .mfromv 3 12 0].map (m3 counted) =
    [[false, true, false, false], [false, true, true, true], [false, false, true, true], [false, false, false, true],
     [true, false, true, false], [true, true, true, true], [false, false, false, false], [true, false, true, true]] := by decide +kernel
theorem test_mask_to_scalar : [Instr.mpopc 3 1, .mfirst 3 1, .many 3 1, .mall 3 1, .mtos 3 1 0].map (x3 counted) =
    [2, 1, 1, 0, 0b1010] := by decide +kernel
theorem test_stale_source : (after (exec (.vadd 4 9 (.vv 12) 0) (trapTo 0x9000 counted))).hart.record.fcause = 0x104 := by decide
theorem test_no_strip : (after (exec (.vadd 4 8 (.vv 12) 0) (trapTo 0x9000 two))).hart.sup.tcause = 0x05 := by decide

/-! Strips, vector memory, atomics (R117 to R134). -/

theorem test_grant : (let t := after (exec (.grant 1 2 0) (regs [(2, 5)] State.reset)); (t.x 1, t.vl, t.gvl, t.stripOpen)) =
    (5, 5, 1024, true) := by decide
theorem test_grant_rows : (let t := after (exec (.grant 1 2 0b101) (regs [(2, 5000)] State.reset)); (t.vl, t.rows, t.hart.csr.tp)) =
    (2048, 2, true) := by decide
/-- Cap 100, quantum 8: 96 elements a row. -/
theorem test_grantx : (let t := after (exec (.grantx 1 2 4) (regs [(2, 1000), (4, 0x640008)] State.reset)); (t.vl, t.gvl)) =
    (96, 96) := by decide
theorem test_close : (let t := after (exec .sclose (after (exec (.sd 2 1 0) (data.withCsr strip.hart.csr))))
    (leNat (t.bytes 0x1000 8), t.stripOpen, t.vl)) = (0x8899AABBCCDDEEFF, false, 0) := by decide

def inStrip : State := vecs [(8, [0, 4, 8, 12]), (12, [7, 7, 7, 7])]
  (let s := data.withCsr strip.hart.csr; { s with mem := writeCells s.mem 0x1000 ([1, 2, 3, 4, 5, 0, 6].flatMap (leBytes 4)) })

theorem test_vector_loads : [Instr.vldu 0 4 1 0 0 7, .vlds 0 4 1 4 0 7, .vldx 0 4 1 8 0 7].map (v4 (regs [(4, 8)] inStrip)) =
    [[1, 2, 3, 4], [1, 3, 5, 6], [1, 2, 3, 4]] := by decide +kernel
/-- Two by two with a row step of 8 bytes. -/
theorem test_vldm : v4 (inStrip.withCsr { inStrip.hart.csr with dim0 := 0x4_00000002, dim1 := 0x8_00000002 }) (.vldm 0 4 1 2 0 7) =
    [1, 2, 3, 4] := by decide +kernel
theorem test_vector_stores : [Instr.vstu 0 12 1 0 7, .vsts 0 12 1 4 0 7, .vstx 0 12 1 8 0 7].map (fun i =>
    let s := after (exec i (regs [(4, 8)] inStrip))
    (s.hart.strip.buf.length, s.bytes 0x1000 1, (after (exec .sclose s)).bytes 0x1000 1)) =
    [(4, [1], [7]), (4, [1], [7]), (4, [1], [7])] := by decide +kernel
theorem test_vector_atomics : [Instr.vaaddi 0 12 1 8 0, .vamaxi 0 12 1 8 0, .vamini 0 12 1 8 0, .vaswp 0 12 1 8 0, .vaor 0 12 1 8 0,
    .vaand 0 12 1 8 0].map (fun i => leNat ((after (exec .sclose (after (exec i inStrip)))).bytes 0x1008 4)) =
    [10, 7, 3, 7, 7, 3] := by decide +kernel
theorem test_scalar_atomics : [Instr.amoadd 3 1 2 0, .amoswp 3 1 2 0, .amocas 3 1 2 0, .amomax 3 1 2 0].map (fun i =>
    (x3 data i, leNat ((after (exec i data)).bytes 0x1000 8))) =
    [(0x7FFFFFFFFE, 0x8899AB3BCCDDEEFD), (0x7FFFFFFFFE, 0x8899AABBCCDDEEFF), (0x7FFFFFFFFE, 0x7FFFFFFFFE),
     (0x7FFFFFFFFE, 0x7FFFFFFFFE)] := by decide
theorem test_acquire_release : (x3 data (.ldacq 3 1 2), leNat ((after (exec (.strel 1 2 0) data)).bytes 0x1000 8)) =
    (0x7FFFFFFFFE, 0x8899AABBCCDDEEFF) := by decide
theorem test_tlblock_unlock : (let s := regs [(3, 1), (1, 0x1000), (2, 16)] mapped
    let t := after (exec (.tlblock 3 1 2) s)
    ((tget t.hart.locks 1).map (fun l => (l.base, l.len)), (after (exec (.tlbunlk 3) t)).hart.locks.length)) =
    (some (0x1000, 16), 0) := by decide

/-! Matrix state, volumes, engines, user interrupts (R140 to R174). -/

def matrixed : State := after (exec (.mattach 1 2) (regs [(2, 4)] mapped))
/-- A strip of four elements with matrix state attached. -/
def matrixStrip : State := vecs [(8, [0x3F800000, 0x40000000, 0x40400000, 0x40800000])]
  (regs [(3, 5)] (matrixed.withCsr { matrixed.hart.csr with so := true, gvl := 4, vl := 4 }))

theorem test_mattach : (matrixed.x 1, matrixed.core.matrix.map fun m => (m.owner, m.rows, m.mvl)) = (4, some (0, [0, 1, 2, 3], 256)) := by
  decide
theorem test_mdetach : (after (exec .mdetach matrixed)).core.matrix = none := by decide
theorem test_msetvl : (after (exec (.msetvl 4 2) matrixed)).core.matrix.map Matrix.mvl = some 4 := by decide
theorem test_tile_moves : (let t := after (exec (.troww 2 8 (.vi 1)) matrixStrip)
    (v4 t (.trowr 4 2 (.vi 1)), (v4 t (.tcolr 4 2 (.vi 3))).take 2)) =
    ([0x3F800000, 0x40000000, 0x40400000, 0x40800000], [0, 0x40800000]) := by decide +kernel
theorem test_accumulator_moves : (let t := after (exec (.ainsr 1 8 (.vi 2)) matrixStrip); v4 t (.aextr 4 1 (.vi 2))) =
    [0x3F800000, 0x40000000, 0x40400000, 0x40800000] := by decide +kernel
theorem test_no_matrix : (after (exec (.tzero 1) (trapTo 0x9000 strip))).hart.record.fcause = 0x10F := by decide
theorem test_epoll_idle : x3 (regs [(1, 0)] mapped) (.epoll 3 1) = 1 := by decide
theorem test_esig_now : leNat ((after (exec (.esig 4 1 2) (regs [(4, 0)] data))).bytes 0x1000 8) = 0x8899AABBCCDDEEFF := by decide
theorem test_ecopy : (let s := regs [(1, 0x2000)] mapped
    let t := after (exec (.ecopy 2 3 1 0 0 0) s)
    (t.x 3, (t.queue 2).ops.length, (t.queue 1).ops.length)) = (0x8000000000000001, 1, 0) := by decide +kernel
theorem test_uimask : (let t := after (exec (.uimask 3 1) (regs [(1, 0x12)] mapped)); (t.hart.ui.maskEq, t.hart.ui.maskRaise, t.x 3)) =
    (2, true, 0) := by decide
theorem test_uiraise_uiwait : (let s := regs [(1, 77)] (mapped.withUi { mapped.hart.ui with uivec := 0x5000 })
    let t := after (exec .uiwait (after (exec (.uiraise 1) s)))
    (t.hart.pc, t.hart.ui.value, t.hart.ui.kind, t.hart.ui.inHandler)) = (0x5000, 77, 1, true) := by decide
theorem test_uiret : (let t := after (exec .uiret (mapped.withUi { mapped.hart.ui with inHandler := true, uiepc := 0x6000 }))
    (t.hart.pc, t.hart.ui.inHandler)) = (0x6000, false) := by decide

/-! Events. -/

theorem test_strtail_overfull : (after (exec (.strtailWrite 0 1 5) (mapped.putStream 1 { Stream.reset with log2n := 2 }))).streamAt 1 =
    { Stream.reset with log2n := 2, tail := 5, stopped := true, cause := 1 } := by decide
def rooted : State := { mapped with parts := [(0, { Partition.full with roots := [mapped.hart.sup.xlat2] })] }

theorem test_signal : (let c : Cmd := #v[0x303, 0x2000, 0x1000, 9, 0, 0, 0, 0]
    let t := after (exec (.signal 0 1) (rooted.putStream 1 { Stream.reset with xlat := mapped.hart.sup.xlat1, cmd := some c }))
    (leNat (t.bytes 0x1000 8), leNat (t.bytes 0x2000 8), t.msix, (t.streamAt 1).cmd)) = (9, 3, [(0, 1)], none) := by decide +kernel
theorem test_preempt_expiry : (let s : State := { strip with hart := { strip.hart with ctl := { strip.hart.ctl with preempt := true } } }
    let t := after (exec (.preemptionExpiry 0) s)
    (t.hart.run, (tget t.saved 0).isSome)) = (.halted, true) := by decide +kernel
theorem test_path_loss : (after (exec (.pathLoss 5) mapped)).reports = [.pathLost 5] := by decide
theorem test_core_retire : ((after (exec (.coreRetire 7) mapped)).partAt 0).ordinals[7]? = some none := by decide
theorem test_step : (after (step mapped)).hart.pc = 0x400004 := by decide +kernel

/-! ### Witnesses: states and operands that meet the hypotheses of the statements -/

def hitOf : Probe → Hit
  | .hit h => h
  | _ => ⟨0, none⟩

def isHit : Probe → Bool
  | .hit _ => true
  | _ => false

theorem eq_hit {p : Probe} (h : isHit p = true) : p = .hit (hitOf p) := by
  cases p <;> simp_all [isHit, hitOf]

theorem reaches_of {s : State} {va : Word} {n : Nat} {need : Need} (h : isHit (s.probe s.self va n need).2 = true) :
    Reaches s va n need (s.probe s.self va n need).1 (hitOf (s.probe s.self va n need).2) := by
  unfold Reaches; exact Prod.ext rfl (eq_hit h)

theorem unhindered_of {s : State} {st : BitVec 2} {l : List (Nat × Nat)}
    (h : s.fabric.held = [] ∧ ∀ e ∈ s.hart.strip.buf, e.bad = false) : Unhindered s st l :=
  ⟨fun w hw => absurd hw (by simp [h.1]), fun _ => h.2⟩

theorem finds_of {s : State} {loc n : Nat} (h : (s.loadBytes (s.view 0) loc n).2.2 = false)
    (k : s.fabric.held = [] ∧ ∀ e ∈ s.hart.strip.buf, e.bad = false) :
    Finds s loc n (s.loadBytes (s.view 0) loc n).2.1 := ⟨unhindered_of k, _, Prod.ext rfl (Prod.ext rfl h)⟩

theorem goesOut_of {s : State} {st : BitVec 2} {loc : Nat} (h : s.noPath loc = false ∧ s.fabric.held = []) : GoesOut s st loc :=
  ⟨h.1, fun w hw => absurd hw (by simp [h.2])⟩

theorem ok_of {ε α : Type} {x : Except ε α} (h : x.toOption.isSome = true) : ∃ u, x = .ok u := by
  cases x with
  | ok u => exact ⟨u, rfl⟩
  | error e => exact absurd h (by simp [Except.toOption])

theorem eq_ok {ε α : Type} [DecidableEq α] {x : Except ε α} {v : α} (h : x.toOption = some v) : x = .ok v := by
  cases x with
  | ok u => simpa [Except.toOption] using h
  | error e => exact absurd h (by simp [Except.toOption])

def errorIn {ε α : Type} (x : Except ε α) : Option ε :=
  match x with
  | .ok _ => none
  | .error e => some e

theorem eq_error {ε α : Type} {x : Except ε α} {e : ε} (h : errorIn x = some e) : x = .error e := by
  cases x with
  | ok u => exact absurd h (by simp [errorIn])
  | error e => simpa [errorIn] using h

theorem error_of {ε α : Type} {x : Except ε α} (h : x.toOption.isNone = true) : ∃ e, x = .error e := by
  cases x with
  | ok u => exact absurd h (by simp [Except.toOption])
  | error e => exact ⟨e, rfl⟩

theorem some_of {α : Type} {x : Option α} {p : α → Bool} (h : x.any p = true) : ∃ m, x = some m ∧ p m = true := by
  cases x with
  | none => exact absurd h (by simp)
  | some m => exact ⟨m, rfl, by simpa using h⟩

theorem spoilt_iff (s : State) (u : Nat) : ¬ Spoilt s u ↔ s.unitDamaged u = false := by
  refine ⟨unitDamaged_of, fun h k => ?_⟩
  have held {n : Nat} (k : ∃ m, s.ownMatrix = some m ∧ m.damaged.getLsbD n = true) :
      (s.ownMatrix.any fun m => m.damaged.getLsbD n) = true := by
    obtain ⟨m, e, d⟩ := k
    rw [e]; exact d
  rcases k with ⟨a, b⟩ | ⟨a, a', b⟩ | ⟨a, a', b⟩ | ⟨a, a', b⟩ | ⟨a, a', b⟩ <;> unfold State.unitDamaged State.matrixMark at h
  · rw [if_pos a, b] at h; cases h
  · rw [if_neg (by omega), if_pos a', b] at h; cases h
  · rw [if_neg (by omega), if_neg (by omega), if_pos a', Option.any_some, held b] at h; cases h
  · rw [if_neg (by omega), if_neg (by omega), if_neg (by omega), if_neg (by omega), if_pos a', Option.any_some, held b] at h
    cases h
  · rw [if_neg (by omega), if_neg (by omega), if_neg (by omega), if_neg (by omega), if_neg (by omega), if_pos a',
      Option.any_some, held b] at h
    cases h

theorem ready_iff (s : State) (reads writes : List Use) : Ready s reads writes ↔
    s.stripOpen = true ∧ (∀ u ∈ reads, s.unitStale u.unit = false ∧ s.unitDamaged u.unit = false) ∧
    ∀ w ∈ writes, s.hart.strip.readFirst.getLsbD w.unit = false ∧
      ((∃ u ∈ reads, u.unit = w.unit) → s.hart.strip.written.getLsbD w.unit = true) := by
  unfold Ready
  simp only [spoilt_iff]

/-- The page of 64 GiB at 2^36 lies in node 2's memory, and a grant admits its use. -/
def far : State :=
  { data with
    mem := writeCells (writeCells data.mem 0x800018008 (leBytes 8 (2 ^ 36 + 15))) 0x800008008 (leBytes 8 (2 * 2 ^ 44 + 15))
    fabric := { data.fabric with grants := [⟨1, 0, 2, 0, 0, 2 ^ 44, true⟩] } }

/-- The last path to node 2 is lost. -/
def lost : State := { far with fabric := { far.fabric with lost := [2] } }

theorem test_wit_ScalarLoads : ∃ s1 h bs, Reaches data (data.x 1 + BitVec.ofInt 64 (0#11).toInt) 8 .read s1 h ∧
    Finds s1 h.loc 8 bs ∧ data.stripOpen = false :=
  ⟨_, _, _, reaches_of (by decide +kernel), finds_of (by decide +kernel) (by decide +kernel), rfl⟩

/-- The store buffer holds a store of 7 to the doubleword at 0x1000. -/
def stored : State := after (exec (.sd 12 1 0) (regs [(12, 7)] inStrip))

theorem test_wit_ScalarLoads_strip : ∃ s1 h bs, Reaches stored (stored.x 1 + BitVec.ofInt 64 (0#11).toInt) 8 .read s1 h ∧
    Finds s1 h.loc 8 bs ∧ stored.stripOpen = true ∧ (stored.hart.strip.buf.map fun e => (e.loc, e.op)) = [(0x1000, .store (leBytes 8 7))] :=
  ⟨_, _, _, reaches_of (by decide +kernel), finds_of (by decide +kernel) (by decide +kernel), by decide +kernel, by decide +kernel⟩
theorem test_load_of_own_store : (after (exec (.ld 3 1 0) stored)).x 3 = 7 := by decide +kernel
theorem test_wit_ScalarStores : ∃ s1 h, Reaches data (data.x 1 + BitVec.ofInt 64 (0#11).toInt) 8 .write s1 h ∧
    data.stripOpen = false ∧ GoesOut data 0 h.loc ∧ data.mem.wf = true :=
  ⟨_, _, reaches_of (by decide +kernel), rfl, goesOut_of (by decide +kernel), by decide +kernel⟩
theorem test_wit_ScalarStores_strip : ∃ s1 h, Reaches inStrip (inStrip.x 1 + BitVec.ofInt 64 (0#11).toInt) 8 .write s1 h ∧
    inStrip.stripOpen = true ∧ inStrip.hart.strip.used + 1 ≤ 16384 :=
  ⟨_, _, reaches_of (by decide +kernel), by decide +kernel, by decide +kernel⟩
theorem test_wit_ScalarStores_held : ∃ s1 h, Reaches (regs [(1, 2 ^ 36)] lost) ((regs [(1, 2 ^ 36)] lost).x 1 + BitVec.ofInt 64 (0#11).toInt) 8 .write s1 h ∧
    (regs [(1, 2 ^ 36)] lost).stripOpen = false ∧ ¬ GoesOut (regs [(1, 2 ^ 36)] lost) 0 h.loc :=
  ⟨_, _, reaches_of (by decide +kernel), by decide +kernel, fun k => absurd k.1 (by decide +kernel)⟩
theorem test_wit_BranchesAndJumps : ((two.x 2 + BitVec.ofInt 64 (0#11).toInt) &&& ~~~1#64 ≠ 0) ∧ (kernel two).hart.priv = .supervisor := by
  decide
theorem test_wit_MaskToScalar : (1#5).toNat < 8 ∧ Ready counted (mUse 1 1) [] := by
  simp only [ready_iff]; decide +kernel
theorem test_wit_HintsAndWaits : two.stripOpen = false ∧ strip.stripOpen = true ∧ two.hart.run ≠ .waiting .wfi ∧
    (two.withRun (.waiting .wfi)).hart.run = .waiting .wfi := by decide
theorem test_wit_HardwareLoops : two.hart.loops.length < 3 ∧ (4#11 ≠ 0) ∧ two.x 2 ≠ 0 ∧ two.x 0 = 0 ∧
    3 ≤ ({ two with hart := { two.hart with loops := [⟨0, 8, 2⟩, ⟨0, 8, 2⟩, ⟨0, 8, 2⟩] } } : State).hart.loops.length := by decide
theorem test_wit_WorkgroupEnd : ∃ u, two.hart.priv = .user ∧ (two.x 0 + BitVec.ofInt 64 (0#11).toInt) &&& ~~~1#64 = 0 ∧
    two.close = .ok u ∧ ∀ q, q ∈ u.hart.queues.toList → q.ops = [] := ⟨two, by decide, by decide, rfl, by decide⟩

def trapping : State := trapTo 0x9000 two

theorem test_wit_FaultTaken_replay : replayFault.replay = true ∧ strip.stripOpen = true ∧ (plainFault 0x01).replay = false := by decide
theorem test_wit_FaultTaken : (plainFault 0x01).cause ≠ 0x12 ∧ (plainFault 0x01).deleg = false ∧ trapping.hart.sup.tvec ≠ 0 := by
  decide
theorem test_wit_FaultsThatStop : (plainFault 0x01).cause ≠ 0x12 ∧ (plainFault 0x01).deleg = false ∧ two.hart.sup.tvec = 0 ∧
    (plainFault 0x12).cause = 0x12 := by decide
theorem test_wit_FaultDelegated : (let f : FaultInfo := { plainFault 0x0A with deleg := true }
    f.cause = 0x0A ∧ f.deleg = true ∧ (two.withUi { two.hart.ui with uivec := 0x5000 }).hart.ui.uivec ≠ 0) := by decide
theorem test_wit_Calls : (∃ u, trapping.close = .ok u) ∧ trapping.hart.sup.tvec ≠ 0 := ⟨⟨trapping, rfl⟩, by decide⟩
theorem test_wit_Calls_strip : (∃ u, (trapTo 0x9000 strip).close = .ok u) ∧ (trapTo 0x9000 strip).hart.sup.tvec ≠ 0 ∧
    (trapTo 0x9000 strip).stripOpen = true := ⟨ok_of (by decide +kernel), by decide, by decide⟩
theorem test_wit_TrapReturn : two.hart.priv = .user ∧ (kernel two).hart.priv = .supervisor ∧ (kernel two).hart.sup.pp = .user ∧
    ((kernel two).withSup { two.hart.sup with pp := .supervisor }).hart.sup.pp = .supervisor := by decide
theorem test_wit_CsrAccess : Permitted two 0x003 ∧ two.csr 0x003 = some 0 ∧ Permitted (kernel two) 0x210 ∧
    (kernel two).csr 0x210 = some 0 ∧ Permitted (kernel two) 0x221 ∧ (kernel two).csr 0x221 = some 0 := by
  unfold Permitted; decide +kernel
/-- S of a hart whose partition has an engine operation queued, and none. -/
def tabled : State := kernel (after (exec (.ecopy 2 3 1 0 0 0) (regs [(1, 0x2000)] mapped)))

theorem test_wit_CsrAccess_rgntab : Permitted (kernel mapped) 0x230 ∧ ((kernel mapped).csr 0x230).isSome = true ∧
    (tget (kernel mapped).parts 0).isSome = true ∧ (kernel mapped).fabric.held = [] ∧ (kernel mapped).harts = [] ∧
    (∀ q : Fin 4, ((kernel mapped).hart.queues.get q).ops = []) ∧ Permitted tabled 0x230 ∧ (tabled.csr 0x230).isSome = true ∧
    ((tabled.hartAt 0).queues.get 2).ops ≠ [] := by unfold Permitted; decide +kernel
theorem test_wit_CsrAccess_knot : Permitted matrixed 0x020 ∧ (matrixed.csr 0x020).isSome = true ∧ knotValid 0 0x3F800000 = true ∧
    matrixed.ownMatrix ≠ none ∧ matrixed.contractCheck [] (bandUse 0 5) = none := by unfold Permitted; decide +kernel
theorem test_wit_CsrPrivilege : two.hart.priv = .user ∧ 0x200 ≤ (0x200#11).toNat ∧ (0x200#11).toNat < 0x400 ∧
    assigned (0x7FF#11).toNat = false ∧ (kernel two).hart.priv = .supervisor := by decide

def fused : State := { vecs [(4, [1, 1, 1, 1])] floats with hart := { (vecs [(4, [1, 1, 1, 1])] floats).hart with
  strip := { floats.hart.strip with written := 0x10 } } }

theorem alignedB_vv {s : State} {n : BitVec 5} (h : n.toNat % s.rows = 0) : AlignedB s (.vv n) := by
  intro k hk; cases hk; exact h

theorem operable_vv {s : State} {d a n : BitVec 5} {m : BitVec 3} (h : d.toNat % s.rows = 0 ∧ a.toNat % s.rows = 0 ∧ n.toNat % s.rows = 0)
    (r : Ready s (s.vUse a 1 ++ s.bUse (.vv n) ++ pUse m) (s.vUse d 0)) : Operable s d a (.vv n) m :=
  ⟨h.1, h.2.1, alignedB_vv h.2.2, r⟩

theorem test_wit_VectorFloat : Operable floats 4 8 (.vv 12) 0 ∧ OperableUnary floats 4 8 0 := by
  exact ⟨operable_vv (by decide +kernel) (by simp only [ready_iff]; decide +kernel), by unfold OperableUnary Aligned; simp only [ready_iff]; decide +kernel⟩
theorem test_wit_VectorFloat_fused : OperableFused fused 4 8 (.vv 12) 0 :=
  ⟨by unfold Aligned; decide +kernel, by unfold Aligned; decide +kernel, alignedB_vv (by decide +kernel), by simp only [ready_iff]; decide +kernel⟩
theorem test_wit_VectorInteger : Operable ints 4 8 (.vv 12) 0 := operable_vv (by decide +kernel) (by simp only [ready_iff]; decide +kernel)
theorem test_wit_VectorCompares : (3#5).toNat < 8 ∧ Aligned ints 8 ∧ AlignedB ints (.vv 12) ∧
    Ready ints (ints.vUse 8 1 ++ ints.bUse (.vv 12) ++ pUse 0) (mUse 3 0) :=
  ⟨by decide, by unfold Aligned; decide +kernel, alignedB_vv (by decide +kernel), by simp only [ready_iff]; decide +kernel⟩
theorem test_wit_VectorConversions : OperableUnary mixedFloats 4 8 0 ∧ Operable mixedFloats 4 8 (.vv 12) 0 :=
  ⟨by unfold OperableUnary Aligned; simp only [ready_iff]; decide +kernel, operable_vv (by decide +kernel) (by simp only [ready_iff]; decide +kernel)⟩
theorem test_wit_ReductionsAndScans : Aligned oneToFour 8 ∧ Ready oneToFour (oneToFour.vUse 8 1 ++ pUse 0) [] ∧
    Ready oneToFour (oneToFour.vUse 8 1 ++ oneToFour.vUse 8 2 ++ pUse 0) [] ∧ Aligned oneToFour 4 ∧
    Ready oneToFour (oneToFour.vUse 8 1 ++ pUse 0) (oneToFour.vUse 4 0) ∧ oneToFour.hart.csr.det = false := by
  unfold Aligned; simp only [ready_iff]; decide +kernel
theorem test_wit_Permutations : OperableUnary counted 4 8 0 ∧ Operable counted 4 8 (.vv 12) 0 ∧ (4#5 ≠ 8 ∧ 4#5 ≠ 12) ∧
    Ready counted (counted.vUse 8 1 ++ mUse 1 2) (counted.vUse 4 0) ∧ Ready counted (mUse 1 1 ++ pUse 0) (counted.vUse 4 0) ∧
    Ready counted (pUse 0) (counted.vUse 4 0) ∧ Ready counted (counted.vUse 8 1) [] :=
  ⟨by unfold OperableUnary Aligned; simp only [ready_iff]; decide +kernel, operable_vv (by decide +kernel) (by simp only [ready_iff]; decide +kernel),
   by simp only [ready_iff]; decide +kernel⟩
theorem test_wit_MaskInstructions : (3#5).toNat < 8 ∧ Ready counted (mUse 1 1 ++ mUse 2 2 ++ pUse 0) (mUse 3 0) ∧
    Ready counted (mUse 1 1 ++ pUse 0) (mUse 3 0) ∧ Ready counted (pUse 0) (mUse 3 0) ∧ Aligned counted 8 ∧
    Ready counted (counted.vUse 8 1 ++ pUse 0) (mUse 3 0) := by
  unfold Aligned; simp only [ready_iff]; decide +kernel

/-- Two rows a group. -/
def wide : State := ints.withCsr { ints.hart.csr with rc := 1 }

theorem test_wit_VectorIssueFaults : Instr.vadd 4 8 (.vv 12) 0 ∈ elementwiseInstrs 4 8 (.vv 12) 0 ∧ two.stripOpen = false ∧
    wide.stripOpen = true ∧ ¬ Aligned wide 5 ∧ Aligned wide 4 ∧ ¬ Aligned wide 9 ∧ Aligned wide 8 ∧ ¬ Aligned wide 13 := by
  refine ⟨?_, ?_⟩
  · simp [elementwiseInstrs]
  · unfold Aligned; decide +kernel
theorem test_wit_VectorIssueFaults_stale : ints.stripOpen = true ∧ Aligned ints 4 ∧ Aligned ints 9 ∧ AlignedB ints (.vv 12) ∧
    ints.vUse 9 1 ++ ints.bUse (.vv 12) ++ pUse 0 = [] ++ ⟨9, 9, 1⟩ :: [⟨12, 12, 2⟩] ∧ ints.unitStale 9 = true := by
  refine ⟨?_, ?_, ?_, alignedB_vv ?_, ?_, ?_⟩ <;> first | decide +kernel | (unfold Aligned; decide +kernel)
theorem test_wit_VectorIssueFaults_contract : ints.vUse 8 0 = [] ++ ⟨8, 8, 0⟩ :: [] ∧
    Ready ints (ints.vUse 8 1 ++ ints.bUse (.vv 12) ++ pUse 0) [] ∧
    (∃ u ∈ ints.vUse 8 1 ++ ints.bUse (.vv 12) ++ pUse 0, u.unit = 8) ∧ ints.hart.strip.written.getLsbD 8 = false := by
  refine ⟨?_, ?_, ?_, ?_⟩ <;> first | (simp only [ready_iff]; decide +kernel) | decide +kernel
/-- v8 holds an uncorrectable code word. -/
def spoilt : State := { ints with hart := { ints.hart with upsets := { ints.hart.upsets with vector := 0x100 } } }

theorem test_wit_VectorIssueFaults_damaged : spoilt.stripOpen = true ∧ Aligned spoilt 4 ∧ Aligned spoilt 8 ∧ AlignedB spoilt (.vv 12) ∧
    (∀ u ∈ spoilt.vUse 8 1 ++ spoilt.bUse (.vv 12) ++ pUse 0, spoilt.unitStale u.unit = false) ∧
    spoilt.vUse 8 1 ++ spoilt.bUse (.vv 12) ++ pUse 0 = [] ++ ⟨8, 8, 1⟩ :: [⟨12, 12, 2⟩] ∧ Spoilt spoilt 8 ∧
    ∀ w ∈ spoilt.vUse 4 0, spoilt.hart.strip.readFirst.getLsbD w.unit = false := by
  refine ⟨?_, ?_, ?_, alignedB_vv ?_, ?_, ?_, .inl ?_, ?_⟩ <;> first | decide +kernel | (unfold Aligned; decide +kernel)
theorem test_wit_VectorIssueFaults_det : (ints.withCsr { ints.hart.csr with det := true }).hart.csr.det = true ∧
    (ints.withCsr { ints.hart.csr with det := true }).stripOpen = true ∧ Aligned ints 8 := by unfold Aligned; decide +kernel
theorem test_wit_RoundTrip : (Instr.tmma 3 30 7 30 1023 true).wellFormed = true ∧ (Instr.tmma 3 30 7 30 1023 true).hasWord = true := by
  decide
theorem test_wit_DecodeExact : decodeParcels [0xC084#16, 0x4C81#16] = .ok (.sub 4 9 18, 4) ∧
    decodeParcels [0x0978#16] = .ok (.cAddi 5 (-8), 2) := ⟨eq_ok (by decide), eq_ok (by decide)⟩
theorem test_wit_FetchReads : ∃ h, inVaultSpace mapped.hart.pc = false ∧
    (mapped.regionAt mapped.hart.ctl.part mapped.hart.sup.xlat2 mapped.hart.pc).isSome = false ∧
    (mapped.reachAddr mapped.fetcher mapped.hart.pc .fetch).2 = .hit h ∧ mapped.unreadable h.loc 2 = false :=
  ⟨hitOf _, by decide +kernel, by decide +kernel, eq_hit (by decide +kernel), by decide +kernel⟩

def at' (n w : Nat) : State := State.reset.withFetchWord n w

/-- The parcels at an address, as fetch delivers them. -/
def parcelsAt (s : State) (va : Word) (n : Nat) : State × List Half :=
  match s.fetchParcels n va with
  | (t, .ok l) => (t, l)
  | (t, .error _) => (t, [])

theorem parcels_one {s : State} {va : Word} {p : Half} (h : (s.fetchParcel va).2.toOption = some p) :
    Parcels s va [p] (s.fetchParcel va).1 := ⟨_, Prod.ext rfl (eq_ok h), rfl⟩

theorem parcels_two {s : State} {va : Word} {p q : Half} (h : (s.fetchParcel va).2.toOption = some p)
    (k : ((s.fetchParcel va).1.fetchParcel (va + 2)).2.toOption = some q) :
    Parcels s va [p, q] ((s.fetchParcel va).1.fetchParcel (va + 2)).1 :=
  ⟨_, Prod.ext rfl (eq_ok h), _, Prod.ext rfl (eq_ok k), rfl⟩

theorem fetched {s : State} {ps : List Half} (h : s.fetch.2.toOption = some ps) : s.fetch = (s.fetch.1, .ok ps) :=
  Prod.ext rfl (eq_ok h)

theorem test_wit_FetchReads_parcels : (∃ t, Parcels (at' 16 0x4400) 0x400000 [0x4400] t ∧ [(0x4400#16)].length = parcelsOf 0x4400) ∧
    (∃ t, Parcels (at' 32 0xC0000000) 0x400000 [0xC000, 0] t ∧ [0xC000#16, 0].length = parcelsOf 0xC000) :=
  ⟨⟨_, parcels_one (by decide +kernel), by decide⟩, _, parcels_two (by decide +kernel) (by decide +kernel), by decide⟩
/-- The page above the one of the pc is not mapped: the second parcel of a word at its end cannot be fetched. -/
def edge : State :=
  let s := at' 32 0xC0000000
  { s with hart := { s.hart with pc := 0xFFFFFFFFE }, mem := writeCells s.mem 0xFFFFFFFFE [0, 0xC0] }
theorem test_wit_FetchReads_stops : ∃ t u e, Parcels edge edge.hart.pc [0xC000] t ∧ [0xC000#16].length < parcelsOf 0xC000 ∧
    t.fetchParcel (edge.hart.pc + BitVec.ofNat 64 (2 * [0xC000#16].length)) = (u, .error (.fault e)) := by
  have h : ((edge.fetchParcel edge.hart.pc).1.fetchParcel (edge.hart.pc + 2)).2 =
      .error (.fault (accessFault 0x07 0x1000000000 false)) := eq_error (by decide +kernel)
  exact ⟨_, _, _, parcels_one (by decide +kernel), by decide, Prod.ext rfl h⟩
theorem test_wit_FetchReads_fault : inVaultSpace 0xFFF0000000000000 = true ∧
    (∃ c, (State.reset.reachAddr State.reset.fetcher 0x400000 .fetch).2 = .fault c) := ⟨by decide, 0x07, by decide +kernel⟩
theorem test_wit_IssueOrder : (∃ t, (at' 32 0xDF800000).fetch = (t, .ok [0xDF80, 0])) ∧ (∃ e, decodeParcels [0xDF80#16, 0] = .error e) ∧
    (∃ t, mapped.fetch = (t, .ok [0xC000, 0]) ∧ t.featured [0xC000, 0] = true ∧ t.hart.loops = []) ∧
    ∃ i, decodeParcels [0xC000#16, 0] = .ok (i, 4) :=
  ⟨⟨_, fetched (by decide +kernel)⟩, error_of (by decide), ⟨_, fetched (by decide +kernel), by decide +kernel⟩, .nop, eq_ok (by decide)⟩
theorem test_wit_IssueOrder_loop : (let s : State := { mapped with hart := { mapped.hart with loops := [⟨0x3FFF00, 0x400002, 2⟩] } }
    ∃ l ∈ s.hart.loops, s.hart.pc.toNat < l.stop.toNat ∧ l.stop.toNat < s.hart.pc.toNat + 4) := by decide +kernel
theorem test_wit_IssueOrder_feature : (let s : State := { mapped with hart := { mapped.hart with ctl := { mapped.hart.ctl with
    req := Vector.replicate 4 0 } } }; s.featured [0xC800, 0]) = false := by decide +kernel
theorem test_wit_IssueOrder_spoilt : (let s : State := { two with hart := { two.hart with upsets := { two.hart.upsets with scalar := 2 } } }
    s.hart.upsets.scalar.getLsbD (1#5).toNat = true ∧ s.stripOpen = false ∧
    Machine.Instr.scalarReads (.add 3 2 1) = [2] ++ 1 :: [] ∧ s.hart.upsets.scalar.getLsbD (2#5).toNat = false) := by decide +kernel
theorem test_wit_StepRunsDecoded : mapped.hart.run = .running ∧ mapped.hart.claim.isNone = true ∧ mapped.haltDue.isNone = true ∧
    mapped.interrupt.isNone = true ∧ decodeParcels [0xC000#16, 0] = .ok (.nop, 4) ∧ mapped.agenda = [] ∧ mapped.cur < 384 ∧
    ∃ t, mapped.fetch = (t, .ok [0xC000, 0]) ∧ t.loopEnd .nop 4 = false ∧ t.featured [0xC000, 0] = true ∧
      (t.spoiltRegister .nop).isNone = true :=
  ⟨by decide +kernel, by decide +kernel, by decide +kernel, by decide +kernel, eq_ok (by decide), by decide +kernel, by decide +kernel, _,
   fetched (by decide +kernel), by decide +kernel⟩
theorem test_wit_MemoryCanonical : ∃ t, mapped.mem.wf = true ∧ step mapped = .next t :=
  ⟨_, by decide +kernel, next_of_nexts (by decide +kernel)⟩
theorem test_wit_StateCanonical : ∃ t, step mapped = .next t ∧ cellsCanonical mapped ∧ keysCanonical mapped :=
  ⟨_, next_of_nexts (by decide +kernel), by unfold cellsCanonical; decide +kernel, by unfold keysCanonical; decide +kernel⟩
theorem test_wit_UserModePrivilege : ∃ t, (Instr.csrw 3 1 0x200).hasWord = true ∧ trapping.hart.priv = .user ∧
    exec (.csrw 3 1 0x200) trapping = .next t := ⟨_, by decide, by decide, next_of_nexts (by decide +kernel)⟩
theorem test_wit_AccessFaults : (Instr.sd 2 1 0, 8, true) ∈ scalarAccesses 2 1 0 ∧
    (let s : State := inStrip.withStrip { inStrip.hart.strip with used := 16384 }
     s.stripOpen = true ∧ 16384 < s.hart.strip.used + 1) ∧
    (data.reachAddr data.self 0x1001 .read).2 ≠ .outside ∧ (0x1001#64).toNat % 8 ≠ 0 ∧
    (State.reset.reachAddr State.reset.self 0x1000 .read).2 = .fault 0x07 := by
  refine ⟨by decide, ?_, ?_, by decide, ?_⟩ <;> decide +kernel
theorem test_wit_AccessFaults_outside : (({ far with fabric := { far.fabric with grants := [] } } : State).reachAddr far.self (2 ^ 36) .read).2 =
    .outside := by decide +kernel
theorem test_wit_AccessFaults_poison : (let s : State := { data with poison := [0x1000] }
    isHit (s.reachAddr s.self 0x1000 .read).2 = true ∧
    ((s.reachAddr s.self 0x1000 .read).1.loadBytes ((s.reachAddr s.self 0x1000 .read).1.view 0)
      (hitOf (s.reachAddr s.self 0x1000 .read).2).loc 8).2.2 = true) := by decide +kernel
/-- Range 1 is locked over the page of 0x1000, whose translation was removed. -/
def unlockedPage : State :=
  { data with hart := { data.hart with locks := [(1, ⟨0x1000, 16, [(⟨0, data.hart.sup.xlat1, data.hart.sup.xlat2, 0, 36, 0, 0, true, true, 36, 36, [(0, 36), (0, 36)]⟩, false)]⟩)] } }

theorem test_wit_AccessFaults_lock : (unlockedPage.regionAt 0 unlockedPage.hart.sup.xlat2 0x1000).isNone = true ∧
    (let w := 0x1000#64
     w = (w.extractLsb' 0 57).signExtend 64 ∧ ∃ l ∈ unlockedPage.hart.locks, l.2.base.toNat ≤ w.toNat ∧
       (w - l.2.base).toNat < l.2.len.toNat ∧ (l.2.trans.map fun e => (e.1.vbase, e.1.bits, e.2)) = [(0, 36, false)]) ∧
    (unlockedPage.reachAddr unlockedPage.self 0x1000 .read).2 = .fault 0x08 := by decide +kernel
theorem test_wit_AccessFaults_vault : (let w := 0xFFF0000000800000#64
    0xFFF0000000000000 ≤ w.toNat ∧ w.toNat ≤ 0xFFF0FFFFFFFFFFFF ∧ (w.toNat - 0xFFF0000000000000) / 8388608 = 0 + 1 ∧
    HalfHolds (data.partAt 0) 0 ∧ (data.partAt 0).ordinals[0]? = some (some 0)) :=
  ⟨by decide, by decide, by decide, .inl (by decide +kernel), by decide +kernel⟩

/-- Region 0: 64 KiB at 0x30000, backed at 0x50000 and 0x60000; the table lies at 0x100000. -/
def skimmed : State := regs [(1, 0x30000)]
  { data with
    mem := writeCells data.mem 0x100000 ([0x30000, 2 ^ 63 + 0x10000, 0x50000, 0x60000, 0].flatMap (leBytes 8))
    parts := [(0, { Partition.full with rgntab := 0x100000, roots := [data.hart.sup.xlat2] })] }

theorem test_wit_AccessFaults_skim : (skimmed.regionAt skimmed.hart.ctl.part skimmed.hart.sup.xlat2 0x30000).isSome = true := by
  decide +kernel
theorem test_wit_NumberFormats : rowF32 ∈ formatRows ∧ 0x3F800000 < 2 ^ rowF32.width ∧ (Num.fin false 1 0).isFinite = true :=
  ⟨List.mem_cons_self, by decide, by decide⟩
theorem test_wit_Grants : (kernel two).hart.priv = .supervisor ∧ two.hart.priv = .user ∧ two.hart.ui.inHandler = false ∧
    two.close = .ok two ∧ ((0x640008#64).extractLsb' 5 11 = 0 ∧ (0x640008#64).extractLsb' 27 37 = 0 ∧
      ((0x640008#64).extractLsb' 16 11).toNat ≤ 1024) ∧ (0x20#64).extractLsb' 5 11 ≠ 0 ∧
    two.core.gov.en = false ∧ (two.hartAt (sibling two.cur)).run = .absent := by
  refine ⟨by decide, by decide, by decide, rfl, ?_⟩; decide +kernel
theorem test_wit_Grants_answer : two.answer = .width 1024 two := rfl
theorem test_wit_Grants_override : (let s : State := { two with core := { two.core with gov := { two.core.gov with en := true } } }
    s.core.gov.en = true ∧ (s.core.gov.hart = true ↔ s.cur % 2 = 1)) := by decide +kernel
theorem test_wit_Grants_wait : (let s : State := { two with hart := { two.hart with ctl := { two.hart.ctl with slices := 0 } } }
    s.answer = .wait) := rfl
theorem test_wit_Grants_preempt : (let s : State := { strip with hart := { strip.hart with ctl := { strip.hart.ctl with preempt := true } } }
    s.hart.priv = .user ∧ s.hart.ui.inHandler = false ∧ s.stripOpen = true ∧ s.hart.ctl.preempt = true ∧ ∃ u, s.close = .ok u) :=
  ⟨by decide, by decide, by decide, by decide, ok_of (by decide +kernel)⟩

/-- Hart 1 runs a workgroup beside, holding n slices in an open strip. -/
def beside (n : Nat) (pri : BitVec 2) (protect : Bool) (s : State) : State :=
  s.setHartAt 1 { Hart.reset with
    run := .running, csr := { Hart.reset.csr with so := true },
    sup := { Hart.reset.sup with hpri := pri }, ctl := { Hart.reset.ctl with holds := n, protectedStrip := protect } }

theorem test_wit_Grants_beside : (let s := beside 8 0 false (two.withSup { two.hart.sup with hpri := 2 })
    let other := s.hartAt (sibling s.cur)
    other.run ≠ .absent ∧ other.run ≠ .halted ∧ min s.hart.ctl.slices (min 15 (16 - 1)) = 15 ∧ 16 - other.ctl.holds = 8 ∧
    min (16 - s.core.slicesLost.length) ((s.partAt s.hart.ctl.part).caps.slice.toNat % 32) = 16 ∧ s.core.gov.en = false ∧
    other.sup.hpri.toNat < s.hart.sup.hpri.toNat ∧ other.ctl.protectedStrip = false ∧
    ((beside 8 0 true s).hartAt 1).ctl.protectedStrip = true ∧ ((beside 8 0 true s).hartAt 1).csr.so = true) := by decide +kernel
theorem test_wit_Grants_equal : (let s := beside 16 2 false (two.withSup { two.hart.sup with hpri := 2 })
    let other := s.hartAt (sibling s.cur)
    16 - other.ctl.holds = 0 ∧ ¬ other.sup.hpri.toNat < s.hart.sup.hpri.toNat ∧ other.ctl.protectedStrip = false) := by decide +kernel
/-- A hart of higher priority takes seven of the eight slices it lacks: 15, and hart 1 keeps one. -/
theorem test_grant_revokes : (let s := beside 8 0 false (two.withSup { two.hart.sup with hpri := 2 })
    let t := after (exec (.grant 1 2 0) s)
    (t.gvl, (t.hartAt 1).ctl.holds, (t.hartAt 1).csr.so)) = (960, 1, false) := by decide +kernel
theorem test_wit_Grants_beside_script : (let s := beside 0 0 false two
    let t := { s with core := { s.core with gov := { s.core.gov with en := true, hart := true, latest := some 64 } } }
    t.core.gov.en = true ∧ ¬ (t.core.gov.hart = true ↔ t.cur % 2 = 1) ∧ t.core.gov.latest = some 64) := by decide +kernel

/-- One store of four bytes in the buffer, or one atomic. -/
def storing : State := after (exec (.sw 2 1 0) inStrip)
def atomics : State := (vecs [(14, [0x3F800000])] (inStrip.withCsr { inStrip.hart.csr with vl := 1 }))
def oneAtomic : State := after (exec (.vaaddO 0 14 1 8 0) atomics)

theorem test_wit_Close : (∃ u, storing.close = .ok u) ∧ storing.stripOpen = true ∧ storing.mem.wf = true ∧
    (∀ e ∈ storing.hart.strip.buf, ∃ bs, e.op = .store bs) ∧ storing.hart.strip.buf ≠ [] ∧
    ∀ e ∈ storing.hart.strip.buf, e.bad = false ∧ ∀ op x, e.op = .atomic op x → storing.poisoned e.loc op.size = false := by
  have h : storing.hart.strip.buf.map BufEntry.op = [.store [0xFF, 0xEE, 0xDD, 0xCC]] := by decide +kernel
  have k : ∀ e ∈ storing.hart.strip.buf, e.op = .store [0xFF, 0xEE, 0xDD, 0xCC] := fun e he => by
    have := List.mem_map_of_mem (f := BufEntry.op) he
    rw [h] at this; simpa using this
  refine ⟨ok_of (by decide +kernel), by decide +kernel, by decide +kernel, fun e he => ⟨_, k e he⟩, ?_, fun e he => ⟨?_, ?_⟩⟩
  · intro z; rw [z] at h; cases h
  · have : storing.hart.strip.buf.all (fun e => !e.bad) = true := by decide +kernel
    simpa using List.all_eq_true.mp this e he
  · intro op x q; rw [k e he] at q; cases q
theorem test_wit_Close_atomic : (oneAtomic.hart.strip.buf.map fun e => (e.loc, e.op)) = [(0x1000, .atomic .addF32 0x3F800000)] ∧
    oneAtomic.mem.wf = true ∧ oneAtomic.stripOpen = true ∧ GoesOut oneAtomic 0 0x1000 ∧ (∃ u, oneAtomic.close = .ok u) :=
  ⟨by decide +kernel, by decide +kernel, by decide +kernel, goesOut_of (by decide +kernel), ok_of (by decide +kernel)⟩
theorem test_wit_Close_poison : (let s : State := { oneAtomic with poison := [0x1000] }
    (s.hart.strip.buf.map fun e => s.poisoned e.loc 4) = [true] ∧ s.stripOpen = true) := by decide +kernel
theorem test_wit_Close_bad : (let s := storing.withStrip { storing.hart.strip with buf := storing.hart.strip.buf.map fun e => { e with bad := true } }
    s.stripOpen = true ∧ ∃ e ∈ s.hart.strip.buf, e.bad = true) := by decide +kernel
theorem test_wit_ScalarAtomics : ∃ u1 h bs, (0#3).toNat < 3 ∧ data.close = .ok data ∧ Reaches data (data.x 1) 8 .write u1 h ∧
    Finds u1 h.loc 8 bs ∧ data.mem.wf = true ∧ ¬ Behind data 0xF ∧ data.stripOpen = false ∧ data.noPath h.loc = false ∧
    ¬ (inVaultSpace (data.x 1) = false ∧ (data.regionAt data.hart.ctl.part data.hart.sup.xlat2 (data.x 1)).isSome = true) :=
  ⟨_, _, _, by decide, rfl, reaches_of (by decide +kernel), finds_of (by decide +kernel) (by decide +kernel), by decide +kernel,
   by unfold Behind; decide +kernel, by decide +kernel, by decide +kernel, by decide +kernel⟩

def behind : State := after (exec (.sd 2 1 0) (regs [(1, 2 ^ 36)] lost))

theorem test_wit_ScalarAtomics_behind : behind.close = .ok behind ∧ Behind behind 0xF ∧ Behind behind 1 ∧ ¬ Behind behind 2 :=
  ⟨rfl, by unfold Behind; decide +kernel⟩
theorem test_wit_ScalarAtomics_skim : inVaultSpace (skimmed.x 1) = false ∧
    (skimmed.regionAt skimmed.hart.ctl.part skimmed.hart.sup.xlat2 (skimmed.x 1)).isSome = true ∧ (skimmed.x 1).toNat % 8 = 0 := by
  decide +kernel

/-- The one page that maps everything below 64 GiB. -/
def bigPage : TlbEntry :=
  ⟨0, data.hart.sup.xlat1, data.hart.sup.xlat2, 0, 36, 0, 0, true, true, 36, 36, [(0, 36), (0, 36)]⟩

theorem test_wit_LockedRanges : (let s := regs [(3, 31)] data
    (s.x 3).toNat ≤ 31 ∧ s.x 1 ≠ 0 ∧ Pages s ((s.x 1).toNat + (s.x 1).toNat) (s.x 1).toNat [(0x1000, .ok bigPage)] ∧
    s.hart.locks.Pairwise fun x y => x.1 < y.1) := by
  refine ⟨by decide +kernel, by decide +kernel, ?_, by decide +kernel⟩
  refine ⟨by decide +kernel, by decide +kernel, ?_, fun _ => by decide +kernel, ?_⟩
  · intro k; exact absurd k (by decide +kernel)
  · show Pages _ _ _ []
    unfold Pages
    decide +kernel
theorem test_wit_LockedRanges_limits : 31 < ((regs [(3, 32)] data).x 3).toNat ∧ data.x 3 = 0 ∧ data.x 0 = 0 := by decide +kernel
/-- The last page below 64 GiB translates, the one behind it does not. -/
theorem test_wit_LockedRanges_unmapped : Pages data (0x1000000000 + 16) 0x1000000000 [(0x1000000000, .invalid)] := by
  refine ⟨by decide +kernel, by decide +kernel, fun _ => rfl, fun _ => by decide +kernel, ?_⟩
  show Pages _ _ _ []
  unfold Pages
  decide +kernel
theorem test_wit_LockedRanges_outside :
    (let s : State := { far with fabric := { far.fabric with grants := [] } }
     Pages s (0x1000000000 + 16) 0x1000000000 [(0x1000000000, .outside)]) := by
  refine ⟨by decide +kernel, by decide +kernel, ?_, fun _ => by decide +kernel, ?_⟩
  · intro k; exact absurd k (by decide +kernel)
  · show Pages _ _ _ []
    unfold Pages
    decide +kernel

theorem pages_vault : ∀ (n va : Nat), va % 65536 = 0 → (∀ x, va ≤ x → x < va + 65536 * n → inVaultSpace (BitVec.ofNat 64 x) = true) →
    ∃ l, Pages data (va + 65536 * n) va l ∧ l.length = n
  | 0, va, _, _ => ⟨[], by unfold Pages; omega, rfl⟩
  | n + 1, va, h, hv => by
    have w := hv va (Nat.le_refl _) (by omega)
    obtain ⟨l, h1, h2⟩ := pages_vault n (va + 65536) (by omega) (fun x hx hs => hv x (by omega) (by omega))
    refine ⟨(va, .invalid) :: l, ⟨by omega, rfl, fun _ => rfl, fun q => absurd (.inl w) q, ?_⟩, by simp [h2]⟩
    show Pages data (va + 65536 * (n + 1)) (va / 65536 * 65536 + 65536) l
    rw [show va + 65536 * (n + 1) = va + 65536 + 65536 * n by omega, show va / 65536 * 65536 + 65536 = va + 65536 by omega]
    exact h1
theorem test_wit_LockedRanges_long : ∃ l, Pages data (0xFFF0000000000000 + 65536 * 65) 0xFFF0000000000000 l ∧ 64 < l.length := by
  obtain ⟨l, h, k⟩ := pages_vault 65 0xFFF0000000000000 (by decide) (fun x a b => by
    have e : (BitVec.ofNat 64 x).toNat = x := by rw [BitVec.toNat_ofNat]; omega
    unfold inVaultSpace vaultLo vaultHi
    simp only [e]
    have : (0xFFF0000000000000 : Nat) ≤ x ∧ x ≤ 0xFFF0FFFFFFFFFFFF := by omega
    simp [this])
  exact ⟨l, h, by omega⟩
theorem test_wit_LockedRanges_probe : inVaultSpace (data.x 1) = false ∧ canonical (data.x 1) = true ∧
    (data.translate data.self (data.x 1) false).2 = .ok bigPage ∧ canonical (2 ^ 60) = false := by decide +kernel

/-! Accesses of several elements. -/

def probesFrom (a : Agent) (need : Need) : State → List (Word × Nat) → List Probe × State
  | s, [] => ([], s)
  | s, p :: r =>
    let x := s.probeAt a p.1 p.2 need
    let q := probesFrom a need x.1 r
    (x.2 :: q.1, q.2)

def probesOf (a : Agent) (need : Need) (s : State) (l : List (Word × Nat)) : List Probe × State :=
  let q := probesFrom a need s l
  (q.1, drew q.2)

theorem probes_from (a : Agent) (need : Need) (s : State) (l : List (Word × Nat)) :
    ProbesFrom a need s l (probesFrom a need s l).1 (probesFrom a need s l).2 := by
  induction l generalizing s with
  | nil => exact ⟨rfl, rfl⟩
  | cons p r ih => exact ⟨_, _, rfl, rfl, ih _⟩

theorem probes_of (a : Agent) (need : Need) (s : State) (l : List (Word × Nat)) :
    Probes a need s l (probesOf a need s l).1 (probesOf a need s l).2 := ⟨_, probes_from .., rfl⟩

theorem hits_of {l : List Probe} (h : l.all isHit = true) : l = (l.map hitOf).map Probe.hit := by
  induction l with
  | nil => rfl
  | cons p r ih =>
    simp only [List.all_cons, Bool.and_eq_true] at h
    simp only [List.map_cons]
    rw [← ih h.2, ← eq_hit h.1]

def bytesRead (v : LoadView) : State → List (Nat × Nat) → List (List Byte) × State × Bool
  | s, [] => ([], s, false)
  | s, p :: r =>
    let x := s.loadBytes v p.1 p.2
    let q := bytesRead v x.1 r
    (x.2.1 :: q.1, q.2.1, x.2.2 || q.2.2)

theorem reads_of (v : LoadView) (s : State) (l : List (Nat × Nat)) (h : (bytesRead v s l).2.2 = false) :
    ReadsAll v s l (bytesRead v s l).1 (bytesRead v s l).2.1 := by
  induction l generalizing s with
  | nil => exact ⟨rfl, rfl⟩
  | cons p r ih =>
    simp only [bytesRead, Bool.or_eq_false_iff] at h
    exact ⟨_, _, _, rfl, Prod.ext rfl (Prod.ext rfl h.1), ih _ h.2⟩

theorem no_outside {l : List Probe} (h : l.all isHit = true) : ∀ p ∈ l, p ≠ .outside := by
  intro p hp hq
  have := List.all_eq_true.1 h p hp
  rw [hq] at this; cases this

def waiting1 : State := (inStrip.mark (pUse 0) (inStrip.vUse 4 0)).withVl 4
def unit4 : List (Word × Nat) := (activeBelow inStrip 0 4).map fun e => (inStrip.x 1 + BitVec.ofNat 64 (e * 4), 4)

theorem test_wit_VectorLoads : Aligned inStrip 4 ∧ (7#3 ≠ 5) ∧ Ready inStrip (pUse 0) (inStrip.vUse 4 0) ∧
    Ready inStrip (inStrip.vUse 8 2 ++ pUse 0) (inStrip.vUse 4 0) ∧ activeBelow inStrip 0 4 = [0, 1, 2, 3] ∧
    ∃ ps v, ∃ hs : List Hit, ∃ bss w, Probes waiting1.self .read waiting1 unit4 ps v ∧ ps = hs.map Probe.hit ++ [] ∧ (∀ p ∈ ps, p ≠ .outside) ∧
      ReadsAll (v.view 0) v (hs.map fun h => (h.loc, 4)) bss w ∧ Unhindered inStrip 0 (hs.map fun h => (h.loc, 4)) := by
  have h : ((probesOf waiting1.self .read waiting1 unit4).1.all isHit) = true := by decide +kernel
  refine ⟨by unfold Aligned; decide +kernel, by decide, by simp only [ready_iff]; decide +kernel, by simp only [ready_iff]; decide +kernel,
    by decide +kernel, _, _, (probesOf waiting1.self .read waiting1 unit4).1.map hitOf, _, _, probes_of .., by simpa using hits_of h, no_outside h,
    reads_of _ _ _ (by decide +kernel), unhindered_of (by decide +kernel)⟩
/-- The second of three words has an uncorrectable error. -/
theorem test_wit_VectorLoads_poison : (let s : State := { waiting1 with poison := [0x1000] }
    ∃ w w' bs, ReadsAll (s.view 0) s [] [] w ∧ w.loadBytes (s.view 0) 0x1000 4 = (w', bs, true)) := by
  refine ⟨_, _, _, ⟨rfl, rfl⟩, Prod.ext rfl (Prod.ext rfl ?_)⟩; decide +kernel
/-- One block of 17 bytes. -/
def block : List (Word × Nat) := (List.range (17 * ((inStrip.vl + 31) / 32))).map fun k => (inStrip.x 1 + BitVec.ofNat 64 k, 1)
def blockRead : State := inStrip.mark (pUse 0) (inStrip.vUse 4 0)
def blockWritten : State := inStrip.mark (inStrip.vUse 12 0 ++ pUse 0) []

theorem probes_hits {a : Agent} {need : Need} {s : State} {l : List (Word × Nat)} (h : (probesOf a need s l).1.all isHit = true) :
    Probes a need s l (((probesOf a need s l).1.map hitOf).map Probe.hit) (probesOf a need s l).2 := by
  have := probes_of a need s l
  rwa [hits_of h] at this

theorem test_wit_VectorLoads_blocks : ∃ hs : List Hit, ∃ v bss w, Probes blockRead.self .read blockRead block (hs.map Probe.hit) v ∧
      ReadsAll (v.view 0) v (hs.map fun h => (h.loc, 1)) bss w ∧ Unhindered inStrip 0 (hs.map fun h => (h.loc, 1)) :=
  ⟨_, _, _, _, probes_hits (by decide +kernel), reads_of _ _ _ (by decide +kernel), unhindered_of (by decide +kernel)⟩

def tensor : State := inStrip.withCsr { inStrip.hart.csr with dim0 := 0x4_00000002, dim1 := 0x8_00000002 }

theorem test_wit_VectorLoads_tensor : (2#2 ≠ 0) ∧ (∀ k, k < 2 → dimLength tensor k ≠ 0) ∧ TensorEnd tensor 0 2 4 ∧
    dimLength inStrip 0 = 0 := by
  refine ⟨by decide, by decide +kernel, ⟨?_, .inl (by decide +kernel)⟩, by decide +kernel⟩
  unfold dimLength; decide +kernel
theorem test_wit_VectorLoads_end : (let s := tensor.withCsr { tensor.hart.csr with dim1 := 0x8_00000001 }; TensorEnd s 0 2 2) := by
  refine ⟨?_, .inr ?_⟩ <;> unfold dimLength <;> decide +kernel
theorem test_wit_VectorLoads_fault : (let s := regs [(1, 0x1001)] waiting1
    ((probesOf s.self .read s ((activeBelow s 0 4).map fun e => (s.x 1 + BitVec.ofNat 64 (e * 4), 4))).1) =
      [.fault 0x14, .fault 0x14, .fault 0x14, .fault 0x14]) := by decide +kernel
theorem test_wit_VectorLoads_trim : (let s := regs [(1, 0xFFF0000000000000 + 193 * 8388608 - 8)] waiting1
    ((probesOf s.self .read s ((activeBelow s 0 4).map fun e => (s.x 1 + BitVec.ofNat 64 (e * 4), 4))).1.map isHit,
      (probesOf s.self .read s ((activeBelow s 0 4).map fun e => (s.x 1 + BitVec.ofNat 64 (e * 4), 4))).1.getLast?) =
      ([true, true, false, false], some (.fault 0x09))) ∧ Trims false 2 0x09 := ⟨by decide +kernel, by unfold Trims; decide⟩

def waitingS : State := (inStrip.mark (inStrip.vUse 12 0 ++ pUse 0) []).withVl 4

theorem test_wit_VectorStores : Aligned inStrip 12 ∧ (7#3 ≠ 5) ∧ Ready inStrip (inStrip.vUse 12 0 ++ pUse 0) [] ∧
    Ready inStrip (inStrip.vUse 12 0 ++ inStrip.vUse 8 2 ++ pUse 0) [] ∧
    inStrip.hart.strip.used + (activeBelow inStrip 0 inStrip.vl).length ≤ 16384 ∧
    ∃ ps v, ∃ hs : List Hit, Probes waitingS.self .write waitingS unit4 ps v ∧ ps = hs.map Probe.hit ++ [] ∧ ∀ p ∈ ps, p ≠ .outside := by
  have h : ((probesOf waitingS.self .write waitingS unit4).1.all isHit) = true := by decide +kernel
  exact ⟨by unfold Aligned; decide +kernel, by decide, by simp only [ready_iff]; decide +kernel, by simp only [ready_iff]; decide +kernel, by decide +kernel,
    _, _, (probesOf waitingS.self .write waitingS unit4).1.map hitOf, probes_of .., by simpa using hits_of h, no_outside h⟩
theorem test_wit_VectorStores_full : (let s := inStrip.withStrip { inStrip.hart.strip with used := 16381 }
    16384 < s.hart.strip.used + (activeBelow s 0 s.vl).length ∧ s.stripOpen = true) := by decide +kernel
theorem test_wit_VectorStores_blocks : ∃ hs : List Hit, ∃ v, inStrip.hart.strip.used + 32 * ((inStrip.vl + 31) / 32) ≤ 16384 ∧
      Probes blockWritten.self .write blockWritten block (hs.map Probe.hit) v :=
  ⟨_, _, by decide +kernel, probes_hits (by decide +kernel)⟩
theorem test_wit_VectorAtomics : Aligned inStrip 12 ∧ Aligned inStrip 8 ∧ Ready inStrip (inStrip.vUse 12 0 ++ inStrip.vUse 8 2 ++ pUse 0) [] ∧
    inStrip.hart.csr.det = false ∧ inStrip.hart.strip.used + (activeBelow inStrip 0 inStrip.vl).length ≤ 16384 := by
  unfold Aligned; simp only [ready_iff]; decide +kernel

/-! Matrix state. -/

/-- All 64 rows of the band are used, one column. -/
def knotted : State := regs [(6, 0x3F800000), (7, 4), (8, 0x1234), (4, 1)] matrixStrip
def spline : State := after (exec (.mknot 1 6 7) knotted)

theorem test_wit_MatrixConfig : 1 ≤ (two.x 2).toNat ∧ (two.x 2).toNat ≤ 16 ∧ two.core.matrix = none ∧ two.close = .ok two ∧
    ¬ (∃ m, two.core.matrix = some m ∧ m.owner ≠ two.cur) := by
  refine ⟨by decide, by decide, rfl, rfl, ?_⟩
  rintro ⟨m, h, -⟩
  have : two.core.matrix = none := rfl
  rw [this] at h; cases h
theorem test_wit_MatrixConfig_elsewhere : ∃ m, (matrixed.focus 1).core.matrix = some m ∧ m.owner ≠ (matrixed.focus 1).cur := by
  obtain ⟨m, h, k⟩ := some_of (x := (matrixed.focus 1).core.matrix) (p := fun m => m.owner != (matrixed.focus 1).cur) (by decide +kernel)
  exact ⟨m, h, by simpa using k⟩
theorem test_wit_MatrixConfig_own : ∃ m, matrixStrip.ownMatrix = some m ∧ (cwf m.acc && cwf m.pend && cwf m.sel && m.rows.length == 4) = true :=
  some_of (by decide +kernel)
theorem test_wit_MatrixConfig_operands : Unread matrixStrip (bandUse 0 0) ∧ 1 ≤ (knotted.x 4).toNat ∧ (knotted.x 4).toNat ≤ 256 ∧
    knotAValid (knotted.x 6) = true ∧ knotBValid (knotted.x 7 &&& 0x1FF) = true ∧ knotAValid (knotted.x 8) = true ∧ knotAValid 0 = false ∧
    knotBValid (0 &&& 0x1FF) = false ∧ (knotted.x 4).toNat + (knotted.x 4).toNat ≤ 64 := by
  refine ⟨?_, by decide +kernel⟩
  intro _; decide +kernel
theorem test_wit_MatrixConfig_detach : ∃ u, spline.close = .ok u ∧ spline.core.matrix ≠ none ∧
    ¬ ∃ m, spline.core.matrix = some m ∧ m.owner ≠ spline.cur := by
  obtain ⟨u, h⟩ := ok_of (x := spline.close) (by decide +kernel)
  refine ⟨u, h, by decide +kernel, ?_⟩
  rintro ⟨m, e, k⟩
  have : spline.core.matrix.all (fun m => m.owner == spline.cur) = true := by decide +kernel
  rw [e] at this
  exact k (by simpa using this)
theorem test_wit_MatrixScale : ¬ Spoilt spline 48 ∧ ¬ Spoilt spline (53 + (1#5).toNat) ∧ ∃ m, spline.ownMatrix = some m ∧ (let p := m.knots[(1#5).toNat]?.getD ⟨0, 0⟩
    p.g ≠ 0 ∧ 2 * p.g ≤ 12 ∧ 2 * p.g + p.ord ≤ 15 ∧ cwf m.slots = true ∧ m.rows.length ≤ 16 ∧
    (val32 (BitVec.ofNat 32 (fp32.round .rne ((val32 p.invh).mul (.fin false 2 0)).val).pat)).isFinite = true) := by
  obtain ⟨m, h, k⟩ := some_of (x := spline.ownMatrix) (p := fun m => let p := m.knots[(1#5).toNat]?.getD ⟨0, 0⟩
    decide (p.g ≠ 0 ∧ 2 * p.g ≤ 12 ∧ 2 * p.g + p.ord ≤ 15 ∧ cwf m.slots = true ∧ m.rows.length ≤ 16 ∧
    (val32 (BitVec.ofNat 32 (fp32.round .rne ((val32 p.invh).mul (.fin false 2 0)).val).pat)).isFinite = true)) (by decide +kernel)
  refine ⟨?_, ?_, m, h, by simpa using k⟩ <;> (rw [spoilt_iff]; decide +kernel)
theorem test_wit_MatrixScale_close : (∃ u, spline.close = .ok u) ∧ ∃ m, matrixStrip.ownMatrix = some m ∧
    ((m.pendTags[(1#5).toNat]?.getD 0).toInt + 127 ≤ 127 && decide (127 < (m.pendTags[(1#5).toNat]?.getD 0).toInt + 128) &&
     ((m.knots[(1#5).toNat]?.getD ⟨0, 0⟩).g == 0)) = true :=
  ⟨ok_of (by decide +kernel), some_of (by decide +kernel)⟩
theorem test_wit_MatrixMoves : (∃ m, matrixStrip.ownMatrix = some m ∧ (cwf m.tiles && cwf m.pend && cwf m.slots) = true) ∧
    Aligned matrixStrip 8 ∧ Ready matrixStrip (matrixStrip.vUse 8 1) (tUse 2 0) ∧ MoveIndex matrixStrip (.vi 31) 8 63 31 ∧
    Ready matrixStrip (tUse 2 1) (matrixStrip.vUse 4 0) ∧ Ready matrixStrip [] (matrixStrip.vUse 4 0) ∧
    Ready matrixStrip (matrixStrip.vUse 8 1) [] ∧ Ready matrixStrip [] (tUse 2 0) ∧ Ready matrixStrip (tUse 2 1) (bandUse 1 0) ∧
    Ready matrixStrip (bandUse 1 1) (tUse 2 0) ∧ Ready matrixStrip (accUse 1 1) (matrixStrip.vUse 4 0) ∧
    (matrixStrip.x 3).toNat < 64 :=
  ⟨some_of (by decide +kernel), by unfold Aligned; decide +kernel, by simp only [ready_iff]; decide +kernel, ⟨by decide, by decide⟩,
   by simp only [ready_iff]; decide +kernel⟩
theorem test_wit_MatrixMoves_top : MoveIndex (regs [(3, 255)] matrixStrip) (.vs 3) 8 255 255 ∧ narrowTarget (regs [(3, 0x13F)] matrixStrip) (.vs 3) = true ∧
    MoveIndex (regs [(3, 0x13F)] matrixStrip) (.vs 3) 9 63 63 := by
  refine ⟨⟨by decide, ?_⟩, by decide +kernel, by decide, ?_⟩ <;> decide +kernel
theorem test_wit_MatrixPasses : (∃ m, matrixStrip.ownMatrix = some m ∧ (cwf m.tiles && cwf m.pend &&
      decide (m.pendTags[(1#5).toNat]? = some matrixStrip.hart.csr.lse)) = true) ∧
    Ready matrixStrip (tUse 1 1 ++ pUse 0 ++ bandUse 1 0 ++ accUse 1 0) [] ∧ Ready matrixStrip (tUse 1 1 ++ tUse 2 2 ++ bandUse 1 0 ++ accUse 1 0) [] :=
  ⟨some_of (by decide +kernel), by simp only [ready_iff]; decide +kernel⟩
theorem test_wit_MatrixPasses_untagged : (let s := matrixStrip.withCsr { matrixStrip.hart.csr with lse := 1 }
    (∃ m, s.ownMatrix = some m ∧ decide (m.pendTags[(1#5).toNat]? ≠ some s.hart.csr.lse) = true) ∧
    Ready s (tUse 1 1 ++ pUse 0 ++ bandUse 1 0 ++ accUse 1 0) [] ∧ s.span < 64) :=
  ⟨some_of (by decide +kernel), by simp only [ready_iff]; decide +kernel, by decide +kernel⟩
theorem test_wit_MatrixPasses_gradient : (let s := { matrixStrip with hart := { matrixStrip.hart with strip :=
    { matrixStrip.hart.strip with written := 1 <<< 41 } } }
    Ready s (tUse 1 0 ++ tUse 2 1 ++ tUse 3 2 ++ bandUse 1 0) (tUse 1 0)) := by simp only [ready_iff]; decide +kernel

/-- X and Y: 64 rows of 512 bytes at 0 and at 0x8000, chunks 0x10000 apart. -/
def macros : State := regs [(10, 0x200_00000000), (11, 0x400_00010000), (12, 0x200_00008000), (13, 0x400_00010000)] matrixStrip

theorem vaultOk_of {s : State} {r : BitVec 5} {q n : Nat} (p : (s.partAt s.hart.ctl.part).pair.isNone = true)
    (h : (let o := s.vaultOp r
      decide (r.getLsbD 0 = false ∧ (s.x (r + 1)).extractLsb' 48 16 = 0 ∧ 1 ≤ o.rows ∧ o.rows ≤ 64 ∧ o.base % 2 = 0 ∧
        o.rpitch % 2 = 0 ∧ o.tpitch % 2 = 0 ∧ o.base + q * o.tpitch + 64 * o.rpitch + 512 ≤ 8388608)) = true) : VaultOk s r q n := by
  have k := of_decide_eq_true h
  refine ⟨k.1, k.2.1, k.2.2.1, k.2.2.2.1, k.2.2.2.2.1, k.2.2.2.2.2.1, k.2.2.2.2.2.2.1, ?_⟩
  intro i j c hi hj _
  refine ⟨?_, .inl (by simpa using p)⟩
  have e := k.2.2.2.2.2.2.2
  have a : i * (s.vaultOp r).tpitch ≤ q * (s.vaultOp r).tpitch := Nat.mul_le_mul_right _ (by omega)
  have b : j * (s.vaultOp r).rpitch ≤ 64 * (s.vaultOp r).rpitch := Nat.mul_le_mul_right _ (by omega)
  have c64 : (c / 4 + j * (s.vaultOp r).rot) % 64 < 64 := Nat.mod_lt _ (by decide)
  simp only [VaultOp.offset]
  omega

theorem test_wit_MacroOperations : (∃ m, macros.ownMatrix = some m ∧ (decide (4 ≤ m.rows.length) && decide (m.mvl = 256) &&
      decide (m.pendTags[(1#5).toNat]? = some macros.hart.csr.lse)) = true) ∧
    macros.stripOpen = true ∧ macros.hart.csr.mseqAct = false ∧ stepNow macros < 4 ∧ VaultOk macros 10 2 256 ∧ VaultOk macros 12 32 256 ∧
    Ready macros (pUse 0 ++ accUse 1 0) (bandUse 1 0) ∧ Ready macros (bandUse 1 0 ++ (accUse 1 0 ++ accUse 2 0)) [] ∧
    Ready macros (bandUse 1 0) [] ∧ Ready macros [] (bandUse 1 0) ∧ macros.hart.strip.used + 2 * (64 * 64) ≤ 16384 ∧
    Unhindered macros 0 [(2 ^ 52 + coreOf macros.cur * 8388608, 8388608)] :=
  ⟨some_of (by decide +kernel), by decide +kernel, by decide +kernel, by decide +kernel, vaultOk_of (by decide +kernel) (by decide +kernel),
   vaultOk_of (by decide +kernel) (by decide +kernel), by simp only [ready_iff]; decide +kernel, by simp only [ready_iff]; decide +kernel,
   by simp only [ready_iff]; decide +kernel, by simp only [ready_iff]; decide +kernel, by decide +kernel, unhindered_of (by decide +kernel)⟩
theorem test_wit_MacroOperations_cleared : (let s := macros.withCsr { macros.hart.csr with lse := 1 }
    Ready s (pUse 0 ++ []) (bandUse 1 0) ∧ Ready s (bandUse 1 0 ++ []) [] ∧ stepNow s = 0) := by
  simp only [ready_iff]; decide +kernel
/-- One element of each of two chunks: the second step finds mseq where the first left it. -/
theorem test_macro_steps : (let s := after (exec (.msetvl 0 4) (regs [(4, 1), (11, 0x10_00010000)] macros))
    let t := after (exec (.tldc 1 10 2 1 3) s)
    let u := after (exec (.tldc 1 10 2 1 3) t)
    ((t.hart.csr.mseqAct, t.hart.csr.mseqStep, t.hart.pc - s.hart.pc), u.hart.csr.mseqAct, u.hart.csr.mseqStep, u.hart.pc - s.hart.pc)) =
    ((true, 1, 0), false, 0, 8) := by decide +kernel
theorem test_wit_MacroOperations_step : (∃ m, macros.ownMatrix = some m ∧ (decide (m.mvl ≤ 256) && decide (m.rows.length ≤ 16) &&
      cwf m.slots && cwf m.sel && cwf m.pend) = true) ∧ macros.hart.strip.buf = [] ∧ macros.poison = [] ∧ macros.repair.weak = [] ∧
    (macros.vaultOp 10).rows ≤ 64 ∧ (macros.vaultOp 12).rows ≤ 64 ∧
    (∀ h c, h < (macros.vaultOp 10).rows → c ∈ List.range 64 → InOwnVault macros ((macros.vaultOp 10).offset 1 h c)) := by
  refine ⟨some_of (by decide +kernel), by decide +kernel, by decide +kernel, by decide +kernel, by decide +kernel, by decide +kernel, ?_⟩
  have v := (vaultOk_of (s := macros) (r := 10) (q := 2) (n := 256) (by decide +kernel) (by decide +kernel)).2.2.2.2.2.2.2
  intro h c hh hc
  exact v 1 h c (by decide) hh (by have := List.mem_range.1 hc; omega)

/-! Sparse volumes. A volume whose root has one entry, the leaf at 0x41000; its coordinates are -4 to 3. -/

def volume : VDesc := ⟨0x3000, 0x40000, 0, 0, 4, false, false, 7⟩

def volumed : State :=
  let s := vecs [(4, [1, 2, 3, 4]), (8, [1, 2, 3, 0]), (9, [0, 0, 0, 0]), (10, [0, 0, 0, 0xFFFFFFFC])] inStrip
  { s with
    hart := { s.hart with vdesc := #v[some volume, none, none, none] }
    mem := writeCells s.mem 0x40000 (leBytes 8 0x41000) }

def foundOf (mk : Voxel → Lath) (st : BitVec 2) (data : Bool) : State → List Voxel → List Found × State × Bool
  | s, [] => ([], s, true)
  | s, p :: r =>
    match s.findVoxel (mk p) st data with
    | (u, .ok f) => let q := foundOf mk st data u r; (f :: q.1, q.2)
    | (u, .error _) => ([], u, false)

theorem finds_all (mk : Voxel → Lath) (st : BitVec 2) (data : Bool) (s : State) (l : List Voxel) (h : (foundOf mk st data s l).2.2 = true) :
    FindsAll mk st data s l (foundOf mk st data s l).1 (foundOf mk st data s l).2.1 := by
  induction l generalizing s with
  | nil => exact ⟨rfl, rfl⟩
  | cons p r ih =>
    rw [foundOf] at h ⊢
    split at h
    · rename_i u f e
      simp only at h ⊢
      exact ⟨f, _, u, rfl, e, ih _ h⟩
    · exact absurd h (by simp)

def volumeReads : List Use := volumed.vUse 8 1 ++ volumed.vUse 9 1 ++ volumed.vUse 10 1 ++ slotUse 0 2 ++ pUse 0
def voxels4 : List Voxel := (activeBelow volumed 0 volumed.vl).map fun e =>
  ⟨e, (volumed.elem 8 e).toInt, (volumed.elem 9 e).toInt, (volumed.elem 10 e).toInt⟩

theorem test_wit_Volumes : volumed.slot 0 = some volume ∧ (8#5).toNat % volumed.rows = 0 ∧ (8#5).toNat + 3 * volumed.rows ≤ 32 ∧
    Aligned volumed 6 ∧ Ready volumed volumeReads (volumed.vUse 6 0) ∧ Ready volumed volumeReads (mUse 3 0) ∧
    Ready volumed (volumed.vUse 4 0 ++ volumeReads) [] ∧ volumed.hart.strip.used + voxels4.length ≤ 16384 ∧
    (∀ p ∈ voxels4, ∀ c ∈ [p.x, p.y, p.z], (-4 : Int) ≤ c ∧ c ≤ 4 - 1) ∧ volumed.hart.csr.det = false := by
  unfold Aligned; simp only [ready_iff]; decide +kernel
theorem test_wit_Volumes_found : (let mk (p : Voxel) : Lath := ⟨volume, p, false, 8, ⟨0, 0, false, 0, 0, 0⟩⟩
    let u := volumed.mark volumeReads (volumed.vUse 6 0)
    ∃ l w, FindsAll mk 0 true u voxels4 l w ∧ l.map Found.elem = [0, 1, 2, 3] ∧ (l.all fun f => f.hit.isSome) = true ∧
      Unhindered volumed 0 (l.filterMap fun f => f.hit.map fun h => (h.loc, volume.esize))) :=
  ⟨_, _, finds_all _ _ _ _ _ (by decide +kernel), by decide +kernel, by decide +kernel, unhindered_of (by decide +kernel)⟩
theorem test_wit_Volumes_outside : (let s := vecs [(8, [4, 0, 0, 0])] volumed
    ¬ ((s.elem 8 0).toInt ≤ 4 - 1) ∧ (s.withCsr { s.hart.csr with det := true }).hart.csr.det = true) := by decide +kernel
theorem test_wit_Volumes_high : Aligned volumed 4 ∧ volumed.stripOpen = true ∧ 32 < (30#5).toNat + 3 * volumed.rows := by
  unfold Aligned; decide +kernel

def lath : Lath := ⟨volume, ⟨0, 1, 2, 3⟩, false, 8, ⟨0, 0, false, 0, 0, 0⟩⟩
/-- Nothing is mapped: every element is absent. -/
def unvoxed : State := { volumed with mem := mapped.mem }

theorem hit_node {p : Probe} (h : nodeOf (hitOf p).loc = 0) : ∀ g, p = .hit g → nodeOf g.loc = 0 := by
  intro g hg; rw [hg] at h; exact h

theorem test_wit_Volumes_walk : ∃ u, Walks lath 0 0 volume.root volumed (.leaf 0x41000) u ∧ (∀ e ∈ volumed.core.clb, e.key ≠ volumed.leafKey volume lath.vox) ∧
    u.core.clb.length < Config.clbEntries := by
  refine ⟨_, ⟨_, _, Prod.ext rfl (eq_hit (by decide +kernel)), by decide +kernel, by decide +kernel, .inr ⟨0x41000, by decide +kernel, by decide +kernel,
    by decide, by decide, by decide, hit_node (by decide +kernel), rfl, rfl⟩⟩, by decide +kernel, by decide +kernel⟩
theorem test_wit_Volumes_absent : ∃ u va, Walks lath 0 0 volume.root unvoxed (.zero va true) u := by
  refine ⟨_, _, ⟨_, _, Prod.ext rfl (eq_hit (by decide +kernel)), by decide +kernel, by decide +kernel, .inl ⟨by decide +kernel, rfl, rfl⟩⟩⟩
/-- The CLB holds the leaf that the tables name. -/
theorem test_wit_Volumes_cached : (let s : State := { volumed with core := { volumed.core with clb := [⟨volumed.leafKey volume lath.vox, 0x41000⟩] } }
    (s.core.clb.find? fun e => e.key == s.leafKey volume lath.vox) = some ⟨volumed.leafKey volume lath.vox, 0x41000⟩ ∧
    ∃ u, Walks lath 0 0 volume.root s (.leaf 0x41000) u) := by
  refine ⟨by decide +kernel, _, ⟨_, _, Prod.ext rfl (eq_hit (by decide +kernel)), by decide +kernel, by decide +kernel, .inr ⟨0x41000, by decide +kernel,
    by decide +kernel, by decide, by decide, by decide, hit_node (by decide +kernel), rfl, rfl⟩⟩⟩
theorem test_wit_Volumes_allocate : volume.walloc = false ∧ ({ volume with walloc := true } : VDesc).walloc = true ∧
    isHit (volumed.probe volumed.self (volume.addr + 32) 16 .write).2 = true ∧
    ((volumed.probe volumed.self (volume.addr + 32) 16 .write).1).poisoned (hitOf (volumed.probe volumed.self (volume.addr + 32) 16 .write).2).loc 16 = false ∧
    ((volumed.probe volumed.self (volume.addr + 32) 16 .write).1).readNat
      ((hitOf (volumed.probe volumed.self (volume.addr + 32) 16 .write).2).loc + 8) 8 < 512 * volume.esize := by decide +kernel

/-- The pool of the volume's record at 0x3000: chunks from 0x50000 to 0x60000. -/
def pool : State := { unvoxed with mem := writeCells unvoxed.mem 0x3020 ([0x50000, 0x60000].flatMap (leBytes 8)) }
def growing : Lath := { lath with desc := { volume with walloc := true }, writer := true }

theorem claims_of {c : Lath} {va : Word} {leaf : Bool} {s : State} (w : c.desc.walloc = true) (z : 0 < (if leaf then 512 * c.desc.esize else 32768))
    (h : isHit (s.probe s.self va 8 .write).2 = true)
    (k : let s0 := (s.probe s.self va 8 .write).1
      let p := s0.probe s0.self (c.desc.addr + 32) 16 .write
      let loc := (hitOf p.2).loc
      let next := p.1.readNat loc 8
      let s2 := written (p.1.noteRead loc 16) loc (leBytes 8 (next + (if leaf then 512 * c.desc.esize else 32768)))
      let q := s2.reachAddr s2.self (BitVec.ofNat 64 next) .write
      isHit p.2 = true ∧ nodeOf loc = 0 ∧ p.1.poisoned loc 16 = false ∧ next + (if leaf then 512 * c.desc.esize else 32768) ≤ p.1.readNat (loc + 8) 8 ∧
        next % 65536 + (if leaf then 512 * c.desc.esize else 32768) ≤ 65536 ∧ isHit q.2 = true ∧ nodeOf (hitOf q.2).loc = 0) : ∃ t, Claims c va leaf s t := by
  dsimp only at k
  obtain ⟨s0, e, p0⟩ : ∃ s0 e, s.probe s.self va 8 .write = (s0, .hit e) := ⟨_, _, Prod.ext rfl (eq_hit h)⟩
  rw [p0] at k
  obtain ⟨s1, e1, p1⟩ : ∃ s1 e1, s0.probe s0.self (c.desc.addr + 32) 16 .write = (s1, .hit e1) := ⟨_, _, Prod.ext rfl (eq_hit k.1)⟩
  simp only [p1, hitOf] at k
  obtain ⟨-, k2, k3, k4, k5, k6, k7⟩ := k
  generalize hq : State.reachAddr _ _ _ _ = q at k6 k7
  exact ⟨_, w, z, e, e1, hitOf q.2, s0, s1, q.1, p0, p1, k2, k3, k4, k5, hq.trans (Prod.ext rfl (eq_hit k6)), k7, rfl⟩
theorem test_wit_Volumes_claim : ∃ t, Claims growing 0x40000 true pool t :=
  claims_of rfl (by decide) (by decide +kernel) (by decide +kernel)
/-- A chunk is claimed; the next turn installs it. -/
theorem test_claims : (let h := { pool.hart with vdesc := #v[some growing.desc, none, none, none] }
    let s : State := ({ pool with hart := h } : State).withCsr { pool.hart.csr with vl := 1 }
    let t := after (exec (.vstc 0 4 8 0 0) s)
    (t.hart.claim.map fun k => (k.entry, k.waste, k.chunk, k.size), t.hart.pc == s.hart.pc)) = (some (0x40000, 0x3030, 0x50000, 2048), true) := by decide +kernel
def claimed : State := { pool with hart := { pool.hart with claim := some ⟨0x40000, 0x3030, 0x50000, 2048, 0, 0⟩ } }
theorem test_wit_Volumes_install : claimed.hart.claim = some ⟨0x40000, 0x3030, 0x50000, 2048, 0, 0⟩ ∧ claimed.hart.run = .running ∧ claimed.agenda = [] ∧
    (let s0 : State := { claimed with hart := { claimed.hart with claim := none } }
     ∃ u h, s0.probe s0.self 0x40000 8 .write = (u, .hit h) ∧ u.mem.wf = true ∧ leNat (u.bytes h.loc 8) = 0) :=
  ⟨rfl, by decide, by decide, _, _, Prod.ext rfl (eq_hit (by decide +kernel)), by decide +kernel, by decide +kernel⟩
theorem test_installs : (let u := after (step claimed)
    (leNat (u.bytes 0x40000 8), u.hart.claim.isNone, u.hart.pc == claimed.hart.pc)) = (0x50000, true, true) := by decide +kernel
/-- Another has installed a chunk: 2,048 bytes are wasted. -/
theorem test_wit_Volumes_waste : (let s : State := { claimed with mem := writeCells claimed.mem 0x40000 (leBytes 8 0x41000) }
    (s.mem.wf, leNat (s.bytes 0x40000 8), leNat ((after (step s)).bytes 0x3030 8))) = (true, 0x41000, 2048) := by decide +kernel
/-- The entry 8 names no table. -/
theorem test_wit_Volumes_ahead : (let s : State := { volumed with mem := writeCells volumed.mem 0x40000 (leBytes 8 8) }
    (match (s.findVoxel { lath with writer := false } 0 false).2 with
    | .error (.fault g) => g.cause
    | _ => 0) = 0x0B) := by decide +kernel
theorem test_wit_Volumes_setvol : Ready volumed [] (slotUse 1 2) ∧ volumed.slot 1 = none ∧ Ready volumed (slotUse 1 2) [] :=
  ⟨by simp only [ready_iff]; decide +kernel, by decide +kernel, by simp only [ready_iff]; decide +kernel⟩
/-- The record of the volume at 0x1000, one access of 64 bytes; two of eight for a box. -/
def settled : State := regs [(1, 0x10000)] { volumed with mem := writeCells volumed.mem 0x10000 ([0x40000, 0x460, 7, 0, 0, 0, 0, 0].flatMap (leBytes 8)) }
def slotted : State := settled.mark [] (slotUse 1 2)
theorem test_wit_Volumes_record : ∃ hs : List Hit, ∃ w bss x, Probes slotted.self .read slotted [(settled.x 1, 64)] (hs.map Probe.hit) w ∧
    (¬ ∃ h ∈ hs, nodeOf h.loc ≠ 0) ∧ ReadsAll (w.view 0) w ((hs.zip [(settled.x 1, 64)]).map fun p => (p.1.loc, p.2.2)) bss x ∧
    Unhindered slotted 0 ((hs.zip [(settled.x 1, 64)]).map fun p => (p.1.loc, p.2.2)) := by
  refine ⟨_, _, _, _, probes_hits (by decide +kernel), ?_, reads_of _ _ _ (by decide +kernel), unhindered_of (by decide +kernel)⟩
  rintro ⟨h, k, n⟩
  have : ((probesOf slotted.self .read slotted [(settled.x 1, 64)]).1.map hitOf).all (fun h => nodeOf h.loc == 0) = true := by decide +kernel
  exact n (by simpa using List.all_eq_true.1 this h k)
theorem test_setvol : ((after (exec (.vsetvol 0 1 1) settled)).slot 1).map (fun v => (v.addr, v.root, v.esize, v.bg)) = some (0x10000, 0x40000, 4, 7) := by
  decide +kernel
theorem test_wit_Volumes_far : (let s := regs [(1, 2 ^ 36)] { volumed with mem := far.mem, fabric := far.fabric }
    ((probesOf s.self .read s [(s.x 1, 64)]).1.map fun p => (isHit p, nodeOf (hitOf p).loc)) = [(true, 2)]) := by decide +kernel
theorem test_wit_Volumes_box : (let u := volumed.mark (slotUse 0 2) []
    let l := [(volumed.x 1, 8), (volumed.x 1 + 8, 8)]
    ∃ hs : List Hit, ∃ w bss x, Probes u.self .read u l (hs.map Probe.hit) w ∧
      ReadsAll (w.view 0) w ((hs.zip l).map fun p => (p.1.loc, p.2.2)) bss x ∧ Unhindered u 0 ((hs.zip l).map fun p => (p.1.loc, p.2.2))) :=
  ⟨_, _, _, _, probes_hits (by decide +kernel), reads_of _ _ _ (by decide +kernel), unhindered_of (by decide +kernel)⟩

/-! Engines and user interrupts. -/

/-- A parameter block at 0x1000: 2 bytes from 0x2000 to 0x30040, in region 0. -/
def copying : State := regs [(1, 0x1000), (2, 0)] { skimmed with
  mem := writeCells skimmed.mem 0x1000 ([0x2000, 0x30040, 2].flatMap (leBytes 8)) }

theorem test_wit_EngineIssue : copying.close = .ok copying ∧ (copying.x 1).toNat % 64 = 0 ∧ (copying.queue 0).ops.length < 64 ∧
    (let l := [(copying.x 1, 8), (copying.x 1 + 8, 8), (copying.x 1 + 16, 8)]
     ∃ hs : List Hit, ∃ w bss x, Probes copying.self .read copying l (hs.map Probe.hit) w ∧
      ReadsAll (w.view 0) w ((hs.zip l).map fun p => (p.1.loc, p.2.2)) bss x ∧
      Unhindered copying 0 ((hs.zip l).map fun p => (p.1.loc, p.2.2)) ∧ bss.map leNat = [0x2000, 0x30040, 2]) ∧
    (∃ r, copying.myRegion 0 = some r ∧ (decide (r.base ≤ 0x30040) && decide (0x30040 + 2 ≤ r.base + r.len)) = true) :=
  ⟨rfl, by decide +kernel, by decide +kernel,
   ⟨_, _, _, _, probes_hits (by decide +kernel), reads_of _ _ _ (by decide +kernel), unhindered_of (by decide +kernel), by decide +kernel⟩,
   some_of (by decide +kernel)⟩
/-- At 2^36 a destination is a peer's, one the partition may not reach, or one without translation; at 0x2000 it is this device's. -/
theorem test_wit_EngineIssue_remote : (let s := regs [(1, 0x1000)] far
    let closed : State := { far with fabric := { far.fabric with grants := [] } }
    inVaultSpace (2 ^ 36) = false ∧ canonical (2 ^ 36) = true ∧ s.myRegion 0 = none ∧
    (∃ e, (s.translate { s.self with locks := [] } (2 ^ 36) true).2 = .ok e ∧ e.w = true ∧ nodeOf (e.pa + 2 ^ 36 % 2 ^ e.bits) ≠ 0) ∧
    (∃ e, (s.translate { s.self with locks := [] } 0x2000 true).2 = .ok e ∧ nodeOf (e.pa + 0x2000 % 2 ^ e.bits) = 0) ∧
    (data.translate { data.self with locks := [] } (2 ^ 36) true).2 = .invalid ∧
    (closed.translate { closed.self with locks := [] } (2 ^ 36) true).2 = .outside) := by
  refine ⟨by decide, by decide, by decide +kernel,
    ⟨⟨0, far.hart.sup.xlat1, far.hart.sup.xlat2, 2 ^ 36, 36, 2 ^ 36, 2 * 2 ^ 44, true, true, 36, 36, [(0, 36), (0, 36)]⟩, by decide +kernel⟩,
    ⟨⟨0, far.hart.sup.xlat1, far.hart.sup.xlat2, 0, 36, 0, 0, true, true, 36, 36, [(0, 36), (0, 36)]⟩, by decide +kernel⟩, by decide +kernel, by decide +kernel⟩
/-- The page of a peer without W. -/
theorem test_wit_EngineIssue_readonly : (let s : State := { far with mem := writeCells far.mem 0x800018008 (leBytes 8 (2 ^ 36 + 11)) }
    ∃ e, (s.translate { s.self with locks := [] } (2 ^ 36) true).2 = .ok e ∧ e.w = false ∧ nodeOf (e.pa + 2 ^ 36 % 2 ^ e.bits) ≠ 0) :=
  ⟨⟨0, far.hart.sup.xlat1, far.hart.sup.xlat2, 2 ^ 36, 36, 2 ^ 36, 2 * 2 ^ 44, false, true, 36, 36, [(0, 36), (0, 36)]⟩, by decide +kernel⟩
theorem test_wit_EngineIssue_collective : (let s := regs [(1, 0x1000)] { copying with mem := writeCells skimmed.mem 0x1000 ([0x10].flatMap (leBytes 8)) }
    let l := (List.range 8).map fun k => (s.x 1 + BitVec.ofNat 64 (8 * k), 8)
    ∃ hs : List Hit, ∃ w bss x, Probes s.self .read s l (hs.map Probe.hit) w ∧
      ReadsAll (w.view 0) w ((hs.zip l).map fun p => (p.1.loc, p.2.2)) bss x ∧
      Unhindered s 0 ((hs.zip l).map fun p => (p.1.loc, p.2.2)) ∧ leNat (bss.flatten.take 8) / 16 % 256 = 1) :=
  ⟨_, _, _, _, probes_hits (by decide +kernel), reads_of _ _ _ (by decide +kernel), unhindered_of (by decide +kernel), by decide +kernel⟩

def issued : State := after (exec (.ecopy 0 3 1 1 1 0) copying)
def copied : EngineOp := ⟨1, .copy 0x2000 0x30040 2 0 (.region 0) true true, none, []⟩

theorem test_wit_EngineIssue_tags : (issued.x 3 = 1 ∧ (issued.queue 0).issued = 1 ∧ (issued.queue 0).done < 1 ∧ issued.hart.csr.det = false) ∧
    (issued.queue ((issued.x 2).extractLsb' 62 2)).issued ≥ ((issued.x 2).extractLsb' 0 62).toNat ∧
    (issued.queue ((issued.x 1).extractLsb' 62 2)).issued < ((issued.x 1).extractLsb' 0 62).toNat := by decide +kernel
theorem issued_ops : (issued.queue 0).ops = [copied] := by decide +kernel
theorem test_wit_EngineIssue_publish : (2#3).toNat ≤ 2 ∧ (copying.x 2).toNat ≤ 255 ∧ copying.harts.map Prod.fst = [] ∧
    (∀ k, (copying.queue k).ops = []) ∧ ¬ Behind copying 0xF ∧ copying.mem.wf = true ∧
    copying.regionTable copying.hart.ctl.part copying.hart.sup.xlat2 = some 0x100000 ∧ (∃ r, copying.myRegion 0 = some r) ∧
    copying.myRegion 1 = none := by
  refine ⟨by decide, by decide +kernel, by decide +kernel, by decide +kernel, by unfold Behind; decide +kernel, by decide +kernel, by decide +kernel,
    ?_, by decide +kernel⟩
  obtain ⟨r, h, -⟩ := some_of (x := copying.myRegion 0) (p := fun _ => true) (by decide +kernel)
  exact ⟨r, h⟩
theorem test_wit_EngineIssue_mine : ∃ k, ∃ o ∈ (issued.queue k).ops, WritesRegion o.kind 0 :=
  ⟨0, copied, by rw [issued_ops]; exact List.mem_singleton.2 rfl, .inl ⟨_, _, _, _, _, _, rfl, by decide⟩⟩
theorem test_wit_EngineIssue_others : (let u := issued.focus 1
    ∃ p ∈ u.harts, p.1 ≠ u.cur ∧ (u.hartAt p.1).ctl.part = u.hart.ctl.part ∧
      ∃ k : Fin 4, ∃ o, ((u.hartAt p.1).queues.get k).ops.head? = some o ∧ WritesRegion o.kind 0) := by
  have h : ∃ p ∈ (issued.focus 1).harts, p.1 = 0 := by decide +kernel
  obtain ⟨p, h, e⟩ := h
  refine ⟨p, h, by rw [e]; decide +kernel, by rw [e]; decide +kernel, 0, copied, ?_, .inl ⟨_, _, _, _, _, _, rfl, by decide⟩⟩
  rw [e]; decide +kernel
/-- A write of the hart waits for its path. -/
theorem test_wit_EngineIssue_behind : Behind behind 0xF ∧ behind.close = .ok behind ∧ behind.x 0 = 0 := ⟨by unfold Behind; decide +kernel, rfl, rfl⟩
/-- Operation 1 has ended in error; its EWAIT reports it. -/
def erring : State := copying.withQueue 0 { EngQueue.reset with issued := 1, done := 1, errors := [⟨1, 0x07, 0x2000⟩] }
def frozenQueue : State := copying.withQueue 0 { EngQueue.reset with issued := 1, frozen := true }
theorem test_wit_EngineIssue_errors : erring.close = .ok erring ∧ frozenQueue.close = .ok frozenQueue ∧
    (erring.queue 0).errors = [⟨1, 0x07, 0x2000⟩] ∧ (erring.queue 0).done = 1 ∧
    (frozenQueue.queue 0).frozen = true ∧ (frozenQueue.queue 0).done < (frozenQueue.queue 0).issued :=
  ⟨rfl, rfl, by decide +kernel⟩
theorem test_wit_EngineIssue_signal : ¬ ((copying.queue ((copying.x 0).extractLsb' 62 2)).issued < ((copying.x 0).extractLsb' 0 62).toNat) ∧
    ∃ w h, Reaches copying (copying.x 1) 8 .write w h ∧ GoesOut w 0 h.loc ∧ ¬ Behind copying 0xF :=
  ⟨by decide +kernel, _, _, reaches_of (by decide +kernel), goesOut_of (by decide +kernel), by unfold Behind; decide +kernel⟩
theorem test_wit_EngineIssue_signal_lost : (let s := regs [(1, 2 ^ 36)] lost
    ∃ w h, Reaches s (s.x 1) 8 .write w h ∧ ¬ GoesOut w 0 h.loc ∧ ¬ Behind s 0xF) :=
  ⟨_, _, reaches_of (by decide +kernel), fun k => absurd k.1 (by decide +kernel), by unfold Behind; decide +kernel⟩

/-- RAISE is pending. -/
def raised : State := regs [(1, 0x1F)] (mapped.withUi { mapped.hart.ui with uivec := 0x5000, pendRaise := true, raised := 77 })

theorem test_wit_UserInterrupts : raised.close = .ok raised ∧ raised.hart.priv = .user ∧ raised.hart.ui.inHandler = false ∧
    ¬ (raised.hart.ui.maskEq = 0xF ∧ raised.hart.ui.maskRaise = true) ∧ raised.hart.csr.det = false ∧
    FirstSource raised.hart.ui 0xF .raise ∧ (raised.x 1).toNat < 32 := by
  unfold FirstSource; refine ⟨rfl, ?_⟩; decide +kernel
theorem test_wit_UserInterrupts_handler : (mapped.withUi { mapped.hart.ui with inHandler := true }).hart.ui.inHandler = true ∧
    ∀ src, ¬ FirstSource mapped.hart.ui 0xF src := by
  refine ⟨by decide, ?_⟩
  rintro (q | -)
  · rintro ⟨⟨h, -⟩, -⟩; revert h; revert q; decide +kernel
  · rintro ⟨h, -⟩; exact absurd h (by decide +kernel)
theorem test_wit_UserInterrupts_event : (let u := raised.focus 0
    u.hart.priv = .user ∧ u.stripOpen = false ∧ u.hart.ui.inHandler = false ∧ u.hart.run = .running ∧ u.hart.csr.det = false ∧
    FirstSource u.hart.ui 0xF .raise) := by unfold FirstSource; decide +kernel
/-- With uivec = 0 the handler lies at address 0. -/
theorem test_uivec_zero : (let s := regs [(1, 77)] mapped
    let t := after (exec .uiwait (after (exec (.uiraise 1) s)))
    (t.hart.pc, t.hart.ui.value, t.hart.ui.inHandler)) = (0, 77, true) := by decide +kernel

/-- A deterministic launch waits for the first operation of queue 0, whose completion interrupt is pending. -/
def awaited : State :=
  let s := regs [(1, 1)] ((raised.withUi { raised.hart.ui with pendEq := 1, pendRaise := false }).withQueue 0
    { EngQueue.reset with issued := 1, done := 1, uiDone := [1] })
  s.withCsr { s.hart.csr with det := true }

theorem test_wit_UserInterrupts_det : awaited.close = .ok awaited ∧ (let tag := awaited.x 1
    let q := tag.extractLsb' 62 2
    let k := awaited.queue q
    let seq := (tag.extractLsb' 0 62).toNat
    seq ≤ k.done ∧ seq ≤ k.issued ∧ k.frozen = false ∧ awaited.hart.csr.det = true ∧ awaited.hart.priv = .user ∧
    awaited.hart.ui.inHandler = false ∧ k.errors = [] ∧ (∃ n ∈ k.uiDone, n ≤ seq) ∧
    FirstSource awaited.hart.ui (1#4 <<< q.toNat) (.queue 0)) := by
  unfold FirstSource; refine ⟨rfl, ?_⟩; decide +kernel
def detIssued : State := after (exec (.ecopy 0 3 1 1 1 0) (copying.withCsr { copying.hart.csr with det := true }))
theorem test_wit_UserInterrupts_det_wait : detIssued.hart.csr.det = true ∧ detIssued.hart.ui.inHandler = false ∧
    (detIssued.queue 0).ops.map EngineOp.kind = [copied.kind] ∧ ∃ u, detIssued.close = .ok u :=
  ⟨by decide +kernel, by decide +kernel, by decide +kernel, ok_of (by decide +kernel)⟩
theorem test_wit_UserInterrupts_owed : (let u := (awaited.withUi { awaited.hart.ui with owed := 1 }).focus 0
    u.hart.csr.det = true ∧ FirstSource u.hart.ui u.hart.ui.owed (.queue 0) ∧ u.hart.run = .running) := by unfold FirstSource; decide +kernel

theorem sampled_nil (u : State) : u.sampled [] = u := by
  have h : u.publishedIn u.engine [] = [] := by
    unfold State.publishedIn
    split <;> simp
  simp [State.sampled, h]

theorem open_of {u : State} {va : Word} {n : Nat}
    (h : ∀ i, i < n → isHit (u.reachAddr u.engine (va + BitVec.ofNat 64 i) .read).2 = true ∧
      u.unreadable (hitOf (u.reachAddr u.engine (va + BitVec.ofNat 64 i) .read).2).loc 1 = false) : SourceOpen u [] va n := by
  intro i hi
  rw [sampled_nil]
  exact ⟨_, eq_hit (h i hi).1, (h i hi).2⟩

theorem read_of {u : State} {va : Word} {bs : List Byte}
    (h : ∀ i, i < bs.length → isHit (u.reachAddr u.engine (va + BitVec.ofNat 64 i) .read).2 = true ∧
      u.unreadable (hitOf (u.reachAddr u.engine (va + BitVec.ofNat 64 i) .read).2).loc 1 = false ∧
      bs.getD i 0 = u.byte (hitOf (u.reachAddr u.engine (va + BitVec.ofNat 64 i) .read).2).loc) :
    SourceRead u [] va bs := by
  intro i hi
  refine ⟨_, ?_, (h i hi).2.1, .inl (h i hi).2.2⟩
  rw [sampled_nil]
  exact eq_hit (h i hi).1

def work : State := issued.focus 0

theorem work_queue : work.queue 0 = { EngQueue.reset with issued := 1, ops := [copied] } := by decide +kernel

/-- Bytes of a region within one block. -/
theorem backAt_of {u : State} {region : Nat} {dst : Word} {n : Nat} {loc : Nat → Nat} {r : Region} (l : Leaf) (hr : u.myRegion region = some r)
    (k : r.base ≤ dst.toNat ∧ dst.toNat + n ≤ r.base + r.len ∧ (dst.toNat - r.base) % 64 + n ≤ 64)
    (b : let first := dst.toNat - r.base
      backWalk u u.hart.ctl.part u.hart.sup.xlat2 r first = .ok l ∧ l.w = true ∧
      u.admitted u.hart.ctl.part (backLoc u r first l) (blockLength first n first) true = true ∧ u.noPath (backLoc u r first l) = false ∧
      ∀ i, i < n → backWalk u u.hart.ctl.part u.hart.sup.xlat2 r (first + i) = .ok l ∧ loc i = backLoc u r (first + i) l) :
    BackAt u region dst n loc := by
  obtain ⟨b1, b2, b3, b4, b5⟩ := b
  refine ⟨r, hr, k.1, k.2.1, ?_, fun i hi => ⟨l, (b5 i hi).1, (b5 i hi).2⟩⟩
  rintro off ⟨h1, h2, h3⟩
  obtain rfl : off = dst.toNat - r.base := by omega
  exact ⟨l, b1, b2, b3, b4⟩

theorem test_wit_EngineEvents : work.queue 0 = { EngQueue.reset with issued := 1, ops := [copied] } ∧ work.mem.wf = true ∧ SourceOpen work [] 0x2000 2 ∧
    SourceRead work [] 0x2000 (List.replicate 2 0) ∧ BackAt work 0 0x30040 2 fun i => 0x60040 + i := by
  refine ⟨work_queue, by decide +kernel, open_of (by decide +kernel), read_of (by decide +kernel), ?_⟩
  obtain ⟨r, hr, hk⟩ := some_of (x := work.myRegion 0)
    (p := fun r => decide (r = ⟨0, 0x30000, 0x10000, 0x50000, 0x60000, 0⟩)) (by decide +kernel)
  have e := of_decide_eq_true hk
  subst e
  exact backAt_of ⟨0, 36, true, true⟩ hr (by decide +kernel) (by decide +kernel)
/-- An operation of hart 1 has begun to write region 0 and waits for its source. -/
theorem test_wit_EngineEvents_busy : RegionBusy (work.setHartAt 1 { Hart.reset with
      queues := Vector.replicate 4 { EngQueue.reset with ops := [{ copied with stalled := some 0x2000 }] } }) 0 0 (fun h q => h = 0 ∧ q = 0) := by
  refine ⟨1, .inr (by decide +kernel), by decide +kernel, 0, by decide, { copied with stalled := some 0x2000 }, by decide +kernel, .inl ?_,
    .inl ⟨_, _, _, _, _, _, rfl, by decide⟩⟩
  intro h; cases h
/-- The back backing of region 0 begins at 2^36: unmapped, or in a peer's memory for which there is no grant. -/
def backless (s : State) : State := { s with mem := writeCells s.mem 0x100018 (leBytes 8 (2 ^ 36)) }
theorem test_wit_EngineEvents_back : (let u := backless work
    let v : State := { u with mem := writeCells u.mem 0x800008008 (leBytes 8 (2 * 2 ^ 44 + 15)) }
    let w : State := { u with mem := writeCells u.mem 0x800008008 (leBytes 8 (2 ^ 36 + 11)) }
    let r : Region := ⟨0, 0x30000, 0x10000, 0x50000, 2 ^ 36, 0⟩
    BlockStart 0x40 2 0x40 ∧ u.myRegion 0 = some r ∧
    backWalk u 0 u.hart.sup.xlat2 r 0x40 = .invalid ∧ backWalk v 0 v.hart.sup.xlat2 r 0x40 = .outside ∧
    backWalk w 0 w.hart.sup.xlat2 r 0x40 = .ok ⟨2 ^ 36, 36, false, true⟩) := by
  refine ⟨⟨by decide, by decide, .inl rfl⟩, ?_⟩
  decide +kernel
/-- The copy's destination in a peer's memory: it arrives, its path is lost, no grant admits it, nothing is mapped there. -/
theorem test_wit_EngineEvents_remote : (let meets (u : State) : Probe := (u.reachAddr u.engine (2 ^ 36) .write).2
    isHit (meets far) = true ∧ nodeOf (hitOf (meets far)).loc ≠ 0 ∧ far.noPath (hitOf (meets far)).loc = false ∧
    isHit (meets lost) = true ∧ nodeOf (hitOf (meets lost)).loc ≠ 0 ∧ lost.noPath (hitOf (meets lost)).loc = true ∧
    meets { far with fabric := { far.fabric with grants := [] } } = .outside ∧ meets data = .fault 0x07 ∧
    (let p := (far.reachAddr far.engine 0x2000 .write).2; isHit p = true ∧ nodeOf (hitOf p).loc = 0)) := by decide +kernel
theorem test_wit_EngineEvents_none : (mapped.queue 0).ops = [] ∧ (mapped.withRun (.waiting .queue)).hart.run = .waiting .queue ∧
    (mapped.hartAt 0).run ≠ .waiting .ewait := by decide +kernel
theorem test_wit_EngineEvents_source : (let u : State := { work with poison := [0x2000] }
    u.unreadable (hitOf (u.reachAddr u.engine 0x2000 .read).2).loc 1 = true ∧ isHit (u.reachAddr u.engine 0x2000 .read).2 = true) ∧
    (let u : State := { work with hart := { issued.hart with sup := { issued.hart.sup with xlat1 := 0 } } }
     (u.reachAddr u.engine 0x2000 .read).2 = .fault 0x07) ∧
    (let u : State := { far with fabric := { far.fabric with grants := [] } }
     (u.reachAddr u.engine (2 ^ 36) .read).2 = .outside) := by decide +kernel
theorem test_wit_EngineEvents_stalled : (let u := (work.withQueue 0 { EngQueue.reset with issued := 1, ops := [{ copied with stalled := some 0x2000 }] }).focus 0
    (u.queue 0).frozen = false ∧ (u.queue 0).ops = [{ copied with stalled := some 0x2000 }]) := by decide +kernel

/-- A collective whose list at 0x1000 names device 1, and 2 if there are two members. -/
def gathers (n : Nat) : CollBlock := ⟨0, true, true, n, 0, 0x1000, 0x2000, 0x30000, 4, 0, 0x7000⟩
def collected (n : Nat) (ms : Option (List Member)) : State :=
  let s : State := { far with mem := writeCells (writeCells far.mem 0x1000 [1, 0, 2, 0]) 0x100000 ([0x30000, 2 ^ 63 + 0x10000, 0x50000, 0x60000, 0].flatMap (leBytes 8))
                              parts := [(0, { Partition.full with rgntab := 0x100000, roots := [far.hart.sup.xlat2] })] }
  (s.withQueue 0 { EngQueue.reset with issued := 1, ops := [⟨1, .coll (gathers n) ms, none, []⟩] }).focus 0

/-- What device d gives, its turn-th collective with this list. -/
def gives (ids : List Nat) (d turn : Nat) : Member :=
  ⟨d, ids, 0, true, true, ids.length, 0, 4, [1, 2, 3, 4], turn, 0x2000, 16⟩

theorem test_wit_EngineEvents_collective : (let u := collected 1 none
    (u.queue 0).ops = [⟨1, .coll (gathers 1) none, none, []⟩] ∧ (u.queue 0).frozen = false ∧ u.mem.wf = true ∧ u.fabric.domain = 1 ∧
    u.byte 0x1000 = 1 ∧ u.byte 0x1001 = 0 ∧
    isHit (u.probe u.engine 0x7000 8 .write).2 = true ∧ u.noPath (hitOf (u.probe u.engine 0x7000 8 .write).2).loc = false ∧
    (∀ i ∈ [1], 1 ≤ i ∧ i ≤ 192) ∧ [gives [1] 1 1].map Member.id = [1] ∧ countedOf u [1] = 0) ∧
    SourceOpen (collected 1 none) [] 0x1000 2 ∧ SourceRead (collected 1 none) [] 0x1000 [1, 0] :=
  ⟨by decide +kernel, open_of (by decide +kernel), read_of (by decide +kernel)⟩
/-- Two members, device 2 with a grant; its turn is the first, as this device's, or the second; no grant; a lost path. -/
theorem test_wit_EngineEvents_members : (let ids := [1, 2]
    let ms := [gives ids 1 1, gives ids 2 1]
    ms.map Member.id = ids ∧ (∀ m ∈ ms, m.ids = ids ∧ m.nmem = 2 ∧ m.count = 4 ∧ m.turn = countedOf (collected 2 none) ids + 1) ∧
    (gives ids 2 2).turn ≠ countedOf (collected 2 none) ids + 1 ∧
    (∃ g ∈ (collected 2 none).fabric.grants, g.srcNode = 1 ∧ g.srcPart = 0 ∧ g.dstNode = 2) ∧
    (collected 2 none).unreachedBuffers ms = false ∧ (collected 2 none).unreachedBuffers [{ gives ids 2 1 with base := 2 ^ 44 }] = true ∧
    (∀ g ∈ (collected 2 none).fabric.grants, ¬ (g.srcNode = 1 ∧ g.srcPart = 0 ∧ g.dstNode = 3)) ∧ 2 ∈ lost.fabric.lost ∧
    ¬ [4, 9, 9].Nodup) := by decide +kernel
theorem test_wit_EngineEvents_formed : (let u := collected 1 (some [gives [1] 1 1])
    (u.queue 0).ops = [⟨1, .coll (gathers 1) (some [gives [1] 1 1]), none, []⟩] ∧ [gives [1] 1 1][0]?.map Member.id = some u.fabric.domain ∧
    u.myRegion 0 = some ⟨0, 0x30000, 0x10000, 0x50000, 0x60000, 0⟩) ∧
    SourceOpen (collected 1 (some [gives [1] 1 1])) [] 0x2000 16 :=
  ⟨by decide +kernel, open_of (by decide +kernel)⟩
/-- No page for STATUS, or one the partition may not reach, or one whose path is lost. -/
theorem test_wit_EngineEvents_status : (let status (u : State) : Probe := (u.probe u.engine (2 ^ 36) 8 .write).2
    status data = .fault 0x07 ∧ status { far with fabric := { far.fabric with grants := [] } } = .outside ∧
    isHit (status lost) = true ∧ lost.noPath (hitOf (status lost)).loc = true) := by decide +kernel
theorem test_wit_EngineEvents_signal : (let u := (after (exec (.esig 3 1 2) issued)).focus 0
    ((u.queue 0).ops.map EngineOp.seq) = [1, 2] ∧ (u.queue 0).firstError = none ∧ u.noPath 0x1000 = false) := by decide +kernel
theorem test_wit_EngineEvents_signal_error : (let o : EngineOp := ⟨2, .sig 1 0x1000 0x1000 none 5, none, []⟩
    let u := (data.withQueue 0 { EngQueue.reset with issued := 2, done := 1, ops := [o], firstError := some 1 }).focus 0
    (u.queue 0).ops = [o] ∧ (u.queue 0).firstError = some 1 ∧ u.mem.wf = true) := by decide +kernel

/-! Events at harts, contexts, invalidations. -/

theorem test_wit_HartEvents : (0 < 192 ∧ knotAValid 0x3F800000 = true ∧ knotAValid 0 = false ∧ matrixed.ownMatrix ≠ none ∧
    ¬ (matrixed.stripOpen = true ∧ matrixed.hart.strip.readFirst.getLsbD 48 = true)) ∧ mapped.ownMatrix = none ∧ tget mapped.parts 1 = none ∧
    (mapped.withRun (.waiting (.held 8))).hart.run = .waiting (.held 8) ∧
    (mapped.withRun (.waiting .wfi)).hart.run = .waiting .wfi ∧ (mapped.withRun (.waiting .grant)).hart.run = .waiting .grant := by
  decide +kernel
theorem test_wit_HartEvents_seen : (let s := matrixStrip.mark (bandUse 0 0) []
    s.stripOpen = true ∧ s.hart.strip.readFirst.getLsbD 48 = true ∧ s.ownMatrix ≠ none) := by decide +kernel
/-- Nothing of the partition is under way; then an operation is queued. -/
theorem test_wit_HartEvents_table : (∃ p, tget work.parts 0 = some p) ∧ mapped.fabric.held = [] ∧ mapped.harts.map Prod.fst = [] ∧
    (∀ q : Fin 4, (mapped.hart.queues.get q).ops = []) ∧ (work.hartAt 0).ctl.part = 0 ∧ ∃ q : Fin 4, ((work.hartAt 0).queues.get q).ops ≠ [] := by
  refine ⟨?_, by decide +kernel⟩
  obtain ⟨p, h, -⟩ := some_of (x := tget work.parts 0) (p := fun _ => true) (by decide +kernel)
  exact ⟨p, h⟩
theorem test_wit_HartEvents_root : (skimmed.hart.sup.xlat2.getLsbD 63 = true ∧ ∃ r ∈ (skimmed.partAt skimmed.hart.ctl.part).roots,
    r.extractLsb' 12 40 = skimmed.hart.sup.xlat2.extractLsb' 12 40) := by
  refine ⟨by decide +kernel, ?_⟩
  rw [show (skimmed.partAt skimmed.hart.ctl.part).roots = [skimmed.hart.sup.xlat2] from by decide +kernel]
  exact ⟨_, List.mem_singleton.2 rfl, by decide +kernel⟩

/-- Hart 0 holds 16 slices for a strip, hart 1 waits for one at priority `pri`. -/
def contested (pri : BitVec 2) : State :=
  let s := strip.setHartAt 1 { Hart.reset with run := .waiting .grant, sup := { SupCsr.reset with hpri := pri } }
  { s with hart := { s.hart with ctl := { s.hart.ctl with holds := 16 } } }

/-- A higher priority takes 15 of the 16 slices; an equal one takes the one slice it lacks. -/
theorem test_wit_HartEvents_revocation : (let x := (contested 1).hartAt 0
    let other := (contested 1).hartAt (sibling 0)
    let total := min (16 - ((contested 1).coreAt 0).slicesLost.length) (((contested 1).partAt other.ctl.part).caps.slice.toNat % 32)
    let n := min other.ctl.slices (min 15 (total - 1))
    other.run = .waiting .grant ∧ x.run ≠ .absent ∧ x.run ≠ .halted ∧ x.ctl.protectedStrip = false ∧
    ((contested 1).coreAt (coreOf 0)).gov.en = false ∧ x.ctl.slices ≠ 0 ∧ other.ctl.slices ≠ 0 ∧ (contested 1).harts.map Prod.fst = [1] ∧
    1 < x.ctl.holds ∧ 1 ≤ n ∧ total < x.ctl.holds + n ∧ x.sup.hpri.toNat < other.sup.hpri.toNat ∧ total ≤ 1 + n ∧
    ((contested 0).hartAt 1).sup.hpri = ((contested 0).hartAt 0).sup.hpri ∧ total ≤ x.ctl.holds ∧ x.ctl.holds = 15 + 1) := by decide +kernel
theorem test_revocation_takes : (let t := after (exec (.grantRevocation 0 1) (contested 1)); let u := after (exec (.grantRevocation 0 15) (contested 0))
    ((t.hartAt 0).ctl.holds, (u.hartAt 0).ctl.holds, ((after (exec (.grantRevocation 0 8) (contested 0))).hartAt 0).ctl.holds)) = (1, 15, 16) := by decide +kernel

def pending : State := { strip with hart := { strip.hart with ctl := { strip.hart.ctl with preempt := true } } }

theorem test_wit_ContextsAndInvalidations : keysCanonical mapped ∧ (mapped.hartAt 0).run = .running ∧ (mapped.hartAt 0).priv = .user ∧
    (mapped.hartAt 0).csr.so = false ∧ keysCanonical strip ∧ ¬ ((strip.hartAt 0).csr.so = false ∨ (strip.hartAt 0).csr.mseqAct = true) ∧
    keysCanonical pending ∧ (pending.hartAt 0).ctl.preempt = true := by
  refine ⟨?_, by decide +kernel, by decide +kernel, by decide +kernel, ?_, by decide +kernel, ?_, by decide +kernel⟩ <;>
    (unfold keysCanonical; decide +kernel)
theorem test_wit_ContextsAndInvalidations_wfi : keysCanonical (strip.withRun (.waiting .wfi)) ∧
    ((strip.withRun (.waiting .wfi)).hartAt 0).run = .waiting .wfi :=
  ⟨by unfold keysCanonical; decide +kernel, by decide +kernel⟩

/-- The context of hart 0, in shadow SRAM or in the save area, with this header. -/
def kept (area : Option Nat) (bad : Bool) : State :=
  { mapped with
    hart := { mapped.hart with run := .halted }
    saved := [(0, ⟨if area.isSome then Vector.replicate 9 0 else mapped.header, true, none, bad, false, area, false⟩)] }
def ctxOf (area : Option Nat) (bad : Bool) : SavedContext :=
  ⟨if area.isSome then Vector.replicate 9 0 else mapped.header, true, none, bad, false, area, false⟩

theorem header_kept (bad : Bool) : HeaderRead (kept none bad) 0 (ctxOf none bad) mapped.header True :=
  ⟨fun _ => ⟨rfl, by simp [ctxOf]⟩, fun a h => by simp [ctxOf] at h⟩
theorem header_area : HeaderRead (kept (some 0x7FC0000000) false) 0 (ctxOf (some 0x7FC0000000) false) (Vector.replicate 9 0)
    (∀ k, 72 ≤ k → k < 256 → (kept (some 0x7FC0000000) false).byte (0x7FC0000000 + k) = 0) := by
  refine ⟨fun h => by simp [ctxOf] at h, fun a h => ?_⟩
  have e : a = 0x7FC0000000 := by simpa [ctxOf, eq_comm] using h
  subst e
  exact ⟨by decide +kernel, by simp⟩
theorem test_wit_ContextsAndInvalidations_restore : (0 < 384 ∧ ((kept none false).hartAt 0).run = .halted ∧ keysCanonical (kept none false)) ∧
    tget (kept none false).saved 0 = some (ctxOf none false) ∧
    ¬ ImageSpoilt (kept none false) 0 (ctxOf none false) mapped.header ∧ ImageSpoilt (kept none true) 0 (ctxOf none true) mapped.header ∧
    (let hd : Vector Word 9 := mapped.header;
      hd[0].extractLsb' 35 13 = 0 ∧ (hd[6].extractLsb' 16 4).toNat = 0 ∧ hd[0].extractLsb' 14 2 = 0 ∧ hd[0].getLsbD 27 = false ∧
      hd[0].extractLsb' 48 16 = 0 ∧ hd[3].extractLsb' 21 3 = 0 ∧ hd[3].extractLsb' 29 3 = 0 ∧ hd[3].extractLsb' 41 7 = 0 ∧
      hd[3].getLsbD 49 = false ∧ hd[3].extractLsb' 56 8 = 0 ∧ hd[6].getLsbD 3 = false ∧ hd[6].getLsbD 7 = false ∧ hd[6].extractLsb' 20 44 = 0 ∧
      ((kept none false).partAt 0).ordinals[(hd[6].extractLsb' 8 8).toNat]? = some (some 0) ∧ hd[0].getLsbD 31 = false) := by
  refine ⟨⟨by decide, by decide +kernel, by unfold keysCanonical; decide +kernel⟩, by decide +kernel, ?_, .inl rfl, by decide +kernel⟩
  rintro (h | ⟨a, h, -⟩ | ⟨-, -, w, h, -⟩)
  · exact absurd h (by decide +kernel)
  · simp [ctxOf] at h
  · have : (kept none false).poison = [] := rfl
    simp [this] at h
/-- An image in the save area whose bytes are all zero has a legal header. -/
theorem test_wit_ContextsAndInvalidations_area : tget (kept (some 0x7FC0000000) false).saved 0 = some (ctxOf (some 0x7FC0000000) false) ∧
    ¬ ImageSpoilt (kept (some 0x7FC0000000) false) 0 (ctxOf (some 0x7FC0000000) false) (Vector.replicate 9 0) ∧
    ((kept (some 0x7FC0000000) false).hartAt 0).ctl.part = 0 ∧ ((kept (some 0x7FC0000000) false).partAt 0).ordinals[0]? = some (some 0) := by
  refine ⟨by decide +kernel, ?_, by decide +kernel, by decide +kernel⟩
  have : (kept (some 0x7FC0000000) false).poison = [] := rfl
  rintro (h | ⟨a, -, h⟩ | ⟨-, -, w, h, -⟩)
  · exact absurd h (by decide +kernel)
  · rcases h with ⟨w, h, -⟩ | ⟨-, w, h, -⟩ <;> simp [this] at h
  · simp [this] at h
theorem test_wit_ContextsAndInvalidations_refused : (let hd : Vector Word 9 := mapped.header.set 0 (1#64 <<< 27)
    hd[0].getLsbD 27 = true) := by decide +kernel

theorem not_in_flight {s : State} {core : Nat} {half : Option Bool} {own : List Nat} (h : s.fabric.held = []) (k : s.harts.map Prod.fst ⊆ own) (c : s.cur ∈ own) :
    ¬ VaultInFlight s core half own := by
  rintro (⟨w, x, -⟩ | ⟨n, x, y, -⟩)
  · simp [h] at x
  · rcases x with rfl | ⟨p, x, rfl⟩
    · exact y c
    · exact y (k (List.mem_map_of_mem x))
theorem not_in_flight_idle {s : State} {core : Nat} {half : Option Bool} (h : s.fabric.held = [])
    (q : ∀ n, (n = s.cur ∨ ∃ p ∈ s.harts, p.1 = n) → (s.hartAt n).csr.so = false ∧ ∀ q : Fin 4, ((s.hartAt n).queues.get q).ops = []) :
    ¬ VaultInFlight s core half [] := by
  rintro (⟨w, x, -⟩ | ⟨n, x, -, y⟩)
  · simp [h] at x
  · rcases y with ⟨y, -⟩ | ⟨j, o, y, -⟩
    · rw [(q n x).1] at y; cases y
    · rw [(q n x).2 j] at y; cases y
/-- Core 1 is idle. -/
theorem test_wit_ContextsAndInvalidations_move : OrdinalTarget (kept none false) 0 0 1 := by
  have e : (kept none false).harts = [] := by decide +kernel
  have c : (kept none false).cur = 0 := rfl
  refine ⟨.inr (by decide +kernel), .inl (by decide +kernel), not_in_flight (by decide +kernel) (by simp [e]) (by simp [c]),
    by decide +kernel, by decide, by decide +kernel, by decide +kernel, not_in_flight_idle (by decide +kernel) ?_, by decide +kernel, ?_⟩
  · rintro n (rfl | ⟨p, h, -⟩)
    · decide +kernel
    · simp [e] at h
  · rintro ⟨k, h, -⟩
    have : ((kept none false).coreAt 1).pinned = [] := by decide +kernel
    simp [this] at h
/-- A store in the buffer was probed through the page of 0x1000. -/
theorem test_wit_ContextsAndInvalidations_through : (let s := storing
    (∃ e ∈ s.hart.strip.buf, ∃ t, e.page = some t ∧ t.part = 0 ∧ t.vbase = 0) ∧ s.hart.csr.so = true ∧ s.fabric.held = []) := by
  refine ⟨?_, by decide +kernel⟩
  have h : ∃ e ∈ storing.hart.strip.buf, (e.page.any fun t => decide (t.part = 0 ∧ t.vbase = 0)) = true := by decide +kernel
  obtain ⟨e, m, k⟩ := h
  obtain ⟨t, h1, h2⟩ := some_of k
  exact ⟨e, m, t, h1, of_decide_eq_true h2⟩
theorem test_wit_ContextsAndInvalidations_waits : behind.fabric.held ≠ [] ∧ ∃ w ∈ behind.fabric.held, ∃ t, w.entry.page = some t ∧ t.vbase = 2 ^ 36 := by
  refine ⟨by decide +kernel, ?_⟩
  have h : ∃ w ∈ behind.fabric.held, (w.entry.page.any fun t => decide (t.vbase = 2 ^ 36)) = true := by decide +kernel
  obtain ⟨e, m, k⟩ := h
  obtain ⟨t, h1, h2⟩ := some_of k
  exact ⟨e, m, t, h1, of_decide_eq_true h2⟩
/-- The range holds a first-stage table of the walk through which a write went: the strip is aborted. -/
theorem test_second_stage_abort : (let t := after (exec (.secondStageInvalidation 0 0x800018000 0x80001BFFF) storing)
    (storing.hart.csr.so, t.hart.csr.so, t.hart.strip.buf.length)) = (true, false, 0) := by decide +kernel

/-! Fabric, repairs, boot. -/

def grant21 : FabricGrant := ⟨2, 0, 1, 0, 0x50000, 0x20000, true⟩
def admitting : State := { skimmed with fabric := { skimmed.fabric with grants := [grant21] } }

theorem test_wit_FabricEvents : (grant21.dstNode = skimmed.fabric.domain ∧ grant21.srcNode ≠ grant21.dstNode ∧
      grant21.base + grant21.len ≤ 2 ^ 39 ∧ grant21 ∉ skimmed.fabric.grants) ∧
    (∃ g ∈ admitting.fabric.grants, g.dstNode = admitting.fabric.domain ∧ g.srcNode = 2 ∧ g.srcPart = 0 ∧ g.base ≤ 0x50000 ∧
      0x50000 + 8 ≤ g.base + g.len ∧ g.write = true ∧ g.dstPart = 0) ∧ admitting.mem.wf = true ∧ admitting.poison = [] := by decide +kernel
/-- A peer adds 1 to a doubleword here. -/
theorem test_remote_amo : leNat ((after (exec (.remoteRequestArrival ⟨2, 0, 0x50000, .amo 0 1 0⟩)
    { admitting with mem := writeCells admitting.mem 0x50000 (leBytes 8 41) })).bytes 0x50000 8) = 42 := by decide +kernel
theorem test_wit_FabricEvents_poison : (let s : State := { admitting with poison := [0x50000] }
    ∃ w ∈ s.poison, wordMeets 0x50000 8 w = true) := by decide +kernel
theorem test_wit_FabricEvents_copy : admitting.regionNumbered 0 (admitting.partAt 0).root2 0 = some ⟨0, 0x30000, 0x10000, 0x50000, 0x60000, 0⟩ ∧
    admitting.stage2In 0 (admitting.partAt 0).root2 0x50000 false = .ok ⟨0, 36, true, true⟩ ∧
    admitting.fabric.normal (0 + 0x50000 % 2 ^ 36) = 0x50000 ∧ admitting.regionNumbered 0 (admitting.partAt 0).root2 5 = none := by decide +kernel
theorem test_wit_FabricEvents_rejection : (work.queue (BitVec.ofNat 2 0)).frozen = false ∧
    (work.queue (BitVec.ofNat 2 0)).ops ≠ [] ∧ work.hart.run = .running ∧ (2#2).toNat < 4 ∧ work.mem.wf = true ∧
    ¬ ((mapped.withRun .frozen).hart.run = .running) ∧ ((mapped.withRun .halted).hart.run = .halted) := by decide +kernel
/-- A drained store of 5 is rejected: what it replaced is there again. -/
theorem test_rejected_store : (let s := after (exec (.sb 2 1 0) (regs [(1, 2 ^ 36), (2, 5)] far))
    let loc := 2 * 2 ^ 44
    let t := after (exec (.remoteRejectionArrival ⟨0, none, false, 0, 0, 0, 2 ^ 36, loc, 1, 0, 0, true, 0⟩) s)
    ((s.byte loc).toNat, (t.byte loc).toNat, t.hart.run == .frozen)) = (5, 0, true) := by decide +kernel

def failing : State := { lost with fabric := { lost.fabric with
  lost := [], spareUsed := 0x8, replays := [(3, 16)], laneFailures := [(4, 16)], common := [(2, 0x8)] } }

theorem test_wit_FabricEvents_links : keysCanonical failing ∧ failing.fabric.linksUp.getLsbD 3 = true ∧ 16 ≤ (tget failing.fabric.replays 3).getD 0 ∧
    failing.fabric.spareUsed.getLsbD 3 = true ∧ failing.fabric.linksUp.getLsbD 4 = true ∧ failing.fabric.spareUsed.getLsbD 4 = false ∧
    16 ≤ (tget failing.fabric.laneFailures 4).getD 0 ∧
    (let f := { failing.fabric with linksUp := 0xFFFFF7 };
      2 ≠ f.domain ∧ 2 ∉ f.lost ∧ (tget f.common 2).getD 0 &&& f.linksUp = 0) :=
  ⟨by unfold keysCanonical; decide +kernel, by decide +kernel⟩
theorem test_wit_FabricEvents_restored : keysCanonical behind ∧ 2 ∈ behind.fabric.lost ∧ behind.fabric.held.length = 1 ∧ behind.mem.wf = true ∧
    behind.fabric.held.map (fun w => (w.hart, w.ended, w.blocks, w.entry.op)) = [(0, 0, 1, .store (leBytes 8 0x8899AABBCCDDEEFF))] :=
  ⟨by unfold keysCanonical; decide +kernel, by decide +kernel⟩
/-- The path returns: the write is performed. -/
theorem test_path_restored : (let t := after (exec (.pathRestored 2 1) behind)
    (t.fabric.held.length, t.fabric.lost)) = (0, []) := by decide +kernel
theorem test_wit_RepairAndBoot : mapped.repair.weak.Nodup ∧ keysCanonical mapped ∧ (3 < 4 ∧ (List.replicate 32 (0 : Byte)).length = 32) ∧
    (mapped.coreAt 191).retired = false ∧ (mapped.hartAt 382).run = .absent ∧ (mapped.hartAt 383).run = .absent ∧
    mapped.parts.Pairwise (fun x y => x.1 < y.1) :=
  ⟨by decide +kernel, by unfold keysCanonical; decide +kernel, by decide +kernel⟩
/-- A correctable code word, found by a pass of the patrol: its count is 1. -/
theorem test_patrol : (let s : State := { mapped with repair := { mapped.repair with weak := [0x40] } }
    let t := after (exec (.hbmPatrolScrub 0) s);
    (t.repair.weak, t.repair.corrected, t.repair.recent, t.repair.log.map fun e => (e.kind, e.count, e.location))) =
    ([], [(0x40, 1)], [0x40], [(1, 1, 0x40)]) := by decide +kernel
theorem test_wit_RepairAndBoot_row : (let s : State := { mapped with poison := [2 ^ 52 + 8] }
    s.poison.filter (fun w => rowOf (.vault 0) w == some (1, 0)) ≠ [] ∧ ((tget s.repair.moved (bankKey (.vault 0) 1)).getD []).length < 2) ∧
    (let s : State := { mapped with repair := { mapped.repair with
      recent := [2 ^ 52 + 8, 2 ^ 52 + 8, 2 ^ 52 + 8], moved := [(bankKey (.vault 0) 1, [4, 5])] } }
    3 ≤ (s.repair.recent.filter fun w => rowOf (.vault 0) w == some (1, 0)).length ∧
      2 ≤ ((tget s.repair.moved (bankKey (.vault 0) 1)).getD []).length) := by
  decide +kernel
/-- Two uncorrectable errors in slice 3 of core 5 and in tile row 15 of cluster 47. -/
def worn : State := { mapped with repair := { mapped.repair with sliceErrors := [(83, 2)], rowErrors := [(767, 2)] } }
theorem test_wit_RepairAndBoot_units : keysCanonical worn ∧ 3 ∉ (worn.coreAt 5).slicesLost ∧ 2 ≤ (tget worn.repair.sliceErrors (16 * 5 + 3)).getD 0 ∧
    (47, 15) ∉ worn.repair.tileRowsLost ∧ 2 ≤ (tget worn.repair.rowErrors (16 * 47 + 15)).getD 0 ∧ (worn.hartAt 0).run = .running :=
  ⟨by unfold keysCanonical; decide +kernel, by decide +kernel⟩

/-! Command streams. Stream 0 of function 0, with its address space. -/

def streaming (x : Stream) : State := rooted.putStream 0 { x with xlat := mapped.hart.sup.xlat1 }

/-- SIGNAL of 9 to 0x1000, its record at 0x2000. -/
def signalCmd : Cmd := #v[3, 0x2000, 0x1000, 9, 0, 0, 0, 0]

theorem procHit_of {s : State} {part : Nat} {root va : Word} {n : Nat} {need : Need} (v : inVaultSpace va = false)
    (h : isHit (s.reachAddr (s.processor part root) va need).2 = true)
    (g : s.admitted part (hitOf (s.reachAddr (s.processor part root) va need).2).loc n need.isWrite = true) :
    ProcHit s part root va n need (hitOf (s.reachAddr (s.processor part root) va need).2).loc := ⟨_, ⟨v, eq_hit h, g⟩, rfl⟩

theorem procMiss_of {s : State} {fn part : Nat} {root va : Word} {n : Nat} {need : Need} (v : inVaultSpace va = true) :
    ProcMiss s fn part root va n need [] := by
  refine ⟨?_, ?_, fun _ => rfl⟩
  · rintro loc ⟨h, ⟨k, -⟩, -⟩; rw [v] at k; cases k
  · rintro ⟨h, -⟩; rw [v] at h; cases h

theorem test_wit_StreamEvents : (streaming Stream.reset).partOfFn 0 = some 0 ∧ (streaming Stream.reset).mem.wf = true ∧
    (∀ p ∈ (streaming Stream.reset).parts, 5 ∉ p.2.functions) ∧ (∃ p ∈ (streaming Stream.reset).parts, 0 ∈ p.2.functions) ∧
    (streaming Stream.reset).streamAt 0 = { Stream.reset with xlat := mapped.hart.sup.xlat1 } := by decide +kernel
/-- STRSTAT of an idle stream, and of one that runs a command. -/
theorem test_strstat : ((streaming Stream.reset).readBar0 0 0x10030, (streaming { Stream.reset with cmd := some signalCmd }).readBar0 0 0x10030,
    (streaming Stream.reset).readBar0 5 0x10030) = (1, 0, 0) := by decide +kernel
theorem test_wit_StreamEvents_ring : (let s : State := streaming { Stream.reset with en := true, log2n := 4, tail := 1, base := 0x1000 }
    let x := s.streamAt 0
    x.en = true ∧ x.stopped = false ∧ x.cmd = none ∧ x.head ≠ x.tail ∧ (x.tail - x.head).toNat ≤ 2 ^ x.log2n.toNat ∧
    ∃ loc, ProcHit s 0 x.xlat (x.base + BitVec.ofNat 64 (64 * (x.head.toNat % 2 ^ x.log2n.toNat))) 64 .read loc ∧ s.unreadable loc 64 = false) :=
  ⟨by decide +kernel, by decide +kernel, by decide +kernel, by decide +kernel, by decide +kernel, _,
   procHit_of (by decide +kernel) (by decide +kernel) (by decide +kernel), by decide +kernel⟩
theorem test_wit_StreamEvents_overfull : (let x : Stream := { Stream.reset with log2n := 4 }
    2 ^ x.log2n.toNat < ((17#32) - x.head).toNat ∧ ((16#32) - x.head).toNat ≤ 2 ^ x.log2n.toNat) := by decide
theorem test_wit_StreamEvents_commands : (let s := streaming { Stream.reset with cmd := some signalCmd }
    WellFormedCommand signalCmd ∧ signalCmd.kind = 3 ∧ (s.streamAt 0).cmd = some signalCmd ∧ (s.streamAt 0).begun = false ∧
    ∃ loc, ProcHit s 0 (s.streamAt 0).xlat (signalCmd.dw 2) 8 .write loc ∧ s.poisoned loc 8 = false ∧ ProcOut s 0 loc) := by
  refine ⟨by unfold WellFormedCommand; decide +kernel, by decide +kernel, by decide +kernel, by decide +kernel, _,
    procHit_of (by decide +kernel) (by decide +kernel) (by decide +kernel), by decide +kernel, by unfold ProcOut; decide +kernel⟩
/-- The processor's write to a peer whose path is lost. -/
theorem test_wit_StreamEvents_held : (let s : State := { streaming Stream.reset with mem := far.mem, fabric := lost.fabric }
    ∃ loc, ProcHit s 0 (s.streamAt 0).xlat (2 ^ 36) 8 .write loc ∧ ¬ ProcOut s 0 loc) :=
  ⟨_, procHit_of (by decide +kernel) (by decide +kernel) (by decide +kernel), fun k => absurd k.1 (by decide +kernel)⟩
theorem test_wit_StreamEvents_miss : ProcMiss (streaming Stream.reset) 0 0 0 0xFFF0000000000000 8 .write [] := procMiss_of (by decide)
theorem test_wit_StreamEvents_wait : (let c : Cmd := #v[2, 0x2000, 0x1000, 1, 0x1_00000001, 0, 0, 0]
    c.kind = 2 ∧ WaitHolds c 0 ∧ ¬ WaitHolds c 1 ∧ (c.dw 4).toNat / 2 ^ 32 ≠ 0) :=
  ⟨by decide, (show (0 : Nat) ≠ 1 by decide), (show ¬ ((1 : Nat) ≠ 1) by decide), by decide⟩
theorem test_wit_StreamEvents_dropped : (let c : Cmd := #v[2, 0x2000, 0x1000, 1, 1, 0, 0, 0]
    let x := (streaming { Stream.reset with cmd := some c, begun := true }).streamAt 0
    x.cmd = some c ∧ c.kind = 2 ∧ x.begun = true ∧ (c.dw 4).toNat / 2 ^ 32 = 0) := by decide +kernel
theorem test_wit_StreamEvents_copy : (let c : Cmd := #v[4, 0x2000, 0x1000, 0x3000, 8, 0, 0, 0]
    let s := streaming { Stream.reset with cmd := some c }
    c.kind = 4 ∧ (c.dw 4).toNat / 2 ^ 40 % 4 = 0 ∧ WellFormedCommand c ∧
    (∀ i, i < 8 → isHit (s.reachAddr (s.processor 0 (s.streamAt 0).xlat) (c.dw 2 + BitVec.ofNat 64 i) .read).2 = true ∧
      isHit (s.reachAddr (s.processor 0 (s.streamAt 0).xlat) (c.dw 3 + BitVec.ofNat 64 i) .write).2 = true)) := by
  unfold WellFormedCommand; decide +kernel
/-- A copy into a skim region; one that pends. -/
theorem test_wit_StreamEvents_skim : (let s : State := { skimmed with streams := [(0, { Stream.reset with copies := [#v[4, 0, 0x1000, 0x30000, 8, 0, 0, 0]] })] }
    inVaultSpace 0x30000 = false ∧ (s.regionAt 0 (s.partAt 0).root2 0x30000).isSome = true ∧ (s.streamAt 0).copies.length = 1) := by decide +kernel

/-! Launches and code objects. -/

def codeObject : CodeObject :=
  { handle := 0x8000, len := 224, part := 0, root := 0, stream := 0, entry := 0x400000, mmrev := 2, errata := 0, req := Vector.replicate 4 0,
    ordered := true, pin := false, nests := [], relocs := [], ncores := 192, status := 0, nseg := 1, segments := [], arrived := 0, nextAt := 160,
    expect := 0, complete := false, failed := false, released := false, compl := 0, irq := false, nowait := false }

def launchCmd : Cmd := #v[1, 0, 0x8000, 0, 0, 0, 0, 0]

def launching : State :=
  { streaming { Stream.reset with cmd := some launchCmd } with objects := [(1, codeObject)], nextObject := 2 }

def launched : State := after (execLaunch 0 0 launching)

theorem test_wit_LaunchAndLoad : launching.partOfFn 0 = some 0 ∧ launching.mem.wf = true ∧ (launching.streamAt 0).cmd = some launchCmd ∧
    launchCmd.kind = 1 ∧ (launching.streamAt 0).begun = false ∧ Named launching 0 (launchCmd.dw 2) 1 codeObject ∧
    NestOf codeObject ((launchCmd.dw 4).toNat % 256) [] [] ∧ (launching.partAt 0).ordinals.length = codeObject.ncores ∧
    (launching.streamAt 0).det = false ∧ MayBegin launching 0 false := by
  refine ⟨by decide +kernel, by decide +kernel, by decide +kernel, by decide +kernel, by decide +kernel, ⟨[], [], rfl, by decide, by simp⟩,
    .inl ⟨rfl, by decide +kernel, rfl, rfl⟩, by decide +kernel, by decide +kernel, ?_⟩
  rintro q ⟨h, -⟩
  exact absurd h (by rw [show launching.launches = [] from rfl]; simp)
theorem test_wit_LaunchAndLoad_unnamed : ∀ id o, ¬ Named launching 0 5 id o := by
  rintro id o ⟨pre, post, h, ⟨-, k, -⟩, -⟩
  have : (id, o) ∈ launching.objects := by rw [h]; simp
  rw [show launching.objects = [(1, codeObject)] from rfl] at this
  simp only [List.mem_singleton, Prod.mk.injEq] at this
  rw [this.2] at k
  exact absurd k (show codeObject.handle ≠ 5 by decide)

/-- Hart 2, on core 1, which backs ordinal 1, is free. -/
theorem test_wit_LaunchAndLoad_handoff : ∃ l, tget launched.launches 1 = some l ∧ tget launched.objects l.object = some codeObject ∧
    Offers launched l 2 0 0 1 := by
  obtain ⟨l, h, k⟩ := some_of (x := tget launched.launches 1) (p := fun l => decide (tget launched.objects l.object = some codeObject ∧
    l.begun.isSome = true ∧ l.ended = none ∧ l.part = 0 ∧ l.det = false ∧ l.spatial = [] ∧ l.handed = [0] ∧ l.total = 1)) (by decide +kernel)
  obtain ⟨a, b, c, d, e, f, g, i⟩ := of_decide_eq_true k
  refine ⟨l, h, a, ?_⟩
  simp only [Offers, b, c, d, e, f, g, i]
  simp only [Bool.false_eq_true, if_false, List.any_nil]
  decide +kernel
theorem test_wit_LaunchAndLoad_completion : keysCanonical launched ∧ ∃ l, tget launched.launches 1 = some l ∧
    (l.begun.isSome && l.running.isEmpty && l.ended.isNone) = true := ⟨by unfold keysCanonical; decide +kernel, some_of (by decide +kernel)⟩

/-- A launch that waits for its turn, and one whose object is released meanwhile. -/
def deferred : State :=
  { launching with
    streams := [(0, { launching.streamAt 0 with begun := true })]
    launches := [(1, ⟨0, 0, 1, mapped.hart.sup.xlat1, 0, 0, false, false, [], [], [], [], none, none, false, 0, false⟩)], nextLaunch := 2 }
theorem test_wit_LaunchAndLoad_deferred : keysCanonical deferred ∧ (∃ l, tget deferred.launches 1 = some l ∧ l.begun = none ∧ l.part = 0 ∧ l.stream = 0) ∧
    MayBegin deferred 0 false ∧ (deferred.streamAt 0).cmd = some launchCmd ∧ Named deferred 0 (launchCmd.dw 2) 1 codeObject := by
  refine ⟨by unfold keysCanonical; decide +kernel, ⟨_, rfl, rfl, rfl, rfl⟩, ?_, by decide +kernel, ⟨[], [], rfl, by decide, by simp⟩⟩
  rintro q ⟨h, -, k⟩
  rw [show deferred.launches = [(1, ⟨0, 0, 1, mapped.hart.sup.xlat1, 0, 0, false, false, [], [], [], [], none, none, false, 0, false⟩)] from rfl] at h
  rw [List.mem_singleton.1 h] at k; cases k
def orphaned : State := { deferred with objects := [(1, { codeObject with released := true })] }
theorem test_wit_LaunchAndLoad_refused : ∀ id o, ¬ Named orphaned 0 (launchCmd.dw 2) id o := by
  rintro id o ⟨pre, post, h, ⟨-, -, k, -⟩, -⟩
  have m : (id, o) ∈ orphaned.objects := by rw [h]; simp
  rw [(Prod.mk.injEq .. ▸ List.mem_singleton.1 m : id = 1 ∧ o = { codeObject with released := true }).2] at k; cases k
theorem test_deferred_refused : (let t := after (exec (.launchDeferredBegin 1) orphaned);
    (t.launches.length, (t.streamAt 0).cmd.isNone)) = (0, true) := by decide +kernel
/-- A running `.pin` launch has had a workgroup on core 1. -/
theorem test_wit_LaunchAndLoad_pinned : (let s := launched.setCoreAt 1 { Core.reset with pinned := [1] }
    (s.coreAt 1).pinned = [1] ∧ ∃ l, tget s.launches 1 = some l ∧ l.part = 0 ∧ l.begun.isSome = true) := by
  refine ⟨by decide +kernel, ?_⟩
  obtain ⟨l, h, k⟩ := some_of (x := tget (launched.setCoreAt 1 { Core.reset with pinned := [1] }).launches 1)
    (p := fun l => decide (l.part = 0 ∧ l.begun.isSome = true)) (by decide +kernel)
  exact ⟨l, h, of_decide_eq_true k⟩

/-- A workgroup of launch 1 runs on hart 2 and has trapped to S. -/
def trapped : State :=
  let s := after (execWorkgroupHandoff 1 2 launched)
  s.setHartAt 2 { s.hartAt 2 with priv := .supervisor }

theorem test_wit_LaunchAndLoad_faulted : keysCanonical trapped ∧ (trapped.hartAt 2).priv = .supervisor ∧
    ∃ l, tget trapped.launches 1 = some l ∧ (l.running == [2] && l.ended.isNone) = true :=
  ⟨by unfold keysCanonical; decide +kernel, by decide +kernel, some_of (by decide +kernel)⟩
theorem test_wit_LaunchAndLoad_dies : (let l : Launch := ⟨0, 0, 1, 0, 0, 0, false, false, [(4, true), (3, false)], [], [], [], none, none, false, 0, false⟩
    (l.spatial.filter Prod.snd).length = 1 ∧ 3 < Partition.full.dies.length ∧ IndicesOf (l.spatial.map Prod.fst) [1, 2] 5) := by
  refine ⟨by decide, by decide, rfl, ?_, by decide⟩
  intro k j c hk hc
  match k with
  | 0 => simp at hk hc; omega
  | 1 => simp at hk hc; omega
  | n + 2 => simp at hk

/-- A header of an object of one segment with no records, and the rest of its prefix. -/
def header : List Byte :=
  leBytes 4 0x004F4B54 ++ leBytes 2 1 ++ [2, 2] ++ leBytes 4 0 ++ leBytes 2 1 ++ [0, 0] ++ leBytes 8 0x400000 ++ List.replicate 104 0
def prefixed : List Byte := header ++ List.replicate 32 0

theorem zero_bytes {bs : List Byte} {lo hi : Nat} (h : ((List.range hi).all fun k => decide (k < lo) || bs.getD k 0 == 0) = true) :
    ZeroBytes bs lo hi := by
  intro k a b
  have := List.all_eq_true.1 h k (List.mem_range.2 b)
  simp only [Bool.or_eq_true, decide_eq_true_eq, beq_iff_eq] at this
  exact this.resolve_left (Nat.not_lt.2 a)

theorem test_wit_LaunchAndLoad_prefix : prefixed.length = prefixLength (prefixed.take 128) ∧ HeaderLegal (prefixed.take 128) ∧ PrefixZero prefixed ∧
    SignatureGood Partition.full prefixed ∧ header.length = 128 ∧ ¬ HeaderLegal (List.replicate 128 0) := by
  refine ⟨by decide +kernel, ⟨by decide +kernel, by decide +kernel, zero_bytes (by decide +kernel), zero_bytes (by decide +kernel), by decide +kernel,
    by decide +kernel, by decide +kernel, by decide +kernel, by unfold InRange; decide +kernel, by decide +kernel⟩, ⟨?_, ?_⟩, ⟨fun _ => rfl, ?_⟩,
    by decide +kernel, ?_⟩
  · intro k h
    rw [show bytesAt prefixed 32 4 = 0 by decide +kernel] at h; omega
  · intro h; exact absurd h (by decide +kernel)
  · intro h; exact absurd h (by decide +kernel)
  · rintro ⟨h, -⟩; exact absurd h (by decide +kernel)
/-- A signed object, by a key that the partition lacks. -/
theorem test_wit_LaunchAndLoad_unsigned : (let b := prefixed.set 15 2 ++ List.replicate 3328 0
    b.length = prefixLength (b.take 128) ∧ ¬ SignatureGood Partition.full b) := by
  refine ⟨by decide +kernel, ?_⟩
  rintro ⟨-, h⟩
  obtain ⟨pre, k, post, e, -⟩ := h (by decide +kernel)
  have : Partition.full.keys = [] := rfl
  rw [this] at e
  cases pre <;> cases e

/-- A record of a data segment of 16 bytes with no content. -/
def record : List Byte := leBytes 8 0x1000000000000 ++ leBytes 4 0 ++ leBytes 4 16 ++ List.replicate 48 0

/-- Object 1 lies in a page of a loaded object, mapped at 0x100000; object 2 is being loaded. -/
def loadCmd : Cmd := #v[4, 0, 0x108000, 0, 224 + 2 ^ 40, 0, 0, 0]
def loading0 : State :=
  let s := streaming { Stream.reset with cmd := some loadCmd }
  { s with
    mem := writeCells s.mem 0x8000 (prefixed ++ record), nextObject := 3
    objects := [(1, { codeObject with complete := true, root := mapped.hart.sup.xlat1, segments := [⟨0x100000, 0, 0x10000, 2, some 0⟩] }),
      (2, { codeObject with handle := 0x108000, root := mapped.hart.sup.xlat1, expect := shake256 record })] }

theorem streamBytes_of {s : State} {part : Nat} {root va : Word} {bs : List Byte}
    (h : ∀ i, i < bs.length → inVaultSpace (va + BitVec.ofNat 64 i) = false ∧
      isHit (s.reachAddr (s.processor part root) (va + BitVec.ofNat 64 i) .read).2 = true ∧
      s.admitted part (hitOf (s.reachAddr (s.processor part root) (va + BitVec.ofNat 64 i) .read).2).loc 1 false = true ∧
      s.unreadable (hitOf (s.reachAddr (s.processor part root) (va + BitVec.ofNat 64 i) .read).2).loc 1 = false ∧
      bs[i]? = some (s.byte (hitOf (s.reachAddr (s.processor part root) (va + BitVec.ofNat 64 i) .read).2).loc)) :
    StreamBytes s part root va bs := fun i hi =>
  let k := h i hi
  ⟨_, procHit_of k.1 k.2.1 k.2.2.1, k.2.2.2.1, k.2.2.2.2⟩

theorem test_wit_LaunchAndLoad_load : (loadCmd.kind = 4 ∧ (loadCmd.dw 4).toNat / 2 ^ 40 % 4 = 1 ∧ (loading0.streamAt 0).cmd = some loadCmd) ∧
    StreamBytes loading0 0 (loading0.streamAt 0).xlat (loadCmd.dw 2) prefixed :=
  ⟨by decide +kernel, streamBytes_of (by decide +kernel)⟩
def arriving : CodeObject := { codeObject with handle := 0x108000, root := mapped.hart.sup.xlat1, expect := shake256 record }

theorem test_wit_LaunchAndLoad_segment : tget loading0.objects 2 = some arriving ∧ (arriving.complete = false ∧ arriving.failed = false ∧
      arriving.nextAt + 64 ≤ arriving.len ∧ record.length = 64 ∧ bytesAt record 8 4 = 0 ∧ arriving.arrived < arriving.nseg) ∧ SegmentLegal record ∧
    (∀ page, OnPage (announcedBy record) page → PageOpen loading0 2 arriving (announcedBy record).kind page) ∧
    FrameHolds loading0 arriving.part 0x90000 (pageCount (announcedBy record)) ∧
    shake256 (record ++ []) = arriving.expect ∧ StreamBytes loading0 arriving.part arriving.root (arriving.handle + BitVec.ofNat 64 arriving.nextAt) record ∧
    (announcedBy record).va.toNat % 65536 + (announcedBy record).memsz ≤ 65536 := by
  refine ⟨rfl, by decide +kernel, ⟨by decide +kernel, by unfold InRange; decide +kernel, by decide +kernel, by decide +kernel, zero_bytes (by decide +kernel),
    fun _ => ⟨by unfold InRange; decide +kernel, by decide +kernel⟩⟩, ?_, ?_, congrArg shake256 (List.append_nil record), streamBytes_of (by decide +kernel), by decide +kernel⟩
  · rintro page ⟨-, h1, h2⟩
    have e1 : (announcedBy record).va.toNat / 65536 = 0x100000000 := by decide +kernel
    have e2 : ((announcedBy record).va.toNat + (announcedBy record).memsz - 1) / 65536 = 0x100000000 := by decide +kernel
    have e : page = 0x100000000 := by omega
    subst e
    refine ⟨?_, ?_, ?_⟩
    · intro l h
      have : loading0.stage1 arriving.part arriving.root (loading0.partAt arriving.part).root2 (0x100000000 * 65536) = .invalid := by decide +kernel
      rw [this] at h; cases h
    · intro q hq n _ _ _ g hg _ on
      have : q = (1, { codeObject with complete := true, root := mapped.hart.sup.xlat1, segments := [⟨0x100000, 0, 0x10000, 2, some 0⟩] }) := by
        rcases List.mem_cons.1 hq with h | h
        · exact h
        · exact absurd (by rw [List.mem_singleton.1 h]) n
      subst this
      rw [List.mem_singleton.1 hg] at on
      exact absurd on.2.2 (by decide)
    · intro k g h; exact absurd h (show ¬ k < 0 by omega)
  · refine ⟨by decide, by decide +kernel, ?_⟩
    rw [show pageCount (announcedBy record) = 1 by decide +kernel]
    intro k hk
    obtain rfl : k = 0 := by omega
    exact ⟨⟨0, 36, true, true⟩, by decide +kernel, by decide +kernel⟩
/-- The published SHAKE256 output of the empty message: 46b9dd2b0ba88d13233b3feb743eeb243fcd52ea62b81b82b50c27646ed5762f. -/
theorem test_shake256 : (shake256 []).toNat = 21468664885170662639985957090336418708702569955620632736621138429888230701382 := by decide +kernel
theorem test_wit_LaunchAndLoad_release : (let c : Cmd := #v[4, 0, 0x8000, 0, 2 * 2 ^ 40, 0, 0, 0]
    c.kind = 4 ∧ (c.dw 4).toNat / 2 ^ 40 % 4 = 2 ∧ WellFormedCommand c) := by unfold WellFormedCommand; decide +kernel
theorem test_wit_LaunchAndLoad_reloc : (let w0 := 0x20000#64
    w0.toNat % 65536 = codeObject.arrived ∧ codeObject.arrived < codeObject.nseg ∧ w0.toNat / 65536 % 256 = 2 ∧
    w0.toNat / 2 ^ 32 + 4 ≤ (List.replicate 8 (0 : Byte)).length) ∧
    isSI (0b110_000010_00_00101_00101_00000000000) = true := by decide +kernel

/-! Partitions. -/

/-- Partition 0 gives up core 7, partition 1 has a vacant ordinal. -/
def moving : State :=
  { State.reset with
    parts := [(0, { Partition.full with minCores := 1 }), (1, { Partition.full with ordinals := [none], target := 1, functions := [] })] }

theorem test_wit_PartitionEvents : keysCanonical moving ∧ moving.mem.wf = true ∧ (let d := moving.partAt 0
    let r := moving.partAt 1
    some 7 ∈ d.ordinals ∧ d.pair = none ∧ r.pair = none ∧ (moving.hartAt 14).run = .absent ∧ (moving.hartAt 15).run = .absent ∧
    moving.launches = [] ∧ d.minCores + 1 ≤ (d.ordinals.filter Option.isSome).length ∧ r.target ≠ 0 ∧
    (moving.repair.vaultZeroing.filter fun v => v.2 == 1).length < (r.ordinals.filter Option.isNone).length) :=
  ⟨by unfold keysCanonical; decide +kernel, by decide +kernel, by decide +kernel⟩
/-- Core 7 is on its way: no second core goes to the one vacant ordinal. -/
def moved : State := after (execServiceWindowExpiry 0 1 7 moving)
theorem test_wit_PartitionEvents_zeroing : keysCanonical moved ∧ moved.repair.vaultZeroing = [] ++ (7, 1) :: [] ∧ ¬ VaultInFlight moved 7 none [] ∧
    (moved.coreAt 7).retired = false ∧ (moved.partAt 1).ordinals = [] ++ none :: [] ∧
    ¬ ((moved.repair.vaultZeroing.filter fun v => v.2 == 1).length < ((moved.partAt 1).ordinals.filter Option.isNone).length) := by
  refine ⟨by unfold keysCanonical; decide +kernel, by decide +kernel, not_in_flight_idle (by decide +kernel) ?_, by decide +kernel⟩
  have e : moved.harts.length = 0 := by decide +kernel
  intro n h
  rcases h with h | ⟨p, h, -⟩
  · rw [h]; decide +kernel
  · rw [List.eq_nil_of_length_eq_zero e] at h; cases h
/-- A store to the vault of core 0 is buffered. -/
def vaultStore : State := after (exec (.sd 2 1 0) (regs [(1, 0xFFF0000000800000)] inStrip))
theorem test_wit_PartitionEvents_flight : VaultInFlight vaultStore 0 none [] := by
  refine .inr ⟨0, .inl (by decide +kernel), by simp, .inl ⟨by decide +kernel, ?_⟩⟩
  have h : vaultStore.hart.strip.buf.map BufEntry.loc = [2 ^ 52] := by decide +kernel
  have b : (vaultStore.hartAt 0).strip.buf = vaultStore.hart.strip.buf := by decide +kernel
  rw [b]
  obtain ⟨e, m, k⟩ := List.mem_map.1 (show 2 ^ 52 ∈ vaultStore.hart.strip.buf.map BufEntry.loc by rw [h]; simp)
  exact ⟨e, m, by rw [k]; exact ⟨by decide, by decide⟩⟩

def request : PartitionRequest := ⟨2, [5, 6], 1, 1, 0, 10, none, [3], [0x1000], 0x1000000, false, [], 0⟩
def vacated : State := { State.reset with parts := [] }

theorem test_wit_PartitionEvents_create : Creatable vacated request ∧ keysCanonical vacated := by
  refine ⟨?_, by unfold keysCanonical; decide +kernel⟩
  refine ⟨by decide, rfl, by decide, by decide, ?_, ?_, ?_, by decide, by decide, ?_, ⟨by decide, by decide⟩, ?_, ?_, by decide, by decide, ⟨by decide, by decide, ?_⟩⟩
  · intro c hc
    have h : ∀ c ∈ request.cores, c < 192 ∧ vacated.boot.unitMap.engines.getLsbD (c / 4) = true ∧ vacated.boot.unitMap.cores.getLsbD c = true ∧ (vacated.coreAt c).retired = false ∧
      vacated.boot.diesUp.getLsbD (dieOf c) = true ∧ vacated.boot.huskUp.getLsbD (dieOf c) = true := by decide +kernel
    have b : vacated.boot.unitMap.banksAbsent = [] := by decide +kernel
    have z : vacated.repair.vaultZeroing = [] := by decide +kernel
    exact ⟨(h c hc).1, ⟨by simp [b], (h c hc).2⟩, by simp [z], fun q hq => absurd hq (by simp [vacated])⟩
  · intro k hk
    have h : ∀ k, k < 8 → request.hbm.getLsbD k = true → vacated.boot.unitMap.hbm.getLsbD k = true := by decide +kernel
    exact h k (Nat.lt_of_not_le fun n => by rw [BitVec.getLsbD_of_ge _ _ n] at hk; cases hk) hk
  · intro k hk; simp [request] at hk
  · intro q hq; exact absurd hq (by simp [vacated])
  · intro q hq; exact absurd hq (by simp [request])
  · intro f hf
    simp only [request, List.mem_singleton] at hf
    subst hf
    exact ⟨by decide, by decide, fun q hq => absurd hq (by simp [vacated])⟩
  · intro k h1 h2
    obtain rfl : k = 0 := by
      have : (request.saveBase.toNat + 4194304 * request.cores.length - 1) / 2 ^ 36 = 0 := by decide
      omega
    decide
/-- Partition 1 of core 0 grows by core 5. -/
def small : State :=
  { State.reset with parts := [(1, { Partition.full with ordinals := [some 0], minCores := 1, envelope := 10, saveBase := 0x1000000 })] }
theorem test_wit_PartitionEvents_resize : keysCanonical small ∧ small.launches = [] ∧ (let p := small.partAt 1
    tget small.parts 1 = some p ∧ p.minCores ≤ ((p.ordinals.take 2 ++ ([0, 5].drop 1).map some).filter Option.isSome).length ∧ p.ordinals[0]? = some (some 0) ∧
    p.ordinals.length = 1 ∧ p.pair = none ∧ 5 * 2 ≤ p.envelope) ∧ SaveArea (small.partAt 1).saveBase 2 (small.partAt 1).hbm ∧
    Powers small 1 2 (small.partAt 1).envelope ∧ Up small 5 ∧ ¬ HeldBy small 1 5 ∧ (∀ q ∈ small.parts, q.1 = 1) := by
  refine ⟨by unfold keysCanonical; decide +kernel, rfl, by decide +kernel, ⟨by decide +kernel, by decide +kernel, ?_⟩, by unfold Powers; decide +kernel,
    by unfold Up; decide +kernel, by unfold HeldBy; decide +kernel, by decide +kernel⟩
  intro k h1 h2
  obtain rfl : k = 0 := by
    have : ((small.partAt 1).saveBase.toNat + 4194304 * 2 - 1) / 2 ^ 36 = 0 := by decide +kernel
    omega
  decide +kernel
theorem test_resize : (tget (after (exec (.partitionResize 1 [0, 5]) small)).parts 1).map Partition.ordinals = some [some 0, some 5] := by decide +kernel
theorem test_wit_PartitionEvents_destroy : tget small.parts 1 = some (small.partAt 1) ∧ (small.partAt 1).pair = none ∧
    Powers small 1 1 1200 ∧ ¬ Powers small 1 1 4 := by
  refine ⟨by decide +kernel, by decide +kernel, ?_, ?_⟩ <;> (unfold Powers; decide +kernel)

/-- Two members of a pair; member 0 runs, and holds core 0, member 1 holds core 1 too. -/
def paired : State :=
  let p : Partition := { Partition.full with ordinals := [some 0], minCores := 1, envelope := 5, functions := [], roots := [0x1000] }
  { State.reset with
    hart := { State.reset.hart with run := .absent }
    parts := [(0, { p with pair := some 1 }), (1, { p with ordinals := [some 0, some 1], pair := some 0, half := true, active := false })] }

theorem test_wit_PartitionEvents_switch : keysCanonical paired ∧ (let p := paired.partAt 0
    let cores := (List.range 192).filter fun c => p.ordinals.contains (some c) || (paired.partAt 1).ordinals.contains (some c)
    let harts := cores.flatMap fun c => [2 * c, 2 * c + 1]
    p.pair = some 1 ∧ p.active = true ∧ harts = [0, 1, 2, 3] ∧ paired.cur < 384 ∧
    ∀ h ∈ harts, (paired.hartAt h).run = .absent ∧ ((paired.coreAt (coreOf h)).matrix).isNone = true ∧
      (tget paired.harts (h + 384 * (0 + 1))).isNone = true ∧ (tget paired.saved (h + 384 * (0 + 1))).isNone = true ∧
      (tget paired.saved (h + 384 * (1 + 1))).isNone = true ∧ (paired.hartAt (h + 384 * (1 + 1))).run = .absent) :=
  ⟨by unfold keysCanonical; decide +kernel, by decide +kernel⟩
/-- A hart in S is not halted yet: the switch waits for it. -/
theorem test_wit_PartitionEvents_stays : (let s := { paired with hart := { paired.hart with run := .running, priv := .supervisor } }
    (s.hartAt 0).run = .running ∧ (s.hartAt 0).priv = .supervisor) := by decide +kernel
theorem test_wit_PartitionEvents_teardown : (let s := mapped.withRun .frozen
    keysCanonical s ∧ s.mem.wf = true ∧ (s.hartAt 0).ctl.part = 0 ∧ (s.hartAt 0).run = .frozen ∧ (s.hartAt 0).ctl.rejected = false) :=
  ⟨by unfold keysCanonical; decide +kernel, by decide +kernel⟩
theorem test_wit_PartitionEvents_reset : keysCanonical launched ∧ 1 ≤ 3 ∧ 3 ≤ 192 ∧ ∃ l, tget launched.launches 1 = some l ∧ l.stream / 16 = 0 := by
  refine ⟨by unfold keysCanonical; decide +kernel, by decide, by decide, ?_⟩
  obtain ⟨l, h, k⟩ := some_of (x := tget launched.launches 1) (p := fun l => l.stream / 16 == 0) (by decide +kernel)
  exact ⟨l, h, by simpa using k⟩

/-- Two images and their matrix states fit the shadow SRAM of a core (R295). -/
theorem test_shadow_fits : 4 * (2 * imageSize + 1048576) + 2097152 = 7252 * 1024 ∧
    4 * (2 * imageSize + 1048576) + 2097152 ≤ 4 * Config.shadowBytes := by decide +kernel

end Sys2Proof.Machine
end

section
/-! PROOFS. What the immediate scalar instructions and the compressed forms that compute give (spec/05 R84, R85; spec/03 R69). -/

open Sys2Proof Sys2Proof.Machine

namespace Sys2Proof.Machine

/-! ### Shifts and comparisons as arithmetic -/

theorem shiftLeft_ofNat (x : Word) (n : Nat) : x <<< n = BitVec.ofNat 64 (x.toNat * 2 ^ n) := by
  apply BitVec.eq_of_toNat_eq
  rw [BitVec.toNat_shiftLeft, BitVec.toNat_ofNat, Nat.shiftLeft_eq]

theorem ushiftRight_ofNat (x : Word) (n : Nat) : x >>> n = BitVec.ofNat 64 (x.toNat / 2 ^ n) := by
  rw [← Nat.shiftRight_eq_div_pow, ← BitVec.toNat_ushiftRight, BitVec.ofNat_toNat, BitVec.setWidth_eq]

theorem sshiftRight_ofInt (x : Word) (n : Nat) : x.sshiftRight n = BitVec.ofInt 64 (x.toInt / 2 ^ n) := by
  rw [BitVec.sshiftRight, Int.shiftRight_eq_div_pow, Int.natCast_pow, Int.cast_ofNat_Int]

theorem toInt_simm11 (i : BitVec 11) : (simm11 i).toInt = i.toInt :=
  BitVec.toInt_signExtend_of_le (by decide)

theorem flagWord_slt (x y : Word) : flagWord (x.slt y) = if x.toInt < y.toInt then 1 else 0 := by
  simp [flagWord, BitVec.slt]

/-! ### 16 bits replaced (R85) -/

/-- A bit of the result is one of k where k stands, and the bit of v elsewhere. -/
theorem getLsbD_insert16 (v : Word) (lo : Nat) (k : BitVec 16) (j : Nat) (hj : j < 64) :
    (insert16 v lo k).getLsbD j = if lo ≤ j ∧ j < lo + 16 then k.getLsbD (j - lo) else v.getLsbD j := by
  have ones : (0xFFFF#64).getLsbD (j - lo) = decide (j - lo < 16) := by
    rw [show 0xFFFF#64 = (BitVec.allOnes 16).setWidth 64 from rfl]
    simp only [BitVec.getLsbD_setWidth, BitVec.getLsbD_allOnes]
    grind
  simp only [insert16, BitVec.getLsbD_or, BitVec.getLsbD_and, BitVec.getLsbD_not, BitVec.getLsbD_shiftLeft,
    BitVec.getLsbD_setWidth, ones]
  grind

/-- The 16 bits from bit `lo` replaced: the bits above, k, and the bits below, side by side. -/
theorem insert16_eq_append (v : Word) (lo hi : Nat) (k : BitVec 16) (h : hi + 16 + lo = 64) :
    insert16 v lo k = (v.extractLsb' (lo + 16) hi ++ k ++ v.extractLsb' 0 lo).cast h := by
  apply BitVec.eq_of_getLsbD_eq
  intro j hj
  simp only [getLsbD_insert16 v lo k j hj, BitVec.getLsbD_cast, BitVec.getLsbD_append, BitVec.getLsbD_extractLsb']
  rcases (by omega : j < lo ∨ (lo ≤ j ∧ j < lo + 16) ∨ lo + 16 ≤ j) with below | inside | above
  · simp [below, Nat.not_le.mpr below]
  · simp [inside, Nat.not_lt.mpr inside.1, show j - lo < 16 by omega]
  · simp [show ¬ j < lo by omega, show ¬ j < lo + 16 by omega, show ¬ j - lo < 16 by omega,
      show j - lo - 16 < hi by omega, show lo + 16 + (j - lo - 16) = j by omega]

/-- With the highest 16 bits replaced, nothing stands above them. -/
theorem insert16_top (v : Word) (k : BitVec 16) : insert16 v 48 k = k ++ v.extractLsb' 0 48 := by
  rw [insert16_eq_append v 48 0 k rfl, BitVec.zero_width_append, BitVec.cast_eq]
  rfl

end Sys2Proof.Machine

/-- Settles O2: each instruction writes one register, with a value that the lemmas above bring to the statement's form. -/
theorem scalarImmediates : Obligations.ScalarImmediates := by
  unfold Obligations.ScalarImmediates
  intro s d a i n k
  dsimp only
  refine ⟨?addi, ?andi, ?ori, ?xori, ?slli, ?srli, ?srai, ?slti, ?lil, ?lih, ?lix, ?liy, ?cAddi, ?cLi, ?cMv, ?cAdd, ?cSub⟩
  case addi => exact scalarResult_gives rfl (congrArg _ (signExtend_ofInt i))
  case andi => exact scalarResult_gives rfl (congrArg _ (signExtend_ofInt i))
  case ori => exact scalarResult_gives rfl (congrArg _ (signExtend_ofInt i))
  case xori => exact scalarResult_gives rfl (congrArg _ (signExtend_ofInt i))
  case slli => exact scalarResult_gives rfl (shiftLeft_ofNat _ _)
  case srli => exact scalarResult_gives rfl (ushiftRight_ofNat _ _)
  case srai => exact scalarResult_gives rfl (sshiftRight_ofInt _ _)
  case slti => exact scalarResult_gives rfl (toInt_simm11 i ▸ flagWord_slt _ _)
  case lil => exact scalarResult_gives rfl (signExtend_ofInt k)
  case lih => exact scalarResult_gives rfl (insert16_eq_append _ 16 32 k rfl)
  case lix => exact scalarResult_gives rfl (insert16_eq_append _ 32 16 k rfl)
  case liy => exact scalarResult_gives rfl (insert16_top _ k)
  case cAddi => exact signExtend_ofInt n ▸ finish_gives rfl
  case cLi => exact signExtend_ofInt n ▸ finish_gives rfl
  case cMv => exact finish_gives rfl
  case cAdd => exact finish_gives rfl
  case cSub => exact finish_gives rfl

end

section
/-! PROOFS. What the integer vector instructions and the mask instructions give (spec/06 R109, R115). -/

open Sys2Proof Sys2Proof.Machine

namespace Sys2Proof.Machine

/-! ### Integer operations on elements as arithmetic (R109) -/

theorem elem_mul_ofInt (x y : Elem) : x * y = BitVec.ofInt 32 (x.toInt * y.toInt) := by
  rw [BitVec.ofInt_mul, BitVec.ofInt_toInt, BitVec.ofInt_toInt]

theorem signedMin_ofInt (x y : Elem) : (if y.slt x then y else x) = BitVec.ofInt 32 (min x.toInt y.toInt) := by
  simp only [BitVec.slt_iff_toInt_lt]
  split
  next lt => rw [Int.min_eq_right (Int.le_of_lt lt), BitVec.ofInt_toInt]
  next ge => rw [Int.min_eq_left (Int.not_lt.mp ge), BitVec.ofInt_toInt]

theorem signedMax_ofInt (x y : Elem) : (if x.slt y then y else x) = BitVec.ofInt 32 (max x.toInt y.toInt) := by
  simp only [BitVec.slt_iff_toInt_lt]
  split
  next lt => rw [Int.max_eq_right (Int.le_of_lt lt), BitVec.ofInt_toInt]
  next ge => rw [Int.max_eq_left (Int.not_lt.mp ge), BitVec.ofInt_toInt]

theorem unsignedMin_ofNat (x y : Elem) : (if y.ult x then y else x) = BitVec.ofNat 32 (min x.toNat y.toNat) := by
  simp only [BitVec.ult_iff_lt, BitVec.lt_def]
  split
  next lt => rw [Nat.min_eq_right (Nat.le_of_lt lt), BitVec.ofNat_toNat, BitVec.setWidth_eq]
  next ge => rw [Nat.min_eq_left (Nat.not_lt.mp ge), BitVec.ofNat_toNat, BitVec.setWidth_eq]

theorem unsignedMax_ofNat (x y : Elem) : (if x.ult y then y else x) = BitVec.ofNat 32 (max x.toNat y.toNat) := by
  simp only [BitVec.ult_iff_lt, BitVec.lt_def]
  split
  next lt => rw [Nat.max_eq_right (Nat.le_of_lt lt), BitVec.ofNat_toNat, BitVec.setWidth_eq]
  next ge => rw [Nat.max_eq_left (Nat.not_lt.mp ge), BitVec.ofNat_toNat, BitVec.setWidth_eq]

/-- Saturation by minimum and maximum is saturation by comparison. -/
theorem saturate32_cases (v : Int) : saturate32 v =
    BitVec.ofInt 32 (if v < -2147483648 then -2147483648 else if 2147483647 < v then 2147483647 else v) := by
  rw [saturate32]
  congr 1
  omega

theorem elem_shiftLeft_ofNat (x : Elem) (n : Nat) : x <<< n = BitVec.ofNat 32 (x.toNat * 2 ^ n) := by
  apply BitVec.eq_of_toNat_eq
  rw [BitVec.toNat_shiftLeft, BitVec.toNat_ofNat, Nat.shiftLeft_eq]

theorem elem_ushiftRight_ofNat (x : Elem) (n : Nat) : x >>> n = BitVec.ofNat 32 (x.toNat / 2 ^ n) := by
  rw [← Nat.shiftRight_eq_div_pow, ← BitVec.toNat_ushiftRight, BitVec.ofNat_toNat, BitVec.setWidth_eq]

theorem elem_sshiftRight_ofInt (x : Elem) (n : Nat) : x.sshiftRight n = BitVec.ofInt 32 (x.toInt / 2 ^ n) := by
  rw [BitVec.sshiftRight, Int.shiftRight_eq_div_pow, Int.natCast_pow, Int.cast_ofNat_Int]

/-! ### Elementwise instructions that raise no flag -/

section
variable {i : Instr} {s : State} {d a : BitVec 5} {b : BOp} {m : BitVec 3}

/-- An elementwise instruction whose operation raises nothing writes its results and leaves fflags. -/
theorem vectorOp_quiet {op : State → Nat → Elem} (h : Operable s d a b m)
    (he : exec i s = vectorOp s d a b m false fun t e => (op t e, 0)) (hop : ∀ c, op (s.withStrip c) = op s) :
    WritesGroup i s (s.vUse a 1 ++ s.bUse b ++ pUse m) d (onActive s m (op s)) (Unflagged s) := by
  obtain ⟨hd, ha, hb, hr⟩ := h
  have hop' (c : Strip) : (fun e => (op (s.withStrip c) e, (0 : FFlags))) = fun e => (op s e, 0) := by rw [hop c]
  exact (vectorOp_gives he hd ha hb hr hop').quiet fun _ => rfl

/-- An integer instruction computes any function that its operation is equal to. -/
theorem vectorOp_computesI {f g : Elem → Elem → Elem} (h : Operable s d a b m)
    (he : exec i s = vectorOp s d a b m false fun t e => (intOp f (t.elem a e) (t.bInt b e), 0))
    (hf : ∀ x y, f x y = g x y) : ComputesI i s d a b m g := by
  obtain rfl : f = g := funext fun x => funext (hf x)
  exact vectorOp_quiet h he fun _ => rfl

/-- A shift computes any function of the element and the amount that its operation is equal to. -/
theorem vectorOp_shifts {f g : Elem → Nat → Elem} (h : Operable s d a b m)
    (he : exec i s = vectorOp s d a b m false fun t e => (f (t.elem a e) (t.bShift b e), 0)) (hf : ∀ x n, f x n = g x n) :
    WritesGroup i s (s.vUse a 1 ++ s.bUse b ++ pUse m) d (onActive s m fun e => g (s.elem a e) (s.bShift b e))
      (Unflagged s) := by
  obtain rfl : f = g := funext fun x => funext (hf x)
  exact vectorOp_quiet h he fun _ => rfl

end

/-! ### Instructions that write a mask (R115) -/

section
variable {i : Instr} {s : State} {d a b : BitVec 5} {m : BitVec 3}

/-- An instruction whose fields and operands pass and that then writes mask d bit by bit. -/
theorem maskIssue_gives {fields : List (Unit → Option FaultInfo)} {reads : List Use} {op : State → Nat → Bool}
    (he : exec i s = vectorIssue s fields false reads (mUse d 0) fun t => finish (t.maskwise d.toNat m (op t)) 4)
    (hd : d.toNat < 8) (hf : ∀ c ∈ fields, c () = none) (hr : Ready s reads (mUse d 0))
    (hop : ∀ c, op (s.withStrip c) = op s) : WritesMask i s reads d (onActive s m (op s)) := by
  refine writesMask_intro hr.1 hd ?_
  rw [he, vectorIssue_pass hf rfl hr, mark_open hr.1, hop]
  rfl

theorem maskOp_gives {f : Bool → Bool → Bool} (he : exec i s = maskOp s d a b m f) (hd : d.toNat < 8) (ha : a.toNat < 8)
    (hb : b.toNat < 8) (hr : Ready s (mUse a 1 ++ mUse b 2 ++ pUse m) (mUse d 0)) :
    WritesMask i s (mUse a 1 ++ mUse b 2 ++ pUse m) d
      (onActive s m fun e => f (s.maskBit a.toNat e) (s.maskBit b.toNat e)) :=
  maskIssue_gives he hd
    (by simp only [List.forall_mem_cons, List.not_mem_nil, false_implies, implies_true, maskCheck_none hd,
      maskCheck_none ha, maskCheck_none hb, and_self]) hr fun _ => rfl

theorem maskFill_gives {v : Bool} (he : exec i s = maskFill s d m v) (hd : d.toNat < 8)
    (hr : Ready s (pUse m) (mUse d 0)) : WritesMask i s (pUse m) d (onActive s m fun _ => v) :=
  maskIssue_gives he hd
    (by simp only [List.forall_mem_cons, List.not_mem_nil, false_implies, implies_true, maskCheck_none hd,
      and_self]) hr fun _ => rfl

theorem mnot_gives (hd : d.toNat < 8) (ha : a.toNat < 8) (hr : Ready s (mUse a 1 ++ pUse m) (mUse d 0)) :
    WritesMask (.mnot d a m) s (mUse a 1 ++ pUse m) d (onActive s m fun e => !s.maskBit a.toNat e) :=
  maskIssue_gives (op := fun t e => !t.maskBit a.toNat e) rfl hd
    (by simp only [List.forall_mem_cons, List.not_mem_nil, false_implies, implies_true, maskCheck_none hd,
      maskCheck_none ha, and_self]) hr fun _ => rfl

theorem mfromv_gives (hd : d.toNat < 8) (ha : Aligned s a) (hr : Ready s (s.vUse a 1 ++ pUse m) (mUse d 0)) :
    WritesMask (.mfromv d a m) s (s.vUse a 1 ++ pUse m) d (onActive s m fun e => decide (s.elem a e ≠ 0)) := by
  simp only [decide_not]
  exact maskIssue_gives (op := fun t e => t.elem a e != 0) rfl hd
    (by simp only [List.forall_mem_cons, List.not_mem_nil, false_implies, implies_true, maskCheck_none hd,
      alignCheck_none ha, and_self]) hr fun _ => rfl

end

end Sys2Proof.Machine

/-- Settles O18: each instruction is an elementwise operation without flags, whose operation the lemmas above bring to the
statement's arithmetic. -/
theorem vectorInteger : Obligations.VectorInteger := by
  unfold Obligations.VectorInteger
  intro s d a b m h
  dsimp only
  refine ⟨?vadd, ?vsub, ?vmul, ?vmulh, ?vmin, ?vmax, ?vminu, ?vmaxu, ?vand, ?vor, ?vxor, ?vsadd, ?vssub, ?vsll, ?vsrl, ?vsra⟩
  case vadd => exact vectorOp_computesI h rfl fun _ _ => rfl
  case vsub => exact vectorOp_computesI h rfl fun _ _ => rfl
  case vmul => exact vectorOp_computesI h rfl elem_mul_ofInt
  case vmulh => exact vectorOp_computesI h rfl fun _ _ => rfl
  case vmin => exact vectorOp_computesI h rfl signedMin_ofInt
  case vmax => exact vectorOp_computesI h rfl signedMax_ofInt
  case vminu => exact vectorOp_computesI h rfl unsignedMin_ofNat
  case vmaxu => exact vectorOp_computesI h rfl unsignedMax_ofNat
  case vand => exact vectorOp_computesI h rfl fun _ _ => rfl
  case vor => exact vectorOp_computesI h rfl fun _ _ => rfl
  case vxor => exact vectorOp_computesI h rfl fun _ _ => rfl
  case vsadd => exact vectorOp_computesI h rfl fun _ _ => saturate32_cases _
  case vssub => exact vectorOp_computesI h rfl fun _ _ => saturate32_cases _
  case vsll => exact vectorOp_shifts h rfl elem_shiftLeft_ofNat
  case vsrl => exact vectorOp_shifts h rfl elem_ushiftRight_ofNat
  case vsra => exact vectorOp_shifts h rfl elem_sshiftRight_ofInt

/-- Settles O23: each instruction passes its checks and writes mask d bit by bit. -/
theorem maskInstructions : Obligations.MaskInstructions := by
  unfold Obligations.MaskInstructions
  intro s d a b m hd
  dsimp only
  refine ⟨fun ha hb hr => ⟨?mand, ?mor, ?mxor, ?mandn⟩, ?mnot, fun hr => ⟨?mset, ?mclr⟩, ?mfromv⟩
  case mand => exact maskOp_gives (f := and) rfl hd ha hb hr
  case mor => exact maskOp_gives (f := or) rfl hd ha hb hr
  case mxor => exact maskOp_gives (f := xor) rfl hd ha hb hr
  case mandn => exact maskOp_gives (f := fun x y => x && !y) rfl hd ha hb hr
  case mnot => exact mnot_gives hd
  case mset => exact maskFill_gives rfl hd hr
  case mclr => exact maskFill_gives rfl hd hr
  case mfromv => exact mfromv_gives hd

end
